-- ==== Sys2Proof/Word.lean ====
section
/-! DEFINITION. The byte of a line frame (R50) and nothing else: every other quantity of the manual is a count,
an index, a signed correction or a name, and is held as a Nat, an Int or an inductive. -/

set_option autoImplicit false

namespace Sys2Proof

/-- One byte of a line frame (R50). -/
abbrev Byte := BitVec 8

end Sys2Proof
end

