-- ==== Sys2Proof/Syntax.lean ====
section
/-! DEFINITION. The names of the manual (ports, regions, tables, kinds) and `Instr`: one constructor for each row of
spec/opcode_table.json. The table gives its rows no operand bits; the operands are those the rule of the row names. -/

set_option autoImplicit false

namespace Sys2Proof

/-- The two console ports (section 1.2). -/
inductive Port where
  | a
  | b
deriving DecidableEq, Repr

/-- The eight regions of the plan (R63). -/
inductive Region where
  | cal
  | dpl
  | ovr
  | pat
  | zon
  | drl
  | lin
  | prt
deriving DecidableEq, Repr

/-- The twenty-one tables of the plan (R64). -/
inductive Tbl where
  | weekday
  | daytype
  | except
  | timeset
  | plan
  | override
  | pattern
  | segment
  | group
  | zone
  | zoneset
  | program
  | stage
  | schedule
  | drillset
  | line
  | device
  | poll
  | portset
  | operator
  | level
deriving DecidableEq, Repr

/-- A region's two banks (R63). -/
inductive Bank where
  | live
  | staged
deriving DecidableEq, Repr

/-- Operator classes in rising order (section 4.4). -/
inductive OpClass where
  | none
  | viewer
  | staff
  | office
  | safety
deriving DecidableEq, Repr

/-- Audio sources of a page (R134). -/
inductive Source where
  | micA
  | micB
  | aux
deriving DecidableEq, Repr

/-- A zone's bell medium and a bell part's medium (R95, R127). -/
inductive Medium where
  | sounder
  | speaker
  | both
deriving DecidableEq, Repr

/-- The medium of a bell entry (R87). -/
inductive EntryMedium where
  | zoneDefault
  | sounderOnly
  | speakerOnly
deriving DecidableEq, Repr

/-- Contention policies of a zone (R95). -/
inductive Policy where
  | immediate
  | pause
  | finish
deriving DecidableEq, Repr

/-- Limit actions of a deferral (R95). -/
inductive LimitAction where
  | force
  | drop
deriving DecidableEq, Repr

/-- Kinds of field device (R37). -/
inductive DevKind where
  | clock
  | bell
  | speaker
  | clear
deriving DecidableEq, Repr

/-- A port's rights over a region (R69). -/
inductive Rights where
  | none
  | read
  | edit
deriving DecidableEq, Repr

/-- Attention modes of a port (R183): OPEN, URGENT-ONLY, CLOSED. -/
inductive AttMode where
  | callAll
  | urgentOnly
  | closed
deriving DecidableEq, Repr

/-- Levels of a notice kind (section 11.2). -/
inductive NoticeLevel where
  | routine
  | urgent
deriving DecidableEq, Repr

/-- Signal sources of a drill program (R157). -/
inductive SignalSource where
  | controller
  | panel
deriving DecidableEq, Repr

/-- Kinds of drill stage (R157). -/
inductive StageKind where
  | alert
  | evacuate
  | hold
  | back
deriving DecidableEq, Repr

/-- Advance modes of a drill stage (R157). -/
inductive AdvanceMode where
  | timed
  | manual
  | clearAll
deriving DecidableEq, Repr

/-- SILENCE input modes (R152). -/
inductive SilenceMode where
  | level
  | edge
deriving DecidableEq, Repr

/-- The sixteen notice kinds in the order of their numbers (chapter 11.1). -/
inductive NoticeKind where
  | timeStep
  | reference
  | bellDropped
  | bellOverrun
  | bellSkipped
  | pageEnd
  | device
  | line
  | clockOff
  | panel
  | drill
  | hold
  | access
  | crossSignal
  | store
  | testEnd
deriving DecidableEq, Repr

/-- The four panel inputs (R150). -/
inductive PanelInput where
  | alarm
  | trouble
  | silence
  | drillAck
deriving DecidableEq, Repr

/-- What the circuit of a panel input shows: a level, or an open or shorted circuit (R150). -/
inductive RawLevel where
  | inactive
  | active
  | broken
deriving DecidableEq, Repr

/-- Modes of a line test (R55). The address of a far loop may be any number a line of text can name. -/
inductive TestMode where
  | inner
  | far (addr : Nat)
  | pass
deriving DecidableEq, Repr

/-- The zones named by a page request (R134): a group or a single zone. -/
inductive ZoneNames where
  | group (n : Nat)
  | zone (n : Nat)
deriving DecidableEq, Repr

/-- What a ZONE request names (R115). -/
inductive ZoneOrTrunk where
  | zone (n : Nat)
  | trunk (n : Nat)
deriving DecidableEq, Repr

/-- A date as it is written, which need not exist (R81). -/
structure WrittenDate where
  year : Nat
  month : Nat
  day : Nat
deriving DecidableEq, Repr

/-- A time of day as it is written, which need not exist (R81). -/
structure WrittenTime where
  hour : Nat
  minute : Nat
  second : Nat
deriving DecidableEq, Repr

/-- The words that stand as a value in a field of a plan entry (R64, R86, R87, R89, R95, R157). -/
inductive FieldWord where
  | yes
  | no
  | noBells
  | zoneDefault
  | sounderOnly
  | speakerOnly
  | add
  | omit
  | sounder
  | speaker
  | both
  | immediate
  | pause
  | finish
  | force
  | drop
  | controller
  | panel
  | alert
  | evacuate
  | hold
  | back
  | timed
  | manual
  | clearAll
  | set
  | clear
  | level
  | edge
  | explicit
  | auto
  | clock
  | bell
  | none
  | viewer
  | staff
  | office
  | safety
  | read
  | edit
  | callAll
  | urgentOnly
  | closed
  | routine
  | urgent
  | empty
deriving DecidableEq, Repr

/-- One field of a WRITE by its written shape (R176): a number, a name of the right letter whose number need not
exist, a date, a time, a word, a set of names, a set of rights, a set of notice kinds, a hyphen, or a label (the
character codes as typed). -/
inductive Field where
  | num (n : Nat)
  | zone (n : Nat)
  | line (n : Nat)
  | pattern (n : Nat)
  | group (n : Nat)
  | dayPlan (n : Nat)
  | program (n : Nat)
  | date (d : WrittenDate)
  | time (t : WrittenTime)
  | word (w : FieldWord)
  | zones (zs : List Nat)
  | lines (ls : List Nat)
  | rights (rs : List Rights)
  | kinds (ks : List NoticeKind)
  | hyphen
  | label (codes : List Nat)
deriving DecidableEq, Repr

/-- Why a request line gets no further than steps 1 to 3 of R170. -/
inductive LineFault where
  | badStart
  | noKeyword
  | badArguments
deriving DecidableEq, Repr

/-- The commands of the block: one constructor for each row of spec/opcode_table.json, in the table's order.
Requests carry the port they arrive at and the two-digit operator number of R170. Events of the line (`l`), of a
trunk (`t`) and of a panel input name one that exists by their type; an address is a number. -/
inductive Instr where
  /-- POWER_ON (R186): whether the battery clock passes its check, and the seconds it counted without power (R5). -/
  | powerOn (batteryGood : Bool) (seconds : Nat)
  /-- POWER_LOSS (R5, R167): whether the newest drill record's write was cut short, and whether the last record
  number can no longer be read. -/
  | powerLoss (recordTorn numberTorn : Bool)
  /-- CONTROLLER_RESTART (R186): the regions whose image write, still in progress, reads back bad (R75, R76). -/
  | controllerRestart (failed : List Region)
  | secondBoundary
  | holdoverAgeUnsync
  /-- REFERENCE_MARK (R8): the message that names the moment of the mark. -/
  | referenceMark (date : WrittenDate) (time : WrittenTime)
  | silenceSlot
  | referenceAbsent
  | time (p : Port) (op : Fin 16)
  | settime (p : Port) (op : Fin 16) (date : WrittenDate) (time : WrittenTime) (ms : Nat)
  | adjust (p : Port) (op : Fin 16) (ms : Int)
  /-- DEFERRAL_LIMIT_EXPIRY (R105): the deferred parts of one job that reach their limits together. -/
  | deferralLimitExpiry (job : Nat)
  | sounderTimelineChange (job zone : Nat)
  | toneEnd (t : Fin 4)
  | ring (p : Port) (op : Fin 16) (group pattern : Nat) (medium : EntryMedium)
  | bells (p : Port) (op : Fin 16)
  | page (p : Port) (op : Fin 16) (source : Source) (prio : Nat) (zones : ZoneNames) (pretone limit : Option Nat) (part : Bool)
  | pretoneEnd (t : Fin 4)
  | trunkLevelChange (t : Fin 4) (silent : Bool)
  | pause (t : Fin 4)
  | idle (t : Fin 4)
  | pageLimitExpiry (page : Nat)
  | endPage (p : Port) (op : Fin 16) (page : Nat)
  | cancel (p : Port) (op : Fin 16) (page : Nat)
  | pages (p : Port) (op : Fin 16)
  | inputRawChange (i : PanelInput) (raw : RawLevel)
  | debounceExpiry (i : PanelInput)
  | wiringStateChange (i : PanelInput)
  | restoreTimerExpiry
  | panelSampleComplete
  | drill (p : Port) (op : Fin 16) (program : Nat) (building : Option (List Nat))
  | ackTimerExpiry
  | drillTimelineChange
  | stageExpiry
  | advance (p : Port) (op : Fin 16) (stage : Nat)
  | abort (p : Port) (op : Fin 16)
  /-- DRILLREC (R167): an index, or none for DRILLREC NOW. -/
  | drillrec (p : Port) (op : Fin 16) (index : Option Nat)
  | provingEnd (l : Fin 6)
  | poweringEnd (l : Fin 6)
  | timeFrame (l : Fin 6)
  | discoveryPoll (l : Fin 6)
  | poll (l : Fin 6)
  | searchPoll (l : Fin 6)
  | recoveryPoll (l : Fin 6)
  | zoneOutputCommand (l : Fin 6)
  | clockSet (l : Fin 6)
  /-- REPLY (R38, R50): the eighths from the end of the poll as sent to the start of the reply, and its bytes. -/
  | reply (l : Fin 6) (start : Nat) (bytes : List Byte)
  | miss (l : Fin 6)
  /-- LINE (R187): a LINE RESTART request. -/
  | line (p : Port) (op : Fin 16) (n : Nat)
  | test (p : Port) (op : Fin 16) (n : Nat) (mode : TestMode) (seconds : Option Nat)
  | testRead (p : Port) (op : Fin 16) (n : Nat)
  | inject (p : Port) (op : Fin 16) (n : Nat)
  | loopUp (l : Fin 6)
  /-- PROVING_FRAME (R57): in the inner loop, the values that come back from the frame. -/
  | provingFrame (l : Fin 6) (back : List Byte)
  /-- ECHO (R58): the eighths from the end of the proving frame as sent to the start of the echo, and its bytes. -/
  | echo (l : Fin 6) (start : Nat) (bytes : List Byte)
  | echoMissing (l : Fin 6)
  | noEchoTimeout (l : Fin 6)
  | testDurationEnd (l : Fin 6)
  | loopDown (l : Fin 6)
  | device (p : Port) (op : Fin 16) (n addr : Nat)
  | lines (p : Port) (op : Fin 16)
  | zone (p : Port) (op : Fin 16) (what : ZoneOrTrunk)
  /-- SELECT (R174): a table, or none for a word that names no table. -/
  | select (p : Port) (op : Fin 16) (region : Region) (table : Option Tbl) (index : Nat) (bank : Bank)
  | read (p : Port) (op : Fin 16)
  | write (p : Port) (op : Fin 16) (fields : List Field)
  | empty (p : Port) (op : Fin 16)
  | hold (p : Port) (op : Fin 16) (region : Region)
  | release (p : Port) (op : Fin 16) (region : Region)
  | discard (p : Port) (op : Fin 16) (region : Region)
  | activate (p : Port) (op : Fin 16) (region : Region)
  | holdExpiry (region : Region)
  /-- IMAGE_WRITE_END (R75): whether the image read back passes its check. -/
  | imageWriteEnd (region : Region) (good : Bool)
  | keySwitchRun
  | keySwitchSetup
  | next (p : Port) (op : Fin 16)
  /-- CLEAR (R185): a kind, or none for a word or number that names no kind. -/
  | clear (p : Port) (op : Fin 16) (kind : Option NoticeKind) (n : Nat)
  | quiet (p : Port) (op : Fin 16) (kind : Option NoticeKind) (on : Bool)
  | attend (p : Port) (op : Fin 16) (mode : AttMode)
  | note (p : Port) (op : Fin 16) (slot value : Nat)
  | notes (p : Port) (op : Fin 16)
  | signal (p : Port) (op : Fin 16) (n : Nat)
  | lower (p : Port) (op : Fin 16) (n : Nat)
  | status (p : Port) (op : Fin 16)
  | restart (p : Port) (op : Fin 16)
  | unreadableLine (p : Port)
  /-- UNKNOWN_KEYWORD (R170): a line that fails step 1, 2 or 3. -/
  | unknownKeyword (p : Port) (why : LineFault)
  | lineWhileBusy (p : Port)
  | replySent (p : Port)
  /-- The frames a field device receives are the bytes that reach it (R50); what is lost on the line never arrives. -/
  | roomClockFrame (l : Fin 6) (addr : Nat) (bytes : List Byte)
  | bellUnitCommand (l : Fin 6) (addr : Nat) (bytes : List Byte)
  | holdForExpiry (l : Fin 6) (addr : Nat)
  | speakerNodeCommand (l : Fin 6) (addr : Nat) (bytes : List Byte)
  | speakerSilenceMute (l : Fin 6) (addr : Nat)
  | clearStationPress (l : Fin 6) (addr : Nat)
  | deviceLoopUp (l : Fin 6) (addr : Nat) (bytes : List Byte)
  | deviceLoopDown (l : Fin 6) (addr : Nat) (bytes : List Byte)
  | echoTimeout (l : Fin 6) (addr : Nat)
  | amplifierFaultChange (l : Fin 6) (addr : Nat) (fault : Bool)
deriving DecidableEq, Repr

end Sys2Proof
end

