-- ==== Sys2Proof/Machine/State.lean ====
section
/-! DEFINITION. Everything the manual gives the controller and its field devices to hold, as plain data, block by block
in the order of the chapters, and `State.reset`. Numbered things (zones, trunks, lines, records, table entries) are kept
in `Table`s: lists of (number, contents) that list only what differs from the value every number starts with; the
operations over them are in Machine/Ops.lean. -/

set_option autoImplicit false

namespace Sys2Proof.Machine

open Sys2Proof

/-- Numbered contents; a number that is not listed holds the table's starting value (Machine/Ops.lean). -/
abbrev Table (α : Type) := List (Nat × α)

/-- One value for each console port. -/
structure PerPort (α : Type) where
  a : α
  b : α
deriving DecidableEq, Repr

/-! ### Times (section 4.1, R1) -/

/-- A campus date and second of day. -/
structure Stamp where
  day : Nat
  sec : Nat
deriving DecidableEq, Repr

/-- A campus date and millisecond of day (R1). -/
structure CampusMs where
  day : Nat
  ms : Nat
deriving DecidableEq, Repr

/-! ### The plan (chapters 4 to 6, 9) -/

/-- A calendar exception (R83). -/
structure Exception where
  first : Nat
  last : Nat
  dayType : Nat
deriving DecidableEq, Repr

/-- The TIMESET entry of CAL (R86). -/
structure TimeSet where
  refEnable : Bool
  interval : Nat
  slewLimit : Nat
  stepThreshold : Nat
  catchUp : Nat
  trustBackup : Bool
deriving DecidableEq, Repr

/-- A filled slot of a day plan (R87). -/
structure PlanEntry where
  time : Nat
  group : Nat
  pattern : Nat
  medium : EntryMedium
  label : Option (List Nat)
deriving DecidableEq, Repr

/-- The action of an override (R89). -/
inductive OverrideAction where
  | add (group pattern : Nat) (medium : EntryMedium)
  | omit (group : Nat)
deriving DecidableEq, Repr

/-- A filled override (R89). -/
structure Override where
  day : Nat
  time : Nat
  action : OverrideAction
deriving DecidableEq, Repr

/-- A filled pattern segment, in milliseconds (R92). -/
structure Segment where
  on : Nat
  off : Nat
deriving DecidableEq, Repr

/-- A zone's configuration record (R95). -/
structure ZoneCfg where
  line : Option Nat
  medium : Medium
  policy : Policy
  maxDefer : Nat
  limit : LimitAction
  alarmFollow : Bool
  drillFollow : Bool
  pageAllowed : Bool
deriving DecidableEq, Repr

/-- The ZONESET entry of ZON (R95). -/
structure ZoneSet where
  reserve : Nat
  pauseLength : Nat
  idleLimit : Nat
deriving DecidableEq, Repr

/-- A PROGRAM entry of DRL (R157). -/
structure Program where
  building : List Nat
  source : SignalSource
deriving DecidableEq, Repr

/-- A filled STAGE entry of DRL (R157). -/
structure Stage where
  kind : StageKind
  pattern : Nat
  duration : Nat
  advance : AdvanceMode
  timing : Bool
deriving DecidableEq, Repr

/-- A filled SCHEDULE entry of DRL (R157). -/
structure Schedule where
  day : Nat
  time : Nat
  program : Nat
  building : Option (List Nat)
deriving DecidableEq, Repr

/-- The DRILLSET entry of DRL (R64). -/
structure DrillSet where
  program : Nat
  ackTimeout : Nat
  restoreDelay : Nat
  debounce : Nat
  silence : SilenceMode
deriving DecidableEq, Repr

/-- A LINE entry of LIN (R64). -/
structure LineCfg where
  enable : Bool
  auto : Bool
  missLimit : Nat
deriving DecidableEq, Repr

/-- An expected device of LIN (R23). -/
structure DevCfg where
  kind : DevKind
  zone : Option Nat
  serial : Option Nat
deriving DecidableEq, Repr

/-- A PORTSET entry of PRT (R64): the rights stand in the order of the regions (R63). -/
structure PortCfg where
  rights : List Rights
  pageLimit : Nat
  quiet : List NoticeKind
  mode : AttMode
  holdTimeout : Nat
deriving DecidableEq, Repr

structure Cal where
  weekday : Table Nat
  dayType : Table (Option Nat)
  except : Table (Option Exception)
  timeSet : TimeSet
deriving DecidableEq, Repr

structure Dpl where
  plan : Table (Option PlanEntry)
deriving DecidableEq, Repr

structure Ovr where
  entries : Table (Option Override)
deriving DecidableEq, Repr

structure Pat where
  repeats : Table Nat
  segments : Table (Option Segment)
  groups : Table (List Nat)
deriving DecidableEq, Repr

structure Zon where
  zones : Table ZoneCfg
  zoneSet : ZoneSet
deriving DecidableEq, Repr

structure Drl where
  programs : Table Program
  stages : Table (Option Stage)
  schedule : Table (Option Schedule)
  drillSet : DrillSet
deriving DecidableEq, Repr

structure Lin where
  lines : Table LineCfg
  devices : Table (Option DevCfg)
  polls : Table (Option Nat)
deriving DecidableEq, Repr

structure Prt where
  ports : PerPort PortCfg
  operators : Table OpClass
  levels : Table NoticeLevel
deriving DecidableEq, Repr

/-- One bank of each region (R63). -/
structure Plan where
  cal : Cal
  dpl : Dpl
  ovr : Ovr
  pat : Pat
  zon : Zon
  drl : Drl
  lin : Lin
  prt : Prt
deriving DecidableEq, Repr

/-- The contents of one entry of one table (R64), as READ gives them and WRITE puts them. -/
inductive Entry where
  | weekday (dayType : Nat)
  | dayType (plan : Option Nat)
  | except (e : Option Exception)
  | timeSet (t : TimeSet)
  | plan (e : Option PlanEntry)
  | override (e : Option Override)
  | pattern (rep : Nat)
  | segment (e : Option Segment)
  | group (zones : List Nat)
  | zone (z : ZoneCfg)
  | zoneSet (z : ZoneSet)
  | program (p : Program)
  | stage (e : Option Stage)
  | schedule (e : Option Schedule)
  | drillSet (d : DrillSet)
  | line (l : LineCfg)
  | device (e : Option DevCfg)
  | poll (addr : Option Nat)
  | portSet (p : PortCfg)
  | operator (c : OpClass)
  | level (l : NoticeLevel)
deriving DecidableEq, Repr

/-- A region's hold state (R66): FREE; HELD by a port, with the elapsed time at which the hold timer runs out (R67);
COMMITTING for the port that activated it, with the elapsed time by which the image write ends (R75). -/
inductive HoldState where
  | free
  | held (p : Port) (deadline : Nat)
  | committing (p : Port) (deadline : Nat)
deriving DecidableEq, Repr

/-- The Plan Store (R63, R66, R76): the banks, the holds, and the stored images with whether each passes its check. -/
structure Store where
  live : Plan
  staged : Plan
  holds : Table HoldState
  images : Plan
  imageGood : Table Bool
deriving DecidableEq, Repr

/-! ### Timebase Unit (chapter 1) -/

/-- Validity of campus time (R4). -/
inductive Validity where
  | invalid
  | backup
  | valid
deriving DecidableEq, Repr

/-- Discipline states (R12). -/
inductive Discipline where
  | free
  | locking
  | locked
  | holdover
deriving DecidableEq, Repr

inductive StepCause where
  | reference
  | settime
deriving DecidableEq, Repr

/-- The last step record (R17). -/
structure StepRecord where
  before : CampusMs
  after : CampusMs
  amount : Int
  cause : StepCause
deriving DecidableEq, Repr

/-- The chain of reference marks (R7): the last message, the elapsed time of the last mark, and how many silence slots
have been entered since that mark (R9). -/
structure Chain where
  msg : Stamp
  at_ : Nat
  slots : Nat
deriving DecidableEq, Repr

/-- The battery clock (R5). -/
structure Battery where
  time : Stamp
  drift : Int
  valid : Bool
deriving DecidableEq, Repr

/-- The Timebase Unit. `history` is oldest first, a good slot being `true` (R10); `unsyncDue` stands from the second at
which the holdover age reaches 86,400 until the step HOLDOVER_AGE_UNSYNC is taken (R13). -/
structure Tbu where
  day : Nat
  sec : Nat
  phase : Nat
  len : Nat
  slew : Int
  drift : Int
  acc : Int
  validity : Validity
  disc : Discipline
  chain : Option Chain
  history : List Bool
  qualified : Bool
  consec : Nat
  goodMarks : Nat
  holdoverAge : Nat
  unsyncDue : Bool
  unsync : Bool
  nudgeReady : Bool
  lastStep : Option StepRecord
  battery : Battery
deriving DecidableEq, Repr

/-! ### Pattern timelines (section 5.4) -/

/-- An on time of a pattern timeline, in milliseconds from its start (R93). -/
structure OnTime where
  start : Nat
  stop : Nat
deriving DecidableEq, Repr

/-- A pattern's timeline (R93): its on times in order and its cycle length. No on time means an empty pattern. -/
structure Timeline where
  ons : List OnTime
  cycle : Nat
deriving DecidableEq, Repr

/-! ### Zones and trunks (chapter 6) -/

/-- A zone's holder (R96). -/
inductive Holder where
  | none
  | bell (job : Nat)
  | page (num prio : Nat)
  | drill (medium : Medium)
  | alarm
deriving DecidableEq, Repr

/-- A zone's suspended holder (R96, R100). -/
inductive Suspended where
  | none
  | page (num prio : Nat)
  | drill (medium : Medium)
  | alarm
deriving DecidableEq, Repr

/-- Deferral reasons of a bell part (R127). -/
inductive DeferReason where
  | page
  | bell
  | pauseWait
  | noTrunk
deriving DecidableEq, Repr

/-- Drop reasons of a bell part (R127). -/
inductive DropReason where
  | alarm
  | drill
  | preempt
  | emergencyPage
  | limit
  | line
  | waitFull
  | reconfig
  | restart
deriving DecidableEq, Repr

/-- A deferred bell part as the zone controller keeps it (R103): `since` is the elapsed time of its first deferral.
`forced` marks a part that meets a maximum deferral of 0 with FORCE while its trunk is sought (R105). -/
structure Wait where
  job : Nat
  zone : Nat
  since : Nat
  reason : DeferReason
  policy : Policy
  maxDefer : Nat
  limit : LimitAction
  forced : Bool
deriving DecidableEq, Repr

/-- A zone's runtime record (R96). `bellUntil` is the bell part: none for OFF, or the elapsed time at which the current
on segment ends. -/
structure ZoneRec where
  holder : Holder
  suspended : Suspended
  trunk : Option Nat
  bellUntil : Option Nat
  waits : List Wait
  available : Bool
  degraded : Bool
deriving DecidableEq, Repr

/-- A trunk's program (R106). -/
inductive TrunkProgram where
  | page (num : Nat)
  | tone (job group : Nat)
  | drill
deriving DecidableEq, Repr

/-- A silence on a trunk (R108): its start, the copied pause length (ms) and idle limit (s), and which of its two
events have been sent. -/
structure Silence where
  since : Nat
  pauseLength : Nat
  idleLimit : Nat
  paused : Bool
  idled : Bool
deriving DecidableEq, Repr

/-- A trunk IN-USE (R106, R107): its grant, the copied timeline the tone generator plays with its start and, where its
playing ends, that end, whether the page's source is switched to it, and the silence in progress. `seq` orders grants made
at one elapsed time. -/
structure TrunkUse where
  program : TrunkProgram
  since : Nat
  seq : Nat
  tone : Option Timeline
  toneSince : Option Nat
  toneUntil : Option Nat
  source : Bool
  silence : Option Silence
deriving DecidableEq, Repr

/-- A bell start group that waits for a trunk (R109), or is about to start (`fresh`, its number still to be given); `atPause`
marks one formed by PAUSE-WAIT parts at a pause, whose members stay in their wait lists meanwhile (R108). -/
structure StartGroup where
  job : Nat
  num : Nat
  due : Stamp
  members : List Wait
  fresh : Bool
  atPause : Bool
deriving DecidableEq, Repr

/-- The model's own list of what the zone controller has still to do inside one command: serve wait lists (with the page
whose trunk has paused, if any; `freed` where a holder has ended in the zones, so that those still NONE are offered to the
pages afterwards), make the steps of a grant pass that come before the routine pages and turn down the start groups it has left
without a trunk, offer free zones to the pages, make the claims of a page that has been given its trunk, release trunks,
make a grant pass. It is empty between commands. -/
inductive Work where
  | serve (zones : List Nat) (pausedPage : Option Nat) (freed : Bool)
  | grants
  | offer (zones : List Nat)
  | claimPage (num : Nat)
  | release
  | pass
deriving DecidableEq, Repr

/-- The Zone and Trunk Controller. -/
structure Ztc where
  zones : Table ZoneRec
  trunks : Table (Option TrunkUse)
  groups : List StartGroup
  grants : Nat
  agenda : List Work
deriving DecidableEq, Repr

/-! ### Bells (chapters 5 and 7) -/

/-- An entry key (R91, R123). -/
inductive EntryKey where
  | plan (index : Nat)
  | override (index : Nat)
  | manual (job : Nat)
deriving DecidableEq, Repr

/-- An entry of the effective list (R91); its date is the list date. -/
structure ListEntry where
  key : EntryKey
  time : Nat
  group : Nat
  pattern : Nat
  medium : EntryMedium
  label : Option (List Nat)
deriving DecidableEq, Repr

inductive PartState where
  | pending
  | deferred (r : DeferReason)
  | sounding
  | done
  | dropped (r : DropReason)
deriving DecidableEq, Repr

inductive SounderHalf where
  | absent
  | waiting
  | playing
  | finished
deriving DecidableEq, Repr

inductive SpeakerHalf where
  | absent
  | waiting
  | playing (group trunk : Nat)
  | finished
deriving DecidableEq, Repr

/-- A bell part (R127). `step` counts the changes of its timeline already sent (R129). -/
structure Part where
  zone : Nat
  medium : Medium
  state : PartState
  firstDeferral : Option Nat
  start : Option Nat
  sounder : SounderHalf
  speaker : SpeakerHalf
  step : Nat
deriving DecidableEq, Repr

/-- A bell job (R123); `groups` is the number last given to a start group of it (R130). -/
structure Job where
  num : Nat
  key : EntryKey
  day : Nat
  sec : Nat
  late : Bool
  label : Option (List Nat)
  pattern : Nat
  timeline : Timeline
  medium : EntryMedium
  parts : List Part
  groups : Nat
deriving DecidableEq, Repr

/-- The Bell Dispatcher (R116). -/
structure Bds where
  list : List ListEntry
  listDate : Nat
  mark : Stamp
  trustBackup : Bool
  gateOpen : Bool
  queue : List Job
  lastJob : Nat
deriving DecidableEq, Repr

/-! ### Pages (chapter 8) -/

/-- Reasons a page loses or is refused a zone (R136). -/
inductive LossReason where
  | alarm
  | drill
  | preempt
  | line
  | reconfig
  | notAllowed
deriving DecidableEq, Repr

/-- Reasons a page ends (R147). -/
inductive PageReason where
  | byEnd
  | cancel
  | limit
  | idle
  | alarm
  | cut
  | noZones
  | restart
deriving DecidableEq, Repr

/-- Page states (R136). `starting` and `ended` stand only inside one command: a page with its trunk whose claims are
still to be made, and a page that has ended and not yet left the queue. -/
inductive PageState where
  | queued
  | starting
  | chime
  | live
  | ended (r : PageReason)
deriving DecidableEq, Repr

/-- A page record (R136). While QUEUED the sets hold its latest sorting: takeable in `held`, waiting in `waiting`,
excluded in `lost` (R137). `limitAt` is the elapsed time at which the limit timer runs out; `arrivalSeq` orders arrivals. -/
structure Page where
  num : Nat
  state : PageState
  port : Port
  op : Nat
  cls : OpClass
  source : Source
  prio : Nat
  names : ZoneNames
  pretone : Option Nat
  limit : Nat
  part : Bool
  arrival : CampusMs
  arrivalSeq : Nat
  start : Option CampusMs
  expansion : List Nat
  trunk : Option Nat
  held : List Nat
  waiting : List Nat
  suspended : List Nat
  lost : List (Nat × LossReason)
  limitAt : Option Nat
deriving DecidableEq, Repr

/-- The Page Controller (R135): the Page Queue in queue order. -/
structure Pgc where
  queue : List Page
  lastPage : Nat
  arrivals : Nat
deriving DecidableEq, Repr

/-! ### Panel and drills (chapter 9) -/

/-- A panel input (R150): what its circuit shows, since when, since when it has been broken or sound, its debounced
value, and whether its wiring state is FAULT. -/
structure InputSt where
  raw : RawLevel
  levelSince : Nat
  circuitSince : Nat
  debounced : Bool
  fault : Bool
deriving DecidableEq, Repr

/-- Panel states (R152). -/
inductive PanelState where
  | normal
  | alarm
  | silenced
  | restoring
deriving DecidableEq, Repr

/-- Causes of the trouble flag (R151). -/
inductive TroubleCause where
  | trouble
  | wiring (i : PanelInput)
  | start
deriving DecidableEq, Repr

/-- The Panel Link (R150 to R156). `sampleUntil` stands while the inputs are sampled at start-up (R156), and with it the
cause START. -/
structure Pnl where
  alarm : InputSt
  trouble : InputSt
  silence : InputSt
  drillAck : InputSt
  state : PanelState
  restoreAt : Option Nat
  alarmSet : List Nat
  drillReq : Bool
  sampleUntil : Option Nat
deriving DecidableEq, Repr

inductive DrillOrigin where
  | schedule
  | portA
  | portB
  | panel
deriving DecidableEq, Repr

/-- Signal states of a stage (R159). -/
inductive SignalState where
  | sounding
  | signalWait
  | silent
deriving DecidableEq, Repr

/-- A line's evacuation result (R164, R165). -/
inductive BuildingResult where
  | cleared (ms : Nat)
  | notCleared
  | stationLost
  | notTimed
  | notInDrill
deriving DecidableEq, Repr

inductive DrillReason where
  | completed
  | abortedPort
  | abortedPanel
  | abortedAlarm
  | panelTimeout
  | skipped
  | restart
deriving DecidableEq, Repr

/-- A stage as a session copies it (R159). -/
structure StageCopy where
  stage : Stage
  timeline : Timeline
deriving DecidableEq, Repr

/-- Whether the timing stage of a session is still to come, in progress or over (R164, R165). -/
inductive TimingState where
  | before
  | running
  | ended
deriving DecidableEq, Repr

/-- A clear station's baseline (R164). -/
structure Baseline where
  line : Nat
  addr : Nat
  count : Option Nat
deriving DecidableEq, Repr

/-- The drill session (R159). `zones` is the drill zone set with the copied media, `results` the lines that have their
result, `nextChange` the elapsed time of the next change of the sounding stage's timeline (R162), `announced` whether the
STAGE notice of the stage in progress has been raised (R163). -/
structure Session where
  running : Bool
  origin : DrillOrigin
  program : Nat
  source : SignalSource
  stages : List StageCopy
  building : List Nat
  start : CampusMs
  ackAt : Nat
  zones : List (Nat × Medium)
  stage : Nat
  stageSince : Nat
  signal : SignalState
  nextChange : Option Nat
  announced : Bool
  timing : TimingState
  baselines : List Baseline
  results : Table (Option BuildingResult)
  drops : Nat
deriving DecidableEq, Repr

/-- A drill record (R167); `good` is false where its write was cut short by loss of power. -/
structure DrillRecord where
  num : Nat
  program : Nat
  origin : DrillOrigin
  start : CampusMs
  finish : CampusMs
  results : List BuildingResult
  drops : Nat
  reason : DrillReason
  good : Bool
deriving DecidableEq, Repr

/-- The Drill Sequencer; `records` is newest first, `lastRecord` is none where the last number given cannot be read. -/
structure Dsq where
  session : Option Session
  mark : Stamp
  trustBackup : Bool
  gateOpen : Bool
  records : List DrillRecord
  lastRecord : Option Nat
deriving DecidableEq, Repr

/-! ### Lines (chapters 2 and 3) -/

/-- Line states (section 2.1). -/
inductive LineState where
  | off
  | proving
  | powering
  | discovery
  | run
  | lost
  | test
  | fault
deriving DecidableEq, Repr

/-- Device record states (R37). -/
inductive DevState where
  | absent
  | present
  | missing
  | unlisted
  | foreign
  | faulty
deriving DecidableEq, Repr

/-- A device's report (R37, R50). -/
inductive Report where
  | clock (hour minute second : Nat)
  | bell (on : Bool)
  | speaker (trunk : Option Nat) (fault : Bool)
  | clear (count : Nat)
deriving DecidableEq, Repr

/-- A device record (R37); `listed` says whether the LIN copy has an entry for the address. -/
structure DevRec where
  listed : Bool
  kind : Option DevKind
  zone : Option Nat
  serial : Option Nat
  state : DevState
  misses : Nat
  report : Option Report
  corrections : Nat
deriving DecidableEq, Repr

/-- An entry of an output list (R43). -/
inductive OutEntry where
  | zone (z : Nat)
  | clock (addr : Nat)
deriving DecidableEq, Repr

/-- A poll or far-loop proving frame whose answer is awaited: the address, the zone a poll carries, and the elapsed time
at which the transaction began. -/
structure Transaction where
  addr : Nat
  zone : Option Nat
  since : Nat
  proving : Bool
deriving DecidableEq, Repr

/-- An outcome of the proving receiver's window (R53). -/
structure Outcome where
  errored : Bool
  injected : Bool
deriving DecidableEq, Repr

/-- The proving sender and receiver of a line (R51 to R54). `expected` is none in SEARCH, else the expected position
in IN-STEP; `store` the values taken in SEARCH, oldest first; `injPlace` the place of the errored value in the last
frame sent, if any; `inStepAt` the number of values compared when the receiver first became IN-STEP. -/
structure Prover where
  frames : Nat
  startedAt : Option Nat
  injPending : Bool
  injPlace : Option Nat
  expected : Option Nat
  store : List Nat
  window : List Outcome
  compared : Nat
  errored : Nat
  slips : Nat
  slipsInj : Nat
  inStepAt : Option Nat
deriving DecidableEq, Repr

inductive TestResult where
  | running
  | pass
  | fail
  | noEcho
  | sent
  | aborted
deriving DecidableEq, Repr

inductive AbortCause where
  | alarm
  | drill
  | lineRestart
deriving DecidableEq, Repr

/-- A test record (R60). -/
structure TestRecord where
  mode : TestMode
  seconds : Nat
  begun : CampusMs
  sent : Nat
  compared : Nat
  errored : Nat
  injected : Nat
  echoesMissing : Nat
  firstInStep : Option Nat
  slips : Nat
  slipsInj : Nat
  result : TestResult
  cause : Option AbortCause
deriving DecidableEq, Repr

/-- The part of a test in progress (R57, R58, R61), with the number of LOOP-UP or LOOP-DOWN frames sent. With five LOOP-UPs sent,
the proving part begins in the next slot. -/
inductive TestPhase where
  | loopUp (sent : Nat)
  | proving
  | loopDown (sent : Nat)
deriving DecidableEq, Repr

/-- A test in progress: its part, the elapsed time of the fifth LOOP-UP, and whether an echo has been received. -/
structure TestRun where
  phase : TestPhase
  upAt : Option Nat
  echoed : Bool
deriving DecidableEq, Repr

/-- A line controller. `since` is the elapsed time of entry to the present state, `secondAt` the start of the line
second and `slot` the next slot of it (R28), `frameNo` the number the next time frame carries (R30), `lastFrame` the
number the last one carried, `commands` the output commands sent since the last poll (R29), `discTry` the polls already
made of the address under discovery (R25), `sent` the bytes of the last frame sent. -/
structure LineSt where
  state : LineState
  enabled : Bool
  auto : Bool
  polls : Table (Option Nat)
  missLimit : Nat
  since : Nat
  recs : Table DevRec
  pollTable : List (Option Nat)
  phasePtr : Nat
  searchPtr : Nat
  recoverPtr : Nat
  outAlarm : List OutEntry
  outOrd : List OutEntry
  delay : Option Nat
  unanswered : Nat
  window : List Bool
  frameNo : Nat
  lastFrame : Option Nat
  stepPending : Bool
  commands : Nat
  secondAt : Nat
  slot : Nat
  transaction : Option Transaction
  discAddr : Nat
  discTry : Nat
  prover : Prover
  test : Option TestRun
  record : Option TestRecord
  sent : List Byte
deriving DecidableEq, Repr

/-! ### Field devices (sections 2.3, 2.7, 2.8, R59) -/

/-- A room clock's face (R33): the day it was set to, the milliseconds from the start of that day, and the elapsed time of
that instant. -/
structure ClockFace where
  day : Nat
  ms : Nat
  at_ : Nat
  unsynchronised : Bool
  alarm : Bool
deriving DecidableEq, Repr

/-- What a field device at one address of a line holds, whatever its kind: a clock's face, a bell unit's output with the
end of its hold-for timer, a speaker node's connection, amplifier fault and last valid frame, a clear station's count,
the zone of the last poll, the far-loop echo with the elapsed time of its entry or last proving frame, and the bytes it
last sent. -/
structure FieldDev where
  clock : Option ClockFace
  bellOn : Bool
  holdUntil : Nat
  trunk : Option Nat
  ampFault : Bool
  lastValid : Nat
  presses : Nat
  zone : Option Nat
  loopUps : Nat
  echo : Option Nat
  sent : List Byte
deriving DecidableEq, Repr

/-! ### Notices (chapter 11) -/

inductive RefEvent where
  | qualified
  | disqualified
  | absent
  | unsync
deriving DecidableEq, Repr

inductive OverrunCause where
  | full
  | duplicate
deriving DecidableEq, Repr

inductive LineEvent where
  | fault
  | lost
  | run
deriving DecidableEq, Repr

inductive PanelEvent where
  | trouble
  | alarm
  | silenced
  | restoring
  | normal
deriving DecidableEq, Repr

inductive RefuseCause where
  | state
  | trouble
  | noProgram
deriving DecidableEq, Repr

inductive DrillEvent where
  | stage (n : Nat) (kind : StageKind) (mode : AdvanceMode) (signal : SignalState)
  | finish (reason : DrillReason) (record : Nat)
  | refused (cause : RefuseCause)
deriving DecidableEq, Repr

inductive HoldEvent where
  | expired
  | withdrawn
  | activated (good : Bool)
deriving DecidableEq, Repr

inductive StoreEvent where
  | loadEmpty
  | writeFailed
deriving DecidableEq, Repr

/-- The keywords of the request lines (R172). -/
inductive Keyword where
  | time
  | settime
  | adjust
  | select
  | read
  | hold
  | release
  | discard
  | activate
  | write
  | empty
  | ring
  | bells
  | page
  | endPage
  | cancel
  | pages
  | drill
  | advance
  | abort
  | drillrec
  | line
  | test
  | inject
  | device
  | lines
  | zone
  | next
  | clear
  | quiet
  | attend
  | notes
  | note
  | signal
  | lower
  | status
  | restart
deriving DecidableEq, Repr

/-- Why a request is recorded as an access fault (R177). -/
inductive AccessReason where
  | cls
  | rights
deriving DecidableEq, Repr

/-- An access fault capture that is not empty (R177). -/
structure Capture where
  op : Nat
  keyword : Keyword
  region : Option Region
  reason : AccessReason
  time : CampusMs
  multiple : Bool
deriving DecidableEq, Repr

/-- The latest detail of a notice, by kind (chapter 11.1). -/
inductive Detail where
  | timeStep (r : StepRecord)
  | reference (ev : RefEvent) (disc : Discipline) (bad : Nat)
  | bellDropped (job : Nat) (key : EntryKey) (due : Stamp) (zone : Nat) (reason : DropReason)
  | bellOverrun (key : EntryKey) (due : Stamp) (cause : OverrunCause)
  | bellSkipped (n : Nat) (earliest latest : Stamp) (before after : CampusMs)
  | pageEnd (num : Nat) (port : Port) (op : Nat) (source : Source) (prio : Nat) (cancelled : Bool) (reason : PageReason) (arrival finish : CampusMs) (start : Option CampusMs) (lost : List (Nat × LossReason))
  | device (line addr : Nat) (kind : Option DevKind) (before after : DevState)
  | line (line : Nat) (ev : LineEvent)
  | clockOff (line addr hour minute second : Nat) (campus : CampusMs)
  | panel (ev : PanelEvent) (state : PanelState) (causes : List TroubleCause)
  | drill (ev : DrillEvent)
  | hold (r : Region) (ev : HoldEvent)
  | access (c : Capture)
  | crossSignal (raised : List Nat)
  | store (r : Region) (ev : StoreEvent)
  | testEnd (line : Nat) (mode : TestMode) (result : TestResult) (cause : Option AbortCause)
deriving DecidableEq, Repr

/-- A notice record (R182): flagged exactly when `count` is not 0. -/
structure NoticeRec where
  flag : Bool
  count : Nat
  detail : Option Detail
deriving DecidableEq, Repr

/-- The Notice Unit's records of one port (R182, R183); `attention` is the port's attention line. -/
structure NtuPort where
  recs : Table NoticeRec
  quiet : List NoticeKind
  mode : AttMode
  attention : Bool
deriving DecidableEq, Repr

/-! ### Console ports (chapter 10) -/

/-- The reasons of a NO reply (section 4.3). -/
inductive NoReason where
  | badSyntax
  | unknown
  | cls
  | rights
  | held
  | notHeld
  | busy
  | state
  | range
  | full
  | invalid (t : Tbl) (index : Nat)
  | empty
deriving DecidableEq, Repr

/-- The table cursor when it is set (R174). -/
structure Cursor where
  region : Region
  table : Tbl
  index : Nat
  bank : Bank
deriving DecidableEq, Repr

/-- The TIME reply (R21). -/
structure TimeReply where
  campus : CampusMs
  validity : Validity
  disc : Discipline
  enabled : Bool
  qualified : Bool
  bad : Nat
  holdoverAge : Nat
  unsync : Bool
  slew : Int
  drift : Int
  lastStep : Option StepRecord
deriving DecidableEq, Repr

/-- A part in a BELLS reply (R133): the milliseconds still to play, or since the first deferral. -/
structure PartReply where
  zone : Nat
  medium : Medium
  state : PartState
  ms : Option Nat
  trunk : Option Nat
deriving DecidableEq, Repr

structure JobReply where
  num : Nat
  key : EntryKey
  due : Stamp
  late : Bool
  label : Option (List Nat)
  pattern : Nat
  medium : EntryMedium
  parts : List PartReply
deriving DecidableEq, Repr

/-- The BELLS reply (R133). -/
structure BellsReply where
  gateOpen : Bool
  mark : Stamp
  campus : CampusMs
  listDate : Nat
  entries : Nat
  next : Option ListEntry
  jobs : List JobReply
deriving DecidableEq, Repr

/-- A page in a PAGES reply (R149): its record, with the seconds left and the silence in milliseconds. -/
structure PageReply where
  page : Page
  secondsLeft : Option Nat
  silentMs : Option Nat
deriving DecidableEq, Repr

/-- A line in a LINES reply (R49). -/
structure LineReply where
  state : LineState
  enabled : Bool
  delay : Option Nat
  frame : Option Nat
  unanswered : Option Nat
  recovered : Option Nat
  counts : List Nat
  outputs : Nat
  degraded : List Nat
deriving DecidableEq, Repr

/-- A wait-list entry in a ZONE reply (R115). -/
structure WaitReply where
  job : Nat
  reason : DeferReason
  msLeft : Nat
deriving DecidableEq, Repr

/-- The ZONE reply for a zone (R115). -/
structure ZoneReply where
  cfg : ZoneCfg
  holder : Holder
  suspended : Suspended
  trunk : Option Nat
  bellMs : Option Nat
  waits : List WaitReply
  available : Bool
  degraded : Bool
deriving DecidableEq, Repr

/-- The ZONE reply for a trunk in use (R115). -/
structure TrunkReply where
  program : TrunkProgram
  seconds : Nat
  toneMs : Option Nat
  silentMs : Option Nat
deriving DecidableEq, Repr

/-- The DRILLREC NOW reply (R167): the session with the milliseconds left in the stage and the running timers. -/
structure SessionReply where
  session : Session
  stageMsLeft : Option Nat
  timers : List (Nat × Nat)
deriving DecidableEq, Repr

/-- The STATUS reply (R180). -/
structure StatusReply where
  setup : Bool
  rights : List Rights
  campus : CampusMs
  validity : Validity
  disc : Discipline
  panel : PanelState
  causes : List TroubleCause
  drill : Option (Bool × Nat × SignalState)
  lines : List LineState
  holds : List HoldState
  jobs : Nat
  pages : Nat
  cursor : Option Cursor
  capture : Option Capture
  slots : List Nat
  fromA : List Nat
  fromB : List Nat
deriving DecidableEq, Repr

/-- Console replies (section 4.3), each with what its rule says it carries. -/
inductive Reply where
  | ok
  | okClamped
  | okNumber (clamped : Bool) (n : Nat)
  | okEmpty
  | no (r : NoReason)
  | entry (fields : List Field)
  | time (r : TimeReply)
  | bells (r : BellsReply)
  | pages (r : List PageReply)
  | record (r : DrillRecord)
  | session (r : SessionReply)
  | test (r : TestRecord)
  | device (r : DevRec)
  | lines (r : List LineReply)
  | zone (r : ZoneReply)
  | trunk (r : Option TrunkReply)
  | next (kind : NoticeKind) (level : NoticeLevel) (count : Nat) (detail : Option Detail)
  | notes (values : List Nat)
  | status (r : StatusReply)
deriving DecidableEq, Repr

/-- A character as it arrives on a console link, or one received with a framing error (R169). -/
inductive LinkChar where
  | code (c : Nat)
  | broken
deriving DecidableEq, Repr

/-- A request line being built (R169): its characters so far, whether one of them cannot be read, and whether an 81st has
come, with which the line is discarded. -/
structure LineBuf where
  chars : List Nat
  bad : Bool
  tooLong : Bool
deriving DecidableEq, Repr

/-- A console port (R169, R171, R174, R177, R181): the characters that have arrived and are still to be taken, and the line
being built; the reply being sent, if a request is in progress; the NO BUSY answers owed; the cursor; the access fault
capture; whether the reply being sent accepts a RESTART. -/
structure PortSt where
  arriving : List LinkChar
  typed : LineBuf
  reply : Option Reply
  owed : Nat
  cursor : Option Cursor
  capture : Option Capture
  restarts : Bool
deriving DecidableEq, Repr

/-! ### The whole -/

/-- The controller, its field devices and the queue of waiting commands.
`now` is elapsed time in eighths (section 4.1); `restartDue` stands from the end of the reply that accepts a RESTART
until the restart begins (R181); `draws` counts the free values used so far (the model's own). -/
structure State where
  power : Bool
  setup : Bool
  now : Nat
  store : Store
  tbu : Tbu
  ztc : Ztc
  bds : Bds
  pgc : Pgc
  pnl : Pnl
  dsq : Dsq
  lines : Table LineSt
  field : Table FieldDev
  ntu : PerPort NtuPort
  ports : PerPort PortSt
  slots : Table Nat
  fromA : List Nat
  fromB : List Nat
  restartDue : Bool
  draws : Nat
  pending : List Instr
deriving DecidableEq, Repr

/-- Why the machine stops. -/
inductive Fault where
  /-- Raised by the steps of a field device (R33, R45, R46, R48, R59) when the address they name is not one of 1 to 24:
  section 1.3 gives a line no other addresses. Safe: the machine stops where there is nothing to act on. -/
  | noSuchAddress (addr : Nat)
deriving DecidableEq, Repr

/-- Why a command has no meaning. -/
inductive Refusal where
  /-- Raised by `exec` for a row of the table whose meaning is not written yet. Safe. -/
  | notModelled (mnemonic : String)
deriving DecidableEq, Repr

/-- The controller as POWER_ON leaves a new unit (R186): no region's image has been written, so every region is loaded
EMPTY (R65, R76) with its STORE notice at both ports; the battery clock fails its check (R6); the inputs of the panel
are being sampled for the EMPTY debounce of 50 ms (R156); every line is OFF (R23). The key switch in RUN, the elapsed
count 0 and the battery clock's stopped contents are the model's choice (notes/assumptions/4.md). -/
def State.reset : State :=
  let plan : Plan :=
    { cal := { weekday := [], dayType := [], except := [],
               timeSet := { refEnable := false, interval := 64, slewLimit := 4, stepThreshold := 200, catchUp := 30, trustBackup := false } }
      dpl := { plan := [] }
      ovr := { entries := [] }
      pat := { repeats := [], segments := [], groups := [] }
      zon := { zones := [], zoneSet := { reserve := 1, pauseLength := 600, idleLimit := 15 } }
      drl := { programs := [], stages := [], schedule := [],
               drillSet := { program := 0, ackTimeout := 10, restoreDelay := 30, debounce := 50, silence := .level } }
      lin := { lines := [], devices := [], polls := [] }
      prt := { ports := { a := { rights := [.read, .read, .read, .read, .read, .read, .read, .read], pageLimit := 60, quiet := [],
                                 mode := .callAll, holdTimeout := 120 }
                          b := { rights := [.read, .read, .read, .read, .read, .read, .read, .read], pageLimit := 60, quiet := [],
                                 mode := .callAll, holdTimeout := 120 } }
               operators := [], levels := [] } }
  let input : InputSt := { raw := .inactive, levelSince := 0, circuitSince := 0, debounced := false, fault := false }
  let ntuPort : NtuPort :=
    { recs := [(14, { flag := true, count := 8, detail := some (.store .prt .loadEmpty) })], quiet := [], mode := .callAll,
      attention := true }
  let portSt : PortSt := { arriving := [], typed := { chars := [], bad := false, tooLong := false }, reply := none, owed := 0, cursor := none, capture := none, restarts := false }
  { power := true
    setup := false
    now := 0
    store := { live := plan, staged := plan, holds := [], images := plan, imageGood := [] }
    tbu := { day := 0, sec := 0, phase := 0, len := 8000, slew := 0, drift := 0, acc := 0, validity := .invalid, disc := .free,
             chain := none, history := [], qualified := false, consec := 0, goodMarks := 0, holdoverAge := 0, unsyncDue := false,
             unsync := false, nudgeReady := false, lastStep := none,
             battery := { time := { day := 0, sec := 0 }, drift := 0, valid := false } }
    ztc := { zones := [], trunks := [], groups := [], grants := 0, agenda := [] }
    bds := { list := [], listDate := 0, mark := { day := 0, sec := 0 }, trustBackup := false, gateOpen := false, queue := [],
             lastJob := 0 }
    pgc := { queue := [], lastPage := 0, arrivals := 0 }
    pnl := { alarm := input, trouble := input, silence := input, drillAck := input, state := .normal, restoreAt := none,
             alarmSet := [], drillReq := false, sampleUntil := some 400 }
    dsq := { session := none, mark := { day := 0, sec := 0 }, trustBackup := false, gateOpen := false, records := [],
             lastRecord := some 0 }
    lines := []
    field := []
    ntu := { a := ntuPort, b := ntuPort }
    ports := { a := portSt, b := portSt }
    slots := []
    fromA := []
    fromB := []
    restartDue := false
    draws := 0
    pending := [] }

end Sys2Proof.Machine
end

