-- ==== Sys2Proof/Config.lean ====
section
/-! DEFINITION. The fixed quantities of the manual, and the free values: constants without a body, for what the manual
leaves to the plant or to the moment. Nothing can be proved of a free value, so a claim holds whatever it is. -/

set_option autoImplicit false

namespace Sys2Proof.Config

/-- The last day number, 2099-12-31 (section 4.1). -/
abbrev lastDay : Nat := 36524

/-- Seconds in a day. -/
abbrev daySeconds : Nat := 86400

/-- Eighths in a nominal second (section 4.1). -/
abbrev nominal : Nat := 8000

/-- FREE VALUE: where the k-th event that becomes due together with others stands among them. The manual leaves the order
of events that arrive together open ("whichever is taken first"). -/
opaque tieOrder : Nat → Nat

/-- FREE VALUE: whether the image read back at the k-th end of an image write passes its check (R75), where no command
says so. -/
opaque imageWriteGood : Nat → Bool

/-- FREE VALUE: the values that come back from the k-th proving frame sent into the inner loop (R57), where no command
says so. -/
opaque loopBack : Nat → List Byte → List Byte

/-- FREE VALUE: the serial number built into the device at an address of a line; a reply carries 0 to 999,999 (R50). -/
opaque deviceSerial : Nat → Nat → Nat

/-- FREE VALUE: the k-th line of what a reply carries beside its reply word, as character codes, where no rule gives its
text (R169). -/
opaque replyText : Sys2Proof.Machine.Reply → Nat → List Nat

end Sys2Proof.Config
end

