-- ==== Sys2Proof/Machine/Ops.lean ====
section
/-! DEFINITION. The named operations over what State holds: tables, values per port, the numbering of the manual's names
(R64), the readings of campus and elapsed time (R1, section 4.1), and the record accessors the blocks share. -/

set_option autoImplicit false

namespace Sys2Proof.Machine

open Sys2Proof

/-! ### Tables -/

/-- The contents of number `i`: what is listed, or the starting value `d i`. -/
def tget {α : Type} (d : Nat → α) : Table α → Nat → α
  | [], i => d i
  | (j, v) :: t, i => if i = j then v else tget d t i

/-- `t` with `v` listed at `i`, the numbers kept in rising order. -/
def tput {α : Type} : Table α → Nat → α → Table α
  | [], i, v => [(i, v)]
  | (j, w) :: t, i, v =>
    if i < j then (i, v) :: (j, w) :: t
    else if i = j then (i, v) :: t
    else (j, w) :: tput t i v

/-- `t` with nothing listed at `i`. -/
def tdel {α : Type} : Table α → Nat → Table α
  | [], _ => []
  | (j, w) :: t, i => if i = j then tdel t i else (j, w) :: tdel t i

/-- `t` with the contents of `i` set to `v`: a starting value is not listed, so equal contents are equal tables. -/
def tset {α : Type} [DecidableEq α] (d : Nat → α) (t : Table α) (i : Nat) (v : α) : Table α :=
  if v = d i then tdel t i else tput t i v

/-- The numbers from `k` on stand in rising order and none holds its starting value. -/
def twfFrom {α : Type} [DecidableEq α] (d : Nat → α) : Nat → Table α → Bool
  | _, [] => true
  | k, (j, v) :: t => decide (k ≤ j) && decide (v ≠ d j) && twfFrom d (j + 1) t

/-- The canonical form of a table. -/
def twf {α : Type} [DecidableEq α] (d : Nat → α) (t : Table α) : Bool := twfFrom d 0 t

/-! ### Values per port -/

def PerPort.get {α : Type} (x : PerPort α) : Port → α
  | .a => x.a
  | .b => x.b

def PerPort.set {α : Type} (x : PerPort α) (p : Port) (v : α) : PerPort α :=
  match p with
  | .a => { x with a := v }
  | .b => { x with b := v }

def otherPort : Port → Port
  | .a => .b
  | .b => .a

def portIdx : Port → Nat
  | .a => 0
  | .b => 1

/-! ### Numbers of names -/

def regionIdx : Region → Nat
  | .cal => 0
  | .dpl => 1
  | .ovr => 2
  | .pat => 3
  | .zon => 4
  | .drl => 5
  | .lin => 6
  | .prt => 7

/-- The regions in the order of R63. -/
def allRegions : List Region := [.cal, .dpl, .ovr, .pat, .zon, .drl, .lin, .prt]

/-- The notice kinds in the order of their numbers (chapter 11.1). -/
def allKinds : List NoticeKind :=
  [.timeStep, .reference, .bellDropped, .bellOverrun, .bellSkipped, .pageEnd, .device, .line, .clockOff, .panel, .drill,
   .hold, .access, .crossSignal, .store, .testEnd]

/-- A notice kind's number less 1, which is its place in the LEVEL table of a port (R64). -/
def kindIdx : NoticeKind → Nat
  | .timeStep => 0
  | .reference => 1
  | .bellDropped => 2
  | .bellOverrun => 3
  | .bellSkipped => 4
  | .pageEnd => 5
  | .device => 6
  | .line => 7
  | .clockOff => 8
  | .panel => 9
  | .drill => 10
  | .hold => 11
  | .access => 12
  | .crossSignal => 13
  | .store => 14
  | .testEnd => 15

/-- Operator classes as numbers in their rising order (section 4.4). -/
def classRank : OpClass → Nat
  | .none => 0
  | .viewer => 1
  | .staff => 2
  | .office => 3
  | .safety => 4

/-- The region a table belongs to (R64). -/
def tableRegion : Tbl → Region
  | .weekday | .daytype | .except | .timeset => .cal
  | .plan => .dpl
  | .override => .ovr
  | .pattern | .segment | .group => .pat
  | .zone | .zoneset => .zon
  | .program | .stage | .schedule | .drillset => .drl
  | .line | .device | .poll => .lin
  | .portset | .operator | .level => .prt

/-- The number of entries of a table (R64). -/
def tableSize : Tbl → Nat
  | .weekday => 7
  | .daytype => 16
  | .except => 64
  | .timeset => 1
  | .plan => 1024
  | .override => 32
  | .pattern => 16
  | .segment => 128
  | .group => 16
  | .zone => 32
  | .zoneset => 1
  | .program => 8
  | .stage => 64
  | .schedule => 8
  | .drillset => 1
  | .line => 6
  | .device => 144
  | .poll => 192
  | .portset => 2
  | .operator => 32
  | .level => 32

/-- The fixed entries, which cannot be written (R64). -/
def fixedEntry (t : Tbl) (i : Nat) : Bool :=
  match t with
  | .pattern => i = 0
  | .segment => i < 8
  | .group => i = 0
  | _ => false

/-- The place of an address of a line in the DEVICE table (R64) and among the field devices. -/
def devIdx (l addr : Nat) : Nat := l * 24 + addr - 1

/-- The zones Z00 to Z31 in rising order. -/
def allZones : List Nat := List.range 32

/-- The addresses 1 to 24 in rising order. -/
def allAddrs : List Nat := (List.range 24).map (· + 1)

/-- The lines L0 to L5. -/
def allLines : List Nat := List.range 6

/-- The trunks T0 to T3. -/
def allTrunks : List Nat := List.range 4

/-- A set of numbers below `n`, in the one form in which sets are kept: rising, each once. -/
def setBelow (n : Nat) (xs : List Nat) : List Nat := (List.range n).filter fun x => xs.contains x

/-! ### Values every number starts with (R65) -/

def weekdayStart : Nat → Nat := fun _ => 0

def dayTypeStart : Nat → Option Nat := fun _ => none

def repeatStart : Nat → Nat := fun _ => 1

def groupStart : Nat → List Nat := fun _ => []

def zoneCfgStart : Nat → ZoneCfg := fun _ =>
  { line := none, medium := .sounder, policy := .finish, maxDefer := 20, limit := .force, alarmFollow := true,
    drillFollow := true, pageAllowed := true }

def programStart : Nat → Program := fun _ => { building := [], source := .controller }

def lineCfgStart : Nat → LineCfg := fun _ => { enable := false, auto := true, missLimit := 3 }

/-- Operator 00 of each port is SAFETY, every other NONE. -/
def operatorStart : Nat → OpClass := fun i => if i % 16 = 0 then .safety else .none

/-- LINE, PANEL, DRILL and STORE are URGENT, every other kind ROUTINE. -/
def levelStart : Nat → NoticeLevel := fun i => if [7, 9, 10, 14].contains (i % 16) then .urgent else .routine

def noneStart {α : Type} : Nat → Option α := fun _ => none

/-! ### Values the runtime records start with -/

/-- A zone record at power-on and RESTART (R96). -/
def zoneRecStart : Nat → ZoneRec := fun _ =>
  { holder := .none, suspended := .none, trunk := none, bellUntil := none, waits := [], available := false, degraded := false }

def holdStart : Nat → HoldState := fun _ => .free

/-- A region whose image has never been written fails its check (R76). -/
def imageGoodStart : Nat → Bool := fun _ => false

def devRecStart : Nat → DevRec := fun _ =>
  { listed := false, kind := none, zone := none, serial := none, state := .absent, misses := 0, report := none, corrections := 0 }

def proverStart : Prover :=
  { frames := 0, startedAt := none, injPending := false, injPlace := none, expected := none, store := [], window := [],
    compared := 0, errored := 0, slips := 0, slipsInj := 0, inStepAt := none }

/-- A line before its first bring-up. -/
def lineStart : Nat → LineSt := fun _ =>
  { state := .off, enabled := false, auto := true, polls := [], missLimit := 3, since := 0, recs := [],
    pollTable := [], phasePtr := 0, searchPtr := 24, recoverPtr := 24, outAlarm := [], outOrd := [], delay := none,
    unanswered := 0, window := [], frameNo := 0, lastFrame := none, stepPending := false, commands := 0, secondAt := 0,
    slot := 40, transaction := none, discAddr := 1, discTry := 0, prover := proverStart, test := none, record := none,
    sent := [] }

/-- A field device after power-up: a bell unit off, a speaker node muted, no zone, not in echo (R34, R45, R59). -/
def fieldStart : Nat → FieldDev := fun _ =>
  { clock := none, bellOn := false, holdUntil := 0, trunk := none, ampFault := false, lastValid := 0, presses := 0,
    zone := none, loopUps := 0, echo := none, sent := [] }

def noticeStart : Nat → NoticeRec := fun _ => { flag := false, count := 0, detail := none }

def slotStart : Nat → Nat := fun _ => 0

/-! ### Reading State -/

/-- A zone's runtime record (R96). -/
def State.zoneAt (s : State) (z : Nat) : ZoneRec := tget zoneRecStart s.ztc.zones z

def State.setZone (s : State) (z : Nat) (r : ZoneRec) : State :=
  { s with ztc := { s.ztc with zones := tset zoneRecStart s.ztc.zones z r } }

/-- A trunk's record (R106); none for FREE. -/
def State.trunkAt (s : State) (t : Nat) : Option TrunkUse := tget noneStart s.ztc.trunks t

def State.setTrunk (s : State) (t : Nat) (u : Option TrunkUse) : State :=
  { s with ztc := { s.ztc with trunks := tset noneStart s.ztc.trunks t u } }

def State.lineAt (s : State) (l : Nat) : LineSt := tget lineStart s.lines l

def State.setLine (s : State) (l : Nat) (x : LineSt) : State :=
  { s with lines := tset lineStart s.lines l x }

def LineSt.recAt (x : LineSt) (addr : Nat) : DevRec := tget devRecStart x.recs addr

def LineSt.setRec (x : LineSt) (addr : Nat) (r : DevRec) : LineSt :=
  { x with recs := tset devRecStart x.recs addr r }

def State.fieldAt (s : State) (l addr : Nat) : FieldDev := tget fieldStart s.field (devIdx l addr)

def State.setField (s : State) (l addr : Nat) (d : FieldDev) : State :=
  { s with field := tset fieldStart s.field (devIdx l addr) d }

def State.holdAt (s : State) (r : Region) : HoldState := tget holdStart s.store.holds (regionIdx r)

def State.setHold (s : State) (r : Region) (h : HoldState) : State :=
  { s with store := { s.store with holds := tset holdStart s.store.holds (regionIdx r) h } }

def State.port (s : State) (p : Port) : PortSt := s.ports.get p

def State.setPort (s : State) (p : Port) (x : PortSt) : State := { s with ports := s.ports.set p x }

/-- A zone's configuration in the live ZON bank (R95). -/
def State.zoneCfg (s : State) (z : Nat) : ZoneCfg := tget zoneCfgStart s.store.live.zon.zones z

/-- The live time settings of CAL (R86). -/
def State.timeSet (s : State) : TimeSet := s.store.live.cal.timeSet

/-- The live DRILLSET entry (R64). -/
def State.drillSet (s : State) : DrillSet := s.store.live.drl.drillSet

/-- Ask the zone controller for the pieces of work `w` before anything it still has to do. -/
def State.push (s : State) (w : List Work) : State :=
  { s with ztc := { s.ztc with agenda := w ++ s.ztc.agenda } }

/-- The live class of an operator of a port (R170). -/
def State.classOf (s : State) (p : Port) (op : Fin 16) : OpClass :=
  tget operatorStart s.store.live.prt.operators (portIdx p * 16 + op.val)

/-! ### Reading campus time (R1) -/

/-- The phase as it is read: capped at 7,999. -/
def readPhase (t : Tbu) : Nat := min t.phase 7999

/-- Campus time in milliseconds. -/
def Tbu.campus (t : Tbu) : CampusMs := { day := t.day, ms := t.sec * 1000 + readPhase t / 8 }

/-- The campus date and second. -/
def Tbu.stamp (t : Tbu) : Stamp := { day := t.day, sec := t.sec }

/-- Campus time in eighths. -/
def Tbu.eighths (t : Tbu) : Nat := (t.day * 86400 + t.sec) * 8000 + readPhase t

def State.campus (s : State) : CampusMs := s.tbu.campus

/-- A stamp as a count of seconds from the start of day 0; stamps are compared by it. -/
def Stamp.count (x : Stamp) : Nat := x.day * 86400 + x.sec

def CampusMs.count (x : CampusMs) : Nat := x.day * 86400000 + x.ms

/-- A stamp some seconds on; the last second of 2099 is followed by the first of 2000 (R1). -/
def Stamp.after (x : Stamp) (n : Nat) : Stamp :=
  let c := (x.count + n) % (36525 * 86400)
  { day := c / 86400, sec := c % 86400 }

/-- The later of two stamps. -/
def Stamp.later (x y : Stamp) : Stamp := if y.count ≤ x.count then x else y

/-- Whether the time `t` of elapsed time has been reached. -/
def State.reached (s : State) (t : Nat) : Bool := decide (t ≤ s.now)

/-- Milliseconds from `t` to now, truncated (0 when `t` lies ahead). -/
def State.msSince (s : State) (t : Nat) : Nat := (s.now - t) / 8

/-- Milliseconds from now to `t`, truncated (0 when `t` has passed). -/
def State.msUntil (s : State) (t : Nat) : Nat := (t - s.now) / 8

end Sys2Proof.Machine
end

