-- ==== Sys2Proof/Machine/Names.lean ====
section
/-! DEFINITION. The written forms of the manual's names, words, numbers, dates and times (sections 4.1 and 4.2, R172, R176), as
lists of character codes: how a reply writes them and how a request line's arguments are read. -/

set_option autoImplicit false

namespace Sys2Proof.Machine

open Sys2Proof

/-- The character codes of a text. -/
def codes (t : String) : List Nat := t.toList.map Char.toNat

/-! ### Writing -/

/-- The last `k` decimal digits of a number, leading zeros left out but for the last. -/
def digitsFrom : Nat → Nat → List Nat
  | 0, _ => []
  | k + 1, n => (if n < 10 then [] else digitsFrom k (n / 10)) ++ [48 + n % 10]

/-- A decimal number; a line of 80 characters holds no longer one. -/
def decimal (n : Nat) : List Nat := digitsFrom 80 n

/-- A number of at least two digits. -/
def twoDigits (n : Nat) : List Nat := if n < 10 then 48 :: decimal n else decimal n

/-- Texts with a character between them. -/
def joined (sep : Nat) : List (List Nat) → List Nat
  | [] => []
  | [w] => w
  | w :: ws => w ++ sep :: joined sep ws

def dateText (d : WrittenDate) : List Nat := decimal d.year ++ [45] ++ twoDigits d.month ++ [45] ++ twoDigits d.day

def timeText (t : WrittenTime) : List Nat := twoDigits t.hour ++ [58] ++ twoDigits t.minute ++ [58] ++ twoDigits t.second

/-- The words that stand as values, with their written forms. -/
def fieldWords : List (FieldWord × String) :=
  [(.yes, "YES"), (.no, "NO"), (.noBells, "NO-BELLS"), (.zoneDefault, "ZONE-DEFAULT"), (.sounderOnly, "SOUNDER-ONLY"),
   (.speakerOnly, "SPEAKER-ONLY"), (.add, "ADD"), (.omit, "OMIT"), (.sounder, "SOUNDER"), (.speaker, "SPEAKER"), (.both, "BOTH"),
   (.immediate, "IMMEDIATE"), (.pause, "PAUSE"), (.finish, "END"), (.force, "FORCE"), (.drop, "DROP"),
   (.controller, "CONTROLLER"), (.panel, "PANEL"), (.alert, "ALERT"), (.evacuate, "EVACUATE"), (.hold, "HOLD"), (.back, "RETURN"),
   (.timed, "TIMED"), (.manual, "MANUAL"), (.clearAll, "CLEAR-ALL"), (.set, "SET"), (.clear, "CLEAR"), (.level, "LEVEL"),
   (.edge, "EDGE"), (.explicit, "EXPLICIT"), (.auto, "AUTO"), (.clock, "CLOCK"), (.bell, "BELL"), (.none, "NONE"),
   (.viewer, "VIEWER"), (.staff, "STAFF"), (.office, "OFFICE"), (.safety, "SAFETY"), (.read, "READ"), (.edit, "EDIT"),
   (.callAll, "OPEN"), (.urgentOnly, "URGENT-ONLY"), (.closed, "CLOSED"), (.routine, "ROUTINE"), (.urgent, "URGENT"),
   (.empty, "EMPTY")]

def rightsNames : List (Rights × String) := [(.none, "NONE"), (.read, "READ"), (.edit, "EDIT")]

/-- The notice kinds by name (chapter 11.1). -/
def kindNames : List (NoticeKind × String) :=
  [(.timeStep, "TIME-STEP"), (.reference, "REFERENCE"), (.bellDropped, "BELL-DROPPED"), (.bellOverrun, "BELL-OVERRUN"),
   (.bellSkipped, "BELL-SKIPPED"), (.pageEnd, "PAGE-END"), (.device, "DEVICE"), (.line, "LINE"), (.clockOff, "CLOCK-OFF"),
   (.panel, "PANEL"), (.drill, "DRILL"), (.hold, "HOLD"), (.access, "ACCESS"), (.crossSignal, "CROSS-SIGNAL"), (.store, "STORE"),
   (.testEnd, "TEST-END")]

def regionNames : List (Region × String) :=
  [(.cal, "CAL"), (.dpl, "DPL"), (.ovr, "OVR"), (.pat, "PAT"), (.zon, "ZON"), (.drl, "DRL"), (.lin, "LIN"), (.prt, "PRT")]

def tableNames : List (Tbl × String) :=
  [(.weekday, "WEEKDAY"), (.daytype, "DAYTYPE"), (.except, "EXCEPT"), (.timeset, "TIMESET"), (.plan, "PLAN"),
   (.override, "OVERRIDE"), (.pattern, "PATTERN"), (.segment, "SEGMENT"), (.group, "GROUP"), (.zone, "ZONE"), (.zoneset, "ZONESET"),
   (.program, "PROGRAM"), (.stage, "STAGE"), (.schedule, "SCHEDULE"), (.drillset, "DRILLSET"), (.line, "LINE"),
   (.device, "DEVICE"), (.poll, "POLL"), (.portset, "PORTSET"), (.operator, "OPERATOR"), (.level, "LEVEL")]

/-- The written form of a named thing. -/
def nameText {α : Type} [DecidableEq α] (names : List (α × String)) (x : α) : List Nat :=
  ((names.find? fun n => decide (n.1 = x)).map fun n => codes n.2).getD []

/-- What a word names, if it names something. -/
def named? {α : Type} (names : List (α × String)) (w : List Nat) : Option α :=
  (names.find? fun n => decide (codes n.2 = w)).map Prod.fst

/-- The names of a set joined by commas, or a hyphen for the empty set (R176). -/
def setText (ws : List (List Nat)) : List Nat := if ws.isEmpty then [45] else joined 44 ws

/-- A zone's name. -/
def zoneText (n : Nat) : List Nat := codes "Z" ++ twoDigits n

/-- A line's name. -/
def lineText (n : Nat) : List Nat := codes "L" ++ decimal n

/-- A field as it is written (R176). -/
def fieldText : Field → List Nat
  | .num n => decimal n
  | .zone n => zoneText n
  | .line n => lineText n
  | .pattern n => codes "P" ++ twoDigits n
  | .group n => codes "G" ++ twoDigits n
  | .dayPlan n => codes "D" ++ twoDigits n
  | .program n => codes "X" ++ decimal n
  | .date d => dateText d
  | .time t => timeText t
  | .word w => nameText fieldWords w
  | .zones zs => setText (zs.map zoneText)
  | .lines ls => setText (ls.map lineText)
  | .rights rs => setText (rs.map (nameText rightsNames))
  | .kinds ks => setText (ks.map (nameText kindNames))
  | .hyphen => [45]
  | .label cs => cs

/-! ### Reading -/

/-- A letter as its capital (R169). -/
def capital (c : Nat) : Nat := if 97 ≤ c ∧ c ≤ 122 then c - 32 else c

def isDigit (c : Nat) : Bool := decide (48 ≤ c) && decide (c ≤ 57)

/-- The number that decimal digits are; none for anything else. -/
def number? (w : List Nat) : Option Nat :=
  if !w.isEmpty && w.all isDigit then some (w.foldl (fun n c => 10 * n + (c - 48)) 0) else none

/-- The number of exactly `k` digits. -/
def digits? (k : Nat) (w : List Nat) : Option Nat := if w.length = k then number? w else none

/-- Text cut at every place a character stands. -/
def cutAt (sep : Nat) : List Nat → List (List Nat)
  | [] => [[]]
  | c :: cs =>
    match cutAt sep cs with
    | [] => [[c]]
    | w :: ws => if c = sep then [] :: w :: ws else (c :: w) :: ws

/-- A date YYYY-MM-DD (section 4.1). -/
def date? (w : List Nat) : Option WrittenDate :=
  match cutAt 45 w with
  | [y, m, d] => do
    let y ← digits? 4 y
    let m ← digits? 2 m
    let d ← digits? 2 d
    some { year := y, month := m, day := d }
  | _ => none

/-- A time hh:mm:ss (section 4.1). -/
def time? (w : List Nat) : Option WrittenTime :=
  match cutAt 58 w with
  | [h, m, c] => do
    let h ← digits? 2 h
    let m ← digits? 2 m
    let c ← digits? 2 c
    some { hour := h, minute := m, second := c }
  | _ => none

/-- A time hh:mm:ss or hh:mm:ss.mmm with its milliseconds, 0 when absent (R19). -/
def timeMs? (w : List Nat) : Option (WrittenTime × Nat) :=
  match cutAt 46 w with
  | [t] => (time? t).map fun t => (t, 0)
  | [t, ms] => do
    let t ← time? t
    let ms ← digits? 3 ms
    some (t, ms)
  | _ => none

/-- A signed number (R20). R172 gives it no written form: a number without a sign is taken as positive (DESIGN CHOICE,
notes/assumptions/41.md). -/
def signed? (w : List Nat) : Option Int :=
  match w with
  | 43 :: ds => (number? ds).map Int.ofNat
  | 45 :: ds => (number? ds).map fun n => -Int.ofNat n
  | ds => (number? ds).map Int.ofNat

/-- A name of a letter and so many digits, as section 4.2 writes it: Z07, L3. -/
def letter? (letter : String) (k : Nat) (w : List Nat) : Option Nat :=
  match w with
  | c :: ds => if [c] = codes letter then digits? k ds else none
  | [] => none

def zone? : List Nat → Option Nat := letter? "Z" 2

def line? : List Nat → Option Nat := letter? "L" 1

/-- The whole list where every item is read, else none. -/
def each? {α β : Type} (f : α → Option β) : List α → Option (List β)
  | [] => some []
  | x :: xs => do
    let y ← f x
    let ys ← each? f xs
    some (y :: ys)

/-- The names of a set, joined by commas (R172, R176). -/
def set? {α : Type} (f : List Nat → Option α) (w : List Nat) : Option (List α) := each? f (cutAt 44 w)

/-- The first reading that succeeds. -/
def firstOf {α β : Type} (x : α) : List (α → Option β) → Option β
  | [] => none
  | f :: fs => (f x).orElse fun _ => firstOf x fs

/-- One field of a WRITE by its written shape, in capitals (R176). -/
def field? (w : List Nat) : Option Field :=
  firstOf w
    [fun w => if w = [45] then some .hyphen else none,
     fun w => (number? w).map .num, fun w => (date? w).map .date, fun w => (time? w).map .time,
     fun w => (zone? w).map .zone, fun w => (line? w).map .line,
     fun w => (letter? "P" 2 w).map .pattern, fun w => (letter? "G" 2 w).map .group,
     fun w => (letter? "D" 2 w).map .dayPlan, fun w => (letter? "X" 1 w).map .program,
     fun w => (named? fieldWords w).map .word,
     fun w => (set? zone? w).map .zones, fun w => (set? line? w).map .lines,
     fun w => (set? (named? rightsNames) w).map .rights, fun w => (set? (named? kindNames) w).map .kinds]

end Sys2Proof.Machine
end

