-- ==== Sys2Proof/Machine/Flags.lean ====
section
/-! DEFINITION. The Notice Unit's flags and attention lines (chapter 11): raising a notice, the level a kind carries,
whether a port's line is active; and the trouble causes of the panel link (R151), which its notices carry. -/

set_option autoImplicit false

namespace Sys2Proof.Machine

open Sys2Proof

/-- The level a kind carries at a port, from the live PRT bank (section 11.2). -/
def State.levelOf (s : State) (p : Port) (k : NoticeKind) : NoticeLevel :=
  tget levelStart s.store.live.prt.levels (portIdx p * 16 + kindIdx k)

def NtuPort.recAt (n : NtuPort) (k : NoticeKind) : NoticeRec := tget noticeStart n.recs (kindIdx k)

def NtuPort.setRec (n : NtuPort) (k : NoticeKind) (r : NoticeRec) : NtuPort :=
  { n with recs := tset noticeStart n.recs (kindIdx k) r }

/-- A port takes an occurrence of a kind (R182): nothing while the kind is quiet, else the flag is set, the count rises
by one up to 255, and the detail is replaced. -/
def NtuPort.take (n : NtuPort) (k : NoticeKind) (d : Detail) : NtuPort :=
  if n.quiet.contains k then n
  else n.setRec k { flag := true, count := min ((n.recAt k).count + 1) 255, detail := some d }

/-- Raise a notice at one port. -/
def State.raiseAt (s : State) (p : Port) (k : NoticeKind) (d : Detail) : State :=
  { s with ntu := s.ntu.set p ((s.ntu.get p).take k d) }

/-- Raise a notice at both ports. -/
def State.raise (s : State) (k : NoticeKind) (d : Detail) : State := (s.raiseAt .a k d).raiseAt .b k d

/-- Whether a flagged kind of this level calls in an attention mode (R183). -/
def levelCalls (m : AttMode) (l : NoticeLevel) : Bool :=
  match m with
  | .callAll => true
  | .urgentOnly => l = .urgent
  | .closed => false

/-- Whether a port's attention line is to be active (R183): it has a flagged notice whose kind is not quiet and whose
level passes the port's attention mode. -/
def State.calls (s : State) (p : Port) : Bool :=
  allKinds.any fun k =>
    ((s.ntu.get p).recAt k).flag && !(s.ntu.get p).quiet.contains k && levelCalls (s.ntu.get p).mode (s.levelOf p k)

/-- Re-judge one port's attention line. -/
def State.rejudgeAt (s : State) (p : Port) : State :=
  { s with ntu := s.ntu.set p { s.ntu.get p with attention := s.calls p } }

/-- Re-judge both attention lines, which follow every change at once (R183). -/
def State.rejudge (s : State) : State := (s.rejudgeAt .a).rejudgeAt .b

/-- A port's attention contact (R183): closed while its line is active, open without power. -/
def State.contactClosed (s : State) (p : Port) : Bool := s.power && (s.ntu.get p).attention

/-- The flagged kind of highest standing at a port (R184): urgent kinds before routine ones, then the lower number. -/
def State.nextKind (s : State) (p : Port) : Option NoticeKind :=
  let flagged := allKinds.filter fun k => ((s.ntu.get p).recAt k).flag
  match flagged.find? fun k => s.levelOf p k = .urgent with
  | some k => some k
  | none => flagged.head?

/-! ### The trouble flag (R151) -/

def Pnl.input (x : Pnl) : PanelInput → InputSt
  | .alarm => x.alarm
  | .trouble => x.trouble
  | .silence => x.silence
  | .drillAck => x.drillAck

def Pnl.setInput (x : Pnl) (i : PanelInput) (v : InputSt) : Pnl :=
  match i with
  | .alarm => { x with alarm := v }
  | .trouble => { x with trouble := v }
  | .silence => { x with silence := v }
  | .drillAck => { x with drillAck := v }

def allInputs : List PanelInput := [.alarm, .trouble, .silence, .drillAck]

/-- The causes in the trouble set (R151). -/
def Pnl.causes (x : Pnl) : List TroubleCause :=
  (if x.trouble.debounced then [.trouble] else []) ++
    ((allInputs.filter fun i => (x.input i).fault).map fun i => TroubleCause.wiring i) ++
    (if x.sampleUntil.isSome then [.start] else [])

/-- The trouble flag is set while the set holds any cause (R151). -/
def Pnl.troubled (x : Pnl) : Bool := !x.causes.isEmpty

/-- Raise notice PANEL with an event, the panel state and the causes (R151, R152). -/
def State.raisePanel (s : State) (ev : PanelEvent) : State :=
  s.raise .panel (.panel ev s.pnl.state s.pnl.causes)

end Sys2Proof.Machine
end

