-- ==== Sys2Proof/Machine/Calendar.lean ====
section
/-! DEFINITION. Dates (R81), the day type of a date (R84), the effective list (R91), pattern timelines (R92, R93) and
zone-group expansion (R94): what the plan's regions mean. -/

set_option autoImplicit false

namespace Sys2Proof.Machine

open Sys2Proof

/-! ### Dates and times (section 4.1, R81) -/

/-- Days of a month; every year of the controller's range divisible by 4 is a leap year. -/
def monthDays (year month : Nat) : Nat :=
  match month with
  | 1 | 3 | 5 | 7 | 8 | 10 | 12 => 31
  | 4 | 6 | 9 | 11 => 30
  | 2 => if year % 4 = 0 then 29 else 28
  | _ => 0

/-- Whether a written date exists and lies in 2000-01-01 to 2099-12-31 (R81). -/
def dateExists (d : WrittenDate) : Bool :=
  decide (2000 ≤ d.year) && decide (d.year ≤ 2099) && decide (1 ≤ d.month) && decide (d.month ≤ 12) && decide (1 ≤ d.day) &&
    decide (d.day ≤ monthDays d.year d.month)

/-- The day number of the first day of a year. -/
def yearStart (year : Nat) : Nat := (year - 2000) * 365 + (year - 2000 + 3) / 4

/-- Days of a year before the first of a month. -/
def daysBefore (year : Nat) : Nat → Nat
  | 0 => 0
  | 1 => 0
  | m + 1 => daysBefore year m + monthDays year m

/-- The day number of a date that exists: 0 for 2000-01-01 to 36,524 for 2099-12-31. -/
def dayNumber (d : WrittenDate) : Option Nat :=
  if dateExists d then some (yearStart d.year + daysBefore d.year d.month + (d.day - 1)) else none

/-- Whether a written time of day exists (R81). -/
def timeExists (t : WrittenTime) : Bool :=
  decide (t.hour ≤ 23) && decide (t.minute ≤ 59) && decide (t.second ≤ 59)

/-- The second of day of a time that exists. -/
def secondOf (t : WrittenTime) : Option Nat :=
  if timeExists t then some (t.hour * 3600 + t.minute * 60 + t.second) else none

/-- The month and day that a day of the year falls on, searching from a month. -/
def monthFrom (year : Nat) : Nat → Nat → Nat → Nat × Nat
  | 0, m, n => (m, n + 1)
  | k + 1, m, n => if n < monthDays year m then (m, n + 1) else monthFrom year k (m + 1) (n - monthDays year m)

/-- The written form of a day number (R81). -/
def writtenDate (day : Nat) : WrittenDate :=
  let r := day % 1461
  let year := 2000 + 4 * (day / 1461) + (if r < 366 then 0 else 1 + (r - 366) / 365)
  let md := monthFrom year 11 1 (day - yearStart year)
  { year := year, month := md.1, day := md.2 }

/-- The written form of a second of day. -/
def writtenTime (sec : Nat) : WrittenTime := { hour := sec / 3600, minute := sec / 60 % 60, second := sec % 60 }

/-- The moment a message of the reference line names, if it is valid in the sense of R7. -/
def messageStamp (d : WrittenDate) (t : WrittenTime) : Option Stamp :=
  match dayNumber d, secondOf t with
  | some day, some sec => some { day := day, sec := sec }
  | _, _ => none

/-- One second later over the full date. -/
def Stamp.next (x : Stamp) : Stamp :=
  if x.sec + 1 < 86400 then { x with sec := x.sec + 1 } else { day := x.day + 1, sec := 0 }

/-- The weekday index of a day number, 0 for Monday (R81). -/
def weekdayOf (day : Nat) : Nat := (day + 5) % 7

/-! ### Day types and the effective list (R84, R91) -/

/-- Whether an exception covers a date (R83). -/
def Exception.covers (e : Exception) (day : Nat) : Bool := decide (e.first ≤ day) && decide (day ≤ e.last)

/-- The filled entries of the EXCEPT table in rising index. -/
def Cal.exceptions (c : Cal) : List Exception := (List.range 64).filterMap fun i => tget noneStart c.except i

/-- The day type of a date: the first filled exception that covers it, else its weekday's (R84). -/
def Cal.dayTypeOf (c : Cal) (day : Nat) : Nat :=
  match c.exceptions.find? fun e => e.covers day with
  | some e => e.dayType
  | none => tget weekdayStart c.weekday (weekdayOf day)

/-- The day plan of a date, none for NO-BELLS (R84). -/
def Cal.planOf (c : Cal) (day : Nat) : Option Nat := tget dayTypeStart c.dayType (c.dayTypeOf day)

/-- The filled slots of a day plan in slot order (R87). -/
def Dpl.slots (d : Dpl) (p : Nat) : List ListEntry :=
  (List.range 64).filterMap fun k =>
    (tget noneStart d.plan (p * 64 + k)).map fun e =>
      { key := .plan (p * 64 + k), time := e.time, group := e.group, pattern := e.pattern, medium := e.medium, label := e.label }

/-- The filled overrides of a date in rising index, each with its index. -/
def Ovr.onDate (o : Ovr) (day : Nat) : List (Nat × Override) :=
  (List.range 32).filterMap fun i =>
    match tget noneStart o.entries i with
    | some e => if e.day = day then some (i, e) else none
    | none => none

/-- Whether some OMIT of the list removes a plan entry: its time and its group number are the override's (R89). -/
def omitted (os : List (Nat × Override)) (e : ListEntry) : Bool :=
  os.any fun o =>
    match o.2.action with
    | .omit g => o.2.time = e.time && g = e.group
    | .add _ _ _ => false

/-- The add part of a list (R91, step 3). -/
def addPart (os : List (Nat × Override)) : List ListEntry :=
  os.filterMap fun o =>
    match o.2.action with
    | .add g p m => some { key := .override o.1, time := o.2.time, group := g, pattern := p, medium := m, label := none }
    | .omit _ => none

/-- `x` placed behind every entry whose time is not later than its own. -/
def insertByTime (x : ListEntry) : List ListEntry → List ListEntry
  | [] => [x]
  | y :: ys => if y.time ≤ x.time then y :: insertByTime x ys else x :: y :: ys

/-- The effective list of a date (R91): the plan part less what OMIT overrides remove, and the add part, in order of
time, plan entries before added ones at equal times. -/
def effectiveList (p : Plan) (day : Nat) : List ListEntry :=
  let os := p.ovr.onDate day
  let planPart :=
    match p.cal.planOf day with
    | some d => (p.dpl.slots d).filter fun e => !omitted os e
    | none => []
  (planPart ++ addPart os).foldl (fun l x => insertByTime x l) []

/-! ### Patterns (R92, R93) -/

/-- The segments of a pattern: its filled entries from segment 0 on; P00 has none (R92). -/
def Pat.segmentsOf (p : Pat) (n : Nat) : List Segment :=
  if n = 0 then []
  else ((List.range 8).map fun k => tget noneStart p.segments (n * 8 + k)).takeWhile Option.isSome |>.filterMap id

/-- The on times of segments laid end to end from `t`, everything at or after 30,000 ms cut away (R93). -/
def layOut (t : Nat) : List Segment → List OnTime
  | [] => []
  | g :: gs =>
    if t < 30000 then { start := t, stop := min (t + g.on) 30000 } :: layOut (t + g.on + g.off) gs else []

/-- The length of a run of segments, final off time included. -/
def runLength (gs : List Segment) : Nat := (gs.map fun g => g.on + g.off).foldl (· + ·) 0

/-- A pattern's timeline as its player copies it from the live PAT bank (R93). -/
def Pat.timeline (p : Pat) (n : Nat) : Timeline :=
  let gs := p.segmentsOf n
  let r := if n = 0 then 1 else tget repeatStart p.repeats n
  { ons := layOut 0 (List.replicate r gs).flatten, cycle := min (runLength gs * r) 30000 }

/-- An empty pattern sounds nothing (R92). -/
def Timeline.isEmpty (t : Timeline) : Bool := t.ons.isEmpty

/-- The playing length in milliseconds (R93). -/
def Timeline.length (t : Timeline) : Nat := (t.ons.getLast?.map OnTime.stop).getD 0

/-- The changes a sounder part steps through (R129), each with its time and the end of the on time it starts, or none for
OFF; the last is the OFF at the playing length. An on time followed at once by another has no OFF between. -/
def changesOf : List OnTime → List (Nat × Option Nat)
  | [] => []
  | [o] => [(o.start, some o.stop), (o.stop, none)]
  | o :: o' :: os =>
    (o.start, some o.stop) :: (if o.stop = o'.start then changesOf (o' :: os) else (o.stop, none) :: changesOf (o' :: os))

def Timeline.changes (t : Timeline) : List (Nat × Option Nat) := changesOf t.ons

/-- What a timeline repeated every cycle length shows `e` eighths after its start (R93, R162): the eighths from the start
to the end of the on time in progress, or none for OFF. -/
def Timeline.repeatedAt (t : Timeline) (e : Nat) : Option Nat :=
  if t.cycle = 0 then none
  else
    let pos := e % (8 * t.cycle)
    (t.ons.find? fun o => decide (8 * o.start ≤ pos) && decide (pos < 8 * o.stop)).map fun o => e - pos + 8 * o.stop

/-- The eighths from the start of a repeated timeline to its first change after `e`. -/
def Timeline.nextChange (t : Timeline) (e : Nat) : Option Nat :=
  if t.cycle = 0 then none
  else
    let pos := e % (8 * t.cycle)
    let edges := (t.ons.map fun o => 8 * o.start) ++ (t.ons.map fun o => 8 * o.stop) ++ [8 * t.cycle]
    ((edges.filter fun x => decide (pos < x)).foldl (fun m x => some (match m with | some y => min y x | none => x)) none).map
      fun x => e - pos + x

/-! ### Zone groups (R94) -/

/-- The zones of a group as the PAT bank holds them; G00 is every zone. -/
def Pat.zonesOf (p : Pat) (g : Nat) : List Nat := if g = 0 then allZones else tget groupStart p.groups g

/-- Whether a zone's line in the live ZON bank is not NONE. -/
def State.inUse (s : State) (z : Nat) : Bool := (s.zoneCfg z).line.isSome

/-- The expansion of a group: its zones in use, in rising order (R94). -/
def State.expand (s : State) (g : Nat) : List Nat :=
  allZones.filter fun z => (s.store.live.pat.zonesOf g).contains z && s.inUse z

/-- The expansion of the zones a page names; a single zone is a set of one (R134). -/
def State.expandNames (s : State) : ZoneNames → List Nat
  | .group g => s.expand g
  | .zone z => allZones.filter fun y => decide (y = z) && s.inUse y

end Sys2Proof.Machine
end

