-- ==== Sys2Proof/Machine/Frames.lean ====
section
/-! DEFINITION. The line frames byte by byte (R50): encoding, and reading of received bytes. A frame is read only where its
length, its check and the values of its fields are those of the layout. -/

set_option autoImplicit false

namespace Sys2Proof.Machine

open Sys2Proof

/-- The line frames of R50. -/
inductive Frame where
  | time (num day hour minute second ms : Nat) (step alarm drill unsync backup : Bool)
  | poll (addr : Nat) (zone : Option Nat)
  | reply (addr : Nat) (serial : Nat) (report : Report)
  | output (zone : Nat) (bell : Bool) (hold : Nat) (trunk : Option Nat)
  | clockSet (addr day hour minute second ms : Nat)
  | loopUp (addr : Nat)
  | loopDown (addr : Nat)
  | proving (addr : Nat) (values : List Byte)
deriving DecidableEq, Repr

/-- A number as one byte. -/
def byte (n : Nat) : Byte := BitVec.ofNat 8 n

/-- A number as two bytes, high byte first. -/
def two (n : Nat) : List Byte := [byte (n / 256), byte n]

/-- A number as three bytes, high byte first. -/
def three (n : Nat) : List Byte := [byte (n / 65536), byte (n / 256), byte n]

/-- The number two bytes give, high byte first. -/
def two? (hi lo : Byte) : Nat := hi.toNat * 256 + lo.toNat

/-- The number three bytes give, high byte first. -/
def three? (a b c : Byte) : Nat := a.toNat * 65536 + b.toNat * 256 + c.toNat

/-- The sum of bytes modulo 256. -/
def byteSum (bs : List Byte) : Byte := bs.foldl (· + ·) 0

/-- Bytes with the check byte that makes the sum of them all 0 modulo 256. -/
def withCheck (bs : List Byte) : List Byte := bs ++ [0 - byteSum bs]

/-- A flag as a bit of a byte. -/
def flagBit (b : Bool) (n : Nat) : Nat := if b then n else 0

/-- A trunk or MUTE as sent: 0 MUTE, 1 to 4 for T0 to T3. -/
def trunkByte : Option Nat → Byte
  | none => 0
  | some t => byte (t + 1)

def trunkOf (b : Byte) : Option Nat := if b.toNat = 0 then none else some (b.toNat - 1)

/-- A zone as sent: 0 to 31, or 255 for no zone. -/
def zoneByte : Option Nat → Byte
  | none => 255
  | some z => byte z

/-- A device kind as sent. -/
def reportKind : Report → DevKind
  | .clock _ _ _ => .clock
  | .bell _ => .bell
  | .speaker _ _ => .speaker
  | .clear _ => .clear

def kindByte : DevKind → Byte
  | .clock => 1
  | .bell => 2
  | .speaker => 3
  | .clear => 4

/-- The report bytes of a reply, by kind. -/
def reportBytes : Report → List Byte
  | .clock h m sec => [byte h, byte m, byte sec]
  | .bell on => [byte (flagBit on 1)]
  | .speaker t f => [trunkByte t, byte (flagBit f 1)]
  | .clear n => [byte n]

/-- The bytes of a frame as sent, first byte first (R50). -/
def Frame.bytes : Frame → List Byte
  | .time n day h m sec ms st al dr un ba =>
    withCheck ([1] ++ two n ++ two day ++ [byte h, byte m, byte sec] ++ two ms ++
      [byte (flagBit st 1 + flagBit al 2 + flagBit dr 4 + flagBit un 8 + flagBit ba 16)])
  | .poll a z => withCheck [2, byte a, zoneByte z]
  | .reply a serial r => withCheck ([3, byte a, kindByte (reportKind r)] ++ three serial ++ reportBytes r)
  | .output z b hold t => withCheck ([4, byte z, byte (flagBit b 1)] ++ two hold ++ [trunkByte t])
  | .clockSet a day h m sec ms => withCheck ([5, byte a] ++ two day ++ [byte h, byte m, byte sec] ++ two ms)
  | .loopUp a => withCheck [6, byte a]
  | .loopDown a => withCheck [7, byte a]
  | .proving a vs => [8, byte a] ++ vs

/-- Whether a byte is a time of day's hours, minutes and seconds. -/
def hmsOk (h m sec : Byte) : Bool := decide (h.toNat ≤ 23) && decide (m.toNat ≤ 59) && decide (sec.toNat ≤ 59)

def addrOk (a : Byte) : Bool := decide (1 ≤ a.toNat) && decide (a.toNat ≤ 24)

/-- The report that the report bytes of a reply give, by the kind byte. Bits 1 to 7 of a speaker's flags, which R50 does not define,
are not looked at (DESIGN CHOICE, notes/assumptions/52.md). -/
def reportOf : List Byte → Option Report
  | [1, h, m, sec] => if hmsOk h m sec then some (.clock h.toNat m.toNat sec.toNat) else none
  | [2, o] => if o.toNat ≤ 1 then some (.bell (o.toNat = 1)) else none
  | [3, t, f] => if t.toNat ≤ 4 then some (.speaker (trunkOf t) (f.toNat % 2 = 1)) else none
  | [4, n] => some (.clear n.toNat)
  | _ => none

/-- The body of a checked frame (all bytes but the check). Bits 5 to 7 of a time frame's flags, which are sent as 0 (R50), are not
looked at (DESIGN CHOICE, notes/assumptions/52.md). -/
def bodyOf : List Byte → Option Frame
  | [1, n1, n0, d1, d0, h, m, sec, ms1, ms0, f] =>
    if hmsOk h m sec && decide (two? n1 n0 ≤ 4095) && decide (two? d1 d0 ≤ 36524) && decide (two? ms1 ms0 ≤ 999) then
      some (.time (two? n1 n0) (two? d1 d0) h.toNat m.toNat sec.toNat (two? ms1 ms0) (f.getLsbD 0) (f.getLsbD 1) (f.getLsbD 2)
        (f.getLsbD 3) (f.getLsbD 4))
    else none
  | [2, a, z] =>
    if addrOk a && (decide (z.toNat ≤ 31) || decide (z.toNat = 255)) then
      some (.poll a.toNat (if z.toNat = 255 then none else some z.toNat)) else none
  | 3 :: a :: k :: s2 :: s1 :: s0 :: rest =>
    if addrOk a && decide (three? s2 s1 s0 ≤ 999999) then
      (reportOf (k :: rest)).map fun r => .reply a.toNat (three? s2 s1 s0) r
    else none
  | [4, z, b, h1, h0, t] =>
    if decide (z.toNat ≤ 31) && decide (b.toNat ≤ 1) && decide (two? h1 h0 ≤ 10500) && decide (t.toNat ≤ 4) then
      some (.output z.toNat (b.toNat = 1) (two? h1 h0) (trunkOf t)) else none
  | [5, a, d1, d0, h, m, sec, ms1, ms0] =>
    if addrOk a && hmsOk h m sec && decide (two? d1 d0 ≤ 36524) && decide (two? ms1 ms0 ≤ 999) then
      some (.clockSet a.toNat (two? d1 d0) h.toNat m.toNat sec.toNat (two? ms1 ms0)) else none
  | [6, a] => if addrOk a then some (.loopUp a.toNat) else none
  | [7, a] => if addrOk a then some (.loopDown a.toNat) else none
  | _ => none

/-- The frame that received bytes are, if they are one: a proving frame carries no check, every other frame must sum to
0 modulo 256 (R50). -/
def readFrame (bs : List Byte) : Option Frame :=
  match bs with
  | 8 :: a :: vs => if vs.length = 16 && decide (a.toNat ≤ 24) then some (.proving a.toNat vs) else none
  | _ => if byteSum bs = 0 then bodyOf bs.dropLast else none

/-- A frame with a check: those are the valid frames of R45 and R56; a proving frame is not one. -/
def Frame.checked : Frame → Bool
  | .proving _ _ => false
  | _ => true

end Sys2Proof.Machine
end

