-- ==== Sys2Proof/Machine/Zones.lean ====
section
/-! DEFINITION. The Zone and Trunk Controller's zone side (chapter 6): the output list a changed zone joins (R43), wanted
outputs (R97), what a bell part or a page is told (R128, R143, R144), claim resolution (R98, R99), suspension and return
(R100, R101), wait lists (R103) and loss of availability (R102). What has to follow inside the same command (serving wait
lists, offering free zones, releasing trunks, grant passes) is put on the controller's agenda and carried out by
Machine/Trunks.lean. -/

set_option autoImplicit false

namespace Sys2Proof.Machine

open Sys2Proof

/-! ### Output lists (R43) -/

/-- A ZONE entry joins a line's output list (R43): for ALARM at the end of the alarm part, moving there from the ordinary
part; otherwise at the end of the ordinary part, unless it is on the list already. A line that is OFF keeps its list
empty (R23). -/
def LineSt.queueZone (x : LineSt) (z : Nat) (alarm : Bool) : LineSt :=
  if x.state = .off then x
  else if x.outAlarm.contains (.zone z) then x
  else if alarm then
    { x with outAlarm := x.outAlarm ++ [.zone z], outOrd := x.outOrd.filter fun e => e ≠ .zone z }
  else if x.outOrd.contains (.zone z) then x
  else { x with outOrd := x.outOrd ++ [.zone z] }

/-- A CLOCK entry joins a line's output list (R43, R47). -/
def LineSt.queueClock (x : LineSt) (addr : Nat) : LineSt :=
  if x.outOrd.contains (.clock addr) then x else { x with outOrd := x.outOrd ++ [.clock addr] }

/-- A zone's entry leaves a line's output list without being sent (R43). -/
def LineSt.unqueueZone (x : LineSt) (z : Nat) : LineSt :=
  { x with outAlarm := x.outAlarm.filter fun e => e ≠ .zone z, outOrd := x.outOrd.filter fun e => e ≠ .zone z }

/-- A change of a zone's wanted output is reported to the line controller of its line; a zone whose line is NONE has no
output list (R97). -/
def State.output (s : State) (z : Nat) (alarm : Bool) : State :=
  match (s.zoneCfg z).line with
  | some l => s.setLine l ((s.lineAt l).queueZone z alarm)
  | none => s

/-- Set a zone's wanted output (R97); a change of it is reported. -/
def State.setWanted (s : State) (z : Nat) (bell trunk : Option Nat) : State :=
  let r := s.zoneAt z
  if r.bellUntil = bell ∧ r.trunk = trunk then s
  else (s.setZone z { r with bellUntil := bell, trunk := trunk }).output z false

/-! ### Telling the Bell Dispatcher (R128, R131) -/

def Job.part? (j : Job) (z : Nat) : Option Part := j.parts.find? fun p => p.zone = z

/-- A part that has ended (R128). -/
def Part.ended (p : Part) : Bool :=
  match p.state with
  | .done | .dropped _ => true
  | _ => false

def Job.update (j : Job) (z : Nat) (f : Part → Part) : Job :=
  { j with parts := j.parts.map fun p => if p.zone = z then f p else p }

def State.job? (s : State) (n : Nat) : Option Job := s.bds.queue.find? fun j => j.num = n

def State.part? (s : State) (n z : Nat) : Option Part := (s.job? n).bind fun j => j.part? z

/-- Update one part of a job in the Bell Ready Queue. -/
def State.updatePart (s : State) (n z : Nat) (f : Part → Part) : State :=
  { s with bds := { s.bds with queue := s.bds.queue.map fun j => if j.num = n then j.update z f else j } }

/-- A job leaves the queue when every one of its parts has ended (R124, R131). -/
def State.leaveJobs (s : State) : State :=
  { s with bds := { s.bds with queue := s.bds.queue.filter fun j => !j.parts.all Part.ended } }

/-- The Drill Sequencer counts a part dropped for the drill while its session is RUNNING, stopping at 65,535 (R168). -/
def State.countDrillDrop (s : State) : State :=
  match s.dsq.session with
  | some d => if d.running then { s with dsq := { s.dsq with session := some { d with drops := min (d.drops + 1) 65535 } } } else s
  | none => s

/-- A part becomes DROPPED: halves that play stop (R128). A half that played is finished then, and any other is as it was (DESIGN
CHOICE, notes/assumptions/53.md). -/
def Part.drop (r : DropReason) (p : Part) : Part :=
  { p with state := .dropped r
           sounder := match p.sounder with | .playing => .finished | h => h
           speaker := match p.speaker with | .playing _ _ => .finished | h => h }

/-- A part becomes DROPPED with a reason (R128, R131): its timeline stops, notice BELL-DROPPED is raised, a DRILL drop is
reported to the Drill Sequencer, and the job leaves the queue with its last part. A part that has ended is left as it is. -/
def State.dropPart (s : State) (n z : Nat) (r : DropReason) : State :=
  match s.job? n with
  | none => s
  | some j =>
    match j.part? z with
    | none => s
    | some p =>
      if p.ended then s
      else
        let s := s.updatePart n z (Part.drop r)
        let s := s.raise .bellDropped (.bellDropped n j.key { day := j.day, sec := j.sec } z r)
        (if r = .drill then s.countDrillDrop else s).leaveJobs

/-- A part becomes DONE (R128). -/
def State.donePart (s : State) (n z : Nat) : State :=
  (s.updatePart n z fun p => { p with state := .done }).leaveJobs

/-- A PENDING or DEFERRED part is told it is DEFERRED with a reason; its first deferral is kept. The report reaches no part that
sounds, and changes nothing of one that is DONE or DROPPED, which is final (R128). -/
def Part.defer (since : Nat) (r : DeferReason) (p : Part) : Part :=
  match p.state with
  | .pending | .deferred _ => { p with state := .deferred r, firstDeferral := some (p.firstDeferral.getD since) }
  | _ => p

/-- A part is told it is DEFERRED, or that its reason has changed (R128). -/
def State.tellDeferred (s : State) (n z since : Nat) (r : DeferReason) : State := s.updatePart n z (Part.defer since r)

/-- Whether a part's medium gives it a speaker half (R127). -/
def mediumSpeaks : Medium → Bool
  | .sounder => false
  | .speaker | .both => true

/-- Whether a part's medium gives it a sounder half (R127). -/
def mediumSounds : Medium → Bool
  | .speaker => false
  | .sounder | .both => true

def State.partSpeaks (s : State) (n z : Nat) : Bool :=
  match s.part? n z with
  | some p => mediumSpeaks p.medium
  | none => false

/-! ### Telling the Page Controller (R143, R144) -/

def State.page? (s : State) (n : Nat) : Option Page := s.pgc.queue.find? fun p => p.num = n

def State.updatePage (s : State) (n : Nat) (f : Page → Page) : State :=
  { s with pgc := { s.pgc with queue := s.pgc.queue.map fun p => if p.num = n then f p else p } }

/-- A page that has started and not ended. -/
def Page.onAir (p : Page) : Bool := p.state = .chime || p.state = .live

/-- A page record after it has lost a zone (R144): the zone is in the lost set alone; a page left with neither a held nor
a suspended zone ends, ALARM where this zone was lost for ALARM, else CUT. -/
def Page.lose (p : Page) (z : Nat) (r : LossReason) : Page :=
  let p := { p with held := p.held.filter (· ≠ z), waiting := p.waiting.filter (· ≠ z), suspended := p.suspended.filter (· ≠ z),
                    lost := p.lost ++ [(z, r)] }
  if p.held.isEmpty && p.suspended.isEmpty then { p with state := .ended (if r = .alarm then .alarm else .cut) } else p

/-- Whether a page has a zone in one of its sets other than the lost set. -/
def Page.concerns (p : Page) (z : Nat) : Bool := p.held.contains z || p.waiting.contains z || p.suspended.contains z

/-- A started page is told that it has lost a zone (R144). -/
def State.pageLoses (s : State) (n z : Nat) (r : LossReason) : State :=
  s.updatePage n fun p => if p.onAir && p.concerns z then p.lose z r else p

/-- A page is told that it is suspended in a zone it held (R143). -/
def State.pageSuspended (s : State) (n z : Nat) : State :=
  s.updatePage n fun p =>
    if p.held.contains z then { p with held := p.held.filter (· ≠ z), suspended := setBelow 32 (z :: p.suspended) } else p

/-- A page is told that a zone has returned to it (R143). -/
def State.pageReturned (s : State) (n z : Nat) : State :=
  s.updatePage n fun p =>
    if p.suspended.contains z then { p with suspended := p.suspended.filter (· ≠ z), held := setBelow 32 (z :: p.held) } else p

/-- The Page Controller is told that a zone is not to be had: every started page waiting for it moves it to its lost set
(R99 step 3, R100, R102). -/
def State.waitersLose (s : State) (z : Nat) (r : LossReason) : State :=
  { s with pgc := { s.pgc with queue := s.pgc.queue.map fun p => if p.onAir && p.waiting.contains z then p.lose z r else p } }

/-! ### Wait lists (R103) -/

/-- The reason of a waiting part behind the present holder (R103); one whose copied policy is IMMEDIATE waits with PAGE behind
a routine page (DESIGN CHOICE, notes/assumptions/39.md). -/
def waitReason (h : Holder) (w : Wait) : DeferReason :=
  match h with
  | .bell _ => .bell
  | .page _ _ => if w.policy = .pause then .pauseWait else .page
  | _ => w.reason

/-- The reasons of a zone's waiting parts set afresh after a change of holder, each told to the Bell Dispatcher (R103). -/
def State.refreshReasons (s : State) (z : Nat) : State :=
  let r := s.zoneAt z
  let ws := r.waits.map fun w => { w with reason := waitReason r.holder w }
  ws.foldl (fun s w => s.tellDeferred w.job w.zone w.since w.reason) (s.setZone z { r with waits := ws })

/-- A wait placed behind every wait whose first deferral is not later (R103). -/
def insertWait (w : Wait) : List Wait → List Wait
  | [] => [w]
  | v :: vs => if v.since ≤ w.since then v :: insertWait w vs else w :: v :: vs

/-- A part joins its zone's wait list, or is DROPPED (WAIT-FULL) at a list of 4 (R103). -/
def State.joinWaits (s : State) (w : Wait) (reason : DeferReason) : State :=
  let r := s.zoneAt w.zone
  if 4 ≤ r.waits.length then s.dropPart w.job w.zone .waitFull
  else
    let w := { w with reason := reason }
    (s.setZone w.zone { r with waits := insertWait w r.waits }).tellDeferred w.job w.zone w.since reason

/-- A part leaves its zone's wait list. -/
def State.leaveWaits (s : State) (n z : Nat) : State :=
  let r := s.zoneAt z
  s.setZone z { r with waits := r.waits.filter fun w => w.job ≠ n }

/-- The members of start groups that are left when one part goes; a group without members goes too (R110). -/
def dropMembers (gs : List StartGroup) (out : Wait → Bool) : List StartGroup :=
  (gs.map fun g => { g with members := g.members.filter fun w => !out w }).filter fun g => !g.members.isEmpty

/-- A part leaves its waiting start group. -/
def State.leaveGroups (s : State) (n z : Nat) : State :=
  { s with ztc := { s.ztc with groups := dropMembers s.ztc.groups fun w => w.job = n && w.zone = z } }

/-- Every part that waits for a zone, in its wait list or DEFERRED (NO-TRUNK), is DROPPED (R99 step 3, R102, R114): the wait list in
its order, then the members of the waiting groups in theirs, the last of whom stands as the latest detail of BELL-DROPPED (R131,
R182; DESIGN CHOICE, notes/assumptions/38.md). -/
def State.clearWaits (s : State) (z : Nat) (r : DropReason) : State :=
  let rec_ := s.zoneAt z
  let behind := s.ztc.groups.flatMap fun g => g.members.filter fun w => w.zone = z
  let s := s.setZone z { rec_ with waits := [] }
  let s := { s with ztc := { s.ztc with groups := dropMembers s.ztc.groups fun w => w.zone = z } }
  (rec_.waits ++ behind).foldl (fun s w => s.dropPart w.job w.zone r) s

/-! ### The drill's output in a zone (R97, R162) -/

/-- The trunk whose program is DRILL, if it is granted. -/
def State.drillTrunk (s : State) : Option Nat :=
  allTrunks.find? fun t => match s.trunkAt t with | some u => u.program = .drill | none => false

/-- The stage in progress of a session. -/
def Session.current (d : Session) : Option StageCopy := d.stages[d.stage]?

/-- Whether the stage in progress is a sounding one: its signal state is SOUNDING or SIGNAL-WAIT (R162). -/
def Session.soundingStage (d : Session) : Bool := d.running && decide (d.signal ≠ .silent)

/-- The bell part of the sounding stage's repeated timeline now: the elapsed time at which the present on time ends, or
OFF (R162). -/
def State.drillBell (s : State) (m : Medium) : Option Nat :=
  match s.dsq.session with
  | some d =>
    if d.soundingStage && mediumSounds m then
      match d.current with
      | some c => (c.timeline.repeatedAt (s.now - d.stageSince)).map (· + d.stageSince)
      | none => none
    else none
  | none => none

/-- The speaker trunk of a zone held by DRILL (R97). -/
def State.drillSpeaker (s : State) (m : Medium) : Option Nat :=
  match s.dsq.session with
  | some d => if d.soundingStage && mediumSpeaks m then s.drillTrunk else none
  | none => none

/-- Whether the stage in progress needs the DRILL trunk: it sounds, and a zone held by DRILL has speakers (R113). -/
def State.stageSpeaks (s : State) : Bool :=
  (s.dsq.session.any Session.soundingStage) &&
    allZones.any fun z => match (s.zoneAt z).holder with | .drill m => mediumSpeaks m | _ => false

/-- Whether the drill session is without a trunk that it needs (R113). -/
def State.drillNeeds (s : State) : Bool := s.stageSpeaks && s.drillTrunk.isNone

/-! ### Claims (R98, R99) -/

/-- Answers to a page's claim (R98). -/
inductive PageAnswer where
  | taken
  | waiting
  | excluded (r : LossReason)
deriving DecidableEq, Repr

/-- How the zone controller answers a page's claim on a zone, or the question how it would (R98, R99). -/
def State.pageAnswer (s : State) (prio z : Nat) : PageAnswer :=
  if !(s.zoneAt z).available then .excluded .line
  else if !(s.zoneCfg z).pageAllowed then .excluded .notAllowed
  else
    match (s.zoneAt z).holder with
    | .none => .taken
    | .bell _ => if prio ≤ 5 then .waiting else .taken
    | .page _ q => if prio ≤ 5 then .waiting else if q ≤ 5 then .taken else .waiting
    | .drill _ => if prio = 7 then .taken else .excluded .drill
    | .alarm => if prio = 7 && decide (s.pnl.state = .silenced) then .taken else .excluded .alarm

/-- Answers to a bell part's claim, before its trunk is considered (R98, R99, R104). -/
inductive BellAnswer where
  | take
  | defer (r : DeferReason)
  | drop (r : DropReason)
deriving DecidableEq, Repr

/-- How a bell part's claim on a zone is answered under a policy (R99, R104); `atPause` at a pause on the holding page's
trunk. -/
def State.bellAnswer (s : State) (policy : Policy) (atPause : Bool) (z : Nat) : BellAnswer :=
  if !(s.zoneAt z).available then .drop .line
  else
    match (s.zoneAt z).holder with
    | .none => .take
    | .bell _ => .defer .bell
    | .page _ q =>
      if 6 ≤ q then .drop .emergencyPage
      else
        match policy with
        | .immediate => .take
        | .pause => if atPause then .take else .defer .pauseWait
        | .finish => .defer .page
    | .drill _ => .drop .drill
    | .alarm => .drop .alarm

/-- A claimant that displaces a holder (R99). -/
inductive Taker where
  | alarm
  | drill
  | page (num prio trunk : Nat)
deriving DecidableEq, Repr

def Taker.dropReason : Taker → DropReason
  | .alarm => .alarm
  | .drill => .drill
  | .page _ _ _ => .preempt

def Taker.lossReason : Taker → LossReason
  | .alarm => .alarm
  | .drill => .drill
  | .page _ _ _ => .preempt

/-- The reason with which the new holder drops the parts that wait for the zone, if it does (R99 step 3). -/
def Taker.waitDrop : Taker → Option DropReason
  | .alarm => some .alarm
  | .drill => some .drill
  | .page _ p _ => if 6 ≤ p then some .emergencyPage else none

/-- The suspended holder that a taker leaves beneath it: a page of priority 7 suspends ALARM or DRILL (R99, R100). -/
def Taker.suspends : Taker → Holder → Suspended
  | .page _ _ _, .drill m => .drill m
  | .page _ _ _, .alarm => .alarm
  | _, _ => .none

def Taker.holder (bellMedium : Medium) : Taker → Holder
  | .alarm => .alarm
  | .drill => .drill bellMedium
  | .page n p _ => .page n p

/-- The displaced holder is told (R99 step 1). -/
def State.tellDisplaced (s : State) (w : Taker) (z : Nat) : State :=
  match (s.zoneAt z).holder with
  | .bell j => s.dropPart j z w.dropReason
  | .page n _ => s.pageLoses n z w.lossReason
  | _ => s

/-- A suspended page under the displaced holder loses the zone too (R99 step 2). -/
def State.tellSuspended (s : State) (w : Taker) (z : Nat) : State :=
  match (s.zoneAt z).suspended with
  | .page n _ => s.pageLoses n z w.lossReason
  | _ => s

/-- The wait list is judged against the new holder (R99 step 3); where ALARM or DRILL takes the zone the Page Controller
is told. -/
def State.judgeWaits (s : State) (w : Taker) (z : Nat) : State :=
  let s :=
    match w.waitDrop with
    | some r => s.clearWaits z r
    | none => s
  match w with
  | .page _ _ _ => s
  | _ => s.waitersLose z w.lossReason

/-- The new holder and its wanted output (R99 step 4, R97). What ALARM takes is marked so, and joins the alarm part of
its line's output list (R43, R153). -/
def State.seat (s : State) (w : Taker) (z : Nat) : State :=
  let r := s.zoneAt z
  let m := (s.zoneCfg z).medium
  let s := s.setZone z { r with holder := w.holder m, suspended := w.suspends r.holder }
  match w with
  | .alarm =>
    let r := s.zoneAt z
    (s.setZone z { r with bellUntil := none, trunk := none }).output z true
  | .drill => s.setWanted z (s.drillBell m) (s.drillSpeaker m)
  | .page _ _ t => (s.setWanted z none (some t)).refreshReasons z

/-- Put a piece of work at the end of the agenda, unless it stands there already. -/
def State.later (s : State) (w : Work) : State :=
  if s.ztc.agenda.contains w then s else { s with ztc := { s.ztc with agenda := s.ztc.agenda ++ [w] } }

/-- The drill enters the grant pass where it is without a trunk that it needs (R110, R113). -/
def State.seekDrillTrunk (s : State) : State := if s.drillNeeds then s.later .pass else s

/-- ALARM, DRILL or a page takes a zone (R99). -/
def State.takeZone (s : State) (w : Taker) (z : Nat) : State :=
  ((((s.tellDisplaced w z).tellSuspended w z).judgeWaits w z).seat w z).later .release

/-- One ALARM or DRILL claim on a set of zones, judged zone by zone in rising order (R98); zones the claimant holds
already are left as they are (R99). -/
def State.claimAlarm (s : State) (zs : List Nat) : State :=
  zs.foldl (fun s z => if (s.zoneAt z).holder = .alarm then s else s.takeZone .alarm z) s

def State.claimDrill (s : State) (zs : List Nat) : State :=
  zs.foldl
    (fun s z =>
      match (s.zoneAt z).holder with
      | .drill _ => s
      | .alarm => s
      | _ => s.takeZone .drill z) s

/-! ### A bell part takes a zone (R99, R104, R128, R129) -/

/-- What a zone has suspended once a bell part has taken it: a routine page it found there, or what was suspended under
the part it displaced (R105). -/
def suspendedUnderBell (r : ZoneRec) : Suspended :=
  match r.holder with
  | .page n p => .page n p
  | _ => r.suspended

/-- A bell part takes its zone, its speaker half on the trunk of its start group if it has one: a routine page there is
suspended, the part is SOUNDING with its halves playing, the first on time is sent, and the parts that wait there wait
behind a bell. -/
def State.bellTakes (s : State) (n z : Nat) (tone : Option (Nat × Nat)) : State :=
  match s.job? n with
  | none => s
  | some j =>
    match j.part? z with
    | none => s
    | some p =>
      let r := s.zoneAt z
      let first := if mediumSounds p.medium then j.timeline.ons.head?.map fun o => s.now + 8 * o.stop else none
      let s := (s.leaveWaits n z).leaveGroups n z
      let s :=
        match r.holder with
        | .page m _ => s.pageSuspended m z
        | _ => s
      let s := s.updatePart n z fun p =>
        { p with state := .sounding, start := some s.now, step := 1,
                 sounder := if mediumSounds p.medium then .playing else .absent,
                 speaker := match tone with | some (g, t) => .playing g t | none => .absent }
      let r := s.zoneAt z
      let s := s.setZone z { r with holder := .bell n, suspended := suspendedUnderBell r }
      (s.setWanted z first (tone.map Prod.snd)).refreshReasons z

/-! ### Holders that end, and suspended holders that return (R100, R101) -/

/-- The holder has ended in a zone: a suspended holder returns where R100 allows it, else the zone's holder is NONE. The grant
pass that a returned DRILL enters where it comes to lack a trunk it needs (R113) comes after the release of the trunks that the
ended holder leaves (DESIGN CHOICE, notes/assumptions/43.md). -/
def State.returnZone (s : State) (z : Nat) : State :=
  let r := s.zoneAt z
  match r.suspended with
  | .page n p =>
    match s.page? n with
    | some pg =>
      if pg.onAir then
        let s := s.setZone z { r with holder := .page n p, suspended := .none }
        (((s.pageReturned n z).setWanted z none pg.trunk).refreshReasons z)
      else (s.setZone z { r with holder := .none, suspended := .none }).setWanted z none none
    | none => (s.setZone z { r with holder := .none, suspended := .none }).setWanted z none none
  | .drill m =>
    if (s.dsq.session.map Session.running).getD false then
      let needed := s.drillNeeds
      let s := s.setZone z { r with holder := .drill m, suspended := .none }
      let s := ((s.setWanted z (s.drillBell m) (s.drillSpeaker m)).waitersLose z .drill).later .release
      if needed then s else s.seekDrillTrunk
    else (s.setZone z { r with holder := .none, suspended := .none }).setWanted z none none
  | .alarm =>
    if s.pnl.state = .normal then (s.setZone z { r with holder := .none, suspended := .none }).setWanted z none none
    else
      let s := s.setZone z { r with holder := .alarm, suspended := .none }
      (s.setWanted z none none).waitersLose z .alarm
  | .none => (s.setZone z { r with holder := .none }).setWanted z none none

/-- Holders have ended in these zones, in one event (R101): suspended holders return, then the wait lists are served,
then the zones still NONE are offered to the pages, and last the trunks left without zones are released. -/
def State.holdersEnd (s : State) (zs : List Nat) : State :=
  ((zs.foldl State.returnZone s).push [.serve zs none true]).later .release

/-- A holder of one kind gives up every zone it holds, and is removed where it is suspended (R100, R101). -/
def State.releaseZones (s : State) (mine : Holder → Bool) (mineUnder : Suspended → Bool) (zs : List Nat) : State :=
  let under := zs.filter fun z => mineUnder (s.zoneAt z).suspended
  let held := zs.filter fun z => mine (s.zoneAt z).holder
  let s := under.foldl (fun s z => let r := s.zoneAt z; s.setZone z { r with suspended := .none }) s
  s.holdersEnd held

/-! ### Availability (R27, R102) -/

/-- A zone becomes unavailable (R102). Where a page of priority 7 loses it over a suspended ALARM or DRILL, the pages that wait for
it lose it to that holder as it returns (R100), not for LINE (DESIGN CHOICE, notes/assumptions/48.md). -/
def State.loseZone (s : State) (z : Nat) : State :=
  let r := s.zoneAt z
  let s := s.setZone z { r with available := false }
  let r := s.zoneAt z
  let s :=
    match r.holder with
    | .bell j =>
      let s := s.dropPart j z .line
      let s := match r.suspended with | .page n _ => s.pageLoses n z .line | _ => s
      (s.setZone z { s.zoneAt z with holder := .none, suspended := .none }).setWanted z none none
    | .page n _ => (s.pageLoses n z .line).returnZone z
    | _ => s
  ((s.clearWaits z .line).waitersLose z .line).later .release

/-- A zone becomes available: its holder is unchanged, and where it is NONE the zone is offered to the pages (R102). -/
def State.gainZone (s : State) (z : Nat) : State :=
  let r := s.zoneAt z
  let s := s.setZone z { r with available := true }
  if r.holder = .none then s.later (.offer [z]) else s

/-- The zones of a line in the live ZON bank, in rising order. -/
def State.zonesOfLine (s : State) (l : Nat) : List Nat := allZones.filter fun z => (s.zoneCfg z).line = some l

/-- The zone controller is told that a line has left RUN (R27). Its zones are dealt with in rising order, so that of the notices
which one event raises the last in that order is the latest detail (DESIGN CHOICE, notes/assumptions/38.md). -/
def State.lineDown (s : State) (l : Nat) : State := (s.zonesOfLine l).foldl State.loseZone s

/-- The zone controller is told that a line has entered RUN (R27). -/
def State.lineUp (s : State) (l : Nat) : State := (s.zonesOfLine l).foldl State.gainZone s

end Sys2Proof.Machine
end

