-- ==== Sys2Proof/Machine/Trunks.lean ====
section
/-! DEFINITION. The Zone and Trunk Controller's trunk side (sections 6.4 to 6.6): serving wait lists (R104), deferral limits
(R105), grants, start groups and the grant pass (R106 to R113), what a page does when its trunk or a zone comes to it (R137
to R142), and `settle`, which carries out the controller's agenda until nothing is left to do inside the command. -/

set_option autoImplicit false

namespace Sys2Proof.Machine

open Sys2Proof

/-! ### Trunk records (R106) -/

/-- The lowest-numbered FREE trunk. -/
def State.freeTrunk (s : State) : Option Nat := allTrunks.find? fun t => (s.trunkAt t).isNone

def TrunkUse.isTone (u : TrunkUse) : Bool :=
  match u.program with
  | .tone _ _ => true
  | _ => false

/-- The trunks that carry TONE programs (R111). -/
def State.toneTrunks (s : State) : List Nat := allTrunks.filter fun t => (s.trunkAt t).any TrunkUse.isTone

/-- Whether the reserve lets one more TONE program be granted (R111). -/
def State.mayTone (s : State) : Bool := decide (s.toneTrunks.length < 4 - s.store.live.zon.zoneSet.reserve)

/-- Grant a trunk to a program, with the timeline that its tone generator begins to play (R106, R107). -/
def State.grant (s : State) (t : Nat) (program : TrunkProgram) (tone : Option Timeline) (toneSince toneUntil : Option Nat) : State :=
  let u : TrunkUse :=
    { program := program, since := s.now, seq := s.ztc.grants, tone := tone, toneSince := toneSince, toneUntil := toneUntil, source := false,
      silence := none }
  let s := s.setTrunk t (some u)
  { s with ztc := { s.ztc with grants := s.ztc.grants + 1 } }

/-- What a tone generator plays now (R107): whether its tone is on. A DRILL program repeats its timeline every cycle length. -/
def TrunkUse.toneOn (u : TrunkUse) (now : Nat) : Bool :=
  match u.tone, u.toneSince with
  | some tl, some b =>
    match u.program with
    | .drill => (tl.repeatedAt (now - b)).isSome
    | _ => tl.ons.any fun o => decide (b + 8 * o.start ≤ now) && decide (now < b + 8 * o.stop)
  | _, _ => false

/-- The zones whose speakers a TONE program has: those held by its job on its trunk. -/
def State.toneZones (s : State) (t job : Nat) : List Nat :=
  allZones.filter fun z => decide ((s.zoneAt z).holder = .bell job) && decide ((s.zoneAt z).trunk = some t)

def Holder.isPage (n : Nat) : Holder → Bool
  | .page m _ => m = n
  | _ => false

def Suspended.isPage (n : Nat) : Suspended → Bool
  | .page m _ => m = n
  | _ => false

/-- Whether a program holds or has suspended a zone (R106); a page about to make its claims and the drill keep their
trunk without one. -/
def State.programLives (s : State) (t : Nat) (u : TrunkUse) : Bool :=
  match u.program with
  | .page n =>
    (s.page? n).any (fun p => p.state = .starting) ||
      allZones.any fun z => (s.zoneAt z).holder.isPage n || (s.zoneAt z).suspended.isPage n
  | .tone j _ => !(s.toneZones t j).isEmpty
  | .drill => true

/-- The trunks whose program neither holds nor has suspended a zone. -/
def State.idleTrunks (s : State) : List Nat :=
  allTrunks.filter fun t => match s.trunkAt t with | some u => !s.programLives t u | none => false

/-- Trunks become FREE. -/
def State.freeTrunks (s : State) (ts : List Nat) : State := ts.foldl (fun s t => s.setTrunk t none) s

/-- Release the trunks left without zones; a grant pass follows (R106). -/
def State.releaseTrunks (s : State) : State :=
  let ts := s.idleTrunks
  if ts.isEmpty then s else (s.freeTrunks ts).push [.pass]

/-- Release at once the trunks that claims have left without zones (R99 step 5, R106, R109); those that were without one before,
whose release comes last (R101), are `kept`. -/
def State.releaseOwn (s : State) (kept : List Nat) : State := s.freeTrunks (s.idleTrunks.filter fun t => !kept.contains t)

/-- Release at once, as `releaseOwn` does; where a trunk was released a grant pass follows (R106). -/
def State.releaseNow (s : State) (kept : List Nat) : State :=
  if s.idleTrunks.all fun t => kept.contains t then s else (s.releaseOwn kept).later .pass

/-- A part with limit action FORCE takes its zone at its limit (R105): over a routine page, which is suspended; over a bell part,
which is DROPPED (PREEMPT) and whose trunk, left without zones, is released at once (R106); or where the holder is NONE. Any
other holder has dropped it already. -/
def State.forceTakes (s : State) (n z : Nat) (tone : Option (Nat × Nat)) : State :=
  match (s.zoneAt z).holder with
  | .bell m => ((s.dropPart m z .preempt).bellTakes n z tone).releaseNow s.idleTrunks
  | .page _ q => if q ≤ 5 then s.bellTakes n z tone else s.dropPart n z .limit
  | .none => s.bellTakes n z tone
  | _ => s.dropPart n z .limit

/-! ### Pages: sorting, start, CHIME and LIVE (R137 to R141) -/

/-- A page that a sort may start (R137): some zone takeable, and with PARTIAL NO none waiting. -/
def Page.canStart (p : Page) : Bool :=
  decide (p.state = .queued) && !p.held.isEmpty && (p.part || p.waiting.isEmpty)

/-- A QUEUED page with its zones sorted by how its claims would be answered (R137); with every zone excluded it is
CANCELLED (NO-ZONES). -/
def State.sorted (s : State) (p : Page) : Page :=
  let zs := s.expandNames p.names
  let p :=
    { p with held := zs.filter fun z => s.pageAnswer p.prio z = .taken
             waiting := zs.filter fun z => s.pageAnswer p.prio z = .waiting
             suspended := []
             lost := zs.filterMap fun z => match s.pageAnswer p.prio z with | .excluded r => some (z, r) | _ => none }
  if p.held.isEmpty && p.waiting.isEmpty then { p with state := .ended .noZones } else p

def State.sortPage (s : State) (n : Nat) : State :=
  s.updatePage n fun p => if p.state = .queued then s.sorted p else p

/-- The zones of a QUEUED page's latest expansion. -/
def Page.latest (p : Page) : List Nat := p.held ++ p.waiting ++ p.lost.map Prod.fst

/-- A page starts (R139): the trunk becomes its own, its expansion is fixed, its limit timer starts, and its claims are
made next. -/
def State.startPage (s : State) (n t : Nat) : State :=
  let s := s.grant t (.page n) none none none
  (s.updatePage n fun p =>
    { p with state := .starting, trunk := some t, start := some s.campus, expansion := setBelow 32 p.latest, held := [],
             waiting := [], suspended := [], lost := [], limitAt := some (s.now + 8000 * p.limit) })

/-- The page on a trunk enters LIVE (R141): its source is switched to the trunk, the tone generator stops, and the silence
detector starts with a silence beginning now (R108). -/
def State.enterLive (s : State) (n t : Nat) : State :=
  let z := s.store.live.zon.zoneSet
  let s :=
    match s.trunkAt t with
    | some u =>
      s.setTrunk t (some { u with tone := none, toneSince := none, toneUntil := none, source := true,
                                  silence := some { since := s.now, pauseLength := z.pauseLength, idleLimit := z.idleLimit,
                                                    paused := false, idled := false } })
    | none => s
  s.updatePage n fun p => { p with state := .live }

/-- The page enters CHIME with a copy of its pre-tone's timeline, or LIVE where it has none or an empty one (R139, R140). -/
def State.enterChime (s : State) (n t : Nat) (pretone : Option Nat) : State :=
  match pretone with
  | none => s.enterLive n t
  | some k =>
    let tl := s.store.live.pat.timeline k
    if tl.isEmpty then s.enterLive n t
    else
      let s :=
        match s.trunkAt t with
        | some u => s.setTrunk t (some { u with tone := some tl, toneSince := some s.now, toneUntil := some (s.now + 8 * tl.length) })
        | none => s
      s.updatePage n fun p => { p with state := .chime }

/-- One of the claims of a starting page (R139). -/
def State.claimForPage (n prio t : Nat) (s : State) (z : Nat) : State :=
  match s.pageAnswer prio z with
  | .taken => (s.takeZone (.page n prio t) z).updatePage n fun p => { p with held := p.held ++ [z] }
  | .waiting => s.updatePage n fun p => { p with waiting := p.waiting ++ [z] }
  | .excluded r => s.updatePage n fun p => { p with lost := p.lost ++ [(z, r)] }

/-- The claims of a starting page on its whole expansion, as one event, the trunks that they leave without zones, and its
entry to CHIME or LIVE (R139). A page left with no zone at once ends CUT (R144). -/
def State.claimPage (s : State) (n : Nat) : State :=
  match s.page? n with
  | none => s
  | some p =>
    match p.trunk with
    | none => s
    | some t =>
      let kept := s.idleTrunks
      let s := p.expansion.foldl (State.claimForPage n p.prio t) s
      let s := s.enterChime n t p.pretone
      let s := s.updatePage n fun p => if p.held.isEmpty && p.suspended.isEmpty then { p with state := .ended .cut } else p
      s.releaseOwn kept

/-- A zone reported free, available or not, is claimed by the first started page that waits for it; otherwise the QUEUED pages
whose latest expansion holds it are sorted, and those that can start now are offered to a grant pass (R138, R142). -/
def State.offerZone (s : State) (z : Nat) : State :=
  if (s.zoneAt z).holder ≠ .none then s
  else
    match s.pgc.queue.find? fun p => p.onAir && p.waiting.contains z with
    | some p =>
      match s.pageAnswer p.prio z, p.trunk with
      | .taken, some t =>
        (s.takeZone (.page p.num p.prio t) z).updatePage p.num fun p =>
          { p with waiting := p.waiting.filter (· ≠ z), held := setBelow 32 (z :: p.held) }
      | .excluded r, _ => (s.pageLoses p.num z r).later .release
      | _, _ => s
    | none =>
      (s.pgc.queue.filter fun p => p.state = .queued && p.latest.contains z).foldl
        (fun s p =>
          let s := s.sortPage p.num
          if (s.page? p.num).any Page.canStart then s.later .pass else s)
        s

/-! ### Serving wait lists (R104) -/

/-- The due time that a job's start groups are served by (R130). -/
def Job.due (j : Job) : Stamp := { day := j.day, sec := j.sec }

/-- A part that seeks its trunk among the start groups that form at this instant: it joins that of its job, or begins it
(R109). -/
def joinGroups (due : Stamp) (w : Wait) (atPause : Bool) (gs : List StartGroup) : List StartGroup :=
  let fits (g : StartGroup) : Bool := g.job = w.job && g.fresh && decide (g.atPause = atPause)
  if gs.any fits then gs.map fun g => if fits g then { g with members := g.members ++ [w] } else g
  else gs ++ [{ job := w.job, num := 0, due := due, members := [w], fresh := true, atPause := atPause }]

/-- A part with a speaker half, of a job being made, is about to start: it seeks its trunk with the job's other parts
(R109). -/
def State.joinGroup (s : State) (w : Wait) : State :=
  match s.job? w.job with
  | none => s
  | some j => { s with ztc := { s.ztc with groups := joinGroups j.due w false s.ztc.groups } }

/-- Whether a part seeks its trunk in a start group that is about to start. -/
def State.seeking (s : State) (w : Wait) : Bool :=
  s.ztc.groups.any fun g => g.fresh && g.members.any fun x => x.job = w.job && x.zone = w.zone

/-- A head of a wait list that seeks its trunk, and whether it does so at a pause. -/
structure Seeker where
  wait : Wait
  atPause : Bool
deriving DecidableEq, Repr

/-- Serve one zone's wait list (R104): the head takes the zone, or seeks its trunk, or waits on. A PAUSE-WAIT head seeks its
trunk from the list (R108). -/
def State.serveZone (pausedPage : Option Nat) (s : State) (z : Nat) : State × Option Seeker :=
  match (s.zoneAt z).waits with
  | [] => (s, none)
  | w :: _ =>
    let atPause :=
      match (s.zoneAt z).holder, pausedPage with
      | .page n _, some m => decide (n = m)
      | _, _ => false
    if s.seeking w then (s, none)
    else
      match s.bellAnswer w.policy atPause z with
      | .take =>
        if !s.partSpeaks w.job z then ((s.bellTakes w.job z none).later .release, none)
        else if atPause && decide (w.policy = .pause) then (s, some { wait := w, atPause := true })
        else (s.leaveWaits w.job z, some { wait := w, atPause := false })
      | _ => (s, none)

/-- Serve the wait lists of zones in the order given; the heads that seek their trunks. -/
def State.serveZones (pausedPage : Option Nat) : List Nat → State → State × List Seeker
  | [], s => (s, [])
  | z :: zs, s =>
    let r := s.serveZone pausedPage z
    let rest := State.serveZones pausedPage zs r.1
    (rest.1, r.2.toList ++ rest.2)

/-- The start groups that the heads of one serving form: one for each job (R109). Parts that separate servings, or separate
commands, bring to their start at one elapsed time are not at one instant (DESIGN CHOICE, notes/assumptions/40.md). -/
def State.formGroups (s : State) (xs : List Seeker) : List StartGroup :=
  xs.foldl (fun gs x => match s.job? x.wait.job with | some j => joinGroups j.due x.wait x.atPause gs | none => gs) []

/-- Whether a start group of a job with a number waits or plays. -/
def State.groupInUse (s : State) (job num : Nat) : Bool :=
  s.ztc.groups.any (fun g => g.job = job && g.num = num) ||
    allTrunks.any fun t => (s.trunkAt t).any fun u => decide (u.program = .tone job num)

/-- The number of the next start group of a job (R106, R130): the one after the last given, from 1 to 32, passing over those
of groups that wait or play (DESIGN CHOICE beyond 32, notes/assumptions/40.md). -/
def State.groupNumber (s : State) (job : Nat) : Nat :=
  let last := ((s.job? job).map Job.groups).getD 0
  let next (k : Nat) : Nat := (last + k) % 32 + 1
  (((List.range 32).map next).find? fun n => !s.groupInUse job n).getD (next 0)

/-- A number has been given to a start group of a job. -/
def State.numberGiven (s : State) (job num : Nat) : State :=
  { s with bds := { s.bds with queue := s.bds.queue.map fun (x : Job) => if x.num = job then { x with groups := num } else x } }

/-- The parts of a start group that have no trunk are DEFERRED (NO-TRUNK): the group waits, with its number (R109). -/
def State.waitForTrunk (s : State) (g : StartGroup) (ws : List Wait) : State :=
  if ws.isEmpty then s
  else
    let n := s.groupNumber g.job
    let s := ws.foldl (fun s w => s.tellDeferred w.job w.zone w.since .noTrunk) (s.numberGiven g.job n)
    { s with ztc := { s.ztc with groups := s.ztc.groups ++
        [{ g with num := n, fresh := false, members := ws.map fun w => { w with reason := .noTrunk } }] } }

/-- A start group that is left without a trunk (R104, R108, R109): parts that came at a pause are still in their wait lists; a
part whose maximum deferral is 0 meets its limit (R105), in the order in which the parts joined the group (DESIGN CHOICE,
notes/assumptions/38.md); every other becomes DEFERRED (NO-TRUNK). -/
def State.leaveUngranted (s : State) (g : StartGroup) : State :=
  if g.atPause then s
  else
    let s := (g.members.filter fun w => w.maxDefer = 0).foldl (fun s w => s.dropPart w.job w.zone .limit) s
    s.waitForTrunk g (g.members.filter fun w => w.maxDefer ≠ 0)

/-- The zones in which parts of start groups have left their wait lists to seek their trunks. -/
def zonesLeft (gs : List StartGroup) : List Nat :=
  allZones.filter fun z => gs.any fun g => !g.atPause && g.members.any fun w => w.zone = z

/-- Start groups are left without a trunk; then the new heads of their zones' wait lists are judged, in one serving
(R104). -/
def State.turnDown (s : State) (gs : List StartGroup) : State :=
  (gs.foldl State.leaveUngranted s).push [.serve (zonesLeft gs) none false]

/-- The start groups that the grant pass has left without a trunk. -/
def State.ungranted (s : State) : State :=
  { s with ztc := { s.ztc with groups := s.ztc.groups.filter fun g => !g.fresh } }.turnDown (s.ztc.groups.filter StartGroup.fresh)

/-- Whether a page has been given its trunk and has its claims still to make (R139). -/
def State.pageStarting (s : State) : Bool := s.pgc.queue.any fun p => p.state = .starting

/-- What follows a serving whose heads formed the start groups `gs` (R104, R109, R110). Without any, the zones are offered
where holders have ended in them. While a page that has preempted has its claims to make, no trunk is FREE and no
candidate may come before those claims (R112, R139): the groups go without. Else they are candidates; the other zones
are offered to the pages first, so that an ended holder's trunk is still the last to go (R101), and theirs where they are
still free afterwards (DESIGN CHOICE, notes/assumptions/13.md). -/
def State.served (s : State) (zs : List Nat) (freed : Bool) (gs : List StartGroup) : State :=
  let offer (ns : List Nat) : List Work := if freed then [.offer ns] else []
  if gs.isEmpty then s.push (offer zs)
  else if s.pageStarting then (s.push (offer zs)).turnDown gs
  else
    let sought (z : Nat) : Bool := gs.any fun g => g.members.any fun w => w.zone = z
    let s := { s with ztc := { s.ztc with groups := s.ztc.groups ++ gs } }
    (s.push (offer (zs.filter fun z => !sought z) ++ [.grants] ++ offer (zs.filter sought))).later .pass

/-- Serve the wait lists of zones at one instant (R104): the heads that seek their trunks form start groups. -/
def State.serve (s : State) (zs : List Nat) (pausedPage : Option Nat) (freed : Bool) : State :=
  let r := State.serveZones pausedPage zs s
  r.1.served zs freed (r.1.formGroups r.2)

/-! ### Start groups and their trunks (R109) -/

/-- The first start group in the grant order (R110 step 3): jobs in Bell Ready Queue order, which is that of due time, and
the groups of one job in the order they arose. -/
def State.nextGroup (s : State) : Option StartGroup :=
  s.bds.queue.findSome? fun j => s.ztc.groups.find? fun g => g.job = j.num

/-- A deferral that would begin with a maximum deferral of 0 meets its limit action at once (R105). -/
def State.deferPart (s : State) (w : Wait) (r : DeferReason) (tone : Option (Nat × Nat)) : State :=
  if w.maxDefer = 0 then
    match w.limit with
    | .drop => s.dropPart w.job w.zone .limit
    | .force => s.forceTakes w.job w.zone tone
  else s.joinWaits w r

/-- A member of a start group that has its trunk claims its zone (R109); one that came at a pause and finds the zone busy is
still in its wait list. -/
def State.claimMember (g : StartGroup) (num t : Nat) (s : State) (w : Wait) : State :=
  if w.forced then s.forceTakes w.job w.zone (some (num, t))
  else
    match s.bellAnswer w.policy g.atPause w.zone with
    | .take => s.bellTakes w.job w.zone (some (num, t))
    | .defer r => if g.atPause then s else s.deferPart w r (some (num, t))
    | .drop r => (s.leaveWaits w.job w.zone).dropPart w.job w.zone r

/-- A job's copied timeline. -/
def State.jobTimeline (s : State) (n : Nat) : Timeline := ((s.job? n).map Job.timeline).getD { ons := [], cycle := 0 }

/-- A TONE program is granted a trunk, playing its job's pattern from now (R106, R107). -/
def State.grantTone (s : State) (t job num : Nat) : State :=
  let tl := s.jobTimeline job
  s.grant t (.tone job num) (some tl) (some s.now) (some (s.now + 8 * tl.length))

/-- A start group is granted a trunk (R107, R109): its members take their zones, and a trunk left with none is released at
once, before the pass goes on. -/
def State.grantGroup (s : State) (g : StartGroup) (t : Nat) : State :=
  let kept := s.idleTrunks
  let s := { s with ztc := { s.ztc with groups := s.ztc.groups.erase g } }
  let num := if g.fresh then s.groupNumber g.job else g.num
  let s := (if g.fresh then s.numberGiven g.job num else s).grantTone t g.job num
  (g.members.foldl (State.claimMember g num t) s).releaseOwn kept

/-! ### The drill's trunk (R113) -/

/-- Raise notice DRILL STAGE for the stage in progress (R163). -/
def State.raiseStage (s : State) : State :=
  match s.dsq.session with
  | some d =>
    match d.current with
    | some c => s.raise .drill (.drill (.stage d.stage c.stage.kind c.stage.advance d.signal))
    | none => s
  | none => s

/-- The drill is granted a trunk (R113): it joins its stage's timeline at the point reached, the speakers of its zones go to
the trunk, and a signal state of SIGNAL-WAIT becomes SOUNDING. -/
def State.grantDrill (s : State) (t : Nat) : State :=
  let since := s.dsq.session.map Session.stageSince
  let tone := (s.dsq.session.bind Session.current).map StageCopy.timeline
  let s := s.grant t .drill tone since none
  let s :=
    match s.dsq.session with
    | some d =>
      let s' := { s with dsq := { s.dsq with session := some { d with signal := .sounding } } }
      if d.signal = .signalWait && d.announced then s'.raiseStage else s'
    | none => s
  allZones.foldl
    (fun s z =>
      match (s.zoneAt z).holder with
      | .drill m => if mediumSpeaks m then s.setWanted z (s.zoneAt z).bellUntil (some t) else s
      | _ => s)
    s

/-- The DRILL trunk is released: no zone's speakers stay on it, and a grant pass follows (R106, R113). -/
def State.releaseDrillTrunk (s : State) : State :=
  match s.drillTrunk with
  | none => s
  | some t =>
    let s :=
      allZones.foldl
        (fun s z =>
          match (s.zoneAt z).holder with
          | .drill _ => s.setWanted z (s.zoneAt z).bellUntil none
          | _ => s)
        s
    (s.setTrunk t none).later .pass

/-! ### Preemption (R112, R113) -/

/-- The TONE program granted most recently. -/
def State.latestTone (s : State) : Option (Nat × TrunkUse) :=
  s.toneTrunks.foldl
    (fun best t =>
      match s.trunkAt t, best with
      | some u, none => some (t, u)
      | some u, some b => if b.2.seq ≤ u.seq then some (t, u) else some b
      | none, b => b)
    none

/-- The routine page of lowest priority that has a trunk, the latest arrival among equals. -/
def State.weakestPage (s : State) : Option Page :=
  (s.pgc.queue.filter fun p => p.onAir && decide (p.prio ≤ 5)).foldl
    (fun best p =>
      match best with
      | none => some p
      | some b => if p.prio < b.prio ∨ (p.prio = b.prio ∧ b.arrivalSeq ≤ p.arrivalSeq) then some p else some b)
    none

/-- Take the trunk of a TONE program: every part playing on it is DROPPED (PREEMPT) and its zones change holder. -/
def State.stripTone (s : State) (t job : Nat) : State × List Nat :=
  let zs := s.toneZones t job
  let s := zs.foldl (fun s z => s.dropPart job z .preempt) s
  ((zs.foldl State.returnZone s).setTrunk t none, zs)

/-- Take the trunk of a routine page: it loses every zone it holds or has suspended (PREEMPT), and so ends CUT. -/
def State.stripPage (s : State) (p : Page) (t : Nat) : State × List Nat :=
  let s := (p.held ++ p.suspended).foldl (fun s z => s.pageLoses p.num z .preempt) s
  let s := p.suspended.foldl (fun s z => s.setZone z { s.zoneAt z with suspended := .none }) s
  ((p.held.foldl State.returnZone s).setTrunk t none, p.held)

/-- Take one trunk by preemption: the trunk, the state with it FREE, and the zones whose holders ended. -/
def State.preempt (s : State) : Option (Nat × State × List Nat) :=
  match s.latestTone with
  | some (t, u) =>
    match u.program with
    | .tone j _ => some (t, s.stripTone t j)
    | _ => none
  | none =>
    match s.weakestPage with
    | some p =>
      match p.trunk with
      | some t => some (t, s.stripPage p t)
      | none => none
    | none => none

/-! ### The grant pass (R110) -/

/-- Offer a trunk to the pages of a list in order (R110 steps 2 and 4): each is sorted, one that can start now starts, an
emergency page by preemption where no trunk is FREE; the rest are skipped. Where one has started, the work that it brings
with it: the zones that a preemption has freed are served and offered, and the page makes its claims. -/
def State.considerPages (free : Option Nat) : List Page → State → State × Option (List Work)
  | [], s => (s, none)
  | p :: ps, s =>
    let s := s.sortPage p.num
    if (s.page? p.num).any Page.canStart then
      match free with
      | some t => (s.startPage p.num t, some [.claimPage p.num])
      | none =>
        match s.preempt with
        | some (t, s', zs) => (s'.startPage p.num t, some [.serve zs none true, .claimPage p.num])
        | none => State.considerPages free ps s
    else State.considerPages free ps s

/-- The QUEUED pages of the emergency priorities, or of the routine ones, in Page Queue order. -/
def State.queuedPages (s : State) (emergency : Bool) : List Page :=
  s.pgc.queue.filter fun p => decide (p.state = .queued) && decide (emergency = decide (6 ≤ p.prio))

/-- Step 4 of the grant order, where the pass comes to it. -/
def State.considerRoutine (whole : Bool) (s : State) (t : Nat) : State × Option (List Work) :=
  if whole then State.considerPages (some t) (s.queuedPages false) s else (s, none)

/-- Steps 3 and 4 of the grant order, with a FREE trunk: the first bell start group within the reserve, else the routine
pages. -/
def State.considerBells (whole : Bool) (s : State) (t : Nat) : State × Option (List Work) :=
  match s.nextGroup with
  | some g => if s.mayTone then (s.grantGroup g t, some []) else s.considerRoutine whole t
  | none => s.considerRoutine whole t

/-- One grant, or preemption, of a grant pass, in the grant order, or in its steps 1 to 3 alone: the work that it brings with
it, where there was one. Zones that a preemption by the drill has freed are served and offered before the pass goes on. -/
def State.passOnce (whole : Bool) (s : State) : State × Option (List Work) :=
  match s.freeTrunk with
  | some t =>
    if s.drillNeeds then (s.grantDrill t, some [])
    else
      let r := State.considerPages (some t) (s.queuedPages true) s
      if r.2.isSome then r else r.1.considerBells whole t
  | none =>
    if s.drillNeeds then
      match s.preempt with
      | some (t, s', zs) => (s'.grantDrill t, some [.serve zs none true])
      | none => State.considerPages none (s.queuedPages true) s
    else State.considerPages none (s.queuedPages true) s

/-- A sounding stage that has been left without a trunk it needs is SIGNAL-WAIT, and one that needs none is SOUNDING
(R113, R162). -/
def State.markSignal (s : State) : State :=
  match s.dsq.session with
  | some d =>
    if d.soundingStage then
      let s' := { s with dsq := { s.dsq with session := some { d with signal := if s.drillNeeds then .signalWait else .sounding } } }
      if !s.drillNeeds && decide (d.signal = .signalWait) && d.announced then s'.raiseStage else s'
    else s
  | none => s

/-- A grant pass goes on while it makes a grant (R110). -/
def State.pass (s : State) : State :=
  match s.passOnce true with
  | (s', some ws) => s'.push (ws ++ [.pass])
  | (s', none) => s'.markSignal

/-- The steps of a grant pass that start groups about to start are candidates of, made while they give a grant; the groups
still without a trunk are then turned down (R109, R110; DESIGN CHOICE, notes/assumptions/13.md). -/
def State.grants (s : State) : State :=
  match s.passOnce false with
  | (s', some ws) => s'.push (ws ++ [.grants])
  | (s', none) => s'.ungranted

/-! ### The agenda -/

/-- Carry out one piece of work. -/
def State.doWork (s : State) : Work → State
  | .serve zs p freed => s.serve zs p freed
  | .grants => s.grants
  | .offer zs => zs.foldl State.offerZone s
  | .claimPage n => s.claimPage n
  | .release => s.releaseTrunks
  | .pass => s.pass

/-- The PAGE-END notice of a page that leaves the queue (R147). -/
def State.raisePageEnd (s : State) (p : Page) (r : PageReason) : State :=
  s.raise .pageEnd (.pageEnd p.num p.port p.op p.source p.prio p.start.isNone r p.arrival s.campus p.start
    (if p.start.isSome then p.lost else []))

/-- A page that has ended and not yet left the Page Queue. -/
def Page.hasEnded (p : Page) : Bool :=
  match p.state with
  | .ended _ => true
  | _ => false

/-- The PAGE-END of a page, where it has ended. -/
def State.tellEnded (s : State) (p : Page) : State :=
  match p.state with
  | .ended r => s.raisePageEnd p r
  | _ => s

/-- Pages that have ended leave the queue, each with its PAGE-END (R146 step 3, R147). -/
def State.finalizePages (s : State) : State :=
  let s := s.pgc.queue.foldl State.tellEnded s
  { s with pgc := { s.pgc with queue := s.pgc.queue.filter fun p => !p.hasEnded } }

/-- Carry out the agenda until it is empty, then let ended pages leave. Every piece of work ends a deferral, a page or a
grant, or was asked for once, so the agenda of one command runs out long before the bound. -/
def settleFor : Nat → State → State
  | 0, s => { s with ztc := { s.ztc with agenda := [] } }.finalizePages
  | k + 1, s =>
    match s.ztc.agenda with
    | [] => s.finalizePages
    | w :: ws => settleFor k ({ s with ztc := { s.ztc with agenda := ws } }.doWork w)

def State.settle (s : State) : State := settleFor 4096 s

/-! ### Deferral limits (R105) -/

/-- The waits of a job that have reached their limit, in rising zone order. R131 gives no order to the drops of one expiry: they are
made in this one, so that the part of the highest zone dropped stands as the latest detail of BELL-DROPPED (R182; DESIGN CHOICE,
notes/assumptions/38.md). -/
def State.expiredWaits (s : State) (n : Nat) : List Wait :=
  let all := (allZones.flatMap fun z => (s.zoneAt z).waits) ++ s.ztc.groups.flatMap StartGroup.members
  let due := all.filter fun w => decide (w.job = n) && decide (w.since + 8000 * w.maxDefer ≤ s.now)
  allZones.flatMap fun z => due.filter fun w => w.zone = z

/-- A part at its limit (R105): DROP, or FORCE with the trunk that its job's parts share; a part with a speaker half that
has no trunk cannot start now and is DROPPED (LIMIT). A PAUSE part under DROP is dropped though a pause of the same moment
is still to come (DESIGN CHOICE, notes/assumptions/44.md). -/
def State.meetLimit (tone : Option (Nat × Nat)) (s : State) (w : Wait) : State :=
  let s := (s.leaveWaits w.job w.zone).leaveGroups w.job w.zone
  match w.limit with
  | .drop => s.dropPart w.job w.zone .limit
  | .force =>
    if s.partSpeaks w.job w.zone then
      match tone with
      | some x => s.forceTakes w.job w.zone (some x)
      | none => s.dropPart w.job w.zone .limit
    else s.forceTakes w.job w.zone none

/-- The deferred parts of a job reach their limits together; those that take their zones share one trunk (R105), which is sought
once, with the trunks as they stand before any of them has its zone (DESIGN CHOICE, notes/assumptions/44.md). What they leave
without zones is released at once (R106). -/
def State.expireWaits (s : State) (n : Nat) : State :=
  let ws := s.expiredWaits n
  let wants := ws.any fun w => decide (w.limit = .force) && s.partSpeaks n w.zone
  let kept := s.idleTrunks
  match s.job? n with
  | none => s
  | some _ =>
    let (s, tone) :=
      match (if wants && s.mayTone then s.freeTrunk else none) with
      | some t =>
        let g := s.groupNumber n
        ((s.numberGiven n g).grantTone t n g, some (g, t))
      | none => (s, none)
    ((ws.foldl (State.meetLimit tone) s).releaseNow kept).push [.serve (ws.map Wait.zone) none false]

end Sys2Proof.Machine
end

