-- ==== Sys2Proof/Machine/Requests.lean ====
section
/-! DEFINITION. How every command ends (the agenda carried out, the attention lines re-judged), and how a console port takes a
request (R169 to R173): not while start-up goes on, not while a request is in progress, and only with the operator's class
and the port's rights; the reply, and the access fault capture that a class or rights refusal leaves (R177). -/

set_option autoImplicit false

namespace Sys2Proof.Machine

open Sys2Proof

/-- What a command answers. -/
abbrev Result := Host.Outcome State Fault Refusal

/-- The end of every command: what it set going inside the zone controller is carried out (Machine/Trunks.lean), and the
attention lines follow (R183). -/
def finish (s : State) : Result := .next s.settle.rejudge

/-- Whether the controller works: it has power, and its blocks have their start-up values (R186). -/
def State.up (s : State) : Bool := s.power

/-- Whether the ports read request lines: not before start-up has ended, which is when the panel sample is complete
(R186). -/
def State.reads (s : State) : Bool := s.power && s.pnl.sampleUntil.isNone

/-- A controller event: without power nothing happens. -/
def event (s : State) (f : State → State) : Result := if s.power then finish (f s) else .next s

/-! ### Replies and the access fault capture (R177) -/

/-- A class or rights refusal enters the port's capture, and notice ACCESS is raised at that port (R177). -/
def State.capture (s : State) (p : Port) (op : Fin 16) (kw : Keyword) (region : Option Region) (why : AccessReason) : State :=
  let multiple := (s.port p).capture.isSome
  let this : Capture := { op := op.val, keyword := kw, region := region, reason := why, time := s.campus, multiple := multiple }
  let kept : Capture := match (s.port p).capture with | some c => { c with multiple := true } | none => this
  (s.setPort p { s.port p with capture := some kept }).raiseAt p .access (.access this)

/-- Why a reply counts as an access fault, if it does (R177). -/
def Reply.access? : Reply → Option AccessReason
  | .no .cls => some .cls
  | .no .rights => some .rights
  | _ => none

/-- A port sends the reply to a request, which is then in progress until the reply has been sent (R171). -/
def State.answer (s : State) (p : Port) (r : Reply) : State := s.setPort p { s.port p with reply := some r }

/-- The reply to a request of an operator, recorded where it is a class or rights refusal. -/
def State.respond (s : State) (p : Port) (op : Fin 16) (kw : Keyword) (region : Option Region) (r : Reply) : State :=
  match r.access? with
  | some why => (s.answer p r).capture p op kw region why
  | none => s.answer p r

/-- A line that ends while a request is in progress is owed NO BUSY, up to 8 such answers (R171). -/
def State.oweBusy (s : State) (p : Port) : State :=
  let x := s.port p
  if x.owed < 8 then s.setPort p { x with owed := x.owed + 1 } else s

/-- A port takes a line: not during start-up; while a request is in progress it owes NO BUSY (R171); else it reads it. -/
def line (p : Port) (s : State) (read : State → State) : Result :=
  if !s.reads then .next s
  else if (s.port p).reply.isSome then finish (s.oweBusy p)
  else finish (read s)

/-! ### Class and rights (R69, R172, R173) -/

/-- Whether an operator's class allows a request of a minimum class (R172). -/
def State.classAllows (s : State) (p : Port) (op : Fin 16) (min : OpClass) : Bool :=
  decide (classRank min ≤ classRank (s.classOf p op)) && decide (s.classOf p op ≠ .none)

/-- A request that concerns no region of the plan: the class check, then its owning block. -/
def request (p : Port) (op : Fin 16) (kw : Keyword) (min : OpClass) (s : State) (body : State → State × Reply) : Result :=
  line p s fun s =>
    if s.classAllows p op min then
      let (s', r) := body s
      s'.respond p op kw none r
    else s.respond p op kw none (.no .cls)

/-- The rights a port is given over a region in the live PRT bank. -/
def State.givenRights (s : State) (p : Port) (r : Region) : Rights :=
  ((s.store.live.prt.ports.get p).rights[regionIdx r]?).getD .read

/-- A port's effective rights over a region with the key switch in RUN: EDIT over LIN and PRT counts as READ (R69). -/
def State.rightsInRun (s : State) (p : Port) (r : Region) : Rights :=
  match r, s.givenRights p r with
  | .lin, .edit | .prt, .edit => .read
  | _, x => x

/-- A port's effective rights over a region (R69). -/
def State.rights (s : State) (p : Port) (r : Region) : Rights := if s.setup then .edit else s.rightsInRun p r

/-- Whether rights suffice: EDIT for edits and the staged bank, READ or EDIT for the live bank (R69). -/
def rightsAllow (needsEdit : Bool) : Rights → Bool
  | .edit => true
  | .read => !needsEdit
  | .none => false

/-- The minimum class of an editing request over a region (R172). -/
def editClass : Region → OpClass
  | .drl => .safety
  | _ => .office

/-- A request that concerns a region of the plan: the class check, the rights check, then its owning block. -/
def planRequest (p : Port) (op : Fin 16) (kw : Keyword) (min : OpClass) (region : Region) (needsEdit : Bool) (s : State)
    (body : State → State × Reply) : State :=
  if !s.classAllows p op min then s.respond p op kw (some region) (.no .cls)
  else if !rightsAllow needsEdit (s.rights p region) then s.respond p op kw (some region) (.no .rights)
  else
    let (s', r) := body s
    s'.respond p op kw (some region) r

end Sys2Proof.Machine
end

