-- ==== Sys2Proof/Machine/Bells.lean ====
section
/-! DEFINITION. The Bell Dispatcher (chapter 7): the gate, the effective list, due detection at boundaries and steps, bell
jobs and their parts, and the meanings of RING, BELLS, DEFERRAL_LIMIT_EXPIRY, SOUNDER_TIMELINE_CHANGE and TONE_END. -/

set_option autoImplicit false

namespace Sys2Proof.Machine

open Sys2Proof

/-! ### Bell jobs (R123 to R125) -/

/-- The next number after `n`, with 1 following 255, that is not in use; among 255 numbers one is free. -/
def nextNumber (used : List Nat) : Nat → Nat → Nat
  | 0, n => n
  | k + 1, n =>
    let m := if 255 ≤ n then 1 else n + 1
    if used.contains m then nextNumber used k m else m

/-- The medium of a zone's part (R87, R123). -/
def partMedium (m : EntryMedium) (zone : Medium) : Medium :=
  match m with
  | .zoneDefault => zone
  | .sounderOnly => .sounder
  | .speakerOnly => .speaker

/-- A part as it is made (R127). -/
def newPart (m : Medium) (z : Nat) : Part :=
  { zone := z, medium := m, state := .pending, firstDeferral := none, start := none,
    sounder := if mediumSounds m then .waiting else .absent, speaker := if mediumSpeaks m then .waiting else .absent, step := 0 }

/-- A job placed behind every job that is not due later (R124). -/
def insertJob (j : Job) : List Job → List Job
  | [] => [j]
  | x :: xs => if x.due.count ≤ j.due.count then x :: insertJob j xs else j :: x :: xs

/-- One part's claim on its zone (R98, R99, R103, R105). -/
def State.claimPart (n : Nat) (s : State) (p : Part) : State :=
  let c := s.zoneCfg p.zone
  let w : Wait := { job := n, zone := p.zone, since := s.now, reason := .bell, policy := c.policy, maxDefer := c.maxDefer,
                    limit := c.limit, forced := false }
  match s.bellAnswer c.policy false p.zone with
  | .take => if mediumSpeaks p.medium then s.joinGroup w else s.bellTakes n p.zone none
  | .defer r =>
    if c.maxDefer = 0 then
      match c.limit with
      | .drop => s.dropPart n p.zone .limit
      | .force => if mediumSpeaks p.medium then s.joinGroup { w with forced := true } else s.forceTakes n p.zone none
    else s.joinWaits w r
  | .drop r => s.dropPart n p.zone r

/-- The claims of all of a job's parts, as one claim judged zone by zone in rising order, and what follows from them
(R127). -/
def State.claimJob (s : State) (j : Job) : State :=
  let s := j.parts.foldl (State.claimPart j.num) s
  (if s.ztc.groups.any StartGroup.fresh then s.push [.grants, .pass] else s).settle

/-- What a job is made from: an entry that fires or a manual ring (R123); a manual ring's key is its job number. -/
structure JobSource where
  key : Option EntryKey
  due : Stamp
  late : Bool
  label : Option (List Nat)
  group : Nat
  pattern : Nat
  medium : EntryMedium
deriving DecidableEq, Repr

/-- Whether the Bell Ready Queue refuses a job (R124): FULL also where a job of the same key and date is among the 8 (DESIGN
CHOICE, notes/assumptions/45.md). -/
def State.jobRefused (s : State) (x : JobSource) : Option OverrunCause :=
  if 8 ≤ s.bds.queue.length then some .full
  else if s.bds.queue.any fun j => decide (some j.key = x.key) && decide (j.day = x.due.day) then some .duplicate
  else none

/-- The number the next job takes (R123). -/
def State.jobNumber (s : State) : Nat := nextNumber (s.bds.queue.map Job.num) 256 s.bds.lastJob

/-- The job record as made (R123). -/
def State.newJob (s : State) (x : JobSource) : Job :=
  let n := s.jobNumber
  { num := n, key := x.key.getD (.manual n), day := x.due.day, sec := x.due.sec, late := x.late, label := x.label,
    pattern := x.pattern, timeline := s.store.live.pat.timeline x.pattern, medium := x.medium,
    parts := (s.expand x.group).map fun z => newPart (partMedium x.medium (s.zoneCfg z).medium) z, groups := 0 }

/-- A job enters the queue and its parts claim their zones; one with an empty pattern or no zone is over at once, its
parts DONE without a claim (R125). -/
def State.enterJob (s : State) (x : JobSource) : State :=
  let j := s.newJob x
  let s := { s with bds := { s.bds with lastJob := j.num } }
  if j.timeline.isEmpty || j.parts.isEmpty then s
  else ({ s with bds := { s.bds with queue := insertJob j s.bds.queue } }).claimJob j

/-- An entry of the effective list fires (R119, R121, R124). -/
def State.fire (now : Stamp) (s : State) (e : ListEntry) : State :=
  let due : Stamp := { day := s.bds.listDate, sec := e.time }
  let x : JobSource := { key := some e.key, due := due, late := decide (due.count < now.count), label := e.label, group := e.group,
                         pattern := e.pattern, medium := e.medium }
  match s.jobRefused x with
  | some cause => s.raise .bellOverrun (.bellOverrun e.key due cause)
  | none => s.enterJob x

/-! ### The gate, the list and the mark (R117 to R122) -/

/-- Whether the dispatch gate is OPEN (R117). -/
def gateOpen (v : Validity) (trust : Bool) : Bool :=
  match v with
  | .valid => true
  | .backup => trust
  | .invalid => false

/-- Form the effective list for the campus date (R118). -/
def State.formList (s : State) : State :=
  { s with bds := { s.bds with list := effectiveList s.store.live s.tbu.day, listDate := s.tbu.day } }

/-- Form the list where the campus date differs from the list date (R118). -/
def State.freshList (s : State) : State := if s.tbu.day = s.bds.listDate then s else s.formList

def State.setMark (s : State) (m : Stamp) : State := { s with bds := { s.bds with mark := m } }

/-- The entries later than the fired mark and not later than the campus second (R119). -/
def State.dueEntries (s : State) : List ListEntry :=
  s.bds.list.filter fun e =>
    let due := ({ day := s.bds.listDate, sec := e.time } : Stamp).count
    decide (s.bds.mark.count < due) && decide (due ≤ s.tbu.stamp.count)

/-- An event taken gated fires nothing and sets the mark to its second (R117). -/
def State.takeGated (s : State) : State := (s.freshList).setMark s.tbu.stamp

/-- The dispatcher takes a second boundary event (R117, R119). -/
def State.bdsBoundary (s : State) : State :=
  let s := { s with bds := { s.bds with trustBackup := s.timeSet.trustBackup } }
  let isOpen := gateOpen s.tbu.validity s.bds.trustBackup
  let was := s.bds.gateOpen
  let s := { s with bds := { s.bds with gateOpen := isOpen } }
  if isOpen && was then
    let s := s.freshList
    let s := s.dueEntries.foldl (State.fire s.tbu.stamp) s
    s.setMark (s.bds.mark.later s.tbu.stamp)
  else s.takeGated

/-- The dispatcher takes a step event, given the campus times before and after (R117, R121, R122). -/
def State.bdsStep (s : State) (before after : CampusMs) : State :=
  let isOpen := gateOpen s.tbu.validity s.bds.trustBackup
  let was := s.bds.gateOpen
  let s := { s with bds := { s.bds with gateOpen := isOpen } }
  if isOpen && was then
    let s := s.freshList
    let stamp (e : ListEntry) : Stamp := { day := s.bds.listDate, sec := e.time }
    let skips (e : ListEntry) : Bool := decide ((stamp e).count + s.timeSet.catchUp < s.tbu.stamp.count)
    let due := s.dueEntries
    let skipped := due.filter skips
    let s := (due.filter fun e => !skips e).foldl (State.fire s.tbu.stamp) s
    let s :=
      match skipped.head?, skipped.getLast? with
      | some a, some b => s.raise .bellSkipped (.bellSkipped skipped.length (stamp a) (stamp b) before after)
      | _, _ => s
    s.setMark (s.bds.mark.later s.tbu.stamp)
  else s.takeGated

/-- Activation of CAL, DPL or OVR: the list is formed anew and the mark raised to the present second (R78, R118). -/
def State.bdsActivation (s : State) : State :=
  let s := s.formList
  s.setMark (s.bds.mark.later s.tbu.stamp)

/-- The dispatcher's start-up values at power-on and RESTART (R116). -/
def State.bdsStart (s : State) : State :=
  let trust := s.timeSet.trustBackup
  { s with bds := { list := effectiveList s.store.live s.tbu.day, listDate := s.tbu.day, mark := s.tbu.stamp, trustBackup := trust,
                    gateOpen := gateOpen s.tbu.validity trust, queue := [], lastJob := 0 } }

/-- At a RESTART every part not yet ended is DROPPED (RESTART) (R132). -/
def State.dropAllParts (s : State) : State :=
  s.bds.queue.foldl (fun s j => j.parts.foldl (fun s p => s.dropPart j.num p.zone .restart) s) s

/-! ### Timers of parts and tones -/

/-- The elapsed time of a sounding part's next change (R129). -/
def partChangeAt (j : Job) (p : Part) : Option Nat :=
  match p.state, p.sounder, p.start, j.timeline.changes[p.step]? with
  | .sounding, .playing, some t, some c => some (t + 8 * c.1)
  | _, _, _, _ => none

/-- A change of a part's timeline, sent to the zone controller (R129); at the playing length the sounder half is finished,
and the part DONE where its speaker half is absent or finished (R128). -/
def State.soundChange (s : State) (j : Job) (p : Part) : State :=
  match p.start, j.timeline.changes[p.step]? with
  | some t, some c =>
    let mine := (s.zoneAt p.zone).holder = .bell j.num
    let s := if mine then s.setWanted p.zone (c.2.map fun e => t + 8 * e) (s.zoneAt p.zone).trunk else s
    if p.step + 1 < j.timeline.changes.length then s.updatePart j.num p.zone fun p => { p with step := p.step + 1 }
    else
      let s := s.updatePart j.num p.zone fun p => { p with sounder := .finished, step := p.step + 1 }
      match p.speaker with
      | .absent | .finished => (s.donePart j.num p.zone).holdersEnd [p.zone]
      | _ => s
  | _, _ => s

/-- A TONE program has reached its playing length (R107): the speaker halves of its group have finished; parts whose
sounder halves have finished too are DONE, and the speakers of the others leave the trunk. -/
def State.toneOver (s : State) (t job group : Nat) : State :=
  let zs := (s.job? job).elim [] fun j => (j.parts.filter fun p => decide (p.state = .sounding) && decide (p.speaker = .playing group t)).map Part.zone
  let done := zs.filter fun z => (s.part? job z).any fun p => decide (p.sounder ≠ .playing)
  let s := zs.foldl (fun s z => s.updatePart job z fun p => { p with speaker := .finished }) s
  let s := zs.foldl (fun s z => s.setWanted z (s.zoneAt z).bellUntil none) s
  let s := done.foldl (fun s z => s.donePart job z) s
  (s.holdersEnd done).later .release

/-! ### Meanings -/

/-- DEFERRAL_LIMIT_EXPIRY (R105). With no deferred part of the job at its limit there is nothing to do. -/
def execDeferralLimitExpiry (job : Nat) (s : State) : Result :=
  event s fun s => if (s.expiredWaits job).isEmpty then s else s.expireWaits job

/-- SOUNDER_TIMELINE_CHANGE (R129). A change whose time has not come, or of a part that no longer sounds, is none. -/
def execSounderTimelineChange (job zone : Nat) (s : State) : Result :=
  event s fun s =>
    match s.job? job with
    | none => s
    | some j =>
      match j.part? zone with
      | none => s
      | some p =>
        match partChangeAt j p with
        | none => s
        | some t => if s.reached t then s.soundChange j p else s

/-- TONE_END (R107): a TONE program has reached its playing length. -/
def execToneEnd (t : Fin 4) (s : State) : Result :=
  event s fun s =>
    match s.trunkAt t.val with
    | none => s
    | some u =>
      match u.program, u.toneUntil with
      | .tone job group, some at_ => if s.reached at_ then s.toneOver t.val job group else s
      | _, _ => s

/-- RING (R126): a manual ring makes a job at once, whatever the gate state. -/
def execRing (p : Port) (op : Fin 16) (group pattern : Nat) (medium : EntryMedium) (s : State) : Result :=
  request p op .ring .staff s fun s =>
    if 16 ≤ group ∨ 16 ≤ pattern then (s, .no .range)
    else
      let x : JobSource := { key := none, due := s.tbu.stamp, late := false, label := none, group := group, pattern := pattern,
                             medium := medium }
      match s.jobRefused x with
      | some _ => (s, .no .full)
      | none => (s.enterJob x, .okNumber false s.jobNumber)

/-- The milliseconds shown with a part in a BELLS reply (R133). -/
def State.partMs (s : State) (j : Job) (p : Part) : Option Nat :=
  match p.state with
  | .sounding => p.start.map fun t => s.msUntil (t + 8 * j.timeline.length)
  | .deferred _ => p.firstDeferral.map fun t => s.msSince t
  | _ => none

def State.jobReply (s : State) (j : Job) : JobReply :=
  { num := j.num, key := j.key, due := j.due, late := j.late, label := j.label, pattern := j.pattern, medium := j.medium,
    parts := j.parts.map fun p =>
      { zone := p.zone, medium := p.medium, state := p.state, ms := s.partMs j p,
        trunk := match p.speaker with | .playing _ t => some t | _ => none } }

/-- The BELLS reply (R133). -/
def State.bellsReply (s : State) : BellsReply :=
  { gateOpen := s.bds.gateOpen, mark := s.bds.mark, campus := s.campus, listDate := s.bds.listDate, entries := s.bds.list.length,
    next := s.bds.list.find? fun e => decide (s.bds.mark.count < ({ day := s.bds.listDate, sec := e.time } : Stamp).count),
    jobs := s.bds.queue.map s.jobReply }

/-- BELLS (R133). -/
def execBells (p : Port) (op : Fin 16) (s : State) : Result :=
  request p op .bells .viewer s fun s => (s, .bells s.bellsReply)

end Sys2Proof.Machine
end

