-- ==== Sys2Proof/Machine/Pages.lean ====
section
/-! DEFINITION. The Page Controller (chapter 8): page requests, the Page Queue, the pre-tone and the silence detector's
events, endings, and the meanings of the page commands and of the trunk detector's. -/

set_option autoImplicit false

namespace Sys2Proof.Machine

open Sys2Proof

/-! ### Requests (R134, R135) -/

/-- Whether a source may be asked for from a port: a microphone only from its own (R134). -/
def sourceFits : Source → Port → Bool
  | .micA, p => p = .a
  | .micB, p => p = .b
  | .aux, _ => true

/-- The class cap on a page's priority (R134). -/
def classCap : OpClass → Nat
  | .safety => 7
  | .office => 5
  | _ => 3

/-- Whether the zones named exist (R134). -/
def namesExist : ZoneNames → Bool
  | .group n => n < 16
  | .zone n => n < 32

/-- A page request as it is taken: its values checked and held at their limits (R134). -/
structure PageAsk where
  source : Source
  prio : Nat
  names : ZoneNames
  pretone : Option Nat
  limit : Nat
  part : Bool
  clamped : Bool
deriving DecidableEq, Repr

/-- A length limit held at 5 to 600 s. -/
def clampLimit (n : Nat) : Nat := min (max n 5) 600

/-- The checks of R134: none for a value that does not exist. -/
def State.askPage (s : State) (p : Port) (op : Fin 16) (source : Source) (prio : Nat) (names : ZoneNames)
    (pretone limit : Option Nat) (part : Bool) : Option PageAsk :=
  if sourceFits source p && namesExist names && pretone.all (fun k => decide (k < 16)) then
    let cap := classCap (s.classOf p op)
    let len := limit.getD (s.store.live.prt.ports.get p).pageLimit
    some { source := source, prio := min prio cap, names := names, pretone := pretone, limit := clampLimit len, part := part,
           clamped := decide (cap < prio) || decide (clampLimit len ≠ len) }
  else none

/-- A page placed behind every page of its priority or a higher one (R135). -/
def insertPage (p : Page) : List Page → List Page
  | [] => [p]
  | q :: qs => if p.prio ≤ q.prio then q :: insertPage p qs else p :: q :: qs

/-- The number the next page takes (R135). -/
def State.pageNumber (s : State) : Nat := nextNumber (s.pgc.queue.map Page.num) 256 s.pgc.lastPage

/-- The record of an accepted page (R136). -/
def State.newPage (s : State) (p : Port) (op : Fin 16) (a : PageAsk) : Page :=
  { num := s.pageNumber, state := .queued, port := p, op := op.val, cls := s.classOf p op, source := a.source, prio := a.prio,
    names := a.names, pretone := a.pretone, limit := a.limit, part := a.part, arrival := s.campus, arrivalSeq := s.pgc.arrivals,
    start := none, expansion := [], trunk := none, held := [], waiting := [], suspended := [], lost := [], limitAt := none }

/-- An accepted page enters the queue, is sorted, and where it can start now is offered to a grant pass (R135, R138). -/
def State.enterPage (s : State) (p : Port) (op : Fin 16) (a : PageAsk) : State :=
  let pg := s.newPage p op a
  let s := { s with pgc := { queue := insertPage pg s.pgc.queue, lastPage := pg.num, arrivals := s.pgc.arrivals + 1 } }
  let s := s.sortPage pg.num
  if (s.page? pg.num).any Page.canStart then s.later .pass else s

/-- PAGE (R134, R135). -/
def execPage (p : Port) (op : Fin 16) (source : Source) (prio : Nat) (zones : ZoneNames) (pretone limit : Option Nat)
    (part : Bool) (s : State) : Result :=
  request p op .page .staff s fun s =>
    match s.askPage p op source prio zones pretone limit part with
    | none => (s, .no .range)
    | some a =>
      if s.pgc.queue.any fun q => q.source = a.source then (s, .no .busy)
      else (s.enterPage p op a, .okNumber a.clamped s.pageNumber)

/-! ### Endings (R145 to R148) -/

/-- A page ends (R146): a started page gives up every zone it holds or has suspended and withdraws its waits, in one
event; it then leaves the queue with its PAGE-END. -/
def State.endPage (s : State) (n : Nat) (r : PageReason) : State :=
  match s.page? n with
  | none => s
  | some p =>
    let s := s.updatePage n fun p => { p with state := .ended r, waiting := [] }
    if p.onAir then s.releaseZones (Holder.isPage n) (Suspended.isPage n) allZones else s

/-- END (R145). -/
def execEndPage (p : Port) (op : Fin 16) (page : Nat) (s : State) : Result :=
  request p op .endPage .staff s fun s =>
    match s.page? page with
    | none => (s, .no .range)
    | some q => if q.port = p then (s.endPage page .byEnd, .ok) else (s, .no .state)

/-- CANCEL (R145): from the other port the operator's class must reach the page's origin class. -/
def execCancel (p : Port) (op : Fin 16) (page : Nat) (s : State) : Result :=
  request p op .cancel .staff s fun s =>
    match s.page? page with
    | none => (s, .no .range)
    | some q =>
      if q.port = p ∨ classRank q.cls ≤ classRank (s.classOf p op) then (s.endPage page .cancel, .ok) else (s, .no .cls)

/-- PAGE_LIMIT_EXPIRY (R146): the limit timer of a started page has run out. -/
def execPageLimitExpiry (page : Nat) (s : State) : Result :=
  event s fun s =>
    match s.page? page with
    | none => s
    | some p => if p.onAir && p.limitAt.any s.reached then s.endPage page .limit else s

/-- At a RESTART every page ends with reason RESTART; no zone or trunk is given up (R148). -/
def State.endAllPages (s : State) : State :=
  let s := s.pgc.queue.foldl (fun s p => s.raisePageEnd p .restart) s
  { s with pgc := { queue := [], lastPage := 0, arrivals := 0 } }

/-! ### The trunk's tone generator and silence detector (R107, R108, R140, R141) -/

/-- The page on a trunk, if the trunk carries one. -/
def TrunkUse.page? (u : TrunkUse) : Option Nat :=
  match u.program with
  | .page n => some n
  | _ => none

/-- The page in a state on a trunk in use, with the trunk's record. -/
def State.pageOn (s : State) (t : Nat) (st : PageState) : Option (TrunkUse × Page) :=
  match s.trunkAt t with
  | none => none
  | some u =>
    match u.page?.bind s.page? with
    | some p => if p.state = st then some (u, p) else none
    | none => none

/-- PRETONE_END (R107, R140): the pre-tone has reached its playing length and the page enters LIVE. -/
def execPretoneEnd (t : Fin 4) (s : State) : Result :=
  event s fun s =>
    match s.pageOn t.val .chime with
    | some (u, p) => if u.toneUntil.any s.reached then s.enterLive p.num t.val else s
    | none => s

/-- A silence that begins now, with the live pause length and idle limit (R108). -/
def State.newSilence (s : State) : Silence :=
  let z := s.store.live.zon.zoneSet
  { since := s.now, pauseLength := z.pauseLength, idleLimit := z.idleLimit, paused := false, idled := false }

/-- TRUNK_LEVEL_CHANGE (R108): on the trunk of a LIVE page a fall to silent begins a silence, a return to sounding ends
it; at other times the detector is at rest. -/
def execTrunkLevelChange (t : Fin 4) (silent : Bool) (s : State) : Result :=
  event s fun s =>
    match s.pageOn t.val .live with
    | some (u, _) =>
      if silent then
        if u.silence.isSome then s else s.setTrunk t.val (some { u with silence := some s.newSilence })
      else s.setTrunk t.val (some { u with silence := none })
    | none => s

/-- The zones a page holds. -/
def State.zonesOfPage (s : State) (n : Nat) : List Nat := allZones.filter fun z => (s.zoneAt z).holder.isPage n

/-- PAUSE (R108): a silence has reached its pause length; the wait list of every zone the page holds is served. -/
def execPause (t : Fin 4) (s : State) : Result :=
  event s fun s =>
    match s.pageOn t.val .live with
    | some (u, p) =>
      match u.silence with
      | some q =>
        if !q.paused && s.reached (q.since + 8 * q.pauseLength) then
          (s.setTrunk t.val (some { u with silence := some { q with paused := true } })).push
            [.serve (s.zonesOfPage p.num) (some p.num) false]
        else s
      | none => s
    | none => s

/-- IDLE (R108, R146): a silence has reached its idle limit and ends the page. -/
def execIdle (t : Fin 4) (s : State) : Result :=
  event s fun s =>
    match s.pageOn t.val .live with
    | some (u, p) =>
      match u.silence with
      | some q =>
        if !q.idled && s.reached (q.since + 8000 * q.idleLimit) then
          (s.setTrunk t.val (some { u with silence := some { q with idled := true } })).endPage p.num .idle
        else s
      | none => s
    | none => s

/-! ### PAGES (R149) -/

def State.pageReply (s : State) (p : Page) : PageReply :=
  { page := p
    secondsLeft := p.limitAt.map fun t => (t - s.now) / 8000
    silentMs :=
      if p.state = .live then
        ((p.trunk.bind s.trunkAt).bind TrunkUse.silence).map fun q => s.msSince q.since
      else none }

/-- PAGES (R149): the Page Queue in queue order. -/
def execPages (p : Port) (op : Fin 16) (s : State) : Result :=
  request p op .pages .viewer s fun s => (s, .pages (s.pgc.queue.map s.pageReply))

end Sys2Proof.Machine
end

