-- ==== Sys2Proof/Machine/LineStates.lean ====
section
/-! DEFINITION. The states of a line and how it passes between them (sections 2.1, 2.6): bring-up, DISCOVERY, RUN, LOST; the
poll tables (section 2.4), the slots of the line second (R28), and the degraded flags (R48). -/

set_option autoImplicit false

namespace Sys2Proof.Machine

open Sys2Proof

/-- Update a line controller. -/
def State.onLine (s : State) (l : Nat) (f : LineSt → LineSt) : State := s.setLine l (f (s.lineAt l))

/-- Raise notice LINE (R24, R26, R41). -/
def State.raiseLine (s : State) (l : Nat) (ev : LineEvent) : State := s.raise .line (.line l ev)

/-- Raise notice DEVICE (R39). -/
def State.raiseDevice (s : State) (l addr : Nat) (kind : Option DevKind) (before after : DevState) : State :=
  s.raise .device (.device l addr kind before after)

/-! ### Degraded zones (R48) -/

/-- Whether a record degrades the zone it gives. -/
def DevRec.degrades (r : DevRec) (z : Nat) : Bool :=
  decide (r.zone = some z) && (decide (r.state = .missing) || decide (r.state = .faulty) || decide (r.state = .foreign))

def LineSt.degrades (x : LineSt) (z : Nat) : Bool := allAddrs.any fun a => (x.recAt a).degrades z

/-- The zone controller is told of the degraded flags of a line's zones. -/
def State.refreshDegraded (s : State) (l : Nat) : State :=
  (s.zonesOfLine l).foldl (fun s z => s.setZone z { s.zoneAt z with degraded := (s.lineAt l).degrades z }) s

/-! ### Bring-up (R23, R24) -/

/-- The device records a bring-up sets up from the live LIN bank (R37). -/
def State.freshRecs (s : State) (l : Nat) : Table DevRec :=
  allAddrs.foldl
    (fun t a =>
      match tget noneStart s.store.live.lin.devices (devIdx l a) with
      | some d =>
        tset devRecStart t a
          { listed := true, kind := some d.kind, zone := d.zone, serial := d.serial, state := .absent, misses := 0, report := none,
            corrections := 0 }
      | none => t)
    []

/-- A field device whose line power is removed: a speaker node mutes, no device knows a zone or is in echo; a clear station
keeps its count and a clock runs on (R34, R45, R59, section 2.8). A bell unit rings on until its hold-for runs out or line power
returns (R45, R132; DEDUCED, notes/assumptions/36.md). -/
def FieldDev.lineOff (d : FieldDev) : FieldDev :=
  { d with trunk := none, lastValid := 0, zone := none, loopUps := 0, echo := none, sent := [] }

/-- A field device that has come up with its line's power, or is without any: a speaker node is muted, and a bell unit is off
after power-up (R45; that one rings on between the two is notes/assumptions/36.md). -/
def FieldDev.cold (d : FieldDev) : FieldDev := { d.lineOff with bellOn := false, holdUntil := 0 }

/-- Every device of a line changes. -/
def State.onDevices (s : State) (l : Nat) (f : FieldDev → FieldDev) : State :=
  allAddrs.foldl (fun s a => s.setField l a (f (s.fieldAt l a))) s

/-- The poll phases of a line in the live LIN bank (R23). -/
def State.copyPolls (s : State) (l : Nat) : Table (Option Nat) :=
  (List.range 32).foldl
    (fun t k => tset noneStart t k (tget noneStart s.store.live.lin.polls (l * 32 + k))) []

/-- The line controller after it has taken its copy of LIN (R23): OFF where the enable is NO, else PROVING with its state
prepared (R24). A transaction in progress is dropped, since the bring-up comes at once (DESIGN CHOICE,
notes/assumptions/35.md). -/
def State.broughtUp (s : State) (l : Nat) : LineSt :=
  let c := tget lineCfgStart s.store.live.lin.lines l
  let x := s.lineAt l
  let polls := s.copyPolls l
  let x :=
    { x with enabled := c.enable, auto := c.auto, polls := polls, missLimit := c.missLimit, since := s.now, recs := s.freshRecs l,
             outAlarm := [], outOrd := [], transaction := none, test := none, sent := [] }
  if c.enable then
    { x with state := .proving, pollTable := if c.auto then [] else (List.range 32).map (tget noneStart polls), window := [],
             unanswered := 0, delay := none, frameNo := 0, commands := 0, prover := { proverStart with startedAt := some s.now } }
  else { x with state := .off }

/-- A bring-up begins (R23, R24): where the line was in RUN its zones become unavailable (R27). -/
def State.bringUp (s : State) (l : Nat) : State :=
  let was := (s.lineAt l).state
  let s := (s.setLine l (s.broughtUp l)).onDevices l FieldDev.lineOff
  let s := s.refreshDegraded l
  if was = .run then s.lineDown l else s

/-! ### Slots (R28) -/

/-- The states in which a line uses its slots. -/
def LineState.slotted : LineState → Bool
  | .discovery | .run | .lost | .test => true
  | _ => false

/-- The first slot of the line second that has not begun: the next slot of a line that uses its slots, which may be waiting
for a transaction to end; on a silent line, the first whose time has not passed (R25, R28, R56). -/
def State.slotFrom (s : State) (x : LineSt) : Nat :=
  if x.state.slotted then x.slot else max x.slot ((s.now - x.secondAt + 199) / 200)

/-- Whether the line's next slot has come: it begins when its time has come and no transaction is in progress (R28). -/
def State.slotReady (s : State) (x : LineSt) : Bool :=
  x.state.slotted && decide (x.slot < 40) && s.reached (x.secondAt + 200 * x.slot) && x.transaction.isNone

/-- A line second begins, at a second boundary or a step; a step leaves the STEP flag pending (R28, R30). -/
def State.lineSeconds (s : State) (step : Bool) : State :=
  allLines.foldl
    (fun s l => s.onLine l fun x => { x with secondAt := s.now, slot := 0, stepPending := x.stepPending || step }) s

/-! ### DISCOVERY (R25) -/

/-- A record as DISCOVERY begins: what LIN gave stays in it. -/
def DevRec.discovering (r : DevRec) : DevRec :=
  { r with kind := if r.listed then r.kind else none, serial := if r.listed then r.serial else none, state := .absent, misses := 0,
           report := none, corrections := 0 }

def LineSt.mapRecs (x : LineSt) (f : DevRec → DevRec) : LineSt := allAddrs.foldl (fun x a => x.setRec a (f (x.recAt a))) x

/-- The line enters DISCOVERY (R25). -/
def State.enterDiscovery (s : State) (l : Nat) : State :=
  let s := s.onLine l fun x =>
    let y := x.mapRecs DevRec.discovering
    { y with state := .discovery, since := s.now, outAlarm := [], outOrd := [], window := [], unanswered := 0, discAddr := 1,
             discTry := 0, test := none, slot := s.slotFrom x }
  s.refreshDegraded l

/-! ### Poll tables (R34 to R36) -/

/-- An answering device (R35). -/
def DevRec.answering (r : DevRec) : Bool :=
  match r.state with
  | .present | .faulty | .unlisted | .foreign => true
  | _ => false

/-- The clear stations that get further phases (R35). -/
def DevRec.extra (r : DevRec) : Bool :=
  decide (r.kind = some .clear) && (decide (r.state = .present) || decide (r.state = .faulty))

/-- An AUTO poll table (R35): one phase for each answering device, then three more for each clear station, round by round,
as far as 32 phases go. -/
def LineSt.autoTable (x : LineSt) : List (Option Nat) :=
  let first := allAddrs.filter fun a => (x.recAt a).answering
  let clears := allAddrs.filter fun a => (x.recAt a).extra
  let filled := ((first ++ clears ++ clears ++ clears).take 32).map some
  filled ++ List.replicate (32 - filled.length) none

/-- The poll table in use once a build is due: the explicit one, or a new AUTO one (R26, R34, R35). -/
def LineSt.buildTable (x : LineSt) : LineSt := if x.auto then { x with pollTable := x.autoTable } else x

/-- The phase at the phase pointer (R34). -/
def LineSt.phase (x : LineSt) : Option Nat := (x.pollTable[x.phasePtr]?).bind id

/-- Whether an address is in the search set (R36). -/
def LineSt.searched (x : LineSt) (a : Nat) : Bool :=
  decide ((x.recAt a).state = .absent) || decide ((x.recAt a).state = .missing) || !x.pollTable.contains (some a)

/-- The first address after a pointer, going round, that fits. -/
def nextAddr (ptr : Nat) (fits : Nat → Bool) : Option Nat :=
  ((allAddrs.filter fun a => decide (ptr < a)) ++ (allAddrs.filter fun a => decide (a ≤ ptr))).find? fits

/-- The address a search poll takes (R36). -/
def LineSt.searchNext (x : LineSt) : Option Nat := nextAddr x.searchPtr x.searched

/-- The address a recovery poll takes (R42). -/
def LineSt.recoverNext (x : LineSt) : Option Nat :=
  if allAddrs.any fun a => decide ((x.recAt a).state ≠ .absent) then
    nextAddr x.recoverPtr fun a => decide ((x.recAt a).state ≠ .absent)
  else nextAddr x.recoverPtr fun _ => true

/-! ### RUN and LOST (R26, R41, R42) -/

/-- A zone joins the output list at entry to RUN, unless it is on it (R26). -/
def LineSt.queueAtRun (x : LineSt) (z : Nat) (alarm : Bool) : LineSt :=
  if x.outAlarm.contains (.zone z) || x.outOrd.contains (.zone z) then x else x.queueZone z alarm

/-- The line enters RUN (R26, R42). -/
def State.enterRun (s : State) (l : Nat) : State :=
  let zs := s.zonesOfLine l
  let held (z : Nat) : Bool := decide ((s.zoneAt z).holder = .alarm)
  let s := s.onLine l fun x =>
    let x := { x with state := .run, since := s.now, phasePtr := 0, unanswered := 0, commands := 0 }
    let x := (zs.filter held).foldl (fun x z => x.queueAtRun z true) x
    (zs.filter fun z => !held z).foldl (fun x z => x.queueAtRun z false) x
  (s.raiseLine l .run).lineUp l

/-- The line enters LOST (R26, R41). -/
def State.enterLost (s : State) (l : Nat) : State :=
  let was := (s.lineAt l).state
  let s := s.onLine l fun x => { x with state := .lost, since := s.now, window := [], recoverPtr := 24 }
  let s := s.raiseLine l .lost
  if was = .run then s.lineDown l else s

/-- DISCOVERY ends (R26). -/
def State.discoveryEnds (s : State) (l : Nat) : State :=
  let s := s.onLine l fun x => { x.buildTable with searchPtr := 24 }
  if allAddrs.any fun a => ((s.lineAt l).recAt a).answering then s.enterRun l else s.enterLost l

/-- The line returns from LOST to RUN (R42). -/
def State.lineRecovers (s : State) (l : Nat) : State := (s.onLine l LineSt.buildTable).enterRun l

/-- The line enters FAULT (R24). -/
def State.enterFault (s : State) (l : Nat) : State :=
  (s.onLine l fun x => { x with state := .fault, since := s.now }).raiseLine l .fault

/-- POWERING_END (R24): 2 s after line power was applied the line enters DISCOVERY. -/
def execPoweringEnd (l : Fin 6) (s : State) : Result :=
  event s fun s =>
    let x := s.lineAt l.val
    if decide (x.state = .powering) && s.reached (x.since + 16000) then s.enterDiscovery l.val else s

end Sys2Proof.Machine
end

