-- ==== Sys2Proof/Machine/Proving.lean ====
section
/-! DEFINITION. Line proving and loop tests (chapter 3): the proving sequence, the receiver's judgement, the tests and their
ends, and the meanings of the commands of the chapter. -/

set_option autoImplicit false

namespace Sys2Proof.Machine

open Sys2Proof

/-! ### The proving sequence (R51, R52) -/

/-- The value at a position of the proving sequence (R51). -/
def seqValue (p : Nat) : Nat :=
  let p := p % 127
  if p < 112 then (73 * p + 5) % 256 else if p = 119 then 1 else 0

/-- Where a frame starts in the sequence (R51). -/
def framePos (n : Nat) : Nat := 16 * n % 127

/-- The place in a frame of an injected error: its first value, or the second where the first is the forced value (R52). -/
def injectPlace (n : Nat) : Nat := if framePos n = 119 then 1 else 0

/-- The values of a frame as sent, with the error at a place, if any (R51, R52). -/
def frameValues (n : Nat) (inj : Option Nat) : List Nat :=
  (List.range 16).map fun i =>
    let v := seqValue (framePos n + i)
    if inj = some i then (v + 128) % 256 else v

/-! ### The receiver (R53, R54) -/

/-- The position at which sixteen values stand in the sequence, if they do. -/
def findPlace (vs : List Nat) : Option Nat :=
  (List.range 127).find? fun p => vs = (List.range 16).map fun i => seqValue (p + i)

/-- The last `n` of a list. -/
def lastOf {α : Type} (n : Nat) (xs : List α) : List α := xs.drop (xs.length - n)

/-- A value taken in while searching. -/
def Prover.search (r : Prover) (v : Nat) : Prover :=
  let store := lastOf 16 (r.store ++ [v])
  let r := { r with compared := r.compared + 1, store := store }
  match findPlace store with
  | some p =>
    { r with expected := some ((p + 16) % 127), window := List.replicate 16 { errored := false, injected := false },
             inStepAt := some (r.inStepAt.getD r.compared) }
  | none => r

/-- The receiver with one more outcome in its window of the last 128, and the expected position moved on (R53). -/
def Prover.entered (r : Prover) (pos : Nat) (bad injected : Bool) : Prover :=
  { r with compared := r.compared + 1, errored := (if bad then r.errored + 1 else r.errored)
           window := lastOf 128 (r.window ++ [{ errored := bad, injected := bad && injected }]), expected := some ((pos + 1) % 127) }

/-- The receiver out of step: a slip is counted, from injection where the window holds an injected error (R53). -/
def Prover.slip (r : Prover) : Prover :=
  { r with expected := none, store := [], slips := r.slips + 1
           slipsInj := if r.window.any Outcome.injected then r.slipsInj + 1 else r.slipsInj }

/-- A value compared with the expected position; four errored outcomes among the last 128 are a slip (R53). -/
def Prover.compare (r : Prover) (pos v : Nat) (injected : Bool) : Prover :=
  let r := r.entered pos (decide (v ≠ seqValue pos)) injected
  if 4 ≤ (r.window.filter Outcome.errored).length then r.slip else r

/-- The receiver takes in one value (R53). -/
def Prover.take (r : Prover) (v : Nat) (injected : Bool) : Prover :=
  match r.expected with
  | none => r.search v
  | some pos => r.compare pos v injected

/-- The receiver takes in the values of a frame that came back, the place of the injected one known (R52, R53). -/
def Prover.takeAll (r : Prover) (vs : List Byte) : Prover :=
  (vs.zipIdx).foldl (fun x v => x.take v.1.toNat (decide (r.injPlace = some v.2))) r

/-- The judgement of a proving (R54). -/
def Prover.passes (r : Prover) : Bool :=
  match r.inStepAt with
  | some n => decide (n ≤ 256) && decide (r.slips = r.slipsInj)
  | none => false

/-! ### Frames and the test record -/

/-- The address a proving frame carries: that of a far loop, else 0 (R50). -/
def testAddr : TestMode → Nat
  | .far a => a
  | _ => 0

/-- A proving frame is sent: a pending injection goes into it and clears (R51, R52). -/
def LineSt.sendProving (x : LineSt) (now addr : Nat) : LineSt :=
  let r := x.prover
  let inj := if r.injPending then some (injectPlace r.frames) else none
  { x with
    sent := (Frame.proving addr ((frameValues r.frames inj).map byte)).bytes
    prover := { r with frames := r.frames + 1, startedAt := some (r.startedAt.getD now), injPending := false, injPlace := inj } }

/-- The test record counts a frame sent (R52, R60). -/
def TestRecord.countSent (t : TestRecord) (injected : Bool) : TestRecord :=
  { t with sent := t.sent + 16, injected := if injected then t.injected + 1 else t.injected }

/-- The receiver of a test takes in a frame's values, and the record shows its counts (R53, R60). -/
def LineSt.judge (x : LineSt) (now : Nat) (vs : List Byte) : LineSt :=
  let r := x.prover.takeAll vs
  { x with
    prover := r
    record := x.record.map fun t =>
      { t with compared := r.compared, errored := r.errored, slips := r.slips, slipsInj := r.slipsInj
               firstInStep :=
                 match t.firstInStep with
                 | some m => some m
                 | none => if r.inStepAt.isSome then some ((now - r.startedAt.getD now) / 8) else none } }

/-! ### The end of a test (R62) -/

/-- Notice TEST-END for a record's result. -/
def State.raiseTestEnd (s : State) (l : Nat) : State :=
  match (s.lineAt l).record with
  | some t => s.raise .testEnd (.testEnd l t.mode t.result t.cause)
  | none => s

/-- A test takes its result; a pending injection is cleared (R62). -/
def State.takeResult (s : State) (l : Nat) (r : TestResult) (cause : Option AbortCause) : State :=
  let s := s.onLine l fun x =>
    { x with prover := { x.prover with injPending := false }
             record := x.record.map fun t => { t with result := r, cause := cause } }
  s.raiseTestEnd l

/-- Whether the test in progress has no result yet. -/
def LineSt.unjudged (x : LineSt) : Bool := x.test.isSome && x.record.any fun t => decide (t.result = .running)

/-- A test is aborted by the alarm or a drill (R62): a far loop still sends its LOOP-DOWN frames. -/
def State.abortTest (s : State) (l : Nat) (cause : AbortCause) : State :=
  let x := s.lineAt l
  if !x.unjudged then s
  else
    let s := s.takeResult l .aborted (some cause)
    match x.test, x.record.map TestRecord.mode with
    | some t, some (.far _) =>
      match t.phase with
      | .loopDown _ => s
      | _ => s.onLine l fun x => { x with test := some { t with phase := .loopDown 0 } }
    | _, _ => s.enterDiscovery l

/-- A LINE RESTART ends a test without a result as ABORTED and takes the line to bring-up (R24, R62). -/
def State.restartLine (s : State) (l : Nat) : State :=
  (if (s.lineAt l).unjudged then s.takeResult l .aborted (some .lineRestart) else s).bringUp l

/-! ### Requests (R52, R55, R56, R60) -/

/-- A duration held at 1 to 60 s. -/
def clampDuration (n : Nat) : Nat := min (max n 1) 60

/-- Whether the address of a test exists (R55). -/
def modeExists : TestMode → Bool
  | .far a => decide (1 ≤ a) && decide (a ≤ 24)
  | _ => true

/-- Why a test cannot begin now, if it cannot (R55). -/
def State.testRefused (s : State) (l : Nat) : Option NoReason :=
  match (s.lineAt l).state with
  | .off | .proving | .powering | .fault => some .state
  | .test => some .busy
  | _ =>
    if (s.zonesOfLine l).any (fun z =>
        match (s.zoneAt z).holder with
        | .drill _ | .alarm => true
        | _ => false) ||
      decide (s.pnl.state ≠ .normal) || s.dsq.session.any (fun d => d.running && d.building.contains l) then some .state
    else none

/-- A test begins (R56, R60). -/
def State.beginTest (s : State) (l : Nat) (mode : TestMode) (seconds : Nat) : State :=
  let was := (s.lineAt l).state
  let s := s.onLine l fun x =>
    { x with
      state := .test
      since := s.now
      slot := s.slotFrom x
      prover := proverStart
      test := some { phase := match mode with | .far _ => .loopUp 0 | _ => .proving, upAt := none, echoed := false }
      record := some
        { mode := mode, seconds := seconds, begun := s.campus, sent := 0, compared := 0, errored := 0, injected := 0,
          echoesMissing := 0, firstInStep := none, slips := 0, slipsInj := 0, result := .running, cause := none } }
  if was = .run then s.lineDown l else s

/-- TEST (R55). -/
def execTest (p : Port) (op : Fin 16) (n : Nat) (mode : TestMode) (seconds : Option Nat) (s : State) : Result :=
  request p op .test .office s fun s =>
    if n < 6 ∧ modeExists mode then
      match s.testRefused n with
      | some r => (s, .no r)
      | none =>
        let d := seconds.getD 10
        (s.beginTest n mode (clampDuration d), if clampDuration d = d then .ok else .okClamped)
    else (s, .no .range)

/-- A TEST request without a mode reads the record (R60). -/
def execTestRead (p : Port) (op : Fin 16) (n : Nat) (s : State) : Result :=
  request p op .test .viewer s fun s =>
    if n < 6 then
      match (s.lineAt n).record with
      | some t => (s, .test t)
      | none => (s, .no .empty)
    else (s, .no .range)

/-- Whether the proving part of a test is in progress: that of a far loop begins in the slot after the fifth LOOP-UP (R58). -/
def State.provingPart (s : State) (x : LineSt) : Bool :=
  x.test.any fun t => decide (t.phase = .proving) || decide (t.phase = .loopUp 5) && s.slotReady x

/-- INJECT (R52). A line that does not exist is refused NO RANGE (R172). -/
def execInject (p : Port) (op : Fin 16) (n : Nat) (s : State) : Result :=
  request p op .inject .office s fun s =>
    if 6 ≤ n then (s, .no .range)
    else
      let x := s.lineAt n
      if decide (x.state = .test) && s.provingPart x then
        if x.prover.injPending then (s, .no .busy)
        else (s.setLine n { x with prover := { x.prover with injPending := true } }, .ok)
      else (s, .no .state)

/-! ### The frames of a test (R57, R58, R61) -/

/-- The frame a line in TEST sends in its next slot. -/
inductive TestSlot where
  | up (sent addr : Nat)
  | proving (mode : TestMode)
  | down (sent addr : Nat)
deriving DecidableEq, Repr

/-- Whether the proving part's duration has run out; it is counted from the start of the first proving frame (R57). -/
def State.durationOver (s : State) (x : LineSt) (t : TestRecord) : Bool :=
  match x.prover.startedAt with
  | some b => s.reached (b + 8000 * t.seconds)
  | none => false

/-- What a line in TEST sends in its next slot, if anything: the slot after the fifth LOOP-UP carries the first proving frame
(R58). -/
def State.testSlot (s : State) (x : LineSt) : Option TestSlot :=
  match x.test, x.record with
  | some t, some r =>
    let frame := if s.durationOver x r then none else some (.proving r.mode)
    match t.phase with
    | .loopUp k => if k < 5 then some (.up k (testAddr r.mode)) else frame
    | .proving => frame
    | .loopDown k => some (.down k (testAddr r.mode))
  | _, _ => none

/-- A LOOP-UP has been sent, the fifth at a noted time (R58). -/
def TestRun.upSent (t : TestRun) (k now : Nat) : TestRun :=
  { t with phase := .loopUp (k + 1), upAt := if k + 1 < 5 then t.upAt else some now }

/-- LOOP_UP (R58): one of five LOOP-UP frames; the proving part begins in the slot after the fifth. -/
def execLoopUp (l : Fin 6) (s : State) : Result :=
  event s fun s =>
    let x := s.lineAt l.val
    match s.slotReady x && decide (x.state = .test), s.testSlot x with
    | true, some (.up k a) =>
      s.setLine l.val
        { x with
          sent := (Frame.loopUp a).bytes
          slot := x.slot + 1
          test := x.test.map fun t => t.upSent k s.now }
    | _, _ => s

/-- A proving frame of the self-proving: one every 200 eighths from the entry to PROVING, forty in all (R24, R57). -/
def State.selfProve (s : State) (l : Nat) (back : List Byte) : State :=
  let x := s.lineAt l
  if decide (x.prover.frames < 40) && s.reached (x.since + 200 * x.prover.frames) then
    let x := x.sendProving s.now 0
    s.setLine l { x with prover := x.prover.takeAll back }
  else s

/-- A proving frame of a test (R57, R58, R61): in the inner loop its values come back at once, in a far loop its echo is
awaited, in a pass-through nothing comes back. The first one of a far loop ends its loop-up part. -/
def State.testProve (s : State) (l : Nat) (mode : TestMode) (back : List Byte) : State :=
  let x := s.lineAt l
  let inj := x.prover.injPending
  let x := x.sendProving s.now (testAddr mode)
  let x :=
    { x with slot := x.slot + 1, record := x.record.map fun t => t.countSent inj
             test := x.test.map fun t => { t with phase := .proving } }
  match mode with
  | .inner => s.setLine l (x.judge s.now back)
  | .far a => s.setLine l { x with transaction := some { addr := a, zone := none, since := s.now, proving := true } }
  | .pass => s.setLine l x

/-- PROVING_FRAME (R51, R57, R58, R61). -/
def execProvingFrame (l : Fin 6) (back : List Byte) (s : State) : Result :=
  event s fun s =>
    let x := s.lineAt l.val
    match x.state with
    | .proving => s.selfProve l.val back
    | .test =>
      match s.slotReady x, s.testSlot x with
      | true, some (.proving mode) => s.testProve l.val mode back
      | _, _ => s
    | _ => s

/-- A line whose proving has passed enters POWERING (R24): line power is applied, and its devices power up (R45). -/
def State.enterPowering (s : State) (l : Nat) : State :=
  (s.onLine l fun x => { x with state := .powering, since := s.now }).onDevices l FieldDev.cold

/-- PROVING_END (R24, R54, R57): the second of self-proving is over. -/
def execProvingEnd (l : Fin 6) (s : State) : Result :=
  event s fun s =>
    let x := s.lineAt l.val
    if decide (x.state = .proving) && s.reached (x.since + 8000) then
      if x.prover.passes then s.enterPowering l.val else s.enterFault l.val
    else s

/-- The far-loop frame awaiting its echo on a line, if there is one. -/
def LineSt.awaited (x : LineSt) : Option Transaction :=
  match x.transaction with
  | some t => if t.proving then some t else none
  | none => none

/-- A proving frame has brought no echo (R58): it counts until the test has its result (R62). -/
def LineSt.echoMissed (x : LineSt) : LineSt :=
  let y := { x with transaction := none }
  if x.unjudged then { y with record := y.record.map fun t => { t with echoesMissing := t.echoesMissing + 1 } } else y

/-- The echo that received bytes are, if they are one: from the tested address, and in the window (R58). -/
def echoOf (addr start : Nat) (bytes : List Byte) : Option (List Byte) :=
  match readFrame bytes with
  | some (.proving a vs) => if a = addr ∧ start ≤ 80 then some vs else none
  | _ => none

/-- ECHO (R58): what comes back to a far-loop frame; a wrong type or address, or a late start, is a missing echo. One that
comes after the proving part has ended NO-ECHO is still taken in, and does not change that result. -/
def execEcho (l : Fin 6) (start : Nat) (bytes : List Byte) (s : State) : Result :=
  event s fun s =>
    let x := s.lineAt l.val
    match x.awaited with
    | none => s
    | some t =>
      match echoOf t.addr start bytes with
      | none => s.setLine l.val x.echoMissed
      | some vs =>
        let y := { x with transaction := none, test := x.test.map fun (r : TestRun) => { r with echoed := r.echoed || s.provingPart x } }
        s.setLine l.val (if x.unjudged then y.judge s.now vs else y)

/-- ECHO_MISSING (R58): the echo window closes without an echo. -/
def execEchoMissing (l : Fin 6) (s : State) : Result :=
  event s fun s =>
    let x := s.lineAt l.val
    if x.awaited.isSome then s.setLine l.val x.echoMissed else s

/-- NO_ECHO_TIMEOUT (R58): no echo 1 s after the fifth LOOP-UP; the loop-down part begins. -/
def execNoEchoTimeout (l : Fin 6) (s : State) : Result :=
  event s fun s =>
    let x := s.lineAt l.val
    match x.test with
    | some t =>
      if s.provingPart x && !t.echoed && t.upAt.any fun b => s.reached (b + 8000) then
        s.setLine l.val { x with test := some { t with phase := .loopDown 0 } }
      else s
    | none => s

/-- The judgement of a test by R54. -/
def LineSt.verdict (x : LineSt) : TestResult := if x.prover.passes then .pass else .fail

/-- TEST_DURATION_END (R57, R58, R61): an inner loop takes its judgement, a pass-through ends SENT, a far loop goes on to its
loop-down part. The last frame must have come back. -/
def execTestDurationEnd (l : Fin 6) (s : State) : Result :=
  event s fun s =>
    let x := s.lineAt l.val
    match x.test, x.record with
    | some t, some r =>
      if s.provingPart x && s.durationOver x r && x.transaction.isNone then
        match r.mode with
        | .far _ => s.setLine l.val { x with test := some { t with phase := .loopDown 0 } }
        | .inner => (s.takeResult l.val x.verdict none).enterDiscovery l.val
        | .pass => (s.takeResult l.val .sent none).enterDiscovery l.val
      else s
    | _, _ => s

/-- LOOP_DOWN (R58, R62): one of three LOOP-DOWN frames; after the third the test has ended and DISCOVERY begins. A test
that has no result takes it: NO-ECHO where no echo came, else the judgement. -/
def execLoopDown (l : Fin 6) (s : State) : Result :=
  event s fun s =>
    let x := s.lineAt l.val
    match s.slotReady x && decide (x.state = .test), s.testSlot x with
    | true, some (.down k a) =>
      let s := s.setLine l.val
        { x with sent := (Frame.loopDown a).bytes, slot := x.slot + 1, test := x.test.map fun t => { t with phase := .loopDown (k + 1) } }
      if k + 1 < 3 then s
      else
        let s :=
          if x.unjudged then
            s.takeResult l.val (if x.test.any TestRun.echoed then x.verdict else .noEcho) none
          else s
        s.enterDiscovery l.val
    | _, _ => s

end Sys2Proof.Machine
end

