-- ==== Sys2Proof/Machine/Drill.lean ====
section
/-! DEFINITION. The Drill Sequencer (sections 9.3 to 9.7): sessions and their stages, the timing of the evacuation, the
records, the drill schedule, and the meanings of the drill commands. -/

set_option autoImplicit false

namespace Sys2Proof.Machine

open Sys2Proof

def State.withSession (s : State) (d : Option Session) : State := { s with dsq := { s.dsq with session := d } }

def State.onSession (s : State) (f : Session → Session) : State := s.withSession (s.dsq.session.map f)

/-- Have the panel link raise or lower DRILL-REQ (R150). -/
def State.setDrillReq (s : State) (b : Bool) : State := { s with pnl := { s.pnl with drillReq := b } }

/-! ### Programs and records (R157, R167) -/

/-- The filled stages of a program, stage 0 upward (R157). -/
def Drl.stagesOf (d : Drl) (n : Nat) : List Stage := (List.range 8).filterMap fun k => tget noneStart d.stages (n * 8 + k)

/-- A program's stages as a session copies them, each pattern's timeline with them (R159). -/
def State.copyStages (s : State) (n : Nat) : List StageCopy :=
  (s.store.live.drl.stagesOf n).map fun g => { stage := g, timeline := s.store.live.pat.timeline g.pattern }

def State.program (s : State) (n : Nat) : Program := tget programStart s.store.live.drl.programs n

/-- The number after the last record number given (R167); an unreadable one is that of the newest good record, or 0. -/
def Dsq.nextRecord (d : Dsq) : Nat :=
  let last := d.lastRecord.getD (((d.records.filter DrillRecord.good).head?.map DrillRecord.num).getD 0)
  if 65535 ≤ last then 1 else last + 1

/-- What a record is written from; it takes its number from the list (R167). -/
structure RecordSource where
  program : Nat
  origin : DrillOrigin
  start : CampusMs
  results : List BuildingResult
  drops : Nat
  reason : DrillReason
deriving DecidableEq, Repr

/-- Write a drill record now: newest first, at most 16 (R167). -/
def State.writeRecord (s : State) (x : RecordSource) : State :=
  let n := s.dsq.nextRecord
  let r : DrillRecord :=
    { num := n, program := x.program, origin := x.origin, start := x.start, finish := s.campus, results := x.results, drops := x.drops,
      reason := x.reason, good := true }
  { s with dsq := { s.dsq with records := (r :: s.dsq.records).take 16, lastRecord := some n } }

/-- The record a schedule entry writes when it is not run (R158). -/
def State.writeSkipped (s : State) (program : Nat) (building : List Nat) : State :=
  s.writeRecord
    { program := program, origin := .schedule, start := s.campus, drops := 0, reason := .skipped
      results := allLines.map fun l => if building.contains l then .notTimed else .notInDrill }

/-! ### Timing the evacuation (R164, R165) -/

/-- An expected clear station: its record has a LIN entry of kind CLEAR (R164). -/
def DevRec.expectedClear (r : DevRec) : Bool := r.listed && decide (r.kind = some .clear)

def LineSt.clearStations (x : LineSt) : List Nat := allAddrs.filter fun a => (x.recAt a).expectedClear

/-- The press count of a record's last report, if it has one. -/
def DevRec.presses? (r : DevRec) : Option Nat :=
  match r.report with
  | some (.clear n) => some n
  | _ => none

/-- The baselines of a building set (R164). -/
def State.baselines (s : State) (building : List Nat) : List Baseline :=
  building.flatMap fun l =>
    (s.lineAt l).clearStations.map fun a => { line := l, addr := a, count := ((s.lineAt l).recAt a).presses? }

def resultStart : Nat → Option BuildingResult := fun _ => none

def Session.resultOf (d : Session) (l : Nat) : Option BuildingResult := tget resultStart d.results l

def Session.setResult (d : Session) (l : Nat) (r : BuildingResult) : Session :=
  { d with results := tset resultStart d.results l (some r) }

/-- How a line without a result is judged at the end of the timing stage (R165). -/
def State.judgeLine (s : State) (l : Nat) : BuildingResult :=
  let x := s.lineAt l
  let lost (a : Nat) : Bool :=
    match (x.recAt a).state with
    | .missing | .absent | .foreign => true
    | _ => false
  if decide (x.state ≠ .run) || x.clearStations.all lost then .stationLost else .notCleared

/-- The timing stage ends: every line of the set without a result is judged (R165). -/
def State.endTiming (s : State) : State :=
  s.onSession fun d =>
    if d.timing = .running then
      let d := d.building.foldl (fun d l => if (d.resultOf l).isSome then d else d.setResult l (s.judgeLine l)) d
      { d with timing := .ended }
    else d

/-- The results of the six lines as a record holds them (R165, R167). -/
def Session.allResults (d : Session) : List BuildingResult :=
  allLines.map fun l => if d.building.contains l then (d.resultOf l).getD .notTimed else .notInDrill

/-! ### Ends and stages (R162, R163, R166) -/

def Holder.isDrill : Holder → Bool
  | .drill _ => true
  | _ => false

def Suspended.isDrill : Suspended → Bool
  | .drill _ => true
  | _ => false

/-- The session's record is written, its END told, and the DSQ is IDLE (R166). -/
def State.closeSession (s : State) (d : Session) (r : DrillReason) : State :=
  let n := s.dsq.nextRecord
  let s := s.writeRecord
    { program := d.program, origin := d.origin, start := d.start, results := d.allResults, drops := d.drops, reason := r }
  (s.raise .drill (.drill (.finish r n))).withSession none

/-- A session ends (R166). All that follows from the release of its zones (R101) comes before its trunk is released. -/
def State.endSession (s : State) (r : DrillReason) : State :=
  match s.dsq.session with
  | none => s
  | some _ =>
    let s := s.endTiming.onSession fun d => { d with signal := .silent, nextChange := none }
    let s := (s.releaseZones Holder.isDrill Suspended.isDrill allZones).settle
    let s := s.releaseDrillTrunk.setDrillReq false
    match s.dsq.session with
    | some d => s.closeSession d r
    | none => s

/-- At a RESTART a session ends with reason RESTART; no zone or trunk is released (R166, R168). -/
def State.restartSession (s : State) : State :=
  match s.endTiming.dsq.session with
  | some d => s.endTiming.closeSession d .restart
  | none => s

/-- The zones held by DRILL take the wanted output of the stage as it stands (R97, R162). -/
def State.drillOutputs (s : State) : State :=
  allZones.foldl
    (fun s z => match (s.zoneAt z).holder with | .drill m => s.setWanted z (s.drillBell m) (s.drillSpeaker m) | _ => s) s

/-- The DRILL trunk kept from the stage before plays the new stage's timeline (R107, R113). -/
def State.retuneDrill (s : State) : State :=
  match s.drillTrunk with
  | none => s
  | some t =>
    match s.trunkAt t with
    | some u =>
      let tone := (s.dsq.session.bind Session.current).map StageCopy.timeline
      s.setTrunk t (some { u with tone := tone, toneSince := some s.now })
    | none => s

/-- Whether a stage sounds: the signal source is the controller and its pattern is not empty (R162). -/
def Session.sounds (d : Session) (c : StageCopy) : Bool := decide (d.source = .controller) && !c.timeline.isEmpty

/-- The session as a stage begins (R162, R164). -/
def State.stageBegun (s : State) (d : Session) (k : Nat) (c : StageCopy) : Session :=
  let d :=
    { d with stage := k, stageSince := s.now, signal := if d.sounds c then .sounding else .silent, announced := false
             nextChange := if d.sounds c then (c.timeline.nextChange 0).map (· + s.now) else none }
  if c.stage.timing then { d with timing := .running, baselines := s.baselines d.building } else d

/-- A stage begins (R162): its signal is set, its trunk kept, sought or released, and its STAGE notice raised (R163). A grant pass
is made only where the stage needs a trunk that it lacks, or gives one up (R106, R110). -/
def State.beginStage (s : State) (k : Nat) : State :=
  match s.dsq.session with
  | none => s
  | some d =>
    match d.stages[k]? with
    | none => s
    | some c =>
      let s := s.withSession (some (s.stageBegun d k c))
      let s := (if s.stageSpeaks then s.retuneDrill else s.releaseDrillTrunk).drillOutputs
      let s := s.seekDrillTrunk.settle
      s.raiseStage.onSession fun d => { d with announced := true }

/-- The stage in progress ends (R163): the next begins, or the session ends COMPLETED. -/
def State.endStage (s : State) : State :=
  let s := s.endTiming
  match s.dsq.session with
  | none => s
  | some d => if d.stage + 1 < d.stages.length then s.beginStage (d.stage + 1) else s.endSession .completed

/-! ### Sessions begin (R159 to R161) -/

/-- The drill zone set with its copied media (R161). -/
def State.drillZones (s : State) (building : List Nat) : List (Nat × Medium) :=
  (allZones.filter fun z => (s.zoneCfg z).drillFollow && (s.zoneCfg z).line.any fun l => building.contains l).map fun z =>
    (z, (s.zoneCfg z).medium)

/-- The session enters RUNNING (R161). The tests in progress are aborted line by line in rising order, so that the highest line's
TEST-END is the latest detail (R182; DESIGN CHOICE, notes/assumptions/38.md). -/
def State.enterRunning (s : State) : State :=
  match s.dsq.session with
  | none => s
  | some d =>
    let s := s.withSession (some { d with running := true, start := s.campus })
    let s := (allLines.filter fun l => d.building.contains l).foldl (fun s l => s.abortTest l .drill) s
    let zs := s.drillZones d.building
    let s := s.onSession fun d => { d with zones := zs }
    ((s.claimDrill (zs.map Prod.fst)).settle).beginStage 0

/-- A session is created (R159). -/
def State.createSession (s : State) (origin : DrillOrigin) (program : Nat) (building : List Nat) : State :=
  s.withSession (some
    { running := false, origin := origin, program := program, source := (s.program program).source, stages := s.copyStages program,
      building := building, start := s.campus, ackAt := s.now + 8000 * s.drillSet.ackTimeout, zones := [], stage := 0,
      stageSince := s.now, signal := .silent, nextChange := none, announced := false, timing := .before, baselines := [],
      results := [], drops := 0 })

/-- The session enters REQUESTING (R160); with DRILL-ACK already active it runs at once. -/
def State.enterRequesting (s : State) : State :=
  let s := s.setDrillReq true
  if s.pnl.drillAck.debounced then s.enterRunning else s

/-- Why no drill can be started from the panel now, if it cannot (R160). Where several causes hold, STATE is told before TROUBLE and
TROUBLE before NO-PROGRAM (DESIGN CHOICE, notes/assumptions/49.md). -/
def State.panelDrillRefused (s : State) : Option RefuseCause :=
  if s.pnl.state ≠ .normal then some .state
  else if s.pnl.troubled then some .trouble
  else if (s.store.live.drl.stagesOf s.drillSet.program).isEmpty then some .noProgram
  else none

/-- DRILL-ACK rises (R160): a session in REQUESTING runs; with the DSQ IDLE it is a panel-initiated drill. -/
def State.drillAckRises (s : State) : State :=
  match s.dsq.session with
  | some d => if d.running then s else s.enterRunning
  | none =>
    match s.panelDrillRefused with
    | some c => s.raise .drill (.drill (.refused c))
    | none =>
      let n := s.drillSet.program
      ((s.createSession .panel n (s.program n).building).setDrillReq true).enterRunning

/-- DRILL-ACK falls (R166). -/
def State.drillAckFalls (s : State) : State :=
  match s.dsq.session with
  | some d => if d.running then s.endSession .abortedPanel else s
  | none => s

/-! ### Clear reports (R164) -/

/-- The baseline of a station, absent where none has been taken. -/
def Session.baselineOf (d : Session) (l addr : Nat) : Option Nat :=
  (d.baselines.find? fun b => decide (b.line = l) && decide (b.addr = addr)).bind Baseline.count

def Session.setBaseline (d : Session) (l addr n : Nat) : Session :=
  { d with baselines :=
      (d.baselines.filter fun b => !(decide (b.line = l) && decide (b.addr = addr))) ++ [{ line := l, addr := addr, count := some n }] }

/-- Whether a clear report of a line's address is taken (R164). -/
def State.takesReport (s : State) (d : Session) (l addr : Nat) : Bool :=
  let r := (s.lineAt l).recAt addr
  d.running && decide (d.timing = .running) && d.building.contains l && (d.resultOf l).isNone && r.expectedClear &&
    decide (r.state ≠ .unlisted) && decide (r.state ≠ .foreign)

/-- Whether every line of the building set is CLEARED (R163). -/
def Session.allCleared (d : Session) : Bool :=
  d.building.all fun l => match d.resultOf l with | some (.cleared _) => true | _ => false

/-- A building is CLEARED; the last clearing ends a CLEAR-ALL stage (R163, R164). -/
def State.clearLine (s : State) (d : Session) (l : Nat) : State :=
  let d := d.setResult l (.cleared ((s.now - d.stageSince) / 8))
  let s := s.withSession (some d)
  if d.allCleared && d.current.any fun c => decide (c.stage.advance = .clearAll) then s.endStage else s

/-- A clear station's report is handed to the sequencer (R48, R164). -/
def State.clearReport (s : State) (l addr n : Nat) : State :=
  match s.dsq.session with
  | none => s
  | some d =>
    if s.takesReport d l addr then
      match d.baselineOf l addr with
      | none => s.withSession (some (d.setBaseline l addr n))
      | some b => if n = b then s else s.clearLine d l
    else s

/-! ### The schedule (R158) -/

def Schedule.due (e : Schedule) : Stamp := { day := e.day, sec := e.time }

/-- `x` placed behind every entry that is not due later. -/
def insertDue (x : Schedule) : List Schedule → List Schedule
  | [] => [x]
  | y :: ys => if y.due.count ≤ x.due.count then y :: insertDue x ys else x :: y :: ys

/-- The filled schedule entries later than the mark and not later than the campus second, in order of due time, equal
times in rising index (R158). -/
def State.dueDrills (s : State) : List Schedule :=
  let all := (List.range 8).filterMap fun i => tget noneStart s.store.live.drl.schedule i
  (all.filter fun e => decide (s.dsq.mark.count < e.due.count) && decide (e.due.count ≤ s.tbu.stamp.count)).foldl
    (fun l e => insertDue e l) []

def State.scheduleBuilding (s : State) (e : Schedule) : List Nat := e.building.getD (s.program e.program).building

/-- A due entry starts a session where it may, else it writes its SKIPPED record (R158). -/
def State.takeSchedule (skips : Schedule → Bool) (s : State) (e : Schedule) : State :=
  if !skips e && s.dsq.session.isNone && decide (s.pnl.state = .normal) && !s.pnl.troubled &&
      !(s.store.live.drl.stagesOf e.program).isEmpty then
    (s.createSession .schedule e.program (s.scheduleBuilding e)).enterRequesting
  else s.writeSkipped e.program (s.scheduleBuilding e)

def State.setDrillMark (s : State) (m : Stamp) : State := { s with dsq := { s.dsq with mark := m } }

/-- The sequencer takes a boundary or step event whose gate has been found (R158). -/
def State.dsqTake (s : State) (skips : Schedule → Bool) : State :=
  let isOpen := gateOpen s.tbu.validity s.dsq.trustBackup
  let was := s.dsq.gateOpen
  let s := { s with dsq := { s.dsq with gateOpen := isOpen } }
  if isOpen && was then
    let s := s.dueDrills.foldl (State.takeSchedule skips) s
    s.setDrillMark (s.dsq.mark.later s.tbu.stamp)
  else s.setDrillMark s.tbu.stamp

/-- A second boundary event: the trust-backup copy is refreshed first (R117, R158). -/
def State.dsqBoundary (s : State) : State :=
  ({ s with dsq := { s.dsq with trustBackup := s.timeSet.trustBackup } }).dsqTake fun _ => false

/-- A step event: entries due earlier than the new second less the catch-up window are skipped (R158). -/
def State.dsqStep (s : State) : State :=
  s.dsqTake fun e => decide (e.due.count + s.timeSet.catchUp < s.tbu.stamp.count)

/-- Activation of DRL raises the mark (R79). -/
def State.dsqActivation (s : State) : State := s.setDrillMark (s.dsq.mark.later s.tbu.stamp)

/-- The sequencer's start-up values (R168); the records stay (R167). -/
def State.dsqStart (s : State) : State :=
  let trust := s.timeSet.trustBackup
  { s with dsq := { s.dsq with session := none, mark := s.tbu.stamp, trustBackup := trust, gateOpen := gateOpen s.tbu.validity trust } }

/-! ### Meanings -/

def drillOrigin : Port → DrillOrigin
  | .a => .portA
  | .b => .portB

/-- DRILL (R159). A program or line that does not exist is NO RANGE before the session, the panel and the stages are looked at
(DESIGN CHOICE, notes/assumptions/50.md). -/
def execDrill (p : Port) (op : Fin 16) (program : Nat) (building : Option (List Nat)) (s : State) : Result :=
  request p op .drill .safety s fun s =>
    if 8 ≤ program ∨ (building.getD []).any (fun l => decide (6 ≤ l)) then (s, .no .range)
    else if s.dsq.session.isSome ∨ s.pnl.state ≠ .normal ∨ s.pnl.troubled ∨ (s.store.live.drl.stagesOf program).isEmpty then
      (s, .no .state)
    else
      let set := setBelow 6 (building.getD (s.program program).building)
      ((s.createSession (drillOrigin p) program set).enterRequesting, .ok)

/-- ACK_TIMER_EXPIRY (R160). -/
def execAckTimerExpiry (s : State) : Result :=
  event s fun s =>
    match s.dsq.session with
    | some d => if !d.running && s.reached d.ackAt then s.endSession .panelTimeout else s
    | none => s

/-- The change of the sounding stage's timeline that has come (R162). -/
def State.drillChange (s : State) : State :=
  match s.dsq.session with
  | none => s
  | some d =>
    match d.current with
    | none => s
    | some c =>
      let next := (c.timeline.nextChange (s.now - d.stageSince)).map (· + d.stageSince)
      (s.withSession (some { d with nextChange := next })).drillOutputs

/-- DRILL_TIMELINE_CHANGE (R162). -/
def execDrillTimelineChange (s : State) : Result :=
  event s fun s =>
    match s.dsq.session with
    | some d => if d.running && d.nextChange.any s.reached then s.drillChange else s
    | none => s

/-- The elapsed time at which the stage in progress expires (R163). -/
def Session.stageUntil (d : Session) : Option Nat := d.current.map fun c => d.stageSince + 8000 * c.stage.duration

/-- STAGE_EXPIRY (R163). -/
def execStageExpiry (s : State) : Result :=
  event s fun s =>
    match s.dsq.session with
    | some d => if d.running && d.stageUntil.any s.reached then s.endStage else s
    | none => s

/-- ADVANCE (R163). -/
def execAdvance (p : Port) (op : Fin 16) (stage : Nat) (s : State) : Result :=
  request p op .advance .safety s fun s =>
    match s.dsq.session with
    | some d =>
      if d.running && decide (d.stage = stage) && d.current.any fun c => decide (c.stage.advance = .manual) then (s.endStage, .ok)
      else (s, .no .state)
    | none => (s, .no .state)

/-- ABORT (R166). -/
def execAbort (p : Port) (op : Fin 16) (s : State) : Result :=
  request p op .abort .safety s fun s =>
    if s.dsq.session.isSome then (s.endSession .abortedPort, .ok) else (s, .no .state)

/-- The DRILLREC NOW reply (R167). -/
def State.sessionReply (s : State) (d : Session) : SessionReply :=
  { session := d
    stageMsLeft := if d.running then d.stageUntil.map s.msUntil else none
    timers :=
      if d.timing = .running then
        (d.building.filter fun l => (d.resultOf l).isNone).map fun l => (l, s.msSince d.stageSince)
      else [] }

/-- DRILLREC (R167). -/
def execDrillrec (p : Port) (op : Fin 16) (index : Option Nat) (s : State) : Result :=
  request p op .drillrec .viewer s fun s =>
    match index with
    | none =>
      match s.dsq.session with
      | some d => (s, .session (s.sessionReply d))
      | none => (s, .no .empty)
    | some i =>
      if s.dsq.records.isEmpty then (s, .no .empty)
      else
        match s.dsq.records[i]? with
        | some r => (s, .record r)
        | none => (s, .no .range)

end Sys2Proof.Machine
end

