-- ==== Sys2Proof/Machine/Lines.lean ====
section
/-! DEFINITION. The work of a line in service (sections 2.2 to 2.7): the frames of the slots, replies and misses, the device
table, reconciliation, loss and recovery, and the meanings of the line commands. -/

set_option autoImplicit false

namespace Sys2Proof.Machine

open Sys2Proof

/-! ### What a slot carries (R25, R28, R29, R42) -/

/-- What the next slot of a line carries; a line in TEST has its own (Machine/Proving.lean). -/
inductive SlotWork where
  | time
  | discovery
  | output (z : Nat)
  | clock (addr : Nat)
  | poll (addr : Nat)
  | search
  | recovery
  | none
deriving DecidableEq, Repr

/-- The head of the output list (R43). -/
def LineSt.headOut (x : LineSt) : Option OutEntry := (x.outAlarm ++ x.outOrd).head?

/-- A slot of RUN other than slot 0 (R29, R34). -/
def LineSt.runSlot (x : LineSt) : SlotWork :=
  match x.headOut, decide (x.commands < 3) with
  | some (.zone z), true => .output z
  | some (.clock a), true => .clock a
  | _, _ =>
    match x.phase with
    | some a => if (x.recAt a).state = .absent then .search else .poll a
    | none => .search

/-- What the next slot carries. -/
def LineSt.slotWork (x : LineSt) : SlotWork :=
  match x.state with
  | .discovery => if x.slot = 0 then .time else .discovery
  | .run => if x.slot = 0 then .time else x.runSlot
  | .lost => if x.slot = 0 then .time else .recovery
  | _ => .none

/-- What a line's slot that has come carries. -/
def State.workOf (s : State) (x : LineSt) : SlotWork := if s.slotReady x then x.slotWork else .none

/-- A frame goes out in a slot. -/
def LineSt.send (x : LineSt) (f : Frame) : LineSt := { x with sent := f.bytes, slot := x.slot + 1 }

/-! ### Time frames and CLOCK-SET (R30, R32) -/

/-- Half the estimated round trip in milliseconds, rounded half up (R32). -/
def halfTrip (delay : Option Nat) : Nat := (delay.getD 0 + 8) / 16

/-- The time frame of a line second (R30, R32). -/
def State.timeFrameOf (s : State) (l : Nat) (x : LineSt) : Frame :=
  let t := writtenTime s.tbu.sec
  .time x.frameNo s.tbu.day t.hour t.minute t.second (halfTrip x.delay + (s.now - x.secondAt) / 8) x.stepPending
    (decide (s.pnl.state ≠ .normal)) (s.dsq.session.any fun d => d.running && d.building.contains l) s.tbu.unsync
    (decide (s.tbu.validity ≠ .valid))

/-- TIME_FRAME (R30): slot 0 of a line second in DISCOVERY, RUN or LOST. -/
def execTimeFrame (l : Fin 6) (s : State) : Result :=
  event s fun s =>
    let x := s.lineAt l.val
    match s.workOf x with
    | .time =>
      let y := x.send (s.timeFrameOf l.val x)
      s.setLine l.val { y with frameNo := (x.frameNo + 1) % 4096, lastFrame := some x.frameNo, stepPending := false }
    | _ => s

/-- The CLOCK-SET frame of an address at this moment (R32): a sum that reaches a second carries over. -/
def State.clockSetFrame (s : State) (x : LineSt) (addr : Nat) : Frame :=
  let ms := s.campus.ms % 1000 + halfTrip x.delay
  let at_ : Stamp := if 1000 ≤ ms then s.tbu.stamp.next else s.tbu.stamp
  let day := if 36524 < at_.day then 0 else at_.day
  let t := writtenTime at_.sec
  .clockSet addr day t.hour t.minute t.second (ms % 1000)

/-! ### Output commands (R29, R44) -/

/-- The head entry leaves the output list as its command is sent. -/
def LineSt.dropHead (x : LineSt) : LineSt :=
  match x.outAlarm with
  | _ :: es => { x with outAlarm := es }
  | [] => { x with outOrd := x.outOrd.tail }

/-- The hold-for of a zone's bell part (R44). -/
def State.holdFor (s : State) (bellUntil : Option Nat) : Nat :=
  match bellUntil with
  | none => 0
  | some t => min ((t - s.now + 7) / 8 + 500) 10500

/-- The zone output command of a zone at this moment (R44). -/
def State.outputFrame (s : State) (z : Nat) : Frame :=
  let r := s.zoneAt z
  .output z r.bellUntil.isSome (s.holdFor r.bellUntil) r.trunk

/-- ZONE_OUTPUT_COMMAND (R44). -/
def execZoneOutputCommand (l : Fin 6) (s : State) : Result :=
  event s fun s =>
    let x := s.lineAt l.val
    match s.workOf x with
    | .output z => s.setLine l.val { x.dropHead.send (s.outputFrame z) with commands := x.commands + 1 }
    | _ => s

/-- CLOCK_SET (R32, R44). -/
def execClockSet (l : Fin 6) (s : State) : Result :=
  event s fun s =>
    let x := s.lineAt l.val
    match s.workOf x with
    | .clock a => s.setLine l.val { x.dropHead.send (s.clockSetFrame x a) with commands := x.commands + 1 }
    | _ => s

/-! ### Polls (R34, R36, R42) -/

/-- The zone a poll of an address carries (R34). -/
def LineSt.pollZone (x : LineSt) (a : Nat) : Option Nat :=
  let r := x.recAt a
  match r.state with
  | .present | .missing | .faulty => r.zone
  | _ => none

/-- A poll goes out, and its reply is awaited. -/
def LineSt.sendPoll (x : LineSt) (now a : Nat) : LineSt :=
  let y := x.send (.poll a (x.pollZone a))
  { y with transaction := some { addr := a, zone := x.pollZone a, since := now, proving := false } }

/-- DISCOVERY_POLL (R25). -/
def execDiscoveryPoll (l : Fin 6) (s : State) : Result :=
  event s fun s =>
    let x := s.lineAt l.val
    match s.workOf x with
    | .discovery => s.setLine l.val { x.sendPoll s.now x.discAddr with discTry := x.discTry + 1 }
    | _ => s

/-- A poll slot of RUN takes the phase at the pointer and clears the count of commands (R29, R34). -/
def LineSt.tookPhase (x : LineSt) : LineSt := { x with phasePtr := (x.phasePtr + 1) % 32, commands := 0 }

/-- POLL (R34). -/
def execPoll (l : Fin 6) (s : State) : Result :=
  event s fun s =>
    let x := s.lineAt l.val
    match s.workOf x with
    | .poll a => s.setLine l.val (x.tookPhase.sendPoll s.now a)
    | _ => s

/-- SEARCH_POLL (R36): with an empty search set the slot carries no frame. -/
def execSearchPoll (l : Fin 6) (s : State) : Result :=
  event s fun s =>
    let x := s.lineAt l.val
    match s.workOf x with
    | .search =>
      match x.searchNext with
      | some a => s.setLine l.val { x.tookPhase.sendPoll s.now a with searchPtr := a }
      | none => let y := x.tookPhase; s.setLine l.val { y with slot := y.slot + 1 }
    | _ => s

/-- RECOVERY_POLL (R42). -/
def execRecoveryPoll (l : Fin 6) (s : State) : Result :=
  event s fun s =>
    let x := s.lineAt l.val
    match s.workOf x, x.recoverNext with
    | .recovery, some a => s.setLine l.val { x.sendPoll s.now a with recoverPtr := a }
    | _, _ => s

/-! ### Judging a reply (R25, R31, R38, R39) -/

/-- The delay estimate after a measurement (R31). -/
def moveDelay (delay : Option Nat) (start : Nat) : Nat :=
  let m := start - 16
  match delay with
  | none => m
  | some d => (Int.ofNat d + Int.tdiv (Int.ofNat m - Int.ofNat d) 8).toNat

/-- A valid reply as it is handed on (R38). -/
structure GoodReply where
  serial : Nat
  report : Report
deriving DecidableEq, Repr

/-- The valid reply that received bytes are to a poll of an address, if they are one (R38). -/
def replyOf (addr start : Nat) (bytes : List Byte) : Option GoodReply :=
  match readFrame bytes with
  | some (.reply a serial r) => if a = addr ∧ start ≤ 80 then some { serial := serial, report := r } else none
  | _ => none

/-- Whether a reply matches a record (R39). -/
def DevRec.fits (r : DevRec) (g : GoodReply) : Bool :=
  decide (r.kind = some (reportKind g.report)) && r.serial.all fun n => decide (n = g.serial)

/-- A record that becomes UNLISTED takes the kind and serial of the reply (R37). -/
def DevRec.unlist (r : DevRec) (g : GoodReply) : DevRec :=
  { r with state := .unlisted, kind := some (reportKind g.report), serial := some g.serial }

/-- A record that becomes PRESENT from a reply, or FAULTY where a speaker reports an amplifier fault (R39, R46). -/
def becomes (g : GoodReply) : DevState :=
  match g.report with
  | .speaker _ true => .faulty
  | _ => .present

/-- The record after a valid reply in DISCOVERY (R25). -/
def DevRec.discovered (r : DevRec) (g : GoodReply) : DevRec :=
  if r.listed then { r with state := if r.fits g then .present else .foreign } else r.unlist g

/-- The record after a valid reply outside DISCOVERY (R39). A listed record that is ABSENT has no row in the table of R39; one
whose discovery poll is answered in TEST stays ABSENT (DESIGN CHOICE, notes/assumptions/21.md). -/
def DevRec.replied (r : DevRec) (g : GoodReply) : DevRec :=
  match r.state with
  | .absent => if r.listed then r else r.unlist g
  | .unlisted => r
  | .present => if r.fits g then r else { r with state := .foreign }
  | .missing | .foreign => { r with state := if r.fits g then becomes g else .foreign }
  | .faulty => if r.fits g then r else { r with state := .foreign }

/-- A record changes on a line; a change of state is told, and so are the degraded flags (R39, R48). A record that returns to
ABSENT loses its kind with that change (R37), and R39 does not say which kind the notice carries: it is the one that the record had
(DESIGN CHOICE, notes/assumptions/54.md). -/
def State.changeRec (s : State) (l a : Nat) (r : DevRec) : State :=
  let old := (s.lineAt l).recAt a
  let s := s.onLine l fun x => x.setRec a r
  let s := s.refreshDegraded l
  if old.state = r.state then s else s.raiseDevice l a (if r.state = .absent then old.kind else r.kind) old.state r.state

/-- In DISCOVERY a record that becomes PRESENT, or stays ABSENT, is not told (R25). -/
def State.discoverRec (s : State) (l a : Nat) (r : DevRec) : State :=
  if r.state = .present ∨ r.state = .absent then (s.onLine l fun x => x.setRec a r).refreshDegraded l
  else s.changeRec l a r

/-! ### Reconciliation (R46, R47) -/

/-- Seconds between two seconds of day, counted round the day (R47). -/
def roundDay (a b : Nat) : Nat := min ((a + 86400 - b) % 86400) ((b + 86400 - a) % 86400)

/-- A bell unit or speaker node that disagrees with its zone's wanted output puts the zone on the output list (R46). -/
def State.reconcile (s : State) (l a : Nat) (report : Report) : State :=
  match ((s.lineAt l).recAt a).zone with
  | none => s
  | some z =>
    let r := s.zoneAt z
    let agrees :=
      match report with
      | .bell on => decide (on = r.bellUntil.isSome)
      | .speaker t _ => decide (t = r.trunk)
      | _ => true
    if agrees then s else s.onLine l fun x => x.queueZone z false

/-- The amplifier fault flag moves a speaker between PRESENT and FAULTY (R46). -/
def State.ampFlag (s : State) (l a : Nat) (fault : Bool) : State :=
  let r := (s.lineAt l).recAt a
  match r.state, fault with
  | .present, true => s.changeRec l a { r with state := .faulty }
  | .faulty, false => s.changeRec l a { r with state := .present }
  | _, _ => s

/-- A clock's displayed time is compared with campus time (R47): a clock that becomes FAULTY is told by CLOCK-OFF alone. -/
def State.correctClock (s : State) (l a h m sec : Nat) : State :=
  let x := s.lineAt l
  let r := x.recAt a
  if x.outOrd.contains (.clock a) || x.stepPending then s
  else if roundDay (h * 3600 + m * 60 + sec) s.tbu.sec ≤ 1 then
    s.changeRec l a { r with corrections := 0, state := if r.state = .faulty then .present else r.state }
  else if r.state = .present then
    if r.corrections < 3 then
      (s.changeRec l a { r with corrections := r.corrections + 1 }).onLine l fun x => x.queueClock a
    else
      ((s.onLine l fun x => x.setRec a { r with state := .faulty }).refreshDegraded l).raise .clockOff
        (.clockOff l a h m sec s.campus)
  else s

/-- The report of a PRESENT or FAULTY device: in RUN it is compared with what is wanted, and an amplifier fault flag is
taken in every state but DISCOVERY (R25, R39, R46, R47). -/
def State.compareReport (s : State) (l a : Nat) (report : Report) : State :=
  let r := (s.lineAt l).recAt a
  let running := decide ((s.lineAt l).state = .run)
  if r.state = .present ∨ r.state = .faulty then
    match report with
    | .clock h m sec => if running then s.correctClock l a h m sec else s
    | .bell _ => if running then s.reconcile l a report else s
    | .speaker _ fault =>
      if (s.lineAt l).state = .discovery then s else (if running then s.reconcile l a report else s).ampFlag l a fault
    | .clear _ => s
  else s

/-! ### Replies and misses (R25, R38, R41, R42) -/

/-- DISCOVERY goes on to the next address; after address 24 it ends (R25, R26). -/
def State.discoverNext (s : State) (l : Nat) : State :=
  let x := s.lineAt l
  if 24 ≤ x.discAddr then s.discoveryEnds l else s.setLine l { x with discAddr := x.discAddr + 1, discTry := 0 }

/-- The line's loss history takes a poll's outcome (R41, R42). -/
def State.lossHistory (s : State) (l : Nat) (good : Bool) : State :=
  let x := s.lineAt l
  match x.state with
  | .run =>
    let n := if good then 0 else x.unanswered + 1
    let s := s.setLine l { x with unanswered := n }
    if 32 ≤ n then s.enterLost l else s
  | .lost =>
    let w := lastOf 8 (x.window ++ [good])
    let s := s.setLine l { x with window := w }
    if 4 ≤ (w.filter id).length then s.lineRecovers l else s
  | _ => s

/-- Whether a poll belongs to work that DISCOVERY has abandoned: the line is in DISCOVERY, which has not polled yet. -/
def LineSt.stalePoll (x : LineSt) : Bool := decide (x.state = .discovery) && decide (x.discTry = 0)

/-- A valid reply moves the delay estimate and ends the transaction (R31, R38). -/
def LineSt.measured (x : LineSt) (start : Nat) : LineSt := { x with transaction := none, delay := some (moveDelay x.delay start) }

/-- The record's change on a valid reply, by the state of the line (R25, R39). -/
def State.judgeReply (s : State) (l a : Nat) (g : GoodReply) : State :=
  let r := (s.lineAt l).recAt a
  if (s.lineAt l).state = .discovery then s.discoverRec l a (r.discovered g) else s.changeRec l a (r.replied g)

/-- A clear station's report is handed to the Drill Sequencer (R48). -/
def State.handClear (s : State) (l a : Nat) (report : Report) : State :=
  match report with
  | .clear n => s.clearReport l a n
  | _ => s

/-- What every valid reply brings: the record's miss count and last report, and the delay (R31, R38). -/
def LineSt.reported (x : LineSt) (a start : Nat) (g : GoodReply) : LineSt :=
  (x.setRec a { x.recAt a with misses := 0, report := some g.report }).measured start

/-- A valid reply to a poll of an address (R38). One to a poll still open as DISCOVERY began is taken in and handed on, but
judges no address (DEDUCED, notes/assumptions/21.md). The record is judged by the reply before a clear station's report is
handed on, so that the report stands or falls by the state the reply has given the record (DESIGN CHOICE,
notes/assumptions/47.md). -/
def State.takeReply (s : State) (l a start : Nat) (g : GoodReply) : State :=
  let x := s.lineAt l
  let s := s.onLine l fun x => x.reported a start g
  if x.stalePoll then s.handClear l a g.report
  else
    let s := ((s.judgeReply l a g).compareReport l a g.report).handClear l a g.report
    if x.state = .discovery then s.discoverNext l else s.lossHistory l true

/-- The record after a miss outside DISCOVERY (R38, R39). -/
def DevRec.missed (r : DevRec) (limit : Nat) : DevRec :=
  if r.state = .absent then r
  else
    let r := { r with misses := min (r.misses + 1) 15 }
    if r.misses < limit then r
    else
      match r.state with
      | .present | .foreign | .faulty => { r with state := .missing, corrections := 0 }
      | .unlisted => { r with state := .absent, kind := none, serial := none }
      | _ => r

/-- The record of an address that gave no reply to its second try in DISCOVERY (R25). -/
def DevRec.undiscovered (r : DevRec) : DevRec := if r.listed then { r with state := .missing, misses := 2 } else r

/-- A poll brought no valid reply (R25, R38). -/
def State.takeMiss (s : State) (l a : Nat) : State :=
  let x := s.lineAt l
  let s := s.setLine l { x with transaction := none }
  if x.stalePoll then s
  else if x.state = .discovery then
    if x.discTry < 2 then s else (s.discoverRec l a (x.recAt a).undiscovered).discoverNext l
  else (s.changeRec l a ((x.recAt a).missed x.missLimit)).lossHistory l false

/-- The poll awaiting its reply on a line, if there is one. -/
def LineSt.polled (x : LineSt) : Option Transaction :=
  match x.transaction with
  | some t => if t.proving then none else some t
  | none => none

/-- REPLY (R38): what the field sends in answer to a poll; what fails a test is a miss. -/
def execReply (l : Fin 6) (start : Nat) (bytes : List Byte) (s : State) : Result :=
  event s fun s =>
    match (s.lineAt l.val).polled with
    | none => s
    | some t =>
      match replyOf t.addr start bytes with
      | some g => s.takeReply l.val t.addr start g
      | none => s.takeMiss l.val t.addr

/-- MISS (R38): the reply window of a poll closes. -/
def execMiss (l : Fin 6) (s : State) : Result :=
  event s fun s =>
    match (s.lineAt l.val).polled with
    | none => s
    | some t => s.takeMiss l.val t.addr

/-! ### Requests (R49, R187) -/

/-- LINE (R187): a LINE RESTART. -/
def execLine (p : Port) (op : Fin 16) (n : Nat) (s : State) : Result :=
  request p op .line .office s fun s => if n < 6 then (s.restartLine n, .ok) else (s, .no .range)

/-- DEVICE (R49). -/
def execDevice (p : Port) (op : Fin 16) (n addr : Nat) (s : State) : Result :=
  request p op .device .viewer s fun s =>
    if n < 6 ∧ 1 ≤ addr ∧ addr ≤ 24 then (s, .device ((s.lineAt n).recAt addr)) else (s, .no .range)

/-- A line in a LINES reply (R49). Before a line's first time frame it shows no frame number, and from a bring-up to the next
time frame the one before it (DESIGN CHOICE, notes/assumptions/37.md). -/
def State.lineReply (s : State) (l : Nat) : LineReply :=
  let x := s.lineAt l
  { state := x.state, enabled := x.enabled, delay := x.delay, frame := x.lastFrame
    unanswered := if x.state = .run then some x.unanswered else none
    recovered := if x.state = .lost then some (x.window.filter id).length else none
    counts := [DevState.absent, .present, .missing, .unlisted, .foreign, .faulty].map fun k =>
      (allAddrs.filter fun a => decide ((x.recAt a).state = k)).length
    outputs := x.outAlarm.length + x.outOrd.length
    degraded := (s.zonesOfLine l).filter fun z => (s.zoneAt z).degraded }

/-- LINES (R49). -/
def execLines (p : Port) (op : Fin 16) (s : State) : Result :=
  request p op .lines .viewer s fun s => (s, .lines (allLines.map s.lineReply))

end Sys2Proof.Machine
end

