-- ==== Sys2Proof/Machine/Panel.lean ====
section
/-! DEFINITION. The Panel Link (sections 9.1 and 9.2): debouncing and wiring supervision of the four inputs, the panel states,
the alarm takeover and its return, and the meanings of the panel commands. -/

set_option autoImplicit false

namespace Sys2Proof.Machine

open Sys2Proof

/-! ### Panel states (R152 to R155) -/

/-- The panel state changes, with its notice (R152). -/
def State.setPanel (s : State) (st : PanelState) (ev : PanelEvent) : State :=
  ({ s with pnl := { s.pnl with state := st } }).raisePanel ev

/-- The alarm-follow zones of the live ZON bank (R153). -/
def State.alarmFollowers (s : State) : List Nat := allZones.filter fun z => (s.zoneCfg z).alarmFollow

/-- The takeover of an ALARM that begins in NORMAL (R153): the alarm set, the tests in progress, the zones, the drill. The tests are
aborted line by line in rising order, so that the highest line's TEST-END is the latest detail (R182; DESIGN CHOICE,
notes/assumptions/38.md). -/
def State.takeover (s : State) : State :=
  let zs := s.alarmFollowers
  let s := { s with pnl := { s.pnl with alarmSet := zs } }
  let s := allLines.foldl (fun s l => s.abortTest l .alarm) s
  ((s.claimAlarm zs).settle).endSession .abortedAlarm

/-- The whole alarm set is claimed again as the state leaves ALARM-SILENCED (R154). -/
def State.reclaim (s : State) : State := s.claimAlarm s.pnl.alarmSet

def Holder.isAlarm : Holder → Bool
  | .alarm => true
  | _ => false

def Suspended.isAlarm : Suspended → Bool
  | .alarm => true
  | _ => false

/-- RESTORING ends (R155): the state is NORMAL and every zone of the alarm set is released as one release. -/
def State.restored (s : State) : State :=
  let s := { s with pnl := { s.pnl with restoreAt := none, alarmSet := [] } }
  (s.setPanel .normal .normal).releaseZones Holder.isAlarm Suspended.isAlarm allZones

/-- The state enters RESTORING (R155), from ALARM-SILENCED with the alarm set claimed again (R154); a restore delay of 0
expires at once. The trunks that the claim leaves without zones are released before the alarm's zones are (R99 step 5, R106), and
the grant pass that follows comes after those zones have been offered to the pages (DESIGN CHOICE, notes/assumptions/51.md). -/
def State.enterRestoring (s : State) (again : Bool) : State :=
  let d := s.drillSet.restoreDelay
  let kept := s.idleTrunks
  let s := ({ s with pnl := { s.pnl with restoreAt := some (s.now + 8000 * d) } }).setPanel .restoring .restoring
  let s := if again then s.reclaim else s
  if d = 0 then (s.releaseNow kept).restored else s

/-- ALARM rises (R152). -/
def State.alarmRises (s : State) : State :=
  match s.pnl.state with
  | .normal => (s.setPanel .alarm .alarm).takeover
  | .restoring => ({ s with pnl := { s.pnl with restoreAt := none } }).setPanel .alarm .alarm
  | _ => s

/-- ALARM falls (R152). -/
def State.alarmFalls (s : State) : State :=
  match s.pnl.state with
  | .alarm => s.enterRestoring false
  | .silenced => s.enterRestoring true
  | _ => s

/-- SILENCE becomes active (R152). -/
def State.silenceRises (s : State) : State :=
  match s.pnl.state, s.drillSet.silence with
  | .alarm, _ => s.setPanel .silenced .silenced
  | .silenced, .edge => (s.setPanel .alarm .alarm).reclaim
  | _, _ => s

/-- SILENCE becomes inactive (R152). -/
def State.silenceFalls (s : State) : State :=
  match s.pnl.state, s.drillSet.silence with
  | .silenced, .level => (s.setPanel .alarm .alarm).reclaim
  | _, _ => s

/-! ### Debounced values and wiring (R150, R151) -/

/-- The level a raw level shows, none for a broken circuit. -/
def rawValue : RawLevel → Option Bool
  | .inactive => some false
  | .active => some true
  | .broken => none

/-- The debounce time in eighths (R150). -/
def State.debounce (s : State) : Nat := 8 * s.drillSet.debounce

/-- The debounced value an input is being timed toward, where its raw level differs from it and its wiring is sound. -/
def InputSt.toward (i : InputSt) : Option Bool :=
  if i.fault then none
  else
    match rawValue i.raw with
    | some v => if v = i.debounced then none else some v
    | none => none

/-- Whether an input's wiring state is to change once its circuit has stood so for the debounce time. -/
def InputSt.rewires (i : InputSt) : Bool := decide (i.fault ≠ decide (i.raw = .broken))

/-- What a change of a debounced value sets going (R151, R152, R160, R166). -/
def State.inputChanged (s : State) (i : PanelInput) (v : Bool) : State :=
  match i, v with
  | .alarm, true => s.alarmRises
  | .alarm, false => s.alarmFalls
  | .trouble, _ => s.raisePanel .trouble
  | .silence, true => s.silenceRises
  | .silence, false => s.silenceFalls
  | .drillAck, true => s.drillAckRises
  | .drillAck, false => s.drillAckFalls

def State.onInput (s : State) (i : PanelInput) (f : InputSt → InputSt) : State :=
  { s with pnl := s.pnl.setInput i (f (s.pnl.input i)) }

/-- Whether the inputs are being sampled at start-up (R156): no debounced value or wiring state changes meanwhile. -/
def Pnl.sampling (x : Pnl) : Bool := x.sampleUntil.isSome

/-- A debounced value changes where its time has come (R150). -/
def State.debounceInput (s : State) (i : PanelInput) : State :=
  let x := s.pnl.input i
  match x.toward with
  | some v =>
    if !s.pnl.sampling && s.reached (x.levelSince + s.debounce) then
      (s.onInput i fun x => { x with debounced := v }).inputChanged i v
    else s
  | none => s

/-- A wiring state changes where its time has come; the trouble set changes with it (R150, R151). A level that differs from
the kept value when a fault ends is timed from then. -/
def State.rewireInput (s : State) (i : PanelInput) : State :=
  let x := s.pnl.input i
  if x.rewires && !s.pnl.sampling && s.reached (x.circuitSince + s.debounce) then
    (s.onInput i fun x => { x with fault := !x.fault, levelSince := s.now }).raisePanel .trouble
  else s

/-- A new debounce time set by an activation of DRL is taken at once (R150). -/
def State.redebounce (s : State) : State :=
  allInputs.foldl (fun s i => (s.debounceInput i).rewireInput i) s

/-! ### Meanings -/

/-- An input's circuit shows a raw level at an elapsed time (R150). -/
def InputSt.shows (x : InputSt) (raw : RawLevel) (now : Nat) : InputSt :=
  if raw = x.raw then x
  else
    { x with raw := raw, levelSince := now
             circuitSince := if decide (raw = .broken) = decide (x.raw = .broken) then x.circuitSince else now }

/-- INPUT_RAW_CHANGE (R150). The circuit shows its level whether or not the controller has power. -/
def execInputRawChange (i : PanelInput) (raw : RawLevel) (s : State) : Result :=
  if s.power then finish (s.onInput i fun x => x.shows raw s.now) else .next (s.onInput i fun x => x.shows raw s.now)

/-- DEBOUNCE_EXPIRY (R150). -/
def execDebounceExpiry (i : PanelInput) (s : State) : Result := event s fun s => s.debounceInput i

/-- WIRING_STATE_CHANGE (R150). -/
def execWiringStateChange (i : PanelInput) (s : State) : Result := event s fun s => s.rewireInput i

/-- RESTORE_TIMER_EXPIRY (R155). -/
def execRestoreTimerExpiry (s : State) : Result :=
  event s fun s => if decide (s.pnl.state = .restoring) && s.pnl.restoreAt.any s.reached then s.restored else s

/-- An input as the sample leaves it (R156): the level at the end, or wiring FAULT where it was broken throughout. -/
def InputSt.sampled (x : InputSt) (begun : Nat) : InputSt :=
  { x with debounced := (rawValue x.raw).getD false, fault := decide (x.raw = .broken) && decide (x.circuitSince ≤ begun) }

/-- The sample of the inputs is complete (R156): the sampled values are no events, but TROUBLE or a wiring fault is told,
and ALARM found active is taken over. The causes of trouble are told first and ALARM last, which is then the latest detail of
PANEL (R182; DESIGN CHOICE, notes/assumptions/38.md). -/
def State.sampleDone (s : State) (begun : Nat) : State :=
  let s := allInputs.foldl (fun s i => s.onInput i fun x => x.sampled begun) s
  let s := { s with pnl := { s.pnl with sampleUntil := none } }
  let s := s.pnl.causes.foldl (fun s _ => s.raisePanel .trouble) s
  if s.pnl.alarm.debounced then s.alarmRises else s

/-- PANEL_SAMPLE_COMPLETE (R156). -/
def execPanelSampleComplete (s : State) : Result :=
  event s fun s =>
    match s.pnl.sampleUntil with
    | some t => if s.reached t then s.sampleDone (t - s.debounce) else s
    | none => s

/-- The Panel Link as power-on or RESTART sets it (R156): sampling begins, the raw levels being what the circuits show. -/
def State.panelStart (s : State) : State :=
  let f (x : InputSt) : InputSt := { x with debounced := false, fault := false }
  { s with pnl :=
      { alarm := f s.pnl.alarm, trouble := f s.pnl.trouble, silence := f s.pnl.silence, drillAck := f s.pnl.drillAck, state := .normal,
        restoreAt := none, alarmSet := [], drillReq := false, sampleUntil := some (s.now + s.debounce) } }

end Sys2Proof.Machine
end

