-- ==== Sys2Proof/Machine/Timebase.lean ====
section
/-! DEFINITION. The Timebase Unit (chapter 1): the length of a second, second boundaries and steps with the events they send,
validity and the battery clock, the judging of reference marks, the discipline, and the meanings of its commands. -/

set_option autoImplicit false

namespace Sys2Proof.Machine

open Sys2Proof

def State.onTbu (s : State) (f : Tbu → Tbu) : State := { s with tbu := f s.tbu }

/-- A number held within plus and minus a limit. -/
def clampInt (lim x : Int) : Int := max (-lim) (min lim x)

/-! ### The length of a second (R2) -/

/-- The slew share of a second (R2). -/
def slewShare (r : Int) (limit : Nat) : Int := clampInt (Int.ofNat limit) r

/-- The drift share of a second, from the accumulator with the drift setting added (R2). -/
def driftShare (acc : Int) : Int := if 3600 ≤ acc then 1 else if acc ≤ -3600 then -1 else 0

/-- A second starts: its length is worked out (R2). -/
def Tbu.startSecond (t : Tbu) (limit : Nat) : Tbu :=
  let c := slewShare t.slew limit
  let acc := t.acc + t.drift
  let d := driftShare acc
  { t with slew := t.slew - c, acc := acc - 3600 * d, len := (8000 - c - d).toNat }

def State.startSecond (s : State) : State := s.onTbu fun t => t.startSecond s.timeSet.slewLimit

/-! ### The battery clock (R5) -/

/-- The battery clock is loaded with the campus second, or its mark cleared while validity is INVALID (R5). -/
def Tbu.loadBattery (t : Tbu) : Tbu :=
  if t.validity = .invalid then { t with battery := { t.battery with valid := false } }
  else { t with battery := { t.battery with time := t.stamp, valid := true } }

/-- The drift setting is written into the battery clock each time it changes (R5). -/
def Tbu.setDrift (t : Tbu) (d : Int) : Tbu := { t with drift := d, battery := { t.battery with drift := d } }

/-! ### Notices (R22) -/

/-- The discipline state: the one the Timebase Unit keeps, and FREE while the reference enable is NO, whatever it has kept over a
RESTART (R6, R12, R186; DESIGN CHOICE, notes/assumptions/32.md). -/
def State.discipline (s : State) : Discipline := if s.timeSet.refEnable then s.tbu.disc else .free

def Tbu.badCount (t : Tbu) : Nat := (t.history.filter fun g => !g).length

def State.raiseReference (s : State) (ev : RefEvent) (bad : Nat) : State :=
  s.raise .reference (.reference ev s.discipline bad)

/-! ### Second boundaries (R1, R3) -/

/-- Campus time one second on; the end of 2099 goes back to 2000 with validity INVALID (R1). -/
def Tbu.nextSecond (t : Tbu) : Tbu :=
  let t := { t with phase := 0 }
  if t.sec + 1 < 86400 then { t with sec := t.sec + 1 }
  else if t.day < 36524 then { t with day := t.day + 1, sec := 0 }
  else { t with day := 0, sec := 0, validity := .invalid }

/-- In HOLDOVER the holdover age counts a boundary; at 86,400 the reference is due to be found unsynchronised (R13). -/
def State.ageHoldover (s : State) : State :=
  if s.discipline = .holdover then
    s.onTbu fun t =>
      let n := min (t.holdoverAge + 1) 8640000
      { t with holdoverAge := n, unsyncDue := t.unsyncDue || decide (n = 86400) }
  else s

/-- The events of a second boundary reach the dispatcher, the sequencer and the lines (R3); the Page Controller only
shows times. -/
def State.boundaryEvents (s : State) : State := (((s.bdsBoundary).settle.dsqBoundary).settle).lineSeconds false

/-- SECOND_BOUNDARY (R1, R3): the second has run its length. -/
def execSecondBoundary (s : State) : Result :=
  event s fun s =>
    if s.tbu.phase < s.tbu.len then s
    else
      let s := (s.onTbu Tbu.nextSecond).startSecond
      (s.ageHoldover.onTbu Tbu.loadBattery).boundaryEvents

/-- The flag and the notice of a holdover age that has reached 86,400 (R13). Whatever clears the flag takes a flag that is
still due first, so neither is lost (DESIGN CHOICE, notes/assumptions/15.md). -/
def State.takeUnsync (s : State) : State :=
  if s.tbu.unsyncDue then
    (s.onTbu fun t => { t with unsync := true, unsyncDue := false }).raiseReference .unsync s.tbu.badCount
  else s

/-- HOLDOVER_AGE_UNSYNC (R13). -/
def execHoldoverAgeUnsync (s : State) : Result := event s State.takeUnsync

/-! ### Steps (R17) -/

/-- The amount of a step in milliseconds, held within a day either way (R17). -/
def stepAmount (before after : CampusMs) : Int :=
  clampInt 86400000 (Int.ofNat after.count - Int.ofNat before.count)

/-- A step once campus time, R and A are set (R15, R17, R19): the new second's length, the battery clock, the record, the
notice, and the step event to the dispatcher, the sequencer and the lines. -/
def State.stepTo (s : State) (before : CampusMs) (cause : StepCause) : State :=
  let s := (s.startSecond).onTbu Tbu.loadBattery
  let after := s.campus
  let r : StepRecord := { before := before, after := after, amount := stepAmount before after, cause := cause }
  let s := (s.onTbu fun t => { t with lastStep := some r }).raise .timeStep (.timeStep r)
  (((s.bdsStep before after).settle.dsqStep).settle).lineSeconds true

/-! ### Evaluations (R14 to R16) -/

/-- The drift nudge of a slew (R16). -/
def nudge (e8 : Int) (n : Nat) : Int := clampInt 64 (Int.tdiv (-e8 * 450) (Int.ofNat n))

/-- The effect of a slew evaluation on R, D and the nudge-ready flag (R16). -/
def Tbu.slewBy (t : Tbu) (e8 : Int) (n : Nat) : Tbu :=
  let locked := decide (t.disc = .locked)
  let t := { t with slew := -e8 }
  let t := if locked && t.nudgeReady then t.setDrift (clampInt 2880 (t.drift + nudge e8 n)) else t
  { t with nudgeReady := locked }

/-- The offset of campus time from a message, in eighths (R14). -/
def Tbu.offset (t : Tbu) (m : Stamp) : Int := Int.ofNat t.eighths - Int.ofNat (m.count * 8000)

/-- Whether an evaluation is a step (R14). -/
def Tbu.isStep (t : Tbu) (m : Stamp) (threshold : Nat) : Bool :=
  decide (1 < max t.day m.day - min t.day m.day) || decide (8 * threshold < (t.offset m).natAbs)

/-- An evaluation at a good mark (R14). -/
def State.evaluate (s : State) (m : Stamp) : State :=
  let s := s.takeUnsync.onTbu fun t => { t with validity := .valid, unsync := false }
  if s.tbu.isStep m s.timeSet.stepThreshold then
    let before := s.campus
    (s.onTbu fun t =>
      { t with day := m.day, sec := m.sec, phase := 0, slew := 0, acc := 0, nudgeReady := false }).stepTo before .reference
  else s.onTbu fun t => t.slewBy (t.offset m) s.timeSet.interval

/-! ### Discipline states (R12) -/

/-- A good mark reaches the discipline states (R12): the state and counts are those after the evaluation it brings. -/
def State.goodMark (s : State) (m : Stamp) : State :=
  match s.tbu.disc with
  | .locking => (s.evaluate m).onTbu fun t => { t with disc := .locked, goodMarks := 0 }
  | .locked =>
    let n := s.tbu.goodMarks + 1
    if s.timeSet.interval ≤ n then (s.evaluate m).onTbu fun t => { t with goodMarks := 0 }
    else s.onTbu fun t => { t with goodMarks := n }
  | _ => s

/-- The reference has qualified (R10, R12). The holdover age goes to 0 from FREE as it does from HOLDOVER; in FREE it stands above 0
only where a RESTART has kept it (DESIGN CHOICE, notes/assumptions/32.md). -/
def Tbu.qualify (t : Tbu) : Tbu :=
  { t with qualified := true, disc := .locking, holdoverAge := 0 }

/-- The reference is disqualified or absent (R10, R12): the history is emptied. -/
def Tbu.disqualify (t : Tbu) : Tbu :=
  let t := { t with history := [], consec := 0, qualified := false }
  match t.disc with
  | .locking => { t with disc := .free, goodMarks := 0, nudgeReady := false }
  | .locked => { t with disc := .holdover, holdoverAge := 0, goodMarks := 0, nudgeReady := false }
  | _ => t

/-- A slot is entered in the history (R10); a qualified reference with four bad slots is disqualified. -/
def State.enterSlot (s : State) (good : Bool) : State :=
  let s := s.onTbu fun t => { t with history := lastOf 128 (t.history ++ [good]), consec := if good then t.consec + 1 else 0 }
  let bad := s.tbu.badCount
  if s.tbu.qualified && decide (4 ≤ bad) then (s.onTbu Tbu.disqualify).raiseReference .disqualified bad
  else if !s.tbu.qualified && decide (16 ≤ s.tbu.consec) then (s.onTbu Tbu.qualify).raiseReference .qualified bad
  else s

/-! ### Marks and silence (R7 to R9) -/

/-- The chain after a mark: it arrives now, and its message stands where it is valid (R8). -/
def nextChain (c : Chain) (now : Nat) (m : Option Stamp) : Chain :=
  { msg := m.getD c.msg.next, at_ := now, slots := 0 }

/-- Whether a mark is good (R8). -/
def markGood (c : Chain) (now : Nat) (m : Option Stamp) : Bool :=
  decide (m = some c.msg.next) && decide (7920 ≤ now - c.at_) && decide (now - c.at_ ≤ 8080)

/-- A mark judged against the chain (R8): a good one is also offered to the discipline states, except the one that makes
the reference qualified (R12). -/
def State.judgeMark (s : State) (c : Chain) (m : Option Stamp) : State :=
  let good := markGood c s.now m
  let was := s.tbu.qualified
  let s := (s.onTbu fun t => { t with chain := some (nextChain c s.now m) }).enterSlot good
  match good && was, m with
  | true, some x => s.goodMark x
  | _, _ => s

/-- REFERENCE_MARK (R7, R8). -/
def execReferenceMark (date : WrittenDate) (time : WrittenTime) (s : State) : Result :=
  event s fun s =>
    if !s.timeSet.refEnable then s
    else
      let m := messageStamp date time
      match s.tbu.chain, m with
      | some c, _ => s.judgeMark c m
      | none, some x => s.onTbu fun t => { t with chain := some { msg := x, at_ := s.now, slots := 0 }, consec := 0 }
      | none, none => s

/-- The elapsed times since the chain's last mark at which silence slots are entered (R9). -/
def silenceAt (slots : Nat) : Option Nat :=
  match slots with
  | 0 => some 12000
  | 1 => some 20000
  | _ => none

/-- The chain, while the reference is enabled: with the enable NO there is none, and no silence reaches the discipline state (R7,
R12), whatever a RESTART has kept (notes/assumptions/32.md). -/
def State.watched (s : State) : Option Chain := if s.timeSet.refEnable then s.tbu.chain else none

/-- SILENCE_SLOT (R9): one bad slot after 1.5 s without a mark, and another after 2.5 s. -/
def execSilenceSlot (s : State) : Result :=
  event s fun s =>
    match s.watched with
    | none => s
    | some c =>
      match silenceAt c.slots with
      | none => s
      | some d =>
        if s.reached (c.at_ + d) then
          (s.onTbu fun t => { t with chain := some { c with slots := c.slots + 1 } }).enterSlot false
        else s

/-- REFERENCE_ABSENT (R9): 3 s without a mark. -/
def execReferenceAbsent (s : State) : Result :=
  event s fun s =>
    match s.watched with
    | none => s
    | some c =>
      if s.reached (c.at_ + 24000) then
        let bad := s.tbu.badCount
        (s.onTbu fun t => { t.disqualify with chain := none }).raiseReference .absent bad
      else s

/-! ### CAL activation (R11) -/

/-- The reference enable changed from YES to NO (R11). -/
def Tbu.disable (t : Tbu) : Tbu :=
  { t with chain := none, history := [], qualified := false, consec := 0, goodMarks := 0, holdoverAge := 0,
           nudgeReady := false, disc := .free }

/-- The reference enable changed from NO to YES (R7, R11): there is no chain, and the state that was FREE while the enable was NO
is FREE still, also where a RESTART had kept another (DESIGN CHOICE, notes/assumptions/32.md). -/
def Tbu.enable (t : Tbu) : Tbu := { t with chain := none, disc := .free }

/-- An activation of CAL as the TBU takes it, given the enable before (R11). -/
def State.tbuActivation (s : State) (was : Bool) : State :=
  match was, s.timeSet.refEnable with
  | true, false => s.onTbu Tbu.disable
  | false, true => s.onTbu Tbu.enable
  | _, _ => s

/-! ### Requests (R18 to R21) -/

/-- Whether the reference governs campus time (R18). -/
def State.governed (s : State) : Bool := decide (s.discipline = .locking) || decide (s.discipline = .locked)

/-- SETTIME (R18, R19). The discipline state is looked at before the date and time, so a date that does not exist is NO
STATE while the reference governs (DESIGN CHOICE, notes/assumptions/33.md). -/
def execSettime (p : Port) (op : Fin 16) (date : WrittenDate) (time : WrittenTime) (ms : Nat) (s : State) : Result :=
  request p op .settime .office s fun s =>
    if s.governed then (s, .no .state)
    else
      match messageStamp date time, decide (ms ≤ 999) with
      | some x, true =>
        let before := s.campus
        let s := s.takeUnsync.onTbu fun t =>
          { t with day := x.day, sec := x.sec, phase := 8 * ms, slew := 0, acc := 0, validity := .valid, unsync := false }
        (s.stepTo before .settime, .ok)
      | _, _ => (s, .no .range)

/-- ADJUST (R18, R20). -/
def execAdjust (p : Port) (op : Fin 16) (ms : Int) (s : State) : Result :=
  request p op .adjust .office s fun s =>
    if s.governed then (s, .no .state)
    else
      let m := clampInt 500 ms
      let sum := s.tbu.slew + 8 * m
      let r := clampInt 4000 sum
      (s.onTbu fun t => { t with slew := r, validity := .valid }, if m = ms ∧ r = sum then .ok else .okClamped)

/-- The TIME reply (R21). -/
def State.timeReply (s : State) : TimeReply :=
  let t := s.tbu
  { campus := s.campus, validity := t.validity, disc := s.discipline, enabled := s.timeSet.refEnable, qualified := t.qualified,
    bad := t.badCount, holdoverAge := t.holdoverAge, unsync := t.unsync, slew := t.slew, drift := t.drift, lastStep := t.lastStep }

/-- TIME (R21). -/
def execTime (p : Port) (op : Fin 16) (s : State) : Result :=
  request p op .time .viewer s fun s => (s, .time s.timeReply)

/-! ### Start-up (R6) -/

/-- The TBU at power-on (R6): from the battery clock where it can be trusted, else from 2000-01-01. -/
def Tbu.powerOn (t : Tbu) (good : Bool) (limit : Nat) : Tbu :=
  let ok := good && t.battery.valid
  let start : Stamp := if ok then t.battery.time else { day := 0, sec := 0 }
  let t : Tbu :=
    { t with day := start.day, sec := start.sec, phase := 0, validity := if ok then .backup else .invalid, slew := 0, acc := 0, chain := none, history := [], qualified := false,
             consec := 0, goodMarks := 0, holdoverAge := 0, unsyncDue := false, unsync := false, disc := .free, nudgeReady := false,
             lastStep := none, battery := { t.battery with valid := ok } }
  (t.setDrift (if ok then t.battery.drift else 0)).startSecond limit

end Sys2Proof.Machine
end

