-- ==== Sys2Proof/Machine/Operands.lean ====
section
/-! DEFINITION. The operand forms of the plan: what an entry of each table holds (R64), its value in an EMPTY bank (R65), and how
the fields of a WRITE become an entry (R71, R81, R176): whether they fit the table, whether what they name exists, and
which numbers are held at a limit. -/

set_option autoImplicit false

namespace Sys2Proof.Machine

open Sys2Proof

/-! ### EMPTY banks (R65) -/

def emptyPort : PortCfg :=
  { rights := List.replicate 8 .read, pageLimit := 60, quiet := [], mode := .callAll, holdTimeout := 120 }

/-- The plan with every region EMPTY (R65). -/
def emptyPlan : Plan :=
  { cal := { weekday := [], dayType := [], except := [],
             timeSet := { refEnable := false, interval := 64, slewLimit := 4, stepThreshold := 200, catchUp := 30, trustBackup := false } }
    dpl := { plan := [] }
    ovr := { entries := [] }
    pat := { repeats := [], segments := [], groups := [] }
    zon := { zones := [], zoneSet := { reserve := 1, pauseLength := 600, idleLimit := 15 } }
    drl := { programs := [], stages := [], schedule := [],
             drillSet := { program := 0, ackTimeout := 10, restoreDelay := 30, debounce := 50, silence := .level } }
    lin := { lines := [], devices := [], polls := [] }
    prt := { ports := { a := emptyPort, b := emptyPort }, operators := [], levels := [] } }

/-! ### Regions and entries (R63, R64) -/

/-- `dst` with one region taken from `src`. -/
def copyRegion (r : Region) (src dst : Plan) : Plan :=
  match r with
  | .cal => { dst with cal := src.cal }
  | .dpl => { dst with dpl := src.dpl }
  | .ovr => { dst with ovr := src.ovr }
  | .pat => { dst with pat := src.pat }
  | .zon => { dst with zon := src.zon }
  | .drl => { dst with drl := src.drl }
  | .lin => { dst with lin := src.lin }
  | .prt => { dst with prt := src.prt }

/-- Whether a region is the same in two banks. -/
def sameRegion (r : Region) (x y : Plan) : Bool := decide (copyRegion r x y = y)

/-- The entry of a table at an index. -/
def entryAt (p : Plan) (t : Tbl) (i : Nat) : Entry :=
  match t with
  | .weekday => .weekday (tget weekdayStart p.cal.weekday i)
  | .daytype => .dayType (tget dayTypeStart p.cal.dayType i)
  | .except => .except (tget noneStart p.cal.except i)
  | .timeset => .timeSet p.cal.timeSet
  | .plan => .plan (tget noneStart p.dpl.plan i)
  | .override => .override (tget noneStart p.ovr.entries i)
  | .pattern => .pattern (tget repeatStart p.pat.repeats i)
  | .segment => .segment (tget noneStart p.pat.segments i)
  | .group => .group (tget groupStart p.pat.groups i)
  | .zone => .zone (tget zoneCfgStart p.zon.zones i)
  | .zoneset => .zoneSet p.zon.zoneSet
  | .program => .program (tget programStart p.drl.programs i)
  | .stage => .stage (tget noneStart p.drl.stages i)
  | .schedule => .schedule (tget noneStart p.drl.schedule i)
  | .drillset => .drillSet p.drl.drillSet
  | .line => .line (tget lineCfgStart p.lin.lines i)
  | .device => .device (tget noneStart p.lin.devices i)
  | .poll => .poll (tget noneStart p.lin.polls i)
  | .portset => .portSet (p.prt.ports.get (if i = 0 then .a else .b))
  | .operator => .operator (tget operatorStart p.prt.operators i)
  | .level => .level (tget levelStart p.prt.levels i)

/-- The plan with an entry put at an index of its own table. -/
def putEntry (p : Plan) (i : Nat) (e : Entry) : Plan :=
  match e with
  | .weekday v => { p with cal := { p.cal with weekday := tset weekdayStart p.cal.weekday i v } }
  | .dayType v => { p with cal := { p.cal with dayType := tset dayTypeStart p.cal.dayType i v } }
  | .except v => { p with cal := { p.cal with except := tset noneStart p.cal.except i v } }
  | .timeSet v => { p with cal := { p.cal with timeSet := v } }
  | .plan v => { p with dpl := { plan := tset noneStart p.dpl.plan i v } }
  | .override v => { p with ovr := { entries := tset noneStart p.ovr.entries i v } }
  | .pattern v => { p with pat := { p.pat with repeats := tset repeatStart p.pat.repeats i v } }
  | .segment v => { p with pat := { p.pat with segments := tset noneStart p.pat.segments i v } }
  | .group v => { p with pat := { p.pat with groups := tset groupStart p.pat.groups i v } }
  | .zone v => { p with zon := { p.zon with zones := tset zoneCfgStart p.zon.zones i v } }
  | .zoneSet v => { p with zon := { p.zon with zoneSet := v } }
  | .program v => { p with drl := { p.drl with programs := tset programStart p.drl.programs i v } }
  | .stage v => { p with drl := { p.drl with stages := tset noneStart p.drl.stages i v } }
  | .schedule v => { p with drl := { p.drl with schedule := tset noneStart p.drl.schedule i v } }
  | .drillSet v => { p with drl := { p.drl with drillSet := v } }
  | .line v => { p with lin := { p.lin with lines := tset lineCfgStart p.lin.lines i v } }
  | .device v => { p with lin := { p.lin with devices := tset noneStart p.lin.devices i v } }
  | .poll v => { p with lin := { p.lin with polls := tset noneStart p.lin.polls i v } }
  | .portSet v => { p with prt := { p.prt with ports := p.prt.ports.set (if i = 0 then .a else .b) v } }
  | .operator v => { p with prt := { p.prt with operators := tset operatorStart p.prt.operators i v } }
  | .level v => { p with prt := { p.prt with levels := tset levelStart p.prt.levels i v } }

/-- Whether an entry that may be empty is (R64). -/
def Entry.isEmpty : Entry → Bool
  | .except none | .plan none | .override none | .segment none | .stage none | .schedule none | .device none => true
  | _ => false

/-! ### Words and numbers of a field -/

def yesNo : FieldWord → Option Bool
  | .yes => some true
  | .no => some false
  | _ => none

def entryMediumOf : FieldWord → Option EntryMedium
  | .zoneDefault => some .zoneDefault
  | .sounderOnly => some .sounderOnly
  | .speakerOnly => some .speakerOnly
  | _ => none

def mediumOf : FieldWord → Option Medium
  | .sounder => some .sounder
  | .speaker => some .speaker
  | .both => some .both
  | _ => none

def policyOf : FieldWord → Option Policy
  | .immediate => some .immediate
  | .pause => some .pause
  | .finish => some .finish
  | _ => none

def limitActionOf : FieldWord → Option LimitAction
  | .force => some .force
  | .drop => some .drop
  | _ => none

def signalSourceOf : FieldWord → Option SignalSource
  | .controller => some .controller
  | .panel => some .panel
  | _ => none

def stageKindOf : FieldWord → Option StageKind
  | .alert => some .alert
  | .evacuate => some .evacuate
  | .hold => some .hold
  | .back => some .back
  | _ => none

def advanceOf : FieldWord → Option AdvanceMode
  | .timed => some .timed
  | .manual => some .manual
  | .clearAll => some .clearAll
  | _ => none

def setClear : FieldWord → Option Bool
  | .set => some true
  | .clear => some false
  | _ => none

def silenceModeOf : FieldWord → Option SilenceMode
  | .level => some .level
  | .edge => some .edge
  | _ => none

def autoOf : FieldWord → Option Bool
  | .explicit => some false
  | .auto => some true
  | _ => none

def devKindOf : FieldWord → Option DevKind
  | .clock => some .clock
  | .bell => some .bell
  | .speaker => some .speaker
  | .clear => some .clear
  | _ => none

def opClassOf : FieldWord → Option OpClass
  | .none => some .none
  | .viewer => some .viewer
  | .staff => some .staff
  | .office => some .office
  | .safety => some .safety
  | _ => none

def attModeOf : FieldWord → Option AttMode
  | .callAll => some .callAll
  | .urgentOnly => some .urgentOnly
  | .closed => some .closed
  | _ => none

def noticeLevelOf : FieldWord → Option NoticeLevel
  | .routine => some .routine
  | .urgent => some .urgent
  | _ => none

/-- A number held at the nearer limit of its range (R71). -/
def hold (lo hi n : Nat) : Nat := min (max n lo) hi

/-- Whether a number lies outside its range. -/
def outside (lo hi n : Nat) : Bool := decide (n < lo) || decide (hi < n)

/-- Whether a label can be read: 1 to 12 printable characters (R87). -/
def labelOk (cs : List Nat) : Bool :=
  decide (1 ≤ cs.length) && decide (cs.length ≤ 12) && cs.all fun c => decide (32 ≤ c) && decide (c ≤ 126)

/-- A label field: a label that can be read, whatever else its characters might be, or a hyphen for none. -/
def labelOf (f : Field) : Option (Option (List Nat)) :=
  match f with
  | .hyphen => some none
  | f => if labelOk (fieldText f) then some (some (fieldText f)) else none

/-- A set of zones or lines, a hyphen being the empty set and a name alone a set of one (R176). -/
def zonesOf : Field → Option (List Nat)
  | .hyphen => some []
  | .zone z => some [z]
  | .zones zs => some zs
  | _ => none

def linesOf : Field → Option (List Nat)
  | .hyphen => some []
  | .line l => some [l]
  | .lines ls => some ls
  | _ => none

/-- A set of notice kinds; two of the kinds have the name of a word. -/
def kindsOf : Field → Option (List NoticeKind)
  | .hyphen => some []
  | .kinds ks => some ks
  | .word .panel => some [.panel]
  | .word .hold => some [.hold]
  | _ => none

/-- A zone's line: a line or NONE. -/
def zoneLineOf : Field → Option (Option Nat)
  | .line n => some (some n)
  | .word .none => some none
  | _ => none

/-- An optional zone or number, absent as a hyphen. -/
def optZone : Field → Option (Option Nat)
  | .zone n => some (some n)
  | .hyphen => some none
  | _ => none

def optNum : Field → Option (Option Nat)
  | .num n => some (some n)
  | .hyphen => some none
  | _ => none

/-- A schedule entry's building-set override: at least one line, or absent (R157). -/
def optLines : Field → Option (Option (List Nat))
  | .lines (l :: ls) => some (some (l :: ls))
  | .line l => some (some [l])
  | .hyphen => some none
  | _ => none

/-! ### The entry a WRITE gives -/

/-- What the fields of a WRITE give where they fit their table: the entry where all it names exists, and whether a number
was held at a limit. -/
structure Written where
  entry : Option Entry
  clamped : Bool
deriving DecidableEq, Repr

def written (found : Bool) (clamped : Bool) (e : Entry) : Option Written :=
  some { entry := if found then some e else none, clamped := clamped }

/-- An entry whose date or time must exist (R81). -/
def writtenIf (e : Option Entry) (found clamped : Bool) : Option Written :=
  some { entry := if found then e else none, clamped := clamped }

/-- A calendar exception (R83). -/
def exceptOf (a b : WrittenDate) (t : Nat) : Option Entry :=
  match dayNumber a, dayNumber b with
  | some x, some y => some (.except (some { first := x, last := y, dayType := t }))
  | _, _ => none

/-- A plan entry (R87). -/
def planOf (t : WrittenTime) (g p : Nat) (m : EntryMedium) (l : Option (List Nat)) : Option Entry :=
  (secondOf t).map fun x => .plan (some { time := x, group := g, pattern := p, medium := m, label := l })

/-- An override (R89). -/
def overrideOf (d : WrittenDate) (t : WrittenTime) (a : OverrideAction) : Option Entry :=
  (messageStamp d t).map fun x => .override (some { day := x.day, time := x.sec, action := a })

/-- A schedule entry (R157). -/
def scheduleOf (d : WrittenDate) (t : WrittenTime) (p : Nat) (b : Option (List Nat)) : Option Entry :=
  (messageStamp d t).map fun x => .schedule (some { day := x.day, time := x.sec, program := p, building := b.map (setBelow 6) })

/-- The fields of CAL's tables. -/
def writeCal (t : Tbl) (fs : List Field) : Option Written :=
  match t, fs with
  | .weekday, [.num n] => written (n < 16) false (.weekday n)
  | .daytype, [.dayPlan n] => written (n < 16) false (.dayType (some n))
  | .daytype, [.word .noBells] => written true false (.dayType none)
  | .except, [.date a, .date b, .num n] => writtenIf (exceptOf a b n) (n < 16) false
  | .timeset, [.word e, .num n, .num l, .num h, .num c, .word k] => do
    let e ← yesNo e
    let k ← yesNo k
    written true (outside 16 1024 n || outside 1 8 l || outside 1 500 h || outside 0 120 c)
      (.timeSet { refEnable := e, interval := hold 16 1024 n, slewLimit := hold 1 8 l, stepThreshold := hold 1 500 h,
                  catchUp := hold 0 120 c, trustBackup := k })
  | _, _ => none

/-- The fields of DPL's and OVR's tables. -/
def writeDays (t : Tbl) (fs : List Field) : Option Written :=
  match t, fs with
  | .plan, [.time t, .group g, .pattern p, .word m, l] => do
    let m ← entryMediumOf m
    let l ← labelOf l
    writtenIf (planOf t g p m l) (decide (g < 16) && decide (p < 16)) false
  | .override, [.date d, .time t, .word .add, .group g, .pattern p, .word m] => do
    let m ← entryMediumOf m
    writtenIf (overrideOf d t (.add g p m)) (decide (g < 16) && decide (p < 16)) false
  | .override, [.date d, .time t, .word .omit, .group g] => writtenIf (overrideOf d t (.omit g)) (g < 16) false
  | _, _ => none

/-- The fields of PAT's tables. -/
def writePat (t : Tbl) (fs : List Field) : Option Written :=
  match t, fs with
  | .pattern, [.num n] => written true (outside 1 10 n) (.pattern (hold 1 10 n))
  | .segment, [.num a, .num b] =>
    written true (outside 25 10000 a || outside 0 10000 b) (.segment (some { on := hold 25 10000 a, off := hold 0 10000 b }))
  | .group, [f] => do
    let zs ← zonesOf f
    written (zs.all fun z => decide (z < 32)) false (.group (setBelow 32 zs))
  | _, _ => none

/-- The fields of ZON's tables. -/
def writeZon (t : Tbl) (fs : List Field) : Option Written :=
  match t, fs with
  | .zone, [l, .word m, .word p, .num d, .word a, .word x, .word y, .word z] => do
    let l ← zoneLineOf l
    let m ← mediumOf m
    let p ← policyOf p
    let a ← limitActionOf a
    let x ← yesNo x
    let y ← yesNo y
    let z ← yesNo z
    written (l.all fun n => decide (n < 6)) (outside 0 120 d)
      (.zone { line := l, medium := m, policy := p, maxDefer := hold 0 120 d, limit := a, alarmFollow := x, drillFollow := y,
               pageAllowed := z })
  | .zoneset, [.num r, .num p, .num i] =>
    written true (outside 0 2 r || outside 300 2000 p || outside 10 60 i)
      (.zoneSet { reserve := hold 0 2 r, pauseLength := hold 300 2000 p, idleLimit := hold 10 60 i })
  | _, _ => none

/-- The fields of DRL's tables. -/
def writeDrl (t : Tbl) (fs : List Field) : Option Written :=
  match t, fs with
  | .program, [b, .word k] => do
    let ls ← linesOf b
    let k ← signalSourceOf k
    written (ls.all fun l => decide (l < 6)) false (.program { building := setBelow 6 ls, source := k })
  | .stage, [.word k, .pattern p, .num d, .word a, .word f] => do
    let k ← stageKindOf k
    let a ← advanceOf a
    let f ← setClear f
    written (p < 16) (outside 1 3600 d)
      (.stage (some { kind := k, pattern := p, duration := hold 1 3600 d, advance := a, timing := f }))
  | .schedule, [.date d, .time t, .program p, b] => do
    let b ← optLines b
    writtenIf (scheduleOf d t p b) (decide (p < 8) && b.all fun ls => ls.all fun l => decide (l < 6)) false
  | .drillset, [.program p, .num a, .num r, .num d, .word m] => do
    let m ← silenceModeOf m
    written (p < 8) (outside 1 30 a || outside 0 300 r || outside 10 500 d)
      (.drillSet { program := p, ackTimeout := hold 1 30 a, restoreDelay := hold 0 300 r, debounce := hold 10 500 d, silence := m })
  | _, _ => none

/-- The fields of LIN's tables. -/
def writeLin (t : Tbl) (fs : List Field) : Option Written :=
  match t, fs with
  | .line, [.word e, .word a, .num m] => do
    let e ← yesNo e
    let a ← autoOf a
    written true (outside 2 15 m) (.line { enable := e, auto := a, missLimit := hold 2 15 m })
  | .device, [.word k, z, n] => do
    let k ← devKindOf k
    let z ← optZone z
    let n ← optNum n
    written (z.all fun x => decide (x < 32)) (n.any fun x => outside 0 999999 x)
      (.device (some { kind := k, zone := z, serial := n.map (hold 0 999999) }))
  | .poll, [.num a] => written (decide (1 ≤ a) && decide (a ≤ 24)) false (.poll (some a))
  | .poll, [.word .empty] => written true false (.poll none)
  | _, _ => none

/-- The fields of PRT's tables. -/
def writePrt (t : Tbl) (fs : List Field) : Option Written :=
  match t, fs with
  | .portset, [.rights rs, .num l, k, .word m, .num h] => do
    let ks ← kindsOf k
    let m ← attModeOf m
    if rs.length = 8 then
      written true (outside 5 600 l || outside 30 600 h)
        (.portSet { rights := rs, pageLimit := hold 5 600 l, quiet := allKinds.filter fun x => ks.contains x, mode := m,
                    holdTimeout := hold 30 600 h })
    else none
  | .operator, [.word c] => do
    let c ← opClassOf c
    written true false (.operator c)
  | .level, [.word l] => do
    let l ← noticeLevelOf l
    written true false (.level l)
  | _, _ => none

/-- What the fields of a WRITE give at a table; none where their number or shapes do not fit it (R176). -/
def writeFields (t : Tbl) (fs : List Field) : Option Written :=
  match tableRegion t with
  | .cal => writeCal t fs
  | .dpl | .ovr => writeDays t fs
  | .pat => writePat t fs
  | .zon => writeZon t fs
  | .drl => writeDrl t fs
  | .lin => writeLin t fs
  | .prt => writePrt t fs

/-! ### The fields a READ gives back (R72, R81, R176) -/

def yesNoField (b : Bool) : Field := .word (if b then .yes else .no)

/-- A set's field: a hyphen where it is empty. -/
def setField {α : Type} (f : List α → Field) (xs : List α) : Field := if xs.isEmpty then .hyphen else f xs

def optField {α : Type} (f : α → Field) (x : Option α) : Field := (x.map f).getD .hyphen

def dateField (day : Nat) : Field := .date (writtenDate day)

def timeField (sec : Nat) : Field := .time (writtenTime sec)

def entryMediumWord : EntryMedium → FieldWord
  | .zoneDefault => .zoneDefault
  | .sounderOnly => .sounderOnly
  | .speakerOnly => .speakerOnly

def mediumWord : Medium → FieldWord
  | .sounder => .sounder
  | .speaker => .speaker
  | .both => .both

def policyWord : Policy → FieldWord
  | .immediate => .immediate
  | .pause => .pause
  | .finish => .finish

def limitWord : LimitAction → FieldWord
  | .force => .force
  | .drop => .drop

def sourceWord : SignalSource → FieldWord
  | .controller => .controller
  | .panel => .panel

def stageKindWord : StageKind → FieldWord
  | .alert => .alert
  | .evacuate => .evacuate
  | .hold => .hold
  | .back => .back

def advanceWord : AdvanceMode → FieldWord
  | .timed => .timed
  | .manual => .manual
  | .clearAll => .clearAll

def devKindWord : DevKind → FieldWord
  | .clock => .clock
  | .bell => .bell
  | .speaker => .speaker
  | .clear => .clear

def opClassWord : OpClass → FieldWord
  | .none => .none
  | .viewer => .viewer
  | .staff => .staff
  | .office => .office
  | .safety => .safety

def attModeWord : AttMode → FieldWord
  | .callAll => .callAll
  | .urgentOnly => .urgentOnly
  | .closed => .closed

/-- The fields of an override (R89). -/
def overrideFields (o : Override) : List Field :=
  [dateField o.day, timeField o.time] ++
    match o.action with
    | .add g p m => [.word .add, .group g, .pattern p, .word (entryMediumWord m)]
    | .omit g => [.word .omit, .group g]

/-- The fields of an entry in their written forms, as a WRITE gives them; an entry that holds no contents has none. -/
def readFields : Entry → List Field
  | .weekday n => [.num n]
  | .dayType p => [(p.map Field.dayPlan).getD (.word .noBells)]
  | .except (some e) => [dateField e.first, dateField e.last, .num e.dayType]
  | .timeSet t =>
    [yesNoField t.refEnable, .num t.interval, .num t.slewLimit, .num t.stepThreshold, .num t.catchUp, yesNoField t.trustBackup]
  | .plan (some e) =>
    [timeField e.time, .group e.group, .pattern e.pattern, .word (entryMediumWord e.medium), optField Field.label e.label]
  | .override (some o) => overrideFields o
  | .pattern n => [.num n]
  | .segment (some g) => [.num g.on, .num g.off]
  | .group zs => [setField .zones zs]
  | .zone z =>
    [(z.line.map Field.line).getD (.word .none), .word (mediumWord z.medium), .word (policyWord z.policy), .num z.maxDefer,
     .word (limitWord z.limit), yesNoField z.alarmFollow, yesNoField z.drillFollow, yesNoField z.pageAllowed]
  | .zoneSet z => [.num z.reserve, .num z.pauseLength, .num z.idleLimit]
  | .program p => [setField .lines p.building, .word (sourceWord p.source)]
  | .stage (some g) =>
    [.word (stageKindWord g.kind), .pattern g.pattern, .num g.duration, .word (advanceWord g.advance),
     .word (if g.timing then .set else .clear)]
  | .schedule (some c) => [dateField c.day, timeField c.time, .program c.program, optField .lines c.building]
  | .drillSet d =>
    [.program d.program, .num d.ackTimeout, .num d.restoreDelay, .num d.debounce,
     .word (match d.silence with | .level => .level | .edge => .edge)]
  | .line l => [yesNoField l.enable, .word (if l.auto then .auto else .explicit), .num l.missLimit]
  | .device (some d) => [.word (devKindWord d.kind), optField .zone d.zone, optField .num d.serial]
  | .poll a => [(a.map Field.num).getD (.word .empty)]
  | .portSet c =>
    [.rights c.rights, .num c.pageLimit, setField .kinds c.quiet, .word (attModeWord c.mode), .num c.holdTimeout]
  | .operator c => [.word (opClassWord c)]
  | .level l => [.word (match l with | .routine => .routine | .urgent => .urgent)]
  | .except none | .plan none | .override none | .segment none | .stage none | .schedule none | .device none => []

end Sys2Proof.Machine
end

