-- ==== Sys2Proof/Machine/Store.lean ====
section
/-! DEFINITION. The Plan Store (chapter 4) with the table cursor (section 10.3): holds, reading and writing at the cursor,
validation, activation and what it does to running work, the stored images, and the meanings of the plan commands. -/

set_option autoImplicit false

namespace Sys2Proof.Machine

open Sys2Proof

/-! ### Banks and holds (R63, R66, R67) -/

/-- The staged bank of a region becomes a copy of the live bank (R63). -/
def State.discardStaged (s : State) (r : Region) : State :=
  { s with store := { s.store with staged := copyRegion r s.store.live s.store.staged } }

/-- Whether a port holds a region. -/
def State.holds (s : State) (p : Port) (r : Region) : Bool :=
  match s.holdAt r with
  | .held q _ => q = p
  | _ => false

/-- The hold timer of a port's hold starts or restarts with the port's live hold timeout (R67). -/
def State.startHold (s : State) (p : Port) (r : Region) : State :=
  s.setHold r (.held p (s.now + 8000 * (s.store.live.prt.ports.get p).holdTimeout))

/-- A request of the holder restarts the timer (R67). -/
def State.touchHold (s : State) (p : Port) (r : Region) : State := if s.holds p r then s.startHold p r else s

/-- A hold ends with its staged bank discarded and the region FREE. -/
def State.dropHold (s : State) (r : Region) : State := (s.discardStaged r).setHold r .free

/-- The refusal that meets a port that is to change a region it does not hold (R68, R71, R73). -/
def State.notHolding (s : State) (p : Port) (r : Region) : Option NoReason :=
  match s.holdAt r with
  | .committing _ _ => some .busy
  | .held q _ => if q = p then none else some .notHeld
  | .free => some .notHeld

/-- HOLD (R66). -/
def execHold (p : Port) (op : Fin 16) (region : Region) (s : State) : Result :=
  line p s fun s =>
    planRequest p op .hold (editClass region) region true s fun s =>
      match s.holdAt region with
      | .free => (s.startHold p region, .ok)
      | .held q _ => if q = p then (s.startHold p region, .ok) else (s, .no .held)
      | .committing _ _ => (s, .no .busy)

/-- RELEASE (R68). -/
def execRelease (p : Port) (op : Fin 16) (region : Region) (s : State) : Result :=
  line p s fun s =>
    planRequest p op .release (editClass region) region true s fun s =>
      match s.notHolding p region with
      | some r => (s, .no r)
      | none =>
        if sameRegion region s.store.staged s.store.live then (s.setHold region .free, .ok) else (s.startHold p region, .no .state)

/-- DISCARD (R68). -/
def execDiscard (p : Port) (op : Fin 16) (region : Region) (s : State) : Result :=
  line p s fun s =>
    planRequest p op .discard (editClass region) region true s fun s =>
      match s.notHolding p region with
      | some r => (s, .no r)
      | none => (s.dropHold region, .ok)

/-- HOLD_EXPIRY (R67). -/
def execHoldExpiry (region : Region) (s : State) : Result :=
  event s fun s =>
    match s.holdAt region with
    | .held p t => if s.reached t then (s.dropHold region).raiseAt p .hold (.hold region .expired) else s
    | _ => s

/-! ### The key switch (R69, R70) -/

/-- A hold that the port's rights in RUN do not allow is withdrawn (R70). -/
def State.withdraw (s : State) (r : Region) : State :=
  match s.holdAt r with
  | .held p _ => if s.rightsInRun p r = .edit then s else (s.dropHold r).raiseAt p .hold (.hold r .withdrawn)
  | _ => s

/-- KEY_SWITCH_RUN (R70): the holds are withdrawn from CAL to PRT, so the last of them stands as the latest detail of HOLD
(DESIGN CHOICE, notes/assumptions/38.md). -/
def execKeySwitchRun (s : State) : Result :=
  if s.power && s.setup then finish (allRegions.foldl State.withdraw { s with setup := false })
  else .next { s with setup := false }

/-- KEY_SWITCH_SETUP (R70): holds stay as they stand. -/
def execKeySwitchSetup (s : State) : Result := .next { s with setup := true }

/-! ### The cursor (R174, R175) -/

def State.setCursor (s : State) (p : Port) (c : Cursor) : State := s.setPort p { s.port p with cursor := some c }

/-- The table of a region that a SELECT names, where it has one with an entry at the index (R64, R174). -/
def selected (region : Region) (table : Option Tbl) (index : Nat) : Option Tbl :=
  match table with
  | some t => if tableRegion t = region ∧ index < tableSize t then some t else none
  | none => none

/-- SELECT (R174): a table word that names no table, like a table of another region, is NO RANGE. -/
def execSelect (p : Port) (op : Fin 16) (region : Region) (table : Option Tbl) (index : Nat) (bank : Bank) (s : State) : Result :=
  line p s fun s =>
    planRequest p op .select .viewer region (decide (bank = .staged)) s fun s =>
      let s := s.touchHold p region
      match selected region table index with
      | none => (s, .no .range)
      | some t =>
        if bank = .staged ∧ s.holds p region = false then (s, .no .notHeld)
        else (s.setCursor p { region := region, table := t, index := index, bank := bank }, .ok)

/-- The cursor's index moves on by one after an accepted request (R175). -/
def State.advanceCursor (s : State) (p : Port) : State :=
  match (s.port p).cursor with
  | some c => s.setCursor p { c with index := c.index + 1 }
  | none => s

/-- Whether a reply lets the cursor move on (R175). -/
def Reply.advances : Reply → Bool
  | .no _ => false
  | _ => true

/-- A READ, WRITE or EMPTY: the class, the rights at the cursor, the cursor itself, and then the store (R170, R173, R175). A
request of the holder restarts its hold timer, accepted or refused (R67). -/
def atCursor (p : Port) (op : Fin 16) (kw : Keyword) (min : Region → OpClass) (least : OpClass) (needsEdit : Cursor → Bool) (s : State)
    (body : Cursor → State → State × Reply) : State :=
  match (s.port p).cursor with
  | none => if s.classAllows p op least then s.respond p op kw none (.no .state) else s.respond p op kw none (.no .cls)
  | some c =>
    planRequest p op kw (min c.region) c.region (needsEdit c) s fun s =>
      let s := s.touchHold p c.region
      if tableSize c.table ≤ c.index then (s, .no .range)
      else
        let (s', r) := body c s
        (if r.advances then s'.advanceCursor p else s', r)

/-- What a READ finds: G00 reads as the zones in use (R94). -/
def State.readEntry (s : State) (bank : Plan) (t : Tbl) (i : Nat) : Entry :=
  if t = .group ∧ i = 0 then .group (s.expand 0) else entryAt bank t i

/-- READ (R72, R81, R175): the fields come back in their written forms. -/
def execRead (p : Port) (op : Fin 16) (s : State) : Result :=
  line p s fun s =>
    atCursor p op .read (fun _ => .viewer) .viewer (fun c => decide (c.bank = .staged)) s fun c s =>
      let answer (bank : Plan) : Reply :=
        let e := s.readEntry bank c.table c.index
        if e.isEmpty then .okEmpty else .entry (readFields e)
      match c.bank with
      | .live => (s, answer s.store.live)
      | .staged => if s.holds p c.region then (s, answer s.store.staged) else (s, .no .notHeld)

/-- The checks of an edit at the cursor up to the fixed entries (R71). -/
def State.editRefused (s : State) (p : Port) (c : Cursor) : Option NoReason :=
  match s.notHolding p c.region with
  | some r => some r
  | none => if c.bank ≠ .staged then some .state else if fixedEntry c.table c.index then some .range else none

def State.putStaged (s : State) (i : Nat) (e : Entry) : State :=
  { s with store := { s.store with staged := putEntry s.store.staged i e } }

/-- WRITE (R71, R175, R176): a line whose fields do not fit the cursor's table is NO SYNTAX before the class is looked at. -/
def execWrite (p : Port) (op : Fin 16) (fields : List Field) (s : State) : Result :=
  line p s fun s =>
    match (s.port p).cursor with
    | some c =>
      match writeFields c.table fields with
      | none => s.respond p op .write (some c.region) (.no .badSyntax)
      | some w =>
        atCursor p op .write editClass .office (fun _ => true) s fun c s =>
          match s.editRefused p c with
          | some r => (s, .no r)
          | none =>
            match w.entry with
            | none => (s, .no .range)
            | some e => (s.putStaged c.index e, if w.clamped then .okClamped else .ok)
    | none => atCursor p op .write editClass .office (fun _ => true) s fun _ s => (s, .no .state)

/-- EMPTY (R71, R175). The two field checks that it goes without are taken to be the check of names and the holding of
numbers at their limits; the fixed entries are NO RANGE (DESIGN CHOICE, notes/assumptions/42.md). -/
def execEmpty (p : Port) (op : Fin 16) (s : State) : Result :=
  line p s fun s =>
    atCursor p op .empty editClass .office (fun _ => true) s fun c s =>
      match s.editRefused p c with
      | some r => (s, .no r)
      | none => (s.putStaged c.index (entryAt emptyPlan c.table c.index), .ok)

/-! ### Validation (R40, R73, R85, R88, R90, R92, R157) -/

/-- The first index below `n` that has a fault. -/
def firstFault (t : Tbl) (n : Nat) (bad : Nat → Bool) : Option (Tbl × Nat) :=
  ((List.range n).find? bad).map fun i => (t, i)

/-- The contents of the filled entry before an index, down to an index. -/
def filledBefore {α : Type} (t : Table (Option α)) (first i : Nat) : Option α :=
  ((List.range (i - first)).reverse.findSome? fun k => tget noneStart t (first + k))

/-- CAL: exceptions sorted and not overlapping, none ending before it begins (R85). -/
def calFault (c : Cal) : Option (Tbl × Nat) :=
  firstFault .except 64 fun i =>
    match tget noneStart c.except i with
    | none => false
    | some e => decide (e.last < e.first) || (filledBefore c.except 0 i).any fun b => decide (e.first ≤ b.last)

/-- DPL: the filled slots of each day plan in time order (R88). -/
def dplFault (d : Dpl) : Option (Tbl × Nat) :=
  firstFault .plan 1024 fun i =>
    match tget noneStart d.plan i with
    | none => false
    | some e => (filledBefore d.plan (i / 64 * 64) i).any fun b => decide (e.time < b.time)

/-- OVR: overrides sorted by date, then time (R90). -/
def ovrFault (o : Ovr) : Option (Tbl × Nat) :=
  firstFault .override 32 fun i =>
    match tget noneStart o.entries i with
    | none => false
    | some e =>
      (filledBefore o.entries 0 i).any fun b =>
        decide (({ day := e.day, sec := e.time } : Stamp).count < ({ day := b.day, sec := b.time } : Stamp).count)

/-- Whether a filled entry has an empty one before it in its run of eight (R92, R157). -/
def gapBefore {α : Type} (t : Table (Option α)) (i : Nat) : Bool :=
  (tget noneStart t i).isSome && (List.range (i % 8)).any fun k => (tget noneStart t (i / 8 * 8 + k)).isNone

/-- PAT: each pattern's segments consecutive from segment 0 (R92). -/
def patFault (p : Pat) : Option (Tbl × Nat) := firstFault .segment 128 fun i => decide (8 ≤ i) && gapBefore p.segments i

/-- ZON: no zone moved off a line on which a device of it is listed, in LIN or in a line controller's copy (R40). -/
def State.zonFault (s : State) (z : Zon) : Option (Tbl × Nat) :=
  firstFault .zone 32 fun i =>
    match (s.zoneCfg i).line with
    | none => false
    | some l =>
      decide ((tget zoneCfgStart z.zones i).line ≠ some l) &&
        allAddrs.any fun a =>
          ((tget noneStart s.store.live.lin.devices (devIdx l a)).any fun d => decide (d.zone = some i)) ||
            (((s.lineAt l).recAt a).listed && decide (((s.lineAt l).recAt a).zone = some i))

/-- DRL's checks of one stage (R157). -/
def stageFault (d : Drl) (i : Nat) : Bool :=
  match tget noneStart d.stages i with
  | none => false
  | some g =>
    gapBefore d.stages i ||
      (g.timing && (List.range (i % 8)).any fun k => (tget noneStart d.stages (i / 8 * 8 + k)).any Stage.timing) ||
      (decide (g.advance = .clearAll) && !g.timing)

/-- DRL (R157). -/
def drlFault (d : Drl) : Option (Tbl × Nat) :=
  firstFault .program 8 (fun n => !(d.stagesOf n).isEmpty && (tget programStart d.programs n).building.isEmpty)
  <|> firstFault .stage 64 (stageFault d)
  <|> firstFault .schedule 8 (fun i => (tget noneStart d.schedule i).any fun e => (d.stagesOf e.program).isEmpty)
  <|> firstFault .drillset 1 (fun _ => (d.stagesOf d.drillSet.program).isEmpty)

/-- LIN: kinds and zones agree with each other and with the live ZON bank (R40). -/
def State.linFault (s : State) (x : Lin) : Option (Tbl × Nat) :=
  firstFault .device 144 fun i =>
    match tget noneStart x.devices i with
    | none => false
    | some d =>
      match d.kind, d.zone with
      | .clock, z => z.isSome
      | _, none => true
      | _, some z => decide ((s.zoneCfg z).line ≠ some (i / 24))

/-- The first fault validation finds in the staged bank of a region (R73). -/
def State.validate (s : State) (r : Region) : Option (Tbl × Nat) :=
  let b := s.store.staged
  match r with
  | .cal => calFault b.cal
  | .dpl => dplFault b.dpl
  | .ovr => ovrFault b.ovr
  | .pat => patFault b.pat
  | .zon => s.zonFault b.zon
  | .drl => drlFault b.drl
  | .lin => s.linFault b.lin
  | .prt => none

/-! ### Activation (R74, R78 to R80, R114) -/

/-- The BELL or PAGE holder of a zone that changes line leaves it, and a page suspended under it (R114). -/
def State.leaveZone (s : State) (z : Nat) : State :=
  let r := s.zoneAt z
  match r.holder with
  | .bell j =>
    let s := s.dropPart j z .reconfig
    let s := match r.suspended with | .page n _ => s.pageLoses n z .reconfig | _ => s
    (s.setZone z { s.zoneAt z with holder := .none, suspended := .none }).setWanted z none none
  | .page n _ => (s.pageLoses n z .reconfig).returnZone z
  | _ => s

/-- A zone has a new line (R79, R114). The trunk that the leaving holder leaves without zones is released at that moment (R106).
A zone left NONE on a line in RUN has its wait list served and is then offered to the pages as where a holder ends (R101, R142);
R114 names only the wait list, and the grant pass that follows the release comes after both (DESIGN CHOICE,
notes/assumptions/46.md). -/
def State.moveZone (s : State) (old : Option Nat) (z : Nat) : State :=
  let new := (s.zoneCfg z).line
  let s := (s.leaveZone z).releaseNow s.idleTrunks
  let s := if new.isNone then s.clearWaits z .reconfig else s
  let s : State := match old with | some l => s.onLine l fun x => x.unqueueZone z | none => s
  let up := new.any fun l => decide ((s.lineAt l).state = .run)
  let s := if up then s.setZone z { s.zoneAt z with available := true } else s.loseZone z
  let s := s.output z false
  let s : State := s.setZone z { s.zoneAt z with degraded := new.any fun l => (s.lineAt l).degrades z }
  if up && decide ((s.zoneAt z).holder = .none) then s.push [.serve [z] none true] else s

/-- The zone controller takes an activation of ZON, zone by zone in rising order, each with all that follows from it before the
next (R114). -/
def State.zonActivation (s : State) (old : Zon) : State :=
  allZones.foldl
    (fun s z =>
      let was := (tget zoneCfgStart old.zones z).line
      if was = (s.zoneCfg z).line then s else (s.moveZone was z).settle)
    s

/-- What the readers of a region do at its activation (R78 to R80), given the live banks before it. -/
def State.announce (s : State) (r : Region) (old : Plan) : State :=
  match r with
  | .cal => (s.tbuActivation old.cal.timeSet.refEnable).bdsActivation
  | .dpl | .ovr => s.bdsActivation
  | .zon => s.zonActivation old.zon
  | .drl => s.dsqActivation.redebounce
  | .pat | .lin | .prt => s

/-- The staged bank becomes live, the region is COMMITTING and its image is being written (R74, R75): until the write has
ended the image would fail its check (R76). -/
def State.activate (s : State) (p : Port) (r : Region) : State :=
  let old := s.store.live
  let s :=
    { s with store := { s.store with
        live := copyRegion r s.store.staged s.store.live
        imageGood := tset imageGoodStart s.store.imageGood (regionIdx r) false } }
  (s.setHold r (.committing p (s.now + 16000))).announce r old

/-- ACTIVATE (R73, R74). -/
def execActivate (p : Port) (op : Fin 16) (region : Region) (s : State) : Result :=
  line p s fun s =>
    planRequest p op .activate (editClass region) region true s fun s =>
      match s.notHolding p region with
      | some r => (s, .no r)
      | none =>
        if region = .zon ∧ s.pnl.state ≠ .normal then (s.startHold p region, .no .state)
        else
          match s.validate region with
          | some (t, i) => (s.startHold p region, .no (.invalid t i))
          | none => (s.activate p region, .ok)

/-! ### Stored images (R75, R76) -/

/-- An image write ends (R75): the staged bank is recopied, the region is FREE, and the result told. -/
def State.writeEnds (s : State) (p : Port) (r : Region) (good : Bool) : State :=
  let s :=
    { s with store := { s.store with
        images := if good then copyRegion r s.store.live s.store.images else s.store.images
        imageGood := tset imageGoodStart s.store.imageGood (regionIdx r) good } }
  let s := (s.dropHold r).raiseAt p .hold (.hold r (.activated good))
  if good then s else s.raise .store (.store r .writeFailed)

/-- IMAGE_WRITE_END (R75). -/
def execImageWriteEnd (region : Region) (good : Bool) (s : State) : Result :=
  event s fun s =>
    match s.holdAt region with
    | .committing p _ => s.writeEnds p region good
    | _ => s

/-- Whether a region's stored image passes its check. -/
def State.imageGoodAt (s : State) (r : Region) : Bool := tget imageGoodStart s.store.imageGood (regionIdx r)

/-- A region's live bank is loaded from its image, or set EMPTY (R76). -/
def State.loadRegion (s : State) (r : Region) : State :=
  let src := if s.imageGoodAt r then s.store.images else emptyPlan
  { s with store := { s.store with live := copyRegion r src s.store.live } }

/-- The load (R76): every live bank, staged banks as copies, every region FREE. -/
def State.load (s : State) : State :=
  let s := allRegions.foldl State.loadRegion s
  { s with store := { s.store with staged := s.store.live, holds := [] } }

/-- The STORE notices of a load (R76, R77), from CAL to PRT, so that of the last failed region stands as the latest detail of
STORE (DESIGN CHOICE, notes/assumptions/38.md). -/
def State.raiseLoads (s : State) : State :=
  allRegions.foldl (fun s r => if s.imageGoodAt r then s else s.raise .store (.store r .loadEmpty)) s

end Sys2Proof.Machine
end

