-- ==== Sys2Proof/Machine/Notices.lean ====
section
/-! DEFINITION. The requests that read and clear notices (sections 11.2 and 11.3), and the ZONE request (R115). -/

set_option autoImplicit false

namespace Sys2Proof.Machine

open Sys2Proof

def State.onNtu (s : State) (p : Port) (f : NtuPort → NtuPort) : State := { s with ntu := s.ntu.set p (f (s.ntu.get p)) }

/-- The access fault capture of a port is emptied (R177). -/
def State.emptyCapture (s : State) (p : Port) : State := s.setPort p { s.port p with capture := none }

/-- What clearing a kind's flag at a port empties besides (R177). -/
def State.afterClear (s : State) (p : Port) (k : NoticeKind) : State := if k = .access then s.emptyCapture p else s

/-- NEXT (R184). -/
def execNext (p : Port) (op : Fin 16) (s : State) : Result :=
  request p op .next .viewer s fun s =>
    match s.nextKind p with
    | none => (s, .no .empty)
    | some k => (s, .next k (s.levelOf p k) ((s.ntu.get p).recAt k).count ((s.ntu.get p).recAt k).detail)

/-- A kind's record is cleared at a port. -/
def State.clearKind (s : State) (p : Port) (k : NoticeKind) : State :=
  (s.onNtu p fun n => n.setRec k { flag := false, count := 0, detail := none }).afterClear p k

/-- CLEAR (R185). -/
def execClear (p : Port) (op : Fin 16) (kind : Option NoticeKind) (n : Nat) (s : State) : Result :=
  request p op .clear .staff s fun s =>
    match kind with
    | none => (s, .no .range)
    | some k =>
      let r := (s.ntu.get p).recAt k
      if n = 0 ∨ 255 < n then (s, .no .range)
      else if r.flag = false then (s, .no .state)
      else if r.count < n then (s, .no .range)
      else if n = r.count then (s.clearKind p k, .ok)
      else (s.onNtu p fun x => x.setRec k { r with count := r.count - n }, .ok)

/-- A kind joins or leaves a quiet set, which is kept in the order of the kinds. -/
def setQuiet (q : List NoticeKind) (k : NoticeKind) (on : Bool) : List NoticeKind :=
  allKinds.filter fun x => if x = k then on else q.contains x

/-- QUIET (R183). -/
def execQuiet (p : Port) (op : Fin 16) (kind : Option NoticeKind) (on : Bool) (s : State) : Result :=
  request p op .quiet .staff s fun s =>
    match kind with
    | none => (s, .no .range)
    | some k =>
      let s := s.onNtu p fun n => { n with quiet := setQuiet n.quiet k on }
      (if on then s.clearKind p k else s, .ok)

/-- ATTEND (R183). -/
def execAttend (p : Port) (op : Fin 16) (mode : AttMode) (s : State) : Result :=
  request p op .attend .staff s fun s => (s.onNtu p fun n => { n with mode := mode }, .ok)

/-! ### ZONE (R115) -/

def State.zoneReply (s : State) (z : Nat) : ZoneReply :=
  let r := s.zoneAt z
  { cfg := s.zoneCfg z, holder := r.holder, suspended := r.suspended, trunk := r.trunk, bellMs := r.bellUntil.map s.msUntil
    waits := r.waits.map fun w => { job := w.job, reason := w.reason, msLeft := s.msUntil (w.since + 8000 * w.maxDefer) }
    available := r.available, degraded := r.degraded }

/-- The milliseconds a trunk's tone generator has been playing, if it plays. -/
def State.toneMs (s : State) (u : TrunkUse) : Option Nat :=
  match u.toneSince with
  | some t => if u.toneUntil.any s.reached then none else some (s.msSince t)
  | none => none

def State.trunkReply (s : State) (t : Nat) : Option TrunkReply :=
  (s.trunkAt t).map fun u =>
    { program := u.program, seconds := (s.now - u.since) / 8000, toneMs := s.toneMs u,
      silentMs := u.silence.map fun q => s.msSince q.since }

/-- ZONE (R115). -/
def execZone (p : Port) (op : Fin 16) (what : ZoneOrTrunk) (s : State) : Result :=
  request p op .zone .viewer s fun s =>
    match what with
    | .zone z => if z < 32 then (s, .zone (s.zoneReply z)) else (s, .no .range)
    | .trunk t => if t < 4 then (s, .trunk (s.trunkReply t)) else (s, .no .range)

end Sys2Proof.Machine
end

