-- ==== Sys2Proof/Machine/Ports.lean ====
section
/-! DEFINITION. The console ports' own requests and events (chapter 10): the exchange slots, the cross signals, STATUS, RESTART,
lines that cannot be read or end while a request is in progress, and the end of a reply. -/

set_option autoImplicit false

namespace Sys2Proof.Machine

open Sys2Proof

/-! ### Exchange slots (R178) -/

/-- NOTE (R178). -/
def execNote (p : Port) (op : Fin 16) (slot value : Nat) (s : State) : Result :=
  request p op .note .staff s fun s =>
    if 8 ≤ slot then (s, .no .range)
    else ({ s with slots := tset slotStart s.slots slot (min value 65535) }, if 65535 < value then .okClamped else .ok)

def State.slotValues (s : State) : List Nat := (List.range 8).map (tget slotStart s.slots)

/-- NOTES (R178). -/
def execNotes (p : Port) (op : Fin 16) (s : State) : Result :=
  request p op .notes .viewer s fun s => (s, .notes s.slotValues)

/-! ### Cross signals (R179) -/

/-- The signals raised from a port toward the other. -/
def State.signalsFrom (s : State) : Port → List Nat
  | .a => s.fromA
  | .b => s.fromB

def State.setSignals (s : State) (p : Port) (xs : List Nat) : State :=
  match p with
  | .a => { s with fromA := xs }
  | .b => { s with fromB := xs }

/-- SIGNAL (R179). -/
def execSignal (p : Port) (op : Fin 16) (n : Nat) (s : State) : Result :=
  request p op .signal .staff s fun s =>
    if 8 ≤ n then (s, .no .range)
    else if (s.signalsFrom p).contains n then (s, .no .state)
    else
      let xs := setBelow 8 (n :: s.signalsFrom p)
      ((s.setSignals p xs).raiseAt (otherPort p) .crossSignal (.crossSignal xs), .ok)

/-- LOWER (R179): acts on the signals toward the requesting port. -/
def execLower (p : Port) (op : Fin 16) (n : Nat) (s : State) : Result :=
  request p op .lower .staff s fun s =>
    let q := otherPort p
    if 8 ≤ n then (s, .no .range)
    else if (s.signalsFrom q).contains n then (s.setSignals q ((s.signalsFrom q).filter (· ≠ n)), .ok)
    else (s, .no .state)

/-! ### STATUS and RESTART (R180, R181) -/

/-- The STATUS reply (R180). -/
def State.statusReply (s : State) (p : Port) : StatusReply :=
  { setup := s.setup, rights := allRegions.map (s.rights p), campus := s.campus, validity := s.tbu.validity, disc := s.discipline,
    panel := s.pnl.state, causes := s.pnl.causes, drill := s.dsq.session.map fun d => (d.running, d.stage, d.signal),
    lines := allLines.map fun l => (s.lineAt l).state, holds := allRegions.map s.holdAt, jobs := s.bds.queue.length,
    pages := s.pgc.queue.length, cursor := (s.port p).cursor, capture := (s.port p).capture, slots := s.slotValues,
    fromA := s.fromA, fromB := s.fromB }

/-- STATUS (R180). -/
def execStatus (p : Port) (op : Fin 16) (s : State) : Result :=
  request p op .status .viewer s fun s => (s, .status (s.statusReply p))

/-- RESTART (R181): with the key switch in SETUP it is accepted, and the restart follows the end of its reply. -/
def execRestart (p : Port) (op : Fin 16) (s : State) : Result :=
  request p op .restart .office s fun s =>
    if s.setup then (s.setPort p { s.port p with restarts := true }, .ok) else (s, .no .state)

/-! ### The link (R169 to R171) -/

/-- UNREADABLE_LINE (R169). -/
def execUnreadableLine (p : Port) (s : State) : Result := line p s fun s => s.answer p (.no .badSyntax)

/-- UNKNOWN_KEYWORD (R170): a line that fails step 1, 2 or 3. -/
def execUnknownKeyword (p : Port) (why : LineFault) (s : State) : Result :=
  line p s fun s =>
    match why with
    | .noKeyword => s.answer p (.no .unknown)
    | .badStart | .badArguments => s.answer p (.no .badSyntax)

/-- LINE_WHILE_BUSY (R171). -/
def execLineWhileBusy (p : Port) (s : State) : Result :=
  if s.reads && (s.port p).reply.isSome then finish (s.oweBusy p) else .next s

/-- The last character of a reply has been sent (R171, R181): an owed NO BUSY goes out next, and a RESTART begins. -/
def State.replySent (s : State) (p : Port) : State :=
  let x := s.port p
  let y := if 0 < x.owed then { x with reply := some (.no .busy), owed := x.owed - 1, restarts := false }
           else { x with reply := none, restarts := false }
  let s' := s.setPort p y
  if x.restarts then { s' with restartDue := true } else s'

/-- REPLY_SENT (R171). -/
def execReplySent (p : Port) (s : State) : Result :=
  event s fun s => if (s.port p).reply.isSome then s.replySent p else s

end Sys2Proof.Machine
end

