-- ==== Sys2Proof/Machine/Field.lean ====
section
/-! DEFINITION. The field devices as the line sees them (sections 2.3, 2.7, 2.8, R59): what each does with the frames that reach
it, its own timers, what it reports, and the meanings of the device rows. Which frames reach a device is the sender's to
say: a frame lost on the line is one that is never delivered. -/

set_option autoImplicit false

namespace Sys2Proof.Machine

open Sys2Proof

/-- Whether a line has power (section 2.1). -/
def LineState.powered : LineState → Bool
  | .powering | .discovery | .run | .lost | .test => true
  | .off | .proving | .fault => false

def State.linePowered (s : State) (l : Nat) : Bool := s.power && (s.lineAt l).state.powered

/-- An event at a field device; a line has no address outside 1 to 24. -/
def deviceEvent (l : Fin 6) (addr : Nat) (s : State) (f : FieldDev → FieldDev) : Result :=
  if 1 ≤ addr ∧ addr ≤ 24 then .next (s.setField l.val addr (f (s.fieldAt l.val addr))) else .fault (.noSuchAddress addr)

/-- Any valid frame keeps a speaker node from muting itself; a frame other than a LOOP-UP to the device ends its run of
LOOP-UPs (R45, R59). A proving frame carries no check and is no valid frame. -/
def FieldDev.hears (d : FieldDev) (now addr : Nat) (f : Frame) : FieldDev :=
  if f.checked then { d with lastValid := now, loopUps := if f = .loopUp addr then d.loopUps else 0 } else d

/-- In echo a device of any kind sends back each proving frame addressed to it, unchanged, and its echo timer restarts
(R59). -/
def FieldDev.echoes (d : FieldDev) (now addr : Nat) (f : Frame) : FieldDev :=
  match f with
  | .proving a vs => if a = addr ∧ d.echo.isSome then { d with echo := some now, sent := (Frame.proving a vs).bytes } else d
  | _ => d

/-- Bytes reach a field device: nothing without line power, and nothing that is no frame. -/
def received (l : Fin 6) (addr : Nat) (bytes : List Byte) (s : State) (f : Frame → FieldDev → FieldDev) : Result :=
  deviceEvent l addr s fun d =>
    if s.linePowered l.val then
      match readFrame bytes with
      | some x => f x ((d.hears s.now addr x).echoes s.now addr x)
      | none => d
    else d

/-- A poll addressed to the device gives it its zone (R34). -/
def FieldDev.polled (d : FieldDev) (addr : Nat) (f : Frame) : FieldDev :=
  match f with
  | .poll a z => if a = addr then { d with zone := z } else d
  | _ => d

/-! ### What a device reports (R33, R45, R46, R48, R50) -/

/-- The date and second of day a clock displays: it runs on its own crystal from the frame it took (R33). The crystal is
taken to count the controller's own eighths (DESIGN CHOICE, notes/assumptions/34.md). -/
def ClockFace.shows (c : ClockFace) (now : Nat) : Stamp :=
  ({ day := c.day, sec := 0 } : Stamp).after ((c.ms + (now - c.at_) / 8) / 1000)

/-- A face some seconds later, while no elapsed time is counted (R33). -/
def ClockFace.later (c : ClockFace) (seconds : Nat) : ClockFace := { c with ms := c.ms + 1000 * seconds }

/-- The report of a device of a kind. A clock that has taken no frame reports 00:00:00 (DESIGN CHOICE,
notes/assumptions/34.md). -/
def FieldDev.report (d : FieldDev) (kind : DevKind) (now : Nat) : Report :=
  match kind with
  | .clock =>
    let t := writtenTime ((d.clock.map fun c => (c.shows now).sec).getD 0)
    .clock t.hour t.minute t.second
  | .bell => .bell d.bellOn
  | .speaker => .speaker d.trunk d.ampFault
  | .clear => .clear d.presses

/-- A device answers a poll addressed to it with its report (R33, R45, R50). -/
def FieldDev.replies (d : FieldDev) (kind : DevKind) (l now addr : Nat) (f : Frame) : FieldDev :=
  match f with
  | .poll a _ =>
    if a = addr then { d with sent := (Frame.reply addr (Config.deviceSerial l addr % 1000000) (d.report kind now)).bytes } else d
  | _ => d

/-- A device of a kind acts on a frame: in echo it does not, otherwise it takes it and answers a poll (R59). -/
def FieldDev.acts (d : FieldDev) (kind : DevKind) (l now addr : Nat) (f : Frame) (takes : FieldDev → FieldDev) : FieldDev :=
  if d.echo.isSome then d else (takes d).replies kind l now addr f

/-! ### Room clocks (R33) -/

/-- The milliseconds of a day that a time of day is. -/
def dayMs (h m sec ms : Nat) : Nat := (h * 3600 + m * 60 + sec) * 1000 + ms

/-- What a clock takes from a frame (R33). -/
def FieldDev.clockTakes (d : FieldDev) (now addr : Nat) (f : Frame) : FieldDev :=
  match f with
  | .time _ day h m sec ms _ alarm _ unsync backup =>
    { d with clock := some { day := day, ms := dayMs h m sec ms, at_ := now, unsynchronised := unsync || backup, alarm := alarm } }
  | .clockSet a day h m sec ms =>
    let face : ClockFace :=
      { day := day, ms := dayMs h m sec ms, at_ := now, unsynchronised := d.clock.any ClockFace.unsynchronised,
        alarm := d.clock.any ClockFace.alarm }
    if a = addr then { d with clock := some face } else d
  | _ => d

/-- ROOM_CLOCK_FRAME (R33). In echo a device does not act on time frames or CLOCK-SET (R59). -/
def execRoomClockFrame (l : Fin 6) (addr : Nat) (bytes : List Byte) (s : State) : Result :=
  received l addr bytes s fun f d => d.acts .clock l.val s.now addr f fun d => d.clockTakes s.now addr f

/-! ### Bell units (R45) -/

/-- What a bell unit takes from a frame (R34, R45). -/
def FieldDev.bellTakes (d : FieldDev) (now addr : Nat) (f : Frame) : FieldDev :=
  match f with
  | .output z bell hold _ =>
    if d.zone = some z then { d with bellOn := bell, holdUntil := if bell then now + 8 * hold else d.holdUntil } else d
  | _ => d.polled addr f

/-- BELL_UNIT_COMMAND (R45). -/
def execBellUnitCommand (l : Fin 6) (addr : Nat) (bytes : List Byte) (s : State) : Result :=
  received l addr bytes s fun f d => d.acts .bell l.val s.now addr f fun d => d.bellTakes s.now addr f

/-- HOLD_FOR_EXPIRY (R45). -/
def execHoldForExpiry (l : Fin 6) (addr : Nat) (s : State) : Result :=
  deviceEvent l addr s fun d => if d.bellOn && s.reached d.holdUntil then { d with bellOn := false } else d

/-! ### Speaker nodes (R45) -/

/-- What a speaker node takes from a frame (R34, R45). -/
def FieldDev.speakerTakes (d : FieldDev) (addr : Nat) (f : Frame) : FieldDev :=
  match f with
  | .output z _ _ t => if d.zone = some z then { d with trunk := t } else d
  | _ => d.polled addr f

/-- SPEAKER_NODE_COMMAND (R45). -/
def execSpeakerNodeCommand (l : Fin 6) (addr : Nat) (bytes : List Byte) (s : State) : Result :=
  received l addr bytes s fun f d => d.acts .speaker l.val s.now addr f fun d => d.speakerTakes addr f

/-- SPEAKER_SILENCE_MUTE (R45): no valid frame for 3 s. -/
def execSpeakerSilenceMute (l : Fin 6) (addr : Nat) (s : State) : Result :=
  deviceEvent l addr s fun d => if s.reached (d.lastValid + 24000) then { d with trunk := none } else d

/-- AMPLIFIER_FAULT_CHANGE (R46): the flag goes out with the node's next reply. -/
def execAmplifierFaultChange (l : Fin 6) (addr : Nat) (fault : Bool) (s : State) : Result :=
  deviceEvent l addr s fun d => { d with ampFault := fault }

/-! ### Clear stations (R48) -/

/-- CLEAR_STATION_PRESS (R48): the count follows 255 with 0. -/
def execClearStationPress (l : Fin 6) (addr : Nat) (s : State) : Result :=
  deviceEvent l addr s fun d => { d with presses := (d.presses + 1) % 256 }

/-! ### The far loop (R59) -/

/-- A LOOP-UP to the device counts, and at the fifth it enters echo. -/
def FieldDev.loopHears (d : FieldDev) (now addr : Nat) (f : Frame) : FieldDev :=
  match f with
  | .loopUp a =>
    if a ≠ addr then d
    else if 5 ≤ d.loopUps + 1 then { d with loopUps := 0, echo := some (d.echo.getD now) }
    else { d with loopUps := d.loopUps + 1 }
  | _ => d

/-- DEVICE_LOOP_UP (R59): a frame of a line test reaches a device of any kind. -/
def execDeviceLoopUp (l : Fin 6) (addr : Nat) (bytes : List Byte) (s : State) : Result :=
  received l addr bytes s fun f d => d.loopHears s.now addr f

/-- DEVICE_LOOP_DOWN (R59): the first LOOP-DOWN to the device ends its echo. -/
def execDeviceLoopDown (l : Fin 6) (addr : Nat) (bytes : List Byte) (s : State) : Result :=
  received l addr bytes s fun f d => if f = .loopDown addr then { d with echo := none } else d

/-- ECHO_TIMEOUT (R59): 60 s without a proving frame. -/
def execEchoTimeout (l : Fin 6) (addr : Nat) (s : State) : Result :=
  deviceEvent l addr s fun d => if d.echo.any fun t => s.reached (t + 480000) then { d with echo := none } else d

end Sys2Proof.Machine
end

