-- ==== Sys2Proof/Machine/StartUp.lean ====
section
/-! DEFINITION. Power and start-up (R5, R6, section 11.4): POWER_ON, POWER_LOSS and CONTROLLER_RESTART. -/

set_option autoImplicit false

namespace Sys2Proof.Machine

open Sys2Proof

/-- The Notice Unit's start-up values at a port (R186 step 3). -/
def State.ntuStart (s : State) (p : Port) : NtuPort :=
  let c := s.store.live.prt.ports.get p
  { recs := [], quiet := c.quiet, mode := c.mode, attention := false }

/-- A port's start-up values: whatever has been received is discarded (R186). -/
def portStart : PortSt :=
  { arriving := [], typed := { chars := [], bad := false, tooLong := false }, reply := none, owed := 0, cursor := none,
    capture := none, restarts := false }

/-- Steps 3 to 6 of R186: notices and ports, the zone and trunk records and the blocks over them, the panel sample, the
lines; then the STORE notices of the load. -/
def State.comeUp (s : State) : State :=
  let s :=
    { s with
      ntu := { a := s.ntuStart .a, b := s.ntuStart .b }, ports := { a := portStart, b := portStart }, slots := [], fromA := [],
      fromB := [], restartDue := false, ztc := { zones := [], trunks := [], groups := [], grants := 0, agenda := [] },
      pgc := { queue := [], lastPage := 0, arrivals := 0 } }
  let s := s.bdsStart.dsqStart.panelStart
  (allLines.foldl State.bringUp s).raiseLoads

/-- The Drill Record List as read at power-on (R167): records that fail their check are left out, and a last number that
cannot be read is that of the newest good record. -/
def Dsq.reload (d : Dsq) : Dsq :=
  let rs := d.records.filter DrillRecord.good
  { d with records := rs, lastRecord := some (d.lastRecord.getD ((rs.head?.map DrillRecord.num).getD 0)) }

/-- The battery clock has counted seconds without power (R5). -/
def Battery.count (b : Battery) (seconds : Nat) : Battery := { b with time := b.time.after seconds }

/-- Every room clock has run on for some seconds without the controller's power (R33). -/
def State.clocksRun (s : State) (seconds : Nat) : State :=
  { s with field := s.field.map fun x => (x.1, { x.2 with clock := x.2.clock.map fun c => c.later seconds }) }

/-- POWER_ON (R6, R186). -/
def execPowerOn (batteryGood : Bool) (seconds : Nat) (s : State) : Result :=
  if s.power then .next s
  else
    let s := (({ s with power := true }).clocksRun seconds).load
    let s := s.onTbu fun t => ({ t with battery := t.battery.count seconds }).powerOn batteryGood s.timeSet.slewLimit
    let start (l : Nat) : LineSt := { lineStart l with secondAt := s.now }
    let s := { s with dsq := s.dsq.reload, lines := allLines.foldl (fun t l => tset lineStart t l (start l)) [] }
    finish s.comeUp

/-- The newest drill record's write has been cut short (R167). -/
def tearFirst : List DrillRecord → List DrillRecord
  | [] => []
  | r :: rs => { r with good := false } :: rs

/-- POWER_LOSS (R5, R59, R76, R167): the battery clock and the stored images, drill records and their last number are what
stays; an image being written is torn, as it has been marked since its write began. -/
def execPowerLoss (recordTorn numberTorn : Bool) (s : State) : Result :=
  if !s.power then .next s
  else
    let s := allLines.foldl (fun s l => s.onDevices l FieldDev.cold) { s with power := false }
    .next { s with dsq := { s.dsq with
      records := if recordTorn then tearFirst s.dsq.records else s.dsq.records
      lastRecord := if numberTorn then none else s.dsq.lastRecord } }

/-- A line test ends with the RESTART, without result or notice, and its record is emptied (R60). -/
def State.dropTest (s : State) (l : Nat) : State := s.onLine l fun x => { x with test := none, record := none }

/-- Every image write in progress ends before the load (R76). -/
def State.endWrites (s : State) (failed : List Region) : State :=
  allRegions.foldl
    (fun s r =>
      match s.holdAt r with
      | .committing p _ => s.writeEnds p r (!failed.contains r)
      | _ => s)
    s

/-- Running work ends with reason RESTART (R186). -/
def State.endWork (s : State) (failed : List Region) : State :=
  let s := s.dropAllParts.endAllPages.restartSession
  (allLines.foldl State.dropTest s).endWrites failed

/-- CONTROLLER_RESTART (R181, R186): the Timebase Unit keeps every one of its values (R6), also where the load of CAL has
disabled the reference (notes/assumptions/32.md). -/
def execControllerRestart (failed : List Region) (s : State) : Result :=
  event s fun s =>
    if s.restartDue then ((s.endWork failed).load).comeUp else s

end Sys2Proof.Machine
end

