-- ==== Sys2Proof/Machine/Console.lean ====
section
/-! DEFINITION. The console link character by character (R169 to R172, R176): how a port builds a request line, what a line that
has ended asks for, and the lines of a reply. The characters that have arrived wait in State as commands do; the tick takes
them (Machine/Tick.lean). -/

set_option autoImplicit false

namespace Sys2Proof.Machine

open Sys2Proof

/-! ### Building a line (R169) -/

def LineBuf.new : LineBuf := { chars := [], bad := false, tooLong := false }

/-- A printable character (R169). -/
def printable (c : Nat) : Bool := decide (32 ≤ c) && decide (c ≤ 126)

/-- A line takes a character; with an 81st it is discarded. -/
def LineBuf.put (b : LineBuf) (c : Nat) (bad : Bool) : LineBuf :=
  if b.tooLong then b
  else if 80 ≤ b.chars.length then { LineBuf.new with tooLong := true }
  else { b with chars := b.chars ++ [c], bad := b.bad || bad }

/-- A line takes what has arrived; a line feed is ignored. -/
def LineBuf.take (b : LineBuf) : LinkChar → LineBuf
  | .broken => b.put 0 true
  | .code c => if c = 10 then b else b.put c (!printable c)

/-! ### Reading a line (R170, R172) -/

/-- The keywords of R172. -/
def keywordNames : List (Keyword × String) :=
  [(.time, "TIME"), (.settime, "SETTIME"), (.adjust, "ADJUST"), (.select, "SELECT"), (.read, "READ"), (.hold, "HOLD"),
   (.release, "RELEASE"), (.discard, "DISCARD"), (.activate, "ACTIVATE"), (.write, "WRITE"), (.empty, "EMPTY"), (.ring, "RING"),
   (.bells, "BELLS"), (.page, "PAGE"), (.endPage, "END"), (.cancel, "CANCEL"), (.pages, "PAGES"), (.drill, "DRILL"),
   (.advance, "ADVANCE"), (.abort, "ABORT"), (.drillrec, "DRILLREC"), (.line, "LINE"), (.test, "TEST"), (.inject, "INJECT"),
   (.device, "DEVICE"), (.lines, "LINES"), (.zone, "ZONE"), (.next, "NEXT"), (.clear, "CLEAR"), (.quiet, "QUIET"),
   (.attend, "ATTEND"), (.notes, "NOTES"), (.note, "NOTE"), (.signal, "SIGNAL"), (.lower, "LOWER"), (.status, "STATUS"),
   (.restart, "RESTART")]

def entryMediumNames : List (EntryMedium × String) :=
  [(.zoneDefault, "ZONE-DEFAULT"), (.sounderOnly, "SOUNDER-ONLY"), (.speakerOnly, "SPEAKER-ONLY")]

def sourceNames : List (Source × String) := [(.micA, "MIC-A"), (.micB, "MIC-B"), (.aux, "AUX")]

def bankNames : List (Bank × String) := [(.live, "LIVE"), (.staged, "STAGED")]

def modeNames : List (AttMode × String) := [(.callAll, "OPEN"), (.urgentOnly, "URGENT-ONLY"), (.closed, "CLOSED")]

def yesNames : List (Bool × String) := [(true, "YES"), (false, "NO")]

def onNames : List (Bool × String) := [(true, "ON"), (false, "OFF")]

/-- An argument that is absent as a hyphen (R172). -/
def absentOr {α : Type} (f : List Nat → Option α) (w : List Nat) : Option (Option α) :=
  if w = [45] then some none else (f w).map some

/-- A notice kind by its name or its number from 1 to 16 (R183, R185); none for a word that names no kind. -/
def kind? (w : List Nat) : Option NoticeKind :=
  match number? w with
  | some n => if n = 0 then none else allKinds[n - 1]?
  | none => named? kindNames w

/-- The zones a page names: a group or a zone (R134). -/
def zoneNames? (w : List Nat) : Option ZoneNames :=
  firstOf w [fun w => (letter? "G" 2 w).map .group, fun w => (zone? w).map .zone]

/-- What a ZONE request names (R115). -/
def zoneOrTrunk? (w : List Nat) : Option ZoneOrTrunk :=
  firstOf w [fun w => (zone? w).map .zone, fun w => (letter? "T" 1 w).map .trunk]

/-- The arguments of a TEST after its line (R172): mode, address, duration; only FAR has an address. -/
def testArgs? : List (List Nat) → Option (TestMode × Option Nat)
  | mode :: rest =>
    let duration : List (List Nat) → Option (Option Nat)
      | [] => some none
      | [d] => absentOr number? d
      | _ => none
    if mode = codes "FAR" then
      match rest with
      | a :: ds => do
        let a ← number? a
        let d ← duration ds
        some (.far a, d)
      | [] => none
    else do
      let m ← if mode = codes "INNER" then some TestMode.inner else if mode = codes "PASS" then some TestMode.pass else none
      match rest with
      | [] => some (m, none)
      | a :: ds => if a = [45] then (duration ds).map fun d => (m, d) else none
  | [] => none

/-- The fields of a WRITE by the cursor's table (R176): a label is the last field of PLAN, kept as typed with its spaces. -/
def fields? (table : Option Tbl) (args typed : List (List Nat)) : Option (List Field) :=
  match table with
  | some .plan => do
    let fs ← each? field? (args.take 4)
    match typed.drop 4 with
    | [] => some fs
    | ws => some (fs ++ [if joined 32 ws = [45] then .hyphen else .label (joined 32 ws)])
  | _ => each? field? args

/-- The time, plan and bell requests by keyword and arguments, in capitals (R172). -/
def planArgs? (p : Port) (op : Fin 16) (cur : Option Tbl) (kw : Keyword) (args typed : List (List Nat)) : Option Instr :=
  match kw, args with
  | .time, [] => some (.time p op)
  | .settime, [d, t] => do
    let d ← date? d
    let t ← timeMs? t
    some (.settime p op d t.1 t.2)
  | .adjust, [n] => (signed? n).map (.adjust p op)
  | .select, [r, t, i, b] => do
    let r ← named? regionNames r
    let i ← number? i
    let b ← named? bankNames b
    if t.isEmpty then none else some (.select p op r (named? tableNames t) i b)
  | .read, [] => some (.read p op)
  | .hold, [r] => (named? regionNames r).map (.hold p op)
  | .release, [r] => (named? regionNames r).map (.release p op)
  | .discard, [r] => (named? regionNames r).map (.discard p op)
  | .activate, [r] => (named? regionNames r).map (.activate p op)
  | .write, _ => (fields? cur args typed).map (.write p op)
  | .empty, [] => some (.empty p op)
  | .ring, [g, n, m] => do
    let g ← letter? "G" 2 g
    let n ← letter? "P" 2 n
    let m ← named? entryMediumNames m
    some (.ring p op g n m)
  | .bells, [] => some (.bells p op)
  | _, _ => none

/-- The page and drill requests (R172). -/
def workArgs? (p : Port) (op : Fin 16) (kw : Keyword) (args : List (List Nat)) : Option Instr :=
  match kw, args with
  | .page, [c, n, z, t, l, x] => do
    let c ← named? sourceNames c
    let n ← number? n
    let z ← zoneNames? z
    let t ← absentOr (letter? "P" 2) t
    let l ← absentOr number? l
    let x ← named? yesNames x
    some (.page p op c n z t l x)
  | .endPage, [n] => (number? n).map (.endPage p op)
  | .cancel, [n] => (number? n).map (.cancel p op)
  | .pages, [] => some (.pages p op)
  | .drill, [x] => (letter? "X" 1 x).map fun x => .drill p op x none
  | .drill, [x, b] => do
    let x ← letter? "X" 1 x
    let b ← absentOr (set? line?) b
    some (.drill p op x b)
  | .advance, [n] => (number? n).map (.advance p op)
  | .abort, [] => some (.abort p op)
  | .drillrec, [n] => if n = codes "NOW" then some (.drillrec p op none) else (number? n).map fun n => .drillrec p op (some n)
  | _, _ => none

/-- The requests of lines, zones, notices and ports (R172). -/
def plainArgs? (p : Port) (op : Fin 16) (kw : Keyword) (args : List (List Nat)) : Option Instr :=
  match kw, args with
  | .line, [l] => (line? l).map (.line p op)
  | .test, [l] => (line? l).map (.testRead p op)
  | .test, l :: rest => do
    let l ← line? l
    let m ← testArgs? rest
    some (.test p op l m.1 m.2)
  | .inject, [l] => (line? l).map (.inject p op)
  | .device, [l, a] => do
    let l ← line? l
    let a ← number? a
    some (.device p op l a)
  | .lines, [] => some (.lines p op)
  | .zone, [z] => (zoneOrTrunk? z).map (.zone p op)
  | .next, [] => some (.next p op)
  | .clear, [k, n] => if k.isEmpty then none else (number? n).map (.clear p op (kind? k))
  | .quiet, [k, b] => if k.isEmpty then none else (named? onNames b).map (.quiet p op (kind? k))
  | .attend, [m] => (named? modeNames m).map (.attend p op)
  | .notes, [] => some (.notes p op)
  | .note, [k, v] => do
    let k ← number? k
    let v ← number? v
    some (.note p op k v)
  | .signal, [n] => (number? n).map (.signal p op)
  | .lower, [n] => (number? n).map (.lower p op)
  | .status, [] => some (.status p op)
  | .restart, [] => some (.restart p op)
  | _, _ => none

/-- Step 3 of R170: the arguments of a keyword. A WRITE with the cursor unset passes it over (R176). -/
def arguments? (p : Port) (op : Fin 16) (cur : Option Tbl) (kw : Keyword) (args typed : List (List Nat)) : Option Instr :=
  if kw = .write ∧ cur = none then some (.write p op [])
  else firstOf () [fun _ => planArgs? p op cur kw args typed, fun _ => workArgs? p op kw args, fun _ => plainArgs? p op kw args]

/-- The operator number of step 1 of R170: two digits from 00 to 15. -/
def operator? (a b : Nat) : Option (Fin 16) :=
  match number? [a, b] with
  | some n => if h : n < 16 then some ⟨n, h⟩ else none
  | none => none

/-- What a line of readable characters asks for (R170): a request, or a line that fails step 1, 2 or 3. -/
def readLine (p : Port) (cur : Option Tbl) (cs : List Nat) : Instr :=
  match cs with
  | a :: b :: 32 :: rest =>
    match operator? a b, cutAt 32 rest with
    | some op, kw :: args =>
      if kw.isEmpty then .unknownKeyword p .badStart
      else
        match named? keywordNames (kw.map capital) with
        | none => .unknownKeyword p .noKeyword
        | some k => (arguments? p op cur k (args.map fun w => w.map capital) args).getD (.unknownKeyword p .badArguments)
    | _, _ => .unknownKeyword p .badStart
  | _ => .unknownKeyword p .badStart

/-- What a line gives when its carriage return comes (R169, R171): nothing where it has no characters. -/
def State.lineEnded (s : State) (p : Port) (b : LineBuf) : List Instr :=
  if b.chars.isEmpty && !b.tooLong then []
  else if (s.port p).reply.isSome then [.lineWhileBusy p]
  else if b.tooLong || b.bad then [.unreadableLine p]
  else [readLine p ((s.port p).cursor.map Cursor.table) b.chars]

/-- A port takes the next character that has arrived; what comes before start-up has ended is discarded (R186). -/
def State.takeChar (s : State) (p : Port) : State :=
  match (s.port p).arriving with
  | [] => s
  | c :: cs =>
    let x := { s.port p with arriving := cs }
    s.setPort p { x with typed := if !s.reads || decide (c = .code 13) then LineBuf.new else x.typed.take c }

/-- The command that the next character of a port brings: its line ends with a carriage return. -/
def State.charCommand (s : State) (p : Port) : List Instr :=
  if s.reads && decide ((s.port p).arriving.head? = some (.code 13)) then s.lineEnded p (s.port p).typed else []

/-! ### The lines of a reply (R169, section 4.3) -/

/-- The reply word of a refusal. -/
def noText : NoReason → List Nat
  | .badSyntax => codes "NO SYNTAX"
  | .unknown => codes "NO UNKNOWN"
  | .cls => codes "NO CLASS"
  | .rights => codes "NO RIGHTS"
  | .held => codes "NO HELD"
  | .notHeld => codes "NO NOTHELD"
  | .busy => codes "NO BUSY"
  | .state => codes "NO STATE"
  | .range => codes "NO RANGE"
  | .full => codes "NO FULL"
  | .invalid t i => codes "NO INVALID " ++ nameText tableNames t ++ [32] ++ decimal i
  | .empty => codes "NO EMPTY"

/-- What a reply carries beside its reply word, where no rule gives the text: printable characters (R169). -/
def Reply.free (r : Reply) (k : Nat) : List Nat := (Config.replyText r k).map fun c => 32 + c % 95

/-- The first line of a reply: one of the reply words, and what follows it. -/
def Reply.firstLine (r : Reply) : List Nat :=
  match r with
  | .ok => codes "OK"
  | .okClamped => codes "OK CLAMPED"
  | .okNumber clamped n => (if clamped then codes "OK CLAMPED " else codes "OK ") ++ decimal n
  | .okEmpty => codes "OK EMPTY"
  | .no why => noText why
  | .entry fs => codes "OK " ++ joined 32 (fs.map fieldText)
  | _ => codes "OK " ++ r.free 0

/-- How many records a reply carries, each on a line of its own (R133, R149, R169). -/
def Reply.records : Reply → Nat
  | .bells b => b.jobs.length
  | .pages ps => ps.length
  | .lines ls => ls.length
  | _ => 0

/-- The characters of a reply: its lines, each ending in carriage return and line feed, and an empty line (R169). -/
def Reply.text (r : Reply) : List Nat :=
  let records := (List.range r.records).map fun k => r.free (k + 1)
  (r.firstLine :: records ++ [[]]).flatMap fun l => l ++ [13, 10]

/-- What a port is sending: the text of the reply in progress. -/
def PortSt.sending (x : PortSt) : List Nat := (x.reply.map Reply.text).getD []

end Sys2Proof.Machine
end

