-- ==== Sys2Proof/Machine/Tick.lean ====
section
/-! DEFINITION. The tick, which is what a step does on an empty queue (DESIGN CHOICE, notes/assumptions/1.md): one eighth of
elapsed time passes (section 4.1), each console port takes the next character that has arrived, and the commands whose time
has come, or whose line has ended, are put on the queue. A command finds for itself whether it is due; the tick only sends
those that are. -/

set_option autoImplicit false

namespace Sys2Proof.Machine

open Sys2Proof

/-! ### What has become due, block by block -/

/-- A command that is sent where a condition holds. -/
def sendIf (b : Bool) (c : Instr) : List Instr := if b then [c] else []

/-- The Timebase Unit: boundaries, the holdover age, and silence on the reference line (R1, R9, R13). -/
def State.dueTime (s : State) : List Instr :=
  sendIf (decide (s.tbu.len ≤ s.tbu.phase)) .secondBoundary ++ sendIf s.tbu.unsyncDue .holdoverAgeUnsync ++
    match s.watched with
    | none => []
    | some c =>
      sendIf ((silenceAt c.slots).any fun d => s.reached (c.at_ + d)) .silenceSlot ++
        sendIf (s.reached (c.at_ + 24000)) .referenceAbsent

/-- Bell jobs: deferral limits and changes of sounder timelines (R105, R129). -/
def State.dueBells (s : State) : List Instr :=
  s.bds.queue.flatMap fun j =>
    sendIf (!(s.expiredWaits j.num).isEmpty) (.deferralLimitExpiry j.num) ++
      (j.parts.filter fun p => (partChangeAt j p).any s.reached).map fun p => .sounderTimelineChange j.num p.zone

/-- One trunk: the end of a tone or pre-tone, pauses and idle silences (R107, R108). -/
def State.dueTrunk (s : State) (t : Fin 4) : List Instr :=
  match s.trunkAt t.val with
  | none => []
  | some u =>
    sendIf (u.toneUntil.any s.reached) (if u.isTone then .toneEnd t else .pretoneEnd t) ++
      match u.silence with
      | none => []
      | some q =>
        sendIf (!q.paused && s.reached (q.since + 8 * q.pauseLength)) (.pause t) ++
          sendIf (!q.idled && s.reached (q.since + 8000 * q.idleLimit)) (.idle t)

/-- Page limit timers (R146). -/
def State.duePages (s : State) : List Instr :=
  (s.pgc.queue.filter fun p => p.onAir && p.limitAt.any s.reached).map fun p => .pageLimitExpiry p.num

/-- The panel's inputs and timers (R150, R155, R156). -/
def State.duePanel (s : State) : List Instr :=
  (allInputs.flatMap fun i =>
      sendIf ((s.pnl.input i).toward.isSome && !s.pnl.sampling && s.reached ((s.pnl.input i).levelSince + s.debounce))
        (.debounceExpiry i) ++
      sendIf ((s.pnl.input i).rewires && !s.pnl.sampling && s.reached ((s.pnl.input i).circuitSince + s.debounce))
        (.wiringStateChange i)) ++
    sendIf (decide (s.pnl.state = .restoring) && s.pnl.restoreAt.any s.reached) .restoreTimerExpiry ++
    sendIf (s.pnl.sampleUntil.any s.reached) .panelSampleComplete

/-- The drill's timers (R160, R162, R163). -/
def State.dueDrill (s : State) : List Instr :=
  match s.dsq.session with
  | none => []
  | some d =>
    sendIf (!d.running && s.reached d.ackAt) .ackTimerExpiry ++
      sendIf (d.running && d.nextChange.any s.reached) .drillTimelineChange ++
      sendIf (d.running && d.stageUntil.any s.reached) .stageExpiry

/-- The values that come back from the next frame sent into the inner loop: a free value (R57). -/
def LineSt.looped (x : LineSt) (draw : Nat) : List Byte :=
  Config.loopBack draw
    ((frameValues x.prover.frames (if x.prover.injPending then some (injectPlace x.prover.frames) else none)).map byte)

/-- What the next slot of a line sends (R28). -/
def State.dueSlot (s : State) (l : Fin 6) (draw : Nat) : List Instr :=
  let x := s.lineAt l.val
  match s.workOf x with
  | .time => [.timeFrame l]
  | .discovery => [.discoveryPoll l]
  | .output _ => [.zoneOutputCommand l]
  | .clock _ => [.clockSet l]
  | .poll _ => [.poll l]
  | .search => [.searchPoll l]
  | .recovery => [.recoveryPoll l]
  | .none =>
    if s.slotReady x && decide (x.state = .test) then
      match s.testSlot x with
      | some (.up _ _) => [.loopUp l]
      | some (.proving .inner) => [.provingFrame l (x.looped draw)]
      | some (.proving _) => [.provingFrame l []]
      | some (.down _ _) => [.loopDown l]
      | none => []
    else []

/-- The eighths a transaction can last: a poll, its full reply window and the longest reply (R28). -/
abbrev longestTransaction : Nat := 176

/-- A line's timers and windows (R24, R28, R38, R57, R58). -/
def State.dueLine (s : State) (l : Fin 6) (draw : Nat) : List Instr :=
  let x := s.lineAt l.val
  match x.state with
  | .proving =>
    sendIf (decide (x.prover.frames < 40) && s.reached (x.since + 200 * x.prover.frames)) (.provingFrame l (x.looped draw)) ++
      sendIf (s.reached (x.since + 8000)) (.provingEnd l)
  | .powering => sendIf (s.reached (x.since + 16000)) (.poweringEnd l)
  | _ =>
    s.dueSlot l draw ++
      (match x.transaction with
       | some t => sendIf (s.reached (t.since + longestTransaction)) (if t.proving then .echoMissing l else .miss l)
       | none => []) ++
      match x.test, x.record with
      | some t, some r =>
        sendIf (s.provingPart x && !t.echoed && t.upAt.any fun b => s.reached (b + 8000)) (.noEchoTimeout l) ++
          sendIf (s.provingPart x && s.durationOver x r && x.transaction.isNone) (.testDurationEnd l)
      | _, _ => []

/-- The store's timers (R67, R75): an image write has ended by its 2 s, good or bad. -/
def State.dueStore (s : State) (draw : Nat) : List Instr :=
  allRegions.flatMap fun r =>
    match s.holdAt r with
    | .held _ t => sendIf (s.reached t) (.holdExpiry r)
    | .committing _ t => sendIf (s.reached t) (.imageWriteEnd r (Config.imageWriteGood (draw + regionIdx r)))
    | .free => []

/-- A RESTART begins with the end of its reply; the image writes in progress end with it (R75, R181). -/
def State.dueRestart (s : State) (draw : Nat) : List Instr :=
  sendIf s.restartDue
    (.controllerRestart
      (allRegions.filter fun r =>
        match s.holdAt r with
        | .committing _ _ => !Config.imageWriteGood (draw + regionIdx r)
        | _ => false))

/-- One field device's own timers (R45, R59). -/
def State.dueDevice (s : State) (l : Fin 6) (a : Nat) : List Instr :=
  let d := s.fieldAt l.val a
  sendIf (d.bellOn && s.reached d.holdUntil) (.holdForExpiry l a) ++
    sendIf (d.trunk.isSome && s.reached (d.lastValid + 24000)) (.speakerSilenceMute l a) ++
    sendIf (d.echo.any fun t => s.reached (t + 480000)) (.echoTimeout l a)

/-- The lines by their type. -/
def eachLine : List (Fin 6) := [0, 1, 2, 3, 4, 5]

def eachTrunk : List (Fin 4) := [0, 1, 2, 3]

/-- The free values one tick may use: one for each line and each region. -/
abbrev drawsPerTick : Nat := 16

/-- Every command whose time has come, and those of the request lines that end. -/
def State.dueNow (s : State) : List Instr :=
  s.charCommand .a ++ s.charCommand .b ++ s.dueTime ++ s.dueBells ++ eachTrunk.flatMap s.dueTrunk ++ s.duePages ++ s.duePanel ++ s.dueDrill ++
    (eachLine.flatMap fun l => s.dueLine l (s.draws + l.val)) ++ s.dueStore (s.draws + 6) ++ s.dueRestart (s.draws + 6) ++
    eachLine.flatMap fun l => allAddrs.flatMap fun a => s.dueDevice l a

/-! ### The order of commands due together -/

/-- Take commands one by one from a list, each time the one a free value names: nothing says which of those that arrive
together is taken first. The draws used are counted from `k`. -/
def arrange : Nat → Nat → List Instr → List Instr
  | 0, _, cs => cs
  | n + 1, k, cs =>
    match cs with
    | [] => []
    | [c] => [c]
    | c :: _ =>
      let i := Config.tieOrder k % cs.length
      cs[i]?.getD c :: arrange n (k + 1) (cs.eraseIdx i)

/-- The tick: an eighth passes, and what has become due is sent. Without power the oscillator stands. -/
def State.tick (s : State) : State :=
  if s.power then
    let s := { s with now := s.now + 1, tbu := { s.tbu with phase := s.tbu.phase + 1 } }
    let cs := s.dueNow
    let s := (s.takeChar .a).takeChar .b
    if cs.isEmpty then s
    else { s with pending := arrange cs.length (s.draws + drawsPerTick) cs, draws := s.draws + drawsPerTick + cs.length }
  else s

end Sys2Proof.Machine
end

