-- ==== Sys2Proof/Machine/Dispatch.lean ====
section
/-! DEFINITION. One arm for each command: its meaning. -/

namespace Sys2Proof.Machine

open Sys2Proof

def exec (i : Instr) (s : State) : Host.Outcome State Fault Refusal :=
  match i with
  | .powerOn batteryGood seconds => Sys2Proof.Machine.execPowerOn batteryGood seconds s
  | .powerLoss recordTorn numberTorn => Sys2Proof.Machine.execPowerLoss recordTorn numberTorn s
  | .controllerRestart failed => Sys2Proof.Machine.execControllerRestart failed s
  | .secondBoundary => Sys2Proof.Machine.execSecondBoundary s
  | .holdoverAgeUnsync => Sys2Proof.Machine.execHoldoverAgeUnsync s
  | .referenceMark date time => Sys2Proof.Machine.execReferenceMark date time s
  | .silenceSlot => Sys2Proof.Machine.execSilenceSlot s
  | .referenceAbsent => Sys2Proof.Machine.execReferenceAbsent s
  | .time p op => Sys2Proof.Machine.execTime p op s
  | .settime p op date time ms => Sys2Proof.Machine.execSettime p op date time ms s
  | .adjust p op ms => Sys2Proof.Machine.execAdjust p op ms s
  | .deferralLimitExpiry job => Sys2Proof.Machine.execDeferralLimitExpiry job s
  | .sounderTimelineChange job zone => Sys2Proof.Machine.execSounderTimelineChange job zone s
  | .toneEnd t => Sys2Proof.Machine.execToneEnd t s
  | .ring p op group pattern medium => Sys2Proof.Machine.execRing p op group pattern medium s
  | .bells p op => Sys2Proof.Machine.execBells p op s
  | .page p op source prio zones pretone limit part => Sys2Proof.Machine.execPage p op source prio zones pretone limit part s
  | .pretoneEnd t => Sys2Proof.Machine.execPretoneEnd t s
  | .trunkLevelChange t silent => Sys2Proof.Machine.execTrunkLevelChange t silent s
  | .pause t => Sys2Proof.Machine.execPause t s
  | .idle t => Sys2Proof.Machine.execIdle t s
  | .pageLimitExpiry page => Sys2Proof.Machine.execPageLimitExpiry page s
  | .endPage p op page => Sys2Proof.Machine.execEndPage p op page s
  | .cancel p op page => Sys2Proof.Machine.execCancel p op page s
  | .pages p op => Sys2Proof.Machine.execPages p op s
  | .inputRawChange inp raw => Sys2Proof.Machine.execInputRawChange inp raw s
  | .debounceExpiry inp => Sys2Proof.Machine.execDebounceExpiry inp s
  | .wiringStateChange inp => Sys2Proof.Machine.execWiringStateChange inp s
  | .restoreTimerExpiry => Sys2Proof.Machine.execRestoreTimerExpiry s
  | .panelSampleComplete => Sys2Proof.Machine.execPanelSampleComplete s
  | .drill p op program building => Sys2Proof.Machine.execDrill p op program building s
  | .ackTimerExpiry => Sys2Proof.Machine.execAckTimerExpiry s
  | .drillTimelineChange => Sys2Proof.Machine.execDrillTimelineChange s
  | .stageExpiry => Sys2Proof.Machine.execStageExpiry s
  | .advance p op stage => Sys2Proof.Machine.execAdvance p op stage s
  | .abort p op => Sys2Proof.Machine.execAbort p op s
  | .drillrec p op index => Sys2Proof.Machine.execDrillrec p op index s
  | .provingEnd l => Sys2Proof.Machine.execProvingEnd l s
  | .poweringEnd l => Sys2Proof.Machine.execPoweringEnd l s
  | .timeFrame l => Sys2Proof.Machine.execTimeFrame l s
  | .discoveryPoll l => Sys2Proof.Machine.execDiscoveryPoll l s
  | .poll l => Sys2Proof.Machine.execPoll l s
  | .searchPoll l => Sys2Proof.Machine.execSearchPoll l s
  | .recoveryPoll l => Sys2Proof.Machine.execRecoveryPoll l s
  | .zoneOutputCommand l => Sys2Proof.Machine.execZoneOutputCommand l s
  | .clockSet l => Sys2Proof.Machine.execClockSet l s
  | .reply l start bytes => Sys2Proof.Machine.execReply l start bytes s
  | .miss l => Sys2Proof.Machine.execMiss l s
  | .line p op n => Sys2Proof.Machine.execLine p op n s
  | .test p op n mode seconds => Sys2Proof.Machine.execTest p op n mode seconds s
  | .testRead p op n => Sys2Proof.Machine.execTestRead p op n s
  | .inject p op n => Sys2Proof.Machine.execInject p op n s
  | .loopUp l => Sys2Proof.Machine.execLoopUp l s
  | .provingFrame l back => Sys2Proof.Machine.execProvingFrame l back s
  | .echo l start bytes => Sys2Proof.Machine.execEcho l start bytes s
  | .echoMissing l => Sys2Proof.Machine.execEchoMissing l s
  | .noEchoTimeout l => Sys2Proof.Machine.execNoEchoTimeout l s
  | .testDurationEnd l => Sys2Proof.Machine.execTestDurationEnd l s
  | .loopDown l => Sys2Proof.Machine.execLoopDown l s
  | .device p op n addr => Sys2Proof.Machine.execDevice p op n addr s
  | .lines p op => Sys2Proof.Machine.execLines p op s
  | .zone p op what => Sys2Proof.Machine.execZone p op what s
  | .select p op region table index bank => Sys2Proof.Machine.execSelect p op region table index bank s
  | .read p op => Sys2Proof.Machine.execRead p op s
  | .write p op fields => Sys2Proof.Machine.execWrite p op fields s
  | .empty p op => Sys2Proof.Machine.execEmpty p op s
  | .hold p op region => Sys2Proof.Machine.execHold p op region s
  | .release p op region => Sys2Proof.Machine.execRelease p op region s
  | .discard p op region => Sys2Proof.Machine.execDiscard p op region s
  | .activate p op region => Sys2Proof.Machine.execActivate p op region s
  | .holdExpiry region => Sys2Proof.Machine.execHoldExpiry region s
  | .imageWriteEnd region good => Sys2Proof.Machine.execImageWriteEnd region good s
  | .keySwitchRun => Sys2Proof.Machine.execKeySwitchRun s
  | .keySwitchSetup => Sys2Proof.Machine.execKeySwitchSetup s
  | .next p op => Sys2Proof.Machine.execNext p op s
  | .clear p op kind n => Sys2Proof.Machine.execClear p op kind n s
  | .quiet p op kind on => Sys2Proof.Machine.execQuiet p op kind on s
  | .attend p op mode => Sys2Proof.Machine.execAttend p op mode s
  | .note p op slot value => Sys2Proof.Machine.execNote p op slot value s
  | .notes p op => Sys2Proof.Machine.execNotes p op s
  | .signal p op n => Sys2Proof.Machine.execSignal p op n s
  | .lower p op n => Sys2Proof.Machine.execLower p op n s
  | .status p op => Sys2Proof.Machine.execStatus p op s
  | .restart p op => Sys2Proof.Machine.execRestart p op s
  | .unreadableLine p => Sys2Proof.Machine.execUnreadableLine p s
  | .unknownKeyword p why => Sys2Proof.Machine.execUnknownKeyword p why s
  | .lineWhileBusy p => Sys2Proof.Machine.execLineWhileBusy p s
  | .replySent p => Sys2Proof.Machine.execReplySent p s
  | .roomClockFrame l addr bytes => Sys2Proof.Machine.execRoomClockFrame l addr bytes s
  | .bellUnitCommand l addr bytes => Sys2Proof.Machine.execBellUnitCommand l addr bytes s
  | .holdForExpiry l addr => Sys2Proof.Machine.execHoldForExpiry l addr s
  | .speakerNodeCommand l addr bytes => Sys2Proof.Machine.execSpeakerNodeCommand l addr bytes s
  | .speakerSilenceMute l addr => Sys2Proof.Machine.execSpeakerSilenceMute l addr s
  | .clearStationPress l addr => Sys2Proof.Machine.execClearStationPress l addr s
  | .deviceLoopUp l addr bytes => Sys2Proof.Machine.execDeviceLoopUp l addr bytes s
  | .deviceLoopDown l addr bytes => Sys2Proof.Machine.execDeviceLoopDown l addr bytes s
  | .echoTimeout l addr => Sys2Proof.Machine.execEchoTimeout l addr s
  | .amplifierFaultChange l addr fault => Sys2Proof.Machine.execAmplifierFaultChange l addr fault s

end Sys2Proof.Machine
end

