-- ==== Sys2Proof/Safety.lean ====
section
/-! DEFINITION. What a safe run keeps: the laws that the manual states of the device, as conditions on a state, and the parts of
State that the zone, bell, page, drill and line machinery leaves as they are. -/

set_option autoImplicit false

namespace Sys2Proof

/-- The commands of the field devices, which name one by its line and address. -/
def Instr.device? : Instr → Option (Fin 6 × Nat)
  | .roomClockFrame l a _ | .bellUnitCommand l a _ | .holdForExpiry l a | .speakerNodeCommand l a _ | .speakerSilenceMute l a
  | .clearStationPress l a | .deviceLoopUp l a _ | .deviceLoopDown l a _ | .echoTimeout l a | .amplifierFaultChange l a _ =>
    some (l, a)
  | _ => none

end Sys2Proof

namespace Sys2Proof.Machine

open Sys2Proof

/-! ### Laws of a state between commands -/

/-- R183: a port's attention line is active exactly when it has a flagged notice whose kind is not quiet and whose level
passes the port's attention mode. -/
def State.attentionLaw (s : State) : Prop := ∀ p : Port, (s.ntu.get p).attention = s.calls p

/-- Between commands nothing is half done: the zone controller has no work left over, every page in the queue is QUEUED or
started (R135, R136), and the attention lines stand as R183 says. -/
def State.restingLaw (s : State) : Prop :=
  s.ztc.agenda = [] ∧ (s.pgc.queue.all fun p => !p.hasEnded) = true ∧ s.attentionLaw

/-- The ranges that R16 gives as a law of the device: the slew remainder, the drift setting (and the battery clock's copy
of it) and the drift accumulator; and R2's: the length of the second. -/
def Tbu.rangeLaw (t : Tbu) : Prop :=
  (-4000 ≤ t.slew ∧ t.slew ≤ 4000) ∧ (-2880 ≤ t.drift ∧ t.drift ≤ 2880) ∧ (-3599 ≤ t.acc ∧ t.acc ≤ 3599) ∧
    (7991 ≤ t.len ∧ t.len ≤ 8009) ∧ (-2880 ≤ t.battery.drift ∧ t.battery.drift ≤ 2880)

/-- The ranges of the time settings that the law above rests on (R86). -/
def TimeSet.rangeLaw (c : TimeSet) : Prop := c.slewLimit ≤ 8 ∧ c.stepThreshold ≤ 500

/-- The Timebase Unit's ranges, with those of the time settings in every bank and image that can become live. -/
def State.timeLaw (s : State) : Prop :=
  s.tbu.rangeLaw ∧ s.store.live.cal.timeSet.rangeLaw ∧ s.store.staged.cal.timeSet.rangeLaw ∧ s.store.images.cal.timeSet.rangeLaw

/-- A MANUAL key carries this job number (R123); any other key carries none. -/
def EntryKey.fits (k : EntryKey) (n : Nat) : Bool :=
  match k with
  | .manual m => m = n
  | _ => true

/-- A key of the effective list (R91), which is not MANUAL. -/
def EntryKey.listed : EntryKey → Bool
  | .manual _ => false
  | _ => true

/-- R124's law: at most 8 jobs, no two with the same entry key and date. A MANUAL key is its job's number (R123), and the
effective list holds none. -/
def State.bellLaw (s : State) : Prop :=
  s.bds.queue.length ≤ 8 ∧ (s.bds.queue.map fun j => (j.key, j.day)).Nodup ∧ (∀ j, j ∈ s.bds.queue → j.key.fits j.num = true) ∧
    (∀ e, e ∈ s.bds.list → e.key.listed = true)

/-- R135's law: at most 3 pages, no two of the same source. -/
def State.pageLaw (s : State) : Prop := s.pgc.queue.length ≤ 3 ∧ (s.pgc.queue.map Page.source).Nodup

/-- R166's law: a session is RUNNING only while DRILL-ACK is active and the panel state NORMAL. A session exists only in panel
state NORMAL (R153, R159, R160), and none while the inputs are sampled (R156, R168). -/
def State.drillLaw (s : State) : Prop :=
  ∀ d, s.dsq.session = some d →
    s.pnl.state = .normal ∧ s.pnl.sampleUntil = none ∧ (d.running = true → s.pnl.drillAck.debounced = true)

/-- A run is safe while it neither faults nor is refused. -/
def safeStep (s : State) : Prop := ∃ t, step s = .next t

/-! ### Frames -/

/-- What no claim, grant, suspension, return or release of a zone or trunk touches: the state with the zone and trunk
records, the jobs, pages and session, the lines' records, the notice records and the attention lines put aside. -/
def State.rest (s : State) : State :=
  { s with
    ztc := State.reset.ztc
    bds := { s.bds with queue := [] }
    pgc := { s.pgc with queue := [] }
    dsq := { s.dsq with session := none }
    lines := []
    ntu := { a := { s.ntu.a with recs := [], attention := false }, b := { s.ntu.b with recs := [], attention := false } } }

/-- What the work of the dispatcher, the pages, the drill, the panel and the lines leaves: those blocks put aside whole. -/
def State.base (s : State) : State :=
  { s.rest with bds := State.reset.bds, pgc := State.reset.pgc, dsq := State.reset.dsq, pnl := State.reset.pnl }

/-! ### When a command is taken -/

/-- The controller has power and rests between commands. -/
def State.ready (s : State) : Prop := s.restingLaw ∧ s.power = true

/-- A request of an operator at a port reaches its block: start-up is over (R186), no request is in progress at the port
(R171), and the operator's class allows it (R170, R172). -/
def State.takes (s : State) (p : Port) (op : Fin 16) (min : OpClass) : Prop :=
  s.restingLaw ∧ s.reads = true ∧ (s.port p).reply = none ∧ s.classAllows p op min = true

/-- As `takes`, for a request of the plan: the port's rights over the region suffice too (R69, R173). -/
def State.takesPlan (s : State) (p : Port) (op : Fin 16) (min : OpClass) (r : Region) (needsEdit : Bool) : Prop :=
  s.takes p op min ∧ rightsAllow needsEdit (s.rights p r) = true

/-- The state with a reply begun at a port, and nothing else changed. -/
def State.replied (s : State) (p : Port) (r : Reply) : State := s.setPort p { s.port p with reply := some r }

/-- The state with one notice taken at both ports and the attention lines set by it. -/
def State.noticed (s : State) (k : NoticeKind) (d : Detail) : State := (s.raise k d).rejudge

/-- The state as a command leaves it, once what it set going inside the zone controller is carried out and the attention lines
have followed. -/
def State.done (s : State) : State := s.settle.rejudge

/-- A line controller with its device records and output list put aside. -/
def LineSt.core (x : LineSt) : LineSt := { x with recs := [], outAlarm := [], outOrd := [] }

/-- The lines with their output lists put aside, which is all that the zone controller touches of a line. -/
def State.wires (s : State) : Nat → LineSt := fun l => { s.lineAt l with outAlarm := [], outOrd := [] }

/-- Whether no drill session exists. -/
def State.drillIdle (s : State) : Bool := s.dsq.session.isNone

/-- The table an entry belongs to (R64). -/
def Entry.table : Entry → Tbl
  | .weekday _ => .weekday
  | .dayType _ => .daytype
  | .except _ => .except
  | .timeSet _ => .timeset
  | .plan _ => .plan
  | .override _ => .override
  | .pattern _ => .pattern
  | .segment _ => .segment
  | .group _ => .group
  | .zone _ => .zone
  | .zoneSet _ => .zoneset
  | .program _ => .program
  | .stage _ => .stage
  | .schedule _ => .schedule
  | .drillSet _ => .drillset
  | .line _ => .line
  | .device _ => .device
  | .poll _ => .poll
  | .portSet _ => .portset
  | .operator _ => .operator
  | .level _ => .level

/-! ### Frames that can be sent (R50) -/

/-- A time of day. -/
def hmsFits (h m sec : Nat) : Prop := h ≤ 23 ∧ m ≤ 59 ∧ sec ≤ 59

def Report.fits : Report → Prop
  | .clock h m sec => hmsFits h m sec
  | .bell _ => True
  | .speaker t _ => ∀ n, t = some n → n ≤ 3
  | .clear n => n ≤ 255

/-- The values of a frame lie in the ranges of the layout of R50. -/
def Frame.fits : Frame → Prop
  | .time n day h m sec ms _ _ _ _ _ => n ≤ 4095 ∧ day ≤ 36524 ∧ hmsFits h m sec ∧ ms ≤ 999
  | .poll a z => (1 ≤ a ∧ a ≤ 24) ∧ ∀ n, z = some n → n ≤ 31
  | .reply a serial r => (1 ≤ a ∧ a ≤ 24) ∧ serial ≤ 999999 ∧ r.fits
  | .output z _ hold t => z ≤ 31 ∧ hold ≤ 10500 ∧ ∀ n, t = some n → n ≤ 3
  | .clockSet a day h m sec ms => (1 ≤ a ∧ a ≤ 24) ∧ day ≤ 36524 ∧ hmsFits h m sec ∧ ms ≤ 999
  | .loopUp a | .loopDown a => 1 ≤ a ∧ a ≤ 24
  | .proving a vs => a ≤ 24 ∧ vs.length = 16

end Sys2Proof.Machine
end

