-- ==== Sys2Proof/Certificates/Slice0/Obligations.lean ====
section
/-! DEFINITION. The statements for the provers. `Sys2Proof.Machine.State.takes`, `takesPlan` and `ready` (Safety.lean) are the
hypotheses on the state; `replied p r` is the state with reply `r` begun at port `p` and nothing else changed, so a statement
`exec c s = .next (u.replied p r)` says the whole effect and frame of `c`. -/

set_option autoImplicit false

open Sys2Proof Sys2Proof.Machine

/-! ### The step and the whole machine -/

/-- A step carries out the command at the front of the queue on the state with the queue's rest. -/
def Obligations.StepRunsFrontCommand : Prop :=
  ∀ (s : State) (c : Instr) (cs : List Instr), step { s with pending := c :: cs } = exec c { s with pending := cs }

/-- With no command waiting, a step lets one eighth of elapsed time pass (the model's choice, notes/assumptions/1.md): the
elapsed count and the phase of the second go up by one, each console port takes its next character (the model's choice,
notes/assumptions/41.md), the commands that are due then join the queue, each once and in some order, and nothing else
changes; without power nothing changes at all. -/
def Obligations.EmptyQueueLetsAnEighthPass : Prop :=
  ∀ s u : State, s.pending = [] → u = { s with now := s.now + 1, tbu := { s.tbu with phase := s.tbu.phase + 1 } } →
    (s.power = false → step s = .next s) ∧
    (s.power = true →
      ∃ (cs : List Instr) (k : Nat), s.draws ≤ k ∧ cs.Perm u.dueNow ∧
        step s = .next { (u.takeChar .a).takeChar .b with pending := cs, draws := k })

/-- The law of the states between commands, the ranges of the Timebase Unit, and the laws of the queues and of the drill session
hold right after power-on of a new unit. -/
def Obligations.LawsHoldAtReset : Prop :=
  State.reset.restingLaw ∧ State.reset.timeLaw ∧ State.reset.bellLaw ∧ State.reset.pageLaw ∧ State.reset.drillLaw

/-- R183's law with what it rests on: whatever the step, each port's attention line is active exactly when a flagged, not
quiet kind calls, the zone controller has no work left over and no ended page stands in the queue. -/
def Obligations.RestingLawKept : Prop := ∀ s t : State, s.restingLaw → step s = .next t → t.restingLaw

/-- The laws of sections 1.1.1 and 1.5: every step keeps the slew remainder within 4,000, the drift setting within 2,880, the
drift accumulator within 3,599 and the length of the second from 7,991 to 8,009, given the ranges of the time settings in the
banks and images, which it keeps too. -/
def Obligations.TimeLawKept : Prop := ∀ s t : State, s.timeLaw → step s = .next t → t.timeLaw

/-- The laws of sections 7.6 and 8.1: every step keeps the Bell Ready Queue at 8 jobs at most, no two with the same entry key and
date, and the Page Queue at 3 pages at most, no two of the same source. (With them goes what they rest on: a MANUAL key is the
job's own number, and no entry of the effective list has one.) -/
def Obligations.QueueLawsKept : Prop :=
  ∀ s t : State, s.bellLaw ∧ s.pageLaw → step s = .next t → t.bellLaw ∧ t.pageLaw

/-- The law of section 9.7: whatever the step, a drill session is RUNNING only while DRILL-ACK is active and the panel state is
NORMAL. (With it goes what it rests on: a session exists only in panel state NORMAL and not while the inputs are sampled.) -/
def Obligations.DrillLawKept : Prop := ∀ s t : State, s.drillLaw → step s = .next t → t.drillLaw

/-- No command touches the queue of waiting commands. -/
def Obligations.CommandsLeaveTheQueue : Prop := ∀ (c : Instr) (s t : State), exec c s = .next t → t.pending = s.pending

/-- Every command of the controller answers a next state in every state, also without power (notes/assumptions/10.md, DEDUCED);
a command of a field device does where its address is 1 to 24, and stops where the line has no such address (the model's
choice, notes/assumptions/11.md). -/
def Obligations.OnlyAbsentAddressesStop : Prop :=
  ∀ (c : Instr) (s : State),
    match c.device? with
    | none => ∃ t, exec c s = .next t
    | some (_, a) => if 1 ≤ a ∧ a ≤ 24 then ∃ t, exec c s = .next t else exec c s = .fault (.noSuchAddress a)

/-- Campus time is moved by the end of a second, a reference mark, SETTIME and power-on alone. -/
def Obligations.CampusTimeMovers : Prop :=
  ∀ (c : Instr) (s t : State), exec c s = .next t →
    (∀ b n, c ≠ .powerOn b n) → c ≠ .secondBoundary → (∀ d m, c ≠ .referenceMark d m) →
    (∀ p op d m n, c ≠ .settime p op d m n) →
    t.tbu.day = s.tbu.day ∧ t.tbu.sec = s.tbu.sec ∧ t.tbu.phase = s.tbu.phase ∧ t.tbu.len = s.tbu.len

/-- A live bank is changed by ACTIVATE of its own region and by a load at power-on or RESTART alone. -/
def Obligations.LiveBankMovers : Prop :=
  ∀ (c : Instr) (s t : State) (r : Region), exec c s = .next t →
    (∀ b n, c ≠ .powerOn b n) → (∀ f, c ≠ .controllerRestart f) → (∀ p op, c ≠ .activate p op r) →
    copyRegion r t.store.live s.store.live = s.store.live

/-- A command of a field device changes that device alone. -/
def Obligations.DeviceCommandFrame : Prop :=
  ∀ (c : Instr) (l : Fin 6) (a : Nat) (s t : State), c.device? = some (l, a) → exec c s = .next t →
    ∃ d : FieldDev, t = s.setField l.val a d

/-! ### Campus time (chapter 1) -/

/-- The arithmetic of slew and drift: the length of a second and what it takes from the slew remainder and the drift accumulator;
and what a slew evaluation leaves: the remainder is minus the offset, and the drift setting takes its nudge, written to the
battery clock, only in LOCKED with the nudge-ready flag set. -/
def Obligations.SlewAndDriftArithmetic : Prop :=
  (∀ (t : Tbu) (limit : Nat), limit ≤ 8 → -3599 ≤ t.acc → t.acc ≤ 3599 → -2880 ≤ t.drift → t.drift ≤ 2880 →
      ∃ c d : Int,
        c.natAbs = min t.slew.natAbs limit ∧ (0 ≤ t.slew → 0 ≤ c) ∧ (t.slew ≤ 0 → c ≤ 0) ∧
        d = (if 3600 ≤ t.acc + t.drift then 1 else if t.acc + t.drift ≤ -3600 then -1 else 0) ∧
        t.startSecond limit =
          { t with slew := t.slew - c, acc := t.acc + t.drift - 3600 * d, len := (8000 - c - d).toNat } ∧
        7991 ≤ 8000 - c - d ∧ 8000 - c - d ≤ 8009 ∧
        -3599 ≤ t.acc + t.drift - 3600 * d ∧ t.acc + t.drift - 3600 * d ≤ 3599) ∧
  (∀ (t : Tbu) (e8 : Int) (n : Nat),
      (t.slewBy e8 n).slew = -e8 ∧
      (t.disc = .locked → t.nudgeReady = true →
        ∃ q : Int, q = max (-64) (min 64 (Int.tdiv (-e8 * 450) (Int.ofNat n))) ∧
          (t.slewBy e8 n).drift = max (-2880) (min 2880 (t.drift + q)) ∧ (t.slewBy e8 n).battery.drift = (t.slewBy e8 n).drift) ∧
      (t.disc ≠ .locked ∨ t.nudgeReady = false →
        (t.slewBy e8 n).drift = t.drift ∧ (t.slewBy e8 n).battery = t.battery) ∧
      ((t.slewBy e8 n).nudgeReady = true ↔ t.disc = .locked) ∧
      (t.slewBy e8 n).day = t.day ∧ (t.slewBy e8 n).sec = t.sec ∧ (t.slewBy e8 n).phase = t.phase ∧
      (t.slewBy e8 n).acc = t.acc ∧ (t.slewBy e8 n).len = t.len)

/-- SECOND_BOUNDARY at the end of a second: campus time goes on by one second, over midnight and over the end of 2099, the
new second has its length, the holdover age counts, the battery clock is loaded, the six lines begin a line second, and the
dispatcher and the sequencer take the event: the gate, the effective list of the date and the marks. (A phase already beyond
the length starts the new second at 0 too: notes/assumptions/16.md, DEDUCED. The wanted outputs of the zones, the panel link and
what stands in the queues are not spoken of here.) What is due at a boundary or a step is said of the dispatcher and the
sequencer themselves: with the gate open before and after, the entries later than the mark and not later than the campus second
fire, each once and in order; at a step those due earlier than the new second less the catch-up window are skipped with one
BELL-SKIPPED; with the gate closed nothing fires. An entry that fires makes its job, or is told BELL-OVERRUN (FULL also where the
queue holds a job of its key and date: notes/assumptions/45.md, DESIGN CHOICE); a drill entry starts its session where it
may, or writes its SKIPPED record, as does one whose program has no stage (notes/assumptions/26.md, DEDUCED). -/
def Obligations.SecondBoundaryEndsTheSecond : Prop :=
  (∀ s : State, s.ready → s.tbu.len ≤ s.tbu.phase →
    ∃ t : State, exec .secondBoundary s = .next t ∧
      t.base = { s with tbu := t.tbu }.base ∧
      (s.tbu.sec + 1 < 86400 → t.tbu.day = s.tbu.day ∧ t.tbu.sec = s.tbu.sec + 1) ∧
      (86400 ≤ s.tbu.sec + 1 → s.tbu.day < 36524 → t.tbu.day = s.tbu.day + 1 ∧ t.tbu.sec = 0) ∧
      (86400 ≤ s.tbu.sec + 1 → 36524 ≤ s.tbu.day → t.tbu.day = 0 ∧ t.tbu.sec = 0 ∧ t.tbu.validity = .invalid) ∧
      (s.tbu.sec + 1 < 86400 ∨ s.tbu.day < 36524 → t.tbu.validity = s.tbu.validity) ∧
      t.tbu.phase = 0 ∧
      t.tbu.len = (s.tbu.startSecond s.timeSet.slewLimit).len ∧
      t.tbu.slew = (s.tbu.startSecond s.timeSet.slewLimit).slew ∧
      t.tbu.acc = (s.tbu.startSecond s.timeSet.slewLimit).acc ∧ t.tbu.drift = s.tbu.drift ∧ t.tbu.disc = s.tbu.disc ∧
      t.tbu.holdoverAge = (if s.timeSet.refEnable = true ∧ s.tbu.disc = .holdover then min (s.tbu.holdoverAge + 1) 8640000 else s.tbu.holdoverAge) ∧
      t.tbu.battery =
        (if t.tbu.validity = .invalid then { s.tbu.battery with valid := false }
         else { s.tbu.battery with time := { day := t.tbu.day, sec := t.tbu.sec }, valid := true }) ∧
      (∀ l, l < 6 → (t.lineAt l).secondAt = s.now ∧ (t.lineAt l).slot = 0) ∧
      (∀ (now : Stamp) (open' : Bool), now = { day := t.tbu.day, sec := t.tbu.sec } →
        open' = (decide (t.tbu.validity = .valid) || decide (t.tbu.validity = .backup) && s.timeSet.trustBackup) →
        t.bds.trustBackup = s.timeSet.trustBackup ∧ t.bds.gateOpen = open' ∧ t.bds.listDate = t.tbu.day ∧
          t.bds.list = (if t.tbu.day = s.bds.listDate then s.bds.list else effectiveList s.store.live t.tbu.day) ∧
          t.bds.mark = (if open' && s.bds.gateOpen then s.bds.mark.later now else now) ∧
        t.dsq.trustBackup = s.timeSet.trustBackup ∧ t.dsq.gateOpen = open' ∧
          t.dsq.mark = (if open' && s.dsq.gateOpen then s.dsq.mark.later now else now))) ∧
  (∀ (s u : State) (now : Stamp) (due : ListEntry → Nat) (fires : List ListEntry),
    now = { day := s.tbu.day, sec := s.tbu.sec } →
    u = { s with bds := { s.bds with
            listDate := s.tbu.day
            list := if s.tbu.day = s.bds.listDate then s.bds.list else effectiveList s.store.live s.tbu.day } } →
    due = (fun e => s.tbu.day * 86400 + e.time) →
    fires = u.bds.list.filter (fun e => decide (s.bds.mark.count < due e ∧ due e ≤ now.count)) →
    (∀ (open' : Bool) (v : State), open' = gateOpen s.tbu.validity s.timeSet.trustBackup →
      v = { u with bds := { u.bds with gateOpen := open', trustBackup := s.timeSet.trustBackup } } →
      (open' = true → s.bds.gateOpen = true →
        s.bdsBoundary = (fires.foldl (State.fire now) v).setMark (s.bds.mark.later now)) ∧
      (open' = false ∨ s.bds.gateOpen = false → s.bdsBoundary = v.setMark now)) ∧
    (∀ (open' : Bool) (v : State) (before after : CampusMs) (late : List ListEntry),
      open' = gateOpen s.tbu.validity s.bds.trustBackup → v = { u with bds := { u.bds with gateOpen := open' } } →
      late = fires.filter (fun e => decide (due e + s.timeSet.catchUp < now.count)) →
      (open' = true → s.bds.gateOpen = true →
        (late = [] → s.bdsStep before after = (fires.foldl (State.fire now) v).setMark (s.bds.mark.later now)) ∧
        (∀ a b, late.head? = some a → late.getLast? = some b →
          s.bdsStep before after =
            (((fires.filter fun e => !decide (due e + s.timeSet.catchUp < now.count)).foldl (State.fire now) v).raise .bellSkipped
              (.bellSkipped late.length { day := s.tbu.day, sec := a.time } { day := s.tbu.day, sec := b.time } before after)).setMark
              (s.bds.mark.later now))) ∧
      (open' = false ∨ s.bds.gateOpen = false → s.bdsStep before after = v.setMark now))) ∧
  (∀ (s : State) (now : Stamp) (e : ListEntry) (x : JobSource),
    x = { key := some e.key, due := { day := s.bds.listDate, sec := e.time }, late := decide (s.bds.listDate * 86400 + e.time < now.count)
          label := e.label, group := e.group, pattern := e.pattern, medium := e.medium } →
    (8 ≤ s.bds.queue.length → s.fire now e = s.raise .bellOverrun (.bellOverrun e.key x.due .full)) ∧
    (s.bds.queue.length < 8 → (∃ j, j ∈ s.bds.queue ∧ j.key = e.key ∧ j.day = s.bds.listDate) →
      s.fire now e = s.raise .bellOverrun (.bellOverrun e.key x.due .duplicate)) ∧
    (s.bds.queue.length < 8 → (∀ j, j ∈ s.bds.queue → j.key = e.key → j.day ≠ s.bds.listDate) → s.fire now e = s.enterJob x)) ∧
  (∀ (s : State) (skips : Schedule → Bool) (e : Schedule) (building : List Nat),
    building = e.building.getD (s.program e.program).building →
    (skips e = false → s.dsq.session = none → s.pnl.state = .normal → s.pnl.causes = [] → s.store.live.drl.stagesOf e.program ≠ [] →
      s.takeSchedule skips e = (s.createSession .schedule e.program building).enterRequesting) ∧
    (skips e = true ∨ s.dsq.session ≠ none ∨ s.pnl.state ≠ .normal ∨ s.pnl.causes ≠ [] ∨ s.store.live.drl.stagesOf e.program = [] →
      s.takeSchedule skips e =
        { s with dsq := { s.dsq with
            lastRecord := some s.dsq.nextRecord
            records :=
              ({ num := s.dsq.nextRecord, program := e.program, origin := .schedule, start := s.campus, finish := s.campus
                 results := allLines.map fun l => if building.contains l then .notTimed else .notInDrill
                 drops := 0, reason := .skipped, good := true } :: s.dsq.records).take 16 } })) ∧
  (∀ s : State,
    (∀ e, e ∈ s.dueDrills ↔
      (∃ i, i < 8 ∧ tget noneStart s.store.live.drl.schedule i = some e) ∧ s.dsq.mark.count < e.day * 86400 + e.time ∧
        e.day * 86400 + e.time ≤ s.tbu.day * 86400 + s.tbu.sec) ∧
    s.dueDrills.Pairwise (fun x y => x.day * 86400 + x.time ≤ y.day * 86400 + y.time) ∧
    (∀ n, (s.dueDrills.filter fun e => e.day * 86400 + e.time = n) =
      ((List.range 8).filterMap fun i => tget noneStart s.store.live.drl.schedule i).filter fun e =>
        e.day * 86400 + e.time = n ∧ s.dsq.mark.count < n ∧ n ≤ s.tbu.day * 86400 + s.tbu.sec)) ∧
  (∀ (s : State) (now : Stamp), now = { day := s.tbu.day, sec := s.tbu.sec } →
    (∀ (open' : Bool) (v : State), open' = gateOpen s.tbu.validity s.timeSet.trustBackup →
      v = { s with dsq := { s.dsq with gateOpen := open', trustBackup := s.timeSet.trustBackup } } →
      (open' = true → s.dsq.gateOpen = true →
        s.dsqBoundary = (s.dueDrills.foldl (State.takeSchedule fun _ => false) v).setDrillMark (s.dsq.mark.later now)) ∧
      (open' = false ∨ s.dsq.gateOpen = false → s.dsqBoundary = v.setDrillMark now)) ∧
    (∀ (open' : Bool) (v : State) (skips : Schedule → Bool), open' = gateOpen s.tbu.validity s.dsq.trustBackup →
      v = { s with dsq := { s.dsq with gateOpen := open' } } →
      skips = (fun e => decide (e.day * 86400 + e.time + s.timeSet.catchUp < now.count)) →
      (open' = true → s.dsq.gateOpen = true →
        s.dsqStep = (s.dueDrills.foldl (State.takeSchedule skips) v).setDrillMark (s.dsq.mark.later now)) ∧
      (open' = false ∨ s.dsq.gateOpen = false → s.dsqStep = v.setDrillMark now)))

/-- HOLDOVER_AGE_UNSYNC, SILENCE_SLOT and REFERENCE_ABSENT when they are due. The flag of a holdover age of 86,400 stands as
due until it is taken (the model's choice, notes/assumptions/15.md); a silence slot is bad, and the fourth bad slot of a
qualified reference disqualifies it; while the reference enable is NO neither silence command does anything
(notes/assumptions/32.md). -/
def Obligations.SilenceAndHoldoverEffects : Prop :=
  (∀ s : State, s.ready → s.tbu.unsyncDue = true →
    exec .holdoverAgeUnsync s =
      .next (({ s with tbu := { s.tbu with unsync := true, unsyncDue := false } } : State).noticed .reference
        (.reference .unsync s.discipline s.tbu.badCount))) ∧
  (∀ s : State, s.ready → s.timeSet.refEnable = false →
    exec .silenceSlot s = .next s ∧ exec .referenceAbsent s = .next s) ∧
  (∀ (s : State) (c : Chain), s.ready → s.timeSet.refEnable = true → s.tbu.chain = some c →
    (c.slots = 0 ∧ c.at_ + 12000 ≤ s.now ∨ c.slots = 1 ∧ c.at_ + 20000 ≤ s.now) →
    ∀ (h : List Bool) (bad : Nat), h = lastOf 128 (s.tbu.history ++ [false]) → bad = (h.filter fun g => !g).length →
      (s.tbu.qualified = false ∨ bad ≤ 3 →
        exec .silenceSlot s =
          .next { s with tbu := { s.tbu with chain := some { c with slots := c.slots + 1 }, history := h, consec := 0 } }) ∧
      (s.tbu.qualified = true → 4 ≤ bad →
        ∃ u : Tbu, exec .silenceSlot s =
            .next (({ s with tbu := u } : State).noticed .reference (.reference .disqualified u.disc bad)) ∧
          u.chain = some { c with slots := c.slots + 1 } ∧ u.history = [] ∧ u.consec = 0 ∧ u.qualified = false ∧
          (s.tbu.disc = .locking → u.disc = .free) ∧ (s.tbu.disc = .locked → u.disc = .holdover ∧ u.holdoverAge = 0) ∧
          (s.tbu.disc = .free ∨ s.tbu.disc = .holdover → u.disc = s.tbu.disc ∧ u.holdoverAge = s.tbu.holdoverAge))) ∧
  (∀ (s : State) (c : Chain), s.ready → s.timeSet.refEnable = true → s.tbu.chain = some c → c.at_ + 24000 ≤ s.now →
    ∃ u : Tbu, exec .referenceAbsent s = .next (({ s with tbu := u } : State).noticed .reference (.reference .absent u.disc s.tbu.badCount)) ∧
      u.chain = none ∧ u.history = [] ∧ u.consec = 0 ∧ u.qualified = false ∧
      (s.tbu.disc = .locking → u.disc = .free) ∧ (s.tbu.disc = .locked → u.disc = .holdover ∧ u.holdoverAge = 0) ∧
      (s.tbu.disc = .free ∨ s.tbu.disc = .holdover → u.disc = s.tbu.disc ∧ u.holdoverAge = s.tbu.holdoverAge) ∧
      u.day = s.tbu.day ∧ u.sec = s.tbu.sec ∧ u.slew = s.tbu.slew ∧ u.drift = s.tbu.drift ∧ u.validity = s.tbu.validity)

/-- REFERENCE_MARK. It is ignored while the reference is not enabled; with no chain a valid message starts one and any other
is set aside. Against a chain it is good when its message is valid and one second on and the interval is 7,920 to 8,080
eighths; it becomes the chain's last mark, and its judgement enters the history and the count of good marks. Sixteen good
marks together qualify the reference, however many bad slots stand in the history (notes/assumptions/23.md, DEDUCED), which
goes to LOCKING with a holdover age of 0 (from FREE too, notes/assumptions/32.md, DESIGN CHOICE); the fourth bad slot in the history disqualifies it, with an empty
history. A good mark of a qualified reference is evaluated in LOCKING, which makes it LOCKED, and in LOCKED at every
evaluation interval: campus time is stepped to the mark's message, or the offset is slewed away with the drift nudge. -/
def Obligations.ReferenceMarkJudged : Prop :=
  ∀ (s : State) (d : WrittenDate) (m : WrittenTime), s.ready →
    (s.timeSet.refEnable = false → exec (.referenceMark d m) s = .next s) ∧
    (s.timeSet.refEnable = true → s.tbu.chain = none → messageStamp d m = none → exec (.referenceMark d m) s = .next s) ∧
    (∀ x, s.timeSet.refEnable = true → s.tbu.chain = none → messageStamp d m = some x →
      exec (.referenceMark d m) s =
        .next { s with tbu := { s.tbu with chain := some { msg := x, at_ := s.now, slots := 0 }, consec := 0 } }) ∧
    (∀ (c : Chain) (good : Bool) (v : Tbu) (bad : Nat), s.timeSet.refEnable = true → s.tbu.chain = some c →
      (good = true ↔ messageStamp d m = some c.msg.next ∧ 7920 ≤ s.now - c.at_ ∧ s.now - c.at_ ≤ 8080) →
      v = { s.tbu with
            chain := some { msg := (messageStamp d m).getD c.msg.next, at_ := s.now, slots := 0 }
            history := lastOf 128 (s.tbu.history ++ [good])
            consec := if good then s.tbu.consec + 1 else 0 } →
      bad = (v.history.filter fun g => !g).length →
      (s.tbu.qualified = false → v.consec ≤ 15 → exec (.referenceMark d m) s = .next { s with tbu := v }) ∧
      (s.tbu.qualified = false → 16 ≤ v.consec →
        exec (.referenceMark d m) s =
          .next (({ s with tbu := { v with qualified := true, disc := .locking, holdoverAge := 0 } } : State).noticed .reference
            (.reference .qualified .locking bad))) ∧
      (s.tbu.qualified = true → 4 ≤ bad →
        ∃ u : Tbu, exec (.referenceMark d m) s =
            .next (({ s with tbu := u } : State).noticed .reference (.reference .disqualified u.disc bad)) ∧
          u.chain = v.chain ∧ u.history = [] ∧ u.consec = 0 ∧ u.qualified = false ∧
          (s.tbu.disc = .locking → u.disc = .free) ∧ (s.tbu.disc = .locked → u.disc = .holdover ∧ u.holdoverAge = 0) ∧
          (s.tbu.disc = .free ∨ s.tbu.disc = .holdover → u.disc = s.tbu.disc ∧ u.holdoverAge = s.tbu.holdoverAge)) ∧
      (s.tbu.qualified = true → bad ≤ 3 → good = false ∨ s.tbu.disc = .free ∨ s.tbu.disc = .holdover →
        exec (.referenceMark d m) s = .next { s with tbu := v }) ∧
      (s.tbu.qualified = true → bad ≤ 3 → good = true → s.tbu.disc = .locked → s.tbu.goodMarks + 1 < s.timeSet.interval →
        exec (.referenceMark d m) s = .next { s with tbu := { v with goodMarks := s.tbu.goodMarks + 1 } }) ∧
      (∀ (x : Stamp) (e8 : Int) (far : Prop), s.tbu.qualified = true → bad ≤ 3 → good = true → messageStamp d m = some x →
        (s.tbu.disc = .locking ∨ s.tbu.disc = .locked ∧ s.timeSet.interval ≤ s.tbu.goodMarks + 1) →
        e8 = (((s.tbu.day * 86400 + s.tbu.sec) * 8000 + min s.tbu.phase 7999 : Nat) : Int) - ((x.day * 86400 + x.sec) * 8000 : Nat) →
        (far ↔ s.tbu.day + 1 < x.day ∨ x.day + 1 < s.tbu.day ∨ 8 * s.timeSet.stepThreshold < e8.natAbs) →
        ∃ t : State, exec (.referenceMark d m) s = .next t ∧ t.base = { s with tbu := t.tbu }.base ∧
          t.tbu.disc = .locked ∧ t.tbu.goodMarks = 0 ∧ t.tbu.validity = .valid ∧ t.tbu.unsync = false ∧
          t.tbu.qualified = true ∧ t.tbu.chain = v.chain ∧ t.tbu.history = v.history ∧
          (¬far → t.tbu.day = s.tbu.day ∧ t.tbu.sec = s.tbu.sec ∧ t.tbu.phase = s.tbu.phase ∧ t.tbu.slew = -e8 ∧
            (t.tbu.nudgeReady = true ↔ s.tbu.disc = .locked) ∧ t.tbu.lastStep = s.tbu.lastStep ∧
            t.tbu.drift =
              (if s.tbu.disc = .locked ∧ s.tbu.nudgeReady = true then
                max (-2880) (min 2880 (s.tbu.drift + max (-64) (min 64 (Int.tdiv (-e8 * 450) (Int.ofNat s.timeSet.interval)))))
               else s.tbu.drift)) ∧
          (far → t.tbu.day = x.day ∧ t.tbu.sec = x.sec ∧ t.tbu.phase = 0 ∧ t.tbu.slew = 0 ∧ t.tbu.nudgeReady = false ∧
            t.tbu.drift = s.tbu.drift ∧
            t.tbu.battery = { s.tbu.battery with time := x, valid := true } ∧
            ∃ r : StepRecord, t.tbu.lastStep = some r ∧ r.before = s.campus ∧ r.after = { day := x.day, ms := x.sec * 1000 } ∧
              r.cause = .reference)))

/-- TIME (R21): open to every class except NONE, it is answered with the Timebase Unit's present state, the discipline state
FREE while the reference enable is NO (R12), and changes nothing else. -/
def Obligations.TimeAnswersTheTimebase : Prop :=
  ∀ (s : State) (p : Port) (op : Fin 16), s.restingLaw → s.reads = true → (s.port p).reply = none →
    (s.classOf p op ≠ .none →
      exec (.time p op) s = .next (s.replied p (.time
        { campus := { day := s.tbu.day, ms := s.tbu.sec * 1000 + min s.tbu.phase 7999 / 8 }
          validity := s.tbu.validity
          disc := if s.store.live.cal.timeSet.refEnable then s.tbu.disc else .free
          enabled := s.store.live.cal.timeSet.refEnable
          qualified := s.tbu.qualified
          bad := (s.tbu.history.filter fun g => !g).length
          holdoverAge := s.tbu.holdoverAge
          unsync := s.tbu.unsync
          slew := s.tbu.slew
          drift := s.tbu.drift
          lastStep := s.tbu.lastStep }))) ∧
    (s.classOf p op = .none → ∃ t : State, exec (.time p op) s = .next t ∧ (t.port p).reply = some (.no .cls))

/-- SETTIME: refused while the reference governs and for a date or time that does not exist, the first before the second
(notes/assumptions/33.md, DESIGN CHOICE); otherwise campus time is the time given, with its step record, and validity
VALID. -/
def Obligations.SettimeStepsCampusTime : Prop :=
  ∀ (s : State) (p : Port) (op : Fin 16) (d : WrittenDate) (m : WrittenTime) (ms : Nat), s.takes p op .office →
    (s.discipline = .locking ∨ s.discipline = .locked → exec (.settime p op d m ms) s = .next (s.replied p (.no .state))) ∧
    (s.discipline = .free ∨ s.discipline = .holdover →
      (messageStamp d m = none ∨ 999 < ms → exec (.settime p op d m ms) s = .next (s.replied p (.no .range))) ∧
      (∀ x, messageStamp d m = some x → ms ≤ 999 →
        ∃ t : State, exec (.settime p op d m ms) s = .next t ∧
          t.base = ({ s with tbu := t.tbu } : State).base.replied p .ok ∧
          t.tbu.day = x.day ∧ t.tbu.sec = x.sec ∧ t.tbu.phase = 8 * ms ∧ t.tbu.slew = 0 ∧ t.tbu.drift = s.tbu.drift ∧
          t.tbu.disc = s.tbu.disc ∧ t.tbu.validity = .valid ∧ t.tbu.unsync = false ∧ t.tbu.chain = s.tbu.chain ∧
          t.tbu.history = s.tbu.history ∧
          t.tbu.battery = { s.tbu.battery with time := x, valid := true } ∧
          (∃ r : StepRecord, t.tbu.lastStep = some r ∧ r.before = s.campus ∧
            r.after = { day := x.day, ms := x.sec * 1000 + ms } ∧ r.cause = .settime)))

/-- ADJUST: refused while the reference governs; otherwise the milliseconds, held at 500 either way, go into the slew
remainder, held at 4,000 either way, and validity becomes VALID. -/
def Obligations.AdjustTrimsTheSlewRemainder : Prop :=
  ∀ (s : State) (p : Port) (op : Fin 16) (ms : Int), s.takes p op .office →
    (s.discipline = .locking ∨ s.discipline = .locked → exec (.adjust p op ms) s = .next (s.replied p (.no .state))) ∧
    (s.discipline = .free ∨ s.discipline = .holdover →
      ∀ m r : Int, m = max (-500) (min 500 ms) → r = max (-4000) (min 4000 (s.tbu.slew + 8 * m)) →
        exec (.adjust p op ms) s =
          .next (({ s with tbu := { s.tbu with slew := r, validity := .valid } } : State).replied p
            (if m = ms ∧ r = s.tbu.slew + 8 * m then .ok else .okClamped)))

/-! ### The plan and its store (chapters 4, 5 and 10.3) -/

/-- SELECT: the cursor is set where the table and index exist and a staged bank is the port's own; a table word that names no
table is NO RANGE too; a request of the holder restarts its hold timer (R67). -/
def Obligations.SelectSetsTheCursor : Prop :=
  ∀ (s u : State) (p : Port) (op : Fin 16) (r : Region) (t : Tbl) (i : Nat) (b : Bank),
    s.takesPlan p op .viewer r (decide (b = .staged)) → u = s.touchHold p r →
    exec (.select p op r none i b) s = .next (u.replied p (.no .range)) ∧
    (tableRegion t ≠ r ∨ tableSize t ≤ i → exec (.select p op r (some t) i b) s = .next (u.replied p (.no .range))) ∧
    (tableRegion t = r → i < tableSize t → b = .staged → s.holds p r = false →
      exec (.select p op r (some t) i b) s = .next (u.replied p (.no .notHeld))) ∧
    (tableRegion t = r → i < tableSize t → (b = .staged → s.holds p r = true) →
      exec (.select p op r (some t) i b) s =
        .next ((u.setPort p { u.port p with cursor := some { region := r, table := t, index := i, bank := b } }).replied p .ok))

/-- READ: the fields of the entry at the cursor in their written forms, from the live bank, or from the staged bank of a region
the port holds; the cursor moves on by one. Past the end of the table it is NO RANGE. Every READ of the holder of the cursor's
region restarts its hold timer, accepted or refused (R67). -/
def Obligations.ReadAnswersTheEntryAtTheCursor : Prop :=
  ∀ (s u : State) (p : Port) (op : Fin 16) (c : Cursor), (s.port p).cursor = some c →
    s.takesPlan p op .viewer c.region (decide (c.bank = .staged)) → u = s.touchHold p c.region →
    (tableSize c.table ≤ c.index → exec (.read p op) s = .next (u.replied p (.no .range))) ∧
    (c.index < tableSize c.table → c.bank = .staged → s.holds p c.region = false →
      exec (.read p op) s = .next (s.replied p (.no .notHeld))) ∧
    (∀ e : Entry, c.index < tableSize c.table → (c.bank = .staged → s.holds p c.region = true) →
      e = s.readEntry (if c.bank = .staged then s.store.staged else s.store.live) c.table c.index →
      exec (.read p op) s =
        .next ((u.setPort p { u.port p with cursor := some { c with index := c.index + 1 } }).replied p
          (if e.isEmpty then .okEmpty else .entry (readFields e)))) ∧
    (s.holds p c.region = false → u = s) ∧
    (s.holds p c.region = true →
      u = s.setHold c.region (.held p (s.now + 8000 * (s.store.live.prt.ports.get p).holdTimeout)))

/-- WRITE and EMPTY at the staged bank of a region the port holds: the staged entry is replaced, the hold timer restarts (R67)
and the cursor moves on; every other entry, and the live bank, stay. What does not fit the table is NO SYNTAX, and does not
restart the timer (notes/assumptions/27.md, DEDUCED); what names something that does not exist, a fixed entry and a cursor past
the end are NO RANGE (for EMPTY the fixed entries by notes/assumptions/42.md, DESIGN CHOICE), the live bank is NO STATE, and a
region that the port does not hold is NO NOTHELD or NO BUSY. -/
def Obligations.EditsReplaceTheStagedEntry : Prop :=
  ∀ (s u : State) (p : Port) (op : Fin 16) (c : Cursor), (s.port p).cursor = some c →
    s.takesPlan p op (editClass c.region) c.region true → u = s.startHold p c.region →
    (∀ fs, writeFields c.table fs = none → exec (.write p op fs) s = .next (s.replied p (.no .badSyntax))) ∧
    (s.holds p c.region = true → tableSize c.table ≤ c.index →
      exec (.empty p op) s = .next (u.replied p (.no .range)) ∧
      (∀ fs w, writeFields c.table fs = some w → exec (.write p op fs) s = .next (u.replied p (.no .range)))) ∧
    (c.index < tableSize c.table → s.holdAt c.region = .free ∨ s.holds (otherPort p) c.region = true →
      exec (.empty p op) s = .next (s.replied p (.no .notHeld)) ∧
      (∀ fs w, writeFields c.table fs = some w → exec (.write p op fs) s = .next (s.replied p (.no .notHeld)))) ∧
    (∀ q t, c.index < tableSize c.table → s.holdAt c.region = .committing q t →
      exec (.empty p op) s = .next (s.replied p (.no .busy)) ∧
      (∀ fs w, writeFields c.table fs = some w → exec (.write p op fs) s = .next (s.replied p (.no .busy)))) ∧
    (s.holds p c.region = true → c.index < tableSize c.table →
      (∀ fs w, writeFields c.table fs = some w → c.bank = .live → exec (.write p op fs) s = .next (u.replied p (.no .state))) ∧
      (c.bank = .live → exec (.empty p op) s = .next (u.replied p (.no .state))) ∧
      (∀ fs w, writeFields c.table fs = some w → c.bank = .staged → fixedEntry c.table c.index = true ∨ w.entry = none →
        exec (.write p op fs) s = .next (u.replied p (.no .range))) ∧
      (c.bank = .staged → fixedEntry c.table c.index = true → exec (.empty p op) s = .next (u.replied p (.no .range))) ∧
      (∀ (v : State) (e : Entry), c.bank = .staged → fixedEntry c.table c.index = false →
        v = { u with store := { u.store with staged := putEntry s.store.staged c.index e } } →
        (∀ fs w, writeFields c.table fs = some w → w.entry = some e →
          exec (.write p op fs) s =
            .next ((v.setPort p { v.port p with cursor := some { c with index := c.index + 1 } }).replied p
              (if w.clamped then .okClamped else .ok))) ∧
        (e = entryAt emptyPlan c.table c.index →
          exec (.empty p op) s =
            .next ((v.setPort p { v.port p with cursor := some { c with index := c.index + 1 } }).replied p .ok))))

/-- HOLD: a FREE region, or one the port holds already, is HELD by the port for its hold timeout; a region HELD by the other
port is refused NO HELD and one being committed NO BUSY. -/
def Obligations.HoldGrantsTheRegion : Prop :=
  ∀ (s : State) (p : Port) (op : Fin 16) (r : Region), s.takesPlan p op (editClass r) r true →
    (s.holdAt r = .free ∨ s.holds p r = true →
      exec (.hold p op r) s =
        .next ((s.setHold r (.held p (s.now + 8000 * (s.store.live.prt.ports.get p).holdTimeout))).replied p .ok)) ∧
    (∀ q t, s.holdAt r = .held q t → q ≠ p → exec (.hold p op r) s = .next (s.replied p (.no .held))) ∧
    (∀ q t, s.holdAt r = .committing q t → exec (.hold p op r) s = .next (s.replied p (.no .busy)))

/-- RELEASE and DISCARD (R68). -/
def Obligations.ReleaseAndDiscardEndAHold : Prop :=
  ∀ (s : State) (p : Port) (op : Fin 16) (r : Region), s.takesPlan p op (editClass r) r true →
    (s.holdAt r = .free ∨ s.holds (otherPort p) r = true →
      exec (.release p op r) s = .next (s.replied p (.no .notHeld)) ∧
        exec (.discard p op r) s = .next (s.replied p (.no .notHeld))) ∧
    (∀ q t, s.holdAt r = .committing q t →
      exec (.release p op r) s = .next (s.replied p (.no .busy)) ∧ exec (.discard p op r) s = .next (s.replied p (.no .busy))) ∧
    (s.holds p r = true →
      exec (.discard p op r) s =
        .next ((({ s with store := { s.store with staged := copyRegion r s.store.live s.store.staged } } : State).setHold r .free).replied
          p .ok) ∧
      (copyRegion r s.store.staged s.store.live = s.store.live →
        exec (.release p op r) s = .next ((s.setHold r .free).replied p .ok)) ∧
      (copyRegion r s.store.staged s.store.live ≠ s.store.live →
        exec (.release p op r) s =
          .next ((s.setHold r (.held p (s.now + 8000 * (s.store.live.prt.ports.get p).holdTimeout))).replied p (.no .state))))

/-- ACTIVATE: by the holder of a region whose staged bank has no fault (and, for ZON, with the panel NORMAL) the staged bank
becomes the live bank and the region is COMMITTING, its write to end no later than 2 s after it began (that it is taken to last
2 s where no command ends it is the model's choice, notes/assumptions/6.md); else it is refused by name and the banks stay. -/
def Obligations.ActivateMakesTheStagedBankLive : Prop :=
  ∀ (s : State) (p : Port) (op : Fin 16) (r : Region), s.takesPlan p op (editClass r) r true →
    (∀ q t, s.holdAt r = .committing q t → exec (.activate p op r) s = .next (s.replied p (.no .busy))) ∧
    (s.holdAt r = .free ∨ s.holds (otherPort p) r = true →
      exec (.activate p op r) s = .next (s.replied p (.no .notHeld))) ∧
    (s.holds p r = true → r = .zon → s.pnl.state ≠ .normal →
      exec (.activate p op r) s = .next ((s.startHold p r).replied p (.no .state))) ∧
    (s.holds p r = true → (r = .zon → s.pnl.state = .normal) →
      (∀ t i, s.validate r = some (t, i) →
        exec (.activate p op r) s = .next ((s.startHold p r).replied p (.no (.invalid t i)))) ∧
      (s.validate r = none →
        ∃ t : State, exec (.activate p op r) s = .next t ∧ (t.port p).reply = some .ok ∧
          t.store.live = copyRegion r s.store.staged s.store.live ∧ t.store.staged = s.store.staged ∧
          t.store.images = s.store.images ∧ t.holdAt r = .committing p (s.now + 16000) ∧
          (∀ q, q ≠ r → t.holdAt q = s.holdAt q) ∧ t.base.setPort p (s.port p) = { s with store := t.store, tbu := t.tbu }.base))

/-- HOLD_EXPIRY and IMAGE_WRITE_END: the staged bank is discarded or copied anew from the live bank, the region is FREE, and a
good write is what the next load finds. HOLD_EXPIRY tells the port that held the region; IMAGE_WRITE_END tells the port that
activated it with HOLD, and a failed write tells both with STORE. (A write may end at any moment within its 2 s, which is the
model's choice, notes/assumptions/6.md.) -/
def Obligations.HoldExpiryAndImageWriteEnd : Prop :=
  ∀ (s : State) (r : Region) (p : Port) (t : Nat), s.ready →
    (s.holdAt r = .held p t → t ≤ s.now →
      exec (.holdExpiry r) s =
        .next ((({ s with store := { s.store with staged := copyRegion r s.store.live s.store.staged } } : State).setHold r .free).raiseAt
          p .hold (.hold r .expired)).rejudge) ∧
    (s.holdAt r = .committing p t →
      ∃ u v x y : State, exec (.imageWriteEnd r true) s = .next u ∧ exec (.imageWriteEnd r false) s = .next v ∧
        u.store.images = copyRegion r s.store.live s.store.images ∧ u.imageGoodAt r = true ∧
        v.store.images = s.store.images ∧ v.imageGoodAt r = false ∧
        (∀ w, w = u ∨ w = v →
          w.holdAt r = .free ∧ w.store.staged = copyRegion r s.store.live s.store.staged ∧ w.store.live = s.store.live ∧
            (∀ q, q ≠ r → w.holdAt q = s.holdAt q ∧ w.imageGoodAt q = s.imageGoodAt q) ∧
            { w.rest with store := s.store } = s.rest) ∧
        { x with store := s.store } = s ∧ u = (x.raiseAt p .hold (.hold r (.activated true))).rejudge ∧
        { y with store := s.store } = s ∧
          v = ((y.raiseAt p .hold (.hold r (.activated false))).raise .store (.store r .writeFailed)).rejudge)

/-- The key switch: KEY_SWITCH_SETUP changes its position alone; KEY_SWITCH_RUN also withdraws the holds that the holder's
rights in RUN do not allow, and no other. Without power the position changes and no hold is withdrawn (notes/assumptions/10.md,
DEDUCED). (The WITHDRAWN notices are not spoken of here.) -/
def Obligations.KeySwitchWithdrawsHolds : Prop :=
  (∀ s : State, exec .keySwitchSetup s = .next { s with setup := true }) ∧
  (∀ s : State, s.power = false ∨ s.setup = false → exec .keySwitchRun s = .next { s with setup := false }) ∧
  (∀ s : State, s.ready → s.setup = true →
    ∃ t : State, exec .keySwitchRun s = .next t ∧ t.setup = false ∧ t.store.live = s.store.live ∧
      (∀ r p d, s.holdAt r = .held p d → s.rightsInRun p r ≠ .edit →
        t.holdAt r = .free ∧ copyRegion r t.store.staged s.store.live = s.store.live) ∧
      (∀ r, (∀ p d, s.holdAt r = .held p d → s.rightsInRun p r = .edit) →
        t.holdAt r = s.holdAt r ∧ copyRegion r t.store.staged s.store.staged = s.store.staged))

/-- What is put at an index of a table is read there, and no other entry of any table changes. -/
def Obligations.EntriesReadBack : Prop :=
  ∀ (b : Plan) (i : Nat) (e : Entry), i < tableSize e.table →
    entryAt (putEntry b i e) e.table i = e ∧
    (∀ (t : Tbl) (j : Nat), j < tableSize t → (t ≠ e.table ∨ j ≠ i) → entryAt (putEntry b i e) t j = entryAt b t j)

/-- Validation (R85, R88, R90): an ACTIVATE by an operator who may edit the region (SAFETY for DRL, R69 and R172) is refused with NO
INVALID, the table and the index of the first entry that breaks its check, and there is no fault where no entry breaks one. In CAL, DPL and OVR a filled entry is checked against itself and the
filled entry before it. (Times are times of day.) In PAT no filled segment has an empty one before it in its pattern (R92); in
ZON no zone leaves a line on which a device of it is listed in the live LIN bank or in the copy in use (R40); in DRL the
programs, the stages, the schedule and the panel program are checked in this order (R157); in LIN kinds and zones agree with
each other and with the live ZON bank (R40). -/
def Obligations.ValidationFindsTheFirstFault : Prop :=
  let finds (f : Option (Tbl × Nat)) (t : Tbl) (n : Nat) (bad : Nat → Prop) : Prop :=
    (∀ i, f = some (t, i) ↔ i < n ∧ bad i ∧ ∀ j, j < i → ¬bad j) ∧ (f = none ↔ ∀ i, i < n → ¬bad i)
  (∀ (c : Cal) (bad : Nat → Prop),
    (∀ i, bad i ↔ ∃ e, tget noneStart c.except i = some e ∧
      (e.last < e.first ∨ ∃ k b, k < i ∧ tget noneStart c.except k = some b ∧
        (∀ m, k < m → m < i → tget noneStart c.except m = none) ∧ e.first ≤ b.last)) →
    finds (calFault c) .except 64 bad) ∧
  (∀ (d : Dpl) (bad : Nat → Prop),
    (∀ i, bad i ↔ ∃ e k b, tget noneStart d.plan i = some e ∧ k < i ∧ k / 64 = i / 64 ∧ tget noneStart d.plan k = some b ∧
      (∀ m, k < m → m < i → tget noneStart d.plan m = none) ∧ e.time < b.time) →
    finds (dplFault d) .plan 1024 bad) ∧
  (∀ (o : Ovr) (bad : Nat → Prop), (∀ i e, tget noneStart o.entries i = some e → e.time < 86400) →
    (∀ i, bad i ↔ ∃ e k b, tget noneStart o.entries i = some e ∧ k < i ∧ tget noneStart o.entries k = some b ∧
      (∀ m, k < m → m < i → tget noneStart o.entries m = none) ∧ (e.day < b.day ∨ e.day = b.day ∧ e.time < b.time)) →
    finds (ovrFault o) .override 32 bad) ∧
  (∀ (x : Pat) (bad : Nat → Prop),
    (∀ i, bad i ↔ 8 ≤ i ∧ tget noneStart x.segments i ≠ none ∧ ∃ k, k < i ∧ k / 8 = i / 8 ∧ tget noneStart x.segments k = none) →
    finds (patFault x) .segment 128 bad) ∧
  (∀ (s : State) (x : Zon) (bad : Nat → Prop),
    (∀ z, bad z ↔ ∃ l a, (s.zoneCfg z).line = some l ∧ (tget zoneCfgStart x.zones z).line ≠ some l ∧ 1 ≤ a ∧ a ≤ 24 ∧
      ((∃ d, tget noneStart s.store.live.lin.devices (l * 24 + a - 1) = some d ∧ d.zone = some z) ∨
        ((s.lineAt l).recAt a).listed = true ∧ ((s.lineAt l).recAt a).zone = some z)) →
    finds (s.zonFault x) .zone 32 bad) ∧
  (∀ (d : Drl) (stages : Nat → Prop) (inProgram inStage inSchedule : Nat → Prop) (f : Option (Tbl × Nat)), f = drlFault d →
    (∀ n, stages n ↔ ∃ k, k < 8 ∧ tget noneStart d.stages (n * 8 + k) ≠ none) →
    (∀ n, inProgram n ↔ stages n ∧ (tget programStart d.programs n).building = []) →
    (∀ i, inStage i ↔ ∃ g, tget noneStart d.stages i = some g ∧
      ((∃ k, k < i ∧ k / 8 = i / 8 ∧ tget noneStart d.stages k = none) ∨
        (g.timing = true ∧ ∃ k h, k < i ∧ k / 8 = i / 8 ∧ tget noneStart d.stages k = some h ∧ h.timing = true) ∨
        (g.advance = .clearAll ∧ g.timing = false))) →
    (∀ i, inSchedule i ↔ ∃ e, tget noneStart d.schedule i = some e ∧ ¬stages e.program) →
    ((∃ n, n < 8 ∧ inProgram n) → finds f .program 8 inProgram) ∧
    ((∀ n, n < 8 → ¬inProgram n) →
      ((∃ i, i < 64 ∧ inStage i) → finds f .stage 64 inStage) ∧
      ((∀ i, i < 64 → ¬inStage i) →
        ((∃ i, i < 8 ∧ inSchedule i) → finds f .schedule 8 inSchedule) ∧
        ((∀ i, i < 8 → ¬inSchedule i) →
          (stages d.drillSet.program → f = none) ∧ (¬stages d.drillSet.program → f = some (.drillset, 0)))))) ∧
  (∀ (s : State) (x : Lin) (bad : Nat → Prop),
    (∀ i, bad i ↔ ∃ d, tget noneStart x.devices i = some d ∧
      ((d.kind = .clock ∧ d.zone ≠ none) ∨
        (d.kind ≠ .clock ∧ (d.zone = none ∨ ∃ z, d.zone = some z ∧ (s.zoneCfg z).line ≠ some (i / 24))))) →
    finds (s.linFault x) .device 144 bad) ∧
  (∀ (s : State) (p : Port) (op : Fin 16) (r : Region) (t : Tbl) (i : Nat),
    s.takesPlan p op (editClass r) r true → s.holds p r = true →
    (r = .cal ∧ calFault s.store.staged.cal = some (t, i) ∨ r = .dpl ∧ dplFault s.store.staged.dpl = some (t, i) ∨
      r = .ovr ∧ ovrFault s.store.staged.ovr = some (t, i) ∨ r = .pat ∧ patFault s.store.staged.pat = some (t, i) ∨
      r = .zon ∧ s.pnl.state = .normal ∧ s.zonFault s.store.staged.zon = some (t, i) ∨
      r = .drl ∧ drlFault s.store.staged.drl = some (t, i) ∨ r = .lin ∧ s.linFault s.store.staged.lin = some (t, i)) →
    exec (.activate p op r) s = .next ((s.startHold p r).replied p (.no (.invalid t i))))

/-- The effective list of a date (R91): the entries of the date's day plan that no OMIT removes and the ADD overrides of the
date, each once, in order of time. -/
def Obligations.EffectiveListInOrder : Prop :=
  ∀ (b : Plan) (day : Nat),
    (effectiveList b day).Pairwise (fun x y => x.time ≤ y.time) ∧
    (effectiveList b day).Perm
      ((match b.cal.planOf day with
        | some d => (b.dpl.slots d).filter fun e => !omitted (b.ovr.onDate day) e
        | none => []) ++ addPart (b.ovr.onDate day)) ∧
    (∀ n, ((effectiveList b day).filter fun e => e.time = n) =
      ((match b.cal.planOf day with
        | some d => (b.dpl.slots d).filter fun e => !omitted (b.ovr.onDate day) e
        | none => []) ++ addPart (b.ovr.onDate day)).filter fun e => e.time = n)

/-! ### The lines (chapters 2 and 3) -/

/-- TIME_FRAME in slot 0 of DISCOVERY, RUN or LOST: the frame carries the line's next frame number, campus time with the
millisecond field of half the round trip and the lateness, and the flags. -/
def Obligations.TimeFrameCarriesCampusTime : Prop :=
  ∀ (s : State) (l : Fin 6) (x : LineSt), s.ready → x = s.lineAt l.val →
    (x.state = .discovery ∨ x.state = .run ∨ x.state = .lost) → x.slot = 0 → x.secondAt ≤ s.now → x.transaction = none →
    exec (.timeFrame l) s =
      .next (s.setLine l.val
        { x with
          sent := (Frame.time x.frameNo s.tbu.day (s.tbu.sec / 3600) (s.tbu.sec / 60 % 60) (s.tbu.sec % 60)
            ((x.delay.getD 0 + 8) / 16 + (s.now - x.secondAt) / 8) x.stepPending (decide (s.pnl.state ≠ .normal))
            (s.dsq.session.any fun d => d.running && d.building.contains l.val) s.tbu.unsync
            (decide (s.tbu.validity ≠ .valid))).bytes
          slot := 1
          frameNo := (x.frameNo + 1) % 4096
          lastFrame := some x.frameNo
          stepPending := false })

/-- DISCOVERY_POLL, POLL, SEARCH_POLL and RECOVERY_POLL in a slot of their own: the poll carries the zone of a PRESENT, MISSING
or FAULTY record, its reply is awaited, and the pointer it was taken by moves on. -/
def Obligations.PollsGoOutInTheirSlots : Prop :=
  ∀ (s : State) (l : Fin 6) (x : LineSt) (a : Nat) (z : Option Nat), s.ready → x = s.lineAt l.val → s.slotReady x = true →
    1 ≤ x.slot →
    z = (if (x.recAt a).state = .present ∨ (x.recAt a).state = .missing ∨ (x.recAt a).state = .faulty then (x.recAt a).zone
         else none) →
    (x.state = .discovery → a = x.discAddr →
      exec (.discoveryPoll l) s =
        .next (s.setLine l.val
          { x with sent := (Frame.poll a z).bytes, slot := x.slot + 1, discTry := x.discTry + 1
                   transaction := some { addr := a, zone := z, since := s.now, proving := false } })) ∧
    (x.state = .run → (x.headOut = none ∨ 3 ≤ x.commands) → x.phase = some a → (x.recAt a).state ≠ .absent →
      exec (.poll l) s =
        .next (s.setLine l.val
          { x with sent := (Frame.poll a z).bytes, slot := x.slot + 1, phasePtr := (x.phasePtr + 1) % 32, commands := 0
                   transaction := some { addr := a, zone := z, since := s.now, proving := false } })) ∧
    (x.state = .run → (x.headOut = none ∨ 3 ≤ x.commands) → (x.phase.all fun b => (x.recAt b).state = .absent) = true →
      (x.searchNext = some a →
        exec (.searchPoll l) s =
          .next (s.setLine l.val
            { x with sent := (Frame.poll a z).bytes, slot := x.slot + 1, phasePtr := (x.phasePtr + 1) % 32, commands := 0
                     searchPtr := a, transaction := some { addr := a, zone := z, since := s.now, proving := false } })) ∧
      (x.searchNext = none →
        exec (.searchPoll l) s =
          .next (s.setLine l.val { x with slot := x.slot + 1, phasePtr := (x.phasePtr + 1) % 32, commands := 0 }))) ∧
    (x.state = .lost → x.recoverNext = some a →
      exec (.recoveryPoll l) s =
        .next (s.setLine l.val
          { x with sent := (Frame.poll a z).bytes, slot := x.slot + 1, recoverPtr := a
                   transaction := some { addr := a, zone := z, since := s.now, proving := false } }))

/-- ZONE_OUTPUT_COMMAND and CLOCK_SET in a slot of RUN with fewer than three commands since the last poll: the head of the
output list goes out as it stands now and leaves the list. A zone's command carries its wanted output, with the time left in
the on segment and 500 ms as its hold-for (R44). A CLOCK-SET carries the campus date, hour, minute and second, and the campus
milliseconds plus half the estimated round trip; where that sum reaches 1,000 the time is advanced by a second, over midnight
too, and 1,000 is taken off (R32; past 2099 the date is 2000-01-01, as R1 has it: notes/assumptions/34.md). -/
def Obligations.OutputCommandsEmptyTheList : Prop :=
  ∀ (s : State) (l : Fin 6) (x : LineSt) (e : OutEntry) (f : Frame), s.ready → x = s.lineAt l.val → s.slotReady x = true →
    x.state = .run → 1 ≤ x.slot → x.commands < 3 → (x.outAlarm ++ x.outOrd).head? = some e →
    (∀ z, e = .zone z →
      f = .output z (s.zoneAt z).bellUntil.isSome
        (match (s.zoneAt z).bellUntil with | none => 0 | some t => min ((t - s.now + 7) / 8 + 500) 10500) (s.zoneAt z).trunk →
      exec (.zoneOutputCommand l) s =
        .next (s.setLine l.val
          { x with sent := f.bytes, slot := x.slot + 1, commands := x.commands + 1, outAlarm := x.outAlarm.tail
                   outOrd := if x.outAlarm = [] then x.outOrd.tail else x.outOrd })) ∧
    (∀ a ms day sec, e = .clock a → ms = min s.tbu.phase 7999 / 8 + (x.delay.getD 0 + 8) / 16 →
      (day, sec) =
        (if ms < 1000 then (s.tbu.day, s.tbu.sec)
         else if s.tbu.sec + 1 < 86400 then (s.tbu.day, s.tbu.sec + 1) else (s.tbu.day + 1, 0)) →
      f = .clockSet a (if day ≤ 36524 then day else 0) (sec / 3600) (sec / 60 % 60) (sec % 60) (ms % 1000) →
      exec (.clockSet l) s =
        .next (s.setLine l.val
          { x with sent := f.bytes, slot := x.slot + 1, commands := x.commands + 1, outAlarm := x.outAlarm.tail
                   outOrd := if x.outAlarm = [] then x.outOrd.tail else x.outOrd }))

/-- REPLY: a valid reply ends the transaction, moves the delay estimate, clears the miss count and becomes the last report. In
DISCOVERY an expected device that matches its record is PRESENT and the next address follows; after address 24 the line enters
RUN, its zones available and on the output list (R26; pages that wait for a zone are not spoken of). In RUN a PRESENT device that
matches its record and agrees with what is wanted of it stays as it is, and the line's count of unanswered polls is 0; a clock's
displayed time is compared with campus time, which corrects it, makes it FAULTY or restores it (R47); a clear station's reply
makes of its record what R39 gives. In LOST the reply enters the window, and the fourth good one of the last eight returns the
line to RUN (R42). In a drill a clear station's report is its baseline, or clears its building, and the last clearing ends
a CLEAR-ALL stage (R163, R164). What is no valid reply is a MISS. -/
def Obligations.ReplyTaken : Prop :=
  ∀ (s : State) (l : Fin 6) (start : Nat) (bytes : List Byte) (x : LineSt) (w : Transaction), s.ready → x = s.lineAt l.val →
    x.transaction = some w → w.proving = false →
    (replyOf w.addr start bytes = none → exec (.reply l start bytes) s = exec (.miss l) s) ∧
    (∀ (g : GoodReply) (r r0 : DevRec) (y : LineSt), replyOf w.addr start bytes = some g → r = x.recAt w.addr →
      r0 = { r with misses := 0, report := some g.report } →
      y = { x.core with transaction := none, delay := some (moveDelay x.delay start) } →
      let leaves (t : State) (rec_ : DevRec) (core : LineSt) : Prop :=
        exec (.reply l start bytes) s = .next t ∧ (∀ b, (t.lineAt l.val).recAt b = if b = w.addr then rec_ else x.recAt b) ∧
          (t.lineAt l.val).core = core ∧ (∀ k, k ≠ l.val → (t.lineAt k).core = (s.lineAt k).core) ∧ t.rest = s.rest
      let aside (t : State) : Prop := ∀ k, k ≠ l.val → t.lineAt k = s.lineAt k
      let running (t : State) : Prop :=
        (∀ z, z < 32 → (s.zoneCfg z).line = some l.val →
          (t.zoneAt z).available = true ∧ .zone z ∈ (t.lineAt l.val).outAlarm ++ (t.lineAt l.val).outOrd) ∧
        ∀ q, (t.ntu.get q).recAt .line = ((s.ntu.get q).take .line (.line l.val .run)).recAt .line
      (r.fits g = true → s.dsq.session = none →
        (x.state = .discovery → 1 ≤ x.discTry → x.discAddr = w.addr → r.listed = true →
          (w.addr < 24 →
            ∃ t : State, leaves t { r0 with state := .present } { y with discAddr := x.discAddr + 1, discTry := 0 } ∧ aside t) ∧
          (w.addr = 24 →
            ∃ t : State,
              leaves t { r0 with state := .present }
                { y with state := .run, since := s.now, searchPtr := 24, phasePtr := 0, unanswered := 0, commands := 0
                         pollTable := if x.auto then (x.setRec 24 { r0 with state := .present }).autoTable else x.pollTable } ∧
              (s.pgc.queue = [] → running t))) ∧
        (x.state = .run → r.state = .present →
          (match g.report with
            | .clock _ _ _ => False
            | .clear _ => True
            | .bell b => ∃ z, r.zone = some z ∧ b = (s.zoneAt z).bellUntil.isSome
            | .speaker u f => f = false ∧ ∃ z, r.zone = some z ∧ u = (s.zoneAt z).trunk) →
          ∃ t : State, leaves t r0 { y with unanswered := 0 } ∧ aside t) ∧
        (∀ (h m sec a b : Nat) (same compared : Prop), x.state = .run → r.state = .present ∨ r.state = .faulty →
          g.report = .clock h m sec → a = h * 3600 + m * 60 + sec → b = s.tbu.sec →
          (same ↔ (a + 86400 - b) % 86400 ≤ 1 ∨ (b + 86400 - a) % 86400 ≤ 1) →
          (compared ↔ .clock w.addr ∉ x.outOrd ∧ x.stepPending = false) →
          ∃ (t : State) (r' : DevRec), leaves t r' { y with unanswered := 0 } ∧ aside t ∧
            (t.lineAt l.val).outAlarm = x.outAlarm ∧
            (¬compared → r' = r0 ∧ (t.lineAt l.val).outOrd = x.outOrd) ∧
            (compared → same → r' = { r0 with corrections := 0, state := .present } ∧ (t.lineAt l.val).outOrd = x.outOrd ∧
              (r.state = .faulty → ∀ q, (t.ntu.get q).recAt .device =
                ((s.ntu.get q).take .device (.device l.val w.addr r.kind .faulty .present)).recAt .device)) ∧
            (compared → ¬same →
              (r.state = .faulty → r' = r0 ∧ (t.lineAt l.val).outOrd = x.outOrd) ∧
              (r.state = .present → r.corrections < 3 →
                r' = { r0 with corrections := r.corrections + 1 } ∧ (t.lineAt l.val).outOrd = x.outOrd ++ [.clock w.addr]) ∧
              (r.state = .present → 3 ≤ r.corrections →
                r' = { r0 with state := .faulty } ∧ (t.lineAt l.val).outOrd = x.outOrd ∧
                  ∀ q, (t.ntu.get q).recAt .clockOff =
                    ((s.ntu.get q).take .clockOff (.clockOff l.val w.addr h m sec s.campus)).recAt .clockOff))) ∧
        (∀ window, x.state = .lost → r.state = .present → (∀ u, g.report ≠ .speaker u true) →
          window = lastOf 8 (x.window ++ [true]) →
          ((window.filter id).length < 4 → ∃ t : State, leaves t r0 { y with window := window } ∧ aside t) ∧
          (4 ≤ (window.filter id).length →
            ∃ t : State,
              leaves t r0
                { y with window := window, state := .run, since := s.now, phasePtr := 0, unanswered := 0, commands := 0
                         pollTable := if x.auto then x.autoTable else x.pollTable } ∧
              (s.pgc.queue = [] → running t)))) ∧
      (∀ n, x.state = .run → g.report = .clear n →
        (∀ r' : DevRec, s.dsq.session = none →
          (r.state = .absent ∧ r.listed = false ∧ r' = { r0 with state := .unlisted, kind := some .clear, serial := some g.serial } ∨
            r.state = .unlisted ∧ r' = r0 ∨
            (r.state = .present ∨ r.state = .missing ∨ r.state = .foreign ∨ r.state = .faulty) ∧
              r' = { r0 with state := if r.fits g then (if r.state = .faulty then .faulty else .present) else .foreign }) →
          ∃ t : State, leaves t r' { y with unanswered := 0 } ∧ aside t ∧
            ∀ q, (t.ntu.get q).recAt .device =
              (if r'.state = r.state then s.ntu.get q
               else (s.ntu.get q).take .device (.device l.val w.addr r'.kind r.state r'.state)).recAt .device) ∧
        (∀ d cleared : Session, s.dsq.session = some d → r.state = .present → r.fits g = true → r.listed = true →
          cleared = d.setResult l.val (.cleared ((s.now - d.stageSince) / 8)) →
          (d.running = false ∨ d.timing ≠ .running ∨ l.val ∉ d.building ∨ d.resultOf l.val ≠ none ∨
              d.baselineOf l.val w.addr = some n →
            ∃ t : State, leaves t r0 { y with unanswered := 0 } ∧ aside t ∧ t.dsq.session = some d) ∧
          (d.running = true → d.timing = .running → l.val ∈ d.building → d.resultOf l.val = none →
            (d.baselineOf l.val w.addr = none →
              ∃ t : State, leaves t r0 { y with unanswered := 0 } ∧ aside t ∧
                t.dsq.session = some (d.setBaseline l.val w.addr n)) ∧
            (∀ k, d.baselineOf l.val w.addr = some k → k ≠ n →
              (cleared.allCleared = false ∨ (∀ c, d.current = some c → c.stage.advance ≠ .clearAll) →
                ∃ t : State, leaves t r0 { y with unanswered := 0 } ∧ aside t ∧ t.dsq.session = some cleared) ∧
              (∀ c, cleared.allCleared = true → d.current = some c → c.stage.advance = .clearAll →
                ∃ t : State, exec (.reply l start bytes) s = .next t ∧
                  (d.stages.length ≤ d.stage + 1 → t.dsq.session = none ∧
                    ∃ rec_ : DrillRecord, t.dsq.records = (rec_ :: s.dsq.records).take 16 ∧ rec_.reason = .completed ∧
                      rec_.results = cleared.allResults) ∧
                  (d.stage + 1 < d.stages.length →
                    ∃ e, t.dsq.session = some e ∧ e.stage = d.stage + 1 ∧ e.stageSince = s.now ∧ e.results = cleared.results)))))))

/-- MISS: in RUN the record counts it and the line counts a poll unanswered; at the record's limit a PRESENT device is MISSING,
and at 32 polls unanswered the line is LOST. In DISCOVERY the second miss of an expected device leaves it MISSING with a miss
count of 2 (the first is followed by a second try). (Records in other states, LOST and address 24 are not spoken of here.) -/
def Obligations.MissTaken : Prop :=
  ∀ (s : State) (l : Fin 6) (x : LineSt) (w : Transaction) (r : DevRec), s.ready → x = s.lineAt l.val → x.transaction = some w →
    w.proving = false → r = x.recAt w.addr →
    (x.state = .run → r.state = .present → r.misses < 15 →
      ∃ t : State, exec (.miss l) s = .next t ∧
        (∀ b, (t.lineAt l.val).recAt b =
          if b = w.addr then
            (if r.misses + 1 < x.missLimit then { r with misses := r.misses + 1 }
             else { r with misses := r.misses + 1, state := .missing, corrections := 0 })
          else x.recAt b) ∧
        (t.lineAt l.val).transaction = none ∧ (t.lineAt l.val).unanswered = x.unanswered + 1 ∧
        (t.lineAt l.val).state = (if 32 ≤ x.unanswered + 1 then .lost else .run) ∧ t.rest = s.rest) ∧
    (x.state = .discovery → x.discTry = 1 → exec (.miss l) s = .next (s.setLine l.val { x with transaction := none })) ∧
    (x.state = .discovery → x.discTry = 2 → w.addr < 24 → x.discAddr = w.addr → r.listed = true →
      ∃ t : State, exec (.miss l) s = .next t ∧
        (∀ b, (t.lineAt l.val).recAt b = if b = w.addr then { r with state := .missing, misses := 2 } else x.recAt b) ∧
        (t.lineAt l.val).core = { x.core with transaction := none, discAddr := x.discAddr + 1, discTry := 0 } ∧ t.rest = s.rest)

/-- PROVING_END and POWERING_END: a second after bring-up began a line whose self-proving passes gets power, its bell units off and
its speaker nodes muted (what else a device has after power-up, a clear station's count among it, is notes/assumptions/11.md,
DESIGN CHOICE; that a bell unit may ring until then notes/assumptions/36.md, DEDUCED), and any other is in FAULT; 2 s after line power DISCOVERY begins, at address 1 with every record ABSENT. -/
def Obligations.BringUpGoesOn : Prop :=
  ∀ (s : State) (l : Fin 6) (x : LineSt), s.ready → x = s.lineAt l.val →
    (x.state = .proving → x.since + 8000 ≤ s.now → x.prover.passes = true →
      ∃ t : State, exec (.provingEnd l) s = .next t ∧
        { t with field := s.field } = s.setLine l.val { x with state := .powering, since := s.now } ∧
        (∀ a, 1 ≤ a → a ≤ 24 → t.fieldAt l.val a =
          { s.fieldAt l.val a with bellOn := false, holdUntil := 0, trunk := none, lastValid := 0, zone := none, loopUps := 0, echo := none,
                                   sent := [] }) ∧
        (∀ k a, k < 6 → k ≠ l.val → 1 ≤ a → a ≤ 24 → t.fieldAt k a = s.fieldAt k a)) ∧
    (x.state = .proving → x.since + 8000 ≤ s.now → x.prover.passes = false →
      exec (.provingEnd l) s =
        .next ((s.setLine l.val { x with state := .fault, since := s.now }).noticed .line (.line l.val .fault))) ∧
    (x.state = .powering → x.since + 16000 ≤ s.now →
      ∃ t : State, exec (.poweringEnd l) s = .next t ∧ (t.lineAt l.val).state = .discovery ∧ (t.lineAt l.val).since = s.now ∧
        (t.lineAt l.val).discAddr = 1 ∧ (t.lineAt l.val).discTry = 0 ∧ (t.lineAt l.val).outAlarm = [] ∧
        (t.lineAt l.val).outOrd = [] ∧
        (∀ a, 1 ≤ a → a ≤ 24 → ((t.lineAt l.val).recAt a).state = .absent ∧ ((t.lineAt l.val).recAt a).report = none ∧
          ((t.lineAt l.val).recAt a).listed = (x.recAt a).listed) ∧
        (∀ k, k ≠ l.val → t.lineAt k = s.lineAt k) ∧ t.rest = s.rest)

/-- LINE (a LINE RESTART): accepted in every line state, it begins the line's bring-up afresh, and the blocks other than the
lines, their field devices, the zones and trunks, the bell jobs, the pages and the drill session keep their state, but for the
notices; a line that does not exist is NO RANGE. (A transaction in progress is dropped, which is the model's choice,
notes/assumptions/35.md.) -/
def Obligations.LineRestartBeginsBringUp : Prop :=
  ∀ (s : State) (p : Port) (op : Fin 16) (n : Nat), s.takes p op .office →
    (6 ≤ n → exec (.line p op n) s = .next (s.replied p (.no .range))) ∧
    (n < 6 →
      ∃ t : State, exec (.line p op n) s = .next t ∧
        t.rest = (({ s with field := t.field } : State).replied p .ok).rest ∧
        (t.wires n).state = (if (tget lineCfgStart s.store.live.lin.lines n).enable then .proving else .off) ∧
        (t.wires n).enabled = (tget lineCfgStart s.store.live.lin.lines n).enable ∧ (t.wires n).since = s.now ∧
        (t.wires n).transaction = none ∧ (t.wires n).test = none ∧
        (∀ k, k ≠ n → t.wires k = s.wires k) ∧
        (∀ k a, k < 6 → k ≠ n → 1 ≤ a → a ≤ 24 → t.fieldAt k a = s.fieldAt k a))

/-- An AUTO poll table has 32 phases: one for each answering device in rising address order, then up to three more for each
clear station that is PRESENT or FAULTY, shared out round by round in rising address order, and EMPTY phases after them. -/
def Obligations.AutoTableSharesThePhases : Prop :=
  ∀ x : LineSt, ∃ first clears : List Nat,
    first = allAddrs.filter (fun a => (x.recAt a).answering) ∧ clears = allAddrs.filter (fun a => (x.recAt a).extra) ∧
    x.autoTable.length = 32 ∧
    x.autoTable.take first.length = first.map some ∧
    x.autoTable.filterMap id = (first ++ clears ++ clears ++ clears).take 32 ∧
    (∀ i j, i ≤ j → x.autoTable[i]? = some none → j < 32 → x.autoTable[j]? = some none) ∧
    (∀ a, a ∉ first → some a ∉ x.autoTable) ∧
    (∀ a, a ∈ first → (x.recAt a).extra = false → x.autoTable.count (some a) = 1) ∧
    (∀ a, a ∈ first → (x.recAt a).extra = true →
      1 ≤ x.autoTable.count (some a) ∧ x.autoTable.count (some a) ≤ 4 ∧
        (none ∈ x.autoTable → x.autoTable.count (some a) = 4)) ∧
    (∀ a b, a ∈ first → b ∈ first → a < b → (x.recAt a).extra = true → (x.recAt b).extra = true →
      x.autoTable.count (some b) ≤ x.autoTable.count (some a) ∧ x.autoTable.count (some a) ≤ x.autoTable.count (some b) + 1)

/-- The delay estimate: the first measurement sets it, each later one moves it by an eighth of the difference, truncated, and
it stays within 0 to 64. -/
def Obligations.DelayEstimateMoves : Prop :=
  ∀ start : Nat, start ≤ 80 →
    moveDelay none start = start - 16 ∧
    (∀ d, d ≤ 64 →
      (moveDelay (some d) start : Int) = d + Int.tdiv (((start - 16 : Nat) : Int) - d) 8 ∧
        moveDelay (some d) start ≤ 64 ∧ min d (start - 16) ≤ moveDelay (some d) start ∧
        moveDelay (some d) start ≤ max d (start - 16))

/-- Every frame that can be sent is read back from its bytes as itself, and has 3 to 18 bytes. -/
def Obligations.FramesReadBack : Prop :=
  ∀ f : Frame, f.fits → readFrame f.bytes = some f ∧ 3 ≤ f.bytes.length ∧ f.bytes.length ≤ 18

/-- TEST and INJECT: a test begins where the line is in DISCOVERY, RUN or LOST and neither the alarm nor a drill concerns it,
with its record begun and its duration held at 1 to 60 s; an injection is pending in a test's proving part, which in a far loop
begins as the slot after the fifth LOOP-UP comes; else they are refused by name. (INJECT outside the proving part is NO STATE
also with an injection pending: notes/assumptions/27.md, DEDUCED.) -/
def Obligations.TestsBeginAndTakeInjections : Prop :=
  ∀ (s : State) (p : Port) (op : Fin 16) (n : Nat) (mode : TestMode) (seconds : Option Nat), s.takes p op .office →
    (6 ≤ n ∨ modeExists mode = false → exec (.test p op n mode seconds) s = .next (s.replied p (.no .range))) ∧
    (n < 6 → modeExists mode = true → (s.lineAt n).state = .test →
      exec (.test p op n mode seconds) s = .next (s.replied p (.no .busy))) ∧
    (n < 6 → modeExists mode = true → s.testRefused n = some .state →
      exec (.test p op n mode seconds) s = .next (s.replied p (.no .state))) ∧
    (∀ d k : Nat, n < 6 → modeExists mode = true → s.testRefused n = none → d = seconds.getD 10 → k = min (max d 1) 60 →
      ∃ t : State, exec (.test p op n mode seconds) s = .next t ∧
        t.rest = (s.replied p (if k = d then .ok else .okClamped)).rest ∧ (t.wires n).state = .test ∧
        (t.wires n).prover = proverStart ∧
        (t.wires n).test = some { phase := match mode with | .far _ => .loopUp 0 | _ => .proving, upAt := none, echoed := false } ∧
        (∃ r : TestRecord, (t.wires n).record = some r ∧ r.mode = mode ∧ r.seconds = k ∧ r.begun = s.campus ∧ r.sent = 0 ∧
          r.compared = 0 ∧ r.result = .running ∧ r.cause = none) ∧
        (∀ j, j ≠ n → t.wires j = s.wires j)) ∧
    (6 ≤ n → exec (.inject p op n) s = .next (s.replied p (.no .range))) ∧
    (∀ (x : LineSt) (proves : Prop), n < 6 → x = s.lineAt n →
      (proves ↔ x.state = .test ∧ ∃ t : TestRun, x.test = some t ∧
        (t.phase = .proving ∨
          t.phase = .loopUp 5 ∧ x.slot < 40 ∧ x.secondAt + 200 * x.slot ≤ s.now ∧ x.transaction = none)) →
      (¬proves → exec (.inject p op n) s = .next (s.replied p (.no .state))) ∧
      (proves → x.prover.injPending = true → exec (.inject p op n) s = .next (s.replied p (.no .busy))) ∧
      (proves → x.prover.injPending = false →
        exec (.inject p op n) s = .next ((s.setLine n { x with prover := { x.prover with injPending := true } }).replied p .ok)))

/-- LOOP_UP, PROVING_FRAME and LOOP_DOWN in their slots: five LOOP-UPs, the time of the fifth noted (from its sending, notes/assumptions/9.md,
DEDUCED), and with the next slot the proving part; a proving frame carries the sixteen values that follow in the sequence,
with a pending injection; its echo is awaited in a far loop, and in an inner loop what comes back is taken in at once; three
LOOP-DOWNs, of which the third ends the test: one without a result takes NO-ECHO where no echo came, else the judgement, and
TEST-END is told, and DISCOVERY begins. In self-proving a frame goes out every 25 ms, and what comes back is taken in. -/
def Obligations.TestFramesGoOut : Prop :=
  ∀ (s : State) (l : Fin 6) (x : LineSt) (back : List Byte), s.ready → x = s.lineAt l.val →
    (∀ (t : TestRun) (r : TestRecord) (a k : Nat), s.slotReady x = true → x.state = .test → x.test = some t → x.record = some r →
      r.mode = .far a →
      (t.phase = .loopUp k → k < 5 →
        exec (.loopUp l) s =
          .next (s.setLine l.val
            { x with sent := (Frame.loopUp a).bytes, slot := x.slot + 1
                     test := some { t with phase := .loopUp (k + 1), upAt := if k = 4 then some s.now else t.upAt } })) ∧
      (t.phase = .loopUp 5 ∨ t.phase = .proving → exec (.loopUp l) s = .next s) ∧
      (t.phase = .loopDown k → k + 1 < 3 →
        exec (.loopDown l) s =
          .next (s.setLine l.val
            { x with sent := (Frame.loopDown a).bytes, slot := x.slot + 1, test := some { t with phase := .loopDown (k + 1) } })) ∧
      (∀ res : TestResult, t.phase = .loopDown k → 3 ≤ k + 1 →
        res = (if t.echoed then (if x.prover.passes then .pass else .fail) else .noEcho) →
        ∃ u : State, exec (.loopDown l) s = .next u ∧ (u.lineAt l.val).sent = (Frame.loopDown a).bytes ∧
          (u.lineAt l.val).state = .discovery ∧ (u.lineAt l.val).since = s.now ∧ (u.lineAt l.val).discAddr = 1 ∧
          (u.lineAt l.val).test = none ∧ u.rest = s.rest ∧
          (r.result = .running →
            (u.lineAt l.val).record = some { r with result := res, cause := none } ∧
            ∀ q, (u.ntu.get q).recAt .testEnd = (((s.ntu.get q).take .testEnd (.testEnd l.val r.mode res none)).recAt .testEnd)) ∧
          (r.result ≠ .running → (u.lineAt l.val).record = some r ∧ ∀ q k, (u.ntu.get q).recAt k = (s.ntu.get q).recAt k))) ∧
    (∀ (t : TestRun) (r : TestRecord) (inj : Option Nat) (pv : Prover), s.slotReady x = true → x.state = .test → x.test = some t →
      x.record = some r → t.phase = .proving ∨ t.phase = .loopUp 5 → s.durationOver x r = false →
      inj = (if x.prover.injPending then some (injectPlace x.prover.frames) else none) →
      pv = { x.prover with frames := x.prover.frames + 1, startedAt := some (x.prover.startedAt.getD s.now), injPending := false
                           injPlace := inj } →
      (r.mode ≠ .inner →
        exec (.provingFrame l back) s =
          .next (s.setLine l.val
            { x with
              sent := (Frame.proving (testAddr r.mode) ((frameValues x.prover.frames inj).map byte)).bytes
              slot := x.slot + 1
              test := some { t with phase := .proving }
              prover := pv
              record := some { r with sent := r.sent + 16, injected := if x.prover.injPending then r.injected + 1 else r.injected }
              transaction :=
                match r.mode with
                | .far a => some { addr := a, zone := none, since := s.now, proving := true }
                | _ => x.transaction })) ∧
      (r.mode = .inner →
        ∃ y : LineSt, exec (.provingFrame l back) s = .next (s.setLine l.val y) ∧
          y = { x with sent := (Frame.proving 0 ((frameValues x.prover.frames inj).map byte)).bytes, slot := x.slot + 1
                       test := some { t with phase := .proving }
                       prover := pv.takeAll back, record := y.record } ∧
          ∃ q : TestRecord, y.record = some q ∧ q.sent = r.sent + 16 ∧
            q.injected = (if x.prover.injPending then r.injected + 1 else r.injected) ∧
            q.compared = y.prover.compared ∧ q.errored = y.prover.errored ∧ q.slips = y.prover.slips ∧
            q.slipsInj = y.prover.slipsInj ∧ y.prover.compared = x.prover.compared + back.length ∧ q.mode = r.mode ∧
            q.seconds = r.seconds ∧ q.begun = r.begun ∧ q.echoesMissing = r.echoesMissing ∧ q.result = r.result ∧ q.cause = r.cause)) ∧
    (x.state = .proving → x.prover.frames < 40 → x.since + 200 * x.prover.frames ≤ s.now → x.prover.injPending = false →
      ∃ t : State, exec (.provingFrame l back) s = .next t ∧
        (t.lineAt l.val).sent = (Frame.proving 0 ((frameValues x.prover.frames none).map byte)).bytes ∧
        (t.lineAt l.val).prover.frames = x.prover.frames + 1 ∧
        (t.lineAt l.val).prover.compared = x.prover.compared + back.length ∧
        (∀ k, k ≠ l.val → t.lineAt k = s.lineAt k) ∧ { t with lines := s.lines } = s)

/-- ECHO, ECHO_MISSING, NO_ECHO_TIMEOUT and TEST_DURATION_END in the proving part: an echo that fails its test is a missing one; a
far loop with no echo within 1 s, or at the end of its duration, goes on to its LOOP-DOWNs; an inner loop takes its judgement
and a pass-through ends SENT, each told by TEST-END, and DISCOVERY begins. -/
def Obligations.TestPartsEnd : Prop :=
  ∀ (s : State) (l : Fin 6) (x : LineSt) (t : TestRun) (r : TestRecord), s.ready → x = s.lineAt l.val → x.state = .test →
    x.test = some t → x.record = some r → s.provingPart x = true →
    (∀ w start bytes, x.transaction = some w → w.proving = true → r.result = .running →
      exec (.echoMissing l) s =
        .next (s.setLine l.val { x with transaction := none, record := some { r with echoesMissing := r.echoesMissing + 1 } }) ∧
      (echoOf w.addr start bytes = none → exec (.echo l start bytes) s = exec (.echoMissing l) s) ∧
      (∀ vs, echoOf w.addr start bytes = some vs →
        ∃ u : State, exec (.echo l start bytes) s = .next u ∧ (u.lineAt l.val).transaction = none ∧
          (u.lineAt l.val).test = some { t with echoed := true } ∧ (u.lineAt l.val).prover = x.prover.takeAll vs ∧
          (u.lineAt l.val).prover.compared = x.prover.compared + 16 ∧ { u with lines := s.lines } = s)) ∧
    (∀ b, t.upAt = some b → t.echoed = false → b + 8000 ≤ s.now →
      exec (.noEchoTimeout l) s = .next (s.setLine l.val { x with test := some { t with phase := .loopDown 0 } })) ∧
    (s.durationOver x r = true → x.transaction = none →
      (∀ a, r.mode = .far a →
        exec (.testDurationEnd l) s = .next (s.setLine l.val { x with test := some { t with phase := .loopDown 0 } })) ∧
      ((∀ a, r.mode ≠ .far a) →
        ∃ (u : State) (res : TestResult), res = (if r.mode = .pass then .sent else if x.prover.passes then .pass else .fail) ∧
          exec (.testDurationEnd l) s = .next u ∧ (u.lineAt l.val).state = .discovery ∧ (u.lineAt l.val).test = none ∧
          (u.lineAt l.val).record = some { r with cause := none, result := res } ∧
          (∀ q, (u.ntu.get q).recAt .testEnd = (((s.ntu.get q).take .testEnd (.testEnd l.val r.mode res none)).recAt .testEnd)) ∧
          u.rest = s.rest))

/-! ### Zones, bells and pages (chapters 6 to 8) -/

/-- How claims are answered (R98, R99): a page's by availability, permission, holder and the two priorities, and a bell part's
by availability, holder and policy; and one ALARM claim takes every zone it names, silences it, empties its wait list, and
leaves every other zone's record as it was. How a zone passes on: where its holder ends, what is suspended there returns, and
else it is NONE (R100); the wait lists are served before the pages are offered the zones, and trunks are released last (R101),
before the grant pass of a drill that has returned without the trunk it needs (notes/assumptions/43.md, DESIGN CHOICE);
the head of a wait list takes its zone, or seeks a trunk, as it would be answered now (R104), at a pause without leaving the list
where its policy is PAUSE (notes/assumptions/12.md, DEDUCED); the heads that one serving brings to their start form one start
group for each job (R109; notes/assumptions/40.md); a zone that is lost keeps only ALARM and DRILL, and one gained keeps its
holder and is offered to the pages where it has none (R102). The agenda on which these pieces stand is the model's own
(notes/assumptions/13.md). And three timers of bell parts: one DROP wait at its limit is dropped (LIMIT) and its zone's list
served (R105); a change of a timeline is the zone's wanted output, and its part goes on to the next (R129); at the end of a tone
whose parts' sounders still play, their speakers leave the trunk (R107). -/
def Obligations.ClaimsResolvedByHolder : Prop :=
  (∀ (s : State) (z prio : Nat) (policy : Policy) (atPause : Bool) (h : Holder), h = (s.zoneAt z).holder →
      ((s.zoneAt z).available = false →
        s.pageAnswer prio z = .excluded .line ∧ s.bellAnswer policy atPause z = .drop .line) ∧
      ((s.zoneAt z).available = true → (s.zoneCfg z).pageAllowed = false → s.pageAnswer prio z = .excluded .notAllowed) ∧
      ((s.zoneAt z).available = true → (s.zoneCfg z).pageAllowed = true →
        (h = .none → s.pageAnswer prio z = .taken) ∧
        (∀ j, h = .bell j → s.pageAnswer prio z = if prio ≤ 5 then .waiting else .taken) ∧
        (∀ n q, h = .page n q → s.pageAnswer prio z = if 6 ≤ prio ∧ q ≤ 5 then .taken else .waiting) ∧
        (∀ m, h = .drill m → s.pageAnswer prio z = if prio = 7 then .taken else .excluded .drill) ∧
        (h = .alarm → s.pageAnswer prio z = if prio = 7 ∧ s.pnl.state = .silenced then .taken else .excluded .alarm)) ∧
      ((s.zoneAt z).available = true →
        (h = .none → s.bellAnswer policy atPause z = .take) ∧
        (∀ j, h = .bell j → s.bellAnswer policy atPause z = .defer .bell) ∧
        (∀ n q, h = .page n q →
          s.bellAnswer policy atPause z =
            if 6 ≤ q then .drop .emergencyPage
            else if policy = .immediate ∨ policy = .pause ∧ atPause = true then .take
            else if policy = .pause then .defer .pauseWait else .defer .page) ∧
        (∀ m, h = .drill m → s.bellAnswer policy atPause z = .drop .drill) ∧
        (h = .alarm → s.bellAnswer policy atPause z = .drop .alarm))) ∧
  (∀ (s : State) (zs : List Nat),
      (∀ z, z ∈ zs → ((s.claimAlarm zs).zoneAt z).holder = .alarm) ∧
      (∀ z, z ∈ zs → (s.zoneAt z).holder ≠ .alarm →
        ((s.claimAlarm zs).zoneAt z).bellUntil = none ∧ ((s.claimAlarm zs).zoneAt z).trunk = none ∧
          ((s.claimAlarm zs).zoneAt z).waits = [] ∧ ((s.claimAlarm zs).zoneAt z).suspended = .none) ∧
      (∀ z, z ∉ zs → (s.claimAlarm zs).zoneAt z = s.zoneAt z) ∧
      (s.claimAlarm zs).rest = s.rest) ∧
  (∀ (s : State) (z : Nat) (r u : ZoneRec), r = s.zoneAt z → u = (s.returnZone z).zoneAt z →
      (∀ y, y ≠ z → (s.returnZone z).zoneAt y = s.zoneAt y) ∧ u.available = r.available ∧ u.suspended = .none ∧
      u.waits.map Wait.job = r.waits.map Wait.job ∧
      (r.suspended = .none → u.holder = .none ∧ u.bellUntil = none ∧ u.trunk = none) ∧
      (∀ n q p, r.suspended = .page n q → s.page? n = some p →
        (p.onAir = true →
          u.holder = .page n q ∧ u.bellUntil = none ∧ u.trunk = p.trunk ∧
          (z < 32 → z ∈ p.suspended → ∀ p', (s.returnZone z).page? n = some p' → z ∈ p'.held ∧ z ∉ p'.suspended)) ∧
        (p.onAir = false → u.holder = .none ∧ u.bellUntil = none ∧ u.trunk = none)) ∧
      (∀ m, r.suspended = .drill m →
        (∀ d, s.dsq.session = some d → d.running = true →
          u.holder = .drill m ∧ u.bellUntil = s.drillBell m ∧ u.trunk = s.drillSpeaker m) ∧
        (s.dsq.session = none → u.holder = .none)) ∧
      (r.suspended = .alarm →
        u.bellUntil = none ∧ u.trunk = none ∧ u.holder = (if s.pnl.state = .normal then .none else .alarm))) ∧
  (∀ (s : State) (zs : List Nat), s.ztc.agenda = [] →
      ((∀ z m, z ∈ zs → (s.zoneAt z).suspended ≠ .drill m) → (s.holdersEnd zs).ztc.agenda = [.serve zs none true, .release]) ∧
      (∀ d, s.dsq.session = some d → d.running = true → (∃ z m, z ∈ zs ∧ (s.zoneAt z).suspended = .drill m) →
        (d.soundingStage = true → s.drillTrunk = none → s.drillNeeds = false →
          (∃ z m, z ∈ zs ∧ z < 32 ∧ (s.zoneAt z).suspended = .drill m ∧ mediumSpeaks m = true) →
          (s.holdersEnd zs).ztc.agenda = [.serve zs none true, .release, .pass]) ∧
        (d.soundingStage = false ∨ s.drillTrunk ≠ none →
          (s.holdersEnd zs).ztc.agenda = [.serve zs none true, .release]))) ∧
  (∀ (s : State) (zs : List Nat) (freed : Bool) (gs : List StartGroup) (u : State), u = s.served zs freed gs →
      (gs = [] → u = s.push (if freed = true then [.offer zs] else [])) ∧
      (∀ sought : Nat → Bool, (∀ z, sought z = true ↔ ∃ g w, g ∈ gs ∧ w ∈ g.members ∧ w.zone = z) → gs ≠ [] → s.ztc.agenda = [] →
        s.pageStarting = false → freed = true →
        u.ztc.groups = s.ztc.groups ++ gs ∧
          u.ztc.agenda = [.offer (zs.filter fun z => !sought z), .grants, .offer (zs.filter sought), .pass]) ∧
      (s.pageStarting = true → ∀ g, g ∈ u.ztc.groups → g.fresh = true → g ∈ s.ztc.groups)) ∧
  (∀ (s : State) (xs : List Seeker),
      (∀ x j, x ∈ xs → s.job? x.wait.job = some j →
        ∃ g, g ∈ s.formGroups xs ∧ g.job = x.wait.job ∧ g.fresh = true ∧ x.wait ∈ g.members ∧ g.atPause = x.atPause) ∧
      ((s.formGroups xs).map fun g => (g.job, g.atPause)).Nodup) ∧
  (∀ (s : State) (z : Nat) (w : Wait) (ws : List Wait) (pause : Option Nat) (atPause : Bool) (j : Job) (p : Part) (u : State)
      (x : Option Seeker), (s.zoneAt z).waits = w :: ws → s.seeking w = false → s.job? w.job = some j → j.part? z = some p →
      (atPause = true ↔ ∃ n q, (s.zoneAt z).holder = .page n q ∧ pause = some n) → (u, x) = s.serveZone pause z →
      (s.bellAnswer w.policy atPause z ≠ .take → u = s ∧ x = none) ∧
      (s.bellAnswer w.policy atPause z = .take → mediumSpeaks p.medium = false →
        x = none ∧ (u.zoneAt z).holder = .bell w.job ∧ (∀ x, x ∈ (u.zoneAt z).waits → x.job ≠ w.job) ∧ (u.zoneAt z).trunk = none ∧
        (∀ o, j.timeline.ons.head? = some o → (u.zoneAt z).bellUntil = some (s.now + 8 * o.stop)) ∧
        (∀ n q, (s.zoneAt z).holder = .page n q → (u.zoneAt z).suspended = .page n q) ∧
        ∃ p', u.part? w.job z = some p' ∧ p'.state = .sounding ∧ p'.start = some s.now ∧ p'.sounder = .playing) ∧
      (s.bellAnswer w.policy atPause z = .take → mediumSpeaks p.medium = true →
        x = some { wait := w, atPause := atPause && decide (w.policy = .pause) } ∧
        (atPause = true → w.policy = .pause → u = s) ∧
        (atPause = false ∨ w.policy ≠ .pause →
          u = s.setZone z { s.zoneAt z with waits := (s.zoneAt z).waits.filter fun v => v.job ≠ w.job }))) ∧
  (∀ (s : State) (z : Nat) (r u : ZoneRec), r = s.zoneAt z → u = (s.loseZone z).zoneAt z →
      u.available = false ∧ u.waits = [] ∧ (∀ y, y ≠ z → (s.loseZone z).zoneAt y = s.zoneAt y) ∧
      (∀ m, r.holder = .drill m → u.holder = .drill m) ∧ (r.holder = .alarm → u.holder = .alarm) ∧
      (∀ n, r.holder = .bell n →
        u.holder = .none ∧ u.suspended = .none ∧ u.bellUntil = none ∧ u.trunk = none ∧
        (∀ j p, s.job? n = some j → j.part? z = some p → p.ended = false →
          ∀ p', (s.loseZone z).part? n z = some p' → p'.state = .dropped .line)) ∧
      (∀ n q, r.holder = .page n q → r.suspended = .none →
        u.holder = .none ∧ u.bellUntil = none ∧ u.trunk = none ∧
        (∀ p, s.page? n = some p → p.onAir = true → z ∈ p.held →
          ∀ p', (s.loseZone z).page? n = some p' → z ∉ p'.held ∧ (z, .line) ∈ p'.lost))) ∧
  (∀ (s : State) (z : Nat), ∃ u : State, u = s.gainZone z ∧
      u.zoneAt z = { s.zoneAt z with available := true } ∧ (∀ y, y ≠ z → u.zoneAt y = s.zoneAt y) ∧
      ((s.zoneAt z).holder = .none → Work.offer [z] ∈ u.ztc.agenda) ∧ ((s.zoneAt z).holder ≠ .none → u.ztc.agenda = s.ztc.agenda)) ∧
  (∀ (s : State) (n : Nat) (j : Job) (w : Wait), s.ready → s.job? n = some j → s.expiredWaits n = [w] → w.limit = .drop →
      exec (.deferralLimitExpiry n) s =
        .next (((((s.leaveWaits n w.zone).leaveGroups n w.zone).dropPart n w.zone .limit).releaseNow s.idleTrunks).push
          [.serve [w.zone] none false]).done) ∧
  (∀ (s : State) (n z t : Nat) (j : Job) (p : Part) (c : Nat × Option Nat), s.ready → s.job? n = some j → j.part? z = some p →
      p.state = .sounding → p.sounder = .playing → p.start = some t → j.timeline.changes[p.step]? = some c → t + 8 * c.1 ≤ s.now →
      (s.zoneAt z).holder = .bell n → p.step + 1 < j.timeline.changes.length →
      ∃ u : State, exec (.sounderTimelineChange n z) s = .next u ∧
        u.zoneAt z = { s.zoneAt z with bellUntil := c.2.map fun e => t + 8 * e } ∧ (∀ y, y ≠ z → u.zoneAt y = s.zoneAt y) ∧
        u.part? n z = some { p with step := p.step + 1 } ∧ (∀ m y, m ≠ n ∨ y ≠ z → u.part? m y = s.part? m y)) ∧
  (∀ (s : State) (t : Fin 4) (x : TrunkUse) (n g e : Nat) (j : Job) (zs : List Nat), s.ready → s.trunkAt t.val = some x →
      x.program = .tone n g → x.toneUntil = some e → e ≤ s.now → s.job? n = some j →
      zs = (j.parts.filter fun p => decide (p.state = .sounding ∧ p.speaker = .playing g t.val)).map Part.zone →
      (∀ z p, z ∈ zs → j.part? z = some p → p.sounder = .playing) →
      exec (.toneEnd t) s =
        .next (((zs.foldl (fun v z => v.setWanted z (v.zoneAt z).bellUntil none)
          (zs.foldl (fun v z => v.updatePart n z fun p => { p with speaker := .finished }) s)).push
            [.serve [] none true]).later .release).done)

/-- RING: NO RANGE for a group or pattern that does not exist, NO FULL at a queue of eight jobs; else a job is made at once,
under a number from 1 to 255 that no job in the queue has. Where its pattern is empty or its group holds no zone it sounds
nothing and is over. Else it enters the queue behind every job that is not due later, with the key MANUAL of its number, the
campus date and second, its pattern with a copy of the timeline, its medium and one part for each zone of the group; if it is
not in the queue when the claims of its parts have been judged, every part of it has been DROPPED with its BELL-DROPPED. With
medium SOUNDER-ONLY, every zone free and no start group waiting, every part sounds from now and holds its zone. -/
def Obligations.RingMakesAJob : Prop :=
  ∀ (s : State) (p : Port) (op : Fin 16) (g k : Nat) (m : EntryMedium), s.takes p op .staff →
    (16 ≤ g ∨ 16 ≤ k → exec (.ring p op g k m) s = .next (s.replied p (.no .range))) ∧
    (g < 16 → k < 16 → 8 ≤ s.bds.queue.length → exec (.ring p op g k m) s = .next (s.replied p (.no .full))) ∧
    (g < 16 → k < 16 → s.bds.queue.length < 8 →
      ∃ (t : State) (n : Nat) (before after : List Job), exec (.ring p op g k m) s = .next t ∧
        1 ≤ n ∧ n ≤ 255 ∧ (∀ j, j ∈ s.bds.queue → j.num ≠ n) ∧
        t.rest = (({ s with bds := { s.bds with lastJob := n } } : State).replied p (.okNumber false n)).rest ∧
        s.bds.queue = before ++ after ∧
        (∀ j, j ∈ before → j.day * 86400 + j.sec ≤ s.tbu.day * 86400 + s.tbu.sec) ∧
        (∀ j, after.head? = some j → s.tbu.day * 86400 + s.tbu.sec < j.day * 86400 + j.sec) ∧
        ((s.store.live.pat.timeline k).isEmpty = true ∨ s.expand g = [] →
          t = ({ s with bds := { s.bds with lastJob := n } } : State).replied p (.okNumber false n)) ∧
        ((s.store.live.pat.timeline k).isEmpty = false → s.expand g ≠ [] →
          (t.bds.queue.map Job.num).Sublist (before.map Job.num ++ n :: after.map Job.num) ∧
          (∀ j, j ∈ t.bds.queue → j.num = n →
            j.key = .manual n ∧ j.day = s.tbu.day ∧ j.sec = s.tbu.sec ∧ j.late = false ∧ j.label = none ∧ j.pattern = k ∧
            j.timeline = s.store.live.pat.timeline k ∧ j.medium = m ∧
            j.parts.map (fun x => (x.zone, x.medium)) =
              (s.expand g).map fun z =>
                (z, match m with | .zoneDefault => (s.zoneCfg z).medium | .sounderOnly => .sounder | .speakerOnly => .speaker)) ∧
          ((∀ j, j ∈ t.bds.queue → j.num ≠ n) →
            ∀ q, (s.ntu.get q).quiet.contains .bellDropped = false →
              ((t.ntu.get q).recAt .bellDropped).flag = true ∧
                min 255 (((s.ntu.get q).recAt .bellDropped).count + (s.expand g).length) ≤ ((t.ntu.get q).recAt .bellDropped).count) ∧
          (∀ o, m = .sounderOnly → s.ztc.groups = [] →
            (∀ z, z ∈ s.expand g → (s.zoneAt z).available = true ∧ (s.zoneAt z).holder = .none) →
            (s.store.live.pat.timeline k).ons.head? = some o →
            ∀ z, z ∈ s.expand g →
              (t.zoneAt z).holder = .bell n ∧ (t.zoneAt z).bellUntil = some (s.now + 8 * o.stop) ∧ (t.zoneAt z).trunk = none ∧
              ∃ x, t.part? n z = some x ∧ x.state = .sounding ∧ x.start = some s.now ∧ x.sounder = .playing ∧ x.speaker = .absent)))

/-- DEFERRAL_LIMIT_EXPIRY, SOUNDER_TIMELINE_CHANGE and TONE_END when they are due. (A part that sounds or has ended is told of no
deferral, whatever the wait lists hold, R128, so that what is said of the parts left behind rests on no law of the lists.) The waits of the job at their limits leave their
wait lists and start groups: DROP drops the part (LIMIT), one of PAUSE policy too (notes/assumptions/44.md, DESIGN CHOICE);
FORCE takes the zone over nothing, over another job's bell or over a routine page, which is suspended, a part with a speaker
half on the one trunk that they share, whose TONE program plays the pattern from now, and dropped (LIMIT) where no trunk is to be had. The zone takes the next change of the part's timeline, and at
the playing length the sounder half has finished, with the part DONE where it has no speaker half. At the end of a tone the
speaker halves of its group finish: a part whose sounder half has finished is DONE and gives its zone up, any other leaves the
trunk and sounds on; the trunk, if no zone is left on it, is released. -/
def Obligations.BellTimersTakeEffect : Prop :=
  ∀ s : State, s.ready →
    (∀ n, s.expiredWaits n ≠ [] → exec (.deferralLimitExpiry n) s = .next (s.expireWaits n).done) ∧
    (∀ (n : Nat) (u : State) (j : Job), s.job? n = some j → u = s.expireWaits n →
      ((s.expiredWaits n).map Wait.zone).Nodup →
      (∀ w, w ∈ s.expiredWaits n → ∃ p, j.part? w.zone = some p ∧ p.ended = false) →
      ∀ w, w ∈ s.expiredWaits n →
        (∀ x, x ∈ (u.zoneAt w.zone).waits → x.job ≠ n) ∧
        (∀ g x, g ∈ u.ztc.groups → x ∈ g.members → ¬(x.job = n ∧ x.zone = w.zone)) ∧
        (w.limit = .drop → ∀ p, u.part? n w.zone = some p → p.state = .dropped .limit) ∧
        (∀ h : Holder, w.limit = .force → h = (s.zoneAt w.zone).holder →
          h = .none ∨ (∃ m, m ≠ n ∧ h = .bell m) ∨ (∃ m q, q ≤ 5 ∧ h = .page m q) →
          (s.partSpeaks n w.zone = false ∨ s.mayTone = true ∧ s.freeTrunk ≠ none →
            (u.zoneAt w.zone).holder = .bell n ∧ (∀ m q, h = .page m q → (u.zoneAt w.zone).suspended = .page m q) ∧
            ∃ p, u.part? n w.zone = some p ∧ p.state = .sounding ∧ p.start = some s.now) ∧
          (∀ t, s.partSpeaks n w.zone = true → s.mayTone = true → s.freeTrunk = some t →
            (u.zoneAt w.zone).trunk = some t ∧
            ∃ (x : TrunkUse) (g : Nat) (p : Part), u.trunkAt t = some x ∧ x.program = .tone n g ∧ 1 ≤ g ∧ g ≤ 32 ∧
              x.tone = some j.timeline ∧ x.toneSince = some s.now ∧ x.toneUntil = some (s.now + 8 * j.timeline.length) ∧
              u.part? n w.zone = some p ∧ p.speaker = .playing g t) ∧
          (s.partSpeaks n w.zone = true → s.mayTone = false ∨ s.freeTrunk = none →
            (u.zoneAt w.zone).holder = h ∧ ∀ p, u.part? n w.zone = some p → p.state = .dropped .limit))) ∧
    (∀ (w : Wait) (tone : Option (Nat × Nat)) (u : State), u = (s.leaveWaits w.job w.zone).leaveGroups w.job w.zone →
      (w.limit = .drop → s.meetLimit tone w = u.dropPart w.job w.zone .limit) ∧
      (w.limit = .force → s.partSpeaks w.job w.zone = true → tone = none → s.meetLimit tone w = u.dropPart w.job w.zone .limit) ∧
      (w.limit = .force → (s.partSpeaks w.job w.zone = false ∨ tone ≠ none) →
        s.meetLimit tone w = u.forceTakes w.job w.zone (if s.partSpeaks w.job w.zone then tone else none))) ∧
    (∀ (n z t k : Nat) (j : Job) (p : Part) (c : Nat × Option Nat) (v : State), s.job? n = some j → j.part? z = some p → p.zone = z →
      j.num = n → p.state = .sounding → p.sounder = .playing → p.start = some t → p.step = k → j.timeline.changes[k]? = some c →
      t + 8 * c.1 ≤ s.now → (s.zoneAt z).holder = .bell n →
      v = s.setWanted z (c.2.map fun e => t + 8 * e) (s.zoneAt z).trunk →
      (k + 1 < j.timeline.changes.length →
        exec (.sounderTimelineChange n z) s = .next (v.updatePart n z fun p => { p with step := p.step + 1 })) ∧
      (∀ g i, j.timeline.changes.length ≤ k + 1 → p.speaker = .playing g i →
        exec (.sounderTimelineChange n z) s =
          .next (v.updatePart n z fun p => { p with sounder := .finished, step := p.step + 1 })) ∧
      (∀ u : State, j.timeline.changes.length ≤ k + 1 → p.speaker = .absent ∨ p.speaker = .finished →
        u = s.soundChange j p →
        exec (.sounderTimelineChange n z) s = .next u.done ∧
        (∀ p', u.part? n z = some p' → p'.state = .done ∧ p'.sounder = .finished) ∧
        ((s.zoneAt z).suspended = .none →
          (u.zoneAt z).holder = .none ∧ (u.zoneAt z).bellUntil = none ∧ (u.zoneAt z).trunk = none))) ∧
    (∀ (t : Fin 4) (x : TrunkUse) (n g e : Nat) (u : State), s.trunkAt t.val = some x → x.program = .tone n g →
      x.toneUntil = some e → e ≤ s.now → u = s.toneOver t.val n g →
      exec (.toneEnd t) s = .next u.done ∧ .release ∈ u.ztc.agenda ∧ (u.toneZones t.val n = [] → t.val ∈ u.idleTrunks) ∧
      (∀ z p, s.part? n z = some p → p.state = .sounding → p.speaker = .playing g t.val →
        (p.sounder = .playing →
          (u.zoneAt z).holder = (s.zoneAt z).holder ∧ (u.zoneAt z).trunk = none ∧ (u.zoneAt z).bellUntil = (s.zoneAt z).bellUntil ∧
          u.part? n z = some { p with speaker := .finished }) ∧
        (p.sounder ≠ .playing →
          (∀ p', u.part? n z = some p' → p'.state = .done ∧ p'.speaker = .finished) ∧
          ((s.zoneAt z).suspended = .none →
            (u.zoneAt z).holder = .none ∧ (u.zoneAt z).bellUntil = none ∧ (u.zoneAt z).trunk = none)))) ∧
    (∀ k, s.releaseTrunks.trunkAt k = if k ∈ s.idleTrunks then none else s.trunkAt k)

/-- PAGE: NO RANGE for a source, group, zone or pattern that does not fit, NO BUSY while the source has a page, else the page
enters the queue behind every page of its priority or a higher one, under a number that no page in it has, its priority held at
the class's highest and its limit at 5 to 600 s. (Where no limit is asked for the port's own is held so too: the model's
choice, notes/assumptions/22.md.) With every zone excluded it is cancelled NO-ZONES at once; one that cannot start yet is
QUEUED with its zones sorted. And the grant pass that lets pages start: the lowest FREE trunk goes to the drill that needs it,
else to the first emergency page that can start, else to the first start group if the reserve leaves it one, and is FREE again
where none of its parts takes its zone (R109), else to the first routine page that can start; with no trunk FREE the drill, else
the first emergency page that can start, takes that of the TONE program granted last, or with none that of the weakest routine
page, and the zones so freed are served before the page makes its claims (R112, R139). The pass that start groups about to
start bring makes its first three steps before they are turned down (notes/assumptions/13.md). -/
def Obligations.PageEntersTheQueue : Prop :=
  (∀ (s : State) (p : Port) (op : Fin 16) (src : Source) (prio : Nat) (names : ZoneNames) (pre limit : Option Nat) (part : Bool),
    s.takes p op .staff →
    (sourceFits src p = false ∨ namesExist names = false ∨ (∃ k, pre = some k ∧ 16 ≤ k) →
      exec (.page p op src prio names pre limit part) s = .next (s.replied p (.no .range))) ∧
    (sourceFits src p = true → namesExist names = true → (∀ k, pre = some k → k < 16) →
      ((∃ q, q ∈ s.pgc.queue ∧ q.source = src) →
        exec (.page p op src prio names pre limit part) s = .next (s.replied p (.no .busy))) ∧
      (∀ (a b asked : Nat), (∀ q, q ∈ s.pgc.queue → q.source ≠ src) → s.pgc.queue.length ≤ 3 →
        a = min prio (if s.classOf p op = .safety then 7 else if s.classOf p op = .office then 5 else 3) →
        asked = limit.getD (s.store.live.prt.ports.get p).pageLimit → b = min (max asked 5) 600 →
        ∃ (t v : State) (n : Nat) (before after : List Page), exec (.page p op src prio names pre limit part) s = .next t ∧
          1 ≤ n ∧ n ≤ 255 ∧ (∀ q, q ∈ s.pgc.queue → q.num ≠ n) ∧
          v = ({ s with pgc := { s.pgc with lastPage := n, arrivals := s.pgc.arrivals + 1 } } : State).replied p
                (.okNumber (decide (a ≠ prio) || decide (b ≠ asked)) n) ∧
          t.rest = v.rest ∧
          s.pgc.queue = before ++ after ∧ (∀ q, q ∈ before → a ≤ q.prio) ∧ (∀ q, after.head? = some q → q.prio < a) ∧
          (t.pgc.queue.map Page.num).Sublist (before.map Page.num ++ n :: after.map Page.num) ∧
          (∀ q, q ∈ t.pgc.queue → q.num = n →
            q.source = src ∧ q.prio = a ∧ q.limit = b ∧ q.port = p ∧ q.op = op.val ∧ q.cls = s.classOf p op ∧ q.names = names ∧
            q.pretone = pre ∧ q.part = part ∧ q.arrival = s.campus ∧ q.hasEnded = false) ∧
          ((∀ z, z ∈ s.expandNames names → ∃ r, s.pageAnswer a z = .excluded r) →
            t = v.noticed .pageEnd (.pageEnd n p op.val src a true .noZones s.campus s.campus none [])) ∧
          (∀ taken waiting : List Nat, taken = (s.expandNames names).filter (fun z => s.pageAnswer a z = .taken) →
            waiting = (s.expandNames names).filter (fun z => s.pageAnswer a z = .waiting) →
            waiting ≠ [] → taken = [] ∨ part = false →
            t.ztc = s.ztc ∧ t.pgc.queue.map Page.num = before.map Page.num ++ n :: after.map Page.num ∧
              ∃ q, q ∈ t.pgc.queue ∧ q.num = n ∧ q.state = .queued ∧ q.held = taken ∧ q.waiting = waiting)))) ∧
  (∀ s : State, (s.pgc.queue.map Page.num).Nodup →
    let able (emergency : Bool) (p : Page) : Prop :=
      p ∈ s.pgc.queue ∧ p.state = .queued ∧ (emergency = true ↔ 6 ≤ p.prio) ∧ (s.sorted p).canStart = true ∧
        ∀ before after, s.pgc.queue = before ++ p :: after →
          ∀ q, q ∈ before → q.state = .queued → (emergency = true ↔ 6 ≤ q.prio) → (s.sorted q).canStart = false
    let carries (u : State) (t : Nat) (program : TrunkProgram → Prop) : Prop :=
      ∃ x, u.trunkAt t = some x ∧ program x.program ∧ x.since = s.now
    (∀ (whole : Bool) (u : State) (w : Option (List Work)), (u, w) = s.passOnce whole →
      (∀ t, s.freeTrunk = some t →
        (t < 4 ∧ s.trunkAt t = none ∧ ∀ k, k < t → s.trunkAt k ≠ none) ∧
        (s.drillNeeds = true → w = some [] ∧ carries u t (· = .drill)) ∧
        (s.drillNeeds = false →
          (∀ p, able true p → w = some [.claimPage p.num] ∧ carries u t (· = .page p.num)) ∧
          ((∀ p, ¬able true p) →
            (∀ g, s.nextGroup = some g → s.toneTrunks.length + s.store.live.zon.zoneSet.reserve < 4 →
              w = some [] ∧
                (carries u t (fun x => ∃ n, x = .tone g.job n) ∧ u.toneZones t g.job ≠ [] ∨
                  u.trunkAt t = none ∧ u.toneZones t g.job = [])) ∧
            (s.nextGroup = none ∨ 4 ≤ s.toneTrunks.length + s.store.live.zon.zoneSet.reserve →
              (∀ p, able false p → whole = true → w = some [.claimPage p.num] ∧ carries u t (· = .page p.num)) ∧
              ((∀ p, ¬able false p) ∨ whole = false → w = none ∧ u.ztc = s.ztc))))) ∧
      (s.freeTrunk = none →
        (∀ t v zs, s.preempt = some (t, v, zs) →
          (s.drillNeeds = true → w = some [.serve zs none true] ∧ carries u t (· = .drill)) ∧
          (∀ p, s.drillNeeds = false → able true p →
            w = some [.serve zs none true, .claimPage p.num] ∧ carries u t (· = .page p.num))) ∧
        (s.drillNeeds = false ∨ s.preempt = none → (∀ p, ¬able true p) ∨ s.preempt = none → w = none ∧ u.ztc = s.ztc))) ∧
    (∀ g, s.nextGroup = some g →
      ∃ before j after, s.bds.queue = before ++ j :: after ∧ g.job = j.num ∧ g ∈ s.ztc.groups ∧
        ∀ i, i ∈ before → ∀ h, h ∈ s.ztc.groups → h.job ≠ i.num) ∧
    (∀ t x, s.latestTone = some (t, x) →
      s.trunkAt t = some x ∧ t < 4 ∧ x.isTone = true ∧
      (∀ k y, k < 4 → s.trunkAt k = some y → y.isTone = true → y.seq ≤ x.seq) ∧
      ∀ n g, x.program = .tone n g → ∃ v, s.preempt = some (t, v, s.toneZones t n) ∧ v.trunkAt t = none) ∧
    (s.latestTone = none →
      (∀ k y, k < 4 → s.trunkAt k = some y → y.isTone = false) ∧
      ∀ p t, s.weakestPage = some p → p.trunk = some t →
        p ∈ s.pgc.queue ∧ p.onAir = true ∧ p.prio ≤ 5 ∧
        (∀ q, q ∈ s.pgc.queue → q.onAir = true → q.prio ≤ 5 →
          p.prio < q.prio ∨ p.prio = q.prio ∧ q.arrivalSeq ≤ p.arrivalSeq) ∧
        ∃ v, s.preempt = some (t, v, p.held) ∧ v.trunkAt t = none))

/-- The events of a page's trunk and its limit timer: the end of the pre-tone makes the page LIVE, the level changes begin and
end silences, a PAUSE serves the wait lists of the page's zones, and IDLE and the limit end the page. A started page that ends
leaves the queue: it gives up every zone it holds and is removed where it is suspended, its trunk is left without zones and is
released, and its PAGE-END tells the reason and the zones it lost; where nothing else waits, all of that is the next state. -/
def Obligations.PageTimersTakeEffect : Prop :=
  (∀ (s : State) (t : Fin 4) (u : TrunkUse) (p : Page) (n : Nat), s.ready → s.trunkAt t.val = some u → u.program = .page n →
    s.page? n = some p → p.num = n →
    (∀ e, p.state = .chime → u.toneUntil = some e → e ≤ s.now →
      exec (.pretoneEnd t) s =
        .next ((s.setTrunk t.val (some { u with tone := none, toneSince := none, toneUntil := none, source := true
                                                silence := some { since := s.now
                                                                  pauseLength := s.store.live.zon.zoneSet.pauseLength
                                                                  idleLimit := s.store.live.zon.zoneSet.idleLimit
                                                                  paused := false, idled := false } })).updatePage n
          fun p => { p with state := .live })) ∧
    (p.state = .live →
      exec (.trunkLevelChange t false) s = .next (s.setTrunk t.val (some { u with silence := none })) ∧
      (u.silence = none →
        exec (.trunkLevelChange t true) s =
          .next (s.setTrunk t.val (some { u with
            silence := some { since := s.now, pauseLength := s.store.live.zon.zoneSet.pauseLength
                              idleLimit := s.store.live.zon.zoneSet.idleLimit, paused := false, idled := false } }))) ∧
      (∀ q, u.silence = some q → exec (.trunkLevelChange t true) s = .next s) ∧
      (∀ q, u.silence = some q → q.paused = false → q.since + 8 * q.pauseLength ≤ s.now →
        exec (.pause t) s =
          .next ((s.setTrunk t.val (some { u with silence := some { q with paused := true } })).push
            [.serve (allZones.filter fun z => (s.zoneAt z).holder.isPage n) (some n) false]).done) ∧
      (∀ q, u.silence = some q → q.idled = false → q.since + 8000 * q.idleLimit ≤ s.now →
        exec (.idle t) s =
          .next ((s.setTrunk t.val (some { u with silence := some { q with idled := true } })).endPage n .idle).done)) ∧
    (∀ e, p.state = .chime ∨ p.state = .live → p.limitAt = some e → e ≤ s.now →
      exec (.pageLimitExpiry n) s = .next (s.endPage n .limit).done) ∧
    (∀ (c : Instr) (r : PageReason),
      (c = .pageLimitExpiry n ∧ r = .limit ∧ (p.state = .chime ∨ p.state = .live) ∧ ∃ e, p.limitAt = some e ∧ e ≤ s.now) ∨
        (c = .idle t ∧ r = .idle ∧ p.state = .live ∧
          ∃ q, u.silence = some q ∧ q.idled = false ∧ q.since + 8000 * q.idleLimit ≤ s.now) →
      ∃ v : State, exec c s = .next v ∧
        ((s.pgc.queue.filter fun q => q.num = n) = [p] → ∀ q, q ∈ v.pgc.queue → q.num ≠ n) ∧
        (s.pgc.queue = [p] → s.ztc.groups = [] → (∀ z, (s.zoneAt z).waits = []) → s.dsq.session = none →
          v.pgc.queue = [] ∧ v.trunkAt t.val = none ∧
          (∀ q k, (v.ntu.get q).recAt k =
            if k = .pageEnd then
              ((s.ntu.get q).take .pageEnd
                (.pageEnd n p.port p.op p.source p.prio p.start.isNone r p.arrival s.campus p.start
                  (if p.start.isSome then p.lost else []))).recAt .pageEnd
            else (s.ntu.get q).recAt k) ∧
          (∀ z m, z < 32 → (s.zoneAt z).holder = .page n m → (s.zoneAt z).suspended = .none →
            (v.zoneAt z).holder = .none ∧ (v.zoneAt z).bellUntil = none ∧ (v.zoneAt z).trunk = none) ∧
          v.rest = s.rest))) ∧
  (∀ (s u : State) (n : Nat) (r : PageReason) (p : Page), s.page? n = some p → u = s.endPage n r →
    (∀ q, q ∈ u.pgc.queue → q.num = n → q.state = .ended r ∧ q.waiting = []) ∧
    (p.onAir = false → u.ztc = s.ztc) ∧
    (p.onAir = true →
      .release ∈ u.ztc.agenda ∧
      (∀ z, z < 32 →
        (∀ m, (s.zoneAt z).suspended = .page n m → (u.zoneAt z).suspended = .none) ∧
        (∀ m, (s.zoneAt z).holder = .page n m → (s.zoneAt z).suspended = .none →
          (u.zoneAt z).holder = .none ∧ (u.zoneAt z).bellUntil = none ∧ (u.zoneAt z).trunk = none) ∧
        ((∀ m, (s.zoneAt z).holder ≠ .page n m) →
          (u.zoneAt z).holder = (s.zoneAt z).holder ∧ (u.zoneAt z).bellUntil = (s.zoneAt z).bellUntil ∧
            (u.zoneAt z).trunk = (s.zoneAt z).trunk)) ∧
      ∀ k x, k < 4 → s.trunkAt k = some x → x.program = .page n → k ∈ u.idleTrunks)) ∧
  (∀ (s : State) (p : Page) (r : PageReason), (s.pgc.queue.filter Page.hasEnded) = [p] → p.state = .ended r →
    s.finalizePages =
      ({ s with pgc := { s.pgc with queue := s.pgc.queue.filter fun q => !q.hasEnded } } : State).raise .pageEnd
        (.pageEnd p.num p.port p.op p.source p.prio p.start.isNone r p.arrival s.campus p.start
          (if p.start.isSome then p.lost else [])))

/-- PAGE, END and CANCEL: a page that has to wait for all the zones it may have is accepted and stands QUEUED under the number of
its reply, at its priority held at the class's highest; END and CANCEL of a page that is not in the queue are NO RANGE; END is
for the port the page came from, and CANCEL from the other port for an operator whose class reaches that of the page; a page
that was still QUEUED leaves the queue with its PAGE-END and nothing else changes, and a started one is ended. -/
def Obligations.EndAndCancelEndAPage : Prop :=
  ∀ (s : State) (p : Port) (op : Fin 16) (n : Nat), s.takes p op .staff →
    (∀ (src : Source) (prio a : Nat) (names : ZoneNames) (pre limit : Option Nat) (part : Bool),
      a = min prio (if s.classOf p op = .safety then 7 else if s.classOf p op = .office then 5 else 3) →
      sourceFits src p = true → namesExist names = true → (∀ k, pre = some k → k < 16) →
      (∀ q, q ∈ s.pgc.queue → q.source ≠ src) → s.pgc.queue.length ≤ 3 →
      (∃ z, z ∈ s.expandNames names ∧ s.pageAnswer a z = .waiting) →
      (∀ z, z ∈ s.expandNames names → s.pageAnswer a z ≠ .taken) →
      ∃ (t : State) (q : Page) (clamped : Bool), exec (.page p op src prio names pre limit part) s = .next t ∧
        q ∈ t.pgc.queue ∧ q.state = .queued ∧ q.source = src ∧ q.prio = a ∧ q.port = p ∧ q.start = none ∧
        (t.port p).reply = some (.okNumber clamped q.num) ∧ t.ztc = s.ztc) ∧
    (s.page? n = none →
      exec (.endPage p op n) s = .next (s.replied p (.no .range)) ∧ exec (.cancel p op n) s = .next (s.replied p (.no .range))) ∧
    (∀ q : Page, s.page? n = some q →
      (q.port ≠ p → exec (.endPage p op n) s = .next (s.replied p (.no .state))) ∧
      (q.port ≠ p → classRank (s.classOf p op) < classRank q.cls →
        ∃ t : State, exec (.cancel p op n) s = .next t ∧ (t.port p).reply = some (.no .cls) ∧ t.pgc = s.pgc ∧ t.ztc = s.ztc) ∧
      (q.port = p → exec (.endPage p op n) s = .next ((s.endPage n .byEnd).replied p .ok).done) ∧
      (q.port = p ∨ classRank q.cls ≤ classRank (s.classOf p op) →
        exec (.cancel p op n) s = .next ((s.endPage n .cancel).replied p .ok).done) ∧
      (q.state = .queued → (s.pgc.queue.filter fun x => x.num = n) = [q] → q.port = p →
        exec (.cancel p op n) s =
          .next (({ s with pgc := { s.pgc with queue := s.pgc.queue.filter fun x => x.num ≠ n } } : State).replied p .ok
            |>.noticed .pageEnd (.pageEnd n q.port q.op q.source q.prio q.start.isNone .cancel q.arrival s.campus q.start
              (if q.start.isSome then q.lost else [])))))

/-! ### The panel and drills (chapter 9) -/

/-- INPUT_RAW_CHANGE, DEBOUNCE_EXPIRY and WIRING_STATE_CHANGE: a new raw level is timed from now, without power too
(notes/assumptions/10.md, DEDUCED); once it has stood for the debounce time the debounced value follows, and with it TROUBLE is
told, ALARM begins an alarm, and falling starts RESTORING with its timer (claiming the alarm set again out of ALARM-SILENCED),
SILENCE silences the alarm and, by its mode, sounds it again, and DRILL-ACK starts the drill that was requested or the panel's
own, or is REFUSED with the first of STATE, TROUBLE and NO-PROGRAM that holds (notes/assumptions/49.md, DESIGN CHOICE), and falling aborts a running one; a broken or mended circuit changes the wiring state after the same time,
from which a differing level is timed (notes/assumptions/18.md, DEDUCED), and nothing else but the trouble it tells. -/
def Obligations.PanelInputsDebounced : Prop :=
  (∀ (s : State) (i : PanelInput) (raw : RawLevel), s.restingLaw →
    (raw = (s.pnl.input i).raw → exec (.inputRawChange i raw) s = .next s) ∧
    (∀ x : InputSt, raw ≠ (s.pnl.input i).raw →
      x = { s.pnl.input i with
            raw := raw
            levelSince := s.now
            circuitSince :=
              if (raw = .broken ↔ (s.pnl.input i).raw = .broken) then (s.pnl.input i).circuitSince else s.now } →
      exec (.inputRawChange i raw) s = .next { s with pnl := s.pnl.setInput i x })) ∧
  (∀ (s : State) (x : InputSt) (v : Bool), s.ready → s.pnl.sampleUntil = none → x.fault = false → x.raw = (if v then .active else .inactive) →
    x.debounced = !v → x.levelSince + 8 * s.drillSet.debounce ≤ s.now →
    (x = s.pnl.trouble →
      exec (.debounceExpiry .trouble) s =
        .next (({ s with pnl := { s.pnl with trouble := { x with debounced := v } } } : State).noticed .panel
          (.panel .trouble s.pnl.state ({ s.pnl with trouble := { x with debounced := v } } : Pnl).causes))) ∧
    (x = s.pnl.alarm → v = true → s.pnl.state = .normal →
      ∃ t : State, exec (.debounceExpiry .alarm) s = .next t ∧ t.pnl.alarm = { x with debounced := true } ∧
        t.pnl.state = .alarm ∧ t.pnl.alarmSet = (allZones.filter fun z => (s.zoneCfg z).alarmFollow) ∧ t.base = s.base) ∧
    (∀ u : Pnl, x = s.pnl.alarm → v = true → s.pnl.state = .restoring →
      u = { s.pnl with alarm := { x with debounced := true }, state := .alarm, restoreAt := none } →
      exec (.debounceExpiry .alarm) s = .next (({ s with pnl := u } : State).noticed .panel (.panel .alarm .alarm u.causes))) ∧
    (∀ (u : Pnl) (w : State), x = s.pnl.alarm → v = false →
      u = { s.pnl with alarm := { x with debounced := false }, state := .restoring
                       restoreAt := some (s.now + 8000 * s.drillSet.restoreDelay) } →
      w = ({ s with pnl := u } : State).raise .panel (.panel .restoring .restoring u.causes) →
      (s.pnl.state = .alarm → 0 < s.drillSet.restoreDelay → exec (.debounceExpiry .alarm) s = .next w.rejudge) ∧
      (s.pnl.state = .silenced → 0 < s.drillSet.restoreDelay →
        exec (.debounceExpiry .alarm) s = .next (w.claimAlarm s.pnl.alarmSet).done) ∧
      (s.pnl.state = .alarm ∨ s.pnl.state = .silenced → s.drillSet.restoreDelay = 0 →
        ∃ t : State, exec (.debounceExpiry .alarm) s = .next t ∧
          t.pnl = { u with state := .normal, restoreAt := none, alarmSet := [] } ∧ t.base = s.base) ∧
      (s.pnl.state = .normal ∨ s.pnl.state = .restoring →
        exec (.debounceExpiry .alarm) s = .next { s with pnl := { s.pnl with alarm := { x with debounced := false } } })) ∧
    (x = s.pnl.silence → v = true → s.pnl.state = .alarm →
      exec (.debounceExpiry .silence) s =
        .next (({ s with pnl := { s.pnl with silence := { x with debounced := true }, state := .silenced } } : State).noticed .panel
          (.panel .silenced .silenced ({ s.pnl with silence := { x with debounced := true }, state := .silenced } : Pnl).causes))) ∧
    (∀ u : Pnl, x = s.pnl.silence → u = { s.pnl with silence := { x with debounced := v } } →
      (s.pnl.state = .silenced → s.drillSet.silence = (if v then .edge else .level) →
        exec (.debounceExpiry .silence) s =
          .next ((({ s with pnl := { u with state := .alarm } } : State).raise .panel
            (.panel .alarm .alarm ({ u with state := .alarm } : Pnl).causes)).claimAlarm s.pnl.alarmSet).done) ∧
      (s.pnl.state = .normal ∨ s.pnl.state = .restoring ∨ (s.pnl.state = .alarm ∧ v = false) ∨
        (s.pnl.state = .silenced ∧ s.drillSet.silence = (if v then .level else .edge)) →
        exec (.debounceExpiry .silence) s = .next { s with pnl := u })) ∧
    (∀ (u : State) (n : Nat), x = s.pnl.drillAck → v = true →
      u = { s with pnl := { s.pnl with drillAck := { x with debounced := true } } } → n = s.drillSet.program →
      (∀ d, s.dsq.session = some d → d.running = true → exec (.debounceExpiry .drillAck) s = .next u) ∧
      (∀ d c, s.dsq.session = some d → d.running = false → d.stages[0]? = some c →
        ∃ (t : State) (e : Session), exec (.debounceExpiry .drillAck) s = .next t ∧ t.pnl = u.pnl ∧ t.base = s.base ∧
          t.dsq.session = some e ∧ e.running = true ∧ e.start = s.campus ∧ e.stage = 0 ∧ e.stageSince = s.now ∧
          e.zones = s.drillZones d.building ∧ e.program = d.program ∧ e.origin = d.origin ∧ e.building = d.building ∧
          e.stages = d.stages) ∧
      (s.dsq.session = none →
        (s.pnl.state ≠ .normal → exec (.debounceExpiry .drillAck) s = .next (u.noticed .drill (.drill (.refused .state)))) ∧
        (s.pnl.state = .normal → s.pnl.causes ≠ [] →
          exec (.debounceExpiry .drillAck) s = .next (u.noticed .drill (.drill (.refused .trouble)))) ∧
        (s.pnl.state = .normal → s.pnl.causes = [] → s.store.live.drl.stagesOf n = [] →
          exec (.debounceExpiry .drillAck) s = .next (u.noticed .drill (.drill (.refused .noProgram)))) ∧
        (s.pnl.state = .normal → s.pnl.causes = [] → s.store.live.drl.stagesOf n ≠ [] →
          ∃ (t : State) (e : Session), exec (.debounceExpiry .drillAck) s = .next t ∧ t.pnl = { u.pnl with drillReq := true } ∧
            t.base = s.base ∧ t.dsq.session = some e ∧ e.running = true ∧ e.origin = .panel ∧ e.program = n ∧
            e.start = s.campus ∧ e.stage = 0 ∧ e.stageSince = s.now ∧ e.building = (s.program n).building ∧
            e.zones = s.drillZones (s.program n).building))) ∧
    (∀ u : State, x = s.pnl.drillAck → v = false →
      u = { s with pnl := { s.pnl with drillAck := { x with debounced := false } } } →
      (s.dsq.session = none → exec (.debounceExpiry .drillAck) s = .next u) ∧
      (∀ d, s.dsq.session = some d → d.running = false → exec (.debounceExpiry .drillAck) s = .next u) ∧
      (∀ d, s.dsq.session = some d → d.running = true →
        ∃ (t : State) (r : DrillRecord), exec (.debounceExpiry .drillAck) s = .next t ∧ t.dsq.session = none ∧
          t.pnl = { u.pnl with drillReq := false } ∧ t.base = s.base ∧
          t.dsq.records = (r :: s.dsq.records).take 16 ∧ r.reason = .abortedPanel ∧ r.num = s.dsq.nextRecord ∧
          r.program = d.program ∧ r.start = d.start ∧ r.finish = s.campus))) ∧
  (∀ (s : State) (i : PanelInput) (x : InputSt), s.ready → s.pnl.sampleUntil = none → x = s.pnl.input i →
    (x.fault = true ↔ x.raw ≠ .broken) → x.circuitSince + 8 * s.drillSet.debounce ≤ s.now →
    ∃ u : Pnl, u = s.pnl.setInput i { x with fault := !x.fault, levelSince := s.now } ∧
      exec (.wiringStateChange i) s = .next (({ s with pnl := u } : State).noticed .panel (.panel .trouble u.state u.causes)))

/-- RESTORE_TIMER_EXPIRY and PANEL_SAMPLE_COMPLETE when they are due: the panel state is NORMAL with no alarm set, and the zones
of the alarm are released as one release; and the sampled levels are the debounced values, a circuit broken throughout is a
wiring FAULT, one broken only at the end is inactive and no FAULT yet (notes/assumptions/18.md, DEDUCED), and the ports read
lines; ALARM found active is an alarm that begins. -/
def Obligations.PanelTimersTakeEffect : Prop :=
  ∀ (s : State) (e : Nat), s.ready → e ≤ s.now →
    (s.pnl.state = .restoring → s.pnl.restoreAt = some e →
      (∃ t : State, exec .restoreTimerExpiry s = .next t ∧
        t.rest = ({ s with pnl := { s.pnl with state := .normal, restoreAt := none, alarmSet := [] } } : State).rest) ∧
      (∀ (u : Pnl) (v : State), u = { s.pnl with state := .normal, restoreAt := none, alarmSet := [] } →
        v = (({ s with pnl := u } : State).raise .panel (.panel .normal .normal u.causes)).releaseZones Holder.isAlarm
          Suspended.isAlarm allZones →
        exec .restoreTimerExpiry s = .next v.done ∧
        (∀ z, z < 32 →
          (v.zoneAt z).suspended ≠ .alarm ∧
          ((s.zoneAt z).holder = .alarm → (v.zoneAt z).holder ≠ .alarm) ∧
          ((s.zoneAt z).holder = .alarm → (s.zoneAt z).suspended = .none →
            (v.zoneAt z).holder = .none ∧ (v.zoneAt z).bellUntil = none ∧ (v.zoneAt z).trunk = none)))) ∧
    (s.pnl.sampleUntil = some e →
      ∃ t : State, exec .panelSampleComplete s = .next t ∧ t.reads = true ∧
        (∀ i, (t.pnl.input i).debounced = decide ((s.pnl.input i).raw = .active) ∧
          ((t.pnl.input i).fault = true ↔
            (s.pnl.input i).raw = .broken ∧ (s.pnl.input i).circuitSince ≤ e - 8 * s.drillSet.debounce) ∧
          (t.pnl.input i).raw = (s.pnl.input i).raw) ∧
        (s.pnl.alarm.raw ≠ .active → t.pnl.state = s.pnl.state ∧ { t.rest with pnl := s.pnl } = s.rest) ∧
        (s.pnl.alarm.raw = .active → s.pnl.state = .normal →
          t.pnl.state = .alarm ∧ t.pnl.alarmSet = allZones.filter fun z => (s.zoneCfg z).alarmFollow))

/-- DRILL and ACK_TIMER_EXPIRY: a drill is refused NO RANGE and NO STATE as R159 says, NO RANGE where both hold
(notes/assumptions/50.md, DESIGN CHOICE); else, with DRILL-ACK inactive, a session
is REQUESTING with DRILL-REQ raised; and a request that the panel does not acknowledge ends PANEL-TIMEOUT with its record. -/
def Obligations.DrillRequestedAndTimedOut : Prop :=
  (∀ (s : State) (p : Port) (op : Fin 16) (n : Nat) (b : Option (List Nat)), s.takes p op .safety →
    (8 ≤ n ∨ (∃ ls l, b = some ls ∧ l ∈ ls ∧ 6 ≤ l) → exec (.drill p op n b) s = .next (s.replied p (.no .range))) ∧
    (n < 8 → (∀ ls l, b = some ls → l ∈ ls → l < 6) →
      (s.dsq.session ≠ none ∨ s.pnl.state ≠ .normal ∨ s.pnl.causes ≠ [] ∨ s.store.live.drl.stagesOf n = [] →
        exec (.drill p op n b) s = .next (s.replied p (.no .state))) ∧
      (s.dsq.session = none → s.pnl.state = .normal → s.pnl.causes = [] → s.store.live.drl.stagesOf n ≠ [] →
        s.pnl.drillAck.debounced = false →
        ∃ d : Session,
          d = { running := false
                origin := if p = .a then .portA else .portB
                program := n
                source := (s.program n).source
                stages := (s.store.live.drl.stagesOf n).map fun g => { stage := g, timeline := s.store.live.pat.timeline g.pattern }
                building := setBelow 6 (b.getD (s.program n).building)
                start := s.campus
                ackAt := s.now + 8000 * s.drillSet.ackTimeout
                zones := [], stage := 0, stageSince := s.now, signal := .silent, nextChange := none, announced := false
                timing := .before, baselines := [], results := [], drops := 0 } ∧
          exec (.drill p op n b) s =
            .next (({ s with pnl := { s.pnl with drillReq := true }, dsq := { s.dsq with session := some d } } : State).replied p .ok)))) ∧
  (∀ (s : State) (d : Session), s.ready → s.dsq.session = some d → d.running = false → d.ackAt ≤ s.now → d.timing = .before →
    ∃ t : State, exec .ackTimerExpiry s = .next t ∧ t.dsq.session = none ∧ t.pnl = { s.pnl with drillReq := false } ∧
      t.dsq.lastRecord = some s.dsq.nextRecord ∧
      t.dsq.records =
        ({ num := s.dsq.nextRecord, program := d.program, origin := d.origin, start := d.start, finish := s.campus
           results := allLines.map fun l => if d.building.contains l then (tget resultStart d.results l).getD .notTimed else .notInDrill
           drops := d.drops, reason := .panelTimeout, good := true } :: s.dsq.records).take 16)

/-- DRILL_TIMELINE_CHANGE, STAGE_EXPIRY, ADVANCE and ABORT: the zones of the drill take the timeline as it stands now; the end
of the last stage ends the session COMPLETED, and an abort ends it ABORTED-PORT, each with its record. -/
def Obligations.DrillStagesEnd : Prop :=
  (∀ (s : State) (d : Session) (c : StageCopy) (e : Nat), s.ready → s.dsq.session = some d → d.running = true →
    d.stages[d.stage]? = some c →
    (∀ d' : Session, d.nextChange = some e → e ≤ s.now →
      d' = { d with nextChange := (c.timeline.nextChange (s.now - d.stageSince)).map (· + d.stageSince) } →
      exec .drillTimelineChange s = .next ({ s with dsq := { s.dsq with session := some d' } } : State).drillOutputs) ∧
    (d.stageSince + 8000 * c.stage.duration ≤ s.now → exec .stageExpiry s = .next s.endStage.done) ∧
    (d.stageSince + 8000 * c.stage.duration ≤ s.now → d.stage + 1 = d.stages.length →
      ∃ (t : State) (r : DrillRecord), exec .stageExpiry s = .next t ∧ t.dsq.session = none ∧ t.pnl.drillReq = false ∧
        t.dsq.records = (r :: s.dsq.records).take 16 ∧ r.reason = .completed ∧ r.num = s.dsq.nextRecord ∧ r.program = d.program ∧
        r.start = d.start ∧ r.finish = s.campus)) ∧
  (∀ (s : State) (p : Port) (op : Fin 16) (k : Nat), s.takes p op .safety →
    ((∀ d, s.dsq.session = some d → d.running = false ∨ d.stage ≠ k ∨ ∀ c, d.stages[k]? = some c → c.stage.advance ≠ .manual) →
      exec (.advance p op k) s = .next (s.replied p (.no .state))) ∧
    (∀ d c, s.dsq.session = some d → d.running = true → d.stage = k → d.stages[k]? = some c → c.stage.advance = .manual →
      exec (.advance p op k) s = .next (s.endStage.replied p .ok).done) ∧
    (s.dsq.session = none → exec (.abort p op) s = .next (s.replied p (.no .state))) ∧
    (∀ d, s.dsq.session = some d →
      ∃ (t : State) (r : DrillRecord), exec (.abort p op) s = .next t ∧ (t.port p).reply = some .ok ∧ t.dsq.session = none ∧
        t.pnl.drillReq = false ∧ t.dsq.records = (r :: s.dsq.records).take 16 ∧ r.reason = .abortedPort ∧
        r.num = s.dsq.nextRecord ∧ r.program = d.program ∧ r.start = d.start ∧ r.finish = s.campus))

/-! ### Notices, ports and start-up (chapters 10 and 11) -/

/-- NEXT (R184). -/
def Obligations.NextAnswersTheHighestKind : Prop :=
  ∀ (s : State) (p : Port) (op : Fin 16), s.takes p op .viewer →
    ((∀ k, ((s.ntu.get p).recAt k).flag = false) → exec (.next p op) s = .next (s.replied p (.no .empty))) ∧
    ((∃ k, ((s.ntu.get p).recAt k).flag = true) →
      ∃ k, ((s.ntu.get p).recAt k).flag = true ∧
        exec (.next p op) s =
          .next (s.replied p (.next k (s.levelOf p k) ((s.ntu.get p).recAt k).count ((s.ntu.get p).recAt k).detail)) ∧
        (∀ j, ((s.ntu.get p).recAt j).flag = true →
          (s.levelOf p j = .urgent → s.levelOf p k = .urgent) ∧ (s.levelOf p j = s.levelOf p k → kindIdx k ≤ kindIdx j)))

/-- CLEAR, QUIET and ATTEND: the count guards the clearing; a quiet kind has no record; and the attention line follows. -/
def Obligations.NoticeRequestsActAtTheirPort : Prop :=
  ∀ (s : State) (p : Port) (op : Fin 16), s.takes p op .staff →
    (∀ n, exec (.clear p op none n) s = .next (s.replied p (.no .range))) ∧
    (∀ on, exec (.quiet p op none on) s = .next (s.replied p (.no .range))) ∧
    (∀ (k : NoticeKind) (n : Nat) (r : NoticeRec), r = (s.ntu.get p).recAt k →
      (n = 0 ∨ 255 < n → exec (.clear p op (some k) n) s = .next (s.replied p (.no .range))) ∧
      (1 ≤ n → n ≤ 255 → r.flag = false → exec (.clear p op (some k) n) s = .next (s.replied p (.no .state))) ∧
      (1 ≤ n → n ≤ 255 → r.flag = true → r.count < n → exec (.clear p op (some k) n) s = .next (s.replied p (.no .range))) ∧
      (1 ≤ n → n ≤ 255 → r.flag = true → n ≤ r.count →
        ∃ t : State, exec (.clear p op (some k) n) s = .next t ∧ t.rest.setPort p (s.port p) = s.rest ∧
          (t.port p).reply = some .ok ∧
          (t.port p).capture = (if k = .access ∧ n = r.count then none else (s.port p).capture) ∧
          (∀ q j, (t.ntu.get q).recAt j =
            if q = p ∧ j = k then
              (if n = r.count then { flag := false, count := 0, detail := none } else { r with count := r.count - n })
            else (s.ntu.get q).recAt j)) ∧
      (∀ on, ∃ t : State, exec (.quiet p op (some k) on) s = .next t ∧ (t.port p).reply = some .ok ∧
          (∀ j, (t.ntu.get p).quiet.contains j = if j = k then on else (s.ntu.get p).quiet.contains j) ∧
          (t.ntu.get (otherPort p)).quiet = (s.ntu.get (otherPort p)).quiet ∧
          (∀ q j, (t.ntu.get q).recAt j =
            if q = p ∧ j = k ∧ on = true then { flag := false, count := 0, detail := none } else (s.ntu.get q).recAt j))) ∧
    (∀ m, exec (.attend p op m) s =
      .next ((({ s with ntu := s.ntu.set p { s.ntu.get p with mode := m } } : State).replied p .ok).rejudge))

/-- NOTE, SIGNAL and LOWER: a slot takes its value, held at 65,535; a signal is raised from this port with CROSS-SIGNAL at the
other, and lowered at the port it was raised toward. -/
def Obligations.SlotsAndSignals : Prop :=
  ∀ (s : State) (p : Port) (op : Fin 16) (n : Nat), s.takes p op .staff →
    (∀ v, 8 ≤ n → exec (.note p op n v) s = .next (s.replied p (.no .range))) ∧
    (∀ v, n < 8 →
      ∃ t : State, exec (.note p op n v) s = .next t ∧ tget slotStart t.slots n = min v 65535 ∧
        (∀ k, k ≠ n → tget slotStart t.slots k = tget slotStart s.slots k) ∧
        { t with slots := s.slots } = s.replied p (if 65535 < v then .okClamped else .ok)) ∧
    (8 ≤ n →
      exec (.signal p op n) s = .next (s.replied p (.no .range)) ∧ exec (.lower p op n) s = .next (s.replied p (.no .range))) ∧
    (n < 8 → n ∈ s.signalsFrom p → exec (.signal p op n) s = .next (s.replied p (.no .state))) ∧
    (n < 8 → n ∉ s.signalsFrom p →
      ∃ xs : List Nat, (∀ k, k ∈ xs ↔ k < 8 ∧ (k = n ∨ k ∈ s.signalsFrom p)) ∧
        exec (.signal p op n) s =
          .next ((((s.setSignals p xs).raiseAt (otherPort p) .crossSignal (.crossSignal xs)).replied p .ok).rejudge)) ∧
    (n < 8 → n ∉ s.signalsFrom (otherPort p) → exec (.lower p op n) s = .next (s.replied p (.no .state))) ∧
    (n < 8 → n ∈ s.signalsFrom (otherPort p) →
      exec (.lower p op n) s =
        .next ((s.setSignals (otherPort p) ((s.signalsFrom (otherPort p)).filter (· ≠ n))).replied p .ok))

/-- The requests that read a block are answered with what it holds and change nothing else. -/
def Obligations.ReadingRequestsAnswered : Prop :=
  ∀ (s : State) (p : Port) (op : Fin 16), s.takes p op .viewer →
    exec (.bells p op) s = .next (s.replied p (.bells
      { gateOpen := s.bds.gateOpen, mark := s.bds.mark, campus := s.campus, listDate := s.bds.listDate
        entries := s.bds.list.length
        next := s.bds.list.find? fun e => decide (s.bds.mark.count < s.bds.listDate * 86400 + e.time)
        jobs := s.bds.queue.map s.jobReply })) ∧
    exec (.pages p op) s = .next (s.replied p (.pages (s.pgc.queue.map s.pageReply))) ∧
    exec (.lines p op) s = .next (s.replied p (.lines (allLines.map s.lineReply))) ∧
    exec (.notes p op) s = .next (s.replied p (.notes ((List.range 8).map (tget slotStart s.slots)))) ∧
    exec (.status p op) s = .next (s.replied p (.status (s.statusReply p))) ∧
    (∀ n a, exec (.device p op n a) s =
      .next (s.replied p (if n < 6 ∧ 1 ≤ a ∧ a ≤ 24 then .device ((s.lineAt n).recAt a) else .no .range))) ∧
    (∀ n, exec (.testRead p op n) s =
      .next (s.replied p (if n < 6 then (match (s.lineAt n).record with | some r => .test r | none => .no .empty) else .no .range))) ∧
    (∀ z, exec (.zone p op (.zone z)) s = .next (s.replied p (if z < 32 then .zone (s.zoneReply z) else .no .range))) ∧
    (∀ t, exec (.zone p op (.trunk t)) s = .next (s.replied p (if t < 4 then .trunk (s.trunkReply t) else .no .range))) ∧
    exec (.drillrec p op none) s =
      .next (s.replied p (match s.dsq.session with | some d => .session (s.sessionReply d) | none => .no .empty)) ∧
    (∀ i, exec (.drillrec p op (some i)) s =
      .next (s.replied p
        (if s.dsq.records = [] then .no .empty else match s.dsq.records[i]? with | some r => .record r | none => .no .range)))

/-- The port itself: a line is built of the characters up to a carriage return, line feeds set aside, and 81 characters, or one
that is not printable, make it unreadable; RESTART is for the key switch in SETUP; a line that cannot be read, or fails steps 1
to 3, is refused by name; a line that ends while a request is in progress is owed NO BUSY, up to eight, the answer being sent
not counted (notes/assumptions/10.md, DEDUCED); and the end of a reply frees the port, or sends the next answer owed, or begins
the restart (notes/assumptions/17.md, DEDUCED). -/
def Obligations.PortTakesOneRequestAtATime : Prop :=
  (∀ (s : State) (p : Port) (c : LinkChar) (cs : List LinkChar) (x : PortSt), s.reads = true →
    (s.port p).arriving = c :: cs → x = { s.port p with arriving := cs } →
    (c = .code 13 →
      s.takeChar p = s.setPort p { x with typed := { chars := [], bad := false, tooLong := false } } ∧
      s.charCommand p =
        (if x.typed.chars = [] ∧ x.typed.tooLong = false then []
         else if x.reply ≠ none then [.lineWhileBusy p]
         else if x.typed.tooLong = true ∨ x.typed.bad = true then [.unreadableLine p]
         else [readLine p (x.cursor.map Cursor.table) x.typed.chars])) ∧
    (c ≠ .code 13 → s.charCommand p = []) ∧
    (c = .code 10 → s.takeChar p = s.setPort p x) ∧
    (∀ k, c = .code k → k ≠ 13 → k ≠ 10 → x.typed.tooLong = false → x.typed.chars.length < 80 →
      s.takeChar p = s.setPort p { x with typed :=
        { chars := x.typed.chars ++ [k], bad := x.typed.bad || !decide (32 ≤ k ∧ k ≤ 126), tooLong := false } }) ∧
    (c = .broken → x.typed.tooLong = false → x.typed.chars.length < 80 →
      ∃ k, s.takeChar p = s.setPort p { x with typed := { chars := x.typed.chars ++ [k], bad := true, tooLong := false } }) ∧
    (c ≠ .code 13 → c ≠ .code 10 → x.typed.tooLong = false → 80 ≤ x.typed.chars.length →
      s.takeChar p = s.setPort p { x with typed := { chars := [], bad := false, tooLong := true } }) ∧
    (c ≠ .code 13 → x.typed.tooLong = true → s.takeChar p = s.setPort p x)) ∧
  (∀ (s : State) (p : Port) (op : Fin 16), s.takes p op .office →
    (s.setup = false → exec (.restart p op) s = .next (s.replied p (.no .state))) ∧
    (s.setup = true → exec (.restart p op) s = .next ((s.setPort p { s.port p with restarts := true }).replied p .ok))) ∧
  (∀ (s : State) (p : Port), s.restingLaw → s.reads = true →
    ((s.port p).reply = none →
      exec (.unreadableLine p) s = .next (s.replied p (.no .badSyntax)) ∧
      (∀ why, exec (.unknownKeyword p why) s = .next (s.replied p (if why = .noKeyword then .no .unknown else .no .badSyntax)))) ∧
    ((s.port p).reply ≠ none → ∀ t : State,
      t = (if (s.port p).owed < 8 then s.setPort p { s.port p with owed := (s.port p).owed + 1 } else s) →
      exec (.lineWhileBusy p) s = .next t ∧ exec (.unreadableLine p) s = .next t ∧
        (∀ why, exec (.unknownKeyword p why) s = .next t) ∧ (∀ op, exec (.status p op) s = .next t))) ∧
  (∀ (s : State) (p : Port), s.ready → (s.port p).reply ≠ none →
    exec (.replySent p) s =
      .next { (s.setPort p
          { s.port p with
            reply := if 0 < (s.port p).owed then some (.no .busy) else none
            owed := (s.port p).owed - 1
            restarts := false }) with
        restartDue := s.restartDue || (s.port p).restarts })

/-- POWER_ON, POWER_LOSS and CONTROLLER_RESTART: power-on loads the plan and takes campus time from a battery clock that can be
trusted (which has counted on past 2099: notes/assumptions/24.md, DEDUCED); the loss of power keeps the plan's images, the
battery clock and, but for a record or number that it tears (its operands: notes/assumptions/20.md, DEDUCED), the drill
records; room clocks run on by the seconds that POWER_ON tells (notes/assumptions/34.md, DESIGN CHOICE), and press counts and
clock faces outlast the loss of power (notes/assumptions/11.md, DESIGN CHOICE); a restart keeps every value of the Timebase
Unit (one whose load has disabled the reference keeps the discipline state too, and it reads FREE: notes/assumptions/32.md, DESIGN
CHOICE); after power-on and restart every queue is empty and every port, hold and slot stands
at its start-up value. -/
def Obligations.StartUpSetsTheBlocks : Prop :=
  (∀ (s : State) (good : Bool) (n : Nat), s.power = false →
    ∃ t : State, exec (.powerOn good n) s = .next t ∧ t.power = true ∧ t.setup = s.setup ∧ t.now = s.now ∧
      (∀ r, copyRegion r t.store.live s.store.images =
        (if s.imageGoodAt r then s.store.images else copyRegion r emptyPlan s.store.images)) ∧
      t.store.staged = t.store.live ∧ t.store.holds = [] ∧ t.store.images = s.store.images ∧
      (good = true → s.tbu.battery.valid = true →
        t.tbu.validity = .backup ∧ { day := t.tbu.day, sec := t.tbu.sec } = s.tbu.battery.time.after n ∧ t.tbu.drift = s.tbu.battery.drift) ∧
      (good = false ∨ s.tbu.battery.valid = false → t.tbu.validity = .invalid ∧ t.tbu.day = 0 ∧ t.tbu.sec = 0 ∧ t.tbu.drift = 0) ∧
      t.tbu.phase = 0 ∧ t.tbu.chain = none ∧ t.tbu.history = [] ∧ t.tbu.disc = .free ∧ t.tbu.lastStep = none ∧
      t.bds.queue = [] ∧ t.pgc.queue = [] ∧ t.dsq.session = none ∧ t.pnl.state = .normal ∧ t.slots = [] ∧ t.fromA = [] ∧
      t.fromB = [] ∧ (∀ p, t.port p = portStart) ∧ t.reads = false ∧
      (∀ l x, (t.fieldAt l x).clock = (s.fieldAt l x).clock.map fun c => { c with ms := c.ms + 1000 * n })) ∧
  (∀ (s : State) (a b : Bool), s.power = true →
    ∃ t : State, exec (.powerLoss a b) s = .next t ∧ t.power = false ∧ t.store = s.store ∧ t.tbu = s.tbu ∧
      (a = false → t.dsq.records = s.dsq.records) ∧ (b = false → t.dsq.lastRecord = s.dsq.lastRecord) ∧
      (∀ l x, l < 6 → 1 ≤ x → x ≤ 24 → (t.fieldAt l x).bellOn = false ∧ (t.fieldAt l x).trunk = none ∧
        (t.fieldAt l x).echo = none ∧ (t.fieldAt l x).zone = none ∧ (t.fieldAt l x).presses = (s.fieldAt l x).presses ∧
        (t.fieldAt l x).clock = (s.fieldAt l x).clock)) ∧
  (∀ (s : State) (failed : List Region), s.power = true → s.restartDue = true →
    ∃ t : State, exec (.controllerRestart failed) s = .next t ∧ t.restartDue = false ∧ t.setup = s.setup ∧
      t.tbu = s.tbu ∧ (t.timeSet.refEnable = false → t.discipline = .free) ∧
      t.store.staged = t.store.live ∧ t.store.holds = [] ∧ t.bds.queue = [] ∧ t.pgc.queue = [] ∧ t.dsq.session = none ∧
      t.slots = [] ∧ t.fromA = [] ∧ t.fromB = [] ∧ (∀ p, t.port p = portStart) ∧ t.reads = false ∧
      (∀ d, s.dsq.session = some d →
        ∃ r : DrillRecord, t.dsq.records = (r :: s.dsq.records).take 16 ∧ r.reason = .restart ∧ r.program = d.program))

/-! ### Field devices (sections 2.3, 2.7, 2.8 and R59) -/

/-- Each command of a field device at an address of its line: on a line with power clocks take time frames and their CLOCK-SETs,
bell units and speaker nodes take the output commands of their zone, every device answers a poll with its report, five LOOP-UPs
put it in echo and a LOOP-DOWN takes it out, and in echo it sends each proving frame back and acts on nothing else; and, with or
without line power (notes/assumptions/10.md, DEDUCED), bell units and speaker nodes fall silent when their own timers say so, a
clear station counts presses, and an amplifier fault is kept. (That one record per address holds what any kind of device has is
the model's choice, notes/assumptions/11.md; so is what a clock reports before its first frame, notes/assumptions/34.md.) -/
def Obligations.FieldDevicesAct : Prop :=
  ∀ (s : State) (l : Fin 6) (a : Nat) (d : FieldDev) (bs : List Byte), 1 ≤ a → a ≤ 24 → d = s.fieldAt l.val a →
    (s.power = true → (s.lineAt l.val).state.powered = true → d.echo = none →
      (∀ n day h m sec ms st al dr un ba, readFrame bs = some (.time n day h m sec ms st al dr un ba) →
        exec (.roomClockFrame l a bs) s =
          .next (s.setField l.val a
            { d with lastValid := s.now, loopUps := 0
                     clock := some { day := day, ms := (h * 3600 + m * 60 + sec) * 1000 + ms, at_ := s.now
                                     unsynchronised := un || ba, alarm := al } })) ∧
      (∀ day h m sec ms, readFrame bs = some (.clockSet a day h m sec ms) →
        ∃ c : ClockFace, exec (.roomClockFrame l a bs) s =
            .next (s.setField l.val a { d with lastValid := s.now, loopUps := 0, clock := some c }) ∧
          c.day = day ∧ c.ms = (h * 3600 + m * 60 + sec) * 1000 + ms ∧ c.at_ = s.now ∧
          ∀ b, d.clock = some b → c.unsynchronised = b.unsynchronised ∧ c.alarm = b.alarm) ∧
      (∀ b day h m sec ms, b ≠ a → readFrame bs = some (.clockSet b day h m sec ms) →
        exec (.roomClockFrame l a bs) s = .next (s.setField l.val a { d with lastValid := s.now, loopUps := 0 })) ∧
      (∀ z b hold u, readFrame bs = some (.output z b hold u) →
        exec (.bellUnitCommand l a bs) s =
          .next (s.setField l.val a
            { d with lastValid := s.now, loopUps := 0
                     bellOn := if d.zone = some z then b else d.bellOn
                     holdUntil := if d.zone = some z ∧ b = true then s.now + 8 * hold else d.holdUntil }) ∧
        exec (.speakerNodeCommand l a bs) s =
          .next (s.setField l.val a
            { d with lastValid := s.now, loopUps := 0, trunk := if d.zone = some z then u else d.trunk })) ∧
      (∀ (z : Option Nat) (serial : Nat), readFrame bs = some (.poll a z) → serial = Config.deviceSerial l.val a % 1000000 →
        exec (.bellUnitCommand l a bs) s =
          .next (s.setField l.val a
            { d with lastValid := s.now, loopUps := 0, zone := z, sent := (Frame.reply a serial (.bell d.bellOn)).bytes }) ∧
        exec (.speakerNodeCommand l a bs) s =
          .next (s.setField l.val a
            { d with lastValid := s.now, loopUps := 0, zone := z
                     sent := (Frame.reply a serial (.speaker d.trunk d.ampFault)).bytes }) ∧
        ∃ h m sec, h ≤ 23 ∧ m ≤ 59 ∧ sec ≤ 59 ∧
          exec (.roomClockFrame l a bs) s =
            .next (s.setField l.val a
              { d with lastValid := s.now, loopUps := 0, sent := (Frame.reply a serial (.clock h m sec)).bytes }) ∧
          ∀ c, d.clock = some c → h * 3600 + m * 60 + sec = (c.ms + (s.now - c.at_) / 8) / 1000 % 86400) ∧
      (readFrame bs = some (.loopUp a) →
        exec (.deviceLoopUp l a bs) s =
          .next (s.setField l.val a
            { d with lastValid := s.now, loopUps := if 5 ≤ d.loopUps + 1 then 0 else d.loopUps + 1
                     echo := if 5 ≤ d.loopUps + 1 then some s.now else none }))) ∧
    (∀ e, s.power = true → (s.lineAt l.val).state.powered = true → d.echo = some e →
      (∀ vs, readFrame bs = some (.proving a vs) →
        exec (.deviceLoopUp l a bs) s =
          .next (s.setField l.val a { d with echo := some s.now, sent := (Frame.proving a vs).bytes })) ∧
      (∀ f, readFrame bs = some f → f.checked = true → (∀ b, f ≠ .loopUp b) →
        ∀ c, c ∈ [Instr.roomClockFrame l a bs, .bellUnitCommand l a bs, .speakerNodeCommand l a bs] →
          exec c s = .next (s.setField l.val a { d with lastValid := s.now, loopUps := 0 }))) ∧
    (s.power = true → (s.lineAt l.val).state.powered = true → readFrame bs = some (.loopDown a) →
      exec (.deviceLoopDown l a bs) s = .next (s.setField l.val a { d with lastValid := s.now, loopUps := 0, echo := none })) ∧
    (d.bellOn = true → d.holdUntil ≤ s.now → exec (.holdForExpiry l a) s = .next (s.setField l.val a { d with bellOn := false })) ∧
    (d.lastValid + 24000 ≤ s.now → exec (.speakerSilenceMute l a) s = .next (s.setField l.val a { d with trunk := none })) ∧
    exec (.clearStationPress l a) s =
      .next (s.setField l.val a { d with presses := if d.presses = 255 then 0 else (d.presses + 1) % 256 }) ∧
    (∀ e, d.echo = some e → e + 480000 ≤ s.now →
      exec (.echoTimeout l a) s = .next (s.setField l.val a { d with echo := none })) ∧
    (∀ f, exec (.amplifierFaultChange l a f) s = .next (s.setField l.val a { d with ampFault := f }))
end

