-- ==== Sys2Proof/Laws/RestFrames.lean ====
section
/-! SUPPORT. What the zone and trunk machinery leaves as it is: `State.rest` is unchanged by every operation of
Machine/Zones.lean and Machine/Trunks.lean, one lemma for each. -/

set_option autoImplicit false
set_option linter.unusedTactic false
set_option linter.unreachableTactic false

namespace Sys2Proof.Machine

open Sys2Proof

/-! ### Record updates -/

theorem rest_foldl {α : Type} {f : State → α → State} (h : ∀ s a, (f s a).rest = s.rest) (xs : List α) (s : State) :
    (xs.foldl f s).rest = s.rest := by
  induction xs generalizing s with
  | nil => rfl
  | cons x xs ih => exact (ih (f s x)).trans (h s x)

@[simp] theorem rest_ztc (s : State) (z : Ztc) : ({ s with ztc := z } : State).rest = s.rest := rfl
@[simp] theorem rest_jobs (s : State) (q : List Job) : ({ s with bds := { s.bds with queue := q } } : State).rest = s.rest := rfl
@[simp] theorem rest_pages (s : State) (q : List Page) : ({ s with pgc := { s.pgc with queue := q } } : State).rest = s.rest := rfl
@[simp] theorem rest_session (s : State) (d : Option Session) :
    ({ s with dsq := { s.dsq with session := d } } : State).rest = s.rest := rfl
@[simp] theorem rest_lines (s : State) (t : Table LineSt) : ({ s with lines := t } : State).rest = s.rest := rfl
@[simp] theorem rest_setZone (s : State) (z : Nat) (r : ZoneRec) : (s.setZone z r).rest = s.rest := rfl
@[simp] theorem rest_setTrunk (s : State) (t : Nat) (u : Option TrunkUse) : (s.setTrunk t u).rest = s.rest := rfl
@[simp] theorem rest_setLine (s : State) (l : Nat) (x : LineSt) : (s.setLine l x).rest = s.rest := rfl
@[simp] theorem rest_push (s : State) (w : List Work) : (s.push w).rest = s.rest := rfl

@[simp] theorem rest_raiseAt (s : State) (p : Port) (k : NoticeKind) (d : Detail) : (s.raiseAt p k d).rest = s.rest := by
  cases p
  · by_cases c : s.ntu.a.quiet.contains k <;> simp only [State.raiseAt, NtuPort.take, PerPort.get, PerPort.set, State.rest, c] <;> rfl
  · by_cases c : s.ntu.b.quiet.contains k <;> simp only [State.raiseAt, NtuPort.take, PerPort.get, PerPort.set, State.rest, c] <;> rfl

@[simp] theorem rest_raise (s : State) (k : NoticeKind) (d : Detail) : (s.raise k d).rest = s.rest := by simp [State.raise]

/-! ### Machine/Zones.lean -/

@[simp] theorem rest_output (s : State) (z : Nat) (alarm : Bool) : (State.output s z alarm).rest = s.rest := by
  unfold State.output
  repeat' (first | split | simp | (refine (rest_foldl (fun s a => ?_) _ _).trans ?_) | dsimp only | rfl)

@[simp] theorem rest_setWanted (s : State) (z : Nat) (bell trunk : Option Nat) : (State.setWanted s z bell trunk).rest = s.rest := by
  unfold State.setWanted
  repeat' (first | split | simp | (refine (rest_foldl (fun s a => ?_) _ _).trans ?_) | dsimp only | rfl)

@[simp] theorem rest_updatePart (s : State) (n z : Nat) (f : Part → Part) : (State.updatePart s n z f).rest = s.rest := by
  unfold State.updatePart
  repeat' (first | split | simp | (refine (rest_foldl (fun s a => ?_) _ _).trans ?_) | dsimp only | rfl)

@[simp] theorem rest_leaveJobs (s : State) : (State.leaveJobs s).rest = s.rest := by
  unfold State.leaveJobs
  repeat' (first | split | simp | (refine (rest_foldl (fun s a => ?_) _ _).trans ?_) | dsimp only | rfl)

@[simp] theorem rest_countDrillDrop (s : State) : (State.countDrillDrop s).rest = s.rest := by
  unfold State.countDrillDrop
  repeat' (first | split | simp | (refine (rest_foldl (fun s a => ?_) _ _).trans ?_) | dsimp only | rfl)

@[simp] theorem rest_dropPart (s : State) (n z : Nat) (r : DropReason) : (State.dropPart s n z r).rest = s.rest := by
  unfold State.dropPart
  repeat' (first | split | simp | (refine (rest_foldl (fun s a => ?_) _ _).trans ?_) | dsimp only | rfl)

@[simp] theorem rest_donePart (s : State) (n z : Nat) : (State.donePart s n z).rest = s.rest := by
  unfold State.donePart
  repeat' (first | split | simp | (refine (rest_foldl (fun s a => ?_) _ _).trans ?_) | dsimp only | rfl)

@[simp] theorem rest_tellDeferred (s : State) (n z since : Nat) (r : DeferReason) : (State.tellDeferred s n z since r).rest = s.rest := by
  unfold State.tellDeferred
  repeat' (first | split | simp | (refine (rest_foldl (fun s a => ?_) _ _).trans ?_) | dsimp only | rfl)

@[simp] theorem rest_updatePage (s : State) (n : Nat) (f : Page → Page) : (State.updatePage s n f).rest = s.rest := by
  unfold State.updatePage
  repeat' (first | split | simp | (refine (rest_foldl (fun s a => ?_) _ _).trans ?_) | dsimp only | rfl)

@[simp] theorem rest_pageLoses (s : State) (n z : Nat) (r : LossReason) : (State.pageLoses s n z r).rest = s.rest := by
  unfold State.pageLoses
  repeat' (first | split | simp | (refine (rest_foldl (fun s a => ?_) _ _).trans ?_) | dsimp only | rfl)

@[simp] theorem rest_pageSuspended (s : State) (n z : Nat) : (State.pageSuspended s n z).rest = s.rest := by
  unfold State.pageSuspended
  repeat' (first | split | simp | (refine (rest_foldl (fun s a => ?_) _ _).trans ?_) | dsimp only | rfl)

@[simp] theorem rest_pageReturned (s : State) (n z : Nat) : (State.pageReturned s n z).rest = s.rest := by
  unfold State.pageReturned
  repeat' (first | split | simp | (refine (rest_foldl (fun s a => ?_) _ _).trans ?_) | dsimp only | rfl)

@[simp] theorem rest_waitersLose (s : State) (z : Nat) (r : LossReason) : (State.waitersLose s z r).rest = s.rest := by
  unfold State.waitersLose
  repeat' (first | split | simp | (refine (rest_foldl (fun s a => ?_) _ _).trans ?_) | dsimp only | rfl)

@[simp] theorem rest_refreshReasons (s : State) (z : Nat) : (State.refreshReasons s z).rest = s.rest := by
  unfold State.refreshReasons
  repeat' (first | split | simp | (refine (rest_foldl (fun s a => ?_) _ _).trans ?_) | dsimp only | rfl)

@[simp] theorem rest_joinWaits (s : State) (w : Wait) (reason : DeferReason) : (State.joinWaits s w reason).rest = s.rest := by
  unfold State.joinWaits
  repeat' (first | split | simp | (refine (rest_foldl (fun s a => ?_) _ _).trans ?_) | dsimp only | rfl)

@[simp] theorem rest_leaveWaits (s : State) (n z : Nat) : (State.leaveWaits s n z).rest = s.rest := by
  unfold State.leaveWaits
  repeat' (first | split | simp | (refine (rest_foldl (fun s a => ?_) _ _).trans ?_) | dsimp only | rfl)

@[simp] theorem rest_leaveGroups (s : State) (n z : Nat) : (State.leaveGroups s n z).rest = s.rest := by
  unfold State.leaveGroups
  repeat' (first | split | simp | (refine (rest_foldl (fun s a => ?_) _ _).trans ?_) | dsimp only | rfl)

@[simp] theorem rest_clearWaits (s : State) (z : Nat) (r : DropReason) : (State.clearWaits s z r).rest = s.rest := by
  unfold State.clearWaits
  repeat' (first | split | simp | (refine (rest_foldl (fun s a => ?_) _ _).trans ?_) | dsimp only | rfl)

@[simp] theorem rest_tellDisplaced (s : State) (w : Taker) (z : Nat) : (State.tellDisplaced s w z).rest = s.rest := by
  unfold State.tellDisplaced
  repeat' (first | split | simp | (refine (rest_foldl (fun s a => ?_) _ _).trans ?_) | dsimp only | rfl)

@[simp] theorem rest_tellSuspended (s : State) (w : Taker) (z : Nat) : (State.tellSuspended s w z).rest = s.rest := by
  unfold State.tellSuspended
  repeat' (first | split | simp | (refine (rest_foldl (fun s a => ?_) _ _).trans ?_) | dsimp only | rfl)

@[simp] theorem rest_judgeWaits (s : State) (w : Taker) (z : Nat) : (State.judgeWaits s w z).rest = s.rest := by
  unfold State.judgeWaits
  repeat' (first | split | simp | (refine (rest_foldl (fun s a => ?_) _ _).trans ?_) | dsimp only | rfl)

@[simp] theorem rest_seat (s : State) (w : Taker) (z : Nat) : (State.seat s w z).rest = s.rest := by
  unfold State.seat
  repeat' (first | split | simp | (refine (rest_foldl (fun s a => ?_) _ _).trans ?_) | dsimp only | rfl)

@[simp] theorem rest_later (s : State) (w : Work) : (State.later s w).rest = s.rest := by
  unfold State.later
  repeat' (first | split | simp | (refine (rest_foldl (fun s a => ?_) _ _).trans ?_) | dsimp only | rfl)

@[simp] theorem rest_seekDrillTrunk (s : State) : (State.seekDrillTrunk s).rest = s.rest := by
  unfold State.seekDrillTrunk
  split <;> simp

@[simp] theorem rest_takeZone (s : State) (w : Taker) (z : Nat) : (State.takeZone s w z).rest = s.rest := by
  unfold State.takeZone
  repeat' (first | split | simp | (refine (rest_foldl (fun s a => ?_) _ _).trans ?_) | dsimp only | rfl)

@[simp] theorem rest_claimAlarm (s : State) (zs : List Nat) : (State.claimAlarm s zs).rest = s.rest := by
  unfold State.claimAlarm
  repeat' (first | split | simp | (refine (rest_foldl (fun s a => ?_) _ _).trans ?_) | dsimp only | rfl)

@[simp] theorem rest_claimDrill (s : State) (zs : List Nat) : (State.claimDrill s zs).rest = s.rest := by
  unfold State.claimDrill
  repeat' (first | split | simp | (refine (rest_foldl (fun s a => ?_) _ _).trans ?_) | dsimp only | rfl)

@[simp] theorem rest_bellTakes (s : State) (n z : Nat) (tone : Option (Nat × Nat)) : (State.bellTakes s n z tone).rest = s.rest := by
  unfold State.bellTakes
  repeat' (first | split | simp | (refine (rest_foldl (fun s a => ?_) _ _).trans ?_) | dsimp only | rfl)

@[simp] theorem rest_returnZone (s : State) (z : Nat) : (State.returnZone s z).rest = s.rest := by
  unfold State.returnZone
  repeat' (first | split | simp | (refine (rest_foldl (fun s a => ?_) _ _).trans ?_) | dsimp only | rfl)

@[simp] theorem rest_holdersEnd (s : State) (zs : List Nat) : (State.holdersEnd s zs).rest = s.rest := by
  unfold State.holdersEnd
  repeat' (first | split | simp | (refine (rest_foldl (fun s a => ?_) _ _).trans ?_) | dsimp only | rfl)

@[simp] theorem rest_releaseZones (s : State) (mine : Holder → Bool) (mineUnder : Suspended → Bool) (zs : List Nat) : (State.releaseZones s mine mineUnder zs).rest = s.rest := by
  unfold State.releaseZones
  repeat' (first | split | simp | (refine (rest_foldl (fun s a => ?_) _ _).trans ?_) | dsimp only | rfl)

@[simp] theorem rest_loseZone (s : State) (z : Nat) : (State.loseZone s z).rest = s.rest := by
  unfold State.loseZone
  repeat' (first | split | simp | (refine (rest_foldl (fun s a => ?_) _ _).trans ?_) | dsimp only | rfl)

@[simp] theorem rest_gainZone (s : State) (z : Nat) : (State.gainZone s z).rest = s.rest := by
  unfold State.gainZone
  repeat' (first | split | simp | (refine (rest_foldl (fun s a => ?_) _ _).trans ?_) | dsimp only | rfl)

@[simp] theorem rest_lineDown (s : State) (l : Nat) : (State.lineDown s l).rest = s.rest := by
  unfold State.lineDown
  repeat' (first | split | simp | (refine (rest_foldl (fun s a => ?_) _ _).trans ?_) | dsimp only | rfl)

@[simp] theorem rest_lineUp (s : State) (l : Nat) : (State.lineUp s l).rest = s.rest := by
  unfold State.lineUp
  repeat' (first | split | simp | (refine (rest_foldl (fun s a => ?_) _ _).trans ?_) | dsimp only | rfl)

/-! ### Machine/Trunks.lean -/

@[simp] theorem rest_grant (s : State) (t : Nat) (program : TrunkProgram) (tone : Option Timeline) (toneSince toneUntil : Option Nat) : (State.grant s t program tone toneSince toneUntil).rest = s.rest := by
  unfold State.grant
  repeat' (first | split | simp | (refine (rest_foldl (fun s a => ?_) _ _).trans ?_) | dsimp only | rfl)

@[simp] theorem rest_freeTrunks (s : State) (ts : List Nat) : (State.freeTrunks s ts).rest = s.rest :=
  rest_foldl (fun s t => rest_setTrunk s t _) _ _

@[simp] theorem rest_releaseTrunks (s : State) : (State.releaseTrunks s).rest = s.rest := by
  unfold State.releaseTrunks
  repeat' (first | split | simp | (refine (rest_foldl (fun s a => ?_) _ _).trans ?_) | dsimp only | rfl)

@[simp] theorem rest_releaseOwn (s : State) (kept : List Nat) : (State.releaseOwn s kept).rest = s.rest := rest_freeTrunks _ _

@[simp] theorem rest_releaseNow (s : State) (kept : List Nat) : (State.releaseNow s kept).rest = s.rest := by
  unfold State.releaseNow
  split <;> simp

@[simp] theorem rest_forceTakes (s : State) (n z : Nat) (tone : Option (Nat × Nat)) : (State.forceTakes s n z tone).rest = s.rest := by
  unfold State.forceTakes
  repeat' (first | split | simp | (refine (rest_foldl (fun s a => ?_) _ _).trans ?_) | dsimp only | rfl)

@[simp] theorem rest_sortPage (s : State) (n : Nat) : (State.sortPage s n).rest = s.rest := by
  unfold State.sortPage
  repeat' (first | split | simp | (refine (rest_foldl (fun s a => ?_) _ _).trans ?_) | dsimp only | rfl)

@[simp] theorem rest_startPage (s : State) (n t : Nat) : (State.startPage s n t).rest = s.rest := by
  unfold State.startPage
  repeat' (first | split | simp | (refine (rest_foldl (fun s a => ?_) _ _).trans ?_) | dsimp only | rfl)

@[simp] theorem rest_enterLive (s : State) (n t : Nat) : (State.enterLive s n t).rest = s.rest := by
  unfold State.enterLive
  repeat' (first | split | simp | (refine (rest_foldl (fun s a => ?_) _ _).trans ?_) | dsimp only | rfl)

@[simp] theorem rest_enterChime (s : State) (n t : Nat) (pretone : Option Nat) : (State.enterChime s n t pretone).rest = s.rest := by
  unfold State.enterChime
  repeat' (first | split | simp | (refine (rest_foldl (fun s a => ?_) _ _).trans ?_) | dsimp only | rfl)

@[simp] theorem rest_claimForPage (n prio t : Nat) (s : State) (z : Nat) : (State.claimForPage n prio t s z).rest = s.rest := by
  unfold State.claimForPage
  repeat' (first | split | simp | (refine (rest_foldl (fun s a => ?_) _ _).trans ?_) | dsimp only | rfl)

@[simp] theorem rest_claimPage (s : State) (n : Nat) : (State.claimPage s n).rest = s.rest := by
  unfold State.claimPage
  repeat' (first | split | simp | (refine (rest_foldl (fun s a => ?_) _ _).trans ?_) | dsimp only | rfl)

@[simp] theorem rest_offerZone (s : State) (z : Nat) : (State.offerZone s z).rest = s.rest := by
  unfold State.offerZone
  repeat' (first | split | simp | (refine (rest_foldl (fun s a => ?_) _ _).trans ?_) | dsimp only | rfl)

@[simp] theorem rest_joinGroup (s : State) (w : Wait) : (State.joinGroup s w).rest = s.rest := by
  unfold State.joinGroup
  repeat' (first | split | simp | (refine (rest_foldl (fun s a => ?_) _ _).trans ?_) | dsimp only | rfl)

@[simp] theorem rest_serveZone (pausedPage : Option Nat) (s : State) (z : Nat) : (State.serveZone pausedPage s z).1.rest = s.rest := by
  unfold State.serveZone
  repeat' (first | split | simp | (refine (rest_foldl (fun s a => ?_) _ _).trans ?_) | dsimp only | rfl)

@[simp] theorem rest_serveZones (pausedPage : Option Nat) (zs : List Nat) (s : State) :
    (State.serveZones pausedPage zs s).1.rest = s.rest := by
  induction zs generalizing s with
  | nil => rfl
  | cons z zs ih => simp [State.serveZones, ih]

@[simp] theorem rest_numberGiven (s : State) (job num : Nat) : (State.numberGiven s job num).rest = s.rest := rfl

@[simp] theorem rest_waitForTrunk (s : State) (g : StartGroup) (ws : List Wait) : (State.waitForTrunk s g ws).rest = s.rest := by
  unfold State.waitForTrunk
  repeat' (first | split | simp | (refine (rest_foldl (fun s a => ?_) _ _).trans ?_) | dsimp only | rfl)

@[simp] theorem rest_leaveUngranted (s : State) (g : StartGroup) : (State.leaveUngranted s g).rest = s.rest := by
  unfold State.leaveUngranted
  repeat' (first | split | simp | (refine (rest_foldl (fun s a => ?_) _ _).trans ?_) | dsimp only | rfl)

@[simp] theorem rest_turnDown (s : State) (gs : List StartGroup) : (State.turnDown s gs).rest = s.rest := by
  unfold State.turnDown
  rw [rest_push]
  exact rest_foldl (fun s g => rest_leaveUngranted s g) _ _

@[simp] theorem rest_ungranted (s : State) : (State.ungranted s).rest = s.rest := rest_turnDown _ _

@[simp] theorem rest_served (s : State) (zs : List Nat) (freed : Bool) (gs : List StartGroup) : (State.served s zs freed gs).rest = s.rest := by
  unfold State.served
  dsimp only
  split
  · simp
  · split <;> simp

@[simp] theorem rest_serve (s : State) (zs : List Nat) (pausedPage : Option Nat) (freed : Bool) : (State.serve s zs pausedPage freed).rest = s.rest := by
  simp [State.serve]

@[simp] theorem rest_deferPart (s : State) (w : Wait) (r : DeferReason) (tone : Option (Nat × Nat)) : (State.deferPart s w r tone).rest = s.rest := by
  unfold State.deferPart
  repeat' (first | split | simp | (refine (rest_foldl (fun s a => ?_) _ _).trans ?_) | dsimp only | rfl)

@[simp] theorem rest_claimMember (g : StartGroup) (num t : Nat) (s : State) (w : Wait) : (State.claimMember g num t s w).rest = s.rest := by
  unfold State.claimMember
  repeat' (first | split | simp | (refine (rest_foldl (fun s a => ?_) _ _).trans ?_) | dsimp only | rfl)

@[simp] theorem rest_grantTone (s : State) (t job num : Nat) : (State.grantTone s t job num).rest = s.rest := rest_grant _ _ _ _ _ _

@[simp] theorem rest_grantGroup (s : State) (g : StartGroup) (t : Nat) : (State.grantGroup s g t).rest = s.rest := by
  unfold State.grantGroup
  repeat' (first | split | simp | (refine (rest_foldl (fun s a => ?_) _ _).trans ?_) | dsimp only | rfl)

@[simp] theorem rest_raiseStage (s : State) : (State.raiseStage s).rest = s.rest := by
  unfold State.raiseStage
  repeat' (first | split | simp | (refine (rest_foldl (fun s a => ?_) _ _).trans ?_) | dsimp only | rfl)

@[simp] theorem rest_grantDrill (s : State) (t : Nat) : (State.grantDrill s t).rest = s.rest := by
  unfold State.grantDrill
  repeat' (first | split | simp | (refine (rest_foldl (fun s a => ?_) _ _).trans ?_) | dsimp only | rfl)

@[simp] theorem rest_releaseDrillTrunk (s : State) : (State.releaseDrillTrunk s).rest = s.rest := by
  unfold State.releaseDrillTrunk
  repeat' (first | split | simp | (refine (rest_foldl (fun s a => ?_) _ _).trans ?_) | dsimp only | rfl)

@[simp] theorem rest_stripTone (s : State) (t job : Nat) : (s.stripTone t job).1.rest = s.rest := by
  unfold State.stripTone
  simp only [rest_setTrunk]
  refine (rest_foldl (fun s z => rest_returnZone s z) _ _).trans ?_
  exact rest_foldl (fun s z => rest_dropPart s job z _) _ _

@[simp] theorem rest_stripPage (s : State) (p : Page) (t : Nat) : (s.stripPage p t).1.rest = s.rest := by
  unfold State.stripPage
  simp only [rest_setTrunk]
  refine (rest_foldl (fun s z => rest_returnZone s z) _ _).trans ?_
  refine (rest_foldl (fun s z => rest_setZone s z _) _ _).trans ?_
  exact rest_foldl (fun s z => rest_pageLoses s p.num z _) _ _

theorem rest_preempt {s s' : State} {t : Nat} {zs : List Nat} (h : s.preempt = some (t, s', zs)) : s'.rest = s.rest := by
  unfold State.preempt at h
  split at h
  · split at h
    · cases h
      exact rest_stripTone s _ _
    · cases h
  · split at h
    · split at h
      · cases h
        exact rest_stripPage s _ _
      · cases h
    · cases h

@[simp] theorem rest_considerPages (free : Option Nat) (ps : List Page) (s : State) :
    (State.considerPages free ps s).1.rest = s.rest := by
  induction ps generalizing s with
  | nil => rfl
  | cons p ps ih =>
    unfold State.considerPages
    dsimp only
    split
    · split
      · simp
      · split
        · rename_i h
          simp [rest_preempt h]
        · simp [ih]
    · simp [ih]

@[simp] theorem rest_considerRoutine (whole : Bool) (s : State) (t : Nat) : (s.considerRoutine whole t).1.rest = s.rest := by
  unfold State.considerRoutine
  split <;> simp

@[simp] theorem rest_considerBells (whole : Bool) (s : State) (t : Nat) : (s.considerBells whole t).1.rest = s.rest := by
  unfold State.considerBells
  repeat' (first | split | simp)

@[simp] theorem rest_passOnce (whole : Bool) (s : State) : (s.passOnce whole).1.rest = s.rest := by
  unfold State.passOnce
  split
  · split
    · simp
    · dsimp only
      split <;> simp
  · split
    · split
      · rename_i h
        simp [rest_preempt h]
      · simp
    · simp

@[simp] theorem rest_markSignal (s : State) : (State.markSignal s).rest = s.rest := by
  unfold State.markSignal
  repeat' (first | split | simp | (refine (rest_foldl (fun s a => ?_) _ _).trans ?_) | dsimp only | rfl)

@[simp] theorem rest_pass (s : State) : s.pass.rest = s.rest := by
  have h := rest_passOnce true s
  unfold State.pass
  split <;> simp_all

@[simp] theorem rest_grants (s : State) : s.grants.rest = s.rest := by
  have h := rest_passOnce false s
  unfold State.grants
  split <;> simp_all

@[simp] theorem rest_raisePageEnd (s : State) (p : Page) (r : PageReason) : (State.raisePageEnd s p r).rest = s.rest := by
  unfold State.raisePageEnd
  repeat' (first | split | simp | (refine (rest_foldl (fun s a => ?_) _ _).trans ?_) | dsimp only | rfl)

@[simp] theorem rest_tellEnded (s : State) (p : Page) : (State.tellEnded s p).rest = s.rest := by
  unfold State.tellEnded
  repeat' (first | split | simp | (refine (rest_foldl (fun s a => ?_) _ _).trans ?_) | dsimp only | rfl)

@[simp] theorem rest_finalizePages (s : State) : (State.finalizePages s).rest = s.rest := by
  unfold State.finalizePages
  repeat' (first | split | simp | (refine (rest_foldl (fun s a => ?_) _ _).trans ?_) | dsimp only | rfl)

@[simp] theorem rest_doWork (s : State) (w : Work) : (s.doWork w).rest = s.rest := by
  unfold State.doWork
  split
  all_goals first | (simp; done) | exact rest_foldl rest_offerZone _ _

@[simp] theorem rest_settleFor (k : Nat) (s : State) : (settleFor k s).rest = s.rest := by
  induction k generalizing s with
  | zero => simp [settleFor]
  | succ k ih =>
    unfold settleFor
    split
    · simp
    · simp [ih]

@[simp] theorem rest_settle (s : State) : s.settle.rest = s.rest := rest_settleFor 4096 s

@[simp] theorem rest_meetLimit (tone : Option (Nat × Nat)) (s : State) (w : Wait) : (State.meetLimit tone s w).rest = s.rest := by
  unfold State.meetLimit
  repeat' (first | split | simp | (refine (rest_foldl (fun s a => ?_) _ _).trans ?_) | dsimp only | rfl)

@[simp] theorem rest_expireWaits (s : State) (n : Nat) : (State.expireWaits s n).rest = s.rest := by
  unfold State.expireWaits
  repeat' (first | split | simp | (refine (rest_foldl (fun s a => ?_) _ _).trans ?_) | dsimp only | rfl)

end Sys2Proof.Machine
end

