-- ==== Sys2Proof/Laws/BaseFrames.lean ====
section
/-! SUPPORT. What the blocks over the zone machinery leave as it is: `State.base` is unchanged by every operation of the
dispatcher, the pages, the lines, the tests, the drill and the panel, one lemma for each. -/

set_option autoImplicit false
set_option linter.unusedTactic false
set_option linter.unreachableTactic false

namespace Sys2Proof.Machine

open Sys2Proof

/-! ### Record updates -/

theorem base_of_rest {s t : State} (h : s.rest = t.rest) : s.base = t.base := by unfold State.base; rw [h]

theorem base_foldl {α : Type} {f : State → α → State} (h : ∀ s a, (f s a).base = s.base) (xs : List α) (s : State) :
    (xs.foldl f s).base = s.base := by
  induction xs generalizing s with
  | nil => rfl
  | cons x xs ih => exact (ih (f s x)).trans (h s x)

@[simp] theorem base_ztc (s : State) (z : Ztc) : ({ s with ztc := z } : State).base = s.base := rfl
@[simp] theorem base_bds (s : State) (b : Bds) : ({ s with bds := b } : State).base = s.base := rfl
@[simp] theorem base_pgc (s : State) (g : Pgc) : ({ s with pgc := g } : State).base = s.base := rfl
@[simp] theorem base_pnl (s : State) (x : Pnl) : ({ s with pnl := x } : State).base = s.base := rfl
@[simp] theorem base_dsq (s : State) (d : Dsq) : ({ s with dsq := d } : State).base = s.base := rfl
@[simp] theorem base_lines (s : State) (t : Table LineSt) : ({ s with lines := t } : State).base = s.base := rfl
@[simp] theorem base_setZone (s : State) (z : Nat) (r : ZoneRec) : (s.setZone z r).base = s.base := rfl
@[simp] theorem base_setTrunk (s : State) (t : Nat) (u : Option TrunkUse) : (s.setTrunk t u).base = s.base := rfl
@[simp] theorem base_setLine (s : State) (l : Nat) (x : LineSt) : (s.setLine l x).base = s.base := rfl
@[simp] theorem base_push (s : State) (w : List Work) : (s.push w).base = s.base := rfl
@[simp] theorem base_raiseAt (s : State) (p : Port) (k : NoticeKind) (d : Detail) : (s.raiseAt p k d).base = s.base :=
  base_of_rest (rest_raiseAt s p k d)
@[simp] theorem base_raise (s : State) (k : NoticeKind) (d : Detail) : (s.raise k d).base = s.base :=
  base_of_rest (rest_raise s k d)
@[simp] theorem base_raisePanel (s : State) (ev : PanelEvent) : (s.raisePanel ev).base = s.base := base_raise s _ _

/-! ### The zone and trunk machinery -/

@[simp] theorem base_output (s : State) (z : Nat) (alarm : Bool) :
    (State.output s z alarm).base = s.base :=
  base_of_rest (rest_output s z alarm)
@[simp] theorem base_setWanted (s : State) (z : Nat) (bell trunk : Option Nat) :
    (State.setWanted s z bell trunk).base = s.base :=
  base_of_rest (rest_setWanted s z bell trunk)
@[simp] theorem base_updatePart (s : State) (n z : Nat) (f : Part → Part) :
    (State.updatePart s n z f).base = s.base :=
  base_of_rest (rest_updatePart s n z f)
@[simp] theorem base_leaveJobs (s : State) :
    (State.leaveJobs s).base = s.base :=
  base_of_rest (rest_leaveJobs s)
@[simp] theorem base_countDrillDrop (s : State) :
    (State.countDrillDrop s).base = s.base :=
  base_of_rest (rest_countDrillDrop s)
@[simp] theorem base_dropPart (s : State) (n z : Nat) (r : DropReason) :
    (State.dropPart s n z r).base = s.base :=
  base_of_rest (rest_dropPart s n z r)
@[simp] theorem base_donePart (s : State) (n z : Nat) :
    (State.donePart s n z).base = s.base :=
  base_of_rest (rest_donePart s n z)
@[simp] theorem base_tellDeferred (s : State) (n z since : Nat) (r : DeferReason) :
    (State.tellDeferred s n z since r).base = s.base :=
  base_of_rest (rest_tellDeferred s n z since r)
@[simp] theorem base_updatePage (s : State) (n : Nat) (f : Page → Page) :
    (State.updatePage s n f).base = s.base :=
  base_of_rest (rest_updatePage s n f)
@[simp] theorem base_pageLoses (s : State) (n z : Nat) (r : LossReason) :
    (State.pageLoses s n z r).base = s.base :=
  base_of_rest (rest_pageLoses s n z r)
@[simp] theorem base_pageSuspended (s : State) (n z : Nat) :
    (State.pageSuspended s n z).base = s.base :=
  base_of_rest (rest_pageSuspended s n z)
@[simp] theorem base_pageReturned (s : State) (n z : Nat) :
    (State.pageReturned s n z).base = s.base :=
  base_of_rest (rest_pageReturned s n z)
@[simp] theorem base_waitersLose (s : State) (z : Nat) (r : LossReason) :
    (State.waitersLose s z r).base = s.base :=
  base_of_rest (rest_waitersLose s z r)
@[simp] theorem base_refreshReasons (s : State) (z : Nat) :
    (State.refreshReasons s z).base = s.base :=
  base_of_rest (rest_refreshReasons s z)
@[simp] theorem base_joinWaits (s : State) (w : Wait) (reason : DeferReason) :
    (State.joinWaits s w reason).base = s.base :=
  base_of_rest (rest_joinWaits s w reason)
@[simp] theorem base_leaveWaits (s : State) (n z : Nat) :
    (State.leaveWaits s n z).base = s.base :=
  base_of_rest (rest_leaveWaits s n z)
@[simp] theorem base_leaveGroups (s : State) (n z : Nat) :
    (State.leaveGroups s n z).base = s.base :=
  base_of_rest (rest_leaveGroups s n z)
@[simp] theorem base_clearWaits (s : State) (z : Nat) (r : DropReason) :
    (State.clearWaits s z r).base = s.base :=
  base_of_rest (rest_clearWaits s z r)
@[simp] theorem base_tellDisplaced (s : State) (w : Taker) (z : Nat) :
    (State.tellDisplaced s w z).base = s.base :=
  base_of_rest (rest_tellDisplaced s w z)
@[simp] theorem base_tellSuspended (s : State) (w : Taker) (z : Nat) :
    (State.tellSuspended s w z).base = s.base :=
  base_of_rest (rest_tellSuspended s w z)
@[simp] theorem base_judgeWaits (s : State) (w : Taker) (z : Nat) :
    (State.judgeWaits s w z).base = s.base :=
  base_of_rest (rest_judgeWaits s w z)
@[simp] theorem base_seat (s : State) (w : Taker) (z : Nat) :
    (State.seat s w z).base = s.base :=
  base_of_rest (rest_seat s w z)
@[simp] theorem base_later (s : State) (w : Work) :
    (State.later s w).base = s.base :=
  base_of_rest (rest_later s w)
@[simp] theorem base_releaseNow (s : State) (kept : List Nat) :
    (State.releaseNow s kept).base = s.base :=
  base_of_rest (rest_releaseNow s kept)
@[simp] theorem base_seekDrillTrunk (s : State) :
    (State.seekDrillTrunk s).base = s.base :=
  base_of_rest (rest_seekDrillTrunk s)
@[simp] theorem base_takeZone (s : State) (w : Taker) (z : Nat) :
    (State.takeZone s w z).base = s.base :=
  base_of_rest (rest_takeZone s w z)
@[simp] theorem base_claimAlarm (s : State) (zs : List Nat) :
    (State.claimAlarm s zs).base = s.base :=
  base_of_rest (rest_claimAlarm s zs)
@[simp] theorem base_claimDrill (s : State) (zs : List Nat) :
    (State.claimDrill s zs).base = s.base :=
  base_of_rest (rest_claimDrill s zs)
@[simp] theorem base_bellTakes (s : State) (n z : Nat) (tone : Option (Nat × Nat)) :
    (State.bellTakes s n z tone).base = s.base :=
  base_of_rest (rest_bellTakes s n z tone)
@[simp] theorem base_forceTakes (s : State) (n z : Nat) (tone : Option (Nat × Nat)) :
    (State.forceTakes s n z tone).base = s.base :=
  base_of_rest (rest_forceTakes s n z tone)
@[simp] theorem base_returnZone (s : State) (z : Nat) :
    (State.returnZone s z).base = s.base :=
  base_of_rest (rest_returnZone s z)
@[simp] theorem base_holdersEnd (s : State) (zs : List Nat) :
    (State.holdersEnd s zs).base = s.base :=
  base_of_rest (rest_holdersEnd s zs)
@[simp] theorem base_releaseZones (s : State) (mine : Holder → Bool) (mineUnder : Suspended → Bool) (zs : List Nat) :
    (State.releaseZones s mine mineUnder zs).base = s.base :=
  base_of_rest (rest_releaseZones s mine mineUnder zs)
@[simp] theorem base_loseZone (s : State) (z : Nat) :
    (State.loseZone s z).base = s.base :=
  base_of_rest (rest_loseZone s z)
@[simp] theorem base_gainZone (s : State) (z : Nat) :
    (State.gainZone s z).base = s.base :=
  base_of_rest (rest_gainZone s z)
@[simp] theorem base_lineDown (s : State) (l : Nat) :
    (State.lineDown s l).base = s.base :=
  base_of_rest (rest_lineDown s l)
@[simp] theorem base_lineUp (s : State) (l : Nat) :
    (State.lineUp s l).base = s.base :=
  base_of_rest (rest_lineUp s l)
@[simp] theorem base_grant (s : State) (t : Nat) (program : TrunkProgram) (tone : Option Timeline) (toneSince toneUntil : Option Nat) :
    (State.grant s t program tone toneSince toneUntil).base = s.base :=
  base_of_rest (rest_grant s t program tone toneSince toneUntil)
@[simp] theorem base_releaseTrunks (s : State) :
    (State.releaseTrunks s).base = s.base :=
  base_of_rest (rest_releaseTrunks s)
@[simp] theorem base_sortPage (s : State) (n : Nat) :
    (State.sortPage s n).base = s.base :=
  base_of_rest (rest_sortPage s n)
@[simp] theorem base_startPage (s : State) (n t : Nat) :
    (State.startPage s n t).base = s.base :=
  base_of_rest (rest_startPage s n t)
@[simp] theorem base_enterLive (s : State) (n t : Nat) :
    (State.enterLive s n t).base = s.base :=
  base_of_rest (rest_enterLive s n t)
@[simp] theorem base_enterChime (s : State) (n t : Nat) (pretone : Option Nat) :
    (State.enterChime s n t pretone).base = s.base :=
  base_of_rest (rest_enterChime s n t pretone)
@[simp] theorem base_claimForPage (n prio t : Nat) (s : State) (z : Nat) :
    (State.claimForPage n prio t s z).base = s.base :=
  base_of_rest (rest_claimForPage n prio t s z)
@[simp] theorem base_claimPage (s : State) (n : Nat) :
    (State.claimPage s n).base = s.base :=
  base_of_rest (rest_claimPage s n)
@[simp] theorem base_offerZone (s : State) (z : Nat) :
    (State.offerZone s z).base = s.base :=
  base_of_rest (rest_offerZone s z)
@[simp] theorem base_joinGroup (s : State) (w : Wait) :
    (State.joinGroup s w).base = s.base :=
  base_of_rest (rest_joinGroup s w)
@[simp] theorem base_serve (s : State) (zs : List Nat) (pausedPage : Option Nat) (freed : Bool) :
    (State.serve s zs pausedPage freed).base = s.base :=
  base_of_rest (rest_serve s zs pausedPage freed)
@[simp] theorem base_leaveUngranted (s : State) (g : StartGroup) :
    (State.leaveUngranted s g).base = s.base :=
  base_of_rest (rest_leaveUngranted s g)
@[simp] theorem base_ungranted (s : State) :
    (State.ungranted s).base = s.base :=
  base_of_rest (rest_ungranted s)
@[simp] theorem base_deferPart (s : State) (w : Wait) (r : DeferReason) (tone : Option (Nat × Nat)) :
    (State.deferPart s w r tone).base = s.base :=
  base_of_rest (rest_deferPart s w r tone)
@[simp] theorem base_claimMember (g : StartGroup) (num t : Nat) (s : State) (w : Wait) :
    (State.claimMember g num t s w).base = s.base :=
  base_of_rest (rest_claimMember g num t s w)
@[simp] theorem base_grantGroup (s : State) (g : StartGroup) (t : Nat) :
    (State.grantGroup s g t).base = s.base :=
  base_of_rest (rest_grantGroup s g t)
@[simp] theorem base_raiseStage (s : State) :
    (State.raiseStage s).base = s.base :=
  base_of_rest (rest_raiseStage s)
@[simp] theorem base_grantDrill (s : State) (t : Nat) :
    (State.grantDrill s t).base = s.base :=
  base_of_rest (rest_grantDrill s t)
@[simp] theorem base_releaseDrillTrunk (s : State) :
    (State.releaseDrillTrunk s).base = s.base :=
  base_of_rest (rest_releaseDrillTrunk s)
@[simp] theorem base_markSignal (s : State) :
    (State.markSignal s).base = s.base :=
  base_of_rest (rest_markSignal s)
@[simp] theorem base_pass (s : State) :
    (State.pass s).base = s.base :=
  base_of_rest (rest_pass s)
@[simp] theorem base_grants (s : State) :
    (State.grants s).base = s.base :=
  base_of_rest (rest_grants s)
@[simp] theorem base_raisePageEnd (s : State) (p : Page) (r : PageReason) :
    (State.raisePageEnd s p r).base = s.base :=
  base_of_rest (rest_raisePageEnd s p r)
@[simp] theorem base_tellEnded (s : State) (p : Page) :
    (State.tellEnded s p).base = s.base :=
  base_of_rest (rest_tellEnded s p)
@[simp] theorem base_finalizePages (s : State) :
    (State.finalizePages s).base = s.base :=
  base_of_rest (rest_finalizePages s)
@[simp] theorem base_settle (s : State) :
    (State.settle s).base = s.base :=
  base_of_rest (rest_settle s)
@[simp] theorem base_meetLimit (tone : Option (Nat × Nat)) (s : State) (w : Wait) :
    (State.meetLimit tone s w).base = s.base :=
  base_of_rest (rest_meetLimit tone s w)
@[simp] theorem base_expireWaits (s : State) (n : Nat) :
    (State.expireWaits s n).base = s.base :=
  base_of_rest (rest_expireWaits s n)

/-! ### Machine/Bells.lean -/

@[simp] theorem base_claimPart (n : Nat) (s : State) (p : Part) : (State.claimPart n s p).base = s.base := by
  unfold State.claimPart
  repeat' (first | split | simp | (refine (base_foldl (fun s a => ?_) _ _).trans ?_) | dsimp only | rfl)

@[simp] theorem base_claimJob (s : State) (j : Job) : (State.claimJob s j).base = s.base := by
  unfold State.claimJob
  repeat' (first | split | simp | (refine (base_foldl (fun s a => ?_) _ _).trans ?_) | dsimp only | rfl)

@[simp] theorem base_enterJob (s : State) (x : JobSource) : (State.enterJob s x).base = s.base := by
  unfold State.enterJob
  repeat' (first | split | simp | (refine (base_foldl (fun s a => ?_) _ _).trans ?_) | dsimp only | rfl)

@[simp] theorem base_fire (now : Stamp) (s : State) (e : ListEntry) : (State.fire now s e).base = s.base := by
  unfold State.fire
  repeat' (first | split | simp | (refine (base_foldl (fun s a => ?_) _ _).trans ?_) | dsimp only | rfl)

@[simp] theorem base_formList (s : State) : (State.formList s).base = s.base := by
  unfold State.formList
  repeat' (first | split | simp | (refine (base_foldl (fun s a => ?_) _ _).trans ?_) | dsimp only | rfl)

@[simp] theorem base_freshList (s : State) : (State.freshList s).base = s.base := by
  unfold State.freshList
  repeat' (first | split | simp | (refine (base_foldl (fun s a => ?_) _ _).trans ?_) | dsimp only | rfl)

@[simp] theorem base_setMark (s : State) (m : Stamp) : (State.setMark s m).base = s.base := by
  unfold State.setMark
  repeat' (first | split | simp | (refine (base_foldl (fun s a => ?_) _ _).trans ?_) | dsimp only | rfl)

@[simp] theorem base_takeGated (s : State) : (State.takeGated s).base = s.base := by
  unfold State.takeGated
  repeat' (first | split | simp | (refine (base_foldl (fun s a => ?_) _ _).trans ?_) | dsimp only | rfl)

@[simp] theorem base_bdsBoundary (s : State) : (State.bdsBoundary s).base = s.base := by
  unfold State.bdsBoundary
  repeat' (first | split | simp | (refine (base_foldl (fun s a => ?_) _ _).trans ?_) | dsimp only | rfl)

@[simp] theorem base_bdsStep (s : State) (before after : CampusMs) : (State.bdsStep s before after).base = s.base := by
  unfold State.bdsStep
  repeat' (first | split | simp | (refine (base_foldl (fun s a => ?_) _ _).trans ?_) | dsimp only | rfl)

@[simp] theorem base_bdsActivation (s : State) : (State.bdsActivation s).base = s.base := by
  unfold State.bdsActivation
  repeat' (first | split | simp | (refine (base_foldl (fun s a => ?_) _ _).trans ?_) | dsimp only | rfl)

@[simp] theorem base_bdsStart (s : State) : (State.bdsStart s).base = s.base := by
  unfold State.bdsStart
  repeat' (first | split | simp | (refine (base_foldl (fun s a => ?_) _ _).trans ?_) | dsimp only | rfl)

@[simp] theorem base_dropAllParts (s : State) : (State.dropAllParts s).base = s.base := by
  unfold State.dropAllParts
  repeat' (first | split | simp | (refine (base_foldl (fun s a => ?_) _ _).trans ?_) | dsimp only | rfl)

@[simp] theorem base_soundChange (s : State) (j : Job) (p : Part) : (State.soundChange s j p).base = s.base := by
  unfold State.soundChange
  repeat' (first | split | simp | (refine (base_foldl (fun s a => ?_) _ _).trans ?_) | dsimp only | rfl)

@[simp] theorem base_toneOver (s : State) (t job group : Nat) : (State.toneOver s t job group).base = s.base := by
  unfold State.toneOver
  repeat' (first | split | simp | (refine (base_foldl (fun s a => ?_) _ _).trans ?_) | dsimp only | rfl)

/-! ### Machine/Pages.lean -/

@[simp] theorem base_enterPage (s : State) (p : Port) (op : Fin 16) (a : PageAsk) : (State.enterPage s p op a).base = s.base := by
  unfold State.enterPage
  repeat' (first | split | simp | (refine (base_foldl (fun s a => ?_) _ _).trans ?_) | dsimp only | rfl)

@[simp] theorem base_endPage (s : State) (n : Nat) (r : PageReason) : (State.endPage s n r).base = s.base := by
  unfold State.endPage
  repeat' (first | split | simp | (refine (base_foldl (fun s a => ?_) _ _).trans ?_) | dsimp only | rfl)

@[simp] theorem base_endAllPages (s : State) : (State.endAllPages s).base = s.base := by
  unfold State.endAllPages
  repeat' (first | split | simp | (refine (base_foldl (fun s a => ?_) _ _).trans ?_) | dsimp only | rfl)

/-! ### Machine/LineStates.lean -/

@[simp] theorem base_onLine (s : State) (l : Nat) (f : LineSt → LineSt) : (State.onLine s l f).base = s.base := by
  unfold State.onLine
  repeat' (first | split | simp | (refine (base_foldl (fun s a => ?_) _ _).trans ?_) | dsimp only | rfl)

@[simp] theorem base_raiseLine (s : State) (l : Nat) (ev : LineEvent) : (State.raiseLine s l ev).base = s.base := by
  unfold State.raiseLine
  repeat' (first | split | simp | (refine (base_foldl (fun s a => ?_) _ _).trans ?_) | dsimp only | rfl)

@[simp] theorem base_raiseDevice (s : State) (l addr : Nat) (kind : Option DevKind) (before after : DevState) : (State.raiseDevice s l addr kind before after).base = s.base := by
  unfold State.raiseDevice
  repeat' (first | split | simp | (refine (base_foldl (fun s a => ?_) _ _).trans ?_) | dsimp only | rfl)

@[simp] theorem base_refreshDegraded (s : State) (l : Nat) : (State.refreshDegraded s l).base = s.base := by
  unfold State.refreshDegraded
  repeat' (first | split | simp | (refine (base_foldl (fun s a => ?_) _ _).trans ?_) | dsimp only | rfl)

@[simp] theorem base_lineSeconds (s : State) (step : Bool) : (State.lineSeconds s step).base = s.base := by
  unfold State.lineSeconds
  repeat' (first | split | simp | (refine (base_foldl (fun s a => ?_) _ _).trans ?_) | dsimp only | rfl)

@[simp] theorem base_enterDiscovery (s : State) (l : Nat) : (State.enterDiscovery s l).base = s.base := by
  unfold State.enterDiscovery
  repeat' (first | split | simp | (refine (base_foldl (fun s a => ?_) _ _).trans ?_) | dsimp only | rfl)

@[simp] theorem base_enterRun (s : State) (l : Nat) : (State.enterRun s l).base = s.base := by
  unfold State.enterRun
  repeat' (first | split | simp | (refine (base_foldl (fun s a => ?_) _ _).trans ?_) | dsimp only | rfl)

@[simp] theorem base_enterLost (s : State) (l : Nat) : (State.enterLost s l).base = s.base := by
  unfold State.enterLost
  repeat' (first | split | simp | (refine (base_foldl (fun s a => ?_) _ _).trans ?_) | dsimp only | rfl)

@[simp] theorem base_discoveryEnds (s : State) (l : Nat) : (State.discoveryEnds s l).base = s.base := by
  unfold State.discoveryEnds
  repeat' (first | split | simp | (refine (base_foldl (fun s a => ?_) _ _).trans ?_) | dsimp only | rfl)

@[simp] theorem base_lineRecovers (s : State) (l : Nat) : (State.lineRecovers s l).base = s.base := by
  unfold State.lineRecovers
  repeat' (first | split | simp | (refine (base_foldl (fun s a => ?_) _ _).trans ?_) | dsimp only | rfl)

@[simp] theorem base_enterFault (s : State) (l : Nat) : (State.enterFault s l).base = s.base := by
  unfold State.enterFault
  repeat' (first | split | simp | (refine (base_foldl (fun s a => ?_) _ _).trans ?_) | dsimp only | rfl)

/-! ### Machine/Proving.lean -/

@[simp] theorem base_raiseTestEnd (s : State) (l : Nat) : (State.raiseTestEnd s l).base = s.base := by
  unfold State.raiseTestEnd
  repeat' (first | split | simp | (refine (base_foldl (fun s a => ?_) _ _).trans ?_) | dsimp only | rfl)

@[simp] theorem base_takeResult (s : State) (l : Nat) (r : TestResult) (cause : Option AbortCause) : (State.takeResult s l r cause).base = s.base := by
  unfold State.takeResult
  repeat' (first | split | simp | (refine (base_foldl (fun s a => ?_) _ _).trans ?_) | dsimp only | rfl)

@[simp] theorem base_abortTest (s : State) (l : Nat) (cause : AbortCause) : (State.abortTest s l cause).base = s.base := by
  unfold State.abortTest
  repeat' (first | split | simp | (refine (base_foldl (fun s a => ?_) _ _).trans ?_) | dsimp only | rfl)

@[simp] theorem base_beginTest (s : State) (l : Nat) (mode : TestMode) (seconds : Nat) : (State.beginTest s l mode seconds).base = s.base := by
  unfold State.beginTest
  repeat' (first | split | simp | (refine (base_foldl (fun s a => ?_) _ _).trans ?_) | dsimp only | rfl)

@[simp] theorem base_selfProve (s : State) (l : Nat) (back : List Byte) : (State.selfProve s l back).base = s.base := by
  unfold State.selfProve
  repeat' (first | split | simp | (refine (base_foldl (fun s a => ?_) _ _).trans ?_) | dsimp only | rfl)

@[simp] theorem base_testProve (s : State) (l : Nat) (mode : TestMode) (back : List Byte) : (State.testProve s l mode back).base = s.base := by
  unfold State.testProve
  repeat' (first | split | simp | (refine (base_foldl (fun s a => ?_) _ _).trans ?_) | dsimp only | rfl)

/-! ### Machine/Drill.lean -/

@[simp] theorem base_withSession (s : State) (d : Option Session) : (State.withSession s d).base = s.base := by
  unfold State.withSession
  repeat' (first | split | simp | (refine (base_foldl (fun s a => ?_) _ _).trans ?_) | dsimp only | rfl)

@[simp] theorem base_onSession (s : State) (f : Session → Session) : (State.onSession s f).base = s.base := by
  unfold State.onSession
  repeat' (first | split | simp | (refine (base_foldl (fun s a => ?_) _ _).trans ?_) | dsimp only | rfl)

@[simp] theorem base_setDrillReq (s : State) (b : Bool) : (State.setDrillReq s b).base = s.base := by
  unfold State.setDrillReq
  repeat' (first | split | simp | (refine (base_foldl (fun s a => ?_) _ _).trans ?_) | dsimp only | rfl)

@[simp] theorem base_writeRecord (s : State) (x : RecordSource) : (State.writeRecord s x).base = s.base := by
  unfold State.writeRecord
  repeat' (first | split | simp | (refine (base_foldl (fun s a => ?_) _ _).trans ?_) | dsimp only | rfl)

@[simp] theorem base_writeSkipped (s : State) (program : Nat) (building : List Nat) : (State.writeSkipped s program building).base = s.base := by
  unfold State.writeSkipped
  repeat' (first | split | simp | (refine (base_foldl (fun s a => ?_) _ _).trans ?_) | dsimp only | rfl)

@[simp] theorem base_endTiming (s : State) : (State.endTiming s).base = s.base := by
  unfold State.endTiming
  repeat' (first | split | simp | (refine (base_foldl (fun s a => ?_) _ _).trans ?_) | dsimp only | rfl)

@[simp] theorem base_closeSession (s : State) (d : Session) (r : DrillReason) : (State.closeSession s d r).base = s.base := by
  unfold State.closeSession
  repeat' (first | split | simp | (refine (base_foldl (fun s a => ?_) _ _).trans ?_) | dsimp only | rfl)

@[simp] theorem base_endSession (s : State) (r : DrillReason) : (State.endSession s r).base = s.base := by
  unfold State.endSession
  repeat' (first | split | simp | (refine (base_foldl (fun s a => ?_) _ _).trans ?_) | dsimp only | rfl)

@[simp] theorem base_restartSession (s : State) : (State.restartSession s).base = s.base := by
  unfold State.restartSession
  repeat' (first | split | simp | (refine (base_foldl (fun s a => ?_) _ _).trans ?_) | dsimp only | rfl)

@[simp] theorem base_drillOutputs (s : State) : (State.drillOutputs s).base = s.base := by
  unfold State.drillOutputs
  repeat' (first | split | simp | (refine (base_foldl (fun s a => ?_) _ _).trans ?_) | dsimp only | rfl)

@[simp] theorem base_retuneDrill (s : State) : (State.retuneDrill s).base = s.base := by
  unfold State.retuneDrill
  repeat' (first | split | simp | (refine (base_foldl (fun s a => ?_) _ _).trans ?_) | dsimp only | rfl)

@[simp] theorem base_beginStage (s : State) (k : Nat) : (State.beginStage s k).base = s.base := by
  unfold State.beginStage
  repeat' (first | split | simp | (refine (base_foldl (fun s a => ?_) _ _).trans ?_) | dsimp only | rfl)

@[simp] theorem base_endStage (s : State) : (State.endStage s).base = s.base := by
  unfold State.endStage
  repeat' (first | split | simp | (refine (base_foldl (fun s a => ?_) _ _).trans ?_) | dsimp only | rfl)

@[simp] theorem base_enterRunning (s : State) : (State.enterRunning s).base = s.base := by
  unfold State.enterRunning
  repeat' (first | split | simp | (refine (base_foldl (fun s a => ?_) _ _).trans ?_) | dsimp only | rfl)

@[simp] theorem base_createSession (s : State) (origin : DrillOrigin) (program : Nat) (building : List Nat) : (State.createSession s origin program building).base = s.base := by
  unfold State.createSession
  repeat' (first | split | simp | (refine (base_foldl (fun s a => ?_) _ _).trans ?_) | dsimp only | rfl)

@[simp] theorem base_enterRequesting (s : State) : (State.enterRequesting s).base = s.base := by
  unfold State.enterRequesting
  repeat' (first | split | simp | (refine (base_foldl (fun s a => ?_) _ _).trans ?_) | dsimp only | rfl)

@[simp] theorem base_drillAckRises (s : State) : (State.drillAckRises s).base = s.base := by
  unfold State.drillAckRises
  repeat' (first | split | simp | (refine (base_foldl (fun s a => ?_) _ _).trans ?_) | dsimp only | rfl)

@[simp] theorem base_drillAckFalls (s : State) : (State.drillAckFalls s).base = s.base := by
  unfold State.drillAckFalls
  repeat' (first | split | simp | (refine (base_foldl (fun s a => ?_) _ _).trans ?_) | dsimp only | rfl)

@[simp] theorem base_clearLine (s : State) (d : Session) (l : Nat) : (State.clearLine s d l).base = s.base := by
  unfold State.clearLine
  repeat' (first | split | simp | (refine (base_foldl (fun s a => ?_) _ _).trans ?_) | dsimp only | rfl)

@[simp] theorem base_clearReport (s : State) (l addr n : Nat) : (State.clearReport s l addr n).base = s.base := by
  unfold State.clearReport
  repeat' (first | split | simp | (refine (base_foldl (fun s a => ?_) _ _).trans ?_) | dsimp only | rfl)

@[simp] theorem base_takeSchedule (skips : Schedule → Bool) (s : State) (e : Schedule) : (State.takeSchedule skips s e).base = s.base := by
  unfold State.takeSchedule
  repeat' (first | split | simp | (refine (base_foldl (fun s a => ?_) _ _).trans ?_) | dsimp only | rfl)

@[simp] theorem base_setDrillMark (s : State) (m : Stamp) : (State.setDrillMark s m).base = s.base := by
  unfold State.setDrillMark
  repeat' (first | split | simp | (refine (base_foldl (fun s a => ?_) _ _).trans ?_) | dsimp only | rfl)

@[simp] theorem base_dsqTake (s : State) (skips : Schedule → Bool) : (State.dsqTake s skips).base = s.base := by
  unfold State.dsqTake
  repeat' (first | split | simp | (refine (base_foldl (fun s a => ?_) _ _).trans ?_) | dsimp only | rfl)

@[simp] theorem base_dsqBoundary (s : State) : (State.dsqBoundary s).base = s.base := by
  unfold State.dsqBoundary
  repeat' (first | split | simp | (refine (base_foldl (fun s a => ?_) _ _).trans ?_) | dsimp only | rfl)

@[simp] theorem base_dsqStep (s : State) : (State.dsqStep s).base = s.base := by
  unfold State.dsqStep
  repeat' (first | split | simp | (refine (base_foldl (fun s a => ?_) _ _).trans ?_) | dsimp only | rfl)

@[simp] theorem base_dsqActivation (s : State) : (State.dsqActivation s).base = s.base := by
  unfold State.dsqActivation
  repeat' (first | split | simp | (refine (base_foldl (fun s a => ?_) _ _).trans ?_) | dsimp only | rfl)

@[simp] theorem base_dsqStart (s : State) : (State.dsqStart s).base = s.base := by
  unfold State.dsqStart
  repeat' (first | split | simp | (refine (base_foldl (fun s a => ?_) _ _).trans ?_) | dsimp only | rfl)

@[simp] theorem base_drillChange (s : State) : (State.drillChange s).base = s.base := by
  unfold State.drillChange
  repeat' (first | split | simp | (refine (base_foldl (fun s a => ?_) _ _).trans ?_) | dsimp only | rfl)

/-! ### Machine/Lines.lean -/

@[simp] theorem base_changeRec (s : State) (l a : Nat) (r : DevRec) : (State.changeRec s l a r).base = s.base := by
  unfold State.changeRec
  repeat' (first | split | simp | (refine (base_foldl (fun s a => ?_) _ _).trans ?_) | dsimp only | rfl)

@[simp] theorem base_discoverRec (s : State) (l a : Nat) (r : DevRec) : (State.discoverRec s l a r).base = s.base := by
  unfold State.discoverRec
  repeat' (first | split | simp | (refine (base_foldl (fun s a => ?_) _ _).trans ?_) | dsimp only | rfl)

@[simp] theorem base_reconcile (s : State) (l a : Nat) (report : Report) : (State.reconcile s l a report).base = s.base := by
  unfold State.reconcile
  repeat' (first | split | simp | (refine (base_foldl (fun s a => ?_) _ _).trans ?_) | dsimp only | rfl)

@[simp] theorem base_ampFlag (s : State) (l a : Nat) (fault : Bool) : (State.ampFlag s l a fault).base = s.base := by
  unfold State.ampFlag
  repeat' (first | split | simp | (refine (base_foldl (fun s a => ?_) _ _).trans ?_) | dsimp only | rfl)

@[simp] theorem base_correctClock (s : State) (l a h m sec : Nat) : (State.correctClock s l a h m sec).base = s.base := by
  unfold State.correctClock
  repeat' (first | split | simp | (refine (base_foldl (fun s a => ?_) _ _).trans ?_) | dsimp only | rfl)

@[simp] theorem base_compareReport (s : State) (l a : Nat) (report : Report) : (State.compareReport s l a report).base = s.base := by
  unfold State.compareReport
  repeat' (first | split | simp | (refine (base_foldl (fun s a => ?_) _ _).trans ?_) | dsimp only | rfl)

@[simp] theorem base_discoverNext (s : State) (l : Nat) : (State.discoverNext s l).base = s.base := by
  unfold State.discoverNext
  repeat' (first | split | simp | (refine (base_foldl (fun s a => ?_) _ _).trans ?_) | dsimp only | rfl)

@[simp] theorem base_lossHistory (s : State) (l : Nat) (good : Bool) : (State.lossHistory s l good).base = s.base := by
  unfold State.lossHistory
  repeat' (first | split | simp | (refine (base_foldl (fun s a => ?_) _ _).trans ?_) | dsimp only | rfl)

@[simp] theorem base_judgeReply (s : State) (l a : Nat) (g : GoodReply) : (State.judgeReply s l a g).base = s.base := by
  unfold State.judgeReply
  repeat' (first | split | simp | (refine (base_foldl (fun s a => ?_) _ _).trans ?_) | dsimp only | rfl)

@[simp] theorem base_handClear (s : State) (l a : Nat) (report : Report) : (State.handClear s l a report).base = s.base := by
  unfold State.handClear
  repeat' (first | split | simp | (refine (base_foldl (fun s a => ?_) _ _).trans ?_) | dsimp only | rfl)

@[simp] theorem base_takeReply (s : State) (l a start : Nat) (g : GoodReply) : (State.takeReply s l a start g).base = s.base := by
  unfold State.takeReply
  repeat' (first | split | simp | (refine (base_foldl (fun s a => ?_) _ _).trans ?_) | dsimp only | rfl)

@[simp] theorem base_takeMiss (s : State) (l a : Nat) : (State.takeMiss s l a).base = s.base := by
  unfold State.takeMiss
  repeat' (first | split | simp | (refine (base_foldl (fun s a => ?_) _ _).trans ?_) | dsimp only | rfl)

/-! ### Machine/Panel.lean -/

@[simp] theorem base_setPanel (s : State) (st : PanelState) (ev : PanelEvent) : (State.setPanel s st ev).base = s.base := by
  unfold State.setPanel
  repeat' (first | split | simp | (refine (base_foldl (fun s a => ?_) _ _).trans ?_) | dsimp only | rfl)

@[simp] theorem base_takeover (s : State) : (State.takeover s).base = s.base := by
  unfold State.takeover
  repeat' (first | split | simp | (refine (base_foldl (fun s a => ?_) _ _).trans ?_) | dsimp only | rfl)

@[simp] theorem base_reclaim (s : State) : (State.reclaim s).base = s.base := by
  unfold State.reclaim
  repeat' (first | split | simp | (refine (base_foldl (fun s a => ?_) _ _).trans ?_) | dsimp only | rfl)

@[simp] theorem base_restored (s : State) : (State.restored s).base = s.base := by
  unfold State.restored
  repeat' (first | split | simp | (refine (base_foldl (fun s a => ?_) _ _).trans ?_) | dsimp only | rfl)

@[simp] theorem base_enterRestoring (s : State) (again : Bool) : (State.enterRestoring s again).base = s.base := by
  unfold State.enterRestoring
  repeat' (first | split | simp | (refine (base_foldl (fun s a => ?_) _ _).trans ?_) | dsimp only | rfl)

@[simp] theorem base_alarmRises (s : State) : (State.alarmRises s).base = s.base := by
  unfold State.alarmRises
  repeat' (first | split | simp | (refine (base_foldl (fun s a => ?_) _ _).trans ?_) | dsimp only | rfl)

@[simp] theorem base_alarmFalls (s : State) : (State.alarmFalls s).base = s.base := by
  unfold State.alarmFalls
  repeat' (first | split | simp | (refine (base_foldl (fun s a => ?_) _ _).trans ?_) | dsimp only | rfl)

@[simp] theorem base_silenceRises (s : State) : (State.silenceRises s).base = s.base := by
  unfold State.silenceRises
  repeat' (first | split | simp | (refine (base_foldl (fun s a => ?_) _ _).trans ?_) | dsimp only | rfl)

@[simp] theorem base_silenceFalls (s : State) : (State.silenceFalls s).base = s.base := by
  unfold State.silenceFalls
  repeat' (first | split | simp | (refine (base_foldl (fun s a => ?_) _ _).trans ?_) | dsimp only | rfl)

@[simp] theorem base_inputChanged (s : State) (i : PanelInput) (v : Bool) : (State.inputChanged s i v).base = s.base := by
  unfold State.inputChanged
  repeat' (first | split | simp | (refine (base_foldl (fun s a => ?_) _ _).trans ?_) | dsimp only | rfl)

@[simp] theorem base_onInput (s : State) (i : PanelInput) (f : InputSt → InputSt) : (State.onInput s i f).base = s.base := by
  unfold State.onInput
  repeat' (first | split | simp | (refine (base_foldl (fun s a => ?_) _ _).trans ?_) | dsimp only | rfl)

@[simp] theorem base_debounceInput (s : State) (i : PanelInput) : (State.debounceInput s i).base = s.base := by
  unfold State.debounceInput
  repeat' (first | split | simp | (refine (base_foldl (fun s a => ?_) _ _).trans ?_) | dsimp only | rfl)

@[simp] theorem base_rewireInput (s : State) (i : PanelInput) : (State.rewireInput s i).base = s.base := by
  unfold State.rewireInput
  repeat' (first | split | simp | (refine (base_foldl (fun s a => ?_) _ _).trans ?_) | dsimp only | rfl)

@[simp] theorem base_redebounce (s : State) : (State.redebounce s).base = s.base := by
  unfold State.redebounce
  repeat' (first | split | simp | (refine (base_foldl (fun s a => ?_) _ _).trans ?_) | dsimp only | rfl)

@[simp] theorem base_sampleDone (s : State) (begun : Nat) : (State.sampleDone s begun).base = s.base := by
  unfold State.sampleDone
  repeat' (first | split | simp | (refine (base_foldl (fun s a => ?_) _ _).trans ?_) | dsimp only | rfl)

@[simp] theorem base_panelStart (s : State) : (State.panelStart s).base = s.base := by
  unfold State.panelStart
  repeat' (first | split | simp | (refine (base_foldl (fun s a => ?_) _ _).trans ?_) | dsimp only | rfl)

end Sys2Proof.Machine
end

