-- ==== Sys2Proof/Laws/DrillFrames.lean ====
section
/-! SUPPORT. No operation of Machine/Zones.lean or Machine/Trunks.lean begins or ends a drill session, or changes more of it than
its signal state and its count of dropped parts: `State.sess` is unchanged by each of them. With RestFrames.lean, which says
the same of the Panel Link, these are the frames of the law of drill sessions (R166), and of what a session records (R165,
R167). -/

set_option autoImplicit false
set_option linter.unusedTactic false
set_option linter.unreachableTactic false

namespace Sys2Proof.Machine

open Sys2Proof

/-- A session with its signal state and its count of dropped parts put aside. -/
def Session.fixed (d : Session) : Session := { d with signal := .silent, drops := 0 }

/-- The drill session, if one exists, with what the zone controller's work changes of it put aside. -/
def State.sess (s : State) : Option Session := s.dsq.session.map Session.fixed

/-! ### Record updates -/

theorem sess_foldl {α : Type} {f : State → α → State} (h : ∀ s a, (f s a).sess = s.sess) (xs : List α) (s : State) :
    (xs.foldl f s).sess = s.sess := by
  induction xs generalizing s with
  | nil => rfl
  | cons x xs ih => exact (ih (f s x)).trans (h s x)

@[simp] theorem sess_ztc (s : State) (z : Ztc) : ({ s with ztc := z } : State).sess = s.sess := rfl
@[simp] theorem sess_jobs (s : State) (q : List Job) : ({ s with bds := { s.bds with queue := q } } : State).sess = s.sess := rfl
@[simp] theorem sess_pages (s : State) (q : List Page) : ({ s with pgc := { s.pgc with queue := q } } : State).sess = s.sess := rfl
@[simp] theorem sess_session (s : State) (d : Option Session) :
    ({ s with dsq := { s.dsq with session := d } } : State).sess = d.map Session.fixed := rfl
theorem sess_of {s : State} {d d' : Session} (h : s.dsq.session = some d) (e : d'.fixed = d.fixed) : some d'.fixed = s.sess := by
  simp [State.sess, h, e]

/-- Where the zone controller's work leaves `State.sess`, a session is RUNNING after it if and only if it was before. -/
theorem running_of_sess {s t : State} (h : t.sess = s.sess) :
    t.dsq.session.map Session.running = s.dsq.session.map Session.running := by
  have e := congrArg (Option.map Session.running) h
  simpa [State.sess, Session.fixed, Function.comp_def] using e
@[simp] theorem sess_lines (s : State) (t : Table LineSt) : ({ s with lines := t } : State).sess = s.sess := rfl
@[simp] theorem sess_setZone (s : State) (z : Nat) (r : ZoneRec) : (s.setZone z r).sess = s.sess := rfl
@[simp] theorem sess_setTrunk (s : State) (t : Nat) (u : Option TrunkUse) : (s.setTrunk t u).sess = s.sess := rfl
@[simp] theorem sess_setLine (s : State) (l : Nat) (x : LineSt) : (s.setLine l x).sess = s.sess := rfl
@[simp] theorem sess_push (s : State) (w : List Work) : (s.push w).sess = s.sess := rfl

@[simp] theorem sess_raiseAt (s : State) (p : Port) (k : NoticeKind) (d : Detail) : (s.raiseAt p k d).sess = s.sess := by
  cases p
  · by_cases c : s.ntu.a.quiet.contains k <;> simp only [State.raiseAt, NtuPort.take, PerPort.get, PerPort.set, State.sess, c] <;> rfl
  · by_cases c : s.ntu.b.quiet.contains k <;> simp only [State.raiseAt, NtuPort.take, PerPort.get, PerPort.set, State.sess, c] <;> rfl

@[simp] theorem sess_raise (s : State) (k : NoticeKind) (d : Detail) : (s.raise k d).sess = s.sess := by simp [State.raise]

/-! ### Machine/Zones.lean -/

@[simp] theorem sess_output (s : State) (z : Nat) (alarm : Bool) : (State.output s z alarm).sess = s.sess := by
  unfold State.output
  repeat' (first | split | simp | (refine (sess_foldl (fun s a => ?_) _ _).trans ?_) | dsimp only | rfl)

@[simp] theorem sess_setWanted (s : State) (z : Nat) (bell trunk : Option Nat) : (State.setWanted s z bell trunk).sess = s.sess := by
  unfold State.setWanted
  repeat' (first | split | simp | (refine (sess_foldl (fun s a => ?_) _ _).trans ?_) | dsimp only | rfl)

@[simp] theorem sess_updatePart (s : State) (n z : Nat) (f : Part → Part) : (State.updatePart s n z f).sess = s.sess := by
  unfold State.updatePart
  repeat' (first | split | simp | (refine (sess_foldl (fun s a => ?_) _ _).trans ?_) | dsimp only | rfl)

@[simp] theorem sess_leaveJobs (s : State) : (State.leaveJobs s).sess = s.sess := by
  unfold State.leaveJobs
  repeat' (first | split | simp | (refine (sess_foldl (fun s a => ?_) _ _).trans ?_) | dsimp only | rfl)

@[simp] theorem sess_countDrillDrop (s : State) : (State.countDrillDrop s).sess = s.sess := by
  unfold State.countDrillDrop
  repeat' (first | split | simp | (refine (sess_foldl (fun s a => ?_) _ _).trans ?_) | dsimp only | rfl)
  all_goals
    have h := ‹s.dsq.session = some _›
    exact sess_of h rfl

@[simp] theorem sess_dropPart (s : State) (n z : Nat) (r : DropReason) : (State.dropPart s n z r).sess = s.sess := by
  unfold State.dropPart
  repeat' (first | split | simp | (refine (sess_foldl (fun s a => ?_) _ _).trans ?_) | dsimp only | rfl)

@[simp] theorem sess_donePart (s : State) (n z : Nat) : (State.donePart s n z).sess = s.sess := by
  unfold State.donePart
  repeat' (first | split | simp | (refine (sess_foldl (fun s a => ?_) _ _).trans ?_) | dsimp only | rfl)

@[simp] theorem sess_tellDeferred (s : State) (n z since : Nat) (r : DeferReason) : (State.tellDeferred s n z since r).sess = s.sess := by
  unfold State.tellDeferred
  repeat' (first | split | simp | (refine (sess_foldl (fun s a => ?_) _ _).trans ?_) | dsimp only | rfl)

@[simp] theorem sess_updatePage (s : State) (n : Nat) (f : Page → Page) : (State.updatePage s n f).sess = s.sess := by
  unfold State.updatePage
  repeat' (first | split | simp | (refine (sess_foldl (fun s a => ?_) _ _).trans ?_) | dsimp only | rfl)

@[simp] theorem sess_pageLoses (s : State) (n z : Nat) (r : LossReason) : (State.pageLoses s n z r).sess = s.sess := by
  unfold State.pageLoses
  repeat' (first | split | simp | (refine (sess_foldl (fun s a => ?_) _ _).trans ?_) | dsimp only | rfl)

@[simp] theorem sess_pageSuspended (s : State) (n z : Nat) : (State.pageSuspended s n z).sess = s.sess := by
  unfold State.pageSuspended
  repeat' (first | split | simp | (refine (sess_foldl (fun s a => ?_) _ _).trans ?_) | dsimp only | rfl)

@[simp] theorem sess_pageReturned (s : State) (n z : Nat) : (State.pageReturned s n z).sess = s.sess := by
  unfold State.pageReturned
  repeat' (first | split | simp | (refine (sess_foldl (fun s a => ?_) _ _).trans ?_) | dsimp only | rfl)

@[simp] theorem sess_waitersLose (s : State) (z : Nat) (r : LossReason) : (State.waitersLose s z r).sess = s.sess := by
  unfold State.waitersLose
  repeat' (first | split | simp | (refine (sess_foldl (fun s a => ?_) _ _).trans ?_) | dsimp only | rfl)

@[simp] theorem sess_refreshReasons (s : State) (z : Nat) : (State.refreshReasons s z).sess = s.sess := by
  unfold State.refreshReasons
  repeat' (first | split | simp | (refine (sess_foldl (fun s a => ?_) _ _).trans ?_) | dsimp only | rfl)

@[simp] theorem sess_joinWaits (s : State) (w : Wait) (reason : DeferReason) : (State.joinWaits s w reason).sess = s.sess := by
  unfold State.joinWaits
  repeat' (first | split | simp | (refine (sess_foldl (fun s a => ?_) _ _).trans ?_) | dsimp only | rfl)

@[simp] theorem sess_leaveWaits (s : State) (n z : Nat) : (State.leaveWaits s n z).sess = s.sess := by
  unfold State.leaveWaits
  repeat' (first | split | simp | (refine (sess_foldl (fun s a => ?_) _ _).trans ?_) | dsimp only | rfl)

@[simp] theorem sess_leaveGroups (s : State) (n z : Nat) : (State.leaveGroups s n z).sess = s.sess := by
  unfold State.leaveGroups
  repeat' (first | split | simp | (refine (sess_foldl (fun s a => ?_) _ _).trans ?_) | dsimp only | rfl)

@[simp] theorem sess_clearWaits (s : State) (z : Nat) (r : DropReason) : (State.clearWaits s z r).sess = s.sess := by
  unfold State.clearWaits
  repeat' (first | split | simp | (refine (sess_foldl (fun s a => ?_) _ _).trans ?_) | dsimp only | rfl)

@[simp] theorem sess_tellDisplaced (s : State) (w : Taker) (z : Nat) : (State.tellDisplaced s w z).sess = s.sess := by
  unfold State.tellDisplaced
  repeat' (first | split | simp | (refine (sess_foldl (fun s a => ?_) _ _).trans ?_) | dsimp only | rfl)

@[simp] theorem sess_tellSuspended (s : State) (w : Taker) (z : Nat) : (State.tellSuspended s w z).sess = s.sess := by
  unfold State.tellSuspended
  repeat' (first | split | simp | (refine (sess_foldl (fun s a => ?_) _ _).trans ?_) | dsimp only | rfl)

@[simp] theorem sess_judgeWaits (s : State) (w : Taker) (z : Nat) : (State.judgeWaits s w z).sess = s.sess := by
  unfold State.judgeWaits
  repeat' (first | split | simp | (refine (sess_foldl (fun s a => ?_) _ _).trans ?_) | dsimp only | rfl)

@[simp] theorem sess_seat (s : State) (w : Taker) (z : Nat) : (State.seat s w z).sess = s.sess := by
  unfold State.seat
  repeat' (first | split | simp | (refine (sess_foldl (fun s a => ?_) _ _).trans ?_) | dsimp only | rfl)

@[simp] theorem sess_later (s : State) (w : Work) : (State.later s w).sess = s.sess := by
  unfold State.later
  repeat' (first | split | simp | (refine (sess_foldl (fun s a => ?_) _ _).trans ?_) | dsimp only | rfl)

@[simp] theorem sess_seekDrillTrunk (s : State) : (State.seekDrillTrunk s).sess = s.sess := by
  unfold State.seekDrillTrunk
  split <;> simp

@[simp] theorem sess_takeZone (s : State) (w : Taker) (z : Nat) : (State.takeZone s w z).sess = s.sess := by
  unfold State.takeZone
  repeat' (first | split | simp | (refine (sess_foldl (fun s a => ?_) _ _).trans ?_) | dsimp only | rfl)

@[simp] theorem sess_claimAlarm (s : State) (zs : List Nat) : (State.claimAlarm s zs).sess = s.sess := by
  unfold State.claimAlarm
  repeat' (first | split | simp | (refine (sess_foldl (fun s a => ?_) _ _).trans ?_) | dsimp only | rfl)

@[simp] theorem sess_claimDrill (s : State) (zs : List Nat) : (State.claimDrill s zs).sess = s.sess := by
  unfold State.claimDrill
  repeat' (first | split | simp | (refine (sess_foldl (fun s a => ?_) _ _).trans ?_) | dsimp only | rfl)

@[simp] theorem sess_bellTakes (s : State) (n z : Nat) (tone : Option (Nat × Nat)) : (State.bellTakes s n z tone).sess = s.sess := by
  unfold State.bellTakes
  repeat' (first | split | simp | (refine (sess_foldl (fun s a => ?_) _ _).trans ?_) | dsimp only | rfl)

@[simp] theorem sess_returnZone (s : State) (z : Nat) : (State.returnZone s z).sess = s.sess := by
  unfold State.returnZone
  repeat' (first | split | simp | (refine (sess_foldl (fun s a => ?_) _ _).trans ?_) | dsimp only | rfl)

@[simp] theorem sess_holdersEnd (s : State) (zs : List Nat) : (State.holdersEnd s zs).sess = s.sess := by
  unfold State.holdersEnd
  repeat' (first | split | simp | (refine (sess_foldl (fun s a => ?_) _ _).trans ?_) | dsimp only | rfl)

@[simp] theorem sess_releaseZones (s : State) (mine : Holder → Bool) (mineUnder : Suspended → Bool) (zs : List Nat) : (State.releaseZones s mine mineUnder zs).sess = s.sess := by
  unfold State.releaseZones
  repeat' (first | split | simp | (refine (sess_foldl (fun s a => ?_) _ _).trans ?_) | dsimp only | rfl)

@[simp] theorem sess_loseZone (s : State) (z : Nat) : (State.loseZone s z).sess = s.sess := by
  unfold State.loseZone
  repeat' (first | split | simp | (refine (sess_foldl (fun s a => ?_) _ _).trans ?_) | dsimp only | rfl)

@[simp] theorem sess_gainZone (s : State) (z : Nat) : (State.gainZone s z).sess = s.sess := by
  unfold State.gainZone
  repeat' (first | split | simp | (refine (sess_foldl (fun s a => ?_) _ _).trans ?_) | dsimp only | rfl)

@[simp] theorem sess_lineDown (s : State) (l : Nat) : (State.lineDown s l).sess = s.sess := by
  unfold State.lineDown
  repeat' (first | split | simp | (refine (sess_foldl (fun s a => ?_) _ _).trans ?_) | dsimp only | rfl)

@[simp] theorem sess_lineUp (s : State) (l : Nat) : (State.lineUp s l).sess = s.sess := by
  unfold State.lineUp
  repeat' (first | split | simp | (refine (sess_foldl (fun s a => ?_) _ _).trans ?_) | dsimp only | rfl)

/-! ### Machine/Trunks.lean -/

@[simp] theorem sess_grant (s : State) (t : Nat) (program : TrunkProgram) (tone : Option Timeline) (toneSince toneUntil : Option Nat) :
    (State.grant s t program tone toneSince toneUntil).sess = s.sess := by
  unfold State.grant
  repeat' (first | split | simp | (refine (sess_foldl (fun s a => ?_) _ _).trans ?_) | dsimp only | rfl)

@[simp] theorem sess_freeTrunks (s : State) (ts : List Nat) : (State.freeTrunks s ts).sess = s.sess :=
  sess_foldl (fun s t => sess_setTrunk s t _) _ _

@[simp] theorem sess_releaseTrunks (s : State) : (State.releaseTrunks s).sess = s.sess := by
  unfold State.releaseTrunks
  repeat' (first | split | simp | (refine (sess_foldl (fun s a => ?_) _ _).trans ?_) | dsimp only | rfl)

@[simp] theorem sess_releaseOwn (s : State) (kept : List Nat) : (State.releaseOwn s kept).sess = s.sess := sess_freeTrunks _ _

@[simp] theorem sess_releaseNow (s : State) (kept : List Nat) : (State.releaseNow s kept).sess = s.sess := by
  unfold State.releaseNow
  split <;> simp

@[simp] theorem sess_forceTakes (s : State) (n z : Nat) (tone : Option (Nat × Nat)) : (State.forceTakes s n z tone).sess = s.sess := by
  unfold State.forceTakes
  repeat' (first | split | simp | (refine (sess_foldl (fun s a => ?_) _ _).trans ?_) | dsimp only | rfl)

@[simp] theorem sess_sortPage (s : State) (n : Nat) : (State.sortPage s n).sess = s.sess := by
  unfold State.sortPage
  repeat' (first | split | simp | (refine (sess_foldl (fun s a => ?_) _ _).trans ?_) | dsimp only | rfl)

@[simp] theorem sess_startPage (s : State) (n t : Nat) : (State.startPage s n t).sess = s.sess := by
  unfold State.startPage
  repeat' (first | split | simp | (refine (sess_foldl (fun s a => ?_) _ _).trans ?_) | dsimp only | rfl)

@[simp] theorem sess_enterLive (s : State) (n t : Nat) : (State.enterLive s n t).sess = s.sess := by
  unfold State.enterLive
  repeat' (first | split | simp | (refine (sess_foldl (fun s a => ?_) _ _).trans ?_) | dsimp only | rfl)

@[simp] theorem sess_enterChime (s : State) (n t : Nat) (pretone : Option Nat) : (State.enterChime s n t pretone).sess = s.sess := by
  unfold State.enterChime
  repeat' (first | split | simp | (refine (sess_foldl (fun s a => ?_) _ _).trans ?_) | dsimp only | rfl)

@[simp] theorem sess_claimForPage (n prio t : Nat) (s : State) (z : Nat) : (State.claimForPage n prio t s z).sess = s.sess := by
  unfold State.claimForPage
  repeat' (first | split | simp | (refine (sess_foldl (fun s a => ?_) _ _).trans ?_) | dsimp only | rfl)

@[simp] theorem sess_claimPage (s : State) (n : Nat) : (State.claimPage s n).sess = s.sess := by
  unfold State.claimPage
  repeat' (first | split | simp | (refine (sess_foldl (fun s a => ?_) _ _).trans ?_) | dsimp only | rfl)

@[simp] theorem sess_offerZone (s : State) (z : Nat) : (State.offerZone s z).sess = s.sess := by
  unfold State.offerZone
  repeat' (first | split | simp | (refine (sess_foldl (fun s a => ?_) _ _).trans ?_) | dsimp only | rfl)

@[simp] theorem sess_joinGroup (s : State) (w : Wait) : (State.joinGroup s w).sess = s.sess := by
  unfold State.joinGroup
  repeat' (first | split | simp | (refine (sess_foldl (fun s a => ?_) _ _).trans ?_) | dsimp only | rfl)

@[simp] theorem sess_serveZone (pausedPage : Option Nat) (s : State) (z : Nat) : (State.serveZone pausedPage s z).1.sess = s.sess := by
  unfold State.serveZone
  repeat' (first | split | simp | (refine (sess_foldl (fun s a => ?_) _ _).trans ?_) | dsimp only | rfl)

@[simp] theorem sess_serveZones (pausedPage : Option Nat) (zs : List Nat) (s : State) :
    (State.serveZones pausedPage zs s).1.sess = s.sess := by
  induction zs generalizing s with
  | nil => rfl
  | cons z zs ih => simp [State.serveZones, ih]

@[simp] theorem sess_numberGiven (s : State) (job num : Nat) : (State.numberGiven s job num).sess = s.sess := rfl

@[simp] theorem sess_waitForTrunk (s : State) (g : StartGroup) (ws : List Wait) : (State.waitForTrunk s g ws).sess = s.sess := by
  unfold State.waitForTrunk
  repeat' (first | split | simp | (refine (sess_foldl (fun s a => ?_) _ _).trans ?_) | dsimp only | rfl)

@[simp] theorem sess_leaveUngranted (s : State) (g : StartGroup) : (State.leaveUngranted s g).sess = s.sess := by
  unfold State.leaveUngranted
  repeat' (first | split | simp | (refine (sess_foldl (fun s a => ?_) _ _).trans ?_) | dsimp only | rfl)

@[simp] theorem sess_turnDown (s : State) (gs : List StartGroup) : (State.turnDown s gs).sess = s.sess := by
  unfold State.turnDown
  rw [sess_push]
  exact sess_foldl (fun s g => sess_leaveUngranted s g) _ _

@[simp] theorem sess_ungranted (s : State) : (State.ungranted s).sess = s.sess := sess_turnDown _ _

@[simp] theorem sess_served (s : State) (zs : List Nat) (freed : Bool) (gs : List StartGroup) : (State.served s zs freed gs).sess = s.sess := by
  unfold State.served
  dsimp only
  split
  · simp
  · split <;> simp

@[simp] theorem sess_serve (s : State) (zs : List Nat) (pausedPage : Option Nat) (freed : Bool) : (State.serve s zs pausedPage freed).sess = s.sess := by
  simp [State.serve]

@[simp] theorem sess_deferPart (s : State) (w : Wait) (r : DeferReason) (tone : Option (Nat × Nat)) : (State.deferPart s w r tone).sess = s.sess := by
  unfold State.deferPart
  repeat' (first | split | simp | (refine (sess_foldl (fun s a => ?_) _ _).trans ?_) | dsimp only | rfl)

@[simp] theorem sess_claimMember (g : StartGroup) (num t : Nat) (s : State) (w : Wait) : (State.claimMember g num t s w).sess = s.sess := by
  unfold State.claimMember
  repeat' (first | split | simp | (refine (sess_foldl (fun s a => ?_) _ _).trans ?_) | dsimp only | rfl)

@[simp] theorem sess_grantTone (s : State) (t job num : Nat) : (State.grantTone s t job num).sess = s.sess := sess_grant _ _ _ _ _ _

@[simp] theorem sess_grantGroup (s : State) (g : StartGroup) (t : Nat) : (State.grantGroup s g t).sess = s.sess := by
  unfold State.grantGroup
  repeat' (first | split | simp | (refine (sess_foldl (fun s a => ?_) _ _).trans ?_) | dsimp only | rfl)

@[simp] theorem sess_raiseStage (s : State) : (State.raiseStage s).sess = s.sess := by
  unfold State.raiseStage
  repeat' (first | split | simp | (refine (sess_foldl (fun s a => ?_) _ _).trans ?_) | dsimp only | rfl)

@[simp] theorem sess_grantDrill (s : State) (t : Nat) : (State.grantDrill s t).sess = s.sess := by
  unfold State.grantDrill
  repeat' (first | split | simp | (refine (sess_foldl (fun s a => ?_) _ _).trans ?_) | dsimp only | rfl)
  all_goals
    have h := ‹Dsq.session _ = some _›
    exact (sess_of h rfl).trans (sess_grant s t _ _ _ _)

@[simp] theorem sess_releaseDrillTrunk (s : State) : (State.releaseDrillTrunk s).sess = s.sess := by
  unfold State.releaseDrillTrunk
  repeat' (first | split | simp | (refine (sess_foldl (fun s a => ?_) _ _).trans ?_) | dsimp only | rfl)

@[simp] theorem sess_stripTone (s : State) (t job : Nat) : (s.stripTone t job).1.sess = s.sess := by
  unfold State.stripTone
  simp only [sess_setTrunk]
  refine (sess_foldl (fun s z => sess_returnZone s z) _ _).trans ?_
  exact sess_foldl (fun s z => sess_dropPart s job z _) _ _

@[simp] theorem sess_stripPage (s : State) (p : Page) (t : Nat) : (s.stripPage p t).1.sess = s.sess := by
  unfold State.stripPage
  simp only [sess_setTrunk]
  refine (sess_foldl (fun s z => sess_returnZone s z) _ _).trans ?_
  refine (sess_foldl (fun s z => sess_setZone s z _) _ _).trans ?_
  exact sess_foldl (fun s z => sess_pageLoses s p.num z _) _ _

theorem sess_preempt {s s' : State} {t : Nat} {zs : List Nat} (h : s.preempt = some (t, s', zs)) : s'.sess = s.sess := by
  unfold State.preempt at h
  split at h
  · split at h
    · cases h
      exact sess_stripTone s _ _
    · cases h
  · split at h
    · split at h
      · cases h
        exact sess_stripPage s _ _
      · cases h
    · cases h

@[simp] theorem sess_considerPages (free : Option Nat) (ps : List Page) (s : State) :
    (State.considerPages free ps s).1.sess = s.sess := by
  induction ps generalizing s with
  | nil => rfl
  | cons p ps ih =>
    unfold State.considerPages
    dsimp only
    split
    · split
      · simp
      · split
        · rename_i h
          simp [sess_preempt h]
        · simp [ih]
    · simp [ih]

@[simp] theorem sess_considerRoutine (whole : Bool) (s : State) (t : Nat) : (s.considerRoutine whole t).1.sess = s.sess := by
  unfold State.considerRoutine
  split <;> simp

@[simp] theorem sess_considerBells (whole : Bool) (s : State) (t : Nat) : (s.considerBells whole t).1.sess = s.sess := by
  unfold State.considerBells
  repeat' (first | split | simp)

@[simp] theorem sess_passOnce (whole : Bool) (s : State) : (s.passOnce whole).1.sess = s.sess := by
  unfold State.passOnce
  split
  · split
    · simp
    · dsimp only
      split <;> simp
  · split
    · split
      · rename_i h
        simp [sess_preempt h]
      · simp
    · simp

@[simp] theorem sess_markSignal (s : State) : (State.markSignal s).sess = s.sess := by
  unfold State.markSignal
  repeat' (first | split | simp | (refine (sess_foldl (fun s a => ?_) _ _).trans ?_) | dsimp only | rfl)
  all_goals
    have h := ‹s.dsq.session = some _›
    exact sess_of h rfl

@[simp] theorem sess_pass (s : State) : s.pass.sess = s.sess := by
  have h := sess_passOnce true s
  unfold State.pass
  split <;> simp_all

@[simp] theorem sess_grants (s : State) : s.grants.sess = s.sess := by
  have h := sess_passOnce false s
  unfold State.grants
  split <;> simp_all

@[simp] theorem sess_raisePageEnd (s : State) (p : Page) (r : PageReason) : (State.raisePageEnd s p r).sess = s.sess := by
  unfold State.raisePageEnd
  repeat' (first | split | simp | (refine (sess_foldl (fun s a => ?_) _ _).trans ?_) | dsimp only | rfl)

@[simp] theorem sess_tellEnded (s : State) (p : Page) : (State.tellEnded s p).sess = s.sess := by
  unfold State.tellEnded
  repeat' (first | split | simp | (refine (sess_foldl (fun s a => ?_) _ _).trans ?_) | dsimp only | rfl)

@[simp] theorem sess_finalizePages (s : State) : (State.finalizePages s).sess = s.sess := by
  unfold State.finalizePages
  repeat' (first | split | simp | (refine (sess_foldl (fun s a => ?_) _ _).trans ?_) | dsimp only | rfl)

@[simp] theorem sess_doWork (s : State) (w : Work) : (s.doWork w).sess = s.sess := by
  unfold State.doWork
  split
  all_goals first | (simp; done) | exact sess_foldl sess_offerZone _ _

@[simp] theorem sess_settleFor (k : Nat) (s : State) : (settleFor k s).sess = s.sess := by
  induction k generalizing s with
  | zero => simp [settleFor]
  | succ k ih =>
    unfold settleFor
    split
    · simp
    · simp [ih]

@[simp] theorem sess_settle (s : State) : s.settle.sess = s.sess := sess_settleFor 4096 s

@[simp] theorem sess_meetLimit (tone : Option (Nat × Nat)) (s : State) (w : Wait) : (State.meetLimit tone s w).sess = s.sess := by
  unfold State.meetLimit
  repeat' (first | split | simp | (refine (sess_foldl (fun s a => ?_) _ _).trans ?_) | dsimp only | rfl)

@[simp] theorem sess_expireWaits (s : State) (n : Nat) : (State.expireWaits s n).sess = s.sess := by
  unfold State.expireWaits
  repeat' (first | split | simp | (refine (sess_foldl (fun s a => ?_) _ _).trans ?_) | dsimp only | rfl)

end Sys2Proof.Machine
end

