-- ==== Sys2Proof/Laws/Tables.lean ====
section
/-! SUPPORT. The laws of tables: what is read after a change, and the canonical form that every change keeps. -/

set_option autoImplicit false

namespace Sys2Proof.Machine

variable {α : Type}

@[simp] theorem tget_tput_same (d : Nat → α) (t : Table α) (i : Nat) (v : α) : tget d (tput t i v) i = v := by
  induction t with
  | nil => simp [tput, tget]
  | cons x t ih =>
    obtain ⟨j, w⟩ := x
    unfold tput
    split
    · simp [tget]
    · split
      · simp [tget]
      · rename_i h
        simp [tget, h, ih]

theorem tget_tput_other (d : Nat → α) (t : Table α) {i k : Nat} (v : α) (h : k ≠ i) :
    tget d (tput t i v) k = tget d t k := by
  induction t with
  | nil => simp [tput, tget, h]
  | cons x t ih =>
    obtain ⟨j, w⟩ := x
    unfold tput
    split
    · simp [tget, h]
    · split
      · rename_i e
        subst e
        simp [tget, h]
      · simp [tget, ih]

@[simp] theorem tget_tdel_same (d : Nat → α) (t : Table α) (i : Nat) : tget d (tdel t i) i = d i := by
  induction t with
  | nil => simp [tdel, tget]
  | cons x t ih =>
    obtain ⟨j, w⟩ := x
    unfold tdel
    split
    · exact ih
    · rename_i h
      simp [tget, h, ih]

theorem tget_tdel_other (d : Nat → α) (t : Table α) {i k : Nat} (h : k ≠ i) : tget d (tdel t i) k = tget d t k := by
  induction t with
  | nil => simp [tdel]
  | cons x t ih =>
    obtain ⟨j, w⟩ := x
    unfold tdel
    split
    · rename_i e
      subst e
      simp [tget, h, ih]
    · simp [tget, ih]

/-- What is written is read. -/
@[simp] theorem tget_tset_same [DecidableEq α] (d : Nat → α) (t : Table α) (i : Nat) (v : α) : tget d (tset d t i v) i = v := by
  unfold tset
  split
  · rename_i e
    simp [e]
  · simp

/-- A change at one number leaves every other. -/
theorem tget_tset_other [DecidableEq α] (d : Nat → α) (t : Table α) {i k : Nat} (v : α) (h : k ≠ i) :
    tget d (tset d t i v) k = tget d t k := by
  unfold tset
  split
  · exact tget_tdel_other d t h
  · exact tget_tput_other d t v h

theorem tget_tset [DecidableEq α] (d : Nat → α) (t : Table α) (i k : Nat) (v : α) :
    tget d (tset d t i v) k = if k = i then v else tget d t k := by
  by_cases h : k = i
  · subst h
    simp
  · simp [h, tget_tset_other d t v h]

theorem twfFrom_mono [DecidableEq α] (d : Nat → α) {t : Table α} {k k' : Nat} (h : k' ≤ k) (w : twfFrom d k t = true) :
    twfFrom d k' t = true := by
  cases t with
  | nil => rfl
  | cons x t =>
    obtain ⟨j, v⟩ := x
    simp only [twfFrom, Bool.and_eq_true, decide_eq_true_eq] at w ⊢
    exact ⟨⟨by omega, w.1.2⟩, w.2⟩

theorem twfFrom_tput [DecidableEq α] (d : Nat → α) {t : Table α} {i k : Nat} {v : α} (hk : k ≤ i) (hv : v ≠ d i)
    (w : twfFrom d k t = true) : twfFrom d k (tput t i v) = true := by
  induction t generalizing k with
  | nil => simp [tput, twfFrom, hk, hv]
  | cons x t ih =>
    obtain ⟨j, u⟩ := x
    simp only [twfFrom, Bool.and_eq_true, decide_eq_true_eq] at w
    unfold tput
    split
    · simp only [twfFrom, Bool.and_eq_true, decide_eq_true_eq]
      exact ⟨⟨hk, hv⟩, ⟨by omega, w.1.2⟩, w.2⟩
    · split
      · rename_i e
        subst e
        simp only [twfFrom, Bool.and_eq_true, decide_eq_true_eq]
        exact ⟨⟨hk, hv⟩, w.2⟩
      · simp only [twfFrom, Bool.and_eq_true, decide_eq_true_eq]
        exact ⟨w.1, ih (by omega) w.2⟩

theorem twfFrom_tdel [DecidableEq α] (d : Nat → α) {t : Table α} {i k : Nat} (w : twfFrom d k t = true) :
    twfFrom d k (tdel t i) = true := by
  induction t generalizing k with
  | nil => simp [tdel, twfFrom]
  | cons x t ih =>
    obtain ⟨j, u⟩ := x
    simp only [twfFrom, Bool.and_eq_true, decide_eq_true_eq] at w
    unfold tdel
    split
    · exact twfFrom_mono d (by omega) (ih w.2)
    · simp only [twfFrom, Bool.and_eq_true, decide_eq_true_eq]
      exact ⟨w.1, ih w.2⟩

/-- A change keeps the canonical form. -/
theorem twf_tset [DecidableEq α] (d : Nat → α) {t : Table α} (i : Nat) (v : α) (w : twf d t = true) :
    twf d (tset d t i v) = true := by
  unfold tset
  split
  · exact twfFrom_tdel d w
  · rename_i h
    exact twfFrom_tput d (Nat.zero_le i) h w

/-! ### Values per port -/

@[simp] theorem PerPort.get_set_same (x : PerPort α) (p : Port) (v : α) : (x.set p v).get p = v := by cases p <;> rfl

theorem PerPort.get_set_other (x : PerPort α) {p q : Port} (v : α) (h : q ≠ p) : (x.set p v).get q = x.get q := by
  cases p <;> cases q <;> first | rfl | exact absurd rfl h

@[simp] theorem PerPort.set_get (x : PerPort α) (p : Port) : x.set p (x.get p) = x := by cases p <;> rfl

end Sys2Proof.Machine
end

