-- ==== Sys2Proof/Laws/State.lean ====
section
/-! SUPPORT. One lemma for each field of State after each of its updates, and what the accessors read after them. -/

set_option autoImplicit false

namespace Sys2Proof.Machine

open Sys2Proof

variable (s : State)

/-! ### `setZone` -/

@[simp] theorem setZone_power (z : Nat) (r : ZoneRec) : (s.setZone z r).power = s.power := rfl
@[simp] theorem setZone_setup (z : Nat) (r : ZoneRec) : (s.setZone z r).setup = s.setup := rfl
@[simp] theorem setZone_now (z : Nat) (r : ZoneRec) : (s.setZone z r).now = s.now := rfl
@[simp] theorem setZone_store (z : Nat) (r : ZoneRec) : (s.setZone z r).store = s.store := rfl
@[simp] theorem setZone_tbu (z : Nat) (r : ZoneRec) : (s.setZone z r).tbu = s.tbu := rfl
@[simp] theorem setZone_bds (z : Nat) (r : ZoneRec) : (s.setZone z r).bds = s.bds := rfl
@[simp] theorem setZone_pgc (z : Nat) (r : ZoneRec) : (s.setZone z r).pgc = s.pgc := rfl
@[simp] theorem setZone_pnl (z : Nat) (r : ZoneRec) : (s.setZone z r).pnl = s.pnl := rfl
@[simp] theorem setZone_dsq (z : Nat) (r : ZoneRec) : (s.setZone z r).dsq = s.dsq := rfl
@[simp] theorem setZone_lines (z : Nat) (r : ZoneRec) : (s.setZone z r).lines = s.lines := rfl
@[simp] theorem setZone_field (z : Nat) (r : ZoneRec) : (s.setZone z r).field = s.field := rfl
@[simp] theorem setZone_ntu (z : Nat) (r : ZoneRec) : (s.setZone z r).ntu = s.ntu := rfl
@[simp] theorem setZone_ports (z : Nat) (r : ZoneRec) : (s.setZone z r).ports = s.ports := rfl
@[simp] theorem setZone_slots (z : Nat) (r : ZoneRec) : (s.setZone z r).slots = s.slots := rfl
@[simp] theorem setZone_fromA (z : Nat) (r : ZoneRec) : (s.setZone z r).fromA = s.fromA := rfl
@[simp] theorem setZone_fromB (z : Nat) (r : ZoneRec) : (s.setZone z r).fromB = s.fromB := rfl
@[simp] theorem setZone_restartDue (z : Nat) (r : ZoneRec) : (s.setZone z r).restartDue = s.restartDue := rfl
@[simp] theorem setZone_draws (z : Nat) (r : ZoneRec) : (s.setZone z r).draws = s.draws := rfl
@[simp] theorem setZone_pending (z : Nat) (r : ZoneRec) : (s.setZone z r).pending = s.pending := rfl

/-! ### `setTrunk` -/

@[simp] theorem setTrunk_power (t : Nat) (u : Option TrunkUse) : (s.setTrunk t u).power = s.power := rfl
@[simp] theorem setTrunk_setup (t : Nat) (u : Option TrunkUse) : (s.setTrunk t u).setup = s.setup := rfl
@[simp] theorem setTrunk_now (t : Nat) (u : Option TrunkUse) : (s.setTrunk t u).now = s.now := rfl
@[simp] theorem setTrunk_store (t : Nat) (u : Option TrunkUse) : (s.setTrunk t u).store = s.store := rfl
@[simp] theorem setTrunk_tbu (t : Nat) (u : Option TrunkUse) : (s.setTrunk t u).tbu = s.tbu := rfl
@[simp] theorem setTrunk_bds (t : Nat) (u : Option TrunkUse) : (s.setTrunk t u).bds = s.bds := rfl
@[simp] theorem setTrunk_pgc (t : Nat) (u : Option TrunkUse) : (s.setTrunk t u).pgc = s.pgc := rfl
@[simp] theorem setTrunk_pnl (t : Nat) (u : Option TrunkUse) : (s.setTrunk t u).pnl = s.pnl := rfl
@[simp] theorem setTrunk_dsq (t : Nat) (u : Option TrunkUse) : (s.setTrunk t u).dsq = s.dsq := rfl
@[simp] theorem setTrunk_lines (t : Nat) (u : Option TrunkUse) : (s.setTrunk t u).lines = s.lines := rfl
@[simp] theorem setTrunk_field (t : Nat) (u : Option TrunkUse) : (s.setTrunk t u).field = s.field := rfl
@[simp] theorem setTrunk_ntu (t : Nat) (u : Option TrunkUse) : (s.setTrunk t u).ntu = s.ntu := rfl
@[simp] theorem setTrunk_ports (t : Nat) (u : Option TrunkUse) : (s.setTrunk t u).ports = s.ports := rfl
@[simp] theorem setTrunk_slots (t : Nat) (u : Option TrunkUse) : (s.setTrunk t u).slots = s.slots := rfl
@[simp] theorem setTrunk_fromA (t : Nat) (u : Option TrunkUse) : (s.setTrunk t u).fromA = s.fromA := rfl
@[simp] theorem setTrunk_fromB (t : Nat) (u : Option TrunkUse) : (s.setTrunk t u).fromB = s.fromB := rfl
@[simp] theorem setTrunk_restartDue (t : Nat) (u : Option TrunkUse) : (s.setTrunk t u).restartDue = s.restartDue := rfl
@[simp] theorem setTrunk_draws (t : Nat) (u : Option TrunkUse) : (s.setTrunk t u).draws = s.draws := rfl
@[simp] theorem setTrunk_pending (t : Nat) (u : Option TrunkUse) : (s.setTrunk t u).pending = s.pending := rfl

/-! ### `push` -/

@[simp] theorem push_power (w : List Work) : (s.push w).power = s.power := rfl
@[simp] theorem push_setup (w : List Work) : (s.push w).setup = s.setup := rfl
@[simp] theorem push_now (w : List Work) : (s.push w).now = s.now := rfl
@[simp] theorem push_store (w : List Work) : (s.push w).store = s.store := rfl
@[simp] theorem push_tbu (w : List Work) : (s.push w).tbu = s.tbu := rfl
@[simp] theorem push_bds (w : List Work) : (s.push w).bds = s.bds := rfl
@[simp] theorem push_pgc (w : List Work) : (s.push w).pgc = s.pgc := rfl
@[simp] theorem push_pnl (w : List Work) : (s.push w).pnl = s.pnl := rfl
@[simp] theorem push_dsq (w : List Work) : (s.push w).dsq = s.dsq := rfl
@[simp] theorem push_lines (w : List Work) : (s.push w).lines = s.lines := rfl
@[simp] theorem push_field (w : List Work) : (s.push w).field = s.field := rfl
@[simp] theorem push_ntu (w : List Work) : (s.push w).ntu = s.ntu := rfl
@[simp] theorem push_ports (w : List Work) : (s.push w).ports = s.ports := rfl
@[simp] theorem push_slots (w : List Work) : (s.push w).slots = s.slots := rfl
@[simp] theorem push_fromA (w : List Work) : (s.push w).fromA = s.fromA := rfl
@[simp] theorem push_fromB (w : List Work) : (s.push w).fromB = s.fromB := rfl
@[simp] theorem push_restartDue (w : List Work) : (s.push w).restartDue = s.restartDue := rfl
@[simp] theorem push_draws (w : List Work) : (s.push w).draws = s.draws := rfl
@[simp] theorem push_pending (w : List Work) : (s.push w).pending = s.pending := rfl

/-! ### `setLine` -/

@[simp] theorem setLine_power (l : Nat) (x : LineSt) : (s.setLine l x).power = s.power := rfl
@[simp] theorem setLine_setup (l : Nat) (x : LineSt) : (s.setLine l x).setup = s.setup := rfl
@[simp] theorem setLine_now (l : Nat) (x : LineSt) : (s.setLine l x).now = s.now := rfl
@[simp] theorem setLine_store (l : Nat) (x : LineSt) : (s.setLine l x).store = s.store := rfl
@[simp] theorem setLine_tbu (l : Nat) (x : LineSt) : (s.setLine l x).tbu = s.tbu := rfl
@[simp] theorem setLine_ztc (l : Nat) (x : LineSt) : (s.setLine l x).ztc = s.ztc := rfl
@[simp] theorem setLine_bds (l : Nat) (x : LineSt) : (s.setLine l x).bds = s.bds := rfl
@[simp] theorem setLine_pgc (l : Nat) (x : LineSt) : (s.setLine l x).pgc = s.pgc := rfl
@[simp] theorem setLine_pnl (l : Nat) (x : LineSt) : (s.setLine l x).pnl = s.pnl := rfl
@[simp] theorem setLine_dsq (l : Nat) (x : LineSt) : (s.setLine l x).dsq = s.dsq := rfl
@[simp] theorem setLine_field (l : Nat) (x : LineSt) : (s.setLine l x).field = s.field := rfl
@[simp] theorem setLine_ntu (l : Nat) (x : LineSt) : (s.setLine l x).ntu = s.ntu := rfl
@[simp] theorem setLine_ports (l : Nat) (x : LineSt) : (s.setLine l x).ports = s.ports := rfl
@[simp] theorem setLine_slots (l : Nat) (x : LineSt) : (s.setLine l x).slots = s.slots := rfl
@[simp] theorem setLine_fromA (l : Nat) (x : LineSt) : (s.setLine l x).fromA = s.fromA := rfl
@[simp] theorem setLine_fromB (l : Nat) (x : LineSt) : (s.setLine l x).fromB = s.fromB := rfl
@[simp] theorem setLine_restartDue (l : Nat) (x : LineSt) : (s.setLine l x).restartDue = s.restartDue := rfl
@[simp] theorem setLine_draws (l : Nat) (x : LineSt) : (s.setLine l x).draws = s.draws := rfl
@[simp] theorem setLine_pending (l : Nat) (x : LineSt) : (s.setLine l x).pending = s.pending := rfl

/-! ### `setField` -/

@[simp] theorem setField_power (l a : Nat) (d : FieldDev) : (s.setField l a d).power = s.power := rfl
@[simp] theorem setField_setup (l a : Nat) (d : FieldDev) : (s.setField l a d).setup = s.setup := rfl
@[simp] theorem setField_now (l a : Nat) (d : FieldDev) : (s.setField l a d).now = s.now := rfl
@[simp] theorem setField_store (l a : Nat) (d : FieldDev) : (s.setField l a d).store = s.store := rfl
@[simp] theorem setField_tbu (l a : Nat) (d : FieldDev) : (s.setField l a d).tbu = s.tbu := rfl
@[simp] theorem setField_ztc (l a : Nat) (d : FieldDev) : (s.setField l a d).ztc = s.ztc := rfl
@[simp] theorem setField_bds (l a : Nat) (d : FieldDev) : (s.setField l a d).bds = s.bds := rfl
@[simp] theorem setField_pgc (l a : Nat) (d : FieldDev) : (s.setField l a d).pgc = s.pgc := rfl
@[simp] theorem setField_pnl (l a : Nat) (d : FieldDev) : (s.setField l a d).pnl = s.pnl := rfl
@[simp] theorem setField_dsq (l a : Nat) (d : FieldDev) : (s.setField l a d).dsq = s.dsq := rfl
@[simp] theorem setField_lines (l a : Nat) (d : FieldDev) : (s.setField l a d).lines = s.lines := rfl
@[simp] theorem setField_ntu (l a : Nat) (d : FieldDev) : (s.setField l a d).ntu = s.ntu := rfl
@[simp] theorem setField_ports (l a : Nat) (d : FieldDev) : (s.setField l a d).ports = s.ports := rfl
@[simp] theorem setField_slots (l a : Nat) (d : FieldDev) : (s.setField l a d).slots = s.slots := rfl
@[simp] theorem setField_fromA (l a : Nat) (d : FieldDev) : (s.setField l a d).fromA = s.fromA := rfl
@[simp] theorem setField_fromB (l a : Nat) (d : FieldDev) : (s.setField l a d).fromB = s.fromB := rfl
@[simp] theorem setField_restartDue (l a : Nat) (d : FieldDev) : (s.setField l a d).restartDue = s.restartDue := rfl
@[simp] theorem setField_draws (l a : Nat) (d : FieldDev) : (s.setField l a d).draws = s.draws := rfl
@[simp] theorem setField_pending (l a : Nat) (d : FieldDev) : (s.setField l a d).pending = s.pending := rfl

/-! ### `setHold` -/

@[simp] theorem setHold_power (r : Region) (h : HoldState) : (s.setHold r h).power = s.power := rfl
@[simp] theorem setHold_setup (r : Region) (h : HoldState) : (s.setHold r h).setup = s.setup := rfl
@[simp] theorem setHold_now (r : Region) (h : HoldState) : (s.setHold r h).now = s.now := rfl
@[simp] theorem setHold_tbu (r : Region) (h : HoldState) : (s.setHold r h).tbu = s.tbu := rfl
@[simp] theorem setHold_ztc (r : Region) (h : HoldState) : (s.setHold r h).ztc = s.ztc := rfl
@[simp] theorem setHold_bds (r : Region) (h : HoldState) : (s.setHold r h).bds = s.bds := rfl
@[simp] theorem setHold_pgc (r : Region) (h : HoldState) : (s.setHold r h).pgc = s.pgc := rfl
@[simp] theorem setHold_pnl (r : Region) (h : HoldState) : (s.setHold r h).pnl = s.pnl := rfl
@[simp] theorem setHold_dsq (r : Region) (h : HoldState) : (s.setHold r h).dsq = s.dsq := rfl
@[simp] theorem setHold_lines (r : Region) (h : HoldState) : (s.setHold r h).lines = s.lines := rfl
@[simp] theorem setHold_field (r : Region) (h : HoldState) : (s.setHold r h).field = s.field := rfl
@[simp] theorem setHold_ntu (r : Region) (h : HoldState) : (s.setHold r h).ntu = s.ntu := rfl
@[simp] theorem setHold_ports (r : Region) (h : HoldState) : (s.setHold r h).ports = s.ports := rfl
@[simp] theorem setHold_slots (r : Region) (h : HoldState) : (s.setHold r h).slots = s.slots := rfl
@[simp] theorem setHold_fromA (r : Region) (h : HoldState) : (s.setHold r h).fromA = s.fromA := rfl
@[simp] theorem setHold_fromB (r : Region) (h : HoldState) : (s.setHold r h).fromB = s.fromB := rfl
@[simp] theorem setHold_restartDue (r : Region) (h : HoldState) : (s.setHold r h).restartDue = s.restartDue := rfl
@[simp] theorem setHold_draws (r : Region) (h : HoldState) : (s.setHold r h).draws = s.draws := rfl
@[simp] theorem setHold_pending (r : Region) (h : HoldState) : (s.setHold r h).pending = s.pending := rfl

/-! ### `setPort` -/

@[simp] theorem setPort_power (p : Port) (x : PortSt) : (s.setPort p x).power = s.power := rfl
@[simp] theorem setPort_setup (p : Port) (x : PortSt) : (s.setPort p x).setup = s.setup := rfl
@[simp] theorem setPort_now (p : Port) (x : PortSt) : (s.setPort p x).now = s.now := rfl
@[simp] theorem setPort_store (p : Port) (x : PortSt) : (s.setPort p x).store = s.store := rfl
@[simp] theorem setPort_tbu (p : Port) (x : PortSt) : (s.setPort p x).tbu = s.tbu := rfl
@[simp] theorem setPort_ztc (p : Port) (x : PortSt) : (s.setPort p x).ztc = s.ztc := rfl
@[simp] theorem setPort_bds (p : Port) (x : PortSt) : (s.setPort p x).bds = s.bds := rfl
@[simp] theorem setPort_pgc (p : Port) (x : PortSt) : (s.setPort p x).pgc = s.pgc := rfl
@[simp] theorem setPort_pnl (p : Port) (x : PortSt) : (s.setPort p x).pnl = s.pnl := rfl
@[simp] theorem setPort_dsq (p : Port) (x : PortSt) : (s.setPort p x).dsq = s.dsq := rfl
@[simp] theorem setPort_lines (p : Port) (x : PortSt) : (s.setPort p x).lines = s.lines := rfl
@[simp] theorem setPort_field (p : Port) (x : PortSt) : (s.setPort p x).field = s.field := rfl
@[simp] theorem setPort_ntu (p : Port) (x : PortSt) : (s.setPort p x).ntu = s.ntu := rfl
@[simp] theorem setPort_slots (p : Port) (x : PortSt) : (s.setPort p x).slots = s.slots := rfl
@[simp] theorem setPort_fromA (p : Port) (x : PortSt) : (s.setPort p x).fromA = s.fromA := rfl
@[simp] theorem setPort_fromB (p : Port) (x : PortSt) : (s.setPort p x).fromB = s.fromB := rfl
@[simp] theorem setPort_restartDue (p : Port) (x : PortSt) : (s.setPort p x).restartDue = s.restartDue := rfl
@[simp] theorem setPort_draws (p : Port) (x : PortSt) : (s.setPort p x).draws = s.draws := rfl
@[simp] theorem setPort_pending (p : Port) (x : PortSt) : (s.setPort p x).pending = s.pending := rfl

/-! ### `replied` -/

@[simp] theorem replied_power (p : Port) (r : Reply) : (s.replied p r).power = s.power := rfl
@[simp] theorem replied_setup (p : Port) (r : Reply) : (s.replied p r).setup = s.setup := rfl
@[simp] theorem replied_now (p : Port) (r : Reply) : (s.replied p r).now = s.now := rfl
@[simp] theorem replied_store (p : Port) (r : Reply) : (s.replied p r).store = s.store := rfl
@[simp] theorem replied_tbu (p : Port) (r : Reply) : (s.replied p r).tbu = s.tbu := rfl
@[simp] theorem replied_ztc (p : Port) (r : Reply) : (s.replied p r).ztc = s.ztc := rfl
@[simp] theorem replied_bds (p : Port) (r : Reply) : (s.replied p r).bds = s.bds := rfl
@[simp] theorem replied_pgc (p : Port) (r : Reply) : (s.replied p r).pgc = s.pgc := rfl
@[simp] theorem replied_pnl (p : Port) (r : Reply) : (s.replied p r).pnl = s.pnl := rfl
@[simp] theorem replied_dsq (p : Port) (r : Reply) : (s.replied p r).dsq = s.dsq := rfl
@[simp] theorem replied_lines (p : Port) (r : Reply) : (s.replied p r).lines = s.lines := rfl
@[simp] theorem replied_field (p : Port) (r : Reply) : (s.replied p r).field = s.field := rfl
@[simp] theorem replied_ntu (p : Port) (r : Reply) : (s.replied p r).ntu = s.ntu := rfl
@[simp] theorem replied_slots (p : Port) (r : Reply) : (s.replied p r).slots = s.slots := rfl
@[simp] theorem replied_fromA (p : Port) (r : Reply) : (s.replied p r).fromA = s.fromA := rfl
@[simp] theorem replied_fromB (p : Port) (r : Reply) : (s.replied p r).fromB = s.fromB := rfl
@[simp] theorem replied_restartDue (p : Port) (r : Reply) : (s.replied p r).restartDue = s.restartDue := rfl
@[simp] theorem replied_draws (p : Port) (r : Reply) : (s.replied p r).draws = s.draws := rfl
@[simp] theorem replied_pending (p : Port) (r : Reply) : (s.replied p r).pending = s.pending := rfl

/-! ### `raiseAt` -/

@[simp] theorem raiseAt_power (p : Port) (k : NoticeKind) (d : Detail) : (s.raiseAt p k d).power = s.power := rfl
@[simp] theorem raiseAt_setup (p : Port) (k : NoticeKind) (d : Detail) : (s.raiseAt p k d).setup = s.setup := rfl
@[simp] theorem raiseAt_now (p : Port) (k : NoticeKind) (d : Detail) : (s.raiseAt p k d).now = s.now := rfl
@[simp] theorem raiseAt_store (p : Port) (k : NoticeKind) (d : Detail) : (s.raiseAt p k d).store = s.store := rfl
@[simp] theorem raiseAt_tbu (p : Port) (k : NoticeKind) (d : Detail) : (s.raiseAt p k d).tbu = s.tbu := rfl
@[simp] theorem raiseAt_ztc (p : Port) (k : NoticeKind) (d : Detail) : (s.raiseAt p k d).ztc = s.ztc := rfl
@[simp] theorem raiseAt_bds (p : Port) (k : NoticeKind) (d : Detail) : (s.raiseAt p k d).bds = s.bds := rfl
@[simp] theorem raiseAt_pgc (p : Port) (k : NoticeKind) (d : Detail) : (s.raiseAt p k d).pgc = s.pgc := rfl
@[simp] theorem raiseAt_pnl (p : Port) (k : NoticeKind) (d : Detail) : (s.raiseAt p k d).pnl = s.pnl := rfl
@[simp] theorem raiseAt_dsq (p : Port) (k : NoticeKind) (d : Detail) : (s.raiseAt p k d).dsq = s.dsq := rfl
@[simp] theorem raiseAt_lines (p : Port) (k : NoticeKind) (d : Detail) : (s.raiseAt p k d).lines = s.lines := rfl
@[simp] theorem raiseAt_field (p : Port) (k : NoticeKind) (d : Detail) : (s.raiseAt p k d).field = s.field := rfl
@[simp] theorem raiseAt_ports (p : Port) (k : NoticeKind) (d : Detail) : (s.raiseAt p k d).ports = s.ports := rfl
@[simp] theorem raiseAt_slots (p : Port) (k : NoticeKind) (d : Detail) : (s.raiseAt p k d).slots = s.slots := rfl
@[simp] theorem raiseAt_fromA (p : Port) (k : NoticeKind) (d : Detail) : (s.raiseAt p k d).fromA = s.fromA := rfl
@[simp] theorem raiseAt_fromB (p : Port) (k : NoticeKind) (d : Detail) : (s.raiseAt p k d).fromB = s.fromB := rfl
@[simp] theorem raiseAt_restartDue (p : Port) (k : NoticeKind) (d : Detail) : (s.raiseAt p k d).restartDue = s.restartDue := rfl
@[simp] theorem raiseAt_draws (p : Port) (k : NoticeKind) (d : Detail) : (s.raiseAt p k d).draws = s.draws := rfl
@[simp] theorem raiseAt_pending (p : Port) (k : NoticeKind) (d : Detail) : (s.raiseAt p k d).pending = s.pending := rfl

/-! ### `raise` -/

@[simp] theorem raise_power (k : NoticeKind) (d : Detail) : (s.raise k d).power = s.power := rfl
@[simp] theorem raise_setup (k : NoticeKind) (d : Detail) : (s.raise k d).setup = s.setup := rfl
@[simp] theorem raise_now (k : NoticeKind) (d : Detail) : (s.raise k d).now = s.now := rfl
@[simp] theorem raise_store (k : NoticeKind) (d : Detail) : (s.raise k d).store = s.store := rfl
@[simp] theorem raise_tbu (k : NoticeKind) (d : Detail) : (s.raise k d).tbu = s.tbu := rfl
@[simp] theorem raise_ztc (k : NoticeKind) (d : Detail) : (s.raise k d).ztc = s.ztc := rfl
@[simp] theorem raise_bds (k : NoticeKind) (d : Detail) : (s.raise k d).bds = s.bds := rfl
@[simp] theorem raise_pgc (k : NoticeKind) (d : Detail) : (s.raise k d).pgc = s.pgc := rfl
@[simp] theorem raise_pnl (k : NoticeKind) (d : Detail) : (s.raise k d).pnl = s.pnl := rfl
@[simp] theorem raise_dsq (k : NoticeKind) (d : Detail) : (s.raise k d).dsq = s.dsq := rfl
@[simp] theorem raise_lines (k : NoticeKind) (d : Detail) : (s.raise k d).lines = s.lines := rfl
@[simp] theorem raise_field (k : NoticeKind) (d : Detail) : (s.raise k d).field = s.field := rfl
@[simp] theorem raise_ports (k : NoticeKind) (d : Detail) : (s.raise k d).ports = s.ports := rfl
@[simp] theorem raise_slots (k : NoticeKind) (d : Detail) : (s.raise k d).slots = s.slots := rfl
@[simp] theorem raise_fromA (k : NoticeKind) (d : Detail) : (s.raise k d).fromA = s.fromA := rfl
@[simp] theorem raise_fromB (k : NoticeKind) (d : Detail) : (s.raise k d).fromB = s.fromB := rfl
@[simp] theorem raise_restartDue (k : NoticeKind) (d : Detail) : (s.raise k d).restartDue = s.restartDue := rfl
@[simp] theorem raise_draws (k : NoticeKind) (d : Detail) : (s.raise k d).draws = s.draws := rfl
@[simp] theorem raise_pending (k : NoticeKind) (d : Detail) : (s.raise k d).pending = s.pending := rfl

/-! ### `rejudgeAt` -/

@[simp] theorem rejudgeAt_power (p : Port) : (s.rejudgeAt p).power = s.power := rfl
@[simp] theorem rejudgeAt_setup (p : Port) : (s.rejudgeAt p).setup = s.setup := rfl
@[simp] theorem rejudgeAt_now (p : Port) : (s.rejudgeAt p).now = s.now := rfl
@[simp] theorem rejudgeAt_store (p : Port) : (s.rejudgeAt p).store = s.store := rfl
@[simp] theorem rejudgeAt_tbu (p : Port) : (s.rejudgeAt p).tbu = s.tbu := rfl
@[simp] theorem rejudgeAt_ztc (p : Port) : (s.rejudgeAt p).ztc = s.ztc := rfl
@[simp] theorem rejudgeAt_bds (p : Port) : (s.rejudgeAt p).bds = s.bds := rfl
@[simp] theorem rejudgeAt_pgc (p : Port) : (s.rejudgeAt p).pgc = s.pgc := rfl
@[simp] theorem rejudgeAt_pnl (p : Port) : (s.rejudgeAt p).pnl = s.pnl := rfl
@[simp] theorem rejudgeAt_dsq (p : Port) : (s.rejudgeAt p).dsq = s.dsq := rfl
@[simp] theorem rejudgeAt_lines (p : Port) : (s.rejudgeAt p).lines = s.lines := rfl
@[simp] theorem rejudgeAt_field (p : Port) : (s.rejudgeAt p).field = s.field := rfl
@[simp] theorem rejudgeAt_ports (p : Port) : (s.rejudgeAt p).ports = s.ports := rfl
@[simp] theorem rejudgeAt_slots (p : Port) : (s.rejudgeAt p).slots = s.slots := rfl
@[simp] theorem rejudgeAt_fromA (p : Port) : (s.rejudgeAt p).fromA = s.fromA := rfl
@[simp] theorem rejudgeAt_fromB (p : Port) : (s.rejudgeAt p).fromB = s.fromB := rfl
@[simp] theorem rejudgeAt_restartDue (p : Port) : (s.rejudgeAt p).restartDue = s.restartDue := rfl
@[simp] theorem rejudgeAt_draws (p : Port) : (s.rejudgeAt p).draws = s.draws := rfl
@[simp] theorem rejudgeAt_pending (p : Port) : (s.rejudgeAt p).pending = s.pending := rfl

/-! ### `rejudge` -/

@[simp] theorem rejudge_power : (s.rejudge).power = s.power := rfl
@[simp] theorem rejudge_setup : (s.rejudge).setup = s.setup := rfl
@[simp] theorem rejudge_now : (s.rejudge).now = s.now := rfl
@[simp] theorem rejudge_store : (s.rejudge).store = s.store := rfl
@[simp] theorem rejudge_tbu : (s.rejudge).tbu = s.tbu := rfl
@[simp] theorem rejudge_ztc : (s.rejudge).ztc = s.ztc := rfl
@[simp] theorem rejudge_bds : (s.rejudge).bds = s.bds := rfl
@[simp] theorem rejudge_pgc : (s.rejudge).pgc = s.pgc := rfl
@[simp] theorem rejudge_pnl : (s.rejudge).pnl = s.pnl := rfl
@[simp] theorem rejudge_dsq : (s.rejudge).dsq = s.dsq := rfl
@[simp] theorem rejudge_lines : (s.rejudge).lines = s.lines := rfl
@[simp] theorem rejudge_field : (s.rejudge).field = s.field := rfl
@[simp] theorem rejudge_ports : (s.rejudge).ports = s.ports := rfl
@[simp] theorem rejudge_slots : (s.rejudge).slots = s.slots := rfl
@[simp] theorem rejudge_fromA : (s.rejudge).fromA = s.fromA := rfl
@[simp] theorem rejudge_fromB : (s.rejudge).fromB = s.fromB := rfl
@[simp] theorem rejudge_restartDue : (s.rejudge).restartDue = s.restartDue := rfl
@[simp] theorem rejudge_draws : (s.rejudge).draws = s.draws := rfl
@[simp] theorem rejudge_pending : (s.rejudge).pending = s.pending := rfl

/-! ### `noticed` -/

@[simp] theorem noticed_power (k : NoticeKind) (d : Detail) : (s.noticed k d).power = s.power :=
  (rejudge_power _).trans (raise_power s k d)
@[simp] theorem noticed_setup (k : NoticeKind) (d : Detail) : (s.noticed k d).setup = s.setup :=
  (rejudge_setup _).trans (raise_setup s k d)
@[simp] theorem noticed_now (k : NoticeKind) (d : Detail) : (s.noticed k d).now = s.now :=
  (rejudge_now _).trans (raise_now s k d)
@[simp] theorem noticed_store (k : NoticeKind) (d : Detail) : (s.noticed k d).store = s.store :=
  (rejudge_store _).trans (raise_store s k d)
@[simp] theorem noticed_tbu (k : NoticeKind) (d : Detail) : (s.noticed k d).tbu = s.tbu :=
  (rejudge_tbu _).trans (raise_tbu s k d)
@[simp] theorem noticed_ztc (k : NoticeKind) (d : Detail) : (s.noticed k d).ztc = s.ztc :=
  (rejudge_ztc _).trans (raise_ztc s k d)
@[simp] theorem noticed_bds (k : NoticeKind) (d : Detail) : (s.noticed k d).bds = s.bds :=
  (rejudge_bds _).trans (raise_bds s k d)
@[simp] theorem noticed_pgc (k : NoticeKind) (d : Detail) : (s.noticed k d).pgc = s.pgc :=
  (rejudge_pgc _).trans (raise_pgc s k d)
@[simp] theorem noticed_pnl (k : NoticeKind) (d : Detail) : (s.noticed k d).pnl = s.pnl :=
  (rejudge_pnl _).trans (raise_pnl s k d)
@[simp] theorem noticed_dsq (k : NoticeKind) (d : Detail) : (s.noticed k d).dsq = s.dsq :=
  (rejudge_dsq _).trans (raise_dsq s k d)
@[simp] theorem noticed_lines (k : NoticeKind) (d : Detail) : (s.noticed k d).lines = s.lines :=
  (rejudge_lines _).trans (raise_lines s k d)
@[simp] theorem noticed_field (k : NoticeKind) (d : Detail) : (s.noticed k d).field = s.field :=
  (rejudge_field _).trans (raise_field s k d)
@[simp] theorem noticed_ports (k : NoticeKind) (d : Detail) : (s.noticed k d).ports = s.ports :=
  (rejudge_ports _).trans (raise_ports s k d)
@[simp] theorem noticed_slots (k : NoticeKind) (d : Detail) : (s.noticed k d).slots = s.slots :=
  (rejudge_slots _).trans (raise_slots s k d)
@[simp] theorem noticed_fromA (k : NoticeKind) (d : Detail) : (s.noticed k d).fromA = s.fromA :=
  (rejudge_fromA _).trans (raise_fromA s k d)
@[simp] theorem noticed_fromB (k : NoticeKind) (d : Detail) : (s.noticed k d).fromB = s.fromB :=
  (rejudge_fromB _).trans (raise_fromB s k d)
@[simp] theorem noticed_restartDue (k : NoticeKind) (d : Detail) : (s.noticed k d).restartDue = s.restartDue :=
  (rejudge_restartDue _).trans (raise_restartDue s k d)
@[simp] theorem noticed_draws (k : NoticeKind) (d : Detail) : (s.noticed k d).draws = s.draws :=
  (rejudge_draws _).trans (raise_draws s k d)
@[simp] theorem noticed_pending (k : NoticeKind) (d : Detail) : (s.noticed k d).pending = s.pending :=
  (rejudge_pending _).trans (raise_pending s k d)

/-! ### `numberGiven` -/

@[simp] theorem numberGiven_power (job num : Nat) : (s.numberGiven job num).power = s.power := rfl
@[simp] theorem numberGiven_setup (job num : Nat) : (s.numberGiven job num).setup = s.setup := rfl
@[simp] theorem numberGiven_now (job num : Nat) : (s.numberGiven job num).now = s.now := rfl
@[simp] theorem numberGiven_store (job num : Nat) : (s.numberGiven job num).store = s.store := rfl
@[simp] theorem numberGiven_tbu (job num : Nat) : (s.numberGiven job num).tbu = s.tbu := rfl
@[simp] theorem numberGiven_ztc (job num : Nat) : (s.numberGiven job num).ztc = s.ztc := rfl
@[simp] theorem numberGiven_pgc (job num : Nat) : (s.numberGiven job num).pgc = s.pgc := rfl
@[simp] theorem numberGiven_pnl (job num : Nat) : (s.numberGiven job num).pnl = s.pnl := rfl
@[simp] theorem numberGiven_dsq (job num : Nat) : (s.numberGiven job num).dsq = s.dsq := rfl
@[simp] theorem numberGiven_lines (job num : Nat) : (s.numberGiven job num).lines = s.lines := rfl
@[simp] theorem numberGiven_field (job num : Nat) : (s.numberGiven job num).field = s.field := rfl
@[simp] theorem numberGiven_ntu (job num : Nat) : (s.numberGiven job num).ntu = s.ntu := rfl
@[simp] theorem numberGiven_ports (job num : Nat) : (s.numberGiven job num).ports = s.ports := rfl
@[simp] theorem numberGiven_slots (job num : Nat) : (s.numberGiven job num).slots = s.slots := rfl
@[simp] theorem numberGiven_fromA (job num : Nat) : (s.numberGiven job num).fromA = s.fromA := rfl
@[simp] theorem numberGiven_fromB (job num : Nat) : (s.numberGiven job num).fromB = s.fromB := rfl
@[simp] theorem numberGiven_restartDue (job num : Nat) : (s.numberGiven job num).restartDue = s.restartDue := rfl
@[simp] theorem numberGiven_draws (job num : Nat) : (s.numberGiven job num).draws = s.draws := rfl
@[simp] theorem numberGiven_pending (job num : Nat) : (s.numberGiven job num).pending = s.pending := rfl

/-! ### `updatePart` -/

@[simp] theorem updatePart_power (n z : Nat) (f : Part → Part) : (s.updatePart n z f).power = s.power := rfl
@[simp] theorem updatePart_setup (n z : Nat) (f : Part → Part) : (s.updatePart n z f).setup = s.setup := rfl
@[simp] theorem updatePart_now (n z : Nat) (f : Part → Part) : (s.updatePart n z f).now = s.now := rfl
@[simp] theorem updatePart_store (n z : Nat) (f : Part → Part) : (s.updatePart n z f).store = s.store := rfl
@[simp] theorem updatePart_tbu (n z : Nat) (f : Part → Part) : (s.updatePart n z f).tbu = s.tbu := rfl
@[simp] theorem updatePart_ztc (n z : Nat) (f : Part → Part) : (s.updatePart n z f).ztc = s.ztc := rfl
@[simp] theorem updatePart_pgc (n z : Nat) (f : Part → Part) : (s.updatePart n z f).pgc = s.pgc := rfl
@[simp] theorem updatePart_pnl (n z : Nat) (f : Part → Part) : (s.updatePart n z f).pnl = s.pnl := rfl
@[simp] theorem updatePart_dsq (n z : Nat) (f : Part → Part) : (s.updatePart n z f).dsq = s.dsq := rfl
@[simp] theorem updatePart_lines (n z : Nat) (f : Part → Part) : (s.updatePart n z f).lines = s.lines := rfl
@[simp] theorem updatePart_field (n z : Nat) (f : Part → Part) : (s.updatePart n z f).field = s.field := rfl
@[simp] theorem updatePart_ntu (n z : Nat) (f : Part → Part) : (s.updatePart n z f).ntu = s.ntu := rfl
@[simp] theorem updatePart_ports (n z : Nat) (f : Part → Part) : (s.updatePart n z f).ports = s.ports := rfl
@[simp] theorem updatePart_slots (n z : Nat) (f : Part → Part) : (s.updatePart n z f).slots = s.slots := rfl
@[simp] theorem updatePart_fromA (n z : Nat) (f : Part → Part) : (s.updatePart n z f).fromA = s.fromA := rfl
@[simp] theorem updatePart_fromB (n z : Nat) (f : Part → Part) : (s.updatePart n z f).fromB = s.fromB := rfl
@[simp] theorem updatePart_restartDue (n z : Nat) (f : Part → Part) : (s.updatePart n z f).restartDue = s.restartDue := rfl
@[simp] theorem updatePart_draws (n z : Nat) (f : Part → Part) : (s.updatePart n z f).draws = s.draws := rfl
@[simp] theorem updatePart_pending (n z : Nat) (f : Part → Part) : (s.updatePart n z f).pending = s.pending := rfl

/-! ### `updatePage` -/

@[simp] theorem updatePage_power (n : Nat) (f : Page → Page) : (s.updatePage n f).power = s.power := rfl
@[simp] theorem updatePage_setup (n : Nat) (f : Page → Page) : (s.updatePage n f).setup = s.setup := rfl
@[simp] theorem updatePage_now (n : Nat) (f : Page → Page) : (s.updatePage n f).now = s.now := rfl
@[simp] theorem updatePage_store (n : Nat) (f : Page → Page) : (s.updatePage n f).store = s.store := rfl
@[simp] theorem updatePage_tbu (n : Nat) (f : Page → Page) : (s.updatePage n f).tbu = s.tbu := rfl
@[simp] theorem updatePage_ztc (n : Nat) (f : Page → Page) : (s.updatePage n f).ztc = s.ztc := rfl
@[simp] theorem updatePage_bds (n : Nat) (f : Page → Page) : (s.updatePage n f).bds = s.bds := rfl
@[simp] theorem updatePage_pnl (n : Nat) (f : Page → Page) : (s.updatePage n f).pnl = s.pnl := rfl
@[simp] theorem updatePage_dsq (n : Nat) (f : Page → Page) : (s.updatePage n f).dsq = s.dsq := rfl
@[simp] theorem updatePage_lines (n : Nat) (f : Page → Page) : (s.updatePage n f).lines = s.lines := rfl
@[simp] theorem updatePage_field (n : Nat) (f : Page → Page) : (s.updatePage n f).field = s.field := rfl
@[simp] theorem updatePage_ntu (n : Nat) (f : Page → Page) : (s.updatePage n f).ntu = s.ntu := rfl
@[simp] theorem updatePage_ports (n : Nat) (f : Page → Page) : (s.updatePage n f).ports = s.ports := rfl
@[simp] theorem updatePage_slots (n : Nat) (f : Page → Page) : (s.updatePage n f).slots = s.slots := rfl
@[simp] theorem updatePage_fromA (n : Nat) (f : Page → Page) : (s.updatePage n f).fromA = s.fromA := rfl
@[simp] theorem updatePage_fromB (n : Nat) (f : Page → Page) : (s.updatePage n f).fromB = s.fromB := rfl
@[simp] theorem updatePage_restartDue (n : Nat) (f : Page → Page) : (s.updatePage n f).restartDue = s.restartDue := rfl
@[simp] theorem updatePage_draws (n : Nat) (f : Page → Page) : (s.updatePage n f).draws = s.draws := rfl
@[simp] theorem updatePage_pending (n : Nat) (f : Page → Page) : (s.updatePage n f).pending = s.pending := rfl

/-! ### What the accessors read -/

@[simp] theorem zoneAt_setZone (z k : Nat) (r : ZoneRec) : (s.setZone z r).zoneAt k = if k = z then r else s.zoneAt k :=
  tget_tset _ _ _ _ _

@[simp] theorem trunkAt_setTrunk (t k : Nat) (u : Option TrunkUse) :
    (s.setTrunk t u).trunkAt k = if k = t then u else s.trunkAt k := tget_tset _ _ _ _ _

@[simp] theorem zoneAt_setTrunk (t k : Nat) (u : Option TrunkUse) : (s.setTrunk t u).zoneAt k = s.zoneAt k := rfl

@[simp] theorem trunkAt_setZone (z k : Nat) (r : ZoneRec) : (s.setZone z r).trunkAt k = s.trunkAt k := rfl

@[simp] theorem zoneAt_push (w : List Work) (k : Nat) : (s.push w).zoneAt k = s.zoneAt k := rfl

@[simp] theorem trunkAt_push (w : List Work) (k : Nat) : (s.push w).trunkAt k = s.trunkAt k := rfl

@[simp] theorem lineAt_setLine (l k : Nat) (x : LineSt) : (s.setLine l x).lineAt k = if k = l then x else s.lineAt k :=
  tget_tset _ _ _ _ _

@[simp] theorem recAt_setRec (x : LineSt) (a k : Nat) (r : DevRec) :
    (x.setRec a r).recAt k = if k = a then r else x.recAt k := tget_tset _ _ _ _ _

/-- Two addresses of 1 to 24 on lines of the controller have one place only where they are one. -/
theorem devIdx_inj {l k a b : Nat} (ha : 1 ≤ a ∧ a ≤ 24) (hb : 1 ≤ b ∧ b ≤ 24) (h : devIdx l a = devIdx k b) : l = k ∧ a = b := by
  unfold devIdx at h
  omega

@[simp] theorem fieldAt_setField (l a : Nat) (d : FieldDev) : (s.setField l a d).fieldAt l a = d := tget_tset_same _ _ _ _

theorem fieldAt_setField_other {l a k b : Nat} (d : FieldDev) (ha : 1 ≤ a ∧ a ≤ 24) (hb : 1 ≤ b ∧ b ≤ 24) (h : ¬(k = l ∧ b = a)) :
    (s.setField l a d).fieldAt k b = s.fieldAt k b := tget_tset_other _ _ _ fun e => h (devIdx_inj hb ha e)

theorem allRegions_regionIdx (r : Region) : allRegions[regionIdx r]? = some r := by cases r <;> rfl

theorem regionIdx_inj {r q : Region} (h : regionIdx r = regionIdx q) : r = q :=
  Option.some.inj ((allRegions_regionIdx r).symm.trans ((congrArg (allRegions[·]?) h).trans (allRegions_regionIdx q)))

@[simp] theorem holdAt_setHold (r q : Region) (h : HoldState) : (s.setHold r h).holdAt q = if q = r then h else s.holdAt q := by
  refine (tget_tset _ _ _ _ _).trans ?_
  by_cases e : q = r
  · simp [e]
  · rw [if_neg e, if_neg fun g => e (regionIdx_inj g)]
    rfl

@[simp] theorem setHold_live (r : Region) (h : HoldState) : (s.setHold r h).store.live = s.store.live := rfl
@[simp] theorem setHold_staged (r : Region) (h : HoldState) : (s.setHold r h).store.staged = s.store.staged := rfl
@[simp] theorem setHold_images (r : Region) (h : HoldState) : (s.setHold r h).store.images = s.store.images := rfl
@[simp] theorem setHold_imageGood (r : Region) (h : HoldState) : (s.setHold r h).store.imageGood = s.store.imageGood := rfl

@[simp] theorem port_setPort_same (p : Port) (x : PortSt) : (s.setPort p x).port p = x := PerPort.get_set_same _ _ _

theorem port_setPort_other {p q : Port} (x : PortSt) (h : q ≠ p) : (s.setPort p x).port q = s.port q :=
  PerPort.get_set_other _ _ h

@[simp] theorem setPort_port (p : Port) : s.setPort p (s.port p) = s := by
  unfold State.setPort State.port
  rw [PerPort.set_get]

@[simp] theorem port_replied_same (p : Port) (r : Reply) : ((s.replied p r).port p).reply = some r := by
  simp [State.replied]

theorem port_replied_other {p q : Port} (r : Reply) (h : q ≠ p) : (s.replied p r).port q = s.port q :=
  port_setPort_other s _ h

/-! ### Notice records -/

theorem allKinds_kindIdx (k : NoticeKind) : allKinds[kindIdx k]? = some k := by cases k <;> rfl

theorem kindIdx_inj {j k : NoticeKind} (h : kindIdx j = kindIdx k) : j = k :=
  Option.some.inj ((allKinds_kindIdx j).symm.trans ((congrArg (allKinds[·]?) h).trans (allKinds_kindIdx k)))

@[simp] theorem recAt_setRec_kind (n : NtuPort) (j k : NoticeKind) (r : NoticeRec) :
    (n.setRec j r).recAt k = if k = j then r else n.recAt k := by
  refine (tget_tset _ _ _ _ _).trans ?_
  by_cases e : k = j
  · simp [e]
  · rw [if_neg e, if_neg fun g => e (kindIdx_inj g)]
    rfl

@[simp] theorem setRec_quiet (n : NtuPort) (j : NoticeKind) (r : NoticeRec) : (n.setRec j r).quiet = n.quiet := rfl
@[simp] theorem setRec_mode (n : NtuPort) (j : NoticeKind) (r : NoticeRec) : (n.setRec j r).mode = n.mode := rfl

/-- R182, once: taking an occurrence changes nothing while the kind is quiet, else that kind's record alone. -/
theorem take_recAt (n : NtuPort) (j k : NoticeKind) (d : Detail) :
    (n.take j d).recAt k =
      if k = j ∧ n.quiet.contains j = false then { flag := true, count := min ((n.recAt j).count + 1) 255, detail := some d }
      else n.recAt k := by
  unfold NtuPort.take
  cases h : n.quiet.contains j
  · by_cases e : k = j <;> simp [e]
  · simp

@[simp] theorem take_quiet (n : NtuPort) (j : NoticeKind) (d : Detail) : (n.take j d).quiet = n.quiet := by
  unfold NtuPort.take
  split <;> rfl

@[simp] theorem take_mode (n : NtuPort) (j : NoticeKind) (d : Detail) : (n.take j d).mode = n.mode := by
  unfold NtuPort.take
  split <;> rfl

@[simp] theorem take_attention (n : NtuPort) (j : NoticeKind) (d : Detail) : (n.take j d).attention = n.attention := by
  unfold NtuPort.take
  split <;> rfl

end Sys2Proof.Machine
end

