-- ==== Sys2Proof/Laws/Ending.lean ====
section
/-! SUPPORT. What the end of a command does: `settle` empties the agenda and lets ended pages leave, `rejudge` sets the attention
lines, and both leave a resting state as it is; and what `finish`, `event`, `line`, `request` and `planRequest` can answer. -/

set_option autoImplicit false

namespace Sys2Proof.Machine

open Sys2Proof

/-! ### Attention lines -/

theorem rejudgeAt_recs (s : State) (p q : Port) : ((s.rejudgeAt p).ntu.get q).recs = (s.ntu.get q).recs := by
  cases p <;> cases q <;> rfl

@[simp] theorem rejudgeAt_calls (s : State) (p q : Port) : (s.rejudgeAt p).calls q = s.calls q := by
  cases p <;> cases q <;> rfl

@[simp] theorem rejudge_calls (s : State) (q : Port) : s.rejudge.calls q = s.calls q := by simp [State.rejudge]

/-- After `rejudge` the attention lines stand as R183 says. -/
theorem rejudge_attentionLaw (s : State) : s.rejudge.attentionLaw := by
  intro p
  rw [rejudge_calls]
  cases p
  · rfl
  · exact rejudgeAt_calls s .a .b

theorem rejudgeAt_eq_self {s : State} {p : Port} (h : (s.ntu.get p).attention = s.calls p) : s.rejudgeAt p = s := by
  unfold State.rejudgeAt
  rw [← h]
  show { s with ntu := s.ntu.set p (s.ntu.get p) } = s
  rw [PerPort.set_get]

/-- `rejudge` changes nothing where the attention lines stand right already. -/
theorem rejudge_eq_self {s : State} (h : s.attentionLaw) : s.rejudge = s := by
  unfold State.rejudge
  rw [rejudgeAt_eq_self (h .a), rejudgeAt_eq_self (h .b)]

@[simp] theorem rejudge_rest (s : State) : s.rejudge.rest = s.rest := rfl
@[simp] theorem rejudge_base (s : State) : s.rejudge.base = s.base := rfl

/-- The notice records of a port are not changed by `rejudge`. -/
@[simp] theorem rejudge_recs (s : State) (q : Port) : (s.rejudge.ntu.get q).recs = (s.ntu.get q).recs := by
  unfold State.rejudge
  rw [rejudgeAt_recs, rejudgeAt_recs]

/-! ### The agenda and the ended pages -/


theorem raiseEnds_ztc (qs : List Page) (s : State) :
    (qs.foldl State.tellEnded s).ztc = s.ztc := by
  induction qs generalizing s with
  | nil => rfl
  | cons q qs ih =>
    refine (ih _).trans ?_
    unfold State.tellEnded
    split <;> rfl

theorem raiseEnds_pgc (qs : List Page) (s : State) :
    (qs.foldl State.tellEnded s).pgc = s.pgc := by
  induction qs generalizing s with
  | nil => rfl
  | cons q qs ih =>
    refine (ih _).trans ?_
    unfold State.tellEnded
    split <;> rfl

theorem finalizePages_agenda (s : State) : s.finalizePages.ztc = s.ztc := raiseEnds_ztc s.pgc.queue s

/-- After `finalizePages` the queue is what it was, less the pages that had ended. -/
theorem finalizePages_queue (s : State) : s.finalizePages.pgc.queue = s.pgc.queue.filter fun p => !p.hasEnded := by
  unfold State.finalizePages
  dsimp only
  rw [raiseEnds_pgc]

theorem finalizePages_noneEnded (s : State) : (s.finalizePages.pgc.queue.all fun p => !p.hasEnded) = true := by
  rw [finalizePages_queue]
  simp

theorem raiseEnds_eq_self {qs : List Page} (h : (qs.all fun p => !p.hasEnded) = true) (s : State) :
    qs.foldl State.tellEnded s = s := by
  induction qs generalizing s with
  | nil => rfl
  | cons q qs ih =>
    simp only [List.all_cons, Bool.and_eq_true] at h
    have hq : s.tellEnded q = s := by
      have := h.1
      unfold Page.hasEnded at this
      unfold State.tellEnded
      split
      · simp_all
      · rfl
    simp only [List.foldl_cons, hq]
    exact ih h.2 s

/-- Where no page has ended there is nothing to let leave. -/
theorem finalizePages_eq_self {s : State} (h : (s.pgc.queue.all fun p => !p.hasEnded) = true) : s.finalizePages = s := by
  unfold State.finalizePages
  rw [raiseEnds_eq_self h]
  have : (s.pgc.queue.filter fun p => !p.hasEnded) = s.pgc.queue :=
    List.filter_eq_self.mpr fun p hp => List.all_eq_true.mp h p hp
  dsimp only
  rw [this]

theorem settleFor_law (k : Nat) (s : State) :
    (settleFor k s).ztc.agenda = [] ∧ ((settleFor k s).pgc.queue.all fun p => !p.hasEnded) = true := by
  induction k generalizing s with
  | zero =>
    unfold settleFor
    exact ⟨by rw [finalizePages_agenda], finalizePages_noneEnded _⟩
  | succ k ih =>
    unfold settleFor
    split
    · rename_i h
      exact ⟨by rw [finalizePages_agenda, h], finalizePages_noneEnded _⟩
    · exact ih _

/-- `settle` leaves no work over and no ended page in the queue. -/
theorem settle_law (s : State) : s.settle.ztc.agenda = [] ∧ (s.settle.pgc.queue.all fun p => !p.hasEnded) = true :=
  settleFor_law 4096 s

theorem settleFor_idle (k : Nat) {s : State} (h : s.ztc.agenda = []) : settleFor k s = s.finalizePages := by
  cases k with
  | zero =>
    unfold settleFor
    congr 1
    obtain ⟨_, _, _, _, _, ztc, _⟩ := s
    obtain ⟨_, _, _, _, _⟩ := ztc
    simp_all
  | succ k =>
    unfold settleFor
    rw [h]

/-- With an empty agenda `settle` only lets ended pages leave. -/
theorem settle_idle {s : State} (h : s.ztc.agenda = []) : s.settle = s.finalizePages := settleFor_idle 4096 h

/-- With an empty agenda and no ended page `settle` changes nothing. -/
theorem settle_eq_self {s : State} (h : s.ztc.agenda = []) (g : (s.pgc.queue.all fun p => !p.hasEnded) = true) :
    s.settle = s := by rw [settle_idle h, finalizePages_eq_self g]

/-- The law of the states between commands holds after every command that ends with `finish`. -/
theorem finish_restingLaw {s t : State} (h : finish s = .next t) : t.restingLaw := by
  unfold finish at h
  cases h
  exact ⟨(settle_law s).1, (settle_law s).2, rejudge_attentionLaw _⟩

theorem finish_base {s t : State} (h : finish s = .next t) : t.base = s.base := by
  unfold finish at h
  cases h
  simp

theorem finish_rest {s t : State} (h : finish s = .next t) : t.rest = s.rest := by
  unfold finish at h
  cases h
  simp

/-- A resting state is left as it is by `finish`. -/
theorem finish_eq_self {s : State} (h : s.restingLaw) : finish s = .next s := by
  unfold finish
  rw [settle_eq_self h.1 h.2.1, rejudge_eq_self h.2.2]

/-! ### What a command can answer -/

/-- With power an event ends with `finish` of what it does; without, nothing happens. -/
theorem event_powered {s : State} (f : State → State) (h : s.power = true) : event s f = finish (f s) := by simp [event, h]

theorem event_unpowered {s : State} (f : State → State) (h : s.power = false) : event s f = .next s := by simp [event, h]

/-- A free port that reads lines takes the line. -/
theorem line_free {p : Port} {s : State} (read : State → State) (h : s.reads = true) (g : (s.port p).reply = none) :
    line p s read = finish (read s) := by simp [line, h, g]

/-- A port with a reply in progress owes NO BUSY (R171). -/
theorem line_busy {p : Port} {s : State} (read : State → State) (h : s.reads = true) (g : (s.port p).reply.isSome = true) :
    line p s read = finish (s.oweBusy p) := by
  unfold line
  rw [h, g]
  rfl

theorem line_deaf {p : Port} {s : State} (read : State → State) (h : s.reads = false) : line p s read = .next s := by
  simp [line, h]

/-- An allowed request is answered by its block. -/
theorem request_allowed {p : Port} {op : Fin 16} {kw : Keyword} {min : OpClass} {s : State} (body : State → State × Reply)
    (h : s.reads = true) (g : (s.port p).reply = none) (c : s.classAllows p op min = true) :
    request p op kw min s body = finish ((body s).1.respond p op kw none (body s).2) := by
  unfold request
  rw [line_free _ h g]
  simp [c]

/-- A class that does not allow a request is refused NO CLASS (R170, R172). -/
theorem request_refused {p : Port} {op : Fin 16} {kw : Keyword} {min : OpClass} {s : State} (body : State → State × Reply)
    (h : s.reads = true) (g : (s.port p).reply = none) (c : s.classAllows p op min = false) :
    request p op kw min s body = finish (s.respond p op kw none (.no .cls)) := by
  unfold request
  rw [line_free _ h g]
  simp [c]

/-- A request of the plan that class and rights allow is answered by the store. -/
theorem planRequest_allowed {p : Port} {op : Fin 16} {kw : Keyword} {min : OpClass} {r : Region} {needsEdit : Bool} {s : State}
    (body : State → State × Reply) (c : s.classAllows p op min = true) (g : rightsAllow needsEdit (s.rights p r) = true) :
    planRequest p op kw min r needsEdit s body = (body s).1.respond p op kw (some r) (body s).2 := by
  unfold planRequest
  simp [c, g]

/-- A reply that is no class or rights refusal leaves the capture alone. -/
theorem respond_plain {s : State} {p : Port} {op : Fin 16} {kw : Keyword} {region : Option Region} {r : Reply}
    (h : r.access? = none) : s.respond p op kw region r = s.setPort p { s.port p with reply := some r } := by
  unfold State.respond
  rw [h]
  rfl

theorem finish_next (s : State) : ∃ t, finish s = .next t := ⟨_, rfl⟩

theorem event_next (s : State) (f : State → State) : ∃ t, event s f = .next t := by
  unfold event
  split
  · exact finish_next _
  · exact ⟨_, rfl⟩

theorem line_next (p : Port) (s : State) (f : State → State) : ∃ t, line p s f = .next t := by
  unfold line
  split
  · exact ⟨_, rfl⟩
  · split <;> exact finish_next _

theorem request_next (p : Port) (op : Fin 16) (kw : Keyword) (m : OpClass) (s : State) (f : State → State × Reply) :
    ∃ t, request p op kw m s f = .next t := line_next p s _

theorem event_restingLaw {s t : State} {f : State → State} (hs : s.restingLaw) (h : event s f = .next t) : t.restingLaw := by
  unfold event at h
  split at h
  · exact finish_restingLaw h
  · cases h
    exact hs

theorem line_restingLaw {p : Port} {s t : State} {f : State → State} (hs : s.restingLaw) (h : line p s f = .next t) :
    t.restingLaw := by
  unfold line at h
  split at h
  · cases h
    exact hs
  · split at h <;> exact finish_restingLaw h

end Sys2Proof.Machine
end

