-- ==== Sys2Proof/Laws/JobFrames.lean ====
section
/-! SUPPORT. No operation of Machine/Zones.lean or Machine/Trunks.lean adds a job to the Bell Ready Queue or changes its key, date or
number: the jobs left are some of those before, in their order, one lemma for each operation. These are the frames of the law of
the Bell Ready Queue (R124). -/

set_option autoImplicit false
set_option linter.unusedTactic false
set_option linter.unreachableTactic false

namespace Sys2Proof.Machine

open Sys2Proof

/-- The jobs of the Bell Ready Queue by key, date and number, in queue order. -/
def State.jobIds (s : State) : List (EntryKey × Nat × Nat) := s.bds.queue.map fun j => (j.key, j.day, j.num)

/-- The Bell Ready Queue holds some of these jobs, in their order. -/
def State.jobsIn (s : State) (ks : List (EntryKey × Nat × Nat)) : Prop := s.jobIds.Sublist ks

variable {ks : List (EntryKey × Nat × Nat)}

theorem jobs_self (s : State) : s.jobsIn s.jobIds := List.Sublist.refl _

theorem jobs_foldl {α : Type} {f : State → α → State} (hf : ∀ s a, s.jobsIn ks → (f s a).jobsIn ks) (xs : List α) (s : State)
    (h : s.jobsIn ks) : (xs.foldl f s).jobsIn ks := by
  induction xs generalizing s with
  | nil => exact h
  | cons x xs ih => exact ih (f s x) (hf s x h)

theorem jobs_ztc (s : State) (z : Ztc) (h : s.jobsIn ks) : ({ s with ztc := z } : State).jobsIn ks := h
theorem jobs_pages (s : State) (g : Pgc) (h : s.jobsIn ks) : ({ s with pgc := g } : State).jobsIn ks := h
theorem jobs_session (s : State) (d : Dsq) (h : s.jobsIn ks) : ({ s with dsq := d } : State).jobsIn ks := h
theorem jobs_lines (s : State) (t : Table LineSt) (h : s.jobsIn ks) : ({ s with lines := t } : State).jobsIn ks := h
theorem jobs_ntu (s : State) (n : PerPort NtuPort) (h : s.jobsIn ks) : ({ s with ntu := n } : State).jobsIn ks := h
theorem jobs_setZone (s : State) (z : Nat) (r : ZoneRec) (h : s.jobsIn ks) : (s.setZone z r).jobsIn ks := h
theorem jobs_setTrunk (s : State) (t : Nat) (u : Option TrunkUse) (h : s.jobsIn ks) : (s.setTrunk t u).jobsIn ks := h
theorem jobs_setLine (s : State) (l : Nat) (x : LineSt) (h : s.jobsIn ks) : (s.setLine l x).jobsIn ks := h
theorem jobs_push (s : State) (w : List Work) (h : s.jobsIn ks) : (s.push w).jobsIn ks := h

theorem jobs_raiseAt (s : State) (p : Port) (k : NoticeKind) (d : Detail) (h : s.jobsIn ks) : (s.raiseAt p k d).jobsIn ks := by
  cases p <;> exact h

theorem jobs_raise (s : State) (k : NoticeKind) (d : Detail) (h : s.jobsIn ks) : (s.raise k d).jobsIn ks :=
  jobs_raiseAt _ _ _ _ (jobs_raiseAt _ _ _ _ h)

/-- A change of job records that keeps what they are known by. -/
theorem jobs_map (s : State) (b : Bds) (f : Job → Job) (hb : b.queue = s.bds.queue.map f)
    (hf : ∀ j, (f j).key = j.key ∧ (f j).day = j.day ∧ (f j).num = j.num) (h : s.jobsIn ks) :
    ({ s with bds := b } : State).jobsIn ks := by
  have e : (({ s with bds := b } : State)).jobIds = s.jobIds := by
    simp only [State.jobIds, hb, List.map_map]
    exact List.map_congr_left fun j _ => by simp [hf j]
  unfold State.jobsIn
  rw [e]
  exact h

/-! ### Machine/Zones.lean -/

theorem jobs_output (s : State) (z : Nat) (alarm : Bool) (h : s.jobsIn ks) : (State.output s z alarm).jobsIn ks := by
  unfold State.output
  repeat' (first | with_reducible assumption | split | dsimp only | (with_reducible refine jobs_foldl (fun s a h => ?_) _ _ ?_) | with_reducible apply jobs_setLine | with_reducible apply jobs_ntu | with_reducible apply jobs_lines | with_reducible apply jobs_session | with_reducible apply jobs_pages | with_reducible apply jobs_ztc)

theorem jobs_setWanted (s : State) (z : Nat) (bell trunk : Option Nat) (h : s.jobsIn ks) : (State.setWanted s z bell trunk).jobsIn ks := by
  unfold State.setWanted
  repeat' (first | with_reducible assumption | split | dsimp only | (with_reducible refine jobs_foldl (fun s a h => ?_) _ _ ?_) | with_reducible apply jobs_output | with_reducible apply jobs_setZone | with_reducible apply jobs_ntu | with_reducible apply jobs_lines | with_reducible apply jobs_session | with_reducible apply jobs_pages | with_reducible apply jobs_ztc)

theorem jobs_updatePart (s : State) (n z : Nat) (f : Part → Part) (h : s.jobsIn ks) : (State.updatePart s n z f).jobsIn ks :=
  jobs_map s _ (fun j => if j.num = n then j.update z f else j) rfl (fun j => by split <;> exact ⟨rfl, rfl, rfl⟩) h

theorem jobs_leaveJobs (s : State) (h : s.jobsIn ks) : (State.leaveJobs s).jobsIn ks :=
  (List.filter_sublist.map _).trans h

theorem jobs_countDrillDrop (s : State) (h : s.jobsIn ks) : (State.countDrillDrop s).jobsIn ks := by
  unfold State.countDrillDrop
  repeat' (first | with_reducible assumption | split | dsimp only | (with_reducible refine jobs_foldl (fun s a h => ?_) _ _ ?_) | with_reducible apply jobs_ntu | with_reducible apply jobs_lines | with_reducible apply jobs_session | with_reducible apply jobs_pages | with_reducible apply jobs_ztc)

theorem jobs_dropPart (s : State) (n z : Nat) (r : DropReason) (h : s.jobsIn ks) : (State.dropPart s n z r).jobsIn ks := by
  unfold State.dropPart
  repeat' (first | with_reducible assumption | split | dsimp only | (with_reducible refine jobs_foldl (fun s a h => ?_) _ _ ?_) | with_reducible apply jobs_countDrillDrop | with_reducible apply jobs_leaveJobs | with_reducible apply jobs_updatePart | with_reducible apply jobs_raise | with_reducible apply jobs_ntu | with_reducible apply jobs_lines | with_reducible apply jobs_session | with_reducible apply jobs_pages | with_reducible apply jobs_ztc)

theorem jobs_donePart (s : State) (n z : Nat) (h : s.jobsIn ks) : (State.donePart s n z).jobsIn ks := by
  unfold State.donePart
  repeat' (first | with_reducible assumption | split | dsimp only | (with_reducible refine jobs_foldl (fun s a h => ?_) _ _ ?_) | with_reducible apply jobs_leaveJobs | with_reducible apply jobs_updatePart | with_reducible apply jobs_ntu | with_reducible apply jobs_lines | with_reducible apply jobs_session | with_reducible apply jobs_pages | with_reducible apply jobs_ztc)

theorem jobs_tellDeferred (s : State) (n z since : Nat) (r : DeferReason) (h : s.jobsIn ks) : (State.tellDeferred s n z since r).jobsIn ks := by
  unfold State.tellDeferred
  repeat' (first | with_reducible assumption | split | dsimp only | (with_reducible refine jobs_foldl (fun s a h => ?_) _ _ ?_) | with_reducible apply jobs_updatePart | with_reducible apply jobs_ntu | with_reducible apply jobs_lines | with_reducible apply jobs_session | with_reducible apply jobs_pages | with_reducible apply jobs_ztc)

theorem jobs_updatePage (s : State) (n : Nat) (f : Page → Page) (h : s.jobsIn ks) : (State.updatePage s n f).jobsIn ks := by
  unfold State.updatePage
  repeat' (first | with_reducible assumption | split | dsimp only | (with_reducible refine jobs_foldl (fun s a h => ?_) _ _ ?_) | with_reducible apply jobs_ntu | with_reducible apply jobs_lines | with_reducible apply jobs_session | with_reducible apply jobs_pages | with_reducible apply jobs_ztc)

theorem jobs_pageLoses (s : State) (n z : Nat) (r : LossReason) (h : s.jobsIn ks) : (State.pageLoses s n z r).jobsIn ks := by
  unfold State.pageLoses
  repeat' (first | with_reducible assumption | split | dsimp only | (with_reducible refine jobs_foldl (fun s a h => ?_) _ _ ?_) | with_reducible apply jobs_updatePage | with_reducible apply jobs_ntu | with_reducible apply jobs_lines | with_reducible apply jobs_session | with_reducible apply jobs_pages | with_reducible apply jobs_ztc)

theorem jobs_pageSuspended (s : State) (n z : Nat) (h : s.jobsIn ks) : (State.pageSuspended s n z).jobsIn ks := by
  unfold State.pageSuspended
  repeat' (first | with_reducible assumption | split | dsimp only | (with_reducible refine jobs_foldl (fun s a h => ?_) _ _ ?_) | with_reducible apply jobs_updatePage | with_reducible apply jobs_ntu | with_reducible apply jobs_lines | with_reducible apply jobs_session | with_reducible apply jobs_pages | with_reducible apply jobs_ztc)

theorem jobs_pageReturned (s : State) (n z : Nat) (h : s.jobsIn ks) : (State.pageReturned s n z).jobsIn ks := by
  unfold State.pageReturned
  repeat' (first | with_reducible assumption | split | dsimp only | (with_reducible refine jobs_foldl (fun s a h => ?_) _ _ ?_) | with_reducible apply jobs_updatePage | with_reducible apply jobs_ntu | with_reducible apply jobs_lines | with_reducible apply jobs_session | with_reducible apply jobs_pages | with_reducible apply jobs_ztc)

theorem jobs_waitersLose (s : State) (z : Nat) (r : LossReason) (h : s.jobsIn ks) : (State.waitersLose s z r).jobsIn ks := by
  unfold State.waitersLose
  repeat' (first | with_reducible assumption | split | dsimp only | (with_reducible refine jobs_foldl (fun s a h => ?_) _ _ ?_) | with_reducible apply jobs_ntu | with_reducible apply jobs_lines | with_reducible apply jobs_session | with_reducible apply jobs_pages | with_reducible apply jobs_ztc)

theorem jobs_refreshReasons (s : State) (z : Nat) (h : s.jobsIn ks) : (State.refreshReasons s z).jobsIn ks := by
  unfold State.refreshReasons
  repeat' (first | with_reducible assumption | split | dsimp only | (with_reducible refine jobs_foldl (fun s a h => ?_) _ _ ?_) | with_reducible apply jobs_tellDeferred | with_reducible apply jobs_setZone | with_reducible apply jobs_ntu | with_reducible apply jobs_lines | with_reducible apply jobs_session | with_reducible apply jobs_pages | with_reducible apply jobs_ztc)

theorem jobs_joinWaits (s : State) (w : Wait) (reason : DeferReason) (h : s.jobsIn ks) : (State.joinWaits s w reason).jobsIn ks := by
  unfold State.joinWaits
  repeat' (first | with_reducible assumption | split | dsimp only | (with_reducible refine jobs_foldl (fun s a h => ?_) _ _ ?_) | with_reducible apply jobs_tellDeferred | with_reducible apply jobs_dropPart | with_reducible apply jobs_setZone | with_reducible apply jobs_ntu | with_reducible apply jobs_lines | with_reducible apply jobs_session | with_reducible apply jobs_pages | with_reducible apply jobs_ztc)

theorem jobs_leaveWaits (s : State) (n z : Nat) (h : s.jobsIn ks) : (State.leaveWaits s n z).jobsIn ks := by
  unfold State.leaveWaits
  repeat' (first | with_reducible assumption | split | dsimp only | (with_reducible refine jobs_foldl (fun s a h => ?_) _ _ ?_) | with_reducible apply jobs_setZone | with_reducible apply jobs_ntu | with_reducible apply jobs_lines | with_reducible apply jobs_session | with_reducible apply jobs_pages | with_reducible apply jobs_ztc)

theorem jobs_leaveGroups (s : State) (n z : Nat) (h : s.jobsIn ks) : (State.leaveGroups s n z).jobsIn ks := by
  unfold State.leaveGroups
  repeat' (first | with_reducible assumption | split | dsimp only | (with_reducible refine jobs_foldl (fun s a h => ?_) _ _ ?_) | with_reducible apply jobs_ntu | with_reducible apply jobs_lines | with_reducible apply jobs_session | with_reducible apply jobs_pages | with_reducible apply jobs_ztc)

theorem jobs_clearWaits (s : State) (z : Nat) (r : DropReason) (h : s.jobsIn ks) : (State.clearWaits s z r).jobsIn ks := by
  unfold State.clearWaits
  repeat' (first | with_reducible assumption | split | dsimp only | (with_reducible refine jobs_foldl (fun s a h => ?_) _ _ ?_) | with_reducible apply jobs_dropPart | with_reducible apply jobs_setZone | with_reducible apply jobs_ntu | with_reducible apply jobs_lines | with_reducible apply jobs_session | with_reducible apply jobs_pages | with_reducible apply jobs_ztc)

theorem jobs_tellDisplaced (s : State) (w : Taker) (z : Nat) (h : s.jobsIn ks) : (State.tellDisplaced s w z).jobsIn ks := by
  unfold State.tellDisplaced
  repeat' (first | with_reducible assumption | split | dsimp only | (with_reducible refine jobs_foldl (fun s a h => ?_) _ _ ?_) | with_reducible apply jobs_pageLoses | with_reducible apply jobs_dropPart | with_reducible apply jobs_ntu | with_reducible apply jobs_lines | with_reducible apply jobs_session | with_reducible apply jobs_pages | with_reducible apply jobs_ztc)

theorem jobs_tellSuspended (s : State) (w : Taker) (z : Nat) (h : s.jobsIn ks) : (State.tellSuspended s w z).jobsIn ks := by
  unfold State.tellSuspended
  repeat' (first | with_reducible assumption | split | dsimp only | (with_reducible refine jobs_foldl (fun s a h => ?_) _ _ ?_) | with_reducible apply jobs_pageLoses | with_reducible apply jobs_ntu | with_reducible apply jobs_lines | with_reducible apply jobs_session | with_reducible apply jobs_pages | with_reducible apply jobs_ztc)

theorem jobs_judgeWaits (s : State) (w : Taker) (z : Nat) (h : s.jobsIn ks) : (State.judgeWaits s w z).jobsIn ks := by
  unfold State.judgeWaits
  repeat' (first | with_reducible assumption | split | dsimp only | (with_reducible refine jobs_foldl (fun s a h => ?_) _ _ ?_) | with_reducible apply jobs_clearWaits | with_reducible apply jobs_waitersLose | with_reducible apply jobs_ntu | with_reducible apply jobs_lines | with_reducible apply jobs_session | with_reducible apply jobs_pages | with_reducible apply jobs_ztc)

theorem jobs_seat (s : State) (w : Taker) (z : Nat) (h : s.jobsIn ks) : (State.seat s w z).jobsIn ks := by
  unfold State.seat
  repeat' (first | with_reducible assumption | split | dsimp only | (with_reducible refine jobs_foldl (fun s a h => ?_) _ _ ?_) | with_reducible apply jobs_refreshReasons | with_reducible apply jobs_setWanted | with_reducible apply jobs_output | with_reducible apply jobs_setZone | with_reducible apply jobs_ntu | with_reducible apply jobs_lines | with_reducible apply jobs_session | with_reducible apply jobs_pages | with_reducible apply jobs_ztc)

theorem jobs_later (s : State) (w : Work) (h : s.jobsIn ks) : (State.later s w).jobsIn ks := by
  unfold State.later
  repeat' (first | with_reducible assumption | split | dsimp only | (with_reducible refine jobs_foldl (fun s a h => ?_) _ _ ?_) | with_reducible apply jobs_ntu | with_reducible apply jobs_lines | with_reducible apply jobs_session | with_reducible apply jobs_pages | with_reducible apply jobs_ztc)

theorem jobs_seekDrillTrunk (s : State) (h : s.jobsIn ks) : (State.seekDrillTrunk s).jobsIn ks := by
  unfold State.seekDrillTrunk
  split
  · exact jobs_later _ _ h
  · exact h

theorem jobs_takeZone (s : State) (w : Taker) (z : Nat) (h : s.jobsIn ks) : (State.takeZone s w z).jobsIn ks := by
  unfold State.takeZone
  repeat' (first | with_reducible assumption | split | dsimp only | (with_reducible refine jobs_foldl (fun s a h => ?_) _ _ ?_) | with_reducible apply jobs_later | with_reducible apply jobs_seat | with_reducible apply jobs_judgeWaits | with_reducible apply jobs_tellSuspended | with_reducible apply jobs_tellDisplaced | with_reducible apply jobs_ntu | with_reducible apply jobs_lines | with_reducible apply jobs_session | with_reducible apply jobs_pages | with_reducible apply jobs_ztc)

theorem jobs_claimAlarm (s : State) (zs : List Nat) (h : s.jobsIn ks) : (State.claimAlarm s zs).jobsIn ks := by
  unfold State.claimAlarm
  repeat' (first | with_reducible assumption | split | dsimp only | (with_reducible refine jobs_foldl (fun s a h => ?_) _ _ ?_) | with_reducible apply jobs_takeZone | with_reducible apply jobs_ntu | with_reducible apply jobs_lines | with_reducible apply jobs_session | with_reducible apply jobs_pages | with_reducible apply jobs_ztc)

theorem jobs_claimDrill (s : State) (zs : List Nat) (h : s.jobsIn ks) : (State.claimDrill s zs).jobsIn ks := by
  unfold State.claimDrill
  repeat' (first | with_reducible assumption | split | dsimp only | (with_reducible refine jobs_foldl (fun s a h => ?_) _ _ ?_) | with_reducible apply jobs_takeZone | with_reducible apply jobs_ntu | with_reducible apply jobs_lines | with_reducible apply jobs_session | with_reducible apply jobs_pages | with_reducible apply jobs_ztc)

theorem jobs_bellTakes (s : State) (n z : Nat) (tone : Option (Nat × Nat)) (h : s.jobsIn ks) : (State.bellTakes s n z tone).jobsIn ks := by
  unfold State.bellTakes
  repeat' (first | with_reducible assumption | split | dsimp only | (with_reducible refine jobs_foldl (fun s a h => ?_) _ _ ?_) | with_reducible apply jobs_leaveGroups | with_reducible apply jobs_leaveWaits | with_reducible apply jobs_refreshReasons | with_reducible apply jobs_pageSuspended | with_reducible apply jobs_updatePart | with_reducible apply jobs_setWanted | with_reducible apply jobs_setZone | with_reducible apply jobs_ntu | with_reducible apply jobs_lines | with_reducible apply jobs_session | with_reducible apply jobs_pages | with_reducible apply jobs_ztc)

theorem jobs_returnZone (s : State) (z : Nat) (h : s.jobsIn ks) : (State.returnZone s z).jobsIn ks := by
  unfold State.returnZone
  repeat' (first | with_reducible assumption | split | dsimp only | (with_reducible refine jobs_foldl (fun s a h => ?_) _ _ ?_) | with_reducible apply jobs_seekDrillTrunk | with_reducible apply jobs_later | with_reducible apply jobs_refreshReasons | with_reducible apply jobs_waitersLose | with_reducible apply jobs_pageReturned | with_reducible apply jobs_setWanted | with_reducible apply jobs_setZone | with_reducible apply jobs_ntu | with_reducible apply jobs_lines | with_reducible apply jobs_session | with_reducible apply jobs_pages | with_reducible apply jobs_ztc)

theorem jobs_holdersEnd (s : State) (zs : List Nat) (h : s.jobsIn ks) : (State.holdersEnd s zs).jobsIn ks := by
  unfold State.holdersEnd
  repeat' (first | with_reducible assumption | split | dsimp only | (with_reducible refine jobs_foldl (fun s a h => ?_) _ _ ?_) | with_reducible apply jobs_returnZone | with_reducible apply jobs_later | with_reducible apply jobs_push | with_reducible apply jobs_ntu | with_reducible apply jobs_lines | with_reducible apply jobs_session | with_reducible apply jobs_pages | with_reducible apply jobs_ztc)

theorem jobs_releaseZones (s : State) (mine : Holder → Bool) (mineUnder : Suspended → Bool) (zs : List Nat) (h : s.jobsIn ks) : (State.releaseZones s mine mineUnder zs).jobsIn ks := by
  unfold State.releaseZones
  repeat' (first | with_reducible assumption | split | dsimp only | (with_reducible refine jobs_foldl (fun s a h => ?_) _ _ ?_) | with_reducible apply jobs_holdersEnd | with_reducible apply jobs_setZone | with_reducible apply jobs_ntu | with_reducible apply jobs_lines | with_reducible apply jobs_session | with_reducible apply jobs_pages | with_reducible apply jobs_ztc)

theorem jobs_loseZone (s : State) (z : Nat) (h : s.jobsIn ks) : (State.loseZone s z).jobsIn ks := by
  unfold State.loseZone
  repeat' (first | with_reducible assumption | split | dsimp only | (with_reducible refine jobs_foldl (fun s a h => ?_) _ _ ?_) | with_reducible apply jobs_returnZone | with_reducible apply jobs_later | with_reducible apply jobs_clearWaits | with_reducible apply jobs_waitersLose | with_reducible apply jobs_pageLoses | with_reducible apply jobs_dropPart | with_reducible apply jobs_setWanted | with_reducible apply jobs_setZone | with_reducible apply jobs_ntu | with_reducible apply jobs_lines | with_reducible apply jobs_session | with_reducible apply jobs_pages | with_reducible apply jobs_ztc)

theorem jobs_gainZone (s : State) (z : Nat) (h : s.jobsIn ks) : (State.gainZone s z).jobsIn ks := by
  unfold State.gainZone
  repeat' (first | with_reducible assumption | split | dsimp only | (with_reducible refine jobs_foldl (fun s a h => ?_) _ _ ?_) | with_reducible apply jobs_later | with_reducible apply jobs_setZone | with_reducible apply jobs_ntu | with_reducible apply jobs_lines | with_reducible apply jobs_session | with_reducible apply jobs_pages | with_reducible apply jobs_ztc)

theorem jobs_lineDown (s : State) (l : Nat) (h : s.jobsIn ks) : (State.lineDown s l).jobsIn ks := by
  unfold State.lineDown
  repeat' (first | with_reducible assumption | split | dsimp only | (with_reducible refine jobs_foldl (fun s a h => ?_) _ _ ?_) | with_reducible apply jobs_loseZone | with_reducible apply jobs_ntu | with_reducible apply jobs_lines | with_reducible apply jobs_session | with_reducible apply jobs_pages | with_reducible apply jobs_ztc)

theorem jobs_lineUp (s : State) (l : Nat) (h : s.jobsIn ks) : (State.lineUp s l).jobsIn ks := by
  unfold State.lineUp
  repeat' (first | with_reducible assumption | split | dsimp only | (with_reducible refine jobs_foldl (fun s a h => ?_) _ _ ?_) | with_reducible apply jobs_gainZone | with_reducible apply jobs_ntu | with_reducible apply jobs_lines | with_reducible apply jobs_session | with_reducible apply jobs_pages | with_reducible apply jobs_ztc)

/-! ### Machine/Trunks.lean -/

theorem jobs_grant (s : State) (t : Nat) (program : TrunkProgram) (tone : Option Timeline) (toneSince toneUntil : Option Nat) (h : s.jobsIn ks) : (State.grant s t program tone toneSince toneUntil).jobsIn ks := by
  unfold State.grant
  repeat' (first | with_reducible assumption | split | dsimp only | (with_reducible refine jobs_foldl (fun s a h => ?_) _ _ ?_) | with_reducible apply jobs_setTrunk | with_reducible apply jobs_ntu | with_reducible apply jobs_lines | with_reducible apply jobs_session | with_reducible apply jobs_pages | with_reducible apply jobs_ztc)

theorem jobs_freeTrunks (s : State) (ts : List Nat) (h : s.jobsIn ks) : (State.freeTrunks s ts).jobsIn ks :=
  jobs_foldl (fun s t h => jobs_setTrunk s t _ h) _ _ h

theorem jobs_releaseTrunks (s : State) (h : s.jobsIn ks) : (State.releaseTrunks s).jobsIn ks := by
  unfold State.releaseTrunks
  repeat' (first | with_reducible assumption | split | dsimp only | (with_reducible refine jobs_foldl (fun s a h => ?_) _ _ ?_) | with_reducible apply jobs_push | with_reducible apply jobs_freeTrunks | with_reducible apply jobs_ntu | with_reducible apply jobs_lines | with_reducible apply jobs_session | with_reducible apply jobs_pages | with_reducible apply jobs_ztc)

theorem jobs_releaseOwn (s : State) (kept : List Nat) (h : s.jobsIn ks) : (State.releaseOwn s kept).jobsIn ks := jobs_freeTrunks _ _ h

theorem jobs_releaseNow (s : State) (kept : List Nat) (h : s.jobsIn ks) : (State.releaseNow s kept).jobsIn ks := by
  unfold State.releaseNow
  split
  · exact h
  · exact jobs_later _ _ (jobs_releaseOwn _ _ h)

theorem jobs_forceTakes (s : State) (n z : Nat) (tone : Option (Nat × Nat)) (h : s.jobsIn ks) : (State.forceTakes s n z tone).jobsIn ks := by
  unfold State.forceTakes
  repeat' (first | with_reducible assumption | split | dsimp only | (with_reducible refine jobs_foldl (fun s a h => ?_) _ _ ?_) | with_reducible apply jobs_releaseNow | with_reducible apply jobs_bellTakes | with_reducible apply jobs_later | with_reducible apply jobs_dropPart | with_reducible apply jobs_ntu | with_reducible apply jobs_lines | with_reducible apply jobs_session | with_reducible apply jobs_pages | with_reducible apply jobs_ztc)

theorem jobs_sortPage (s : State) (n : Nat) (h : s.jobsIn ks) : (State.sortPage s n).jobsIn ks := by
  unfold State.sortPage
  repeat' (first | with_reducible assumption | split | dsimp only | (with_reducible refine jobs_foldl (fun s a h => ?_) _ _ ?_) | with_reducible apply jobs_updatePage | with_reducible apply jobs_ntu | with_reducible apply jobs_lines | with_reducible apply jobs_session | with_reducible apply jobs_pages | with_reducible apply jobs_ztc)

theorem jobs_startPage (s : State) (n t : Nat) (h : s.jobsIn ks) : (State.startPage s n t).jobsIn ks := by
  unfold State.startPage
  repeat' (first | with_reducible assumption | split | dsimp only | (with_reducible refine jobs_foldl (fun s a h => ?_) _ _ ?_) | with_reducible apply jobs_grant | with_reducible apply jobs_updatePage | with_reducible apply jobs_ntu | with_reducible apply jobs_lines | with_reducible apply jobs_session | with_reducible apply jobs_pages | with_reducible apply jobs_ztc)

theorem jobs_enterLive (s : State) (n t : Nat) (h : s.jobsIn ks) : (State.enterLive s n t).jobsIn ks := by
  unfold State.enterLive
  repeat' (first | with_reducible assumption | split | dsimp only | (with_reducible refine jobs_foldl (fun s a h => ?_) _ _ ?_) | with_reducible apply jobs_updatePage | with_reducible apply jobs_setTrunk | with_reducible apply jobs_ntu | with_reducible apply jobs_lines | with_reducible apply jobs_session | with_reducible apply jobs_pages | with_reducible apply jobs_ztc)

theorem jobs_enterChime (s : State) (n t : Nat) (pretone : Option Nat) (h : s.jobsIn ks) : (State.enterChime s n t pretone).jobsIn ks := by
  unfold State.enterChime
  repeat' (first | with_reducible assumption | split | dsimp only | (with_reducible refine jobs_foldl (fun s a h => ?_) _ _ ?_) | with_reducible apply jobs_enterLive | with_reducible apply jobs_updatePage | with_reducible apply jobs_setTrunk | with_reducible apply jobs_ntu | with_reducible apply jobs_lines | with_reducible apply jobs_session | with_reducible apply jobs_pages | with_reducible apply jobs_ztc)

theorem jobs_claimForPage (n prio t : Nat) (s : State) (z : Nat) (h : s.jobsIn ks) : (State.claimForPage n prio t s z).jobsIn ks := by
  unfold State.claimForPage
  repeat' (first | with_reducible assumption | split | dsimp only | (with_reducible refine jobs_foldl (fun s a h => ?_) _ _ ?_) | with_reducible apply jobs_takeZone | with_reducible apply jobs_updatePage | with_reducible apply jobs_ntu | with_reducible apply jobs_lines | with_reducible apply jobs_session | with_reducible apply jobs_pages | with_reducible apply jobs_ztc)

theorem jobs_claimPage (s : State) (n : Nat) (h : s.jobsIn ks) : (State.claimPage s n).jobsIn ks := by
  unfold State.claimPage
  repeat' (first | with_reducible assumption | split | dsimp only | (with_reducible refine jobs_foldl (fun s a h => ?_) _ _ ?_) | with_reducible apply jobs_releaseOwn | with_reducible apply jobs_claimForPage | with_reducible apply jobs_enterChime | with_reducible apply jobs_updatePage | with_reducible apply jobs_ntu | with_reducible apply jobs_lines | with_reducible apply jobs_session | with_reducible apply jobs_pages | with_reducible apply jobs_ztc)

theorem jobs_offerZone (s : State) (z : Nat) (h : s.jobsIn ks) : (State.offerZone s z).jobsIn ks := by
  unfold State.offerZone
  repeat' (first | with_reducible assumption | split | dsimp only | (with_reducible refine jobs_foldl (fun s a h => ?_) _ _ ?_) | with_reducible apply jobs_sortPage | with_reducible apply jobs_takeZone | with_reducible apply jobs_later | with_reducible apply jobs_pageLoses | with_reducible apply jobs_updatePage | with_reducible apply jobs_ntu | with_reducible apply jobs_lines | with_reducible apply jobs_session | with_reducible apply jobs_pages | with_reducible apply jobs_ztc)

theorem jobs_joinGroup (s : State) (w : Wait) (h : s.jobsIn ks) : (State.joinGroup s w).jobsIn ks := by
  unfold State.joinGroup
  repeat' (first | with_reducible assumption | split | dsimp only | (with_reducible refine jobs_foldl (fun s a h => ?_) _ _ ?_) | with_reducible apply jobs_ntu | with_reducible apply jobs_lines | with_reducible apply jobs_session | with_reducible apply jobs_pages | with_reducible apply jobs_ztc)

theorem jobs_serveZone (pausedPage : Option Nat) (s : State) (z : Nat) (h : s.jobsIn ks) : (State.serveZone pausedPage s z).1.jobsIn ks := by
  unfold State.serveZone
  repeat' (first | with_reducible assumption | split | dsimp only | (with_reducible refine jobs_foldl (fun s a h => ?_) _ _ ?_) | with_reducible apply jobs_bellTakes | with_reducible apply jobs_later | with_reducible apply jobs_leaveWaits | with_reducible apply jobs_ntu | with_reducible apply jobs_lines | with_reducible apply jobs_session | with_reducible apply jobs_pages | with_reducible apply jobs_ztc)

theorem jobs_serveZones (pausedPage : Option Nat) (zs : List Nat) (s : State) (h : s.jobsIn ks) :
    (State.serveZones pausedPage zs s).1.jobsIn ks := by
  induction zs generalizing s with
  | nil => exact h
  | cons z zs ih => exact ih _ (jobs_serveZone _ _ _ h)

theorem jobs_numberGiven (s : State) (job num : Nat) (h : s.jobsIn ks) : (State.numberGiven s job num).jobsIn ks :=
  jobs_map s _ (fun x : Job => if x.num = job then { x with groups := num } else x) rfl
    (fun j => by split <;> exact ⟨rfl, rfl, rfl⟩) h

theorem jobs_waitForTrunk (s : State) (g : StartGroup) (ws : List Wait) (h : s.jobsIn ks) : (State.waitForTrunk s g ws).jobsIn ks := by
  unfold State.waitForTrunk
  repeat' (first | with_reducible assumption | split | dsimp only | (with_reducible refine jobs_foldl (fun s a h => ?_) _ _ ?_) | with_reducible apply jobs_numberGiven | with_reducible apply jobs_tellDeferred | with_reducible apply jobs_ntu | with_reducible apply jobs_lines | with_reducible apply jobs_session | with_reducible apply jobs_pages | with_reducible apply jobs_ztc)

theorem jobs_leaveUngranted (s : State) (g : StartGroup) (h : s.jobsIn ks) : (State.leaveUngranted s g).jobsIn ks := by
  unfold State.leaveUngranted
  repeat' (first | with_reducible assumption | split | dsimp only | (with_reducible refine jobs_foldl (fun s a h => ?_) _ _ ?_) | with_reducible apply jobs_waitForTrunk | with_reducible apply jobs_dropPart | with_reducible apply jobs_ntu | with_reducible apply jobs_lines | with_reducible apply jobs_session | with_reducible apply jobs_pages | with_reducible apply jobs_ztc)

theorem jobs_turnDown (s : State) (gs : List StartGroup) (h : s.jobsIn ks) : (State.turnDown s gs).jobsIn ks :=
  jobs_push _ _ (jobs_foldl (fun s g h => jobs_leaveUngranted s g h) _ _ h)

theorem jobs_ungranted (s : State) (h : s.jobsIn ks) : (State.ungranted s).jobsIn ks := jobs_turnDown _ _ (jobs_ztc _ _ h)

theorem jobs_served (s : State) (zs : List Nat) (freed : Bool) (gs : List StartGroup) (h : s.jobsIn ks) :
    (State.served s zs freed gs).jobsIn ks := by
  unfold State.served
  repeat' (first | with_reducible assumption | split | dsimp only | (with_reducible refine jobs_foldl (fun s a h => ?_) _ _ ?_) | with_reducible apply jobs_later | with_reducible apply jobs_turnDown | with_reducible apply jobs_push | with_reducible apply jobs_ntu | with_reducible apply jobs_lines | with_reducible apply jobs_session | with_reducible apply jobs_pages | with_reducible apply jobs_ztc)

theorem jobs_serve (s : State) (zs : List Nat) (pausedPage : Option Nat) (freed : Bool) (h : s.jobsIn ks) :
    (State.serve s zs pausedPage freed).jobsIn ks :=
  jobs_served _ _ _ _ (jobs_serveZones _ _ _ h)

theorem jobs_deferPart (s : State) (w : Wait) (r : DeferReason) (tone : Option (Nat × Nat)) (h : s.jobsIn ks) : (State.deferPart s w r tone).jobsIn ks := by
  unfold State.deferPart
  repeat' (first | with_reducible assumption | split | dsimp only | (with_reducible refine jobs_foldl (fun s a h => ?_) _ _ ?_) | with_reducible apply jobs_forceTakes | with_reducible apply jobs_joinWaits | with_reducible apply jobs_dropPart | with_reducible apply jobs_ntu | with_reducible apply jobs_lines | with_reducible apply jobs_session | with_reducible apply jobs_pages | with_reducible apply jobs_ztc)

theorem jobs_claimMember (g : StartGroup) (num t : Nat) (s : State) (w : Wait) (h : s.jobsIn ks) : (State.claimMember g num t s w).jobsIn ks := by
  unfold State.claimMember
  repeat' (first | with_reducible assumption | split | dsimp only | (with_reducible refine jobs_foldl (fun s a h => ?_) _ _ ?_) | with_reducible apply jobs_deferPart | with_reducible apply jobs_forceTakes | with_reducible apply jobs_bellTakes | with_reducible apply jobs_leaveWaits | with_reducible apply jobs_dropPart | with_reducible apply jobs_ntu | with_reducible apply jobs_lines | with_reducible apply jobs_session | with_reducible apply jobs_pages | with_reducible apply jobs_ztc)

theorem jobs_grantTone (s : State) (t job num : Nat) (h : s.jobsIn ks) : (State.grantTone s t job num).jobsIn ks :=
  jobs_grant _ _ _ _ _ _ h

theorem jobs_grantGroup (s : State) (g : StartGroup) (t : Nat) (h : s.jobsIn ks) : (State.grantGroup s g t).jobsIn ks := by
  unfold State.grantGroup
  repeat' (first | with_reducible assumption | split | dsimp only | (with_reducible refine jobs_foldl (fun s a h => ?_) _ _ ?_) | with_reducible apply jobs_releaseOwn | with_reducible apply jobs_grantTone | with_reducible apply jobs_claimMember | with_reducible apply jobs_numberGiven | with_reducible apply jobs_ntu | with_reducible apply jobs_lines | with_reducible apply jobs_session | with_reducible apply jobs_pages | with_reducible apply jobs_ztc)

theorem jobs_raiseStage (s : State) (h : s.jobsIn ks) : (State.raiseStage s).jobsIn ks := by
  unfold State.raiseStage
  repeat' (first | with_reducible assumption | split | dsimp only | (with_reducible refine jobs_foldl (fun s a h => ?_) _ _ ?_) | with_reducible apply jobs_raise | with_reducible apply jobs_ntu | with_reducible apply jobs_lines | with_reducible apply jobs_session | with_reducible apply jobs_pages | with_reducible apply jobs_ztc)

theorem jobs_grantDrill (s : State) (t : Nat) (h : s.jobsIn ks) : (State.grantDrill s t).jobsIn ks := by
  unfold State.grantDrill
  repeat' (first | with_reducible assumption | split | dsimp only | (with_reducible refine jobs_foldl (fun s a h => ?_) _ _ ?_) | with_reducible apply jobs_raiseStage | with_reducible apply jobs_grant | with_reducible apply jobs_setWanted | with_reducible apply jobs_ntu | with_reducible apply jobs_lines | with_reducible apply jobs_session | with_reducible apply jobs_pages | with_reducible apply jobs_ztc)

theorem jobs_releaseDrillTrunk (s : State) (h : s.jobsIn ks) : (State.releaseDrillTrunk s).jobsIn ks := by
  unfold State.releaseDrillTrunk
  repeat' (first | with_reducible assumption | split | dsimp only | (with_reducible refine jobs_foldl (fun s a h => ?_) _ _ ?_) | with_reducible apply jobs_later | with_reducible apply jobs_setWanted | with_reducible apply jobs_setTrunk | with_reducible apply jobs_ntu | with_reducible apply jobs_lines | with_reducible apply jobs_session | with_reducible apply jobs_pages | with_reducible apply jobs_ztc)

theorem jobs_stripTone (s : State) (t job : Nat) (h : s.jobsIn ks) : (s.stripTone t job).1.jobsIn ks := by
  unfold State.stripTone
  exact jobs_setTrunk _ _ _ (jobs_foldl (fun s z h => jobs_returnZone s z h) _ _ (jobs_foldl (fun s z h => jobs_dropPart s job z _ h) _ _ h))

theorem jobs_stripPage (s : State) (p : Page) (t : Nat) (h : s.jobsIn ks) : (s.stripPage p t).1.jobsIn ks := by
  unfold State.stripPage
  exact jobs_setTrunk _ _ _ (jobs_foldl (fun s z h => jobs_returnZone s z h) _ _ (jobs_foldl (fun s z h => jobs_setZone s z _ h) _ _
    (jobs_foldl (fun s z h => jobs_pageLoses s p.num z _ h) _ _ h)))

theorem jobs_preempt {s s' : State} {t : Nat} {zs : List Nat} (e : s.preempt = some (t, s', zs)) (h : s.jobsIn ks) : s'.jobsIn ks := by
  unfold State.preempt at e
  split at e
  · split at e
    · cases e
      exact jobs_stripTone s _ _ h
    · cases e
  · split at e
    · split at e
      · cases e
        exact jobs_stripPage s _ _ h
      · cases e
    · cases e

theorem jobs_considerPages (free : Option Nat) (ps : List Page) (s : State) (h : s.jobsIn ks) :
    (State.considerPages free ps s).1.jobsIn ks := by
  induction ps generalizing s with
  | nil => exact h
  | cons p ps ih =>
    have h' := jobs_sortPage s p.num h
    unfold State.considerPages
    dsimp only
    split
    · split
      · exact jobs_startPage _ _ _ h'
      · split
        · rename_i e
          exact jobs_startPage _ _ _ (jobs_preempt e h')
        · exact ih _ h'
    · exact ih _ h'

theorem jobs_considerRoutine (whole : Bool) (s : State) (t : Nat) (h : s.jobsIn ks) : (s.considerRoutine whole t).1.jobsIn ks := by
  unfold State.considerRoutine
  split
  · exact jobs_considerPages _ _ _ h
  · exact h

theorem jobs_considerBells (whole : Bool) (s : State) (t : Nat) (h : s.jobsIn ks) : (s.considerBells whole t).1.jobsIn ks := by
  unfold State.considerBells
  split
  · split
    · exact jobs_grantGroup _ _ _ h
    · exact jobs_considerRoutine _ _ _ h
  · exact jobs_considerRoutine _ _ _ h

theorem jobs_passOnce (whole : Bool) (s : State) (h : s.jobsIn ks) : (s.passOnce whole).1.jobsIn ks := by
  unfold State.passOnce
  split
  · split
    · dsimp only
      exact jobs_grantDrill _ _ h
    · rename_i t _ _
      have h' := jobs_considerPages (some t) (s.queuedPages true) s h
      generalize State.considerPages (some t) (s.queuedPages true) s = r at h' ⊢
      dsimp only
      split
      · exact h'
      · exact jobs_considerBells _ _ _ h'
  · split
    · split
      · rename_i e
        dsimp only
        exact jobs_grantDrill _ _ (jobs_preempt e h)
      · exact jobs_considerPages _ _ _ h
    · exact jobs_considerPages _ _ _ h

theorem jobs_markSignal (s : State) (h : s.jobsIn ks) : (State.markSignal s).jobsIn ks := by
  unfold State.markSignal
  repeat' (first | with_reducible assumption | split | dsimp only | (with_reducible refine jobs_foldl (fun s a h => ?_) _ _ ?_) | with_reducible apply jobs_raiseStage | with_reducible apply jobs_ntu | with_reducible apply jobs_lines | with_reducible apply jobs_session | with_reducible apply jobs_pages | with_reducible apply jobs_ztc)

theorem jobs_pass (s : State) (h : s.jobsIn ks) : s.pass.jobsIn ks := by
  have h' := jobs_passOnce true s h
  unfold State.pass
  split <;> rename_i e <;> rw [e] at h'
  · exact jobs_push _ _ h'
  · exact jobs_markSignal _ h'

theorem jobs_grants (s : State) (h : s.jobsIn ks) : s.grants.jobsIn ks := by
  have h' := jobs_passOnce false s h
  unfold State.grants
  split <;> rename_i e <;> rw [e] at h'
  · exact jobs_push _ _ h'
  · exact jobs_ungranted _ h'

theorem jobs_raisePageEnd (s : State) (p : Page) (r : PageReason) (h : s.jobsIn ks) : (State.raisePageEnd s p r).jobsIn ks := by
  unfold State.raisePageEnd
  repeat' (first | with_reducible assumption | split | dsimp only | (with_reducible refine jobs_foldl (fun s a h => ?_) _ _ ?_) | with_reducible apply jobs_raise | with_reducible apply jobs_ntu | with_reducible apply jobs_lines | with_reducible apply jobs_session | with_reducible apply jobs_pages | with_reducible apply jobs_ztc)

theorem jobs_tellEnded (s : State) (p : Page) (h : s.jobsIn ks) : (State.tellEnded s p).jobsIn ks := by
  unfold State.tellEnded
  repeat' (first | with_reducible assumption | split | dsimp only | (with_reducible refine jobs_foldl (fun s a h => ?_) _ _ ?_) | with_reducible apply jobs_raisePageEnd | with_reducible apply jobs_ntu | with_reducible apply jobs_lines | with_reducible apply jobs_session | with_reducible apply jobs_pages | with_reducible apply jobs_ztc)

theorem jobs_finalizePages (s : State) (h : s.jobsIn ks) : (State.finalizePages s).jobsIn ks := by
  unfold State.finalizePages
  repeat' (first | with_reducible assumption | split | dsimp only | (with_reducible refine jobs_foldl (fun s a h => ?_) _ _ ?_) | with_reducible apply jobs_tellEnded | with_reducible apply jobs_ntu | with_reducible apply jobs_lines | with_reducible apply jobs_session | with_reducible apply jobs_pages | with_reducible apply jobs_ztc)

theorem jobs_doWork (s : State) (w : Work) (h : s.jobsIn ks) : (s.doWork w).jobsIn ks := by
  unfold State.doWork
  split
  · exact jobs_serve _ _ _ _ h
  · exact jobs_grants _ h
  · exact jobs_foldl (fun s z h => jobs_offerZone s z h) _ _ h
  · exact jobs_claimPage _ _ h
  · exact jobs_releaseTrunks _ h
  · exact jobs_pass _ h

theorem jobs_settleFor (k : Nat) (s : State) (h : s.jobsIn ks) : (settleFor k s).jobsIn ks := by
  induction k generalizing s with
  | zero => exact jobs_finalizePages _ (jobs_ztc _ _ h)
  | succ k ih =>
    unfold settleFor
    split
    · exact jobs_finalizePages _ h
    · exact ih _ (jobs_doWork _ _ (jobs_ztc _ _ h))

/-- Jobs only leave the queue as a command ends. -/
theorem jobs_settle (s : State) (h : s.jobsIn ks) : s.settle.jobsIn ks := jobs_settleFor 4096 s h

theorem jobs_meetLimit (tone : Option (Nat × Nat)) (s : State) (w : Wait) (h : s.jobsIn ks) : (State.meetLimit tone s w).jobsIn ks := by
  unfold State.meetLimit
  repeat' (first | with_reducible assumption | split | dsimp only | (with_reducible refine jobs_foldl (fun s a h => ?_) _ _ ?_) | with_reducible apply jobs_forceTakes | with_reducible apply jobs_leaveGroups | with_reducible apply jobs_leaveWaits | with_reducible apply jobs_dropPart | with_reducible apply jobs_ntu | with_reducible apply jobs_lines | with_reducible apply jobs_session | with_reducible apply jobs_pages | with_reducible apply jobs_ztc)

theorem jobs_expireWaits (s : State) (n : Nat) (h : s.jobsIn ks) : (State.expireWaits s n).jobsIn ks := by
  unfold State.expireWaits
  repeat' (first | with_reducible assumption | split | dsimp only | (with_reducible refine jobs_foldl (fun s a h => ?_) _ _ ?_) | with_reducible apply jobs_releaseNow | with_reducible apply jobs_meetLimit | with_reducible apply jobs_grantTone | with_reducible apply jobs_numberGiven | with_reducible apply jobs_serve | with_reducible apply jobs_later | with_reducible apply jobs_push | with_reducible apply jobs_ntu | with_reducible apply jobs_lines | with_reducible apply jobs_session | with_reducible apply jobs_pages | with_reducible apply jobs_ztc)

end Sys2Proof.Machine
end

