-- ==== Sys2Proof/Laws/Links.lean ====
section
/-! SUPPORT. What the operations of the console link, of the field devices' links, of line power and of the room clocks, the
discipline state, the numbers of start groups, the releases of trunks, the serving of wait lists, the drill schedule and the
reports to bell parts can do: which fields they leave, and what each answers. -/

set_option autoImplicit false

namespace Sys2Proof.Machine

open Sys2Proof

/-! ### Characters (R169) -/

/-- A port that takes a character changes that port alone, and there only what has arrived and the line being built. -/
theorem takeChar_cases (s : State) (p : Port) :
    s.takeChar p = s ∨
      ∃ c cs b, (s.port p).arriving = c :: cs ∧ s.takeChar p = s.setPort p { s.port p with arriving := cs, typed := b } ∧
        b = (if !s.reads || decide (c = .code 13) then LineBuf.new else (s.port p).typed.take c) := by
  unfold State.takeChar
  split
  · exact .inl rfl
  · exact .inr ⟨_, _, _, ‹_›, rfl, rfl⟩

@[simp] theorem takeChar_now (s : State) (p : Port) : (s.takeChar p).now = s.now := by
  obtain h | ⟨_, _, _, _, h, _⟩ := takeChar_cases s p <;> rw [h] <;> rfl

@[simp] theorem takeChar_pending (s : State) (p : Port) : (s.takeChar p).pending = s.pending := by
  obtain h | ⟨_, _, _, _, h, _⟩ := takeChar_cases s p <;> rw [h] <;> rfl

@[simp] theorem takeChar_draws (s : State) (p : Port) : (s.takeChar p).draws = s.draws := by
  obtain h | ⟨_, _, _, _, h, _⟩ := takeChar_cases s p <;> rw [h] <;> rfl

@[simp] theorem lineBuf_take_lf (b : LineBuf) : b.take (.code 10) = b := rfl

theorem lineBuf_put_over (b : LineBuf) (c : Nat) (bad : Bool) (h : b.tooLong = true) : b.put c bad = b := by simp [LineBuf.put, h]

theorem lineBuf_put_full (b : LineBuf) (c : Nat) (bad : Bool) (h : b.tooLong = false) (h80 : 80 ≤ b.chars.length) :
    b.put c bad = { chars := [], bad := false, tooLong := true } := by simp [LineBuf.put, LineBuf.new, h, h80]

theorem lineBuf_put_room (b : LineBuf) (c : Nat) (bad : Bool) (h : b.tooLong = false) (h80 : b.chars.length < 80) :
    b.put c bad = { chars := b.chars ++ [c], bad := b.bad || bad, tooLong := false } := by
  simp [LineBuf.put, h, Nat.not_le.mpr h80]

/-! ### Field devices (R33, R59) -/

@[simp] theorem acts_echo (d : FieldDev) (k : DevKind) (l now a : Nat) (f : Frame) (g : FieldDev → FieldDev) (h : d.echo.isSome = true) :
    d.acts k l now a f g = d := by simp [FieldDev.acts, h]

@[simp] theorem acts_idle (d : FieldDev) (k : DevKind) (l now a : Nat) (f : Frame) (g : FieldDev → FieldDev) (h : d.echo = none) :
    d.acts k l now a f g = (g d).replies k l now a f := by simp [FieldDev.acts, h]

/-- A frame that is no proving frame is not sent back. -/
theorem echoes_other (d : FieldDev) (now a : Nat) (f : Frame) (h : ∀ b vs, f ≠ .proving b vs) : d.echoes now a f = d := by
  cases f <;> simp_all [FieldDev.echoes]

/-- A frame that is no poll is not answered. -/
theorem replies_other (d : FieldDev) (k : DevKind) (l now a : Nat) (f : Frame) (h : ∀ b z, f ≠ .poll b z) : d.replies k l now a f = d := by
  cases f <;> simp_all [FieldDev.replies]

/-- Room clocks that run on change nothing but their faces. -/
theorem clocksRun_eq (s : State) (n : Nat) :
    s.clocksRun n = { s with field := s.field.map fun x => (x.1, { x.2 with clock := x.2.clock.map fun c => c.later n }) } := rfl

theorem tget_map {α β : Type} (d : Nat → α) (e : Nat → β) (f : α → β) (hd : ∀ i, f (d i) = e i) (t : Table α) (i : Nat) :
    tget e (t.map fun x => (x.1, f x.2)) i = f (tget d t i) := by
  induction t with
  | nil => exact (hd i).symm
  | cons x t ih => by_cases h : i = x.1 <;> simp [tget, h, ih]

/-- What a device holds after the room clocks have run on. -/
theorem clocksRun_fieldAt (s : State) (n l a : Nat) :
    (s.clocksRun n).fieldAt l a =
      { s.fieldAt l a with clock := (s.fieldAt l a).clock.map fun c => { c with ms := c.ms + 1000 * n } } :=
  tget_map fieldStart fieldStart (fun d => { d with clock := d.clock.map fun c => c.later n }) (fun _ => rfl) s.field _

/-! ### Every device of a line, and line power (R24, R45) -/

/-- Changing devices one after the other changes each of them once and no other. -/
theorem foldDevices_fieldAt (l : Nat) (f : FieldDev → FieldDev) (as : List Nat) (s : State) (ha : ∀ a, a ∈ as → 1 ≤ a ∧ a ≤ 24)
    (hd : as.Nodup) (k b : Nat) (hb : 1 ≤ b ∧ b ≤ 24) :
    (as.foldl (fun s a => s.setField l a (f (s.fieldAt l a))) s).fieldAt k b =
      if k = l ∧ b ∈ as then f (s.fieldAt k b) else s.fieldAt k b := by
  induction as generalizing s with
  | nil => simp
  | cons a as ih =>
    obtain ⟨hn, hd⟩ := List.nodup_cons.mp hd
    rw [List.foldl_cons, ih _ (fun x hx => ha x (List.mem_cons_of_mem _ hx)) hd]
    by_cases e : k = l ∧ b = a
    · obtain ⟨rfl, rfl⟩ := e
      simp [hn]
    · rw [fieldAt_setField_other _ _ (ha a List.mem_cons_self) hb e]
      by_cases hk : k = l
      · simp [hk, show b ≠ a from fun h => e ⟨hk, h⟩]
      · simp [hk]

/-- A change of every device of a line, read at any device. -/
theorem onDevices_fieldAt (s : State) (l : Nat) (f : FieldDev → FieldDev) (k b : Nat) (hb : 1 ≤ b ∧ b ≤ 24) :
    (s.onDevices l f).fieldAt k b = if k = l then f (s.fieldAt k b) else s.fieldAt k b := by
  have h := foldDevices_fieldAt l f allAddrs s (by decide) (by decide) k b hb
  have hm : b ∈ allAddrs := List.mem_map.mpr ⟨b - 1, List.mem_range.mpr (by omega), by omega⟩
  rw [State.onDevices, h]
  simp [hm]

/-- A change of every device of a line changes nothing but devices. -/
theorem onDevices_eq (s : State) (l : Nat) (f : FieldDev → FieldDev) : ({ s.onDevices l f with field := s.field } : State) = s := by
  unfold State.onDevices
  generalize allAddrs = as
  suffices ∀ u : State, ({ u with field := s.field } : State) = s →
      ({ as.foldl (fun s a => s.setField l a (f (s.fieldAt l a))) u with field := s.field } : State) = s from this s rfl
  induction as with
  | nil => exact fun u h => h
  | cons a as ih => exact fun u h => ih (u.setField l a (f (u.fieldAt l a))) h

/-- What a device holds once its line has power. -/
theorem enterPowering_fieldAt (s : State) (l k b : Nat) (hb : 1 ≤ b ∧ b ≤ 24) :
    (s.enterPowering l).fieldAt k b = if k = l then (s.fieldAt k b).cold else s.fieldAt k b :=
  onDevices_fieldAt (s.onLine l _) l FieldDev.cold k b hb

/-! ### The discipline state (R12) -/

theorem discipline_enabled {s : State} (h : s.timeSet.refEnable = true) : s.discipline = s.tbu.disc := by simp [State.discipline, h]

theorem discipline_disabled {s : State} (h : s.timeSet.refEnable = false) : s.discipline = .free := by simp [State.discipline, h]

/-! ### The flag of a holdover age that has reached a day (R13) -/

/-- Taking the flag: nothing while it is not due, else the flag is set and its notice raised. -/
theorem takeUnsync_cases (s : State) :
    (s.tbu.unsyncDue = false ∧ s.takeUnsync = s) ∨
      (s.tbu.unsyncDue = true ∧
        s.takeUnsync = ({ s with tbu := { s.tbu with unsync := true, unsyncDue := false } } : State).raise .reference
          (.reference .unsync s.discipline s.tbu.badCount)) := by
  unfold State.takeUnsync
  cases h : s.tbu.unsyncDue
  · exact .inl ⟨rfl, rfl⟩
  · exact .inr ⟨rfl, rfl⟩

@[simp] theorem takeUnsync_campus (s : State) : s.takeUnsync.campus = s.campus := by
  obtain ⟨_, h⟩ | ⟨_, h⟩ := takeUnsync_cases s <;> rw [h]
  rfl

/-! ### The numbers of start groups (R106, R130) -/

/-- Every start group's number is one of 1 to 32. -/
theorem groupNumber_range (s : State) (job : Nat) : 1 ≤ s.groupNumber job ∧ s.groupNumber job ≤ 32 := by
  simp only [State.groupNumber]
  generalize ((s.job? job).map Job.groups).getD 0 = last
  have range (k : Nat) : 1 ≤ (last + k) % 32 + 1 ∧ (last + k) % 32 + 1 ≤ 32 := by omega
  cases h : ((List.range 32).map fun k => (last + k) % 32 + 1).find? fun n => !s.groupInUse job n with
  | none => simpa [h] using range 0
  | some n =>
    obtain ⟨k, -, hk⟩ := List.mem_map.mp (List.mem_of_find?_eq_some h)
    simpa [h, hk] using range k

/-! ### Releases and servings (R99, R104, R106, R109) -/

/-- A release makes the trunks it names FREE and leaves every other as it was. -/
theorem freeTrunks_trunkAt (ts : List Nat) (s : State) (k : Nat) :
    (s.freeTrunks ts).trunkAt k = if k ∈ ts then none else s.trunkAt k := by
  induction ts generalizing s with
  | nil => simp [State.freeTrunks]
  | cons t ts ih =>
    have h := ih (s.setTrunk t none)
    simp only [State.freeTrunks, List.foldl_cons, trunkAt_setTrunk, List.mem_cons] at h ⊢
    rw [h]
    by_cases e : k = t <;> simp [e]

@[simp] theorem freeTrunks_zoneAt (ts : List Nat) (s : State) (z : Nat) : (s.freeTrunks ts).zoneAt z = s.zoneAt z := by
  induction ts generalizing s with
  | nil => rfl
  | cons t ts ih => exact ih (s.setTrunk t none)

@[simp] theorem freeTrunks_agenda (ts : List Nat) (s : State) : (s.freeTrunks ts).ztc.agenda = s.ztc.agenda := by
  induction ts generalizing s with
  | nil => rfl
  | cons t ts ih => exact ih (s.setTrunk t none)

/-- All that seeking the drill's trunk can do: a grant pass to come where the drill lacks a trunk it needs, else nothing. -/
theorem seekDrillTrunk_cases (s : State) :
    s.drillNeeds = false ∧ s.seekDrillTrunk = s ∨ s.drillNeeds = true ∧ s.seekDrillTrunk = s.later .pass := by
  unfold State.seekDrillTrunk
  cases s.drillNeeds
  · exact .inl ⟨rfl, rfl⟩
  · exact .inr ⟨rfl, rfl⟩

/-- All that a release at once can do: nothing, or the release of the trunks it finds without zones and a grant pass to come. -/
theorem releaseNow_cases (s : State) (kept : List Nat) :
    (∀ t, t ∈ s.idleTrunks → t ∈ kept) ∧ s.releaseNow kept = s ∨
      (∃ t, t ∈ s.idleTrunks ∧ t ∉ kept) ∧ s.releaseNow kept = (s.releaseOwn kept).later .pass := by
  unfold State.releaseNow
  split <;> rename_i h
  · exact .inl ⟨by simpa using h, rfl⟩
  · exact .inr ⟨by simpa using h, rfl⟩

/-- What a release at once leaves on each trunk. -/
theorem releaseNow_trunkAt (s : State) (kept : List Nat) (k : Nat) :
    (s.releaseNow kept).trunkAt k = if k ∈ s.idleTrunks ∧ k ∉ kept then none else s.trunkAt k := by
  have hl (u : State) : (u.later .pass).trunkAt k = u.trunkAt k := by unfold State.later; split <;> rfl
  obtain ⟨h, e⟩ | ⟨-, e⟩ := releaseNow_cases s kept <;> rw [e]
  · rw [if_neg fun x => x.2 (h k x.1)]
  · rw [hl, State.releaseOwn, freeTrunks_trunkAt]
    simp

/-- All that serving one zone's wait list can do: nothing, the head's start without a trunk, or the head's search for one. -/
theorem serveZone_cases (pause : Option Nat) (s : State) (z : Nat) :
    s.serveZone pause z = (s, none) ∨
      ∃ w ws, (s.zoneAt z).waits = w :: ws ∧
        (s.serveZone pause z = ((s.bellTakes w.job z none).later .release, none) ∧ s.partSpeaks w.job z = false ∨
          s.serveZone pause z = (s, some { wait := w, atPause := true }) ∧ w.policy = .pause ∨
          s.serveZone pause z = (s.leaveWaits w.job z, some { wait := w, atPause := false })) := by
  unfold State.serveZone
  split
  · exact .inl rfl
  · rename_i w ws h
    dsimp only
    split
    · exact .inl rfl
    · split
      · refine .inr ⟨w, ws, h, ?_⟩
        split
        · rename_i speaks
          exact .inl ⟨rfl, by simpa using speaks⟩
        · repeat' split
          all_goals first | exact .inr (.inr rfl) | exact .inr (.inl ⟨rfl, by simp_all⟩)
      · exact .inl rfl

/-- A part that joins start groups about to start leaves them so. -/
theorem joinGroups_fresh (due : Stamp) (w : Wait) (atPause : Bool) {gs : List StartGroup} (h : ∀ g, g ∈ gs → g.fresh = true) :
    ∀ g, g ∈ joinGroups due w atPause gs → g.fresh = true := by
  intro g hg
  simp only [joinGroups] at hg
  split at hg
  · obtain ⟨x, hx, rfl⟩ := List.mem_map.mp hg
    split <;> exact h x hx
  · rcases List.mem_append.mp hg with hg | hg
    · exact h g hg
    · simp at hg
      simp [hg]

/-! ### The drill schedule (R158) -/

/-- An entry is placed behind those of its own due time, and no other stands in its way (R158). -/
theorem insertDue_filter (x : Schedule) (n : Nat) (l : List Schedule) (h : l.Pairwise fun a b => a.due.count ≤ b.due.count) :
    (insertDue x l).filter (fun e => decide (e.due.count = n)) = (l ++ [x]).filter fun e => decide (e.due.count = n) := by
  induction l with
  | nil => rfl
  | cons y ys ih =>
    obtain ⟨hy, hs⟩ := List.pairwise_cons.mp h
    rw [insertDue]
    split
    · simp [List.filter_cons, ih hs]
    · rename_i hlt
      have hys : ∀ z ∈ y :: ys, x.due.count < z.due.count := by
        intro z hz
        rcases List.mem_cons.mp hz with rfl | hz
        · omega
        · have := hy z hz; omega
      by_cases hx : x.due.count = n
      · have hz : (y :: ys).filter (fun e => decide (e.due.count = n)) = [] := by
          rw [List.filter_eq_nil_iff]
          intro z hz
          have := hys z hz
          simp; omega
        rw [List.filter_append, hz, List.filter_cons]
        simp [hx, hz]
      · rw [List.filter_append, List.filter_cons]; simp [hx]

/-- An entry placed by its due time leaves the entries in order of due time (R158). -/
theorem insertDue_sorted (x : Schedule) (l : List Schedule) (h : l.Pairwise fun a b => a.due.count ≤ b.due.count) :
    (insertDue x l).Pairwise fun a b => a.due.count ≤ b.due.count := by
  have mem : ∀ (l : List Schedule) z, z ∈ insertDue x l → z = x ∨ z ∈ l := by
    intro l z
    induction l with
    | nil => simp [insertDue]
    | cons y ys ih =>
      rw [insertDue]
      split
      · intro hz
        rcases List.mem_cons.mp hz with rfl | hz
        · simp
        · rcases ih hz with h | h <;> simp [h]
      · simp
  induction l with
  | nil => simp [insertDue]
  | cons y ys ih =>
    obtain ⟨hy, hs⟩ := List.pairwise_cons.mp h
    rw [insertDue]
    split
    · rename_i hle
      refine List.pairwise_cons.mpr ⟨fun z hz => ?_, ih hs⟩
      rcases mem ys z hz with rfl | hz
      · exact hle
      · exact hy z hz
    · rename_i hlt
      refine List.pairwise_cons.mpr ⟨fun z hz => ?_, h⟩
      rcases List.mem_cons.mp hz with rfl | hz
      · omega
      · have := hy z hz; omega

/-! ### Bell parts (R128, R131) -/

/-- The first job with a number, found in a queue whose jobs have been changed under their numbers. -/
theorem find_map_num (n : Nat) (f : Job → Job) (hf : ∀ j, (f j).num = j.num) (js : List Job) :
    (js.map f).find? (fun j => decide (j.num = n)) = (js.find? fun j => decide (j.num = n)).map f := by
  induction js with
  | nil => rfl
  | cons j js ih => by_cases h : j.num = n <;> simp [hf, h, ih]

/-- The first part of a zone, found among parts that have been changed in their zones. -/
theorem find_map_zone (z : Nat) (f : Part → Part) (hf : ∀ p, (f p).zone = p.zone) (ps : List Part) :
    (ps.map f).find? (fun p => decide (p.zone = z)) = (ps.find? fun p => decide (p.zone = z)).map f := by
  induction ps with
  | nil => rfl
  | cons p ps ih => by_cases h : p.zone = z <;> simp [hf, h, ih]

/-- What is found of a part of a job once one of its parts has been updated. -/
theorem update_part (j : Job) (z y : Nat) (f : Part → Part) (hf : ∀ p, (f p).zone = p.zone) :
    (j.update z f).part? y = (j.part? y).map fun p => if p.zone = z then f p else p :=
  find_map_zone y (fun p => if p.zone = z then f p else p) (fun p => by split <;> simp [hf]) j.parts

/-- What is found of a part once one part of one job has been updated. -/
theorem updatePart_part (s : State) (m y n z : Nat) (f : Part → Part) (hf : ∀ p, (f p).zone = p.zone) :
    (s.updatePart m y f).part? n z = (s.part? n z).map fun p => if n = m ∧ p.zone = y then f p else p := by
  have h : (s.updatePart m y f).job? n = (s.job? n).map fun j => if j.num = m then j.update y f else j :=
    find_map_num n _ (fun j => by split <;> rfl) _
  unfold State.part?
  rw [h]
  cases hj : s.job? n with
  | none => rfl
  | some j =>
    have hn : j.num = n := by simpa using List.find?_some hj
    by_cases hm : n = m
    · subst hm; simp [hn, update_part, hf]
    · simp [hn, hm]

/-- Whether a part takes no more reports of a deferral: it sounds or has ended (R128). -/
def Part.settled (p : Part) : Bool :=
  match p.state with
  | .pending | .deferred _ => false
  | _ => true

theorem defer_settled (since : Nat) (r : DeferReason) (p : Part) (h : p.settled = true) : p.defer since r = p := by
  unfold Part.settled at h
  unfold Part.defer
  split <;> simp_all

@[simp] theorem defer_zone (since : Nat) (r : DeferReason) (p : Part) : (p.defer since r).zone = p.zone := by
  unfold Part.defer
  split <;> rfl

/-- A part that sounds or has ended stays as it is whoever is told that a part is DEFERRED. -/
theorem tellDeferred_part (s : State) (m y since : Nat) (r : DeferReason) {n z : Nat} {p : Part} (h : s.part? n z = some p)
    (hp : p.settled = true) : (s.tellDeferred m y since r).part? n z = some p := by
  rw [State.tellDeferred, updatePart_part _ _ _ _ _ _ (defer_zone since r), h]
  by_cases c : n = m ∧ p.zone = y <;> simp [c, defer_settled since r p hp]

theorem refreshReasons_part (s : State) (y : Nat) {n z : Nat} {p : Part} (h : s.part? n z = some p) (hp : p.settled = true) :
    (s.refreshReasons y).part? n z = some p := by
  have all : ∀ (ws : List Wait) (s : State), s.part? n z = some p →
      (ws.foldl (fun s w => s.tellDeferred w.job w.zone w.since w.reason) s).part? n z = some p := by
    intro ws
    induction ws with
    | nil => exact fun s h => h
    | cons w ws ih => exact fun s h => ih _ (tellDeferred_part s _ _ _ _ h hp)
  exact all _ _ h

theorem setWanted_part (s : State) (y : Nat) (b t : Option Nat) (n z : Nat) : (s.setWanted y b t).part? n z = s.part? n z := by
  unfold State.setWanted State.output
  dsimp only
  repeat' (first | split | rfl)

/-- All that a zone's wanted output touches of the zones. -/
theorem setWanted_zoneAt (s : State) (y : Nat) (b t : Option Nat) (z : Nat) :
    (s.setWanted y b t).zoneAt z = if z = y then { s.zoneAt y with bellUntil := b, trunk := t } else s.zoneAt z := by
  unfold State.setWanted State.output
  dsimp only
  split
  · rename_i h
    split
    · rename_i hz
      rw [hz, ← h.1, ← h.2]
    · rfl
  · split <;> exact zoneAt_setZone _ _ _ _

/-- Returns of suspended holders leave the parts that sound or have ended as they are (R100, R128). -/
theorem returnZone_part (s : State) (y : Nat) {n z : Nat} {p : Part} (h : s.part? n z = some p) (hp : p.settled = true) :
    (s.returnZone y).part? n z = some p := by
  have sk : ∀ u : State, (u.seekDrillTrunk).part? n z = u.part? n z := by
    intro u
    unfold State.seekDrillTrunk State.later
    repeat' (first | split | rfl)
  have lt : ∀ (u : State) (w : Work), (u.later w).part? n z = u.part? n z := by
    intro u w
    unfold State.later
    split <;> rfl
  have wl : ∀ (u : State) (r : LossReason), (u.waitersLose y r).part? n z = u.part? n z := fun _ _ => rfl
  unfold State.returnZone
  dsimp only
  repeat' split
  all_goals first
    | (refine refreshReasons_part _ _ ?_ hp; rw [setWanted_part]; exact h)
    | (simp only [sk, lt, wl, setWanted_part]; exact h)

theorem holdersEnd_part (s : State) (zs : List Nat) {n z : Nat} {p : Part} (h : s.part? n z = some p) (hp : p.settled = true) :
    (s.holdersEnd zs).part? n z = some p := by
  have all : ∀ (zs : List Nat) (s : State), s.part? n z = some p → (zs.foldl State.returnZone s).part? n z = some p := by
    intro zs
    induction zs with
    | nil => exact fun s h => h
    | cons y zs ih => exact fun s h => ih _ (returnZone_part s y h hp)
  unfold State.holdersEnd State.later
  split <;> exact all _ _ h

/-- Jobs that leave the queue take only ended parts with them: a part that has not ended is found as before. -/
theorem leaveJobs_part (s : State) {n z : Nat} {p : Part} (h : s.part? n z = some p) (hp : p.ended = false) :
    s.leaveJobs.part? n z = some p := by
  unfold State.part? at h ⊢
  obtain ⟨j, hj, hz⟩ := Option.bind_eq_some_iff.mp h
  have hall : j.parts.all Part.ended = false := Bool.eq_false_iff.mpr fun c => by
    have := List.all_eq_true.mp c p (List.mem_of_find?_eq_some hz)
    simp [hp] at this
  have : s.leaveJobs.job? n = some j := by
    unfold State.job? at hj ⊢
    unfold State.leaveJobs
    dsimp only
    generalize s.bds.queue = q at hj
    induction q with
    | nil => simp at hj
    | cons x xs ih =>
      by_cases hx : x.num = n
      · simp [hx] at hj
        subst hj
        simp [hall, hx]
      · simp [hx] at hj
        by_cases hc : x.parts.all Part.ended
        · simp only [List.filter_cons, hc]; simpa using ih (by simpa using hj)
        · simp only [List.filter_cons, hc]; simpa [hx] using ih (by simpa using hj)
  rw [this]
  exact hz

end Sys2Proof.Machine
end

