-- ==== Sys2Proof/Laws/PageFrames.lean ====
section
/-! SUPPORT. No operation of Machine/Zones.lean or Machine/Trunks.lean but the leaving of ended pages changes which sources have a
page in the Page Queue: `State.srcs` is unchanged by each of them, and `settle` leaves a part of it. These are the frames of the
law of the Page Queue (R135). -/

set_option autoImplicit false
set_option linter.unusedTactic false
set_option linter.unreachableTactic false

namespace Sys2Proof.Machine

open Sys2Proof

/-- The sources that have a page in the Page Queue, in queue order. -/
def State.srcs (s : State) : List Source := s.pgc.queue.map Page.source

/-! ### Record updates -/

theorem srcs_foldl {α : Type} {f : State → α → State} (h : ∀ s a, (f s a).srcs = s.srcs) (xs : List α) (s : State) :
    (xs.foldl f s).srcs = s.srcs := by
  induction xs generalizing s with
  | nil => rfl
  | cons x xs ih => exact (ih (f s x)).trans (h s x)

@[simp] theorem srcs_ztc (s : State) (z : Ztc) : ({ s with ztc := z } : State).srcs = s.srcs := rfl
@[simp] theorem srcs_jobs (s : State) (q : List Job) : ({ s with bds := { s.bds with queue := q } } : State).srcs = s.srcs := rfl
@[simp] theorem srcs_pages (s : State) (q : List Page) : ({ s with pgc := { s.pgc with queue := q } } : State).srcs = q.map Page.source := rfl
@[simp] theorem srcs_session (s : State) (d : Option Session) :
    ({ s with dsq := { s.dsq with session := d } } : State).srcs = s.srcs := rfl
@[simp] theorem srcs_lines (s : State) (t : Table LineSt) : ({ s with lines := t } : State).srcs = s.srcs := rfl
@[simp] theorem srcs_setZone (s : State) (z : Nat) (r : ZoneRec) : (s.setZone z r).srcs = s.srcs := rfl
@[simp] theorem srcs_setTrunk (s : State) (t : Nat) (u : Option TrunkUse) : (s.setTrunk t u).srcs = s.srcs := rfl
@[simp] theorem srcs_setLine (s : State) (l : Nat) (x : LineSt) : (s.setLine l x).srcs = s.srcs := rfl
@[simp] theorem srcs_push (s : State) (w : List Work) : (s.push w).srcs = s.srcs := rfl

@[simp] theorem srcs_raiseAt (s : State) (p : Port) (k : NoticeKind) (d : Detail) : (s.raiseAt p k d).srcs = s.srcs := by
  cases p
  · by_cases c : s.ntu.a.quiet.contains k <;> simp only [State.raiseAt, NtuPort.take, PerPort.get, PerPort.set, State.srcs, c] <;> rfl
  · by_cases c : s.ntu.b.quiet.contains k <;> simp only [State.raiseAt, NtuPort.take, PerPort.get, PerPort.set, State.srcs, c] <;> rfl

@[simp] theorem srcs_raise (s : State) (k : NoticeKind) (d : Detail) : (s.raise k d).srcs = s.srcs := by simp [State.raise]

/-! ### Machine/Zones.lean -/

@[simp] theorem srcs_output (s : State) (z : Nat) (alarm : Bool) : (State.output s z alarm).srcs = s.srcs := by
  unfold State.output
  repeat' (first | split | with_reducible rfl | (with_reducible refine (srcs_updatePage _ _ _ (fun p => ?_)).trans ?_) | (with_reducible refine (srcs_foldl (fun s a => ?_) _ _).trans ?_) | simp | dsimp only)

@[simp] theorem srcs_setWanted (s : State) (z : Nat) (bell trunk : Option Nat) : (State.setWanted s z bell trunk).srcs = s.srcs := by
  unfold State.setWanted
  repeat' (first | split | with_reducible rfl | (with_reducible refine (srcs_updatePage _ _ _ (fun p => ?_)).trans ?_) | (with_reducible refine (srcs_foldl (fun s a => ?_) _ _).trans ?_) | simp | dsimp only)

@[simp] theorem srcs_updatePart (s : State) (n z : Nat) (f : Part → Part) : (State.updatePart s n z f).srcs = s.srcs := by
  unfold State.updatePart
  repeat' (first | split | with_reducible rfl | (with_reducible refine (srcs_updatePage _ _ _ (fun p => ?_)).trans ?_) | (with_reducible refine (srcs_foldl (fun s a => ?_) _ _).trans ?_) | simp | dsimp only)

@[simp] theorem srcs_leaveJobs (s : State) : (State.leaveJobs s).srcs = s.srcs := by
  unfold State.leaveJobs
  repeat' (first | split | with_reducible rfl | (with_reducible refine (srcs_updatePage _ _ _ (fun p => ?_)).trans ?_) | (with_reducible refine (srcs_foldl (fun s a => ?_) _ _).trans ?_) | simp | dsimp only)

@[simp] theorem srcs_countDrillDrop (s : State) : (State.countDrillDrop s).srcs = s.srcs := by
  unfold State.countDrillDrop
  repeat' (first | split | with_reducible rfl | (with_reducible refine (srcs_updatePage _ _ _ (fun p => ?_)).trans ?_) | (with_reducible refine (srcs_foldl (fun s a => ?_) _ _).trans ?_) | simp | dsimp only)

@[simp] theorem srcs_dropPart (s : State) (n z : Nat) (r : DropReason) : (State.dropPart s n z r).srcs = s.srcs := by
  unfold State.dropPart
  repeat' (first | split | with_reducible rfl | (with_reducible refine (srcs_updatePage _ _ _ (fun p => ?_)).trans ?_) | (with_reducible refine (srcs_foldl (fun s a => ?_) _ _).trans ?_) | simp | dsimp only)

@[simp] theorem srcs_donePart (s : State) (n z : Nat) : (State.donePart s n z).srcs = s.srcs := by
  unfold State.donePart
  repeat' (first | split | with_reducible rfl | (with_reducible refine (srcs_updatePage _ _ _ (fun p => ?_)).trans ?_) | (with_reducible refine (srcs_foldl (fun s a => ?_) _ _).trans ?_) | simp | dsimp only)

@[simp] theorem srcs_tellDeferred (s : State) (n z since : Nat) (r : DeferReason) : (State.tellDeferred s n z since r).srcs = s.srcs := by
  unfold State.tellDeferred
  repeat' (first | split | with_reducible rfl | (with_reducible refine (srcs_updatePage _ _ _ (fun p => ?_)).trans ?_) | (with_reducible refine (srcs_foldl (fun s a => ?_) _ _).trans ?_) | simp | dsimp only)

theorem srcs_map (s : State) (f : Page → Page) (h : ∀ p, (f p).source = p.source) : (s.pgc.queue.map f).map Page.source = s.srcs := by
  simp only [State.srcs, List.map_map]
  exact List.map_congr_left fun p _ => h p

@[simp] theorem lose_source (p : Page) (z : Nat) (r : LossReason) : (p.lose z r).source = p.source := by
  unfold Page.lose
  dsimp only
  split <;> rfl

@[simp] theorem sorted_source (s : State) (p : Page) : (s.sorted p).source = p.source := by
  unfold State.sorted
  dsimp only
  split <;> rfl

/-- An update of a page's record that keeps its source. -/
theorem srcs_updatePage (s : State) (n : Nat) (f : Page → Page) (h : ∀ p, (f p).source = p.source) : (s.updatePage n f).srcs = s.srcs := by
  unfold State.updatePage
  exact srcs_map s _ fun p => by split <;> simp [h]

@[simp] theorem srcs_pageLoses (s : State) (n z : Nat) (r : LossReason) : (State.pageLoses s n z r).srcs = s.srcs := by
  unfold State.pageLoses
  repeat' (first | split | with_reducible rfl | (with_reducible refine (srcs_updatePage _ _ _ (fun p => ?_)).trans ?_) | (with_reducible refine (srcs_foldl (fun s a => ?_) _ _).trans ?_) | simp | dsimp only)

@[simp] theorem srcs_pageSuspended (s : State) (n z : Nat) : (State.pageSuspended s n z).srcs = s.srcs := by
  unfold State.pageSuspended
  repeat' (first | split | with_reducible rfl | (with_reducible refine (srcs_updatePage _ _ _ (fun p => ?_)).trans ?_) | (with_reducible refine (srcs_foldl (fun s a => ?_) _ _).trans ?_) | simp | dsimp only)

@[simp] theorem srcs_pageReturned (s : State) (n z : Nat) : (State.pageReturned s n z).srcs = s.srcs := by
  unfold State.pageReturned
  repeat' (first | split | with_reducible rfl | (with_reducible refine (srcs_updatePage _ _ _ (fun p => ?_)).trans ?_) | (with_reducible refine (srcs_foldl (fun s a => ?_) _ _).trans ?_) | simp | dsimp only)

@[simp] theorem srcs_waitersLose (s : State) (z : Nat) (r : LossReason) : (State.waitersLose s z r).srcs = s.srcs :=
  srcs_map s _ fun p => by split <;> simp

@[simp] theorem srcs_refreshReasons (s : State) (z : Nat) : (State.refreshReasons s z).srcs = s.srcs := by
  unfold State.refreshReasons
  repeat' (first | split | with_reducible rfl | (with_reducible refine (srcs_updatePage _ _ _ (fun p => ?_)).trans ?_) | (with_reducible refine (srcs_foldl (fun s a => ?_) _ _).trans ?_) | simp | dsimp only)

@[simp] theorem srcs_joinWaits (s : State) (w : Wait) (reason : DeferReason) : (State.joinWaits s w reason).srcs = s.srcs := by
  unfold State.joinWaits
  repeat' (first | split | with_reducible rfl | (with_reducible refine (srcs_updatePage _ _ _ (fun p => ?_)).trans ?_) | (with_reducible refine (srcs_foldl (fun s a => ?_) _ _).trans ?_) | simp | dsimp only)

@[simp] theorem srcs_leaveWaits (s : State) (n z : Nat) : (State.leaveWaits s n z).srcs = s.srcs := by
  unfold State.leaveWaits
  repeat' (first | split | with_reducible rfl | (with_reducible refine (srcs_updatePage _ _ _ (fun p => ?_)).trans ?_) | (with_reducible refine (srcs_foldl (fun s a => ?_) _ _).trans ?_) | simp | dsimp only)

@[simp] theorem srcs_leaveGroups (s : State) (n z : Nat) : (State.leaveGroups s n z).srcs = s.srcs := by
  unfold State.leaveGroups
  repeat' (first | split | with_reducible rfl | (with_reducible refine (srcs_updatePage _ _ _ (fun p => ?_)).trans ?_) | (with_reducible refine (srcs_foldl (fun s a => ?_) _ _).trans ?_) | simp | dsimp only)

@[simp] theorem srcs_clearWaits (s : State) (z : Nat) (r : DropReason) : (State.clearWaits s z r).srcs = s.srcs := by
  unfold State.clearWaits
  repeat' (first | split | with_reducible rfl | (with_reducible refine (srcs_updatePage _ _ _ (fun p => ?_)).trans ?_) | (with_reducible refine (srcs_foldl (fun s a => ?_) _ _).trans ?_) | simp | dsimp only)

@[simp] theorem srcs_tellDisplaced (s : State) (w : Taker) (z : Nat) : (State.tellDisplaced s w z).srcs = s.srcs := by
  unfold State.tellDisplaced
  repeat' (first | split | with_reducible rfl | (with_reducible refine (srcs_updatePage _ _ _ (fun p => ?_)).trans ?_) | (with_reducible refine (srcs_foldl (fun s a => ?_) _ _).trans ?_) | simp | dsimp only)

@[simp] theorem srcs_tellSuspended (s : State) (w : Taker) (z : Nat) : (State.tellSuspended s w z).srcs = s.srcs := by
  unfold State.tellSuspended
  repeat' (first | split | with_reducible rfl | (with_reducible refine (srcs_updatePage _ _ _ (fun p => ?_)).trans ?_) | (with_reducible refine (srcs_foldl (fun s a => ?_) _ _).trans ?_) | simp | dsimp only)

@[simp] theorem srcs_judgeWaits (s : State) (w : Taker) (z : Nat) : (State.judgeWaits s w z).srcs = s.srcs := by
  unfold State.judgeWaits
  repeat' (first | split | with_reducible rfl | (with_reducible refine (srcs_updatePage _ _ _ (fun p => ?_)).trans ?_) | (with_reducible refine (srcs_foldl (fun s a => ?_) _ _).trans ?_) | simp | dsimp only)

@[simp] theorem srcs_seat (s : State) (w : Taker) (z : Nat) : (State.seat s w z).srcs = s.srcs := by
  unfold State.seat
  repeat' (first | split | with_reducible rfl | (with_reducible refine (srcs_updatePage _ _ _ (fun p => ?_)).trans ?_) | (with_reducible refine (srcs_foldl (fun s a => ?_) _ _).trans ?_) | simp | dsimp only)

@[simp] theorem srcs_later (s : State) (w : Work) : (State.later s w).srcs = s.srcs := by
  unfold State.later
  repeat' (first | split | with_reducible rfl | (with_reducible refine (srcs_updatePage _ _ _ (fun p => ?_)).trans ?_) | (with_reducible refine (srcs_foldl (fun s a => ?_) _ _).trans ?_) | simp | dsimp only)

@[simp] theorem srcs_seekDrillTrunk (s : State) : (State.seekDrillTrunk s).srcs = s.srcs := by
  unfold State.seekDrillTrunk
  split <;> simp

@[simp] theorem srcs_takeZone (s : State) (w : Taker) (z : Nat) : (State.takeZone s w z).srcs = s.srcs := by
  unfold State.takeZone
  repeat' (first | split | with_reducible rfl | (with_reducible refine (srcs_updatePage _ _ _ (fun p => ?_)).trans ?_) | (with_reducible refine (srcs_foldl (fun s a => ?_) _ _).trans ?_) | simp | dsimp only)

@[simp] theorem srcs_claimAlarm (s : State) (zs : List Nat) : (State.claimAlarm s zs).srcs = s.srcs := by
  unfold State.claimAlarm
  repeat' (first | split | with_reducible rfl | (with_reducible refine (srcs_updatePage _ _ _ (fun p => ?_)).trans ?_) | (with_reducible refine (srcs_foldl (fun s a => ?_) _ _).trans ?_) | simp | dsimp only)

@[simp] theorem srcs_claimDrill (s : State) (zs : List Nat) : (State.claimDrill s zs).srcs = s.srcs := by
  unfold State.claimDrill
  repeat' (first | split | with_reducible rfl | (with_reducible refine (srcs_updatePage _ _ _ (fun p => ?_)).trans ?_) | (with_reducible refine (srcs_foldl (fun s a => ?_) _ _).trans ?_) | simp | dsimp only)

@[simp] theorem srcs_bellTakes (s : State) (n z : Nat) (tone : Option (Nat × Nat)) : (State.bellTakes s n z tone).srcs = s.srcs := by
  unfold State.bellTakes
  repeat' (first | split | with_reducible rfl | (with_reducible refine (srcs_updatePage _ _ _ (fun p => ?_)).trans ?_) | (with_reducible refine (srcs_foldl (fun s a => ?_) _ _).trans ?_) | simp | dsimp only)

@[simp] theorem srcs_returnZone (s : State) (z : Nat) : (State.returnZone s z).srcs = s.srcs := by
  unfold State.returnZone
  repeat' (first | split | with_reducible rfl | (with_reducible refine (srcs_updatePage _ _ _ (fun p => ?_)).trans ?_) | (with_reducible refine (srcs_foldl (fun s a => ?_) _ _).trans ?_) | simp | dsimp only)

@[simp] theorem srcs_holdersEnd (s : State) (zs : List Nat) : (State.holdersEnd s zs).srcs = s.srcs := by
  unfold State.holdersEnd
  repeat' (first | split | with_reducible rfl | (with_reducible refine (srcs_updatePage _ _ _ (fun p => ?_)).trans ?_) | (with_reducible refine (srcs_foldl (fun s a => ?_) _ _).trans ?_) | simp | dsimp only)

@[simp] theorem srcs_releaseZones (s : State) (mine : Holder → Bool) (mineUnder : Suspended → Bool) (zs : List Nat) : (State.releaseZones s mine mineUnder zs).srcs = s.srcs := by
  unfold State.releaseZones
  repeat' (first | split | with_reducible rfl | (with_reducible refine (srcs_updatePage _ _ _ (fun p => ?_)).trans ?_) | (with_reducible refine (srcs_foldl (fun s a => ?_) _ _).trans ?_) | simp | dsimp only)

@[simp] theorem srcs_loseZone (s : State) (z : Nat) : (State.loseZone s z).srcs = s.srcs := by
  unfold State.loseZone
  repeat' (first | split | with_reducible rfl | (with_reducible refine (srcs_updatePage _ _ _ (fun p => ?_)).trans ?_) | (with_reducible refine (srcs_foldl (fun s a => ?_) _ _).trans ?_) | simp | dsimp only)

@[simp] theorem srcs_gainZone (s : State) (z : Nat) : (State.gainZone s z).srcs = s.srcs := by
  unfold State.gainZone
  repeat' (first | split | with_reducible rfl | (with_reducible refine (srcs_updatePage _ _ _ (fun p => ?_)).trans ?_) | (with_reducible refine (srcs_foldl (fun s a => ?_) _ _).trans ?_) | simp | dsimp only)

@[simp] theorem srcs_lineDown (s : State) (l : Nat) : (State.lineDown s l).srcs = s.srcs := by
  unfold State.lineDown
  repeat' (first | split | with_reducible rfl | (with_reducible refine (srcs_updatePage _ _ _ (fun p => ?_)).trans ?_) | (with_reducible refine (srcs_foldl (fun s a => ?_) _ _).trans ?_) | simp | dsimp only)

@[simp] theorem srcs_lineUp (s : State) (l : Nat) : (State.lineUp s l).srcs = s.srcs := by
  unfold State.lineUp
  repeat' (first | split | with_reducible rfl | (with_reducible refine (srcs_updatePage _ _ _ (fun p => ?_)).trans ?_) | (with_reducible refine (srcs_foldl (fun s a => ?_) _ _).trans ?_) | simp | dsimp only)

/-! ### Machine/Trunks.lean -/

@[simp] theorem srcs_grant (s : State) (t : Nat) (program : TrunkProgram) (tone : Option Timeline) (toneSince toneUntil : Option Nat) :
    (State.grant s t program tone toneSince toneUntil).srcs = s.srcs := by
  unfold State.grant
  repeat' (first | split | with_reducible rfl | (with_reducible refine (srcs_updatePage _ _ _ (fun p => ?_)).trans ?_) | (with_reducible refine (srcs_foldl (fun s a => ?_) _ _).trans ?_) | simp | dsimp only)

@[simp] theorem srcs_freeTrunks (s : State) (ts : List Nat) : (State.freeTrunks s ts).srcs = s.srcs :=
  srcs_foldl (fun s t => srcs_setTrunk s t _) _ _

@[simp] theorem srcs_releaseTrunks (s : State) : (State.releaseTrunks s).srcs = s.srcs := by
  unfold State.releaseTrunks
  repeat' (first | split | with_reducible rfl | (with_reducible refine (srcs_updatePage _ _ _ (fun p => ?_)).trans ?_) | (with_reducible refine (srcs_foldl (fun s a => ?_) _ _).trans ?_) | simp | dsimp only)

@[simp] theorem srcs_releaseOwn (s : State) (kept : List Nat) : (State.releaseOwn s kept).srcs = s.srcs := srcs_freeTrunks _ _

@[simp] theorem srcs_releaseNow (s : State) (kept : List Nat) : (State.releaseNow s kept).srcs = s.srcs := by
  unfold State.releaseNow
  split <;> simp

@[simp] theorem srcs_forceTakes (s : State) (n z : Nat) (tone : Option (Nat × Nat)) : (State.forceTakes s n z tone).srcs = s.srcs := by
  unfold State.forceTakes
  repeat' (first | split | with_reducible rfl | (with_reducible refine (srcs_updatePage _ _ _ (fun p => ?_)).trans ?_) | (with_reducible refine (srcs_foldl (fun s a => ?_) _ _).trans ?_) | simp | dsimp only)

@[simp] theorem srcs_sortPage (s : State) (n : Nat) : (State.sortPage s n).srcs = s.srcs := by
  unfold State.sortPage
  repeat' (first | split | with_reducible rfl | (with_reducible refine (srcs_updatePage _ _ _ (fun p => ?_)).trans ?_) | (with_reducible refine (srcs_foldl (fun s a => ?_) _ _).trans ?_) | simp | dsimp only)

@[simp] theorem srcs_startPage (s : State) (n t : Nat) : (State.startPage s n t).srcs = s.srcs := by
  unfold State.startPage
  repeat' (first | split | with_reducible rfl | (with_reducible refine (srcs_updatePage _ _ _ (fun p => ?_)).trans ?_) | (with_reducible refine (srcs_foldl (fun s a => ?_) _ _).trans ?_) | simp | dsimp only)

@[simp] theorem srcs_enterLive (s : State) (n t : Nat) : (State.enterLive s n t).srcs = s.srcs := by
  unfold State.enterLive
  repeat' (first | split | with_reducible rfl | (with_reducible refine (srcs_updatePage _ _ _ (fun p => ?_)).trans ?_) | (with_reducible refine (srcs_foldl (fun s a => ?_) _ _).trans ?_) | simp | dsimp only)

@[simp] theorem srcs_enterChime (s : State) (n t : Nat) (pretone : Option Nat) : (State.enterChime s n t pretone).srcs = s.srcs := by
  unfold State.enterChime
  repeat' (first | split | with_reducible rfl | (with_reducible refine (srcs_updatePage _ _ _ (fun p => ?_)).trans ?_) | (with_reducible refine (srcs_foldl (fun s a => ?_) _ _).trans ?_) | simp | dsimp only)

@[simp] theorem srcs_claimForPage (n prio t : Nat) (s : State) (z : Nat) : (State.claimForPage n prio t s z).srcs = s.srcs := by
  unfold State.claimForPage
  repeat' (first | split | with_reducible rfl | (with_reducible refine (srcs_updatePage _ _ _ (fun p => ?_)).trans ?_) | (with_reducible refine (srcs_foldl (fun s a => ?_) _ _).trans ?_) | simp | dsimp only)

@[simp] theorem srcs_claimPage (s : State) (n : Nat) : (State.claimPage s n).srcs = s.srcs := by
  unfold State.claimPage
  repeat' (first | split | with_reducible rfl | (with_reducible refine (srcs_updatePage _ _ _ (fun p => ?_)).trans ?_) | (with_reducible refine (srcs_foldl (fun s a => ?_) _ _).trans ?_) | simp | dsimp only)

@[simp] theorem srcs_offerZone (s : State) (z : Nat) : (State.offerZone s z).srcs = s.srcs := by
  unfold State.offerZone
  repeat' (first | split | with_reducible rfl | (with_reducible refine (srcs_updatePage _ _ _ (fun p => ?_)).trans ?_) | (with_reducible refine (srcs_foldl (fun s a => ?_) _ _).trans ?_) | simp | dsimp only)

@[simp] theorem srcs_joinGroup (s : State) (w : Wait) : (State.joinGroup s w).srcs = s.srcs := by
  unfold State.joinGroup
  split <;> rfl

@[simp] theorem srcs_serveZone (pausedPage : Option Nat) (s : State) (z : Nat) : (State.serveZone pausedPage s z).1.srcs = s.srcs := by
  unfold State.serveZone
  repeat' (first | split | with_reducible rfl | (with_reducible refine (srcs_updatePage _ _ _ (fun p => ?_)).trans ?_) | (with_reducible refine (srcs_foldl (fun s a => ?_) _ _).trans ?_) | simp | dsimp only)

@[simp] theorem srcs_serveZones (pausedPage : Option Nat) (zs : List Nat) (s : State) :
    (State.serveZones pausedPage zs s).1.srcs = s.srcs := by
  induction zs generalizing s with
  | nil => rfl
  | cons z zs ih => simp [State.serveZones, ih]

@[simp] theorem srcs_numberGiven (s : State) (job num : Nat) : (State.numberGiven s job num).srcs = s.srcs := rfl

@[simp] theorem srcs_waitForTrunk (s : State) (g : StartGroup) (ws : List Wait) : (State.waitForTrunk s g ws).srcs = s.srcs := by
  unfold State.waitForTrunk
  repeat' (first | split | simp | (refine (srcs_foldl (fun s a => ?_) _ _).trans ?_) | dsimp only | rfl)

@[simp] theorem srcs_leaveUngranted (s : State) (g : StartGroup) : (State.leaveUngranted s g).srcs = s.srcs := by
  unfold State.leaveUngranted
  repeat' (first | split | with_reducible rfl | (with_reducible refine (srcs_updatePage _ _ _ (fun p => ?_)).trans ?_) | (with_reducible refine (srcs_foldl (fun s a => ?_) _ _).trans ?_) | simp | dsimp only)

@[simp] theorem srcs_turnDown (s : State) (gs : List StartGroup) : (State.turnDown s gs).srcs = s.srcs := by
  unfold State.turnDown
  rw [srcs_push]
  exact srcs_foldl (fun s g => srcs_leaveUngranted s g) _ _

@[simp] theorem srcs_ungranted (s : State) : (State.ungranted s).srcs = s.srcs := srcs_turnDown _ _

@[simp] theorem srcs_served (s : State) (zs : List Nat) (freed : Bool) (gs : List StartGroup) : (State.served s zs freed gs).srcs = s.srcs := by
  unfold State.served
  dsimp only
  split
  · simp
  · split <;> simp

@[simp] theorem srcs_serve (s : State) (zs : List Nat) (pausedPage : Option Nat) (freed : Bool) : (State.serve s zs pausedPage freed).srcs = s.srcs := by
  simp [State.serve]

@[simp] theorem srcs_deferPart (s : State) (w : Wait) (r : DeferReason) (tone : Option (Nat × Nat)) : (State.deferPart s w r tone).srcs = s.srcs := by
  unfold State.deferPart
  repeat' (first | split | with_reducible rfl | (with_reducible refine (srcs_updatePage _ _ _ (fun p => ?_)).trans ?_) | (with_reducible refine (srcs_foldl (fun s a => ?_) _ _).trans ?_) | simp | dsimp only)

@[simp] theorem srcs_claimMember (g : StartGroup) (num t : Nat) (s : State) (w : Wait) : (State.claimMember g num t s w).srcs = s.srcs := by
  unfold State.claimMember
  repeat' (first | split | with_reducible rfl | (with_reducible refine (srcs_updatePage _ _ _ (fun p => ?_)).trans ?_) | (with_reducible refine (srcs_foldl (fun s a => ?_) _ _).trans ?_) | simp | dsimp only)

@[simp] theorem srcs_grantTone (s : State) (t job num : Nat) : (State.grantTone s t job num).srcs = s.srcs := srcs_grant _ _ _ _ _ _

@[simp] theorem srcs_grantGroup (s : State) (g : StartGroup) (t : Nat) : (State.grantGroup s g t).srcs = s.srcs := by
  unfold State.grantGroup
  repeat' (first | split | with_reducible rfl | (with_reducible refine (srcs_updatePage _ _ _ (fun p => ?_)).trans ?_) | (with_reducible refine (srcs_foldl (fun s a => ?_) _ _).trans ?_) | simp | dsimp only)

@[simp] theorem srcs_raiseStage (s : State) : (State.raiseStage s).srcs = s.srcs := by
  unfold State.raiseStage
  repeat' (first | split | with_reducible rfl | (with_reducible refine (srcs_updatePage _ _ _ (fun p => ?_)).trans ?_) | (with_reducible refine (srcs_foldl (fun s a => ?_) _ _).trans ?_) | simp | dsimp only)

@[simp] theorem srcs_grantDrill (s : State) (t : Nat) : (State.grantDrill s t).srcs = s.srcs := by
  unfold State.grantDrill
  repeat' (first | split | with_reducible rfl | (with_reducible refine (srcs_updatePage _ _ _ (fun p => ?_)).trans ?_) | (with_reducible refine (srcs_foldl (fun s a => ?_) _ _).trans ?_) | simp | dsimp only)

@[simp] theorem srcs_releaseDrillTrunk (s : State) : (State.releaseDrillTrunk s).srcs = s.srcs := by
  unfold State.releaseDrillTrunk
  repeat' (first | split | with_reducible rfl | (with_reducible refine (srcs_updatePage _ _ _ (fun p => ?_)).trans ?_) | (with_reducible refine (srcs_foldl (fun s a => ?_) _ _).trans ?_) | simp | dsimp only)

@[simp] theorem srcs_stripTone (s : State) (t job : Nat) : (s.stripTone t job).1.srcs = s.srcs := by
  unfold State.stripTone
  simp only [srcs_setTrunk]
  refine (srcs_foldl (fun s z => srcs_returnZone s z) _ _).trans ?_
  exact srcs_foldl (fun s z => srcs_dropPart s job z _) _ _

@[simp] theorem srcs_stripPage (s : State) (p : Page) (t : Nat) : (s.stripPage p t).1.srcs = s.srcs := by
  unfold State.stripPage
  simp only [srcs_setTrunk]
  refine (srcs_foldl (fun s z => srcs_returnZone s z) _ _).trans ?_
  refine (srcs_foldl (fun s z => srcs_setZone s z _) _ _).trans ?_
  exact srcs_foldl (fun s z => srcs_pageLoses s p.num z _) _ _

theorem srcs_preempt {s s' : State} {t : Nat} {zs : List Nat} (h : s.preempt = some (t, s', zs)) : s'.srcs = s.srcs := by
  unfold State.preempt at h
  split at h
  · split at h
    · cases h
      exact srcs_stripTone s _ _
    · cases h
  · split at h
    · split at h
      · cases h
        exact srcs_stripPage s _ _
      · cases h
    · cases h

@[simp] theorem srcs_considerPages (free : Option Nat) (ps : List Page) (s : State) :
    (State.considerPages free ps s).1.srcs = s.srcs := by
  induction ps generalizing s with
  | nil => rfl
  | cons p ps ih =>
    unfold State.considerPages
    dsimp only
    split
    · split
      · simp
      · split
        · rename_i h
          simp [srcs_preempt h]
        · simp [ih]
    · simp [ih]

@[simp] theorem srcs_considerRoutine (whole : Bool) (s : State) (t : Nat) : (s.considerRoutine whole t).1.srcs = s.srcs := by
  unfold State.considerRoutine
  split <;> simp

@[simp] theorem srcs_considerBells (whole : Bool) (s : State) (t : Nat) : (s.considerBells whole t).1.srcs = s.srcs := by
  unfold State.considerBells
  repeat' (first | split | simp)

@[simp] theorem srcs_passOnce (whole : Bool) (s : State) : (s.passOnce whole).1.srcs = s.srcs := by
  unfold State.passOnce
  split
  · split
    · simp
    · dsimp only
      split <;> simp
  · split
    · split
      · rename_i h
        simp [srcs_preempt h]
      · simp
    · simp

@[simp] theorem srcs_markSignal (s : State) : (State.markSignal s).srcs = s.srcs := by
  unfold State.markSignal
  repeat' (first | split | with_reducible rfl | (with_reducible refine (srcs_updatePage _ _ _ (fun p => ?_)).trans ?_) | (with_reducible refine (srcs_foldl (fun s a => ?_) _ _).trans ?_) | simp | dsimp only)

@[simp] theorem srcs_pass (s : State) : s.pass.srcs = s.srcs := by
  have h := srcs_passOnce true s
  unfold State.pass
  split <;> simp_all

@[simp] theorem srcs_grants (s : State) : s.grants.srcs = s.srcs := by
  have h := srcs_passOnce false s
  unfold State.grants
  split <;> simp_all

@[simp] theorem srcs_raisePageEnd (s : State) (p : Page) (r : PageReason) : (State.raisePageEnd s p r).srcs = s.srcs := by
  unfold State.raisePageEnd
  repeat' (first | split | with_reducible rfl | (with_reducible refine (srcs_updatePage _ _ _ (fun p => ?_)).trans ?_) | (with_reducible refine (srcs_foldl (fun s a => ?_) _ _).trans ?_) | simp | dsimp only)

@[simp] theorem srcs_tellEnded (s : State) (p : Page) : (State.tellEnded s p).srcs = s.srcs := by
  unfold State.tellEnded
  repeat' (first | split | with_reducible rfl | (with_reducible refine (srcs_updatePage _ _ _ (fun p => ?_)).trans ?_) | (with_reducible refine (srcs_foldl (fun s a => ?_) _ _).trans ?_) | simp | dsimp only)

theorem srcs_finalizePages (s : State) : s.finalizePages.srcs.Sublist s.srcs := by
  have h : (s.pgc.queue.foldl State.tellEnded s).srcs = s.srcs := srcs_foldl srcs_tellEnded _ _
  rw [← h]
  exact List.filter_sublist.map _

@[simp] theorem srcs_doWork (s : State) (w : Work) : (s.doWork w).srcs = s.srcs := by
  unfold State.doWork
  split
  all_goals first | (simp; done) | exact srcs_foldl srcs_offerZone _ _

theorem srcs_settleFor (k : Nat) (s : State) : (settleFor k s).srcs.Sublist s.srcs := by
  induction k generalizing s with
  | zero => exact srcs_finalizePages _
  | succ k ih =>
    unfold settleFor
    split
    · exact srcs_finalizePages s
    · refine (ih _).trans ?_
      simp

/-- Pages only leave the queue as a command ends. -/
theorem srcs_settle (s : State) : s.settle.srcs.Sublist s.srcs := srcs_settleFor 4096 s

@[simp] theorem srcs_meetLimit (tone : Option (Nat × Nat)) (s : State) (w : Wait) : (State.meetLimit tone s w).srcs = s.srcs := by
  unfold State.meetLimit
  repeat' (first | split | with_reducible rfl | (with_reducible refine (srcs_updatePage _ _ _ (fun p => ?_)).trans ?_) | (with_reducible refine (srcs_foldl (fun s a => ?_) _ _).trans ?_) | simp | dsimp only)

@[simp] theorem srcs_expireWaits (s : State) (n : Nat) : (State.expireWaits s n).srcs = s.srcs := by
  unfold State.expireWaits
  repeat' (first | split | with_reducible rfl | (with_reducible refine (srcs_updatePage _ _ _ (fun p => ?_)).trans ?_) | (with_reducible refine (srcs_foldl (fun s a => ?_) _ _).trans ?_) | simp | dsimp only)

end Sys2Proof.Machine
end

