-- ==== Sys2Proof/WellFormed.lean ====
section
/-! DEFINITION. Which commands can come from outside: the values that a request line, a pin, the reference line or a field
device can carry. A value that the manual refuses by name (NO RANGE, NO SYNTAX) or holds at a limit is well formed; what
no line or frame can spell is not. `exec` gives every command a meaning all the same. -/

set_option autoImplicit false

namespace Sys2Proof

/-- The check an ill-formed command fails. -/
inductive IllFormed where
  | address
  | frameLength
  | number
  | label
  | namesTwice
deriving DecidableEq, Repr

/-- A field device's address is one of 1 to 24 (section 1.3). -/
def addressOk (a : Nat) : Bool := decide (1 ≤ a) && decide (a ≤ 24)

/-- A line frame has 3 to 18 bytes (R50). -/
def frameOk (bytes : List Byte) : Bool := decide (3 ≤ bytes.length) && decide (bytes.length ≤ 18)

/-- A number that a request line of 80 characters can carry (R169). -/
def numberOk (n : Nat) : Bool := decide (n < 10 ^ 80)

/-- A label is typed in printable characters (R87, R169). -/
def codesOk (cs : List Nat) : Bool := cs.all fun c => decide (32 ≤ c) && decide (c ≤ 126)

/-- The numbers of a field. -/
def Field.numbers : Field → List Nat
  | .num n | .zone n | .line n | .pattern n | .group n | .dayPlan n | .program n => [n]
  | .zones ns | .lines ns => ns
  | .date d => [d.year, d.month, d.day]
  | .time t => [t.hour, t.minute, t.second]
  | _ => []

def Field.typed : Field → Bool
  | .label cs => codesOk cs
  | _ => true

/-- The check that a command fails, if it fails one. -/
def Instr.fault (c : Instr) : Option IllFormed :=
  match c with
  | .roomClockFrame _ a bs | .bellUnitCommand _ a bs | .speakerNodeCommand _ a bs | .deviceLoopUp _ a bs
  | .deviceLoopDown _ a bs =>
    if !addressOk a then some .address else if !frameOk bs then some .frameLength else none
  | .holdForExpiry _ a | .speakerSilenceMute _ a | .clearStationPress _ a | .echoTimeout _ a
  | .amplifierFaultChange _ a _ => if addressOk a then none else some .address
  | .provingFrame _ bs => if bs.length ≤ 16 then none else some .frameLength
  | .controllerRestart rs => if rs.Nodup then none else some .namesTwice
  | .write _ _ fs =>
    if !fs.all Field.typed then some .label
    else if !fs.all (fun f => f.numbers.all numberOk) then some .number else none
  | .ring _ _ g p _ => if numberOk g && numberOk p then none else some .number
  | .page _ _ _ n _ t l _ => if numberOk n && t.all numberOk && l.all numberOk then none else some .number
  | .note _ _ a b => if numberOk a && numberOk b then none else some .number
  | .select _ _ _ _ n _ => if numberOk n then none else some .number
  | _ => none

def Instr.wellFormed (c : Instr) : Bool := c.fault.isNone

end Sys2Proof
end

