-- ==== Sys2Proof/Laws/PerInstr.lean ====
section
/-! SUPPORT. A fact about every command as syntax, one lemma for each constructor: a well-formed command of a field device names
an address of 1 to 24 (section 1.3). -/

set_option autoImplicit false

namespace Sys2Proof.Laws

open Sys2Proof

/-- A well-formed command that acts on a field device names an address that its line has. -/
def AddressExists.Statement (i : Instr) : Prop :=
  i.wellFormed = true → ∀ (l : Fin 6) (a : Nat), i.device? = some (l, a) → 1 ≤ a ∧ a ≤ 24

theorem AddressExists.ofNone {i : Instr} (h : i.device? = none) : AddressExists.Statement i := by
  intro _ l a g
  rw [h] at g
  cases g

theorem AddressExists.ofAddress {i : Instr} {l : Fin 6} {a : Nat} (h : i.device? = some (l, a))
    (g : i.wellFormed = true → addressOk a = true) : AddressExists.Statement i := by
  intro w l' a' e
  rw [h] at e
  cases e
  simpa [addressOk] using g w

theorem addressOk_of_frame {a : Nat} {bs : List Byte}
    (w : (if !addressOk a then some IllFormed.address else if !frameOk bs then some IllFormed.frameLength else none).isNone = true) :
    addressOk a = true := by
  split at w
  · cases w
  · simp_all

theorem addressOk_of_timer {a : Nat} (w : (if addressOk a then none else some IllFormed.address).isNone = true) :
    addressOk a = true := by
  split at w
  · assumption
  · cases w

theorem AddressExists.powerOn (batteryGood : Bool) (seconds : Nat) : Statement (.powerOn batteryGood seconds) :=
  AddressExists.ofNone rfl

theorem AddressExists.powerLoss (recordTorn numberTorn : Bool) : Statement (.powerLoss recordTorn numberTorn) :=
  AddressExists.ofNone rfl

theorem AddressExists.controllerRestart (failed : List Region) : Statement (.controllerRestart failed) := AddressExists.ofNone rfl

theorem AddressExists.secondBoundary : Statement .secondBoundary := AddressExists.ofNone rfl

theorem AddressExists.holdoverAgeUnsync : Statement .holdoverAgeUnsync := AddressExists.ofNone rfl

theorem AddressExists.referenceMark (date : WrittenDate) (time : WrittenTime) : Statement (.referenceMark date time) :=
  AddressExists.ofNone rfl

theorem AddressExists.silenceSlot : Statement .silenceSlot := AddressExists.ofNone rfl

theorem AddressExists.referenceAbsent : Statement .referenceAbsent := AddressExists.ofNone rfl

theorem AddressExists.time (p : Port) (op : Fin 16) : Statement (.time p op) := AddressExists.ofNone rfl

theorem AddressExists.settime (p : Port) (op : Fin 16) (date : WrittenDate) (time : WrittenTime) (ms : Nat) : Statement (.settime p op date time ms) :=
  AddressExists.ofNone rfl

theorem AddressExists.adjust (p : Port) (op : Fin 16) (ms : Int) : Statement (.adjust p op ms) := AddressExists.ofNone rfl

theorem AddressExists.deferralLimitExpiry (job : Nat) : Statement (.deferralLimitExpiry job) := AddressExists.ofNone rfl

theorem AddressExists.sounderTimelineChange (job zone : Nat) : Statement (.sounderTimelineChange job zone) :=
  AddressExists.ofNone rfl

theorem AddressExists.toneEnd (t : Fin 4) : Statement (.toneEnd t) := AddressExists.ofNone rfl

theorem AddressExists.ring (p : Port) (op : Fin 16) (group pattern : Nat) (medium : EntryMedium) : Statement (.ring p op group pattern medium) :=
  AddressExists.ofNone rfl

theorem AddressExists.bells (p : Port) (op : Fin 16) : Statement (.bells p op) := AddressExists.ofNone rfl

theorem AddressExists.page (p : Port) (op : Fin 16) (source : Source) (prio : Nat) (zones : ZoneNames) (pretone limit : Option Nat) (part : Bool) : Statement (.page p op source prio zones pretone limit part) :=
  AddressExists.ofNone rfl

theorem AddressExists.pretoneEnd (t : Fin 4) : Statement (.pretoneEnd t) := AddressExists.ofNone rfl

theorem AddressExists.trunkLevelChange (t : Fin 4) (silent : Bool) : Statement (.trunkLevelChange t silent) :=
  AddressExists.ofNone rfl

theorem AddressExists.pause (t : Fin 4) : Statement (.pause t) := AddressExists.ofNone rfl

theorem AddressExists.idle (t : Fin 4) : Statement (.idle t) := AddressExists.ofNone rfl

theorem AddressExists.pageLimitExpiry (page : Nat) : Statement (.pageLimitExpiry page) := AddressExists.ofNone rfl

theorem AddressExists.endPage (p : Port) (op : Fin 16) (page : Nat) : Statement (.endPage p op page) := AddressExists.ofNone rfl

theorem AddressExists.cancel (p : Port) (op : Fin 16) (page : Nat) : Statement (.cancel p op page) := AddressExists.ofNone rfl

theorem AddressExists.pages (p : Port) (op : Fin 16) : Statement (.pages p op) := AddressExists.ofNone rfl

theorem AddressExists.inputRawChange (i : PanelInput) (raw : RawLevel) : Statement (.inputRawChange i raw) :=
  AddressExists.ofNone rfl

theorem AddressExists.debounceExpiry (i : PanelInput) : Statement (.debounceExpiry i) := AddressExists.ofNone rfl

theorem AddressExists.wiringStateChange (i : PanelInput) : Statement (.wiringStateChange i) := AddressExists.ofNone rfl

theorem AddressExists.restoreTimerExpiry : Statement .restoreTimerExpiry := AddressExists.ofNone rfl

theorem AddressExists.panelSampleComplete : Statement .panelSampleComplete := AddressExists.ofNone rfl

theorem AddressExists.drill (p : Port) (op : Fin 16) (program : Nat) (building : Option (List Nat)) : Statement (.drill p op program building) :=
  AddressExists.ofNone rfl

theorem AddressExists.ackTimerExpiry : Statement .ackTimerExpiry := AddressExists.ofNone rfl

theorem AddressExists.drillTimelineChange : Statement .drillTimelineChange := AddressExists.ofNone rfl

theorem AddressExists.stageExpiry : Statement .stageExpiry := AddressExists.ofNone rfl

theorem AddressExists.advance (p : Port) (op : Fin 16) (stage : Nat) : Statement (.advance p op stage) := AddressExists.ofNone rfl

theorem AddressExists.abort (p : Port) (op : Fin 16) : Statement (.abort p op) := AddressExists.ofNone rfl

theorem AddressExists.drillrec (p : Port) (op : Fin 16) (index : Option Nat) : Statement (.drillrec p op index) :=
  AddressExists.ofNone rfl

theorem AddressExists.provingEnd (l : Fin 6) : Statement (.provingEnd l) := AddressExists.ofNone rfl

theorem AddressExists.poweringEnd (l : Fin 6) : Statement (.poweringEnd l) := AddressExists.ofNone rfl

theorem AddressExists.timeFrame (l : Fin 6) : Statement (.timeFrame l) := AddressExists.ofNone rfl

theorem AddressExists.discoveryPoll (l : Fin 6) : Statement (.discoveryPoll l) := AddressExists.ofNone rfl

theorem AddressExists.poll (l : Fin 6) : Statement (.poll l) := AddressExists.ofNone rfl

theorem AddressExists.searchPoll (l : Fin 6) : Statement (.searchPoll l) := AddressExists.ofNone rfl

theorem AddressExists.recoveryPoll (l : Fin 6) : Statement (.recoveryPoll l) := AddressExists.ofNone rfl

theorem AddressExists.zoneOutputCommand (l : Fin 6) : Statement (.zoneOutputCommand l) := AddressExists.ofNone rfl

theorem AddressExists.clockSet (l : Fin 6) : Statement (.clockSet l) := AddressExists.ofNone rfl

theorem AddressExists.reply (l : Fin 6) (start : Nat) (bytes : List Byte) : Statement (.reply l start bytes) :=
  AddressExists.ofNone rfl

theorem AddressExists.miss (l : Fin 6) : Statement (.miss l) := AddressExists.ofNone rfl

theorem AddressExists.line (p : Port) (op : Fin 16) (n : Nat) : Statement (.line p op n) := AddressExists.ofNone rfl

theorem AddressExists.test (p : Port) (op : Fin 16) (n : Nat) (mode : TestMode) (seconds : Option Nat) : Statement (.test p op n mode seconds) :=
  AddressExists.ofNone rfl

theorem AddressExists.testRead (p : Port) (op : Fin 16) (n : Nat) : Statement (.testRead p op n) := AddressExists.ofNone rfl

theorem AddressExists.inject (p : Port) (op : Fin 16) (n : Nat) : Statement (.inject p op n) := AddressExists.ofNone rfl

theorem AddressExists.loopUp (l : Fin 6) : Statement (.loopUp l) := AddressExists.ofNone rfl

theorem AddressExists.provingFrame (l : Fin 6) (back : List Byte) : Statement (.provingFrame l back) := AddressExists.ofNone rfl

theorem AddressExists.echo (l : Fin 6) (start : Nat) (bytes : List Byte) : Statement (.echo l start bytes) :=
  AddressExists.ofNone rfl

theorem AddressExists.echoMissing (l : Fin 6) : Statement (.echoMissing l) := AddressExists.ofNone rfl

theorem AddressExists.noEchoTimeout (l : Fin 6) : Statement (.noEchoTimeout l) := AddressExists.ofNone rfl

theorem AddressExists.testDurationEnd (l : Fin 6) : Statement (.testDurationEnd l) := AddressExists.ofNone rfl

theorem AddressExists.loopDown (l : Fin 6) : Statement (.loopDown l) := AddressExists.ofNone rfl

theorem AddressExists.device (p : Port) (op : Fin 16) (n addr : Nat) : Statement (.device p op n addr) := AddressExists.ofNone rfl

theorem AddressExists.lines (p : Port) (op : Fin 16) : Statement (.lines p op) := AddressExists.ofNone rfl

theorem AddressExists.zone (p : Port) (op : Fin 16) (what : ZoneOrTrunk) : Statement (.zone p op what) := AddressExists.ofNone rfl

theorem AddressExists.select (p : Port) (op : Fin 16) (region : Region) (table : Tbl) (index : Nat) (bank : Bank) : Statement (.select p op region table index bank) :=
  AddressExists.ofNone rfl

theorem AddressExists.read (p : Port) (op : Fin 16) : Statement (.read p op) := AddressExists.ofNone rfl

theorem AddressExists.write (p : Port) (op : Fin 16) (fields : List Field) : Statement (.write p op fields) :=
  AddressExists.ofNone rfl

theorem AddressExists.empty (p : Port) (op : Fin 16) : Statement (.empty p op) := AddressExists.ofNone rfl

theorem AddressExists.hold (p : Port) (op : Fin 16) (region : Region) : Statement (.hold p op region) := AddressExists.ofNone rfl

theorem AddressExists.release (p : Port) (op : Fin 16) (region : Region) : Statement (.release p op region) :=
  AddressExists.ofNone rfl

theorem AddressExists.discard (p : Port) (op : Fin 16) (region : Region) : Statement (.discard p op region) :=
  AddressExists.ofNone rfl

theorem AddressExists.activate (p : Port) (op : Fin 16) (region : Region) : Statement (.activate p op region) :=
  AddressExists.ofNone rfl

theorem AddressExists.holdExpiry (region : Region) : Statement (.holdExpiry region) := AddressExists.ofNone rfl

theorem AddressExists.imageWriteEnd (region : Region) (good : Bool) : Statement (.imageWriteEnd region good) :=
  AddressExists.ofNone rfl

theorem AddressExists.keySwitchRun : Statement .keySwitchRun := AddressExists.ofNone rfl

theorem AddressExists.keySwitchSetup : Statement .keySwitchSetup := AddressExists.ofNone rfl

theorem AddressExists.next (p : Port) (op : Fin 16) : Statement (.next p op) := AddressExists.ofNone rfl

theorem AddressExists.clear (p : Port) (op : Fin 16) (kind : Option NoticeKind) (n : Nat) : Statement (.clear p op kind n) :=
  AddressExists.ofNone rfl

theorem AddressExists.quiet (p : Port) (op : Fin 16) (kind : Option NoticeKind) (on : Bool) : Statement (.quiet p op kind on) :=
  AddressExists.ofNone rfl

theorem AddressExists.attend (p : Port) (op : Fin 16) (mode : AttMode) : Statement (.attend p op mode) := AddressExists.ofNone rfl

theorem AddressExists.note (p : Port) (op : Fin 16) (slot value : Nat) : Statement (.note p op slot value) :=
  AddressExists.ofNone rfl

theorem AddressExists.notes (p : Port) (op : Fin 16) : Statement (.notes p op) := AddressExists.ofNone rfl

theorem AddressExists.signal (p : Port) (op : Fin 16) (n : Nat) : Statement (.signal p op n) := AddressExists.ofNone rfl

theorem AddressExists.lower (p : Port) (op : Fin 16) (n : Nat) : Statement (.lower p op n) := AddressExists.ofNone rfl

theorem AddressExists.status (p : Port) (op : Fin 16) : Statement (.status p op) := AddressExists.ofNone rfl

theorem AddressExists.restart (p : Port) (op : Fin 16) : Statement (.restart p op) := AddressExists.ofNone rfl

theorem AddressExists.unreadableLine (p : Port) : Statement (.unreadableLine p) := AddressExists.ofNone rfl

theorem AddressExists.unknownKeyword (p : Port) (why : LineFault) : Statement (.unknownKeyword p why) := AddressExists.ofNone rfl

theorem AddressExists.lineWhileBusy (p : Port) : Statement (.lineWhileBusy p) := AddressExists.ofNone rfl

theorem AddressExists.replySent (p : Port) : Statement (.replySent p) := AddressExists.ofNone rfl

theorem AddressExists.roomClockFrame (l : Fin 6) (addr : Nat) (bytes : List Byte) : Statement (.roomClockFrame l addr bytes) :=
  AddressExists.ofAddress rfl addressOk_of_frame

theorem AddressExists.bellUnitCommand (l : Fin 6) (addr : Nat) (bytes : List Byte) : Statement (.bellUnitCommand l addr bytes) :=
  AddressExists.ofAddress rfl addressOk_of_frame

theorem AddressExists.holdForExpiry (l : Fin 6) (addr : Nat) : Statement (.holdForExpiry l addr) :=
  AddressExists.ofAddress rfl addressOk_of_timer

theorem AddressExists.speakerNodeCommand (l : Fin 6) (addr : Nat) (bytes : List Byte) : Statement (.speakerNodeCommand l addr bytes) :=
  AddressExists.ofAddress rfl addressOk_of_frame

theorem AddressExists.speakerSilenceMute (l : Fin 6) (addr : Nat) : Statement (.speakerSilenceMute l addr) :=
  AddressExists.ofAddress rfl addressOk_of_timer

theorem AddressExists.clearStationPress (l : Fin 6) (addr : Nat) : Statement (.clearStationPress l addr) :=
  AddressExists.ofAddress rfl addressOk_of_timer

theorem AddressExists.deviceLoopUp (l : Fin 6) (addr : Nat) (bytes : List Byte) : Statement (.deviceLoopUp l addr bytes) :=
  AddressExists.ofAddress rfl addressOk_of_frame

theorem AddressExists.deviceLoopDown (l : Fin 6) (addr : Nat) (bytes : List Byte) : Statement (.deviceLoopDown l addr bytes) :=
  AddressExists.ofAddress rfl addressOk_of_frame

theorem AddressExists.echoTimeout (l : Fin 6) (addr : Nat) : Statement (.echoTimeout l addr) :=
  AddressExists.ofAddress rfl addressOk_of_timer

theorem AddressExists.amplifierFaultChange (l : Fin 6) (addr : Nat) (fault : Bool) : Statement (.amplifierFaultChange l addr fault) :=
  AddressExists.ofAddress rfl addressOk_of_timer

end Sys2Proof.Laws
end

