-- ==== Sys2Proof/Tests/Slice0.lean ====
section
/-! SUPPORT. Tests of the model: ill-formed commands are refused, the manual's worked examples come out as the manual says, and for
every statement of Certificates/Slice0/Obligations.lean with hypotheses a state that meets them. -/

set_option autoImplicit false
set_option Elab.async false

namespace Sys2Proof.Tests

open Sys2Proof Sys2Proof.Machine

/-! ### Helpers -/

/-- The controller 125 s after reset, its start-up over. -/
def rdy : State := { State.reset with now := 1000000, pnl := { State.reset.pnl with sampleUntil := none } }

/-- The same with the key switch in SETUP, which gives both ports EDIT over every region. -/
def edit : State := { rdy with setup := true }

/-- Whether a state rests, as a test that can be run. -/
def rests (s : State) : Bool :=
  s.ztc.agenda.isEmpty && (s.pgc.queue.all fun p => !p.hasEnded) && (s.ntu.get .a).attention == s.calls .a &&
    (s.ntu.get .b).attention == s.calls .b

theorem rests_law {s : State} (h : rests s = true) : s.restingLaw := by
  simp only [rests, Bool.and_eq_true, List.isEmpty_iff, beq_iff_eq] at h
  refine ⟨h.1.1.1, h.1.1.2, fun p => ?_⟩
  cases p
  · exact h.1.2
  · exact h.2

theorem ready_of {s : State} (h : (rests s && s.power) = true) : s.ready := by
  simp only [Bool.and_eq_true] at h
  exact ⟨rests_law h.1, h.2⟩

theorem takes_of {s : State} {p : Port} {op : Fin 16} {m : OpClass}
    (h : (rests s && s.reads && (s.port p).reply == none && s.classAllows p op m) = true) : s.takes p op m := by
  simp only [Bool.and_eq_true, beq_iff_eq] at h
  exact ⟨rests_law h.1.1.1, h.1.1.2, h.1.2, h.2⟩

theorem takesPlan_of {s : State} {p : Port} {op : Fin 16} {m : OpClass} {r : Region} {e : Bool}
    (h : (rests s && s.reads && (s.port p).reply == none && s.classAllows p op m && rightsAllow e (s.rights p r)) = true) :
    s.takesPlan p op m r e := by
  rw [Bool.and_eq_true] at h
  exact ⟨takes_of h.1, h.2⟩

/-- What a command answers, where it is a next state. -/
def after (c : Instr) (s : State) : State :=
  match exec c s with
  | .next t => t
  | _ => s

/-! ### Ill-formed commands -/

theorem test_ill_address : (Instr.clearStationPress 0 25).fault = some .address := by decide
theorem test_ill_frame : (Instr.roomClockFrame 0 1 [0, 0]).fault = some .frameLength := by decide
theorem test_ill_number : (Instr.note .a 0 (10 ^ 80) 0).fault = some .number := by decide
theorem test_ill_label : (Instr.write .a 0 [.label [31]]).fault = some .label := by decide
theorem test_ill_twice : (Instr.controllerRestart [.cal, .cal]).fault = some .namesTwice := by decide
theorem test_well_formed : (Instr.clearStationPress 5 24).wellFormed = true := by decide
theorem test_no_word : decodeTableWord 16 0 = none := rfl

/-! ### Worked examples of the manual -/

/-- Section 4.1: 2000-01-01 is day 0, a Saturday, and 2099-12-31 day 36,524. -/
theorem test_day_numbers :
    dayNumber ⟨2000, 1, 1⟩ = some 0 ∧ dayNumber ⟨2099, 12, 31⟩ = some 36524 ∧ weekdayOf 0 = 5 ∧ dayNumber ⟨2023, 2, 29⟩ = none ∧
      writtenDate 36524 = ⟨2099, 12, 31⟩ := by decide +kernel

/-- The Timebase Unit of section 1.5.1 just before its evaluation. -/
def tbu151 : Tbu := { rdy.tbu with disc := .locked, nudgeReady := true, drift := 120, acc := 3500, battery := { rdy.tbu.battery with drift := 120 } }

/-- The state of section 1.5.1 after `n` more seconds have started. -/
def seconds151 : Nat → Tbu
  | 0 => tbu151.slewBy 56 64
  | n + 1 => (seconds151 n).startSecond 4

/-- Section 1.5.1: the evaluation, and the seconds of its table. -/
theorem test_slew_example :
    (seconds151 0).slew = -56 ∧ (seconds151 0).drift = 56 ∧ (seconds151 0).battery.drift = 56 ∧
      ((seconds151 1).slew, (seconds151 1).acc, (seconds151 1).len) = (-52, 3556, 8004) ∧
      ((seconds151 2).slew, (seconds151 2).acc, (seconds151 2).len) = (-48, 12, 8003) ∧
      ((seconds151 14).slew, (seconds151 14).acc, (seconds151 14).len) = (0, 684, 8004) ∧
      ((seconds151 15).slew, (seconds151 15).acc, (seconds151 15).len) = (0, 740, 8000) := by decide +kernel

/-- Section 1.5.2: an offset of 2,400 steps, one of 1,600 does not and one of 1,601 does. -/
theorem test_step_threshold :
    ({ rdy.tbu with day := 9000, sec := 36929, phase := 5600 } : Tbu).isStep ⟨9000, 36930⟩ 200 = true ∧
      ({ rdy.tbu with day := 9000, sec := 36929, phase := 6400 } : Tbu).isStep ⟨9000, 36930⟩ 200 = false ∧
      ({ rdy.tbu with day := 9000, sec := 36929, phase := 6399 } : Tbu).isStep ⟨9000, 36930⟩ 200 = true := by decide +kernel

/-- Section 2.3.1: an estimate of 40 moves to 42, and 42 stays at a measurement of 41. -/
theorem test_delay : moveDelay (some 40) 72 = 42 ∧ moveDelay (some 42) 57 = 42 ∧ moveDelay (some 56) 80 = 57 ∧
    moveDelay (some 57) 80 = 57 := by decide

/-- A record of an address of the line of section 2.4.1. -/
def rec241 (k : DevKind) (st : DevState) : DevRec := { devRecStart 0 with kind := some k, state := st }

/-- The line of section 2.4.1 as its DISCOVERY ends. -/
def line241 : LineSt :=
  { lineStart 3 with recs := [(1, rec241 .clock .present), (2, rec241 .clock .missing), (5, rec241 .bell .present),
      (6, rec241 .speaker .present), (9, rec241 .clear .present), (10, rec241 .clear .present), (11, rec241 .speaker .foreign),
      (17, rec241 .speaker .unlisted)] }

/-- Section 2.4.1: the AUTO table. -/
theorem test_auto_table :
    line241.autoTable.take 13 = [1, 5, 6, 9, 10, 11, 17, 9, 10, 9, 10, 9, 10].map some ∧
      line241.autoTable.drop 13 = List.replicate 19 none := by decide +kernel

/-- Section 3.1: the values of the proving sequence. -/
theorem test_sequence : seqValue 0 = 5 ∧ seqValue 1 = 78 ∧ seqValue 112 = 0 ∧ seqValue 119 = 1 ∧ seqValue 127 = 5 := by decide

/-- Section 2.9: a poll of address 3 with no zone, and its check byte. -/
theorem test_poll_bytes : (Frame.poll 3 none).bytes = [0x02, 0x03, 0xFF, 0xFC] := by decide

/-- Section 2.9: bytes whose sum is not 0 modulo 256 are no frame. -/
theorem test_bad_check : readFrame [0x02, 0x03, 0xFF, 0xFB] = none := by decide

/-- Section 5.6.1: patterns P04 and P07, and P07 with an on time of 13,000 ms. -/
def pat561 (on7 : Nat) : Pat :=
  { repeats := [(4, 2), (7, 3)], groups := []
    segments := [(32, some ⟨1000, 500⟩), (33, some ⟨3000, 0⟩), (56, some ⟨on7, 5000⟩)] }

theorem test_pattern_four :
    (pat561 10000).timeline 4 = { ons := [⟨0, 1000⟩, ⟨1500, 4500⟩, ⟨4500, 5500⟩, ⟨6000, 9000⟩], cycle := 9000 } ∧
      ((pat561 10000).timeline 4).length = 9000 := by decide +kernel

theorem test_pattern_seven :
    ((pat561 10000).timeline 7).length = 25000 ∧ ((pat561 10000).timeline 7).ons.length = 2 ∧
      ((pat561 10000).timeline 7).cycle = 30000 ∧ ((pat561 13000).timeline 7).length = 30000 := by decide +kernel

/-! ### Witnesses: the step and the whole machine -/

theorem test_witness_EmptyQueueLetsAnEighthPass :
    rdy.pending = [] ∧ rdy.power = true ∧ ({ rdy with power := false } : State).power = false := ⟨rfl, rfl, rfl⟩

/-- Start-up over, with a command waiting. -/
def waiting : State := { rdy with pending := [.keySwitchSetup] }

theorem test_witness_RestingLawKept : waiting.restingLaw ∧ ∃ t, step waiting = .next t := ⟨rests_law (by decide +kernel), _, rfl⟩

theorem test_witness_TimeLawKept : waiting.timeLaw ∧ ∃ t, step waiting = .next t := by
  refine ⟨?_, _, rfl⟩
  unfold State.timeLaw Tbu.rangeLaw TimeSet.rangeLaw
  decide

theorem test_witness_CommandsLeaveTheQueue : ∃ t, exec .keySwitchSetup rdy = .next t := ⟨_, rfl⟩

theorem test_witness_CampusTimeMovers :
    (∃ t, exec .keySwitchSetup rdy = .next t) ∧ (∀ b n, Instr.keySwitchSetup ≠ .powerOn b n) ∧ Instr.keySwitchSetup ≠ .secondBoundary ∧
      (∀ d m, Instr.keySwitchSetup ≠ .referenceMark d m) ∧ ∀ p op d m n, Instr.keySwitchSetup ≠ .settime p op d m n :=
  ⟨⟨_, rfl⟩, nofun, nofun, nofun, nofun⟩

theorem test_witness_LiveBankMovers :
    (∃ t, exec (.activate .a 0 .dpl) edit = .next t) ∧ (∀ b n, Instr.activate .a 0 .dpl ≠ .powerOn b n) ∧
      (∀ f, Instr.activate .a 0 .dpl ≠ .controllerRestart f) ∧ ∀ p op, Instr.activate .a 0 .dpl ≠ .activate p op .cal := by
  refine ⟨⟨_, rfl⟩, nofun, nofun, nofun⟩

theorem test_witness_DeviceCommandFrame :
    (Instr.clearStationPress 5 24).device? = some (5, 24) ∧ ∃ t, exec (.clearStationPress 5 24) rdy = .next t := ⟨rfl, _, rfl⟩

/-! ### Witnesses: campus time -/

/-- The Timebase Unit at the limits of its ranges. -/
def tbuHigh : Tbu := { rdy.tbu with slew := 4000, acc := 3599, drift := 2880 }

def tbuLow : Tbu := { rdy.tbu with slew := -4000, acc := -3599, drift := -2880 }

theorem test_witness_SlewAndDriftArithmetic :
    (8 ≤ 8 ∧ -3599 ≤ tbuHigh.acc ∧ tbuHigh.acc ≤ 3599 ∧ -2880 ≤ tbuHigh.drift ∧ tbuHigh.drift ≤ 2880) ∧
      (tbuHigh.startSecond 8).len = 7991 ∧
      (-3599 ≤ tbuLow.acc ∧ tbuLow.acc ≤ 3599 ∧ -2880 ≤ tbuLow.drift ∧ tbuLow.drift ≤ 2880) ∧ (tbuLow.startSecond 8).len = 8009 := by
  decide +kernel

/-- The end of a second of day `d`, in HOLDOVER. -/
def endOf (d sec : Nat) : State :=
  { rdy with tbu := { rdy.tbu with day := d, sec := sec, phase := 8000, disc := .holdover, holdoverAge := 86399, validity := .valid } }

theorem test_witness_SecondBoundaryEndsTheSecond :
    (endOf 0 86398).ready ∧ (endOf 0 86399).ready ∧ (endOf 36523 86399).ready ∧ (endOf 36524 86399).ready ∧
      (endOf 0 86399).tbu.len ≤ (endOf 0 86399).tbu.phase := by
  refine ⟨ready_of ?_, ready_of ?_, ready_of ?_, ready_of ?_, ?_⟩ <;> decide +kernel

/-- The dispatch gate OPEN at 08:00:00 of day 0, the mark a minute behind, an entry due between and one at the mark. -/
def dueAt (sec : Nat) : State :=
  let e (n : Nat) : ListEntry := { key := .plan n, time := n, group := 1, pattern := 0, medium := .zoneDefault, label := none }
  { rdy with
    tbu := { rdy.tbu with sec := 28800, validity := .valid }
    bds := { rdy.bds with gateOpen := true, mark := ⟨0, 28740⟩, list := [e 28740, e sec] } }

theorem test_witness_SecondBoundaryEndsTheSecond_due :
    gateOpen (dueAt 28800).tbu.validity (dueAt 28800).timeSet.trustBackup = true ∧ (dueAt 28800).bds.gateOpen = true ∧
      (dueAt 28800).dueEntries.length = 1 ∧ (dueAt 28801).dueEntries = [] ∧
      ((dueAt 28760).bdsStep ⟨0, 0⟩ ⟨0, 28800000⟩).bds.mark = ⟨0, 28800⟩ ∧
      (((dueAt 28760).bdsStep ⟨0, 0⟩ ⟨0, 28800000⟩).ntu.a.recAt .bellSkipped).detail =
        some (.bellSkipped 1 ⟨0, 28760⟩ ⟨0, 28760⟩ ⟨0, 0⟩ ⟨0, 28800000⟩) ∧
      (((dueAt 28770).bdsStep ⟨0, 0⟩ ⟨0, 28800000⟩).ntu.a.recAt .bellSkipped).flag = false := by decide +kernel

/-- The drill gate OPEN at 08:00:00 of day 0, the mark a minute behind; entry 2 due before the entries 0 and 1 of one time, entry 3
at the mark and entry 4 after the new second. -/
def drillsDue : State :=
  let e (p n : Nat) : Schedule := { day := 0, time := n, program := p, building := none }
  { rdy with
    tbu := { rdy.tbu with sec := 28800, validity := .valid }
    store := { rdy.store with live := { rdy.store.live with drl := { rdy.store.live.drl with
      schedule := [(0, some (e 0 28800)), (1, some (e 1 28800)), (2, some (e 2 28770)), (3, some (e 3 28740)), (4, some (e 4 28801))] } } }
    dsq := { rdy.dsq with gateOpen := true, mark := ⟨0, 28740⟩ } }

theorem test_witness_SecondBoundaryEndsTheSecond_drills :
    gateOpen drillsDue.tbu.validity drillsDue.timeSet.trustBackup = true ∧ drillsDue.dsq.gateOpen = true ∧
      drillsDue.dueDrills.map Schedule.program = [2, 0, 1] ∧ drillsDue.dsqBoundary.dsq.mark = ⟨0, 28800⟩ ∧
      drillsDue.dsqBoundary.dsq.records.map DrillRecord.program = [1, 0, 2] ∧
      ({ drillsDue with dsq := { drillsDue.dsq with gateOpen := false } } : State).dsqStep.dsq.records = [] := by
  decide +kernel

/-- The reference enabled, and a chain whose last mark came a second ago. -/
def marking (chain : Option Chain) : State :=
  { rdy with
    store := { rdy.store with live := { rdy.store.live with cal := { rdy.store.live.cal with
      timeSet := { rdy.store.live.cal.timeSet with refEnable := true } } } }
    tbu := { rdy.tbu with chain := chain } }

/-- The reference enabled, a chain whose last mark came so many eighths ago, and three bad slots in the history. -/
def silent (ago slots : Nat) : State :=
  let s := marking (some { msg := ⟨9000, 0⟩, at_ := 1000000 - ago, slots := slots })
  { s with tbu := { s.tbu with unsyncDue := true, disc := .locked, qualified := true, history := [false, false, false] } }

theorem test_witness_SilenceAndHoldoverEffects :
    (silent 12000 0).ready ∧ (silent 20000 1).ready ∧ (silent 24000 2).ready ∧ (silent 12000 0).tbu.unsyncDue = true ∧
      (silent 12000 0).timeSet.refEnable = true ∧ rdy.ready ∧ rdy.timeSet.refEnable = false ∧
      (after .silenceSlot (silent 12000 0)).tbu.disc = .holdover ∧ (after .silenceSlot (silent 12000 0)).tbu.history = [] ∧
      (after .silenceSlot (marking (some ⟨⟨0, 0⟩, 988000, 0⟩))).tbu.history = [false] := by
  refine ⟨ready_of ?_, ready_of ?_, ready_of ?_, ?_, ?_, ready_of ?_, ?_, ?_, ?_, ?_⟩ <;> decide +kernel

theorem test_witness_ReferenceMarkJudged :
    rdy.ready ∧ rdy.timeSet.refEnable = false ∧ (marking none).ready ∧ (marking none).timeSet.refEnable = true ∧
      messageStamp ⟨2023, 2, 29⟩ ⟨8, 0, 0⟩ = none ∧ messageStamp ⟨2099, 12, 31⟩ ⟨23, 59, 59⟩ = some ⟨36524, 86399⟩ ∧
      (marking (some ⟨⟨0, 0⟩, 992080, 0⟩)).ready ∧
      (after (.referenceMark ⟨2000, 1, 1⟩ ⟨0, 0, 1⟩) (marking (some ⟨⟨0, 0⟩, 992080, 0⟩))).tbu.consec = 1 ∧
      (after (.referenceMark ⟨2000, 1, 1⟩ ⟨0, 0, 1⟩) (marking (some ⟨⟨0, 0⟩, 992081, 0⟩))).tbu.consec = 0 := by
  refine ⟨ready_of ?_, ?_, ready_of ?_, ?_, ?_, ?_, ready_of ?_, ?_, ?_⟩ <;> decide +kernel

/-- A mark is due that is good, in a discipline state and with so much history. -/
def disciplining (d : Discipline) (qualified : Bool) (bad consec marks : Nat) : State :=
  let s := marking (some ⟨⟨0, 0⟩, 992000, 0⟩)
  { s with tbu := { s.tbu with disc := d, qualified := qualified, history := List.replicate bad false, consec := consec, goodMarks := marks
                               sec := 1, phase := 800 } }

/-- What the good mark 00:00:01 leaves there. -/
def marked (s : State) : Tbu := (after (.referenceMark ⟨2000, 1, 1⟩ ⟨0, 0, 1⟩) s).tbu

theorem test_witness_ReferenceMarkJudged_moves :
    (disciplining .free false 0 15 0).ready ∧ (marked (disciplining .free false 0 15 0)).disc = .locking ∧
      (disciplining .locked true 4 0 0).ready ∧ (marked (disciplining .locked true 4 0 0)).disc = .holdover ∧
      (disciplining .locked true 3 0 62).ready ∧ (marked (disciplining .locked true 3 0 62)).goodMarks = 63 ∧
      (disciplining .locking true 0 16 0).ready ∧ (marked (disciplining .locking true 0 16 0)).disc = .locked ∧
      (marked (disciplining .locking true 0 16 0)).slew = -800 ∧ (marked (disciplining .locked true 3 0 63)).goodMarks = 0 := by
  refine ⟨ready_of ?_, ?_, ready_of ?_, ?_, ready_of ?_, ?_, ready_of ?_, ?_, ?_, ?_⟩ <;> decide +kernel

theorem test_witness_SlewAndDriftArithmetic_evaluation :
    (tbu151.disc = .locked ∧ tbu151.nudgeReady = true) ∧ rdy.tbu.disc ≠ .locked ∧
      (-64 : Int) = max (-64) (min 64 (Int.tdiv (-56 * 450) (Int.ofNat 64))) := by decide +kernel

theorem test_witness_TimeAnswersTheTimebase :
    rdy.restingLaw ∧ rdy.reads = true ∧ (rdy.port .a).reply = none ∧ rdy.classOf .a 0 ≠ .none ∧ rdy.classOf .a 15 = .none := by
  refine ⟨rests_law ?_, ?_, ?_, ?_, ?_⟩ <;> decide +kernel

/-- A state of the discipline, with the reference enabled. -/
def disciplined (d : Discipline) : State :=
  let s := marking none
  { s with tbu := { s.tbu with disc := d } }

theorem test_witness_SettimeStepsCampusTime :
    (disciplined .locking).takes .a 0 .office ∧ (disciplined .locked).takes .a 0 .office ∧ (disciplined .free).takes .a 0 .office ∧
      (disciplined .holdover).takes .b 0 .office ∧ (disciplined .locking).discipline = .locking ∧
      (disciplined .locked).discipline = .locked ∧ (disciplined .holdover).discipline = .holdover ∧ rdy.discipline = .free ∧ messageStamp ⟨2100, 1, 1⟩ ⟨0, 0, 0⟩ = none ∧
      messageStamp ⟨2000, 1, 1⟩ ⟨0, 0, 0⟩ = some ⟨0, 0⟩ ∧ 999 ≤ 999 := by
  refine ⟨takes_of ?_, takes_of ?_, takes_of ?_, takes_of ?_, ?_, ?_, ?_, ?_, ?_, ?_, ?_⟩ <;> decide +kernel

theorem test_witness_AdjustTrimsTheSlewRemainder :
    (disciplined .locked).discipline = .locked ∧ (disciplined .free).discipline = .free ∧ (disciplined .locked).takes .a 0 .office ∧ (disciplined .free).takes .a 0 .office ∧ (500 : Int) = max (-500) (min 500 501) ∧
      (4000 : Int) = max (-4000) (min 4000 ((disciplined .free).tbu.slew + 8 * 500)) ∧
      (after (.adjust .a 0 501) (disciplined .free)).tbu.slew = 4000 := by
  refine ⟨?_, ?_, takes_of ?_, takes_of ?_, ?_, ?_, ?_⟩ <;> decide +kernel

/-! ### Witnesses: the plan and its store -/

/-- A region in a hold state. -/
def holding (r : Region) (h : HoldState) : State := edit.setHold r h

theorem test_witness_SelectSetsTheCursor :
    rdy.takesPlan .a 0 .viewer .dpl (decide (Bank.live = .staged)) ∧ tableSize .plan ≤ 1024 ∧ tableRegion .plan = .dpl ∧
      1023 < tableSize .plan ∧ edit.takesPlan .a 0 .viewer .dpl (decide (Bank.staged = .staged)) ∧ edit.holds .a .dpl = false ∧
      (holding .dpl (.held .a 1000001)).takesPlan .a 0 .viewer .dpl (decide (Bank.staged = .staged)) ∧
      (holding .dpl (.held .a 1000001)).holds .a .dpl = true := by
  refine ⟨takesPlan_of ?_, ?_, ?_, ?_, takesPlan_of ?_, ?_, takesPlan_of ?_, ?_⟩ <;> decide +kernel

/-- A state with a cursor at port A. -/
def pointing (s : State) (t : Tbl) (i : Nat) (b : Bank) : State :=
  s.setPort .a { s.port .a with cursor := some { region := tableRegion t, table := t, index := i, bank := b } }

theorem test_witness_ReadAnswersTheEntryAtTheCursor :
    (pointing rdy .plan 1024 .live).takesPlan .a 0 .viewer .dpl (decide (Bank.live = .staged)) ∧
      (pointing rdy .plan 1023 .live).takesPlan .a 0 .viewer .dpl (decide (Bank.live = .staged)) ∧
      (pointing edit .plan 0 .staged).takesPlan .a 0 .viewer .dpl (decide (Bank.staged = .staged)) ∧
      (pointing edit .plan 0 .staged).holds .a .dpl = false ∧
      (pointing (holding .dpl (.held .a 1000001)) .plan 0 .staged).takesPlan .a 0 .viewer .dpl (decide (Bank.staged = .staged)) ∧
      (pointing (holding .dpl (.held .a 1000001)) .plan 0 .staged).holds .a .dpl = true := by
  refine ⟨takesPlan_of ?_, takesPlan_of ?_, takesPlan_of ?_, ?_, takesPlan_of ?_, ?_⟩ <;> decide +kernel

/-- A staged table under a cursor of the region's holder. -/
def editing (t : Tbl) (i : Nat) (b : Bank) : State := pointing (holding (tableRegion t) (.held .a 1000001)) t i b

theorem test_witness_EditsReplaceTheStagedEntry :
    (editing .segment 7 .staged).takesPlan .a 0 (editClass .pat) .pat true ∧ (editing .segment 7 .staged).holds .a .pat = true ∧
      7 < tableSize .segment ∧ fixedEntry .segment 7 = true ∧ fixedEntry .segment 8 = false ∧
      (editing .segment 8 .live).takesPlan .a 0 (editClass .pat) .pat true ∧
      (editing .segment 127 .staged).takesPlan .a 0 (editClass .pat) .pat true ∧ 127 < tableSize .segment ∧
      writeFields .segment [.num 25] = none ∧
      writeFields .segment [.num 24, .num 10000] = some { entry := some (.segment (some ⟨25, 10000⟩)), clamped := true } ∧
      (editing .poll 0 .staged).takesPlan .a 0 (editClass .lin) .lin true ∧
      writeFields .poll [.num 25] = some { entry := none, clamped := false } := by
  refine ⟨takesPlan_of ?_, ?_, ?_, ?_, ?_, takesPlan_of ?_, takesPlan_of ?_, ?_, ?_, ?_, takesPlan_of ?_, ?_⟩ <;> decide +kernel

theorem test_witness_EditsReplaceTheStagedEntry_refused :
    (editing .segment 128 .staged).takesPlan .a 0 (editClass .pat) .pat true ∧ tableSize .segment ≤ 128 ∧
      (pointing edit .segment 8 .staged).takesPlan .a 0 (editClass .pat) .pat true ∧ (pointing edit .segment 8 .staged).holdAt .pat = .free ∧
      (pointing (holding .pat (.committing .b 1000001)) .segment 8 .staged).takesPlan .a 0 (editClass .pat) .pat true ∧
      (after (.empty .a 0) (editing .segment 128 .staged)).holdAt .pat = .held .a 1960000 := by
  refine ⟨takesPlan_of ?_, ?_, takesPlan_of ?_, ?_, takesPlan_of ?_, ?_⟩ <;> decide +kernel

theorem test_witness_HoldGrantsTheRegion :
    edit.takesPlan .a 0 (editClass .drl) .drl true ∧ edit.holdAt .drl = .free ∧
      (holding .drl (.held .b 1000001)).takesPlan .a 0 (editClass .drl) .drl true ∧
      (holding .drl (.held .b 1000001)).holdAt .drl = .held .b 1000001 ∧
      (holding .drl (.committing .a 1000001)).takesPlan .a 0 (editClass .drl) .drl true ∧
      (holding .drl (.committing .a 1000001)).holdAt .drl = .committing .a 1000001 := by
  refine ⟨takesPlan_of ?_, ?_, takesPlan_of ?_, ?_, takesPlan_of ?_, ?_⟩ <;> decide +kernel

/-- Port A holds DPL, its staged bank changed. -/
def edited : State := { editing .plan 0 .staged with store := { (editing .plan 0 .staged).store with
  staged := putEntry edit.store.staged 0 (.plan (some { time := 0, group := 0, pattern := 1, medium := .zoneDefault, label := none })) } }

theorem test_witness_ReleaseAndDiscardEndAHold :
    edit.takesPlan .a 0 (editClass .cal) .cal true ∧ edit.holdAt .cal = .free ∧
      (holding .cal (.held .b 1000001)).takesPlan .a 0 (editClass .cal) .cal true ∧
      (holding .cal (.held .b 1000001)).holds (otherPort .a) .cal = true ∧
      (holding .cal (.committing .b 1000001)).takesPlan .a 0 (editClass .cal) .cal true ∧
      (holding .cal (.held .a 1000001)).takesPlan .a 0 (editClass .cal) .cal true ∧ (holding .cal (.held .a 1000001)).holds .a .cal = true ∧
      copyRegion .cal edit.store.staged edit.store.live = edit.store.live ∧
      edited.takesPlan .a 0 (editClass .dpl) .dpl true ∧ edited.holds .a .dpl = true ∧
      copyRegion .dpl edited.store.staged edited.store.live ≠ edited.store.live := by
  refine ⟨takesPlan_of ?_, ?_, takesPlan_of ?_, ?_, takesPlan_of ?_, takesPlan_of ?_, ?_, ?_, takesPlan_of ?_, ?_, ?_⟩ <;> decide +kernel

/-- Port A holds CAL, whose staged exceptions overlap at entry 3. -/
def overlapping : State := { holding .cal (.held .a 1000001) with store := { (holding .cal (.held .a 1000001)).store with
  staged := putEntry (putEntry edit.store.staged 1 (.except (some ⟨100, 110, 1⟩))) 3 (.except (some ⟨110, 120, 2⟩)) } }

/-- Port A holds DRL, whose staged program 7 has a stage and no building. -/
def unbuilt : State := { holding .drl (.held .a 1000001) with store := { (holding .drl (.held .a 1000001)).store with
  staged := putEntry edit.store.staged 56 (.stage (some ⟨.alert, 1, 1, .timed, false⟩)) } }

/-- Port A holds ZON while an alarm stands. -/
def alarmed : State := { holding .zon (.held .a 1000001) with pnl := { rdy.pnl with state := .alarm } }

theorem test_witness_ActivateMakesTheStagedBankLive :
    (holding .cal (.committing .a 1000001)).takesPlan .a 0 (editClass .cal) .cal true ∧
      (holding .cal (.held .b 1000001)).takesPlan .a 0 (editClass .cal) .cal true ∧
      alarmed.takesPlan .a 0 (editClass .zon) .zon true ∧ alarmed.holds .a .zon = true ∧ alarmed.pnl.state ≠ .normal ∧
      overlapping.takesPlan .a 0 (editClass .cal) .cal true ∧ overlapping.validate .cal = some (.except, 3) ∧
      edited.takesPlan .a 0 (editClass .dpl) .dpl true ∧ edited.validate .dpl = none ∧
      (holding .zon (.held .a 1000001)).takesPlan .a 0 (editClass .zon) .zon true ∧ (holding .zon (.held .a 1000001)).validate .zon = none := by
  refine ⟨takesPlan_of ?_, takesPlan_of ?_, takesPlan_of ?_, ?_, ?_, takesPlan_of ?_, ?_, takesPlan_of ?_, ?_, takesPlan_of ?_, ?_⟩ <;>
    decide +kernel

theorem test_witness_HoldExpiryAndImageWriteEnd :
    (holding .prt (.held .b 1000000)).ready ∧ (holding .prt (.held .b 1000000)).holdAt .prt = .held .b 1000000 ∧
      (holding .prt (.committing .b 1000000)).ready ∧ (holding .prt (.committing .b 1000000)).holdAt .prt = .committing .b 1000000 := by
  refine ⟨ready_of ?_, ?_, ready_of ?_, ?_⟩ <;> decide +kernel

theorem test_witness_KeySwitchWithdrawsHolds :
    rdy.setup = false ∧ (holding .lin (.held .a 1000001)).ready ∧ (holding .lin (.held .a 1000001)).setup = true ∧
      (holding .lin (.held .a 1000001)).holdAt .lin = .held .a 1000001 ∧ (holding .lin (.held .a 1000001)).rightsInRun .a .lin ≠ .edit := by
  refine ⟨?_, ready_of ?_, ?_, ?_, ?_⟩ <;> decide +kernel

theorem test_witness_EntriesReadBack :
    31 < tableSize (Entry.table (.zone (zoneCfgStart 0))) ∧ 0 < tableSize (Entry.table (.zoneSet ⟨0, 300, 10⟩)) ∧
      30 < tableSize .zone ∧ Tbl.zone ≠ .zoneset := by decide

theorem test_witness_ValidationFindsTheFirstFault :
    (∃ bad : Nat → Prop, ∀ i, bad i ↔ ∃ e, tget noneStart overlapping.store.staged.cal.except i = some e ∧
      (e.last < e.first ∨ ∃ k b, k < i ∧ tget noneStart overlapping.store.staged.cal.except k = some b ∧
        (∀ m, k < m → m < i → tget noneStart overlapping.store.staged.cal.except m = none) ∧ e.first ≤ b.last)) ∧
      (∀ (i : Nat) (e : Override), tget noneStart rdy.store.live.ovr.entries i = some e → e.time < 86400) ∧
      overlapping.takesPlan .a 0 (editClass .cal) .cal true ∧ overlapping.holds .a .cal = true ∧
      calFault overlapping.store.staged.cal = some (.except, 3) ∧
      unbuilt.takesPlan .a 0 .safety .drl true ∧ unbuilt.holds .a .drl = true ∧
      drlFault unbuilt.store.staged.drl = some (.program, 7) := by
  refine ⟨⟨_, fun _ => Iff.rfl⟩, nofun, takesPlan_of ?_, ?_, ?_, takesPlan_of ?_, ?_, ?_⟩ <;> decide +kernel

/-! ### Witnesses: the lines -/

/-- Line L0 in a state, its present slot come. -/
def lineIn (st : LineState) (slot : Nat) : LineSt := { lineStart 0 with state := st, slot := slot, secondAt := 992100 }

/-- The controller with line L0 as given. -/
def onL0 (x : LineSt) : State := rdy.setLine 0 x

theorem test_witness_TimeFrameCarriesCampusTime :
    (onL0 (lineIn .run 0)).ready ∧ (onL0 (lineIn .discovery 0)).ready ∧ (onL0 (lineIn .lost 0)).ready ∧
      lineIn .run 0 = (onL0 (lineIn .run 0)).lineAt 0 ∧ (lineIn .run 0).slot = 0 ∧ (lineIn .run 0).secondAt ≤ (onL0 (lineIn .run 0)).now ∧
      (lineIn .run 0).transaction = none := by
  refine ⟨ready_of ?_, ready_of ?_, ready_of ?_, ?_, ?_, ?_, ?_⟩ <;> decide +kernel

/-- A listed bell unit's record. -/
def bellRec (st : DevState) : DevRec :=
  { devRecStart 0 with listed := true, kind := some .bell, zone := some 0, serial := some 999999, state := st }

/-- A line in RUN that polls address 24 in every phase. -/
def polling (st : DevState) : LineSt :=
  { lineIn .run 39 with recs := [(24, bellRec st)], pollTable := List.replicate 32 (some 24), phasePtr := 31 }

theorem test_witness_PollsGoOutInTheirSlots :
    (onL0 (lineIn .discovery 39)).ready ∧ (onL0 (lineIn .discovery 39)).slotReady (lineIn .discovery 39) = true ∧
      (onL0 (polling .present)).ready ∧ (onL0 (polling .present)).slotReady (polling .present) = true ∧
      (polling .present).headOut = none ∧ (polling .present).phase = some 24 ∧ ((polling .present).recAt 24).state ≠ .absent ∧
      (onL0 (polling .absent)).ready ∧ ((polling .absent).phase.all fun b => ((polling .absent).recAt b).state = .absent) = true ∧
      (polling .absent).searchNext = some 1 ∧ (onL0 (lineIn .lost 1)).ready ∧
      (onL0 (lineIn .lost 1)).slotReady (lineIn .lost 1) = true ∧ (lineIn .lost 1).recoverNext = some 1 := by
  refine ⟨ready_of ?_, ?_, ready_of ?_, ?_, ?_, ?_, ?_, ready_of ?_, ?_, ?_, ready_of ?_, ?_, ?_⟩ <;> decide +kernel

/-- A line in RUN every address of which answers and has a phase, so that none is to be searched; phase 31 is EMPTY. -/
def allNamed : LineSt :=
  { lineIn .run 1 with
    recs := allAddrs.map fun a => (a, bellRec .present), pollTable := allAddrs.map some ++ List.replicate 8 none, phasePtr := 31 }

theorem test_witness_PollsGoOutInTheirSlots_none :
    (onL0 allNamed).ready ∧ (onL0 allNamed).slotReady allNamed = true ∧ allNamed.phase = none ∧ allNamed.searchNext = none := by
  refine ⟨ready_of ?_, ?_, ?_, ?_⟩ <;> decide +kernel

/-- A line in RUN with an entry at the head of its output list. -/
def sending (e : OutEntry) : LineSt := { lineIn .run 1 with outOrd := [e], commands := 2 }

theorem test_witness_OutputCommandsEmptyTheList :
    (onL0 (sending (.zone 31))).ready ∧ (onL0 (sending (.zone 31))).slotReady (sending (.zone 31)) = true ∧
      ((sending (.zone 31)).outAlarm ++ (sending (.zone 31)).outOrd).head? = some (.zone 31) ∧ (sending (.zone 31)).commands < 3 ∧
      (onL0 (sending (.clock 24))).ready ∧ (onL0 (sending (.clock 24))).slotReady (sending (.clock 24)) = true := by
  refine ⟨ready_of ?_, ?_, ?_, ?_, ready_of ?_, ?_⟩ <;> decide +kernel

/-- R32: a CLOCK-SET whose milliseconds reach a second is carried over midnight, and over the end of 2099. -/
theorem test_clock_set_carries_over :
    let x := { sending (.clock 24) with delay := some 64 }
    let s := { onL0 x with tbu := { rdy.tbu with day := 36524, sec := 86399, phase := 7999 } }
    ((after (.clockSet 0) s).lineAt 0).sent = (Frame.clockSet 24 0 0 0 0 3).bytes := by decide +kernel

/-- A line that awaits the reply of an address. -/
def awaiting (x : LineSt) (a : Nat) : LineSt := { x with transaction := some { addr := a, zone := none, since := 999900, proving := false } }

/-- The reply of the bell unit at an address, its output OFF. -/
def bellReply (a : Nat) : List Byte := (Frame.reply a 999999 (.bell false)).bytes

/-- A line in DISCOVERY that has polled address 23. -/
def discovering (tries : Nat) : LineSt :=
  awaiting { lineIn .discovery 5 with discAddr := 23, discTry := tries, recs := [(23, bellRec .absent)] } 23

theorem test_witness_ReplyTaken :
    (onL0 (discovering 1)).ready ∧ (discovering 1).transaction = some { addr := 23, zone := none, since := 999900, proving := false } ∧
      replyOf 23 81 (bellReply 23) = none ∧ replyOf 23 80 (bellReply 23) = some { serial := 999999, report := .bell false } ∧
      ((discovering 1).recAt 23).fits { serial := 999999, report := .bell false } = true ∧ (onL0 (discovering 1)).dsq.session = none ∧
      (discovering 1).discAddr = 23 ∧ ((discovering 1).recAt 23).listed = true ∧
      (onL0 (awaiting (polling .present) 24)).ready ∧ ((polling .present).recAt 24).zone = some 0 ∧
      ((onL0 (polling .present)).zoneAt 0).bellUntil.isSome = false := by
  refine ⟨ready_of ?_, ?_, ?_, ?_, ?_, ?_, ?_, ?_, ready_of ?_, ?_, ?_⟩ <;> decide +kernel

/-- A line that awaits the reply of the device of one kind at address 24. -/
def hearingFrom (st : LineState) (k : DevKind) (r : DevRec) : LineSt :=
  awaiting { lineIn st 5 with discAddr := 24, discTry := 1, recs := [(24, { r with kind := some k })] } 24

/-- The valid reply of the device at address 24. -/
def from24 (r : Report) : Instr := .reply 0 80 (Frame.reply 24 999999 r).bytes

/-- R47: the clock shows 23:59:59, one second from the campus second 0, or 12 o'clock. -/
theorem test_witness_ReplyTaken_clock :
    let s (st : DevState) (c : Nat) : State := onL0 (hearingFrom .run .clock { bellRec st with zone := none, corrections := c })
    let told (t : State) : DevRec := (t.lineAt 0).recAt 24
    (s .present 2).ready ∧ (s .present 2).tbu.sec = 0 ∧ replyOf 24 80 (Frame.reply 24 999999 (.clock 23 59 59)).bytes =
        some { serial := 999999, report := .clock 23 59 59 } ∧
      (told (after (from24 (.clock 23 59 59)) (s .faulty 3))).state = .present ∧
      (told (after (from24 (.clock 12 0 0)) (s .present 2))).corrections = 3 ∧
      ((after (from24 (.clock 12 0 0)) (s .present 2)).lineAt 0).outOrd = [.clock 24] ∧
      (told (after (from24 (.clock 12 0 0)) (s .present 3))).state = .faulty ∧
      ((after (from24 (.clock 12 0 0)) (s .present 3)).ntu.a.recAt .clockOff).count = 1 ∧
      (told (after (from24 (.clock 12 0 0)) (onL0 { hearingFrom .run .clock (bellRec .present) with stepPending := true }))).corrections = 0 := by
  refine ⟨ready_of ?_, ?_, ?_, ?_, ?_, ?_, ?_, ?_, ?_⟩ <;> decide +kernel

/-- R26, R42: the line enters RUN after address 24, and at the fourth good poll of LOST. -/
theorem test_witness_ReplyTaken_enters_run :
    let lost (w : List Bool) : State := onL0 { hearingFrom .lost .bell (bellRec .present) with window := w }
    (onL0 (hearingFrom .discovery .bell (bellRec .absent))).ready ∧
      ((after (from24 (.bell false)) (onL0 (hearingFrom .discovery .bell (bellRec .absent)))).lineAt 0).state = .run ∧
      (lost [true, true, false, true]).ready ∧ ((after (from24 (.bell false)) (lost [true, true, false, true])).lineAt 0).state = .run ∧
      ((after (from24 (.bell false)) (lost [true, true])).lineAt 0).window = [true, true, true] ∧ (lost []).pgc.queue = [] := by
  refine ⟨ready_of ?_, ?_, ready_of ?_, ?_, ?_, ?_⟩ <;> decide +kernel

theorem test_witness_MissTaken :
    (onL0 (awaiting (polling .present) 24)).ready ∧ ((polling .present).recAt 24).misses < 15 ∧ (onL0 (discovering 1)).ready ∧
      (discovering 1).discTry = 1 ∧ (onL0 (discovering 2)).ready ∧ (discovering 2).discTry = 2 ∧
      (after (.miss 0) (onL0 { awaiting (polling .present) 24 with unanswered := 31 })).lines ≠ [] := by
  refine ⟨ready_of ?_, ?_, ready_of ?_, ?_, ready_of ?_, ?_, ?_⟩ <;> decide +kernel

/-- A line in self-proving for a second, which the receiver came IN-STEP in at a value. -/
def proved (n : Nat) : LineSt := { lineIn .proving 40 with since := 992000, prover := { proverStart with inStepAt := some n } }

theorem test_witness_BringUpGoesOn :
    (onL0 (proved 256)).ready ∧ (proved 256).since + 8000 ≤ (onL0 (proved 256)).now ∧ (proved 256).prover.passes = true ∧
      (proved 257).prover.passes = false ∧ (onL0 (proved 257)).ready ∧
      (onL0 { lineIn .powering 40 with since := 984000 }).ready ∧ 984000 + 16000 ≤ (onL0 (lineIn .powering 40)).now := by
  refine ⟨ready_of ?_, ?_, ?_, ?_, ready_of ?_, ready_of ?_, ?_⟩ <;> decide +kernel

/-- R45: a bell unit that rang on is off once its line has power again. -/
theorem test_bell_unit_off_after_power_up :
    let s := (onL0 (proved 256)).setField 0 24 { (onL0 (proved 256)).fieldAt 0 24 with bellOn := true, holdUntil := 1004000 }
    (s.fieldAt 0 24).bellOn = true ∧ ((after (.provingEnd 0) s).fieldAt 0 24).bellOn = false ∧
      ((after (.provingEnd 0) s).lineAt 0).state = .powering := by decide +kernel

theorem test_witness_LineRestartBeginsBringUp : rdy.takes .a 0 .office ∧ 5 < 6 ∧ 6 ≤ 6 :=
  ⟨takes_of (by decide +kernel), by decide, by decide⟩

theorem test_witness_FramesReadBack :
    (Frame.time 4095 36524 23 59 59 999 true true true true true).fits ∧ (Frame.poll 24 (some 31)).fits ∧
      (Frame.reply 1 999999 (.speaker (some 3) true)).fits ∧ (Frame.output 31 true 10500 (some 3)).fits ∧ (Frame.loopUp 24).fits := by
  refine ⟨?_, ?_, ?_, ?_, ?_⟩ <;> simp [Frame.fits, Report.fits, hmsFits]

theorem test_witness_TestsBeginAndTakeInjections :
    (onL0 (lineIn .run 1)).takes .a 0 .office ∧ modeExists (.far 24) = true ∧ modeExists (.far 25) = false ∧
      (onL0 (lineIn .run 1)).testRefused 0 = none ∧ rdy.takes .a 0 .office ∧ rdy.testRefused 0 = some .state ∧
      (onL0 (lineIn .test 1)).takes .a 0 .office ∧ ((onL0 (lineIn .test 1)).lineAt 0).state = .test := by
  refine ⟨takes_of ?_, ?_, ?_, ?_, takes_of ?_, ?_, takes_of ?_, ?_⟩ <;> decide +kernel

/-- A test record of a mode. -/
def testRec (m : TestMode) : TestRecord :=
  { mode := m, seconds := 1, begun := ⟨0, 0⟩, sent := 0, compared := 0, errored := 0, injected := 0, echoesMissing := 0,
    firstInStep := none, slips := 0, slipsInj := 0, result := .running, cause := none }

/-- A line in a test's part. -/
def testing (m : TestMode) (p : TestPhase) : LineSt :=
  { lineIn .test 1 with test := some { phase := p, upAt := some 992000, echoed := false }, record := some (testRec m) }

/-- The same with an injection pending. -/
def injecting : LineSt := { testing (.far 24) .proving with prover := { proverStart with injPending := true } }

theorem test_witness_TestsBeginAndTakeInjections_inject :
    (onL0 (testing .pass .proving)).takes .a 0 .office ∧ (onL0 (testing .pass .proving)).provingPart (testing .pass .proving) = true ∧
      (testing .pass .proving).prover.injPending = false ∧ (onL0 injecting).takes .a 0 .office ∧ injecting.prover.injPending = true ∧
      (onL0 (testing (.far 24) (.loopUp 0))).takes .a 0 .office ∧
      (onL0 (testing (.far 24) (.loopUp 0))).provingPart (testing (.far 24) (.loopUp 0)) = false := by
  refine ⟨takes_of ?_, ?_, ?_, takes_of ?_, ?_, takes_of ?_, ?_⟩ <;> decide +kernel

/-- A line whose fifth LOOP-UP goes out in a slot. -/
def fifthUp (slot : Nat) : State := after (.loopUp 0) (onL0 { testing (.far 24) (.loopUp 4) with slot := slot })

/-- R52, R58: an injection is refused in the rest of the slot of the fifth LOOP-UP, and taken in the next slot, whose frame, the
first of the proving part, carries it. -/
theorem test_inject_after_fifth_loop_up :
    ((after (.inject .a 0 0) (fifthUp 39)).port .a).reply = some (.no .state) ∧
      ((after (.inject .a 0 0) (fifthUp 1)).port .a).reply = some .ok ∧
      (((after (.provingFrame 0 []) (after (.inject .a 0 0) (fifthUp 1))).lineAt 0).record.map TestRecord.injected) = some 1 ∧
      (((after (.provingFrame 0 []) (fifthUp 1)).lineAt 0).test.map TestRun.phase) = some .proving := by decide +kernel

theorem test_witness_TestFramesGoOut_first :
    (fifthUp 1).ready ∧ (fifthUp 1).slotReady ((fifthUp 1).lineAt 0) = true ∧
      ((fifthUp 1).lineAt 0).test.map TestRun.phase = some (.loopUp 5) ∧ (fifthUp 1).provingPart ((fifthUp 1).lineAt 0) = true := by
  refine ⟨ready_of ?_, ?_, ?_, ?_⟩ <;> decide +kernel

/-- A line that begins self-proving. -/
def selfProving : LineSt := { lineIn .proving 40 with since := 1000000 }

theorem test_witness_TestFramesGoOut :
    (onL0 (testing (.far 24) (.loopUp 4))).ready ∧ (onL0 (testing (.far 24) (.loopUp 4))).slotReady (testing (.far 24) (.loopUp 4)) = true ∧
      (onL0 (testing (.far 24) (.loopDown 1))).ready ∧ (onL0 injecting).ready ∧ (onL0 injecting).slotReady injecting = true ∧
      (onL0 injecting).durationOver injecting (testRec (.far 24)) = false ∧ (onL0 (testing .pass .proving)).ready ∧
      (onL0 (testing .pass .proving)).durationOver (testing .pass .proving) (testRec .pass) = false ∧ (onL0 selfProving).ready ∧
      selfProving.prover.frames < 40 ∧ selfProving.since + 200 * selfProving.prover.frames ≤ (onL0 selfProving).now ∧
      selfProving.prover.injPending = false := by
  refine ⟨ready_of ?_, ?_, ready_of ?_, ready_of ?_, ?_, ?_, ready_of ?_, ?_, ready_of ?_, ?_, ?_, ?_⟩ <;> decide +kernel

theorem test_witness_TestFramesGoOut_last :
    (onL0 (testing (.far 24) (.loopDown 2))).ready ∧ (onL0 (testing (.far 24) (.loopDown 2))).slotReady (testing (.far 24) (.loopDown 2)) = true ∧
      (((after (.loopDown 0) (onL0 (testing (.far 24) (.loopDown 2)))).lineAt 0).record.map TestRecord.result) = some .noEcho ∧
      ((after (.loopDown 0) (onL0 (testing (.far 24) (.loopDown 2)))).ntu.b.recAt .testEnd).detail = some (.testEnd 0 (.far 24) .noEcho none) ∧
      (onL0 (testing .inner .proving)).ready ∧ (onL0 (testing .inner .proving)).durationOver (testing .inner .proving) (testRec .inner) = false ∧
      (((after (.provingFrame 0 [5, 78]) (onL0 (testing .inner .proving))).lineAt 0).record.map TestRecord.compared) = some 2 := by
  refine ⟨ready_of ?_, ?_, ?_, ?_, ready_of ?_, ?_, ?_⟩ <;> decide +kernel

/-- A line in a test that awaits an echo. -/
def echoing : LineSt := { testing (.far 24) .proving with transaction := some { addr := 24, zone := none, since := 999900, proving := true } }

/-- A line in a test whose duration has just run out. -/
def spent (m : TestMode) : LineSt := { testing m .proving with prover := { proverStart with startedAt := some 992000 } }

theorem test_witness_TestPartsEnd :
    (onL0 echoing).ready ∧ echoOf 24 81 ((Frame.proving 24 (List.replicate 16 0)).bytes) = none ∧
      echoOf 24 80 ((Frame.proving 24 (List.replicate 16 0)).bytes) = some (List.replicate 16 0) ∧
      (onL0 (testing (.far 24) .proving)).ready ∧ 992000 + 8000 ≤ (onL0 echoing).now ∧ (onL0 (spent .inner)).ready ∧
      (onL0 (spent .inner)).durationOver (spent .inner) (testRec .inner) = true ∧ (onL0 (spent (.far 24))).ready ∧
      (onL0 (spent (.far 24))).durationOver (spent (.far 24)) (testRec (.far 24)) = true ∧ (spent .pass).transaction = none := by
  refine ⟨ready_of ?_, ?_, ?_, ready_of ?_, ?_, ready_of ?_, ?_, ready_of ?_, ?_, ?_⟩ <;> decide +kernel

theorem test_witness_TestPartsEnd_part :
    (onL0 echoing).provingPart echoing = true ∧ (onL0 (testing (.far 24) .proving)).provingPart (testing (.far 24) .proving) = true ∧
      (onL0 (spent .inner)).provingPart (spent .inner) = true ∧ (onL0 (spent (.far 24))).provingPart (spent (.far 24)) = true ∧
      (onL0 (testing (.far 24) (.loopDown 0))).provingPart (testing (.far 24) (.loopDown 0)) = false := by decide +kernel

/-! ### Witnesses: zones, bells and pages -/

/-- Zone Z31 available under a holder. -/
def zoneHeld (h : Holder) : State := rdy.setZone 31 { zoneRecStart 31 with holder := h, available := true }

theorem test_witness_ClaimsResolvedByHolder :
    (rdy.zoneAt 31).available = false ∧ ((zoneHeld .none).zoneAt 31).available = true ∧ ((zoneHeld .none).zoneCfg 31).pageAllowed = true ∧
      (∀ h, ((zoneHeld h).zoneAt 31).holder = h) ∧ (zoneHeld (.page 1 5)).pageAnswer 6 31 = .taken ∧
      (zoneHeld (.page 1 6)).pageAnswer 7 31 = .waiting ∧ (zoneHeld (.page 1 5)).pageAnswer 5 31 = .waiting := by
  refine ⟨?_, ?_, ?_, fun h => ?_, ?_, ?_, ?_⟩
  case refine_4 => cases h <;> rfl
  all_goals decide +kernel

/-- Zones Z30 and Z31 on line L5, available under their holders, with a medium; pattern P01 sounds for a second, and group G15
holds both. -/
def plant (m : Medium) (h30 h31 : Holder) : State :=
  let cfg : ZoneCfg := { zoneCfgStart 0 with line := some 5, medium := m }
  let zone (h : Holder) : ZoneRec := { zoneRecStart 0 with holder := h, available := true }
  { rdy with
    store := { rdy.store with live := { rdy.store.live with
      pat := { repeats := [], segments := [(8, some ⟨1000, 500⟩)], groups := [(15, [30, 31])] }
      zon := { rdy.store.live.zon with zones := [(30, cfg), (31, cfg)] } } }
    ztc := { rdy.ztc with zones := [(30, zone h30), (31, zone h31)] } }

/-- A page of port A, QUEUED for group G15 with a priority, and one on the air that holds zone Z31. -/
def queuedPage (n prio : Nat) : Page :=
  { num := n, state := .queued, port := .a, op := 0, cls := .safety, source := .micA, prio := prio, names := .group 15, pretone := none,
    limit := 60, part := true, arrival := ⟨0, 0⟩, arrivalSeq := n, start := none, expansion := [], trunk := none, held := [],
    waiting := [], suspended := [], lost := [], limitAt := none }

def livePage (n prio t : Nat) : Page :=
  { queuedPage n prio with state := .live, source := .aux, start := some ⟨0, 0⟩, expansion := [31], trunk := some t, held := [31]
                           limitAt := some 1000000 }

/-- A bell part of job 1 sounds in zone Z31 over a page that it has suspended, and another waits behind it. -/
def overPage : State :=
  let s := plant .sounder .none (.bell 1)
  let z : ZoneRec := { s.zoneAt 31 with suspended := .page 2 3 }
  { s.setZone 31 z with pgc := { rdy.pgc with queue := [{ livePage 2 3 0 with held := [], suspended := [31] }] } }

/-- A session of program 7, its one stage just expired. -/
def sessionOf (running : Bool) (a : AdvanceMode) : Session :=
  { running := running, origin := .portA, program := 7, source := .controller, stages := [⟨⟨.alert, 1, 1, a, true⟩, ⟨[⟨0, 500⟩], 1000⟩⟩]
    building := [0], start := ⟨0, 0⟩, ackAt := 1000000, zones := [], stage := 0, stageSince := 992000, signal := .sounding,
    nextChange := some 1000000, announced := true, timing := if running then .running else .before, baselines := [], results := [], drops := 0 }

/-- A page of priority 7 holds zone Z31 over a drill that it has suspended. -/
def overDrill : State :=
  let s := plant .both .none (.page 9 7)
  { s.setZone 31 { s.zoneAt 31 with suspended := .drill .both } with dsq := { rdy.dsq with session := some (sessionOf true .manual) } }

/-- A wait of job 1 heads the list of zone Z31. -/
def headed (m : Medium) (h : Holder) : State :=
  let s := plant m .none h
  let w : Wait := { job := 1, zone := 31, since := 840000, reason := .page, policy := .immediate, maxDefer := 20, limit := .drop, forced := false }
  let p : Part := { newPart m 31 with state := .deferred .page }
  { s.setZone 31 { s.zoneAt 31 with waits := [w] } with
    bds := { rdy.bds with queue := [{ num := 1, key := .plan 0, day := 0, sec := 0, late := false, label := none, pattern := 1,
                                      timeline := ⟨[⟨0, 1000⟩], 2000⟩, medium := .zoneDefault, groups := 0, parts := [p] }] } }

/-- R92, R157, R40: the first fault of each table, at its last place where the table has one. -/
theorem test_witness_ValidationFindsTheFirstFault_others :
    let stage (a : AdvanceMode) (timing : Bool) : Option Stage := some ⟨.alert, 1, 1, a, timing⟩
    let drl (ps : Table Program) (ss : Table (Option Stage)) : Drl := { rdy.store.live.drl with programs := ps, stages := ss }
    let onLine5 : State := plant .both .none .none
    let bell (z : Option Nat) : Option DevCfg := some { kind := .bell, zone := z, serial := none }
    patFault { repeats := [], segments := [(8, some ⟨25, 0⟩), (127, some ⟨25, 0⟩)], groups := [] } = some (.segment, 127) ∧
      patFault { repeats := [], segments := [(120, some ⟨25, 0⟩), (121, some ⟨25, 0⟩)], groups := [] } = none ∧
      drlFault (drl [(7, ⟨[], .controller⟩)] [(56, stage .timed false)]) = some (.program, 7) ∧
      drlFault (drl [(7, ⟨[0], .controller⟩)] [(63, stage .timed false)]) = some (.stage, 63) ∧
      drlFault (drl [(7, ⟨[0], .controller⟩)] [(56, stage .timed true), (57, stage .timed true)]) = some (.stage, 57) ∧
      drlFault (drl [(7, ⟨[0], .controller⟩)] [(56, stage .clearAll false)]) = some (.stage, 56) ∧
      drlFault { drl [(0, ⟨[0], .controller⟩)] [(0, stage .timed false)] with schedule := [(7, some ⟨0, 0, 7, none⟩)] } = some (.schedule, 7) ∧
      drlFault (drl [] []) = some (.drillset, 0) ∧
      drlFault (drl [(0, ⟨[0], .controller⟩)] [(0, stage .clearAll true)]) = none ∧
      onLine5.linFault { rdy.store.live.lin with devices := [(143, bell (some 31))] } = none ∧
      onLine5.linFault { rdy.store.live.lin with devices := [(23, bell (some 31))] } = some (.device, 23) ∧
      onLine5.linFault { rdy.store.live.lin with devices := [(143, bell none)] } = some (.device, 143) ∧
      (onLine5.setLine 5 { lineStart 5 with recs := [(24, { bellRec .present with zone := some 31 })] }).zonFault rdy.store.live.zon =
        some (.zone, 31) ∧
      onLine5.zonFault rdy.store.live.zon = none := by decide +kernel

theorem test_witness_ClaimsResolvedByHolder_return :
    (overPage.zoneAt 31).suspended = .page 2 3 ∧ ((overPage.returnZone 31).zoneAt 31).holder = .page 2 3 ∧
      ((overPage.returnZone 31).zoneAt 31).trunk = some 0 ∧ overPage.ztc.agenda = [] ∧
      ((plant .sounder .none (.bell 1)).holdersEnd [31]).ztc.agenda = [.serve [31] none true, .release] ∧
      (overDrill.holdersEnd [31]).ztc.agenda = [.serve [31] none true, .release, .pass] ∧
      ((overDrill.holdersEnd [31]).zoneAt 31).holder = .drill .both ∧ overDrill.drillNeeds = false ∧
      (let d := sessionOf true .manual
       ({ overDrill with dsq := { rdy.dsq with session := some { d with signal := .silent } } } : State).holdersEnd [31]).ztc.agenda =
        [.serve [31] none true, .release] ∧
      (((headed .sounder (.page 2 5)).serveZone none 31).1.zoneAt 31).holder = .bell 1 ∧
      (((headed .sounder (.page 2 5)).serveZone none 31).1.zoneAt 31).suspended = .page 2 5 ∧
      ((headed .speaker .none).serveZone none 31).2.map (fun x => x.wait.job) = some 1 ∧
      ((headed .speaker .none).serve [30, 31] none true).ztc.agenda = [.offer [30], .grants, .offer [31], .pass] ∧
      (((headed .sounder (.bell 1)).loseZone 31).zoneAt 31).holder = .none ∧ ((headed .sounder (.bell 1)).loseZone 31).bds.queue = [] := by
  decide +kernel

theorem test_witness_ClaimsResolvedByHolder_alarm :
    31 ∈ [0, 31] ∧ ((zoneHeld (.bell 1)).zoneAt 31).holder ≠ .alarm ∧ 30 ∉ [0, 31] := by decide +kernel

/-- Eight jobs in the Bell Ready Queue. -/
def eightJobs : State :=
  { rdy with bds := { rdy.bds with queue := (List.range 8).map fun n =>
      { num := n + 1, key := .plan n, day := 0, sec := 0, late := false, label := none, pattern := 1, timeline := ⟨[], 0⟩,
        medium := .zoneDefault, parts := [], groups := 0 } } }

theorem test_witness_RingMakesAJob :
    rdy.takes .a 0 .staff ∧ rdy.bds.queue.length < 8 ∧ 15 < 16 ∧ eightJobs.takes .a 0 .staff ∧ 8 ≤ eightJobs.bds.queue.length ∧
      (rdy.store.live.pat.timeline 15).isEmpty = true ∧ rdy.expand 15 = [] := by
  refine ⟨takes_of ?_, ?_, ?_, takes_of ?_, ?_, ?_, ?_⟩ <;> decide +kernel

theorem test_witness_RingMakesAJob_sounds :
    (plant .sounder .none .none).takes .a 0 .staff ∧ (plant .sounder .none .none).expand 15 = [30, 31] ∧
      ((plant .sounder .none .none).store.live.pat.timeline 1).ons.head? = some ⟨0, 1000⟩ ∧
      ((after (.ring .a 0 15 1 .sounderOnly) (plant .both .none .none)).zoneAt 31).bellUntil = some 1008000 ∧
      (after (.ring .a 0 15 1 .zoneDefault) (plant .both .none .none)).bds.queue.map Job.key = [.manual 1] ∧
      ((after (.ring .a 0 15 1 .zoneDefault) (plant .both .none .none)).zoneAt 30).trunk = some 0 ∧
      (after (.ring .a 0 15 1 .zoneDefault) (plant .both .alarm (.drill .both))).bds.queue = [] ∧
      ((after (.ring .a 0 15 1 .zoneDefault) (plant .both .alarm (.drill .both))).ntu.a.recAt .bellDropped).count = 2 := by
  refine ⟨takes_of ?_, ?_, ?_, ?_, ?_, ?_, ?_, ?_⟩ <;> decide +kernel

/-- A wait at its limit in zone Z31. -/
def expiring (a : LimitAction) : Wait :=
  { job := 1, zone := 31, since := 840000, reason := .page, policy := .finish, maxDefer := 20, limit := a, forced := false }

/-- A job whose one part sounds in zone Z31 from 992,000, or is deferred there. -/
def oneJob (m : Medium) (st : PartState) : Job :=
  { num := 1, key := .plan 0, day := 0, sec := 0, late := false, label := none, pattern := 1, timeline := ⟨[⟨0, 1000⟩], 2000⟩,
    medium := .zoneDefault, groups := 0
    parts := [{ zone := 31, medium := m, state := st, firstDeferral := some 840000, start := some 992000, sounder := .playing, speaker := .absent,
                step := 0 }] }

def deferredJob (a : LimitAction) (m : Medium) : State :=
  { rdy.setZone 31 { zoneRecStart 31 with holder := .page 1 3, available := true, waits := [expiring a] } with
    bds := { rdy.bds with queue := [oneJob m (.deferred .page)] } }

def soundingJob : State :=
  { rdy.setZone 31 { zoneRecStart 31 with holder := .bell 1, available := true, bellUntil := some 1000000 } with
    bds := { rdy.bds with queue := [oneJob .sounder .sounding] } }

/-- Trunk T3 playing a tone that has reached its end. -/
def toneDone : TrunkUse :=
  { program := .tone 1 1, since := 0, seq := 0, tone := none, toneSince := some 0, toneUntil := some 1000000, source := false, silence := none }

theorem test_witness_BellTimersTakeEffect :
    (deferredJob .force .sounder).ready ∧ (deferredJob .force .sounder).expiredWaits 1 ≠ [] ∧
      (deferredJob .force .sounder).partSpeaks 1 31 = false ∧ (deferredJob .force .speaker).partSpeaks 1 31 = true ∧
      (expiring .drop).limit = .drop ∧ soundingJob.ready ∧ soundingJob.job? 1 = some (oneJob .sounder .sounding) ∧
      (oneJob .sounder .sounding).timeline.changes[0]? = some (0, some 1000) ∧ 992000 + 8 * 0 ≤ soundingJob.now ∧
      (soundingJob.zoneAt 31).holder = .bell 1 ∧ 0 + 1 < (oneJob .sounder .sounding).timeline.changes.length ∧
      (rdy.setTrunk 3 (some toneDone)).ready ∧ (rdy.setTrunk 3 (some toneDone)).trunkAt 3 = some toneDone := by
  refine ⟨ready_of ?_, ?_, ?_, ?_, ?_, ready_of ?_, ?_, ?_, ?_, ?_, ?_, ready_of ?_, ?_⟩ <;> decide +kernel

/-- A job whose part in zone Z31 plays on trunk T3, the tone at its end. -/
def toneJob (h : SounderHalf) : State :=
  let s := (plant .both .none (.bell 1)).setTrunk 3 (some toneDone)
  let j := oneJob .both .sounding
  { s.setZone 31 { s.zoneAt 31 with trunk := some 3 } with
    bds := { rdy.bds with queue := [{ j with parts := j.parts.map fun p => { p with sounder := h, speaker := .playing 1 3 } }] } }

theorem test_witness_BellTimersTakeEffect_ends :
    (toneJob .playing).ready ∧ (toneJob .playing).trunkAt 3 = some toneDone ∧ (after (.toneEnd 3) (toneJob .playing)).trunkAt 3 = none ∧
      ((after (.toneEnd 3) (toneJob .playing)).zoneAt 31).holder = .bell 1 ∧
      ((after (.toneEnd 3) (toneJob .finished)).zoneAt 31).holder = .none ∧ (after (.toneEnd 3) (toneJob .finished)).bds.queue = [] ∧
      ((deferredJob .force .sounder).expiredWaits 1).map Wait.zone = [31] ∧
      ((after (.deferralLimitExpiry 1) (deferredJob .force .sounder)).zoneAt 31).holder = .bell 1 ∧
      ((after (.deferralLimitExpiry 1) (deferredJob .force .both)).zoneAt 31).trunk = some 0 ∧
      (after (.deferralLimitExpiry 1) (deferredJob .drop .both)).bds.queue = [] := by
  refine ⟨ready_of ?_, ?_, ?_, ?_, ?_, ?_, ?_, ?_, ?_, ?_⟩ <;> decide +kernel

theorem test_witness_ClaimsResolvedByHolder_timers :
    (deferredJob .drop .sounder).ready ∧ (deferredJob .drop .sounder).expiredWaits 1 = [expiring .drop] ∧
      ((deferredJob .drop .sounder).job? 1).isSome = true ∧ (oneJob .sounder .sounding).timeline.changes.length = 2 ∧
      soundingJob.ready ∧ ((after (.sounderTimelineChange 1 31) soundingJob).part? 1 31).map Part.step = some 1 ∧
      (toneJob .playing).ready ∧ ((after (.toneEnd 3) (toneJob .playing)).part? 1 31).map Part.speaker = some .finished := by
  refine ⟨ready_of ?_, ?_, ?_, ?_, ready_of ?_, ?_, ready_of ?_, ?_⟩ <;> decide +kernel

/-- R128: a deferral is no event of a part that sounds or is DONE. -/
theorem test_no_deferral_of_sounding_part :
    soundingJob.tellDeferred 1 31 0 .page = soundingJob ∧
      ({ soundingJob with bds := { soundingJob.bds with queue := [oneJob .sounder .done] } } : State).tellDeferred 1 31 0 .page =
        { soundingJob with bds := { soundingJob.bds with queue := [oneJob .sounder .done] } } ∧
      (((deferredJob .drop .sounder).tellDeferred 1 31 0 .bell).part? 1 31).map Part.state = some (.deferred .bell) := by
  decide +kernel

/-- R105, R106: job 2's part displaces job 1's bell part in zone Z31, and the trunk that job 1 played on is FREE at once. -/
theorem test_displaced_tone_frees_its_trunk :
    let s := toneJob .playing
    let t := ({ s with bds := { s.bds with queue := s.bds.queue ++ [{ oneJob .sounder .pending with num := 2 }] } } : State).forceTakes 2 31 none
    (t.zoneAt 31).holder = .bell 2 ∧ t.trunkAt 3 = none ∧ t.ztc.agenda = [.pass] := by decide +kernel

/-- A page of port A on trunk T3. -/
def pageIn (st : PageState) : Page :=
  { num := 1, state := st, port := .a, op := 0, cls := .safety, source := .micA, prio := 3, names := .zone 31, pretone := some 1, limit := 60,
    part := false, arrival := ⟨0, 0⟩, arrivalSeq := 0, start := if st = .queued then none else some ⟨0, 0⟩, expansion := [31], trunk := some 3,
    held := [31], waiting := [], suspended := [], lost := [], limitAt := some 1000000 }

theorem test_witness_PageEntersTheQueue :
    rdy.takes .a 0 .staff ∧ sourceFits .micB .a = false ∧ namesExist (.zone 32) = false ∧ sourceFits .micA .a = true ∧
      namesExist (.group 15) = true ∧ namesExist (.zone 31) = true ∧
      ({ rdy with pgc := { rdy.pgc with queue := [pageIn .queued] } } : State).takes .a 0 .staff ∧ (pageIn .queued).source = .micA ∧
      rdy.pgc.queue.length ≤ 3 := by
  refine ⟨takes_of ?_, ?_, ?_, ?_, ?_, ?_, takes_of ?_, ?_, ?_⟩ <;> decide +kernel

/-- All four trunks in use: a page of priority 3 on T0, tones on T1 and T2, the later on T2, the drill on T3. -/
def fullTrunks (tones : Bool) : State :=
  let use (x : TrunkProgram) (seq : Nat) : Option TrunkUse :=
    some { program := x, since := 0, seq := seq, tone := none, toneSince := none, toneUntil := none, source := false, silence := none }
  let s := plant .both .none (.page 9 3)
  { s with
    pgc := { rdy.pgc with queue := [queuedPage 1 7, livePage 9 3 0] }
    ztc := { s.ztc with trunks := [(0, use (.page 9) 0), (1, use (if tones then .tone 1 1 else .drill) 1),
                                   (2, use (if tones then .tone 1 2 else .drill) 2), (3, use .drill 3)] } }

theorem test_witness_PageEntersTheQueue_grants :
    (plant .both .none .none).takes .a 0 .staff ∧ (plant .both .none .none).freeTrunk = some 0 ∧
      (after (.page .a 0 .micA 3 (.group 15) none none true) (plant .both .none .none)).pgc.queue.map Page.held = [[30, 31]] ∧
      (after (.page .a 0 .micA 3 (.group 15) none none true) (plant .both .none .none)).pgc.queue.map Page.state = [.live] ∧
      ((after (.page .a 0 .micA 3 (.group 15) none none true) (plant .both .alarm (.drill .both))).ntu.a.recAt .pageEnd).flag = true ∧
      (after (.page .a 0 .micA 3 (.group 15) none none true) (plant .both (.bell 1) .alarm)).pgc.queue.map Page.waiting = [[30]] ∧
      (fullTrunks true).freeTrunk = none ∧ (fullTrunks true).latestTone.map Prod.fst = some 2 ∧
      ((fullTrunks true).passOnce false).2 = some [.serve [] none true, .claimPage 1] ∧
      (((fullTrunks true).passOnce true).1.trunkAt 2).map TrunkUse.program = some (.page 1) ∧
      (fullTrunks false).latestTone = none ∧ (fullTrunks false).weakestPage.map Page.num = some 9 ∧
      (((fullTrunks false).passOnce true).1.trunkAt 0).map TrunkUse.program = some (.page 1) := by
  refine ⟨takes_of ?_, ?_, ?_, ?_, ?_, ?_, ?_, ?_, ?_, ?_, ?_, ?_, ?_⟩ <;> decide +kernel

/-- A speaker part of a job waits in a zone, behind a page. -/
def waitOf (n z : Nat) : Wait :=
  { job := n, zone := z, since := 840000, reason := .page, policy := .finish, maxDefer := 200, limit := .drop, forced := false }

def speakerJob (n : Nat) (zs : List Nat) : Job :=
  { num := n, key := .plan n, day := 0, sec := 0, late := false, label := none, pattern := 1, timeline := ⟨[⟨0, 1000⟩], 2000⟩,
    medium := .zoneDefault, groups := 0, parts := zs.map fun z => { newPart .speaker z with state := .deferred .page } }

/-- Page 9 holds zones Z30 and Z31 on trunk T0; jobs 1 and 2 head their wait lists, and job 3 waits behind both. -/
def heldBack : State :=
  let s := fullTrunks false
  let zone (n z : Nat) : ZoneRec := { zoneRecStart z with holder := .page 9 3, available := true, waits := [waitOf n z, waitOf 3 z] }
  { (s.setZone 30 (zone 1 30)).setZone 31 (zone 2 31) with
    pgc := { rdy.pgc with queue := [{ livePage 9 3 0 with held := [30, 31] }] }
    bds := { rdy.bds with queue := [speakerJob 1 [30], speakerJob 2 [31], speakerJob 3 [30, 31]] } }

/-- R101, R104, R109: the page ends while its trunk is the only one; jobs 1 and 2 are turned down, the parts of job 3 behind them form
one start group, and the trunk released last goes to job 1. -/
theorem test_heads_served_together :
    (after (.cancel .a 0 9) heldBack).ztc.groups.map (fun g => (g.job, g.members.map Wait.zone)) = [(2, [31]), (3, [30, 31])] ∧
      ((after (.cancel .a 0 9) heldBack).trunkAt 0).map TrunkUse.program = some (.tone 1 1) := by decide +kernel

/-- R106, R114: a page that leaves its only zone for RECONFIG leaves its trunk FREE at once, and the head of the wait list plays on it. -/
theorem test_moved_zone_frees_its_trunk :
    let s := headed .speaker (.page 9 3)
    let u : State := { s with pgc := { rdy.pgc with queue := [livePage 9 3 0] }, ztc := { s.ztc with trunks := (fullTrunks false).ztc.trunks } }
    let t := (u.setLine 5 { lineStart 5 with state := .run }).moveZone (some 4) 31 |>.settle
    (t.zoneAt 31).holder = .bell 1 ∧ (t.trunkAt 0).map TrunkUse.program = some (.tone 1 1) := by
  decide +kernel

/-- R110, R162: a silent stage begins without a grant pass, and a QUEUED page stays so. -/
theorem test_silent_stage_makes_no_pass :
    let s := plant .both .none .none
    let d := sessionOf true .manual
    let u : State := { s with dsq := { rdy.dsq with session := some { d with source := .panel, stages := d.stages ++ d.stages } }
                              pgc := { rdy.pgc with queue := [queuedPage 1 3] } }
    (after .stageExpiry u).dsq.session.map Session.stage = some 1 ∧
      (after .stageExpiry u).pgc.queue.map Page.state = [.queued] := by decide +kernel

/-- A silence of so many eighths. -/
def quietFor (n : Nat) : Silence := { since := 1000000 - n, pauseLength := 600, idleLimit := 15, paused := false, idled := false }

/-- Trunk T3 carrying page 1. -/
def pageUse (q : Option Silence) : TrunkUse :=
  { program := .page 1, since := 0, seq := 0, tone := none, toneSince := some 0, toneUntil := some 1000000, source := true, silence := q }

/-- Page 1 on trunk T3. -/
def paging (st : PageState) (q : Option Silence) : State :=
  { rdy.setTrunk 3 (some (pageUse q)) with pgc := { rdy.pgc with queue := [pageIn st] } }

theorem test_witness_PageTimersTakeEffect :
    (paging .chime none).ready ∧ (paging .chime none).trunkAt 3 = some (pageUse none) ∧ (paging .chime none).page? 1 = some (pageIn .chime) ∧
      (paging .live none).ready ∧ (paging .live none).page? 1 = some (pageIn .live) ∧ (paging .live (some (quietFor 4800))).ready ∧
      (quietFor 4800).since + 8 * 600 ≤ (paging .live none).now ∧ (paging .live (some (quietFor 120000))).ready ∧
      (quietFor 120000).since + 8000 * 15 ≤ (paging .live none).now ∧ (pageIn .live).limitAt = some 1000000 := by
  refine ⟨ready_of ?_, ?_, ?_, ready_of ?_, ?_, ready_of ?_, ?_, ready_of ?_, ?_, ?_⟩ <;> decide +kernel

/-- Page 1 alone, holding zone Z31 on trunk T3, its limit run out. -/
def lastPage : State :=
  { (plant .both .none (.page 1 3)).setTrunk 3 (some (pageUse (some (quietFor 120000)))) with
    pgc := { rdy.pgc with queue := [pageIn .live] } }

theorem test_witness_PageTimersTakeEffect_ends :
    lastPage.ready ∧ lastPage.page? 1 = some (pageIn .live) ∧ lastPage.pgc.queue = [pageIn .live] ∧ lastPage.ztc.groups = [] ∧
      (lastPage.zoneAt 30).waits = [] ∧ lastPage.dsq.session = none ∧ (after (.pageLimitExpiry 1) lastPage).pgc.queue = [] ∧
      (after (.pageLimitExpiry 1) lastPage).trunkAt 3 = none ∧ ((after (.idle 3) lastPage).zoneAt 31).holder = .none ∧
      ((after (.idle 3) lastPage).ntu.a.recAt .pageEnd).count = 1 ∧ (pageIn .live).onAir = true := by
  refine ⟨ready_of ?_, ?_, ?_, ?_, ?_, ?_, ?_, ?_, ?_, ?_, ?_⟩ <;> decide +kernel

/-- Operator 01 of port B is STAFF. -/
def staffB (s : State) : State :=
  { s with store := { s.store with live := { s.store.live with prt := { s.store.live.prt with operators := [(17, .staff)] } } } }

theorem test_witness_EndAndCancelEndAPage :
    rdy.takes .a 0 .staff ∧ rdy.page? 1 = none ∧ (paging .live none).takes .a 0 .staff ∧ (paging .live none).takes .b 0 .staff ∧
      (staffB (paging .live none)).takes .b 1 .staff ∧
      classRank ((staffB (paging .live none)).classOf .b 1) < classRank (pageIn .live).cls ∧
      classRank (pageIn .live).cls ≤ classRank ((paging .live none).classOf .b 0) ∧ (paging .queued none).takes .a 0 .staff ∧
      ((paging .queued none).pgc.queue.filter fun x => x.num = 1) = [pageIn .queued] ∧
      (plant .both (.bell 1) .alarm).takes .a 0 .staff ∧ (plant .both (.bell 1) .alarm).expandNames (.group 15) = [30, 31] ∧
      (plant .both (.bell 1) .alarm).pageAnswer 3 30 = .waiting ∧ (plant .both (.bell 1) .alarm).pageAnswer 3 31 = .excluded .alarm ∧
      (plant .both (.bell 1) .alarm).pgc.queue = [] := by
  refine ⟨takes_of ?_, ?_, takes_of ?_, takes_of ?_, takes_of ?_, ?_, ?_, takes_of ?_, ?_, takes_of ?_, ?_, ?_, ?_, ?_⟩ <;> decide +kernel

/-! ### Witnesses: the panel and drills -/

/-- An input whose raw level has stood for the debounce time of 50 ms. -/
def stood (raw : RawLevel) (v : Bool) : InputSt := { raw := raw, levelSince := 999600, circuitSince := 999600, debounced := v, fault := false }

def panelled (f : Pnl → Pnl) : State := { rdy with pnl := f rdy.pnl }

theorem test_witness_PanelInputsDebounced :
    rdy.restingLaw ∧ (rdy.pnl.input .alarm).raw = .inactive ∧ (panelled fun x => { x with trouble := stood .active false }).ready ∧
      (stood .active false).levelSince + 8 * rdy.drillSet.debounce ≤ rdy.now ∧
      (panelled fun x => { x with alarm := stood .active false }).ready ∧
      (panelled fun x => { x with silence := stood .active false, state := .alarm }).ready ∧
      (panelled fun x => { x with drillAck := stood .inactive true }).ready ∧
      (panelled fun x => { x with drillAck := stood .broken true }).ready ∧
      ((stood .broken true).fault = true ↔ (stood .broken true).raw ≠ .broken) ∧
      (stood .broken true).circuitSince + 8 * rdy.drillSet.debounce ≤ rdy.now := by
  refine ⟨rests_law ?_, ?_, ready_of ?_, ?_, ready_of ?_, ready_of ?_, ready_of ?_, ready_of ?_, ?_, ?_⟩ <;> decide +kernel

/-- The alarm input has fallen in a panel state, the restore delay being so many seconds. -/
def falling (st : PanelState) (delay : Nat) : State :=
  let s := panelled fun x => { x with alarm := stood .inactive true, state := st, alarmSet := [31] }
  { s with store := { s.store with live := { s.store.live with drl := { s.store.live.drl with
      drillSet := { s.store.live.drl.drillSet with restoreDelay := delay } } } } }

theorem test_witness_PanelInputsDebounced_states :
    (falling .alarm 1).ready ∧ (after (.debounceExpiry .alarm) (falling .alarm 1)).pnl.restoreAt = some 1008000 ∧
      (after (.debounceExpiry .alarm) (falling .silenced 1)).pnl.state = .restoring ∧
      ((after (.debounceExpiry .alarm) (falling .silenced 1)).zoneAt 31).holder = .alarm ∧
      (after (.debounceExpiry .alarm) (falling .alarm 0)).pnl.state = .normal ∧
      (after (.debounceExpiry .alarm) (panelled fun x => { x with alarm := stood .active false, state := .restoring })).pnl.state = .alarm ∧
      (after (.debounceExpiry .silence) (panelled fun x => { x with silence := stood .inactive true, state := .silenced })).pnl.state = .alarm ∧
      (after (.debounceExpiry .silence) (panelled fun x => { x with silence := stood .active false, state := .silenced })).pnl.state = .silenced := by
  refine ⟨ready_of ?_, ?_, ?_, ?_, ?_, ?_, ?_, ?_⟩ <;> decide +kernel

theorem test_witness_PanelTimersTakeEffect :
    (panelled fun x => { x with state := .restoring, restoreAt := some 1000000 }).ready ∧
      (panelled fun x => { x with sampleUntil := some 1000000, trouble := stood .broken false }).ready ∧
      (panelled fun x => { x with sampleUntil := some 1000000 }).pnl.alarm.raw ≠ .active ∧ 1000000 ≤ rdy.now := by
  refine ⟨ready_of ?_, ready_of ?_, ?_, ?_⟩ <;> decide +kernel

theorem test_witness_PanelTimersTakeEffect_alarm :
    (panelled fun x => { x with sampleUntil := some 1000000, alarm := stood .active false }).ready ∧
      (after .panelSampleComplete (panelled fun x => { x with sampleUntil := some 1000000, alarm := stood .active false })).pnl.state = .alarm ∧
      ((after .restoreTimerExpiry { zoneHeld .alarm with pnl := { rdy.pnl with state := .restoring, restoreAt := some 1000000 } }).zoneAt 31).holder = .none := by
  refine ⟨ready_of ?_, ?_, ?_⟩ <;> decide +kernel

/-- Program 7 of DRL has one stage. -/
def program7 (a : AdvanceMode) : State :=
  { rdy with store := { rdy.store with live := { rdy.store.live with drl := { rdy.store.live.drl with
      programs := [(7, ⟨[0], .controller⟩)], stages := [(56, some ⟨.alert, 1, 1, a, true⟩)] } } } }

def drilling (running : Bool) (a : AdvanceMode) : State :=
  { program7 a with dsq := { rdy.dsq with session := some (sessionOf running a) } }

theorem test_witness_DrillRequestedAndTimedOut :
    rdy.takes .a 0 .safety ∧ (∃ ls l, some [6] = some ls ∧ l ∈ ls ∧ 6 ≤ l) ∧ (program7 .manual).takes .a 0 .safety ∧
      (program7 .manual).dsq.session = none ∧ (program7 .manual).pnl.state = .normal ∧ (program7 .manual).pnl.causes = [] ∧
      (program7 .manual).store.live.drl.stagesOf 7 ≠ [] ∧ (program7 .manual).pnl.drillAck.debounced = false ∧
      rdy.store.live.drl.stagesOf 7 = [] ∧ (drilling false .manual).ready ∧ (sessionOf false .manual).ackAt ≤ (drilling false .manual).now ∧
      (sessionOf false .manual).timing = .before := by
  refine ⟨takes_of ?_, ⟨[6], 6, rfl, ?_, ?_⟩, takes_of ?_, ?_, ?_, ?_, ?_, ?_, ?_, ready_of ?_, ?_, ?_⟩ <;> decide +kernel

/-- DRILL-ACK has been active, or inactive, for the debounce time. -/
def acknowledged (s : State) (v : Bool) : State :=
  { s with pnl := { s.pnl with drillAck := stood (if v then .active else .inactive) (!v) } }

theorem test_witness_PanelInputsDebounced_drill :
    (acknowledged (drilling false .manual) true).ready ∧ (sessionOf false .manual).stages[0]? ≠ none ∧
      (after (.debounceExpiry .drillAck) (acknowledged (drilling false .manual) true)).dsq.session.map Session.running = some true ∧
      (after (.debounceExpiry .drillAck) (acknowledged rdy true)).dsq.session = none ∧
      ((after (.debounceExpiry .drillAck) (acknowledged rdy true)).ntu.a.recAt .drill).detail = some (.drill (.refused .noProgram)) ∧
      (after (.debounceExpiry .drillAck) (acknowledged (drilling true .manual) false)).dsq.session = none ∧
      (after (.debounceExpiry .drillAck) (acknowledged (drilling true .manual) false)).dsq.records.map DrillRecord.reason =
        [.abortedPanel] := by
  refine ⟨ready_of ?_, ?_, ?_, ?_, ?_, ?_, ?_⟩ <;> decide +kernel

theorem test_witness_DrillStagesEnd :
    (drilling true .timed).ready ∧ (sessionOf true .timed).nextChange = some 1000000 ∧ 1000000 ≤ (drilling true .timed).now ∧
      992000 + 8000 * 1 ≤ (drilling true .timed).now ∧ (sessionOf true .timed).stage + 1 = (sessionOf true .timed).stages.length ∧
      (drilling true .manual).takes .a 0 .safety ∧ (drilling true .timed).takes .a 0 .safety ∧ rdy.takes .a 0 .safety ∧
      rdy.dsq.session = none := by
  refine ⟨ready_of ?_, ?_, ?_, ?_, ?_, takes_of ?_, takes_of ?_, takes_of ?_, ?_⟩ <;> decide +kernel

/-- A command waits while eight bell jobs, three pages or a RUNNING drill stand. -/
def laden : State :=
  let page (n : Nat) (x : Source) : Page := { (rdy.newPage .a 0 ⟨x, 3, .zone 31, none, 60, true, false⟩) with num := n }
  { eightJobs with pgc := { rdy.pgc with queue := [page 1 .micA, page 2 .micB, page 3 .aux] }, pending := [.keySwitchSetup] }

theorem test_witness_QueueLawsKept : (laden.bellLaw ∧ laden.pageLaw) ∧ ∃ t, step laden = .next t := by
  refine ⟨?_, _, rfl⟩
  unfold State.bellLaw State.pageLaw
  decide +kernel

/-- A drill RUNNING under DRILL-ACK, and a command waiting. -/
def drilled : State :=
  { drilling true .manual with pnl := { rdy.pnl with drillAck := { rdy.pnl.drillAck with debounced := true } }, pending := [.keySwitchSetup] }

theorem test_witness_DrillLawKept : drilled.drillLaw ∧ ∃ t, step drilled = .next t := by
  refine ⟨fun d h => ?_, _, rfl⟩
  cases h
  decide +kernel

/-- The drill of program 7 as a clear station of line L0 replies, which has a baseline. -/
def clearing (a : AdvanceMode) (timing : TimingState) (base : Option Nat) : State :=
  { (drilling true a).setLine 0 (hearingFrom .run .clear (bellRec .present)) with
    dsq := { rdy.dsq with session := some { sessionOf true a with timing := timing, baselines := [{ line := 0, addr := 24, count := base }] } } }

/-- R163, R164: the first report is the baseline, another count clears the building, and ends a CLEAR-ALL stage. -/
theorem test_witness_ReplyTaken_clear :
    (clearing .manual .running none).ready ∧
      ((after (from24 (.clear 6)) (clearing .manual .running none)).dsq.session.map fun d => d.baselineOf 0 24) = some (some 6) ∧
      ((after (from24 (.clear 6)) (clearing .manual .running (some 5))).dsq.session.map fun d => d.resultOf 0) = some (some (.cleared 1000)) ∧
      ((after (from24 (.clear 5)) (clearing .clearAll .running (some 5))).dsq.session.map fun d => d.resultOf 0) = some none ∧
      (after (from24 (.clear 6)) (clearing .clearAll .ended (some 5))).dsq.session.isSome = true ∧
      (after (from24 (.clear 6)) (clearing .clearAll .running (some 5))).dsq.session = none ∧
      ((after (from24 (.clear 6)) (clearing .clearAll .running (some 5))).dsq.records.map DrillRecord.reason) = [.completed] ∧
      ((after (from24 (.clear 6)) (onL0 (hearingFrom .run .clear { bellRec .present with serial := some 7 }))).lineAt 0).recAt 24 =
        { bellRec .foreign with kind := some .clear, serial := some 7, report := some (.clear 6) } := by
  refine ⟨ready_of ?_, ?_, ?_, ?_, ?_, ?_, ?_, ?_⟩ <;> decide +kernel

/-- DRILL holds zone Z31 on trunk T3, and an emergency page waits for that zone; page 9 and two tones are in zones Z0, Z1 and Z30. -/
def drillHeld : State :=
  let s := fullTrunks true
  let held (h : Holder) (t : Nat) : ZoneRec := { zoneRecStart 0 with holder := h, trunk := some t, available := true }
  let s := ((s.setZone 0 (held (.page 9 3) 0)).setZone 1 (held (.bell 1) 1)).setZone 30 (held (.bell 1) 2)
  { s.setZone 31 { s.zoneAt 31 with holder := .drill .both } with
    dsq := { rdy.dsq with session := some (sessionOf true .manual) }
    pgc := { rdy.pgc with queue := [{ queuedPage 1 6 with names := .zone 31, lost := [(31, .drill)] }] } }

/-- R166: the zones of an aborted drill are offered before its trunk is released, so the page takes that of the latest tone. -/
theorem test_abort_releases_zones_first :
    ((after (.abort .a 0) drillHeld).trunkAt 2).map TrunkUse.program = some (.page 1) ∧ (after (.abort .a 0) drillHeld).trunkAt 3 = none ∧
      ((after (.abort .a 0) drillHeld).zoneAt 31).holder = .page 1 6 ∧ (after (.abort .a 0) drillHeld).dsq.session = none := by
  decide +kernel

/-! ### Witnesses: notices, ports and start-up -/

/-- No notice flagged at either port. -/
def unflagged : State := { rdy with ntu := { a := { rdy.ntu.a with recs := [], attention := false }, b := { rdy.ntu.b with recs := [], attention := false } } }

theorem test_witness_NextAnswersTheHighestKind :
    unflagged.takes .a 0 .viewer ∧ (∀ k, ((unflagged.ntu.get .a).recAt k).flag = false) ∧ rdy.takes .b 0 .viewer ∧
      ((rdy.ntu.get .b).recAt .store).flag = true := by
  refine ⟨takes_of ?_, fun k => ?_, takes_of ?_, ?_⟩
  case refine_2 => cases k <;> rfl
  all_goals decide +kernel

theorem test_witness_NoticeRequestsActAtTheirPort :
    rdy.takes .a 0 .staff ∧ ((rdy.ntu.get .a).recAt .testEnd).flag = false ∧ ((rdy.ntu.get .a).recAt .store).flag = true ∧
      ((rdy.ntu.get .a).recAt .store).count < 9 ∧ 8 ≤ ((rdy.ntu.get .a).recAt .store).count ∧ 9 ≤ 255 := by
  refine ⟨takes_of ?_, ?_, ?_, ?_, ?_, ?_⟩ <;> decide +kernel

/-- Signal 7 raised from port A. -/
def signalled : State := { rdy with fromA := [7] }

theorem test_witness_SlotsAndSignals :
    rdy.takes .a 0 .staff ∧ 7 ∉ rdy.signalsFrom .a ∧ signalled.takes .a 0 .staff ∧ 7 ∈ signalled.signalsFrom .a ∧
      signalled.takes .b 0 .staff ∧ 7 ∈ signalled.signalsFrom (otherPort .b) ∧ 7 ∉ signalled.signalsFrom (otherPort .a) := by
  refine ⟨takes_of ?_, ?_, takes_of ?_, ?_, takes_of ?_, ?_, ?_⟩ <;> decide +kernel

theorem test_witness_ReadingRequestsAnswered : rdy.takes .a 0 .viewer ∧ (drilling true .timed).takes .b 0 .viewer :=
  ⟨takes_of (by decide +kernel), takes_of (by decide +kernel)⟩

/-- A reply in progress at port A, with so many NO BUSY owed. -/
def replying (n : Nat) : State := rdy.setPort .a { rdy.port .a with reply := some .ok, owed := n, restarts := true }

theorem test_witness_PortTakesOneRequestAtATime :
    rdy.takes .a 0 .office ∧ rdy.setup = false ∧ edit.takes .a 0 .office ∧ edit.setup = true ∧ rdy.restingLaw ∧ rdy.reads = true ∧
      (rdy.port .a).reply = none ∧ (replying 7).restingLaw ∧ (replying 7).reads = true ∧ ((replying 7).port .a).reply ≠ none ∧
      (replying 8).restingLaw ∧ (replying 0).ready ∧ ((replying 0).port .a).reply ≠ none := by
  refine ⟨takes_of ?_, ?_, takes_of ?_, ?_, rests_law ?_, ?_, ?_, rests_law ?_, ?_, ?_, rests_law ?_, ready_of ?_, ?_⟩ <;> decide +kernel

/-- Characters that have arrived at port A, and the line they go on with. -/
def hearing (cs : List LinkChar) (typed : LineBuf) : State := rdy.setPort .a { rdy.port .a with arriving := cs, typed := typed }

theorem test_witness_PortTakesOneRequestAtATime_characters :
    (hearing [.code 13] LineBuf.new).reads = true ∧ ((hearing [.code 13] LineBuf.new).port .a).arriving = .code 13 :: [] ∧
      (hearing [.code 13] LineBuf.new).charCommand .a = [] ∧
      (hearing [.code 13] ⟨codes "00 TIME", false, false⟩).charCommand .a = [.time .a 0] ∧
      (hearing [.code 13] ⟨codes "00 TIME", true, false⟩).charCommand .a = [.unreadableLine .a] ∧
      (((hearing [.code 33] ⟨List.replicate 79 32, false, false⟩).takeChar .a).port .a).typed.tooLong = false ∧
      (((hearing [.code 33] ⟨List.replicate 80 32, false, false⟩).takeChar .a).port .a).typed.tooLong = true ∧
      (((hearing [.code 9] LineBuf.new).takeChar .a).port .a).typed.bad = true ∧
      (((hearing [.broken] LineBuf.new).takeChar .a).port .a).typed.bad = true := by decide +kernel

/-- Chapter 10: requests as they are typed. -/
theorem test_lines_read :
    readLine .a none (codes "02 page mic-b 4 G04 - - yes") = .page .a 2 .micB 4 (.group 4) none none true ∧
      readLine .a (some .plan) (codes "04 WRITE 10:40:00 G01 P02 ZONE-DEFAULT LESSON 3a") =
        .write .a 4 [.time ⟨10, 40, 0⟩, .group 1, .pattern 2, .word .zoneDefault, .label (codes "LESSON 3a")] ∧
      readLine .a none (codes "16 TIME") = .unknownKeyword .a .badStart ∧ readLine .a none (codes "00 FOO") = .unknownKeyword .a .noKeyword ∧
      readLine .b none (codes "00 RING G01") = .unknownKeyword .b .badArguments ∧
      readLine .b none (codes "00 SELECT CAL FOO 0 LIVE") = .select .b 0 .cal none 0 .live ∧
      readLine .b none (codes "00 SELECT CAL  0 LIVE") = .unknownKeyword .b .badArguments := by decide +kernel

theorem test_reply_text : (Reply.no .badSyntax).text = codes "NO SYNTAX" ++ [13, 10, 13, 10] ∧
    (Reply.entry [.num 7, .word .zoneDefault]).firstLine = codes "OK 7 ZONE-DEFAULT" := by decide +kernel

/-- A RESTART is due that will find CAL's image bad, while the reference is enabled and the state LOCKED. -/
def reloading : State := { disciplining .locked true 0 0 0 with restartDue := true }

theorem test_witness_StartUpSetsTheBlocks_disabled :
    reloading.power = true ∧ reloading.restartDue = true ∧ reloading.timeSet.refEnable = true ∧
      (after (.controllerRestart []) reloading).timeSet.refEnable = false ∧ (after (.controllerRestart []) reloading).tbu.disc = .locked ∧
      (after (.controllerRestart []) reloading).discipline = .free ∧ reloading.discipline = .locked ∧
      (after (.controllerRestart []) reloading).timeReply.disc = .free := by
  decide +kernel

theorem test_witness_StartUpSetsTheBlocks :
    ({ rdy with power := false } : State).power = false ∧
      ({ rdy with power := false, tbu := { rdy.tbu with battery := { rdy.tbu.battery with valid := true } } } : State).tbu.battery.valid = true ∧
      rdy.tbu.battery.valid = false ∧ rdy.power = true ∧ ({ edit with restartDue := true } : State).restartDue = true := by
  decide +kernel

/-! ### Witnesses: field devices -/

/-- A device at the last address of line L0, which has power. -/
def deviceIn (d : FieldDev) : State := (onL0 (lineIn .run 1)).setField 0 24 d

/-- A bell unit and speaker node's outputs at the end of their times. -/
def running : FieldDev := { fieldStart 0 with bellOn := true, holdUntil := 1000000, lastValid := 976000, trunk := some 3, zone := some 31, loopUps := 4 }

theorem test_witness_FieldDevicesAct :
    running = (deviceIn running).fieldAt 0 24 ∧ (deviceIn running).power = true ∧ ((deviceIn running).lineAt 0).state.powered = true ∧
      running.echo = none ∧ readFrame (Frame.time 0 0 0 0 0 0 false false false false false).bytes =
        some (.time 0 0 0 0 0 0 false false false false false) ∧
      readFrame (Frame.output 31 true 10500 none).bytes = some (.output 31 true 10500 none) ∧
      readFrame (Frame.poll 24 (some 31)).bytes = some (.poll 24 (some 31)) ∧ readFrame (Frame.loopUp 24).bytes = some (.loopUp 24) ∧
      readFrame (Frame.loopDown 24).bytes = some (.loopDown 24) ∧ running.holdUntil ≤ (deviceIn running).now ∧
      running.lastValid + 24000 ≤ (deviceIn running).now ∧ 520000 + 480000 ≤ (deviceIn running).now := by
  decide +kernel

/-- A device in echo. -/
def echoDevice : FieldDev := { fieldStart 0 with echo := some 520000 }

theorem test_witness_FieldDevicesAct_echo :
    echoDevice = (deviceIn echoDevice).fieldAt 0 24 ∧ ((deviceIn echoDevice).lineAt 0).state.powered = true ∧
      readFrame (Frame.proving 24 (List.replicate 16 7)).bytes = some (.proving 24 (List.replicate 16 7)) ∧
      ((after (.deviceLoopUp 0 24 (Frame.proving 24 (List.replicate 16 7)).bytes) (deviceIn echoDevice)).fieldAt 0 24).sent =
        (Frame.proving 24 (List.replicate 16 7)).bytes ∧
      readFrame (Frame.clockSet 24 36524 23 59 59 999).bytes = some (.clockSet 24 36524 23 59 59 999) ∧
      (((after (.roomClockFrame 0 24 (Frame.clockSet 24 36524 23 59 59 999).bytes) (deviceIn running)).fieldAt 0 24).clock.map ClockFace.day) =
        some 36524 ∧
      ((after (.bellUnitCommand 0 24 (Frame.poll 24 none).bytes) (deviceIn echoDevice)).fieldAt 0 24).sent = [] := by
  decide +kernel

end Sys2Proof.Tests
end

