-- ==== Sys2Proof/Proofs/CampusTimebase.lean ====
section
/-! The TIME request (R21). A reply begun at a port leaves a resting state resting and, whatever `finish` still does, stands in
the port afterwards; so a request that only reads is answered in one equation, and a refused one with NO CLASS. -/

set_option autoImplicit false

namespace Sys2Proof.Machine

open Sys2Proof

/-! ### Replies begun at a port -/

/-- The laws of a resting state do not look at the console ports. -/
theorem setPort_restingLaw {s : State} (h : s.restingLaw) (p : Port) (x : PortSt) : (s.setPort p x).restingLaw := by
  obtain ⟨hagenda, hpages, hattention⟩ := h
  exact ⟨hagenda, hpages, fun q => hattention q⟩

/-- A resting state in which a reply has begun has nothing left to carry out. -/
theorem finish_replied {s : State} (h : s.restingLaw) (p : Port) (r : Reply) :
    finish (s.replied p r) = .next (s.replied p r) :=
  finish_eq_self (setPort_restingLaw h p _)

/-- The access fault capture keeps the reply that the port is sending (R177). -/
theorem capture_reply (s : State) (p : Port) (op : Fin 16) (kw : Keyword) (region : Option Region) (why : AccessReason) :
    ((s.capture p op kw region why).port p).reply = (s.port p).reply := by
  unfold State.capture
  show ((s.setPort p _).port p).reply = _
  rw [port_setPort_same]

/-- Captured or not, the reply given is the one the port begins to send. -/
theorem respond_reply (s : State) (p : Port) (op : Fin 16) (kw : Keyword) (region : Option Region) (r : Reply) :
    ((s.respond p op kw region r).port p).reply = some r := by
  have hanswer : ((s.answer p r).port p).reply = some r := port_replied_same s p r
  unfold State.respond
  split
  · rw [capture_reply, hanswer]
  · exact hanswer

/-- The console ports are no part of what the end of a command can change. -/
theorem finish_port {s t : State} (h : finish s = .next t) (p : Port) : t.port p = s.port p := by
  have hports := congrArg State.ports (finish_rest h)
  exact congrArg (PerPort.get · p) hports

/-! ### Requests that only read -/

/-- VIEWER is the lowest class but NONE (R172). -/
theorem classAllows_viewer (s : State) (p : Port) (op : Fin 16) :
    s.classAllows p op .viewer = decide (s.classOf p op ≠ .none) := by
  unfold State.classAllows
  cases s.classOf p op <;> rfl

/-- An allowed request that changes nothing, and is not refused for access, leaves only its reply. -/
theorem request_reads {p : Port} {op : Fin 16} {kw : Keyword} {min : OpClass} {s : State} (h : s.takes p op min)
    (body : State → State × Reply) {r : Reply} (hbody : body s = (s, r)) (hr : r.access? = none) :
    request p op kw min s body = .next (s.replied p r) := by
  obtain ⟨hrest, hreads, hfree, hclass⟩ := h
  rw [request_allowed body hreads hfree hclass, hbody, respond_plain hr]
  exact finish_replied hrest p r

/-- A request that the class does not allow leaves the reply NO CLASS at its port. -/
theorem request_refused_reply {p : Port} {op : Fin 16} {kw : Keyword} {min : OpClass} {s : State}
    (body : State → State × Reply) (hreads : s.reads = true) (hfree : (s.port p).reply = none)
    (hclass : s.classAllows p op min = false) :
    ∃ t, request p op kw min s body = .next t ∧ (t.port p).reply = some (.no .cls) := by
  obtain ⟨t, ht⟩ := finish_next (s.respond p op kw none (.no .cls))
  refine ⟨t, (request_refused body hreads hfree hclass).trans ht, ?_⟩
  rw [finish_port ht, respond_reply]

/-! ### TIME -/

/-- TIME is answered with the reply that the Timebase Unit gives at that moment, and with nothing else (R21). -/
theorem execTime_allowed {s : State} {p : Port} {op : Fin 16} (h : s.takes p op .viewer) :
    execTime p op s = .next (s.replied p (.time s.timeReply)) :=
  request_reads h _ rfl rfl

/-- To an operator without a class TIME is refused (R172). -/
theorem execTime_refused {s : State} {p : Port} {op : Fin 16} (hreads : s.reads = true) (hfree : (s.port p).reply = none)
    (hclass : s.classAllows p op .viewer = false) :
    ∃ t, execTime p op s = .next t ∧ (t.port p).reply = some (.no .cls) :=
  request_refused_reply _ hreads hfree hclass

/-- Settles O17: the class check of VIEWER is that of any class but NONE, an allowed TIME leaves its reply alone, and a refused
one NO CLASS. -/
theorem timeAnswersTheTimebase : Obligations.TimeAnswersTheTimebase := by
  intro s p op hrest hreads hfree
  have hviewer := classAllows_viewer s p op
  constructor
  · intro hclass
    have hallowed : s.classAllows p op .viewer = true := by simpa [hclass] using hviewer
    exact execTime_allowed ⟨hrest, hreads, hfree, hallowed⟩
  · intro hnone
    have hrefused : s.classAllows p op .viewer = false := by simpa [hnone] using hviewer
    exact execTime_refused hreads hfree hrefused

end Sys2Proof.Machine
end

