-- ==== Sys2Proof/Proofs/PlanHolds.lean ====
section
/-! RELEASE and DISCARD (R68). What meets a port in `notHolding` follows the region's hold; what either request changes leaves a
resting state resting, so each case ends with its reply and nothing else to carry out. -/

set_option autoImplicit false

namespace Sys2Proof.Machine

open Sys2Proof

/-! ### Requests of the plan that leave a resting state -/

/-- The laws of a resting state do not look at the holds. -/
theorem setHold_restingLaw {s : State} (h : s.restingLaw) (r : Region) (x : HoldState) : (s.setHold r x).restingLaw := by
  obtain ⟨hagenda, hpages, hattention⟩ := h
  exact ⟨hagenda, hpages, fun q => hattention q⟩

/-- The laws of a resting state do not look at the staged bank. -/
theorem discardStaged_restingLaw {s : State} (h : s.restingLaw) (r : Region) : (s.discardStaged r).restingLaw := by
  obtain ⟨hagenda, hpages, hattention⟩ := h
  exact ⟨hagenda, hpages, fun q => hattention q⟩

/-- A request of the plan that class and rights allow, and whose block leaves a resting state, ends with its reply begun. -/
theorem planLine_replied {p : Port} {op : Fin 16} {kw : Keyword} {min : OpClass} {r : Region} {needsEdit : Bool} {s t : State}
    {a : Reply} (h : s.takesPlan p op min r needsEdit) (body : State → State × Reply) (hbody : body s = (t, a))
    (ha : a.access? = none) (ht : t.restingLaw) :
    line p s (fun s => planRequest p op kw min r needsEdit s body) = .next (t.replied p a) := by
  obtain ⟨⟨_, hreads, hfree, hclass⟩, hrights⟩ := h
  rw [line_free _ hreads hfree, planRequest_allowed body hclass hrights, hbody, respond_plain ha]
  exact finish_replied ht p a

/-! ### What meets a port at a region (R68, R71, R73) -/

/-- A port holds a region exactly when the region is HELD by it. -/
theorem holds_iff {s : State} {p : Port} {r : Region} : s.holds p r = true ↔ ∃ t, s.holdAt r = .held p t := by
  unfold State.holds
  cases s.holdAt r <;> simp

theorem otherPort_ne (p : Port) : otherPort p ≠ p := by cases p <;> decide

/-- The holder is not refused. -/
theorem notHolding_holder {s : State} {p : Port} {r : Region} (h : s.holds p r = true) : s.notHolding p r = none := by
  obtain ⟨t, ht⟩ := holds_iff.mp h
  simp [State.notHolding, ht]

/-- A region that is FREE or HELD by the other port is not held. -/
theorem notHolding_notHeld {s : State} {p : Port} {r : Region} (h : s.holdAt r = .free ∨ s.holds (otherPort p) r = true) :
    s.notHolding p r = some .notHeld := by
  obtain hfree | hother := h
  · simp [State.notHolding, hfree]
  · obtain ⟨t, ht⟩ := holds_iff.mp hother
    simp [State.notHolding, ht, otherPort_ne]

/-- A region that is COMMITTING is busy, whichever port activated it. -/
theorem notHolding_busy {s : State} {p q : Port} {r : Region} {t : Nat} (h : s.holdAt r = .committing q t) :
    s.notHolding p r = some .busy := by
  simp [State.notHolding, h]

/-- Neither refusal is one of class or rights. -/
theorem notHolding_access {s : State} {p : Port} {r : Region} {why : NoReason} (h : s.notHolding p r = some why) :
    (Reply.no why).access? = none := by
  unfold State.notHolding at h
  repeat' split at h
  all_goals cases h
  all_goals rfl

/-! ### RELEASE and DISCARD -/

section
variable {s : State} {p : Port} {op : Fin 16} {r : Region} (h : s.takesPlan p op (editClass r) r true)
include h

/-- What meets a port that does not hold the region is the answer to its RELEASE. -/
theorem execRelease_refused {why : NoReason} (hwhy : s.notHolding p r = some why) :
    execRelease p op r s = .next (s.replied p (.no why)) :=
  planLine_replied h _ (by simp only [hwhy]) (notHolding_access hwhy) h.1.1

/-- What meets a port that does not hold the region is the answer to its DISCARD. -/
theorem execDiscard_refused {why : NoReason} (hwhy : s.notHolding p r = some why) :
    execDiscard p op r s = .next (s.replied p (.no why)) :=
  planLine_replied h _ (by simp only [hwhy]) (notHolding_access hwhy) h.1.1

/-- DISCARD by the holder ends the hold with the staged bank discarded. -/
theorem execDiscard_holder (hold : s.holds p r = true) : execDiscard p op r s = .next ((s.dropHold r).replied p .ok) :=
  planLine_replied h _ (by simp only [notHolding_holder hold]) rfl
    (setHold_restingLaw (discardStaged_restingLaw h.1.1 r) r .free)

/-- RELEASE by the holder, the banks of the region equal, frees it. -/
theorem execRelease_equal (hold : s.holds p r = true) (heq : sameRegion r s.store.staged s.store.live = true) :
    execRelease p op r s = .next ((s.setHold r .free).replied p .ok) :=
  planLine_replied h _ (by simp only [notHolding_holder hold, heq, if_true]) rfl (setHold_restingLaw h.1.1 r .free)

/-- RELEASE by the holder, the banks of the region not equal, only restarts the hold timer. -/
theorem execRelease_changed (hold : s.holds p r = true) (hne : sameRegion r s.store.staged s.store.live = false) :
    execRelease p op r s = .next ((s.startHold p r).replied p (.no .state)) :=
  planLine_replied h _ (by simp [notHolding_holder hold, hne]) rfl (setHold_restingLaw h.1.1 r _)

end

/-- Settles O24: what `notHolding` answers for the region's hold decides between refusal and holder, and for the holder's
RELEASE the comparison of the banks. -/
theorem releaseAndDiscardEndAHold : Obligations.ReleaseAndDiscardEndAHold := by
  intro s p op r h
  refine ⟨fun hnot => ?notHeld, fun q t hcommit => ?committing, fun hold => ⟨?discard, fun heq => ?equal, fun hne => ?changed⟩⟩
  case notHeld =>
    have hwhy := notHolding_notHeld hnot
    exact ⟨execRelease_refused h hwhy, execDiscard_refused h hwhy⟩
  case committing =>
    have hwhy := notHolding_busy (p := p) hcommit
    exact ⟨execRelease_refused h hwhy, execDiscard_refused h hwhy⟩
  case discard => exact execDiscard_holder h hold
  case equal => exact execRelease_equal h hold (decide_eq_true heq)
  case changed => exact execRelease_changed h hold (decide_eq_false hne)

end Sys2Proof.Machine
end

