-- ==== Sys2Proof/Proofs/NextNotice.lean ====
section
/-! The NEXT request (R184). The kinds stand in `allKinds` by rising number, so the first of them with a property is the one of
lowest number; and the kind of highest standing is the first flagged urgent kind or, where there is none, the first flagged. -/

set_option autoImplicit false

namespace Sys2Proof.Machine

open Sys2Proof

/-! ### The kinds in the order of their numbers -/

theorem mem_allKinds (k : NoticeKind) : k ∈ allKinds := List.mem_of_getElem? (allKinds_kindIdx k)

theorem allKinds_rising : allKinds.Pairwise fun j k => kindIdx j < kindIdx k := by decide

theorem find?_allKinds_eq_none {q : NoticeKind → Bool} : allKinds.find? q = none ↔ ∀ k, q k = false := by
  simp [mem_allKinds]

/-- The kind found has the property, and no kind of a lower number has it. -/
theorem find?_allKinds_least {q : NoticeKind → Bool} {k : NoticeKind} (h : allKinds.find? q = some k) :
    q k = true ∧ ∀ j, q j = true → kindIdx k ≤ kindIdx j := by
  obtain ⟨hk, before, behind, hsplit, hbefore⟩ := List.find?_eq_some_iff_append.mp h
  refine ⟨hk, fun j hj => ?_⟩
  have hrising := allKinds_rising
  have hmem := mem_allKinds j
  rw [hsplit] at hrising hmem
  obtain ⟨_, hfromK, _⟩ := List.pairwise_append.mp hrising
  obtain hin | rfl | hin : j ∈ before ∨ j = k ∨ j ∈ behind := by simpa using hmem
  · have hnot := hbefore j hin
    simp [hj] at hnot
  · exact le_rfl
  · exact (List.rel_of_pairwise_cons hfromK hin).le

/-! ### The kind of highest standing -/

section
variable {s : State} {p : Port}

theorem nextKind_eq (s : State) (p : Port) :
    s.nextKind p = (allKinds.find? fun k => ((s.ntu.get p).recAt k).flag && decide (s.levelOf p k = .urgent)).or
      (allKinds.find? fun k => ((s.ntu.get p).recAt k).flag) := by
  unfold State.nextKind
  simp only [List.find?_filter, List.head?_filter, Bool.decide_and, Bool.decide_eq_true]
  cases allKinds.find? fun k => ((s.ntu.get p).recAt k).flag && decide (s.levelOf p k = .urgent) <;> rfl

theorem nextKind_eq_none : s.nextKind p = none ↔ ∀ k, ((s.ntu.get p).recAt k).flag = false := by
  rw [nextKind_eq, Option.or_eq_none_iff, find?_allKinds_eq_none, find?_allKinds_eq_none]
  exact ⟨fun ⟨_, hnone⟩ => hnone, fun hnone => ⟨fun k => by simp [hnone k], hnone⟩⟩

/-- The kind chosen is flagged; of the flagged kinds none is urgent unless it is, and none of its level has a lower number. -/
theorem nextKind_highest {k : NoticeKind} (h : s.nextKind p = some k) :
    ((s.ntu.get p).recAt k).flag = true ∧ ∀ j, ((s.ntu.get p).recAt j).flag = true →
      (s.levelOf p j = .urgent → s.levelOf p k = .urgent) ∧ (s.levelOf p j = s.levelOf p k → kindIdx k ≤ kindIdx j) := by
  rw [nextKind_eq, Option.or_eq_some_iff] at h
  obtain hurgent | ⟨hnoUrgent, hflagged⟩ := h
  · obtain ⟨hk, hleast⟩ := find?_allKinds_least hurgent
    obtain ⟨hflag, hlevel⟩ : ((s.ntu.get p).recAt k).flag = true ∧ s.levelOf p k = .urgent := by simpa using hk
    exact ⟨hflag, fun j hj => ⟨fun _ => hlevel, fun hsame => hleast j (by simp [hj, hsame, hlevel])⟩⟩
  · obtain ⟨hflag, hleast⟩ := find?_allKinds_least hflagged
    refine ⟨hflag, fun j hj => ⟨fun hlevel => ?_, fun _ => hleast j hj⟩⟩
    have hnot := find?_allKinds_eq_none.mp hnoUrgent j
    simp [hj, hlevel] at hnot

/-! ### NEXT -/

variable {op : Fin 16} (h : s.takes p op .viewer)
include h

theorem execNext_none (hnone : s.nextKind p = none) : execNext p op s = .next (s.replied p (.no .empty)) :=
  request_reads h _ (by simp only [hnone]) rfl

theorem execNext_some {k : NoticeKind} (hsome : s.nextKind p = some k) :
    execNext p op s = .next
      (s.replied p (.next k (s.levelOf p k) ((s.ntu.get p).recAt k).count ((s.ntu.get p).recAt k).detail)) :=
  request_reads h _ (by simp only [hsome]) rfl

end

/-- Settles O54: NEXT only reads, and what it answers goes by the kind of highest standing, which is there exactly when some
kind is flagged. -/
theorem nextAnswersTheHighestKind : Obligations.NextAnswersTheHighestKind := by
  intro s p op h
  refine ⟨fun hnone => execNext_none h (nextKind_eq_none.mpr hnone), fun ⟨j, hj⟩ => ?_⟩
  cases hnext : s.nextKind p with
  | none => simp [nextKind_eq_none.mp hnext j] at hj
  | some k =>
    obtain ⟨hflag, hhighest⟩ := nextKind_highest hnext
    exact ⟨k, hflag, execNext_some h hnext, hhighest⟩

end Sys2Proof.Machine
end

