-- ==== Sys2Proof/Proofs/Commands.lean ====
section
/-! What every command is: an event of a block, a line at a port, a change of one field device, or one of the six of start-up, the
key switch and the panel circuits. From these shapes follow the step (R183's law of the resting states among it), which commands
stop, and what a command of a field device leaves alone. -/

set_option autoImplicit false

namespace Sys2Proof.Machine

open Sys2Proof

/-! ### The shapes of commands -/

/-- The commands that are neither an event nor a line at a port, nor one of a field device. -/
def special : Instr → Bool
  | .powerOn _ _ | .powerLoss _ _ | .inputRawChange _ _ | .keySwitchRun | .keySwitchSetup | .lineWhileBusy _ => true
  | _ => false

/-- A command is one of the six of `special`, an event, a line at a port, or a change of one field device. -/
theorem exec_shape (c : Instr) :
    special c = true ∨ c.device? = none ∧ (∃ f : State → State, ∀ s, exec c s = event s f) ∨
      c.device? = none ∧ (∃ (p : Port) (f : State → State), ∀ s, exec c s = Machine.line p s f) ∨
      ∃ (l : Fin 6) (a : Nat) (f : State → FieldDev → FieldDev),
        c.device? = some (l, a) ∧ ∀ s, exec c s = deviceEvent l a s (f s) := by
  cases c
  case powerOn | powerLoss | inputRawChange | keySwitchRun | keySwitchSetup | lineWhileBusy => exact .inl rfl
  case roomClockFrame | bellUnitCommand | speakerNodeCommand | deviceLoopUp | deviceLoopDown =>
    exact .inr (.inr (.inr ⟨_, _, _, rfl, fun s => by unfold exec; exact rfl⟩))
  case holdForExpiry | speakerSilenceMute | clearStationPress | echoTimeout | amplifierFaultChange =>
    exact .inr (.inr (.inr ⟨_, _, _, rfl, fun s => by unfold exec; exact rfl⟩))
  case time p _ | settime p _ _ _ _ | adjust p _ _ | ring p _ _ _ _ | bells p _ | page p _ _ _ _ _ _ _ | endPage p _ _
      | cancel p _ _ | pages p _ | drill p _ _ _ | advance p _ _ | abort p _ | drillrec p _ _ | line p _ _ | test p _ _ _ _
      | testRead p _ _ | inject p _ _ | device p _ _ _ | lines p _ | zone p _ _ | select p _ _ _ _ _ | read p _ | write p _ _
      | empty p _ | hold p _ _ | release p _ _ | discard p _ _ | activate p _ _ | next p _ | clear p _ _ _ | quiet p _ _ _
      | attend p _ _ | note p _ _ _ | notes p _ | signal p _ _ | lower p _ _ | status p _ | restart p _ | unreadableLine p
      | unknownKeyword p _ =>
    exact .inr (.inr (.inl ⟨rfl, p, _, fun _ => rfl⟩))
  all_goals exact .inr (.inl ⟨rfl, _, fun _ => rfl⟩)

theorem deviceEvent_of_address {l : Fin 6} {a : Nat} (s : State) (f : FieldDev → FieldDev) (h : 1 ≤ a ∧ a ≤ 24) :
    deviceEvent l a s f = .next (s.setField l.val a (f (s.fieldAt l.val a))) := if_pos h

theorem deviceEvent_no_address {l : Fin 6} {a : Nat} (s : State) (f : FieldDev → FieldDev) (h : ¬(1 ≤ a ∧ a ≤ 24)) :
    deviceEvent l a s f = .fault (.noSuchAddress a) := if_neg h

/-- Where a command of a field device answers, it has set that device's record. -/
theorem deviceEvent_setField {l : Fin 6} {a : Nat} {s t : State} {f : FieldDev → FieldDev} (h : deviceEvent l a s f = .next t) :
    t = s.setField l.val a (f (s.fieldAt l.val a)) := by
  unfold deviceEvent at h
  split at h
  · exact (Host.Outcome.next.inj h).symm
  · cases h

theorem special_device {c : Instr} (h : special c = true) : c.device? = none := by
  unfold special at h
  split at h <;> first | rfl | cases h

/-! ### What stops -/

/-- The six commands of `special` answer a next state. -/
theorem special_next {c : Instr} (h : special c = true) (s : State) : ∃ t, exec c s = .next t := by
  unfold special at h
  split at h
  case h_1 b n => exact (em (s.power = true)).elim (fun g => ⟨_, if_pos g⟩) fun g => ⟨_, if_neg g⟩
  case h_2 a b => exact (em ((!s.power) = true)).elim (fun g => ⟨_, if_pos g⟩) fun g => ⟨_, if_neg g⟩
  case h_3 i raw => exact (em (s.power = true)).elim (fun g => ⟨_, if_pos g⟩) fun g => ⟨_, if_neg g⟩
  case h_4 => exact (em ((s.power && s.setup) = true)).elim (fun g => ⟨_, if_pos g⟩) fun g => ⟨_, if_neg g⟩
  case h_5 => exact ⟨_, rfl⟩
  case h_6 p => exact (em ((s.reads && (s.port p).reply.isSome) = true)).elim (fun g => ⟨_, if_pos g⟩) fun g => ⟨_, if_neg g⟩
  case h_7 => cases h

/-- Settles O9: events and lines always answer, and a command of a field device asks for its address alone. -/
theorem onlyAbsentAddressesStop : Obligations.OnlyAbsentAddressesStop := by
  intro c s
  obtain hspecial | ⟨hno, f, hf⟩ | ⟨hno, p, f, hf⟩ | ⟨l, a, f, hdev, hf⟩ := exec_shape c
  · rw [special_device hspecial]
    exact special_next hspecial s
  · rw [hno, hf s]
    exact event_next s _
  · rw [hno, hf s]
    exact line_next p s _
  · rw [hdev]
    show if 1 ≤ a ∧ a ≤ 24 then _ else _
    split
    case isTrue h => exact ⟨_, (hf s).trans (deviceEvent_of_address s _ h)⟩
    case isFalse h => exact (hf s).trans (deviceEvent_no_address s _ h)

/-- Settles O12: a command of a field device answers with that device's record set. -/
theorem deviceCommandFrame : Obligations.DeviceCommandFrame := by
  intro c l a s t hdev hexec
  obtain hspecial | ⟨hno, _⟩ | ⟨hno, _⟩ | ⟨l', a', f, hdev', hf⟩ := exec_shape c
  · cases hdev.symm.trans (special_device hspecial)
  · cases hdev.symm.trans hno
  · cases hdev.symm.trans hno
  · obtain ⟨rfl, rfl⟩ := Prod.mk.inj (Option.some.inj (hdev.symm.trans hdev'))
    exact ⟨_, deviceEvent_setField ((hf s).symm.trans hexec)⟩

/-! ### The step -/

/-- Settles O1: the step looks at the front of the queue. -/
theorem stepRunsFrontCommand : Obligations.StepRunsFrontCommand := fun _ _ _ => rfl

/-- The order of commands due together neither adds nor drops one. -/
theorem arrange_perm (n k : Nat) (cs : List Instr) (h : cs.length ≤ n) : (arrange n k cs).Perm cs := by
  induction n generalizing k cs with
  | zero =>
    rw [List.length_eq_zero_iff.mp (Nat.le_zero.mp h)]
    rfl
  | succ n ih =>
    unfold arrange
    split
    · exact .refl _
    · exact .refl _
    case h_3 c cs' _ =>
      have hi : Config.tieOrder k % (c :: cs').length < (c :: cs').length := Nat.mod_lt _ (by simp)
      have hlen := List.length_eraseIdx_of_lt hi
      dsimp only
      rw [List.getElem?_eq_getElem hi, Option.getD_some]
      exact ((ih (k + 1) _ (by omega)).cons _).trans (List.getElem_cons_eraseIdx_perm hi)

/-- Settles O2: the tick counts the eighth, lets each port take its character and queues what is due in the order drawn. -/
theorem emptyQueueLetsAnEighthPass : Obligations.EmptyQueueLetsAnEighthPass := by
  intro s u hqueue hu
  subst hu
  constructor
  · intro hpower
    simp [step, hqueue, State.tick, hpower]
  · intro hpower
    have hstep : step s = .next s.tick := by rw [step, hqueue]
    obtain ⟨u, hu⟩ : ∃ u : State, u = { s with now := s.now + 1, tbu := { s.tbu with phase := s.tbu.phase + 1 } } := ⟨_, rfl⟩
    have htick : s.tick = if u.dueNow.isEmpty then (u.takeChar .a).takeChar .b else
        { (u.takeChar .a).takeChar .b with
          pending := arrange u.dueNow.length (((u.takeChar .a).takeChar .b).draws + drawsPerTick) u.dueNow
          draws := ((u.takeChar .a).takeChar .b).draws + drawsPerTick + u.dueNow.length } := by
      rw [hu]
      exact if_pos hpower
    have hpending : ((u.takeChar .a).takeChar .b).pending = [] := by simpa [hu] using hqueue
    have hdraws : ((u.takeChar .a).takeChar .b).draws = s.draws := by simp [hu]
    rw [hstep, htick, ← hu]
    split
    case isTrue hnone =>
      refine ⟨[], s.draws, le_rfl, by rw [List.isEmpty_iff.mp hnone], ?_⟩
      rw [← hdraws, ← hpending]
    case isFalse hsome =>
      exact ⟨_, _, by omega, arrange_perm _ _ _ le_rfl, rfl⟩

/-! ### The law of the resting states -/

/-- R183's law looks at the agenda, the Page Queue, the notices and the plan's live bank alone. -/
theorem restingLaw_of_eq {s t : State} (h : s.restingLaw) (hztc : t.ztc = s.ztc) (hpgc : t.pgc = s.pgc)
    (hntu : t.ntu = s.ntu) (hlive : t.store.live = s.store.live) : t.restingLaw := by
  obtain ⟨hagenda, hpages, hattention⟩ := h
  refine ⟨hztc ▸ hagenda, hpgc ▸ hpages, fun p => ?_⟩
  have hp := hattention p
  unfold State.calls State.levelOf at hp ⊢
  rw [hntu, hlive]
  exact hp

theorem dsq_restingLaw {s : State} (h : s.restingLaw) (d : Dsq) : ({ s with dsq := d } : State).restingLaw :=
  restingLaw_of_eq h rfl rfl rfl rfl

theorem takeChar_restingLaw {s : State} (h : s.restingLaw) (p : Port) : (s.takeChar p).restingLaw := by
  obtain heq | ⟨c, cs, b, _, heq, _⟩ := takeChar_cases s p
  · rwa [heq]
  · rw [heq]
    exact setPort_restingLaw h p _

theorem tick_restingLaw {s : State} (h : s.restingLaw) : s.tick.restingLaw := by
  have hnow : ({ s with now := s.now + 1, tbu := { s.tbu with phase := s.tbu.phase + 1 } } : State).restingLaw :=
    restingLaw_of_eq h rfl rfl rfl rfl
  have hchars := takeChar_restingLaw (takeChar_restingLaw hnow .a) .b
  simp only [State.tick]
  split
  · split
    · exact hchars
    · exact restingLaw_of_eq hchars rfl rfl rfl rfl
  · exact h

/-- The devices of a line, their own timers and their power leave the controller's rest. -/
theorem onDevices_restingLaw {s : State} (h : s.restingLaw) (l : Nat) (f : FieldDev → FieldDev) : (s.onDevices l f).restingLaw := by
  unfold State.onDevices
  refine List.foldlRecOn (motive := State.restingLaw) _ _ h fun t ht a _ => ?_
  exact restingLaw_of_eq ht rfl rfl rfl rfl

theorem powerLoss_restingLaw {s t : State} {a b : Bool} (hs : s.restingLaw) (h : execPowerLoss a b s = .next t) : t.restingLaw := by
  unfold execPowerLoss at h
  split at h
  · rwa [← Host.Outcome.next.inj h]
  · rw [← Host.Outcome.next.inj h]
    have hoff : ({ s with power := false } : State).restingLaw := restingLaw_of_eq hs rfl rfl rfl rfl
    have hcold := List.foldlRecOn (motive := State.restingLaw) allLines (fun s l => s.onDevices l FieldDev.cold) hoff
      fun u hu l _ => onDevices_restingLaw hu l FieldDev.cold
    exact dsq_restingLaw hcold _

/-- The six commands of `special` end with `finish`, or leave alone what the law looks at. -/
theorem special_restingLaw {c : Instr} (hc : special c = true) {s t : State} (hs : s.restingLaw) (h : exec c s = .next t) :
    t.restingLaw := by
  unfold special at hc
  split at hc
  case h_1 b n =>
    by_cases hpower : s.power = true
    · have hstay : exec (.powerOn b n) s = .next s := if_pos hpower
      rwa [← Host.Outcome.next.inj (hstay.symm.trans h)]
    · have hstart : ∃ u, exec (.powerOn b n) s = finish u := ⟨_, if_neg hpower⟩
      obtain ⟨u, hu⟩ := hstart
      exact finish_restingLaw (hu.symm.trans h)
  case h_2 a b => exact powerLoss_restingLaw hs h
  case h_3 i raw =>
    change execInputRawChange i raw s = _ at h
    unfold execInputRawChange at h
    split at h
    · exact finish_restingLaw h
    · cases h
      exact restingLaw_of_eq hs rfl rfl rfl rfl
  case h_4 =>
    change execKeySwitchRun s = _ at h
    unfold execKeySwitchRun at h
    split at h
    · exact finish_restingLaw h
    · cases h
      exact restingLaw_of_eq hs rfl rfl rfl rfl
  case h_5 =>
    cases h
    exact restingLaw_of_eq hs rfl rfl rfl rfl
  case h_6 p =>
    change execLineWhileBusy p s = _ at h
    unfold execLineWhileBusy at h
    split at h
    · exact finish_restingLaw h
    · cases h
      exact hs
  case h_7 => cases hc

/-- Every command leaves a resting state: events and lines end with `finish`, and what does not leaves the law's fields alone. -/
theorem exec_restingLaw {c : Instr} {s t : State} (hs : s.restingLaw) (h : exec c s = .next t) : t.restingLaw := by
  obtain hspecial | ⟨_, f, hf⟩ | ⟨_, p, f, hf⟩ | ⟨l, a, f, _, hf⟩ := exec_shape c
  · exact special_restingLaw hspecial hs h
  · exact event_restingLaw hs ((hf s).symm.trans h)
  · exact line_restingLaw hs ((hf s).symm.trans h)
  · rw [deviceEvent_setField ((hf s).symm.trans h)]
    exact restingLaw_of_eq hs rfl rfl rfl rfl

/-- A step is a command on the state with the queue's rest, or a tick. -/
theorem step_cases {s t : State} (h : step s = .next t) :
    s.pending = [] ∧ t = s.tick ∨ ∃ c cs, s.pending = c :: cs ∧ exec c { s with pending := cs } = .next t := by
  unfold step at h
  split at h
  case h_1 hnil => exact .inl ⟨hnil, (Host.Outcome.next.inj h).symm⟩
  case h_2 c cs hcons => exact .inr ⟨c, cs, hcons, h⟩

/-- Settles O4: a tick touches nothing that the law looks at, and a command ends in a resting state. -/
theorem restingLawKept : Obligations.RestingLawKept := by
  intro s t hs hstep
  obtain ⟨_, rfl⟩ | ⟨c, cs, _, hexec⟩ := step_cases hstep
  · exact tick_restingLaw hs
  · have hrest : ({ s with pending := cs } : State).restingLaw := restingLaw_of_eq hs rfl rfl rfl rfl
    exact exec_restingLaw hrest hexec

/-! ### Reset and the delay estimate -/

theorem reset_restingLaw : State.reset.restingLaw := by
  refine ⟨rfl, rfl, fun p => ?_⟩
  cases p <;> decide

theorem reset_timeLaw : State.reset.timeLaw := by
  unfold State.timeLaw Tbu.rangeLaw TimeSet.rangeLaw
  decide

theorem reset_bellLaw : State.reset.bellLaw := by
  have hqueue : State.reset.bds.queue = [] := rfl
  have hlist : State.reset.bds.list = [] := rfl
  simp [State.bellLaw, hqueue, hlist]

theorem reset_pageLaw : State.reset.pageLaw := by
  have hqueue : State.reset.pgc.queue = [] := rfl
  simp [State.pageLaw, hqueue]

/-- Settles O3: the reset state has empty queues, no session, and values inside every range. -/
theorem lawsHoldAtReset : Obligations.LawsHoldAtReset :=
  ⟨reset_restingLaw, reset_timeLaw, reset_bellLaw, reset_pageLaw, fun _ hd => nomatch hd⟩

/-- Settles O39: the estimate moves by the truncated eighth, which lies between nothing and the whole difference. -/
theorem delayEstimateMoves : Obligations.DelayEstimateMoves := by
  intro start hstart
  refine ⟨rfl, fun d hd => ?_⟩
  have heq : moveDelay (some d) start = ((d : Int) + Int.tdiv (((start - 16 : Nat) : Int) - d) 8).toNat := rfl
  rw [heq]
  generalize hm : start - 16 = m
  have hm64 : m ≤ 64 := by omega
  obtain hle | hlt := le_total (d : Int) (m : Int)
  · rw [Int.tdiv_eq_ediv_of_nonneg (by omega)]
    omega
  · have hneg : Int.tdiv ((m : Int) - d) 8 = -(((d : Int) - m) / 8) := by
      rw [← Int.tdiv_eq_ediv_of_nonneg (by omega), ← Int.neg_tdiv, neg_sub]
    rw [hneg]
    omega

end Sys2Proof.Machine
end

