-- ==== Sys2Proof/Proofs/SlewAndDrift.lean ====
section
/-! The arithmetic of slew and drift (sections 1.1.1 and 1.5): what a second's length takes from the slew remainder and the drift
accumulator, what a slew evaluation leaves, and the ranges of R2 and R16 that both keep. -/

set_option autoImplicit false

namespace Sys2Proof.Machine

open Sys2Proof

/-! ### Clamping -/

theorem clampInt_bounds {lim : Int} (h : 0 ≤ lim) (x : Int) : -lim ≤ clampInt lim x ∧ clampInt lim x ≤ lim := by
  unfold clampInt
  omega

/-- The slew share of a second has the remainder's sign, and its size is the remainder's, held at the slew limit. -/
theorem slewShare_spec (r : Int) (limit : Nat) :
    (slewShare r limit).natAbs = min r.natAbs limit ∧ (0 ≤ r → 0 ≤ slewShare r limit) ∧ (r ≤ 0 → slewShare r limit ≤ 0) := by
  unfold slewShare clampInt
  simp only [Int.ofNat_eq_natCast]
  omega

/-- Taking the drift share brings an accumulator that a drift of at most 2,880 has moved back inside 3,599. -/
theorem driftShare_spec (acc : Int) (h : -6479 ≤ acc ∧ acc ≤ 6479) :
    driftShare acc = (if 3600 ≤ acc then 1 else if acc ≤ -3600 then -1 else 0) ∧ -1 ≤ driftShare acc ∧ driftShare acc ≤ 1 ∧
      -3599 ≤ acc - 3600 * driftShare acc ∧ acc - 3600 * driftShare acc ≤ 3599 := by
  unfold driftShare
  split
  · omega
  · split <;> omega

/-! ### A slew evaluation -/

section
variable (t : Tbu) (e8 : Int) (n : Nat)

@[simp] theorem slewBy_slew : (t.slewBy e8 n).slew = -e8 := by
  unfold Tbu.slewBy
  dsimp only
  split <;> rfl

theorem slewBy_nudged (hdisc : t.disc = .locked) (hready : t.nudgeReady = true) :
    t.slewBy e8 n =
      { t with
        slew := -e8, drift := clampInt 2880 (t.drift + nudge e8 n), nudgeReady := true
        battery := { t.battery with drift := clampInt 2880 (t.drift + nudge e8 n) } } := by
  simp [Tbu.slewBy, hdisc, hready, Tbu.setDrift]

theorem slewBy_unnudged (h : t.disc ≠ .locked ∨ t.nudgeReady = false) :
    t.slewBy e8 n = { t with slew := -e8, nudgeReady := decide (t.disc = .locked) } := by
  obtain h | h := h <;> simp [Tbu.slewBy, h]

/-- A slew evaluation gives the nudge, or leaves the drift setting. -/
theorem slewBy_cases :
    (t.disc = .locked ∧ t.nudgeReady = true) ∨ (t.disc ≠ .locked ∨ t.nudgeReady = false) := by
  cases t.nudgeReady
  · exact .inr (.inr rfl)
  · exact (em (t.disc = .locked)).imp (fun h => ⟨h, rfl⟩) .inl

theorem slewBy_frame :
    ((t.slewBy e8 n).nudgeReady = true ↔ t.disc = .locked) ∧ (t.slewBy e8 n).day = t.day ∧ (t.slewBy e8 n).sec = t.sec ∧
      (t.slewBy e8 n).phase = t.phase ∧ (t.slewBy e8 n).acc = t.acc ∧ (t.slewBy e8 n).len = t.len := by
  obtain ⟨hdisc, hready⟩ | hnot := slewBy_cases t
  · rw [slewBy_nudged t e8 n hdisc hready]
    simp [hdisc]
  · rw [slewBy_unnudged t e8 n hnot]
    simp

end

/-- Settles O13: the two shares of a second by their ranges, and the two cases of an evaluation. -/
theorem slewAndDriftArithmetic : Obligations.SlewAndDriftArithmetic := by
  constructor
  · intro t limit hlimit hacc hacc' hdrift hdrift'
    obtain ⟨hsize, hpos, hneg⟩ := slewShare_spec t.slew limit
    obtain ⟨hshare, hlo, hhi, hleft, hleft'⟩ := driftShare_spec (t.acc + t.drift) (by omega)
    exact ⟨slewShare t.slew limit, driftShare (t.acc + t.drift), hsize, hpos, hneg, hshare, rfl, by omega, by omega, hleft, hleft'⟩
  · intro t e8 n
    refine ⟨slewBy_slew t e8 n, fun hdisc hready => ?_, fun hnot => ?_, slewBy_frame t e8 n⟩
    · rw [slewBy_nudged t e8 n hdisc hready]
      exact ⟨nudge e8 n, rfl, rfl, rfl⟩
    · rw [slewBy_unnudged t e8 n hnot]
      exact ⟨rfl, rfl⟩

/-! ### The ranges of R2 and R16 -/

theorem startSecond_rangeLaw {t : Tbu} (h : t.rangeLaw) {limit : Nat} (hlimit : limit ≤ 8) : (t.startSecond limit).rangeLaw := by
  obtain ⟨hslew, hdrift, hacc, _, hbattery⟩ := h
  obtain ⟨hsize, hpos, hneg⟩ := slewShare_spec t.slew limit
  obtain ⟨_, hlo, hhi, hleft⟩ := driftShare_spec (t.acc + t.drift) (by omega)
  refine ⟨?slew, hdrift, hleft, ?len, hbattery⟩
  case slew =>
    show -4000 ≤ t.slew - slewShare t.slew limit ∧ t.slew - slewShare t.slew limit ≤ 4000
    omega
  case len =>
    show 7991 ≤ (8000 - slewShare t.slew limit - driftShare (t.acc + t.drift)).toNat ∧
      (8000 - slewShare t.slew limit - driftShare (t.acc + t.drift)).toNat ≤ 8009
    omega

theorem slewBy_rangeLaw {t : Tbu} (h : t.rangeLaw) {e8 : Int} (he : e8.natAbs ≤ 4000) (n : Nat) : (t.slewBy e8 n).rangeLaw := by
  obtain ⟨_, hdrift, hacc, hlen, hbattery⟩ := h
  have hslew : -4000 ≤ -e8 ∧ -e8 ≤ 4000 := by omega
  have hnudged := clampInt_bounds (lim := 2880) (by omega) (t.drift + nudge e8 n)
  obtain ⟨hdisc, hready⟩ | hnot := slewBy_cases t
  · rw [slewBy_nudged t e8 n hdisc hready]
    exact ⟨hslew, hnudged, hacc, hlen, hnudged⟩
  · rw [slewBy_unnudged t e8 n hnot]
    exact ⟨hslew, hdrift, hacc, hlen, hbattery⟩

end Sys2Proof.Machine
end

