-- ==== Sys2Proof/Proofs/Keeping.lean ====
section
/-! Relations that commands keep. `Lasting` says what a relation between a state and a later one must allow for the end of a command
and a port's own answer to keep it; `Blocks`, `StoreOps`, `TimeOps` and `StartOps` add the operations of the blocks. Each gives the
commands of its blocks, so that a frame or a law of the whole machine is proved operation by operation. -/

set_option autoImplicit false

namespace Sys2Proof.Machine

open Sys2Proof

/-- Whatever next state a command answers is related to the state before it. -/
def Keeps (R : State → State → Prop) (c : Instr) : Prop := ∀ s t, exec c s = .next t → R s t

/-- What the end of a command, a reply with its access notice and a field device's record may do. -/
structure Lasting (R : State → State → Prop) : Prop where
  refl : ∀ s, R s s
  trans : ∀ {s t u}, R s t → R t u → R s u
  settled : ∀ s, R s s.settle
  rejudged : ∀ s, R s s.rejudge
  port : ∀ s p x, R s (s.setPort p x)
  raised : ∀ s p k d, R s (s.raiseAt p k d)
  field : ∀ (s : State) x, R s { s with field := x }

namespace Lasting

variable {R : State → State → Prop} (F : Lasting R)
include F

theorem finish {s t : State} (h : Machine.finish s = .next t) : R s t := by
  rw [← Host.Outcome.next.inj h]
  exact F.trans (F.settled s) (F.rejudged _)

theorem answered (s : State) (p : Port) (r : Reply) : R s (s.answer p r) := F.port s p _

theorem responded (s : State) (p : Port) (op : Fin 16) (kw : Keyword) (region : Option Region) (r : Reply) :
    R s (s.respond p op kw region r) := by
  unfold State.respond
  split
  · exact F.trans (F.answered s p r) (F.trans (F.port _ p _) (F.raised _ p _ _))
  · exact F.answered s p r

theorem oweBusy (s : State) (p : Port) : R s (s.oweBusy p) := by
  unfold State.oweBusy
  dsimp only
  split
  · exact F.port s p _
  · exact F.refl s

theorem raise (s : State) (k : NoticeKind) (d : Detail) : R s (s.raise k d) := F.trans (F.raised s .a k d) (F.raised _ .b k d)

theorem foldl {α : Type} {f : State → α → State} (hf : ∀ s a, R s (f s a)) (xs : List α) (s : State) : R s (xs.foldl f s) := by
  induction xs generalizing s with
  | nil => exact F.refl s
  | cons x xs ih => exact F.trans (hf s x) (ih _)

/-! ### Commands by their shapes -/

variable {c : Instr}

theorem event {f : State → State} (hshape : ∀ s, exec c s = Machine.event s f) (hf : ∀ s, R s (f s)) : Keeps R c := by
  intro s t h
  rw [hshape] at h
  unfold Machine.event at h
  split at h
  · exact F.trans (hf s) (F.finish h)
  · exact Host.Outcome.next.inj h ▸ F.refl s

theorem line {p : Port} {f : State → State} (hshape : ∀ s, exec c s = Machine.line p s f) (hf : ∀ s, R s (f s)) : Keeps R c := by
  intro s t h
  rw [hshape] at h
  unfold Machine.line at h
  split at h
  · exact Host.Outcome.next.inj h ▸ F.refl s
  · split at h
    · exact F.trans (F.oweBusy s p) (F.finish h)
    · exact F.trans (hf s) (F.finish h)

theorem request {p : Port} {op : Fin 16} {kw : Keyword} {min : OpClass} {body : State → State × Reply}
    (hshape : ∀ s, exec c s = Machine.request p op kw min s body) (hbody : ∀ s, R s (body s).1) : Keeps R c := by
  refine F.line (p := p) hshape fun s => ?_
  split
  · exact F.trans (hbody s) (F.responded _ p op kw none _)
  · exact F.responded s p op kw none _

theorem plan {p : Port} {op : Fin 16} {kw : Keyword} {min : OpClass} {r : Region} {needsEdit : Bool} {body : State → State × Reply}
    (s : State) (hbody : ∀ s, R s (body s).1) : R s (planRequest p op kw min r needsEdit s body) := by
  unfold planRequest
  split
  · exact F.responded s p op kw _ _
  · split
    · exact F.responded s p op kw _ _
    · exact F.trans (hbody s) (F.responded _ p op kw _ _)

theorem device {l : Fin 6} {a : Nat} {f : State → FieldDev → FieldDev} (hshape : ∀ s, exec c s = deviceEvent l a s (f s)) :
    Keeps R c := by
  intro s t h
  rw [deviceEvent_setField ((hshape s).symm.trans h)]
  exact F.field s _

/-- A request that only reads keeps every relation of this kind. -/
theorem reads {p : Port} {op : Fin 16} {kw : Keyword} {min : OpClass} {answer : State → Reply}
    (hshape : ∀ s, exec c s = Machine.request p op kw min s fun s => (s, answer s)) : Keeps R c :=
  F.request hshape fun s => F.refl s

end Lasting

/-! ### The blocks but the Timebase Unit and the Plan Store -/

/-- What the dispatcher, the pages, the panel, the sequencer, the lines, the notices and the ports may do, each operation where
its command calls it. -/
structure Blocks (R : State → State → Prop) : Prop extends Lasting R where
  notices : ∀ s p f, R s (s.onNtu p f)
  slots : ∀ (s : State) x, R s { s with slots := x }
  signals : ∀ s p xs, R s (s.setSignals p xs)
  restartDue : ∀ (s : State) b, R s { s with restartDue := b }
  expireWaits : ∀ s n, R s (s.expireWaits n)
  soundChange : ∀ s j p, R s (s.soundChange j p)
  toneOver : ∀ s t j g, R s (s.toneOver t j g)
  enterJob : ∀ (s : State) x, x.key = none → s.jobRefused x = none → R s (s.enterJob x)
  enterPage : ∀ s p op a, (s.pgc.queue.any fun q => q.source = a.source) = false → R s (s.enterPage p op a)
  endPage : ∀ s n r, R s (s.endPage n r)
  enterLive : ∀ s n t, R s (s.enterLive n t)
  trunk : ∀ s t u, R s (s.setTrunk t u)
  push : ∀ s w, R s (s.push w)
  shows : ∀ s i raw, R s (s.onInput i fun x => x.shows raw s.now)
  debounceInput : ∀ s i, R s (s.debounceInput i)
  rewireInput : ∀ s i, R s (s.rewireInput i)
  restored : ∀ s : State, s.pnl.state = .restoring → R s s.restored
  sampleDone : ∀ (s : State) t b, s.pnl.sampleUntil = some t → R s (s.sampleDone b)
  startDrill : ∀ (s : State) o n b, s.dsq.session = none → s.pnl.state = .normal → s.pnl.troubled = false →
    R s ((s.createSession o n b).enterRequesting)
  endSession : ∀ s r, R s (s.endSession r)
  drillChange : ∀ s, R s s.drillChange
  endStage : ∀ s, R s s.endStage
  setLine : ∀ s l x, R s (s.setLine l x)
  enterPowering : ∀ s l, R s (s.enterPowering l)
  enterFault : ∀ s l, R s (s.enterFault l)
  enterDiscovery : ∀ s l, R s (s.enterDiscovery l)
  takeReply : ∀ s l a start g, R s (s.takeReply l a start g)
  takeMiss : ∀ s l a, R s (s.takeMiss l a)
  restartLine : ∀ s l, R s (s.restartLine l)
  beginTest : ∀ s l mode n, R s (s.beginTest l mode n)
  takeResult : ∀ s l r cause, R s (s.takeResult l r cause)

/-- The commands of the Timebase Unit that can change it. -/
def timeCommand : Instr → Bool
  | .secondBoundary | .holdoverAgeUnsync | .referenceMark _ _ | .silenceSlot | .referenceAbsent | .settime _ _ _ _ _
  | .adjust _ _ _ => true
  | _ => false

/-- The commands of the Plan Store and the key switch, ACTIVATE aside. -/
def storeCommand : Instr → Bool
  | .select _ _ _ _ _ _ | .read _ _ | .write _ _ _ | .empty _ _ | .hold _ _ _ | .release _ _ _ | .discard _ _ _
  | .holdExpiry _ | .imageWriteEnd _ _ | .keySwitchRun | .keySwitchSetup => true
  | _ => false

/-- ACTIVATE, the changes of power and the restart. -/
def startCommand : Instr → Bool
  | .powerOn _ _ | .powerLoss _ _ | .controllerRestart _ | .activate _ _ _ => true
  | _ => false

/-- Every other command. -/
def plainCommand (c : Instr) : Bool := !timeCommand c && !storeCommand c && !startCommand c

namespace Blocks

variable {R : State → State → Prop} (B : Blocks R)
include B

/-! ### Bells and pages -/

theorem bells (job zone : Nat) (t : Fin 4) :
    Keeps R (.deferralLimitExpiry job) ∧ Keeps R (.sounderTimelineChange job zone) ∧ Keeps R (.toneEnd t) := by
  refine ⟨B.event (fun _ => by unfold exec execDeferralLimitExpiry; rfl) fun s => ?expiry,
      B.event (fun _ => by unfold exec execSounderTimelineChange; rfl) fun s => ?change,
      B.event (fun _ => by unfold exec execToneEnd; rfl) fun s => ?tone⟩
  case expiry =>
    split
    · exact B.refl s
    · exact B.expireWaits s job
  case change =>
    repeat' split
    all_goals first | with_reducible exact B.refl s | with_reducible exact B.soundChange s _ _
  case tone =>
    repeat' split
    all_goals first | with_reducible exact B.refl s | with_reducible exact B.toneOver s _ _ _

theorem ring (p : Port) (op : Fin 16) (g k : Nat) (m : EntryMedium) : Keeps R (.ring p op g k m) := by
  refine B.request (fun _ => by unfold exec execRing; rfl) fun s => ?_
  split
  · exact B.refl s
  · dsimp only
    split
    · exact B.refl s
    case h_2 hfree => exact B.enterJob s _ rfl hfree

theorem page (p : Port) (op : Fin 16) (source : Source) (prio : Nat) (zones : ZoneNames) (pretone limit : Option Nat)
    (part : Bool) : Keeps R (.page p op source prio zones pretone limit part) := by
  refine B.request (fun _ => by unfold exec execPage; rfl) fun s => ?_
  split
  · exact B.refl s
  · split
    · exact B.refl s
    case h_2.isFalse hfree => exact B.enterPage s p op _ (Bool.eq_false_iff.mpr hfree)

theorem pageEnds (p : Port) (op : Fin 16) (n : Nat) :
    Keeps R (.endPage p op n) ∧ Keeps R (.cancel p op n) ∧ Keeps R (.pageLimitExpiry n) := by
  refine ⟨B.request (fun _ => by unfold exec execEndPage; rfl) fun s => ?_,
      B.request (fun _ => by unfold exec execCancel; rfl) fun s => ?_,
      B.event (fun _ => by unfold exec execPageLimitExpiry; rfl) fun s => ?_⟩
  all_goals
    split
    · exact B.refl s
    · split
      · exact B.endPage s _ _
      · exact B.refl s

theorem pageTrunks (t : Fin 4) (silent : Bool) :
    Keeps R (.pretoneEnd t) ∧ Keeps R (.trunkLevelChange t silent) ∧ Keeps R (.pause t) ∧ Keeps R (.idle t) := by
  refine ⟨B.event (fun _ => by unfold exec execPretoneEnd; rfl) fun s => ?pretone,
      B.event (fun _ => by unfold exec execTrunkLevelChange; rfl) fun s => ?level,
      B.event (fun _ => by unfold exec execPause; rfl) fun s => ?pause,
    B.event (fun _ => by unfold exec execIdle; rfl) fun s => ?idle⟩
  all_goals
    repeat' split
    all_goals first
      | with_reducible exact B.refl s
      | with_reducible exact B.enterLive s _ _
      | with_reducible exact B.trunk s _ _
      | with_reducible exact B.trans (B.trunk s _ _) (B.push _ _)
      | with_reducible exact B.trans (B.trunk s _ _) (B.endPage _ _ _)

/-! ### The panel and drills -/

theorem panel (i : PanelInput) :
    Keeps R (.debounceExpiry i) ∧ Keeps R (.wiringStateChange i) ∧ Keeps R .restoreTimerExpiry ∧ Keeps R .panelSampleComplete := by
  refine ⟨B.event (fun _ => by unfold exec execDebounceExpiry; rfl) fun s => B.debounceInput s i,
      B.event (fun _ => by unfold exec execWiringStateChange; rfl) fun s => B.rewireInput s i,
    B.event (fun _ => by unfold exec execRestoreTimerExpiry; rfl) fun s => ?restore,
        B.event (fun _ => by unfold exec execPanelSampleComplete; rfl) fun s => ?sample⟩
  case restore =>
    split
    case isTrue hdue =>
      obtain ⟨hstate, _⟩ := Bool.and_eq_true_iff.mp hdue
      exact B.restored s (of_decide_eq_true hstate)
    case isFalse => exact B.refl s
  case sample =>
    split
    case h_1 t ht =>
      split
      · exact B.sampleDone s t _ ht
      · exact B.refl s
    case h_2 => exact B.refl s

theorem inputRaw (i : PanelInput) (raw : RawLevel) : Keeps R (.inputRawChange i raw) := by
  intro s t h
  change execInputRawChange i raw s = _ at h
  unfold execInputRawChange at h
  split at h
  · exact B.trans (B.shows s i raw) (B.finish h)
  · exact Host.Outcome.next.inj h ▸ B.shows s i raw

theorem drill (p : Port) (op : Fin 16) (n : Nat) (b : Option (List Nat)) : Keeps R (.drill p op n b) := by
  refine B.request (fun _ => by unfold exec execDrill; rfl) fun s => ?_
  split
  · exact B.refl s
  · split
    · exact B.refl s
    case isFalse.isFalse hmay =>
      simp only [not_or, Option.not_isSome_iff_eq_none, not_not] at hmay
      obtain ⟨hnone, hnormal, hquiet, _⟩ := hmay
      exact B.startDrill s _ _ _ hnone hnormal (Bool.not_eq_true _ ▸ hquiet)

theorem drillTimers : Keeps R .ackTimerExpiry ∧ Keeps R .drillTimelineChange ∧ Keeps R .stageExpiry := by
  refine ⟨B.event (fun _ => by unfold exec execAckTimerExpiry; rfl) fun s => ?_,
      B.event (fun _ => by unfold exec execDrillTimelineChange; rfl) fun s => ?_,
      B.event (fun _ => by unfold exec execStageExpiry; rfl) fun s => ?_⟩
  all_goals
    repeat' split
    all_goals first
      | with_reducible exact B.refl s
      | with_reducible exact B.endSession s _
      | with_reducible exact B.drillChange s
      | with_reducible exact B.endStage s

theorem drillRequests (p : Port) (op : Fin 16) (n : Nat) : Keeps R (.advance p op n) ∧ Keeps R (.abort p op) := by
  refine ⟨B.request (fun _ => by unfold exec execAdvance; rfl) fun s => ?_,
      B.request (fun _ => by unfold exec execAbort; rfl) fun s => ?_⟩
  · repeat' split
    all_goals first | with_reducible exact B.refl s | with_reducible exact B.endStage s
  · split
    · exact B.endSession s _
    · exact B.refl s

/-! ### The lines -/

theorem bringUp (l : Fin 6) : Keeps R (.provingEnd l) ∧ Keeps R (.poweringEnd l) := by
  refine ⟨B.event (fun _ => by unfold exec execProvingEnd; rfl) fun s => ?_,
      B.event (fun _ => by unfold exec execPoweringEnd; rfl) fun s => ?_⟩
  all_goals
    dsimp -failIfUnchanged only
    repeat' split
    all_goals first
      | with_reducible exact B.refl s
      | with_reducible exact B.enterPowering s _
      | with_reducible exact B.enterFault s _
      | with_reducible exact B.enterDiscovery s _

/-- What goes out in a slot changes the record of its line alone. -/
theorem slots_ (l : Fin 6) :
    Keeps R (.timeFrame l) ∧ Keeps R (.discoveryPoll l) ∧ Keeps R (.poll l) ∧ Keeps R (.searchPoll l) ∧ Keeps R (.recoveryPoll l) ∧
      Keeps R (.zoneOutputCommand l) ∧ Keeps R (.clockSet l) ∧ Keeps R (.loopUp l) := by
  refine ⟨B.event (fun _ => by unfold exec execTimeFrame; rfl) fun s => ?_,
      B.event (fun _ => by unfold exec execDiscoveryPoll; rfl) fun s => ?_,
      B.event (fun _ => by unfold exec execPoll; rfl) fun s => ?_,
    B.event (fun _ => by unfold exec execSearchPoll; rfl) fun s => ?_,
        B.event (fun _ => by unfold exec execRecoveryPoll; rfl) fun s => ?_,
        B.event (fun _ => by unfold exec execZoneOutputCommand; rfl) fun s => ?_,
    B.event (fun _ => by unfold exec execClockSet; rfl) fun s => ?_, B.event (fun _ => by unfold exec execLoopUp; rfl) fun s => ?_⟩
  all_goals
    dsimp -failIfUnchanged only
    repeat' split
    all_goals first | with_reducible exact B.refl s | with_reducible exact B.setLine s _ _

theorem replies (l : Fin 6) (start : Nat) (bytes : List Byte) : Keeps R (.reply l start bytes) ∧ Keeps R (.miss l) := by
  refine ⟨B.event (fun _ => by unfold exec execReply; rfl) fun s => ?_, B.event (fun _ => by unfold exec execMiss; rfl) fun s => ?_⟩
  all_goals
    repeat' split
    all_goals first
      | with_reducible exact B.refl s
      | with_reducible exact B.takeReply s _ _ _ _
      | with_reducible exact B.takeMiss s _ _

theorem lineRequests (p : Port) (op : Fin 16) (n : Nat) (mode : TestMode) (seconds : Option Nat) :
    Keeps R (.line p op n) ∧ Keeps R (.test p op n mode seconds) ∧ Keeps R (.inject p op n) := by
  refine ⟨B.request (fun _ => by unfold exec execLine; rfl) fun s => ?_,
      B.request (fun _ => by unfold exec execTest; rfl) fun s => ?_,
      B.request (fun _ => by unfold exec execInject; rfl) fun s => ?_⟩
  all_goals
    dsimp -failIfUnchanged only
    repeat' split
    all_goals first
      | with_reducible exact B.refl s
      | with_reducible exact B.restartLine s _
      | with_reducible exact B.beginTest s _ _ _
      | with_reducible exact B.setLine s _ _

theorem provingFrame (l : Fin 6) (back : List Byte) : Keeps R (.provingFrame l back) := by
  refine B.event (fun _ => by unfold exec execProvingFrame; rfl) fun s => ?_
  dsimp only
  split
  · unfold State.selfProve
    dsimp only
    split
    · exact B.setLine s _ _
    · exact B.refl s
  · split
    · unfold State.testProve
      dsimp only
      split <;> exact B.setLine s _ _
    · exact B.refl s
  · exact B.refl s

theorem echoes (l : Fin 6) (start : Nat) (bytes : List Byte) :
    Keeps R (.echo l start bytes) ∧ Keeps R (.echoMissing l) ∧ Keeps R (.noEchoTimeout l) := by
  refine ⟨B.event (fun _ => by unfold exec execEcho; rfl) fun s => ?_,
      B.event (fun _ => by unfold exec execEchoMissing; rfl) fun s => ?_,
      B.event (fun _ => by unfold exec execNoEchoTimeout; rfl) fun s => ?_⟩
  all_goals
    dsimp -failIfUnchanged only
    repeat' split
    all_goals first | with_reducible exact B.refl s | with_reducible exact B.setLine s _ _

theorem testEnds (l : Fin 6) : Keeps R (.testDurationEnd l) ∧ Keeps R (.loopDown l) := by
  have htold : ∀ s l r cause, R s ((State.takeResult s l r cause).enterDiscovery l) := fun s l r cause =>
    B.trans (B.takeResult s l r cause) (B.enterDiscovery _ l)
  refine ⟨B.event (fun _ => by unfold exec execTestDurationEnd; rfl) fun s => ?_,
      B.event (fun _ => by unfold exec execLoopDown; rfl) fun s => ?_⟩
  · dsimp only
    repeat' split
    all_goals first | with_reducible exact B.refl s | with_reducible exact B.setLine s _ _ | with_reducible exact htold s _ _ _
  · extract_lets x
    split
    · extract_lets u
      have hu : R s u := B.setLine s l.val _
      clear_value u
      split
      · exact hu
      · refine B.trans (B.trans hu ?_) (B.enterDiscovery _ _)
        change R u (if _ then _ else _)
        split
        · exact B.takeResult u _ _ _
        · exact B.refl u
    · exact B.refl s

/-! ### Notices and ports -/

theorem noticeRequests (p : Port) (op : Fin 16) (kind : Option NoticeKind) (n : Nat) (on : Bool) (mode : AttMode) :
    Keeps R (.clear p op kind n) ∧ Keeps R (.quiet p op kind on) ∧ Keeps R (.attend p op mode) := by
  have hclear : ∀ s k, R s (State.clearKind s p k) := by
    intro s k
    unfold State.clearKind State.afterClear
    split
    · exact B.trans (B.notices s p _) (B.port _ p _)
    · exact B.notices s p _
  refine ⟨B.request (fun _ => by unfold exec execClear; rfl) fun s => ?_,
      B.request (fun _ => by unfold exec execQuiet; rfl) fun s => ?_,
    B.request (fun _ => by unfold exec execAttend; rfl) fun s => B.notices s p fun n => { n with mode := mode }⟩
  all_goals
    dsimp -failIfUnchanged only
    repeat' split
    all_goals first
      | with_reducible exact B.refl s
      | with_reducible exact hclear s _
      | with_reducible exact B.trans (B.notices s p _) (hclear _ _)
      | with_reducible exact B.notices s p _

theorem exchange (p : Port) (op : Fin 16) (n v : Nat) :
    Keeps R (.note p op n v) ∧ Keeps R (.signal p op n) ∧ Keeps R (.lower p op n) ∧ Keeps R (.restart p op) := by
  refine ⟨B.request (fun _ => by unfold exec execNote; rfl) fun s => ?_,
      B.request (fun _ => by unfold exec execSignal; rfl) fun s => ?_,
      B.request (fun _ => by unfold exec execLower; rfl) fun s => ?_,
    B.request (fun _ => by unfold exec execRestart; rfl) fun s => ?_⟩
  all_goals
    dsimp -failIfUnchanged only
    repeat' split
    all_goals first
      | with_reducible exact B.refl s
      | with_reducible exact B.slots s _
      | with_reducible exact B.trans (B.signals s p _) (B.raised _ _ _ _)
      | with_reducible exact B.signals s _ _
      | with_reducible exact B.port s p _

theorem badLines (p : Port) (why : LineFault) : Keeps R (.unreadableLine p) ∧ Keeps R (.unknownKeyword p why) := by
  refine ⟨B.line (p := p) (fun _ => by unfold exec execUnreadableLine; rfl) fun s => B.answered s p _,
      B.line (p := p) (fun _ => by unfold exec execUnknownKeyword; rfl) fun s => ?_⟩
  split <;> exact B.answered s p _

theorem lineWhileBusy (p : Port) : Keeps R (.lineWhileBusy p) := by
  intro s t h
  change execLineWhileBusy p s = _ at h
  unfold execLineWhileBusy at h
  split at h
  · exact B.trans (B.oweBusy s p) (B.finish h)
  · exact Host.Outcome.next.inj h ▸ B.refl s

theorem replySent (p : Port) : Keeps R (.replySent p) := by
  refine B.event (fun _ => by unfold exec execReplySent; rfl) fun s => ?_
  split
  · unfold State.replySent
    dsimp only
    split
    · exact B.trans (B.port s p _) (B.restartDue _ true)
    · exact B.port s p _
  · exact B.refl s

theorem readings (p : Port) (op : Fin 16) (n a : Nat) (what : ZoneOrTrunk) (i : Option Nat) :
    Keeps R (.testRead p op n) ∧ Keeps R (.device p op n a) ∧ Keeps R (.zone p op what) ∧ Keeps R (.next p op) ∧
      Keeps R (.drillrec p op i) := by
  refine ⟨B.request (fun _ => by unfold exec execTestRead; rfl) fun s => ?_,
      B.request (fun _ => by unfold exec execDevice; rfl) fun s => ?_,
      B.request (fun _ => by unfold exec execZone; rfl) fun s => ?_,
    B.request (fun _ => by unfold exec execNext; rfl) fun s => ?_, B.request (fun _ => by unfold exec execDrillrec; rfl) fun s => ?_⟩
  all_goals
    repeat' split
    all_goals exact B.refl s

/-- Every plain command keeps the relation, each by the operations of its block. -/
theorem plain {c : Instr} (hc : plainCommand c = true) : Keeps R c := by
  cases c
  case powerOn | powerLoss | controllerRestart | activate | secondBoundary | holdoverAgeUnsync | referenceMark | silenceSlot
      | referenceAbsent | settime | adjust | select | read | write | empty | hold | release | discard | holdExpiry | imageWriteEnd
      | keySwitchRun | keySwitchSetup => cases hc
  case roomClockFrame | bellUnitCommand | speakerNodeCommand | deviceLoopUp | deviceLoopDown | holdForExpiry | speakerSilenceMute
      | clearStationPress | echoTimeout | amplifierFaultChange => exact B.device fun s => by unfold exec; exact rfl
  case time => exact B.reads fun _ => by unfold exec execTime; rfl
  case bells => exact B.reads fun _ => by unfold exec execBells; rfl
  case pages => exact B.reads fun _ => by unfold exec execPages; rfl
  case lines => exact B.reads fun _ => by unfold exec execLines; rfl
  case notes => exact B.reads fun _ => by unfold exec execNotes; rfl
  case status => exact B.reads fun _ => by unfold exec execStatus; rfl
  case deferralLimitExpiry job => exact (B.bells job 0 0).1
  case sounderTimelineChange job zone => exact (B.bells job zone 0).2.1
  case toneEnd t => exact (B.bells 0 0 t).2.2
  case ring p op g k m => exact B.ring p op g k m
  case page p op source prio zones pretone limit part => exact B.page p op source prio zones pretone limit part
  case pretoneEnd t => exact (B.pageTrunks t true).1
  case trunkLevelChange t silent => exact (B.pageTrunks t silent).2.1
  case pause t => exact (B.pageTrunks t true).2.2.1
  case idle t => exact (B.pageTrunks t true).2.2.2
  case pageLimitExpiry n => exact (B.pageEnds .a 0 n).2.2
  case endPage p op n => exact (B.pageEnds p op n).1
  case cancel p op n => exact (B.pageEnds p op n).2.1
  case inputRawChange i raw => exact B.inputRaw i raw
  case debounceExpiry i => exact (B.panel i).1
  case wiringStateChange i => exact (B.panel i).2.1
  case restoreTimerExpiry => exact (B.panel .alarm).2.2.1
  case panelSampleComplete => exact (B.panel .alarm).2.2.2
  case drill p op n b => exact B.drill p op n b
  case ackTimerExpiry => exact B.drillTimers.1
  case drillTimelineChange => exact B.drillTimers.2.1
  case stageExpiry => exact B.drillTimers.2.2
  case advance p op n => exact (B.drillRequests p op n).1
  case abort p op => exact (B.drillRequests p op 0).2
  case drillrec p op i => exact (B.readings p op 0 0 (.zone 0) i).2.2.2.2
  case provingEnd l => exact (B.bringUp l).1
  case poweringEnd l => exact (B.bringUp l).2
  case timeFrame l => exact (B.slots_ l).1
  case discoveryPoll l => exact (B.slots_ l).2.1
  case poll l => exact (B.slots_ l).2.2.1
  case searchPoll l => exact (B.slots_ l).2.2.2.1
  case recoveryPoll l => exact (B.slots_ l).2.2.2.2.1
  case zoneOutputCommand l => exact (B.slots_ l).2.2.2.2.2.1
  case clockSet l => exact (B.slots_ l).2.2.2.2.2.2.1
  case loopUp l => exact (B.slots_ l).2.2.2.2.2.2.2
  case reply l start bytes => exact (B.replies l start bytes).1
  case miss l => exact (B.replies l 0 []).2
  case line p op n => exact (B.lineRequests p op n .inner none).1
  case test p op n mode seconds => exact (B.lineRequests p op n mode seconds).2.1
  case inject p op n => exact (B.lineRequests p op n .inner none).2.2
  case testRead p op n => exact (B.readings p op n 0 (.zone 0) none).1
  case provingFrame l back => exact B.provingFrame l back
  case echo l start bytes => exact (B.echoes l start bytes).1
  case echoMissing l => exact (B.echoes l 0 []).2.1
  case noEchoTimeout l => exact (B.echoes l 0 []).2.2
  case testDurationEnd l => exact (B.testEnds l).1
  case loopDown l => exact (B.testEnds l).2
  case device p op n a => exact (B.readings p op n a (.zone 0) none).2.1
  case zone p op what => exact (B.readings p op 0 0 what none).2.2.1
  case next p op => exact (B.readings p op 0 0 (.zone 0) none).2.2.2.1
  case clear p op kind n => exact (B.noticeRequests p op kind n true .callAll).1
  case quiet p op kind on => exact (B.noticeRequests p op kind 0 on .callAll).2.1
  case attend p op mode => exact (B.noticeRequests p op none 0 true mode).2.2
  case note p op n v => exact (B.exchange p op n v).1
  case signal p op n => exact (B.exchange p op n 0).2.1
  case lower p op n => exact (B.exchange p op n 0).2.2.1
  case restart p op => exact (B.exchange p op 0 0).2.2.2
  case unreadableLine p => exact (B.badLines p .noKeyword).1
  case unknownKeyword p why => exact (B.badLines p why).2
  case lineWhileBusy p => exact B.lineWhileBusy p
  case replySent p => exact B.replySent p

end Blocks

end Sys2Proof.Machine
end

