-- ==== Sys2Proof/Proofs/KeepingTime.lean ====
section
/-! The commands that change the Timebase Unit, the Plan Store or the power, in the manner of the plain ones: what a relation must
allow of their operations for each command to keep it. -/

set_option autoImplicit false

namespace Sys2Proof.Machine

open Sys2Proof

/-! ### Written entries -/

/-- A time-settings entry lies in its ranges (R86). -/
def Entry.timeOk : Entry → Prop
  | .timeSet c => c.rangeLaw
  | _ => True

/-- What a WRITE puts is an entry with time settings in their ranges, if any. -/
def Written.timeOk (w : Written) : Prop := ∀ e, w.entry = some e → e.timeOk

section
variable {w : Written}

theorem written_timeOk {found clamped : Bool} {e : Entry} (h : written found clamped e = some w) (he : e.timeOk) : w.timeOk := by
  cases h
  intro e' he'
  dsimp only at he'
  split at he'
  · exact Option.some.inj he' ▸ he
  · cases he'

theorem writtenIf_timeOk {o : Option Entry} {found clamped : Bool} (h : writtenIf o found clamped = some w)
    (ho : ∀ e, o = some e → e.timeOk) : w.timeOk := by
  cases h
  intro e he
  dsimp only at he
  split at he
  · exact ho e he
  · cases he

theorem bind_timeOk {α : Type} {x : Option α} {f : α → Option Written} (h : (x >>= f) = some w)
    (hf : ∀ a, f a = some w → w.timeOk) : w.timeOk := by
  obtain ⟨a, _, ha⟩ := Option.bind_eq_some_iff.mp h
  exact hf a ha

theorem map_timeOk {α : Type} {x : Option α} {f : α → Entry} (hf : ∀ a, (f a).timeOk) (e : Entry) (h : x.map f = some e) :
    e.timeOk := by
  obtain ⟨a, _, rfl⟩ := Option.map_eq_some_iff.mp h
  exact hf a

theorem hold_le (lo hi n : Nat) : hold lo hi n ≤ hi := Nat.min_le_right _ _

variable {t : Tbl} {fs : List Field}

theorem writeCal_timeOk (h : writeCal t fs = some w) : w.timeOk := by
  unfold writeCal at h
  split at h
  case h_4 a b n =>
    refine writtenIf_timeOk h fun e he => ?_
    unfold exceptOf at he
    split at he
    · exact Option.some.inj he ▸ trivial
    · cases he
  case h_5 => exact bind_timeOk h fun _ h => bind_timeOk h fun _ h => written_timeOk h ⟨hold_le _ _ _, hold_le _ _ _⟩
  case h_6 => cases h
  all_goals exact written_timeOk h trivial

theorem writeDays_timeOk (h : writeDays t fs = some w) : w.timeOk := by
  unfold writeDays at h
  split at h
  case h_1 => exact bind_timeOk h fun _ h => bind_timeOk h fun _ h => writtenIf_timeOk h (map_timeOk fun _ => trivial)
  case h_2 => exact bind_timeOk h fun _ h => writtenIf_timeOk h (map_timeOk fun _ => trivial)
  case h_3 => exact writtenIf_timeOk h (map_timeOk fun _ => trivial)
  case h_4 => cases h

theorem writePat_timeOk (h : writePat t fs = some w) : w.timeOk := by
  unfold writePat at h
  split at h
  case h_1 => exact written_timeOk h trivial
  case h_2 => exact written_timeOk h trivial
  case h_3 => exact bind_timeOk h fun _ h => written_timeOk h trivial
  case h_4 => cases h

theorem writeZon_timeOk (h : writeZon t fs = some w) : w.timeOk := by
  unfold writeZon at h
  split at h
  case h_1 =>
    exact bind_timeOk h fun _ h => bind_timeOk h fun _ h => bind_timeOk h fun _ h => bind_timeOk h fun _ h =>
      bind_timeOk h fun _ h => bind_timeOk h fun _ h => bind_timeOk h fun _ h => written_timeOk h trivial
  case h_2 => exact written_timeOk h trivial
  case h_3 => cases h

theorem writeDrl_timeOk (h : writeDrl t fs = some w) : w.timeOk := by
  unfold writeDrl at h
  split at h
  case h_1 => exact bind_timeOk h fun _ h => bind_timeOk h fun _ h => written_timeOk h trivial
  case h_2 => exact bind_timeOk h fun _ h => bind_timeOk h fun _ h => bind_timeOk h fun _ h => written_timeOk h trivial
  case h_3 => exact bind_timeOk h fun _ h => writtenIf_timeOk h (map_timeOk fun _ => trivial)
  case h_4 => exact bind_timeOk h fun _ h => written_timeOk h trivial
  case h_5 => cases h

theorem writeLin_timeOk (h : writeLin t fs = some w) : w.timeOk := by
  unfold writeLin at h
  split at h
  case h_1 => exact bind_timeOk h fun _ h => bind_timeOk h fun _ h => written_timeOk h trivial
  case h_2 => exact bind_timeOk h fun _ h => bind_timeOk h fun _ h => bind_timeOk h fun _ h => written_timeOk h trivial
  case h_3 => exact written_timeOk h trivial
  case h_4 => exact written_timeOk h trivial
  case h_5 => cases h

theorem writePrt_timeOk (h : writePrt t fs = some w) : w.timeOk := by
  unfold writePrt at h
  split at h
  case h_1 rs l k m hs =>
    refine bind_timeOk h fun _ h => bind_timeOk h fun _ h => ?_
    split at h
    · exact written_timeOk h trivial
    · cases h
  case h_2 => exact bind_timeOk h fun _ h => written_timeOk h trivial
  case h_3 => exact bind_timeOk h fun _ h => written_timeOk h trivial
  case h_4 => cases h

theorem writeFields_timeOk (h : writeFields t fs = some w) : w.timeOk := by
  unfold writeFields at h
  split at h
  · exact writeCal_timeOk h
  · exact writeDays_timeOk h
  · exact writeDays_timeOk h
  · exact writePat_timeOk h
  · exact writeZon_timeOk h
  · exact writeDrl_timeOk h
  · exact writeLin_timeOk h
  · exact writePrt_timeOk h

end

theorem emptyEntry_timeOk (t : Tbl) (i : Nat) : (entryAt emptyPlan t i).timeOk := by
  cases t
  case timeset => exact ⟨by decide, by decide⟩
  all_goals trivial

/-! ### The Plan Store -/

/-- What the Plan Store's own commands and the key switch may do. -/
structure StoreOps (R : State → State → Prop) : Prop extends Lasting R where
  setHold : ∀ s r h, R s (s.setHold r h)
  discardStaged : ∀ s r, R s (s.discardStaged r)
  putStaged : ∀ (s : State) i e, e.timeOk → R s (s.putStaged i e)
  setup : ∀ (s : State) b, R s { s with setup := b }
  image : ∀ (s : State) (r : Region) good, R s
    { s with store := { s.store with
        images := if good then copyRegion r s.store.live s.store.images else s.store.images
        imageGood := tset imageGoodStart s.store.imageGood (regionIdx r) good } }

namespace StoreOps

variable {R : State → State → Prop} (P : StoreOps R)
include P

theorem touchHold (s : State) (p : Port) (r : Region) : R s (s.touchHold p r) := by
  unfold State.touchHold
  split
  · exact P.setHold s r _
  · exact P.refl s

theorem dropHold (s : State) (r : Region) : R s (s.dropHold r) := P.trans (P.discardStaged s r) (P.setHold _ r _)

theorem setCursor (s : State) (p : Port) (c : Cursor) : R s (s.setCursor p c) := P.port s p _

theorem advanceCursor (s : State) (p : Port) : R s (s.advanceCursor p) := by
  unfold State.advanceCursor
  split
  · exact P.port s p _
  · exact P.refl s

theorem writeEnds (s : State) (p : Port) (r : Region) (good : Bool) : R s (s.writeEnds p r good) := by
  have htold := P.trans (P.image s r good) (P.trans (P.dropHold _ r) (P.raised _ p .hold (.hold r (.activated good))))
  cases good
  · exact P.trans htold (P.raise _ _ _)
  · exact htold

/-- A request at the cursor touches the hold, does its work, and moves the cursor on where it is accepted. -/
theorem atCursor {p : Port} {op : Fin 16} {kw : Keyword} {min : Region → OpClass} {least : OpClass} {needsEdit : Cursor → Bool}
    {body : Cursor → State → State × Reply} (s : State) (hbody : ∀ c s, R s (body c s).1) :
    R s (Machine.atCursor p op kw min least needsEdit s body) := by
  unfold Machine.atCursor
  split
  · split <;> exact P.responded s p op kw none _
  case h_2 c _ =>
    refine P.plan s fun s => ?_
    dsimp only
    split
    · exact P.touchHold s p _
    · refine P.trans (P.touchHold s p c.region) (P.trans (hbody c _) ?_)
      dsimp only
      split
      · exact P.advanceCursor _ p
      · exact P.refl _

theorem cursorRequests (p : Port) (op : Fin 16) (region : Region) (table : Option Tbl) (i : Nat) (bank : Bank) :
    Keeps R (.select p op region table i bank) ∧ Keeps R (.read p op) := by
  refine ⟨P.line (p := p) (fun _ => by unfold exec execSelect; rfl) fun s => P.plan s fun s => ?_,
    P.line (p := p) (fun _ => by unfold exec execRead; rfl) fun s => P.atCursor s fun c s => ?_⟩
  · dsimp only
    split
    · exact P.touchHold s p region
    · split
      · exact P.touchHold s p region
      · exact P.trans (P.touchHold s p region) (P.setCursor _ p _)
  · dsimp only
    split
    · exact P.refl s
    · split <;> exact P.refl s

theorem edits (p : Port) (op : Fin 16) (fields : List Field) : Keeps R (.write p op fields) ∧ Keeps R (.empty p op) := by
  refine ⟨P.line (p := p) (fun _ => by unfold exec execWrite; rfl) fun s => ?_,
    P.line (p := p) (fun _ => by unfold exec execEmpty; rfl) fun s => P.atCursor s fun c s => ?_⟩
  · split
    · split
      · exact P.responded s p op .write _ _
      case h_2 w hw =>
        refine P.atCursor s fun c s => ?_
        split
        · exact P.refl s
        · split
          · exact P.refl s
          case h_2 e he => exact P.putStaged s _ e (writeFields_timeOk hw e he)
    · exact P.atCursor s fun _ s => P.refl s
  · split
    · exact P.refl s
    · exact P.putStaged s _ _ (emptyEntry_timeOk _ _)

theorem holdRequests (p : Port) (op : Fin 16) (r : Region) :
    Keeps R (.hold p op r) ∧ Keeps R (.release p op r) ∧ Keeps R (.discard p op r) := by
  refine ⟨P.line (p := p) (fun _ => by unfold exec execHold; rfl) fun s => P.plan s fun s => ?_,
    P.line (p := p) (fun _ => by unfold exec execRelease; rfl) fun s => P.plan s fun s => ?_,
    P.line (p := p) (fun _ => by unfold exec execDiscard; rfl) fun s => P.plan s fun s => ?_⟩
  all_goals
    repeat' split
    all_goals first
      | with_reducible exact P.refl s
      | with_reducible exact P.setHold s _ _
      | with_reducible exact P.dropHold s _
      | exact P.setHold s _ _

theorem writesAndHoldsEnd (r : Region) (good : Bool) : Keeps R (.holdExpiry r) ∧ Keeps R (.imageWriteEnd r good) := by
  refine ⟨P.event (fun _ => by unfold exec execHoldExpiry; rfl) fun s => ?_,
    P.event (fun _ => by unfold exec execImageWriteEnd; rfl) fun s => ?_⟩
  · split
    · split
      · exact P.trans (P.dropHold s r) (P.raised _ _ _ _)
      · exact P.refl s
    · exact P.refl s
  · split
    · exact P.writeEnds s _ r good
    · exact P.refl s

theorem withdraw (s : State) (r : Region) : R s (s.withdraw r) := by
  unfold State.withdraw
  split
  · split
    · exact P.refl s
    · exact P.trans (P.dropHold s r) (P.raised _ _ _ _)
  · exact P.refl s

theorem keySwitch : Keeps R .keySwitchRun ∧ Keeps R .keySwitchSetup := by
  refine ⟨fun s t h => ?_, fun s t h => ?_⟩
  · change execKeySwitchRun s = _ at h
    unfold execKeySwitchRun at h
    split at h
    · exact P.trans (P.setup s false) (P.trans (P.foldl P.withdraw _ _) (P.finish h))
    · exact Host.Outcome.next.inj h ▸ P.setup s false
  · exact Host.Outcome.next.inj h ▸ P.setup s true

theorem store {c : Instr} (hc : storeCommand c = true) : Keeps R c := by
  cases c
  case select p op region table i bank => exact (P.cursorRequests p op region table i bank).1
  case read p op => exact (P.cursorRequests p op .cal none 0 .live).2
  case write p op fields => exact (P.edits p op fields).1
  case empty p op => exact (P.edits p op []).2
  case hold p op r => exact (P.holdRequests p op r).1
  case release p op r => exact (P.holdRequests p op r).2.1
  case discard p op r => exact (P.holdRequests p op r).2.2
  case holdExpiry r => exact (P.writesAndHoldsEnd r true).1
  case imageWriteEnd r good => exact (P.writesAndHoldsEnd r good).2
  case keySwitchRun => exact P.keySwitch.1
  case keySwitchSetup => exact P.keySwitch.2
  all_goals cases hc

end StoreOps

/-! ### The Timebase Unit -/

/-- What the Timebase Unit's commands may do, where any change of its own record is allowed. -/
structure TimeOps (R : State → State → Prop) : Prop extends Lasting R where
  tbu : ∀ s f, R s (s.onTbu f)
  bdsBoundary : ∀ s, R s s.bdsBoundary
  bdsStep : ∀ s a b, R s (s.bdsStep a b)
  dsqBoundary : ∀ s, R s s.dsqBoundary
  dsqStep : ∀ s, R s s.dsqStep
  lineSeconds : ∀ s b, R s (s.lineSeconds b)

namespace TimeOps

variable {R : State → State → Prop} (T : TimeOps R)
include T

theorem takeUnsync (s : State) : R s s.takeUnsync := by
  unfold State.takeUnsync
  split
  · exact T.trans (T.tbu s _) (T.raise _ _ _)
  · exact T.refl s

theorem stepTo (s : State) (before : CampusMs) (cause : StepCause) : R s (s.stepTo before cause) :=
  T.trans (T.tbu s _) <| T.trans (T.tbu _ _) <| T.trans (T.tbu _ _) <| T.trans (T.raise _ _ _) <| T.trans (T.bdsStep _ _ _) <|
    T.trans (T.settled _) <| T.trans (T.dsqStep _) <| T.trans (T.settled _) (T.lineSeconds _ _)

theorem evaluate (s : State) (m : Stamp) : R s (s.evaluate m) := by
  unfold State.evaluate
  dsimp only
  split
  · exact T.trans (T.takeUnsync s) (T.trans (T.tbu _ _) (T.trans (T.tbu _ _) (T.stepTo _ _ _)))
  · exact T.trans (T.takeUnsync s) (T.trans (T.tbu _ _) (T.tbu _ _))

theorem goodMark (s : State) (m : Stamp) : R s (s.goodMark m) := by
  unfold State.goodMark
  dsimp only
  split
  · exact T.trans (T.evaluate s m) (T.tbu _ _)
  · split
    · exact T.trans (T.evaluate s m) (T.tbu _ _)
    · exact T.tbu s _
  · exact T.refl s

theorem enterSlot (s : State) (good : Bool) : R s (s.enterSlot good) := by
  unfold State.enterSlot
  extract_lets u
  have hu : R s u := T.tbu s _
  split
  · exact T.trans hu (T.trans (T.tbu _ _) (T.raise _ _ _))
  · split
    · exact T.trans hu (T.trans (T.tbu _ _) (T.raise _ _ _))
    · exact hu

theorem judgeMark (s : State) (c : Chain) (m : Option Stamp) : R s (s.judgeMark c m) := by
  unfold State.judgeMark
  dsimp only
  split
  · exact T.trans (T.tbu s _) (T.trans (T.enterSlot _ _) (T.goodMark _ _))
  · exact T.trans (T.tbu s _) (T.enterSlot _ _)

theorem ageHoldover (s : State) : R s s.ageHoldover := by
  unfold State.ageHoldover
  split
  · exact T.tbu s _
  · exact T.refl s

theorem secondBoundary : Keeps R .secondBoundary := by
  refine T.event (fun _ => by unfold exec execSecondBoundary; rfl) fun s => ?_
  dsimp only
  split
  · exact T.refl s
  · exact T.trans (T.tbu s _) <| T.trans (T.tbu _ _) <| T.trans (T.ageHoldover _) <| T.trans (T.tbu _ _) <|
      T.trans (T.bdsBoundary _) <| T.trans (T.settled _) <| T.trans (T.dsqBoundary _) <| T.trans (T.settled _) (T.lineSeconds _ _)

theorem marksAndSilence (date : WrittenDate) (time : WrittenTime) :
    Keeps R (.referenceMark date time) ∧ Keeps R .silenceSlot ∧ Keeps R .referenceAbsent ∧ Keeps R .holdoverAgeUnsync := by
  refine ⟨T.event (fun _ => by unfold exec execReferenceMark; rfl) fun s => ?mark,
    T.event (fun _ => by unfold exec execSilenceSlot; rfl) fun s => ?silence,
    T.event (fun _ => by unfold exec execReferenceAbsent; rfl) fun s => ?absent,
    T.event (fun _ => by unfold exec execHoldoverAgeUnsync; rfl) T.takeUnsync⟩
  case mark =>
    split
    · exact T.refl s
    · dsimp only
      split
      · exact T.judgeMark s _ _
      · exact T.tbu s _
      · exact T.refl s
  case silence =>
    split
    · exact T.refl s
    · split
      · exact T.refl s
      · split
        · exact T.trans (T.tbu s _) (T.enterSlot _ _)
        · exact T.refl s
  case absent =>
    split
    · exact T.refl s
    · split
      · exact T.trans (T.tbu s _) (T.raise _ _ _)
      · exact T.refl s

theorem requests (p : Port) (op : Fin 16) (date : WrittenDate) (time : WrittenTime) (n : Nat) (ms : Int) :
    Keeps R (.settime p op date time n) ∧ Keeps R (.adjust p op ms) := by
  refine ⟨T.request (fun _ => by unfold exec execSettime; rfl) fun s => ?_, T.request (fun _ => by unfold exec execAdjust; rfl) fun s => ?_⟩
  · split
    · exact T.refl s
    · split
      · exact T.trans (T.takeUnsync s) (T.trans (T.tbu _ _) (T.stepTo _ _ _))
      · exact T.refl s
  · split
    · exact T.refl s
    · dsimp only
      exact T.tbu s _

theorem time {c : Instr} (hc : timeCommand c = true) : Keeps R c := by
  cases c
  case secondBoundary => exact T.secondBoundary
  case holdoverAgeUnsync => exact (T.marksAndSilence ⟨0, 0, 0⟩ ⟨0, 0, 0⟩).2.2.2
  case referenceMark d m => exact (T.marksAndSilence d m).1
  case silenceSlot => exact (T.marksAndSilence ⟨0, 0, 0⟩ ⟨0, 0, 0⟩).2.1
  case referenceAbsent => exact (T.marksAndSilence ⟨0, 0, 0⟩ ⟨0, 0, 0⟩).2.2.1
  case settime p op d m n => exact (T.requests p op d m n 0).1
  case adjust p op ms => exact (T.requests p op ⟨0, 0, 0⟩ ⟨0, 0, 0⟩ 0 ms).2
  all_goals cases hc

end TimeOps

/-! ### Activation, power and the restart -/

/-- The Timebase Unit as power-on starts it. -/
def State.batteryStart (s : State) (good : Bool) (n : Nat) : State :=
  s.onTbu fun t => ({ t with battery := t.battery.count n }).powerOn good s.timeSet.slewLimit

/-- What ACTIVATE, the loss of power and the restart may do. -/
structure StartOps (R : State → State → Prop) : Prop extends StoreOps R where
  power : ∀ (s : State) b, R s { s with power := b }
  records : ∀ (s : State) rs n, R s { s with dsq := { s.dsq with records := rs, lastRecord := n } }
  setLine : ∀ s l x, R s (s.setLine l x)
  tbuActivation : ∀ s b, R s (s.tbuActivation b)
  bdsActivation : ∀ s, R s s.bdsActivation
  zonActivation : ∀ s z, R s (s.zonActivation z)
  dsqActivation : ∀ s, R s s.dsqActivation
  redebounce : ∀ s, R s s.redebounce
  dropAllParts : ∀ s, R s s.dropAllParts
  endAllPages : ∀ s, R s s.endAllPages
  restartSession : ∀ s, R s s.restartSession

/-- Power-on loads the plan, starts the Timebase Unit from the battery clock, reloads the drill records and starts the rest. -/
theorem powerOn_eq (good : Bool) (n : Nat) {s : State} (h : ¬s.power = true) :
    ∃ u v x, u = (({ s with power := true } : State).clocksRun n).load ∧ v = u.batteryStart good n ∧
      exec (.powerOn good n) s = finish ({ v with dsq := v.dsq.reload, lines := x } : State).comeUp :=
  ⟨_, _, _, rfl, rfl, if_neg h⟩

namespace StartOps

variable {R : State → State → Prop} (S : StartOps R)
include S

theorem powerLoss (a b : Bool) : Keeps R (.powerLoss a b) := by
  intro s t h
  change execPowerLoss a b s = _ at h
  unfold execPowerLoss at h
  split at h
  · exact Host.Outcome.next.inj h ▸ S.refl s
  · rw [← Host.Outcome.next.inj h]
    refine S.trans (S.power s false) (S.trans (S.foldl (fun s l => ?_) allLines _) (S.records _ _ _))
    exact S.foldl (fun s a => S.field s _) allAddrs s

theorem announce (s : State) (r : Region) (old : Plan) : R s (s.announce r old) := by
  cases r
  · exact S.trans (S.tbuActivation s _) (S.bdsActivation _)
  · exact S.bdsActivation s
  · exact S.bdsActivation s
  · exact S.refl s
  · exact S.zonActivation s _
  · exact S.trans (S.dsqActivation s) (S.redebounce _)
  · exact S.refl s
  · exact S.refl s

/-- ACTIVATE keeps a relation that allows the copy of the staged region. -/
theorem activate (p : Port) (op : Fin 16) (r : Region)
    (hcopy : ∀ s : State, R s { s with store := { s.store with
      live := copyRegion r s.store.staged s.store.live, imageGood := tset imageGoodStart s.store.imageGood (regionIdx r) false } }) :
    Keeps R (.activate p op r) := by
  refine S.line (p := p) (fun _ => by unfold exec execActivate; rfl) fun s => S.plan s fun s => ?_
  repeat' split
  all_goals first
    | with_reducible exact S.refl s
    | exact S.setHold s _ _
    | exact S.trans (hcopy s) (S.trans (S.setHold _ _ _) (S.announce _ _ _))

theorem endWrites (s : State) (failed : List Region) : R s (s.endWrites failed) := by
  refine S.foldl (fun s r => ?_) _ _
  split
  · exact S.writeEnds s _ _ _
  · exact S.refl s

/-- The restart keeps a relation that allows the load of the images and the start of the blocks. -/
theorem restart (failed : List Region) (hload : ∀ s : State, R s s.load) (hup : ∀ s : State, R s s.comeUp) :
    Keeps R (.controllerRestart failed) := by
  refine S.event (fun _ => by unfold exec execControllerRestart; rfl) fun s => ?_
  split
  · refine S.trans ?_ (S.trans (hload _) (hup _))
    exact S.trans (S.dropAllParts s) <| S.trans (S.endAllPages _) <| S.trans (S.restartSession _) <|
      S.trans (S.foldl (fun s l => S.setLine s l _) _ _) (S.endWrites _ _)
  · exact S.refl s

/-- Power-on keeps a relation that allows the restart's work, a battery start of the Timebase Unit and fresh lines. -/
theorem powerOn (good : Bool) (n : Nat) (hload : ∀ s : State, R s s.load) (hup : ∀ s : State, R s s.comeUp)
    (htbu : ∀ s : State, R s (s.batteryStart good n))
    (hlines : ∀ (s : State) x, R s { s with lines := x }) : Keeps R (.powerOn good n) := by
  intro s t h
  by_cases hpower : s.power = true
  · have hstay : exec (.powerOn good n) s = .next s := if_pos hpower
    exact Host.Outcome.next.inj (hstay.symm.trans h) ▸ S.refl s
  · obtain ⟨u, v, x, hu, hv, hx⟩ := powerOn_eq good n hpower
    have hsu : R s u := hu ▸ S.trans (S.power s true) (S.trans (S.field _ _) (hload _))
    have huv : R u v := hv ▸ htbu u
    have hrecords : R v { v with dsq := v.dsq.reload } := S.records v v.dsq.reload.records v.dsq.reload.lastRecord
    have hlined : R v { v with dsq := v.dsq.reload, lines := x } := S.trans hrecords (hlines { v with dsq := v.dsq.reload } x)
    exact S.trans hsu (S.trans huv (S.trans hlined (S.trans (hup _) (S.finish (hx ▸ h)))))

end StartOps

/-- Every command is plain, or one of the three other sorts. -/
theorem command_sort (c : Instr) : plainCommand c = true ∨ timeCommand c = true ∨ storeCommand c = true ∨ startCommand c = true := by
  unfold plainCommand
  cases timeCommand c <;> cases storeCommand c <;> cases startCommand c <;> simp

end Sys2Proof.Machine
end

