-- ==== Sys2Proof/Proofs/Frames.lean ====
section
/-! What every command of a block leaves alone: the settings of the machine that no block but the Timebase Unit, the Plan Store and
start-up writes. From it follow which commands move campus time and the live banks, that none touches the queue of waiting
commands, and that every step keeps the ranges of R2 and R16. -/

set_option autoImplicit false

namespace Sys2Proof.Machine

open Sys2Proof

/-! ### What plain commands leave alone -/

/-- The parts of the state outside the blocks that plain commands work in. -/
def State.gist (s : State) : Bool × Bool × Nat × Store × Tbu × Nat × List Instr :=
  (s.power, s.setup, s.now, s.store, s.tbu, s.draws, s.pending)

theorem gist_base (s : State) : s.base.gist = s.gist := rfl

theorem gist_of_base {s t : State} (h : t.base = s.base) : t.gist = s.gist := by rw [← gist_base t, h, gist_base]

theorem gist_foldl {α : Type} {f : State → α → State} (hf : ∀ s a, (f s a).gist = s.gist) (xs : List α) (s : State) :
    (xs.foldl f s).gist = s.gist := by
  induction xs generalizing s with
  | nil => rfl
  | cons x xs ih => exact (ih _).trans (hf s x)

theorem gist_onDevices (s : State) (l : Nat) (f : FieldDev → FieldDev) : (s.onDevices l f).gist = s.gist := by
  unfold State.onDevices
  refine gist_foldl (fun s a => ?_) _ _
  rfl

theorem gist_refreshDegraded (s : State) (l : Nat) : (s.refreshDegraded l).gist = s.gist := gist_of_base (base_refreshDegraded s l)

theorem gist_lineDown (s : State) (l : Nat) : (s.lineDown l).gist = s.gist := gist_of_base (base_of_rest (rest_lineDown s l))

theorem gist_bringUp (s : State) (l : Nat) : (s.bringUp l).gist = s.gist := by
  have hoff : (((s.setLine l (s.broughtUp l)).onDevices l FieldDev.lineOff).refreshDegraded l).gist = s.gist :=
    (gist_refreshDegraded _ l).trans (gist_onDevices _ l _)
  unfold State.bringUp
  dsimp only
  split
  · exact (gist_lineDown _ l).trans hoff
  · exact hoff

theorem gist_restartLine (s : State) (l : Nat) : (s.restartLine l).gist = s.gist := by
  unfold State.restartLine
  split
  · exact (gist_bringUp _ l).trans (gist_of_base (base_takeResult s l _ _))
  · exact gist_bringUp s l

theorem gist_leaveZone (s : State) (z : Nat) : (s.leaveZone z).gist = s.gist := by
  apply gist_of_base
  unfold State.leaveZone
  dsimp only
  repeat' split
  all_goals simp

theorem gist_moveZone (s : State) (old : Option Nat) (z : Nat) : (s.moveZone old z).gist = s.gist := by
  refine Eq.trans ?_ (gist_leaveZone s z)
  apply gist_of_base
  unfold State.moveZone
  dsimp only
  repeat' split
  all_goals simp

theorem gist_zonActivation (s : State) (old : Zon) : (s.zonActivation old).gist = s.gist := by
  refine gist_foldl (fun s z => ?_) _ _
  dsimp only
  split
  · rfl
  · exact (gist_of_base (base_settle _)).trans (gist_moveZone s _ z)

theorem gist_comeUp (s : State) : s.comeUp.gist = s.gist := by
  have hloads : ∀ s : State, s.raiseLoads.gist = s.gist := fun s => gist_foldl (fun s r => by
    split
    · rfl
    · exact gist_of_base (base_raise s _ _)) _ _
  have hblocks : ∀ s : State, s.bdsStart.dsqStart.panelStart.gist = s.gist := fun s =>
    gist_of_base ((base_panelStart _).trans ((base_dsqStart _).trans (base_bdsStart s)))
  exact (hloads _).trans ((gist_foldl gist_bringUp _ _).trans (hblocks _))

theorem gist_endAllPages (s : State) : s.endAllPages.gist = s.gist := gist_of_base (base_endAllPages s)

/-- A relation that follows from an equal gist is kept by the end of every command. -/
theorem Lasting.ofGist {R : State → State → Prop} (hgist : ∀ s t : State, t.gist = s.gist → R s t)
    (htrans : ∀ s t u : State, R s t → R t u → R s u) : Lasting R where
  refl s := hgist s s rfl
  trans := fun {s t u} => htrans s t u
  settled s := hgist _ _ (gist_of_base (base_settle s))
  rejudged s := hgist _ _ (gist_of_base (rejudge_base s))
  port _ _ _ := hgist _ _ rfl
  raised s p k d := hgist _ _ (gist_of_base (base_raiseAt s p k d))
  field _ _ := hgist _ _ rfl

theorem blocks_gist : Blocks fun s t => t.gist = s.gist where
  toLasting := .ofGist (fun _ _ h => h) fun _ _ _ h g => g.trans h
  notices _ _ _ := rfl
  slots _ _ := rfl
  signals s p xs := by cases p <;> rfl
  restartDue _ _ := rfl
  expireWaits s n := gist_of_base (base_expireWaits s n)
  soundChange s j p := gist_of_base (base_soundChange s j p)
  toneOver s t j g := gist_of_base (base_toneOver s t j g)
  enterJob s x _ _ := gist_of_base (base_enterJob s x)
  enterPage s p op a _ := gist_of_base (base_enterPage s p op a)
  endPage s n r := gist_of_base (base_endPage s n r)
  enterLive s n t := gist_of_base (base_enterLive s n t)
  trunk s t u := gist_of_base (base_setTrunk s t u)
  push s w := gist_of_base (base_push s w)
  shows _ _ _ := rfl
  debounceInput s i := gist_of_base (base_debounceInput s i)
  rewireInput s i := gist_of_base (base_rewireInput s i)
  restored s _ := gist_of_base (base_restored s)
  sampleDone s t b _ := gist_of_base (base_sampleDone s b)
  startDrill s o n b _ _ _ := gist_of_base ((base_enterRequesting _).trans (base_createSession s o n b))
  endSession s r := gist_of_base (base_endSession s r)
  drillChange s := gist_of_base (base_drillChange s)
  endStage s := gist_of_base (base_endStage s)
  setLine _ _ _ := rfl
  enterPowering s l := gist_onDevices (s.onLine l _) l FieldDev.cold
  enterFault s l := gist_of_base (base_enterFault s l)
  enterDiscovery s l := gist_of_base (base_enterDiscovery s l)
  takeReply s l a start g := gist_of_base (base_takeReply s l a start g)
  takeMiss s l a := gist_of_base (base_takeMiss s l a)
  restartLine := gist_restartLine
  beginTest s l mode n := gist_of_base (base_beginTest s l mode n)
  takeResult s l r cause := gist_of_base (base_takeResult s l r cause)

/-- A plain command keeps whatever follows from an equal gist. -/
theorem keeps_plain {R : State → State → Prop} (hgist : ∀ s t : State, t.gist = s.gist → R s t) {c : Instr}
    (hc : plainCommand c = true) : Keeps R c := fun s t h => hgist s t (blocks_gist.plain hc s t h)

/-! ### Relations that look at the gist alone -/

theorem StoreOps.ofGist {R : State → State → Prop} (hgist : ∀ s t : State, t.gist = s.gist → R s t)
    (htrans : ∀ s t u : State, R s t → R t u → R s u) (hhold : ∀ s r h, R s (s.setHold r h))
    (hdiscard : ∀ s r, R s (s.discardStaged r)) (hput : ∀ (s : State) i e, e.timeOk → R s (s.putStaged i e))
    (hsetup : ∀ (s : State) b, R s { s with setup := b })
    (himage : ∀ (s : State) (r : Region) good, R s
      { s with store := { s.store with
          images := if good then copyRegion r s.store.live s.store.images else s.store.images
          imageGood := tset imageGoodStart s.store.imageGood (regionIdx r) good } }) : StoreOps R where
  toLasting := .ofGist hgist htrans
  setHold := hhold
  discardStaged := hdiscard
  putStaged := hput
  setup := hsetup
  image := himage

theorem TimeOps.ofGist {R : State → State → Prop} (hgist : ∀ s t : State, t.gist = s.gist → R s t)
    (htrans : ∀ s t u : State, R s t → R t u → R s u) (htbu : ∀ s f, R s (s.onTbu f)) : TimeOps R where
  toLasting := .ofGist hgist htrans
  tbu := htbu
  bdsBoundary s := hgist _ _ (gist_of_base (base_bdsBoundary s))
  bdsStep s a b := hgist _ _ (gist_of_base (base_bdsStep s a b))
  dsqBoundary s := hgist _ _ (gist_of_base (base_dsqBoundary s))
  dsqStep s := hgist _ _ (gist_of_base (base_dsqStep s))
  lineSeconds s b := hgist _ _ (gist_of_base (base_lineSeconds s b))

theorem StartOps.ofGist {R : State → State → Prop} (P : StoreOps R) (hgist : ∀ s t : State, t.gist = s.gist → R s t)
    (hpower : ∀ (s : State) b, R s { s with power := b }) (htbu : ∀ s b, R s (s.tbuActivation b)) : StartOps R where
  toStoreOps := P
  power := hpower
  records _ _ _ := hgist _ _ rfl
  setLine _ _ _ := hgist _ _ rfl
  tbuActivation := htbu
  bdsActivation s := hgist _ _ (gist_of_base (base_bdsActivation s))
  zonActivation s z := hgist _ _ (gist_zonActivation s z)
  dsqActivation s := hgist _ _ (gist_of_base (base_dsqActivation s))
  redebounce s := hgist _ _ (gist_of_base (base_redebounce s))
  dropAllParts s := hgist _ _ (gist_of_base (base_dropAllParts s))
  endAllPages s := hgist _ _ (gist_endAllPages s)
  restartSession s := hgist _ _ (gist_of_base (base_restartSession s))

/-! ### The queue of waiting commands -/

theorem pending_of_gist (s t : State) (h : t.gist = s.gist) : t.pending = s.pending := congrArg (·.2.2.2.2.2.2) h

/-- A load writes the live and staged banks and the holds alone. -/
theorem load_shape (s : State) :
    ∃ live, s.load = { s with store := { s.store with live := live, staged := live, holds := [] } } := by
  have hregions : ∀ (rs : List Region) (u : State),
      (∃ live, u = { s with store := { s.store with live := live } }) →
        ∃ live, rs.foldl State.loadRegion u = { s with store := { s.store with live := live } } := by
    intro rs
    induction rs with
    | nil => exact fun _ h => h
    | cons r rs ih => exact fun u ⟨_, hu⟩ => ih _ (hu ▸ ⟨_, rfl⟩)
  obtain ⟨live, h⟩ := hregions allRegions s ⟨s.store.live, rfl⟩
  refine ⟨live, ?_⟩
  unfold State.load
  rw [h]

theorem tbuActivation_cases (s : State) (was : Bool) :
    s.tbuActivation was = s ∨ s.tbuActivation was = s.onTbu Tbu.disable ∨ s.tbuActivation was = s.onTbu Tbu.enable := by
  unfold State.tbuActivation
  split
  · exact .inr (.inl rfl)
  · exact .inr (.inr rfl)
  · exact .inl rfl

theorem timeOps_pending : TimeOps fun s t => t.pending = s.pending :=
  .ofGist pending_of_gist (fun _ _ _ h g => g.trans h) fun _ _ => rfl

theorem startOps_pending : StartOps fun s t => t.pending = s.pending :=
  .ofGist (.ofGist pending_of_gist (fun _ _ _ h g => g.trans h) (fun _ _ _ => rfl) (fun _ _ => rfl) (fun _ _ _ _ => rfl)
    (fun _ _ => rfl) fun _ _ _ => rfl) pending_of_gist (fun _ _ => rfl) fun s was => by
      obtain h | h | h := tbuActivation_cases s was <;> rw [h] <;> rfl

/-- Settles O8: no operation of any command writes the queue of waiting commands. -/
theorem commandsLeaveTheQueue : Obligations.CommandsLeaveTheQueue := by
  intro c
  have hup : ∀ s : State, s.comeUp.pending = s.pending := fun s => pending_of_gist _ _ (gist_comeUp s)
  have hload : ∀ s : State, s.load.pending = s.pending := fun s => by
    obtain ⟨_, h⟩ := load_shape s
    rw [h]
  suffices Keeps (fun s t => t.pending = s.pending) c from this
  obtain hc | hc | hc | hc := command_sort c
  · exact keeps_plain pending_of_gist hc
  · exact timeOps_pending.time hc
  · exact startOps_pending.store hc
  · cases c
    case powerOn good n => exact startOps_pending.powerOn good n hload hup (fun _ => rfl) fun _ _ => rfl
    case powerLoss a b => exact startOps_pending.powerLoss a b
    case controllerRestart failed => exact startOps_pending.restart failed hload hup
    case activate p op r => exact startOps_pending.activate p op r fun _ => rfl
    all_goals cases hc

/-! ### Campus time -/

/-- Campus time with the length of its second. -/
def Tbu.clock (t : Tbu) : Nat × Nat × Nat × Nat := (t.day, t.sec, t.phase, t.len)

theorem clock_of_gist (s t : State) (h : t.gist = s.gist) : t.tbu.clock = s.tbu.clock := congrArg (·.2.2.2.2.1.clock) h

theorem disqualify_clock (t : Tbu) : t.disqualify.clock = t.clock := by
  unfold Tbu.disqualify
  dsimp only
  split <;> rfl

theorem startOps_clock : StartOps fun s t => t.tbu.clock = s.tbu.clock :=
  .ofGist (.ofGist clock_of_gist (fun _ _ _ h g => g.trans h) (fun _ _ _ => rfl) (fun _ _ => rfl) (fun _ _ _ _ => rfl)
    (fun _ _ => rfl) fun _ _ _ => rfl) clock_of_gist (fun _ _ => rfl) fun s was => by
      obtain h | h | h := tbuActivation_cases s was <;> rw [h] <;> rfl

theorem history_clock (t : Tbu) (xs : List Bool) (n : Nat) : ({ t with history := xs, consec := n } : Tbu).clock = t.clock := rfl

theorem raiseReference_clock (s : State) (ev : RefEvent) (n : Nat) : (s.raiseReference ev n).tbu.clock = s.tbu.clock :=
  clock_of_gist _ _ (gist_of_base (base_raise s _ _))

theorem enterSlot_clock (s : State) (good : Bool) : (s.enterSlot good).tbu.clock = s.tbu.clock := by
  unfold State.enterSlot
  extract_lets u
  have hu : u.tbu.clock = s.tbu.clock := history_clock s.tbu _ _
  clear_value u
  split
  · exact (raiseReference_clock _ _ _).trans ((disqualify_clock _).trans hu)
  · split
    · exact (raiseReference_clock _ _ _).trans hu
    · exact hu

theorem takeUnsync_clock (s : State) : s.takeUnsync.tbu.clock = s.tbu.clock := by
  unfold State.takeUnsync
  split
  · exact raiseReference_clock _ _ _
  · rfl

theorem silence_clock : Keeps (fun s t => t.tbu.clock = s.tbu.clock) .silenceSlot := by
  refine startOps_clock.event (fun _ => by unfold exec execSilenceSlot; rfl) fun s => ?_
  split
  · rfl
  · split
    · rfl
    · split
      · exact enterSlot_clock _ _
      · rfl

theorem absent_clock : Keeps (fun s t => t.tbu.clock = s.tbu.clock) .referenceAbsent := by
  refine startOps_clock.event (fun _ => by unfold exec execReferenceAbsent; rfl) fun s => ?_
  split
  · rfl
  · split
    · exact (raiseReference_clock _ _ _).trans (disqualify_clock s.tbu)
    · rfl

theorem adjust_clock (p : Port) (op : Fin 16) (ms : Int) : Keeps (fun s t => t.tbu.clock = s.tbu.clock) (.adjust p op ms) := by
  refine startOps_clock.request (fun _ => by unfold exec execAdjust; rfl) fun s => ?_
  split <;> rfl

/-- Settles O10: only the four commands named write the day, the second, the phase or the length of the second. -/
theorem campusTimeMovers : Obligations.CampusTimeMovers := by
  intro c s t h hpowerOn hboundary hmark hsettime
  suffices hclock : t.tbu.clock = s.tbu.clock by
    simpa only [Tbu.clock, Prod.mk.injEq] using hclock
  have hup : ∀ s : State, s.comeUp.tbu.clock = s.tbu.clock := fun s => clock_of_gist _ _ (gist_comeUp s)
  have hload : ∀ s : State, s.load.tbu.clock = s.tbu.clock := fun s => by
    obtain ⟨_, h⟩ := load_shape s
    rw [h]
  obtain hc | hc | hc | hc := command_sort c
  · exact keeps_plain clock_of_gist hc s t h
  · cases c
    case secondBoundary => exact absurd rfl hboundary
    case referenceMark d m => exact absurd rfl (hmark d m)
    case settime p op d m n => exact absurd rfl (hsettime p op d m n)
    case holdoverAgeUnsync =>
      exact startOps_clock.event (fun _ => by unfold exec execHoldoverAgeUnsync; rfl) takeUnsync_clock s t h
    case silenceSlot => exact silence_clock s t h
    case referenceAbsent => exact absent_clock s t h
    case adjust p op ms => exact adjust_clock p op ms s t h
    all_goals cases hc
  · exact startOps_clock.store hc s t h
  · cases c
    case powerOn good n => exact absurd rfl (hpowerOn good n)
    case powerLoss a b => exact startOps_clock.powerLoss a b s t h
    case controllerRestart failed => exact startOps_clock.restart failed hload hup s t h
    case activate p op r => exact startOps_clock.activate p op r (fun _ => rfl) s t h
    all_goals cases hc

/-! ### The live banks -/

/-- Two plans agree on a region. -/
def agreeOn (r : Region) (x y : Plan) : Prop := copyRegion r y x = x

theorem agreeOn_trans {r : Region} {x y z : Plan} (h : agreeOn r x y) (g : agreeOn r y z) : agreeOn r x z := by
  unfold agreeOn at *
  cases r <;> simp only [copyRegion] at * <;> rw [← g] at h <;> exact h

theorem agreeOn_self (r : Region) (x : Plan) : agreeOn r x x := by cases r <;> rfl

theorem agreeOn_copy {r q : Region} (h : q ≠ r) (x y : Plan) : agreeOn r x (copyRegion q y x) := by
  cases r <;> cases q <;> first | rfl | exact absurd rfl h

theorem agree_of_gist (r : Region) (s t : State) (h : t.gist = s.gist) : agreeOn r s.store.live t.store.live := by
  have hstore : t.store = s.store := congrArg (·.2.2.2.1) h
  rw [hstore]
  exact agreeOn_self r _

theorem timeOps_live (r : Region) : TimeOps fun s t => agreeOn r s.store.live t.store.live :=
  .ofGist (agree_of_gist r) (fun _ _ _ => agreeOn_trans) fun _ _ => agreeOn_self r _

theorem startOps_live (r : Region) : StartOps fun s t => agreeOn r s.store.live t.store.live :=
  .ofGist (.ofGist (agree_of_gist r) (fun _ _ _ => agreeOn_trans) (fun s q h => by rw [setHold_live]; exact agreeOn_self r _)
    (fun _ _ => agreeOn_self r _) (fun _ _ _ _ => agreeOn_self r _) (fun _ _ => agreeOn_self r _) fun _ _ _ => agreeOn_self r _)
    (agree_of_gist r) (fun _ _ => agreeOn_self r _) fun s was => by
      obtain h | h | h := tbuActivation_cases s was <;> rw [h] <;> exact agreeOn_self r _

/-- Settles O11: an activation copies its own region alone, and only the loads write the live banks besides. -/
theorem liveBankMovers : Obligations.LiveBankMovers := by
  intro c s t r h hpowerOn hrestart hactivate
  suffices Keeps (fun s t => agreeOn r s.store.live t.store.live) c from this s t h
  obtain hc | hc | hc | hc := command_sort c
  · exact keeps_plain (agree_of_gist r) hc
  · exact (timeOps_live r).time hc
  · exact (startOps_live r).store hc
  · cases c
    case powerOn good n => exact absurd rfl (hpowerOn good n)
    case powerLoss a b => exact (startOps_live r).powerLoss a b
    case controllerRestart failed => exact absurd rfl (hrestart failed)
    case activate p op q =>
      have hq : q ≠ r := fun e => hactivate p op (e ▸ rfl)
      exact (startOps_live r).activate p op q fun s => agreeOn_copy hq _ _
    all_goals cases hc

end Sys2Proof.Machine
end

