-- ==== Sys2Proof/Proofs/TimeLaw.lean ====
section
/-! Every step keeps the ranges of the Timebase Unit and of the time settings that they rest on (sections 1.1.1, 1.5 and 5.2). -/

set_option autoImplicit false

namespace Sys2Proof.Machine

open Sys2Proof

/-- A later state keeps the ranges where the state had them. -/
def keepsTime (s t : State) : Prop := s.timeLaw → t.timeLaw

theorem keepsTime_of_gist (s t : State) (h : t.gist = s.gist) : keepsTime s t := by
  have hstore : t.store = s.store := congrArg (·.2.2.2.1) h
  have htbu : t.tbu = s.tbu := congrArg (·.2.2.2.2.1) h
  unfold keepsTime State.timeLaw
  rw [hstore, htbu]
  exact id

theorem keepsTime_trans (s t u : State) (h : keepsTime s t) (g : keepsTime t u) : keepsTime s u := g ∘ h

theorem keepsTime_onTbu {s : State} {f : Tbu → Tbu} (hf : s.timeLaw → (f s.tbu).rangeLaw) : keepsTime s (s.onTbu f) :=
  fun h => ⟨hf h, h.2⟩

/-! ### The Plan Store -/

theorem copyRegion_rangeLaw {r : Region} {x y : Plan} (hx : x.cal.timeSet.rangeLaw) (hy : y.cal.timeSet.rangeLaw) :
    (copyRegion r x y).cal.timeSet.rangeLaw := by
  cases r
  case cal => exact hx
  all_goals exact hy

theorem putEntry_rangeLaw {p : Plan} {i : Nat} {e : Entry} (hp : p.cal.timeSet.rangeLaw) (he : e.timeOk) :
    (putEntry p i e).cal.timeSet.rangeLaw := by
  cases e
  case timeSet c => exact he
  all_goals exact hp

theorem storeOps_time : StoreOps keepsTime := by
  refine .ofGist keepsTime_of_gist keepsTime_trans (fun s r h hs => ?_) (fun s r hs => ?_) (fun s i e he hs => ?_)
    (fun s b hs => hs) fun s r good hs => ?_
  all_goals obtain ⟨htbu, hlive, hstaged, himages⟩ := hs
  · exact ⟨htbu, by rwa [setHold_live], by rwa [setHold_staged], by rwa [setHold_images]⟩
  · exact ⟨htbu, hlive, copyRegion_rangeLaw hlive hstaged, himages⟩
  · exact ⟨htbu, hlive, putEntry_rangeLaw hstaged he, himages⟩
  · refine ⟨htbu, hlive, hstaged, ?_⟩
    cases good
    · exact himages
    · exact copyRegion_rangeLaw hlive himages

theorem tbuActivation_time (s : State) (was : Bool) : keepsTime s (s.tbuActivation was) := by
  obtain h | h | h := tbuActivation_cases s was
  · rw [h]
    exact id
  · rw [h]
    exact keepsTime_onTbu fun hs => hs.1
  · rw [h]
    exact keepsTime_onTbu fun hs => hs.1

theorem startOps_time : StartOps keepsTime :=
  .ofGist storeOps_time keepsTime_of_gist (fun _ _ hs => hs) tbuActivation_time

theorem emptyPlan_rangeLaw : emptyPlan.cal.timeSet.rangeLaw := ⟨by decide, by decide⟩

theorem loadRegion_time (s : State) (r : Region) : keepsTime s (s.loadRegion r) := by
  intro ⟨htbu, hlive, hstaged, himages⟩
  refine ⟨htbu, copyRegion_rangeLaw ?_ hlive, hstaged, himages⟩
  split
  · exact himages
  · exact emptyPlan_rangeLaw

theorem load_time (s : State) : keepsTime s s.load := by
  intro hs
  obtain ⟨htbu, hlive, _, himages⟩ := storeOps_time.foldl loadRegion_time allRegions s hs
  exact ⟨htbu, hlive, hlive, himages⟩

theorem slew_zero : (-4000 : Int) ≤ 0 ∧ (0 : Int) ≤ 4000 := by decide

theorem acc_zero : (-3599 : Int) ≤ 0 ∧ (0 : Int) ≤ 3599 := by decide

/-- The battery clock's drift setting is in range, so the one taken from it is. -/
theorem batteryStart_time (s : State) (good : Bool) (n : Nat) : keepsTime s (s.batteryStart good n) := by
  refine keepsTime_onTbu fun ⟨⟨_, _, _, hlen, hbattery⟩, ⟨hlimit, _⟩, _⟩ => ?_
  unfold Tbu.powerOn
  refine startSecond_rangeLaw ?_ hlimit
  have hdrift : -2880 ≤ (if good && s.tbu.battery.valid then s.tbu.battery.drift else 0) ∧
      (if good && s.tbu.battery.valid then s.tbu.battery.drift else 0) ≤ 2880 := by
    split
    · exact hbattery
    · omega
  exact ⟨slew_zero, hdrift, acc_zero, hlen, hdrift⟩

/-! ### The Timebase Unit -/

theorem nextSecond_rangeLaw {t : Tbu} (h : t.rangeLaw) : t.nextSecond.rangeLaw := by
  unfold Tbu.nextSecond
  dsimp only
  split
  · exact h
  · split <;> exact h

theorem loadBattery_rangeLaw {t : Tbu} (h : t.rangeLaw) : t.loadBattery.rangeLaw := by
  unfold Tbu.loadBattery
  split <;> exact h

theorem disqualify_rangeLaw {t : Tbu} (h : t.rangeLaw) : t.disqualify.rangeLaw := by
  unfold Tbu.disqualify
  dsimp only
  split <;> exact h

theorem raise_time (s : State) (k : NoticeKind) (d : Detail) : keepsTime s (s.raise k d) := startOps_time.raise s k d

theorem raiseReference_time (s : State) (ev : RefEvent) (n : Nat) : keepsTime s (s.raiseReference ev n) := raise_time s _ _

theorem startSecond_time (s : State) : keepsTime s s.startSecond :=
  keepsTime_onTbu fun ⟨htbu, ⟨hlimit, _⟩, _⟩ => startSecond_rangeLaw htbu hlimit

theorem loadBattery_time (s : State) : keepsTime s (s.onTbu Tbu.loadBattery) := keepsTime_onTbu fun h => loadBattery_rangeLaw h.1

theorem takeUnsync_time (s : State) : keepsTime s s.takeUnsync := by
  unfold State.takeUnsync
  split
  · exact keepsTime_trans _ _ _ (keepsTime_onTbu (·.1)) (raise_time _ _ _)
  · exact id

theorem ageHoldover_time (s : State) : keepsTime s s.ageHoldover := by
  unfold State.ageHoldover
  split
  · exact keepsTime_onTbu (·.1)
  · exact id

/-- The boundary and the step of the dispatcher and the sequencer leave the Timebase Unit and the Plan Store alone. -/
theorem boundaryEvents_time (s : State) : keepsTime s s.boundaryEvents :=
  keepsTime_of_gist _ _ <| gist_of_base <| (base_lineSeconds _ _).trans <| (base_settle _).trans <| (base_dsqBoundary _).trans <|
    (base_settle _).trans (base_bdsBoundary s)

theorem stepEvents_time (s : State) (a b : CampusMs) :
    keepsTime s (((s.bdsStep a b).settle.dsqStep.settle).lineSeconds true) :=
  keepsTime_of_gist _ _ <| gist_of_base <| (base_lineSeconds _ _).trans <| (base_settle _).trans <| (base_dsqStep _).trans <|
    (base_settle _).trans (base_bdsStep s a b)

theorem stepTo_time (s : State) (before : CampusMs) (cause : StepCause) : keepsTime s (s.stepTo before cause) := by
  intro hs
  have hbegun := loadBattery_time _ (startSecond_time s hs)
  exact stepEvents_time _ _ _ (raise_time _ _ _ (keepsTime_onTbu (·.1) hbegun))

/-- An offset that makes no step is at most 8 times the step threshold, which is the slew remainder's range. -/
theorem offset_le {t : Tbu} {m : Stamp} {threshold : Nat} (h : t.isStep m threshold = false) :
    (t.offset m).natAbs ≤ 8 * threshold := by
  unfold Tbu.isStep at h
  simp only [Bool.or_eq_false_iff, decide_eq_false_iff_not, not_lt] at h
  exact h.2

theorem evaluate_time (s : State) (m : Stamp) : keepsTime s (s.evaluate m) := by
  intro hs
  unfold State.evaluate
  extract_lets u before
  have hu : u.timeLaw := keepsTime_onTbu (·.1) (takeUnsync_time s hs)
  clear_value u before
  split
  case isTrue =>
    refine stepTo_time _ _ _ (keepsTime_onTbu (fun hu => ?_) hu)
    obtain ⟨_, hdrift, _, hlen, hbattery⟩ := hu.1
    exact ⟨slew_zero, hdrift, acc_zero, hlen, hbattery⟩
  case isFalse hstep =>
    refine keepsTime_onTbu (fun ⟨htbu, ⟨_, hthreshold⟩, _⟩ => slewBy_rangeLaw htbu ?_ _) hu
    have hoffset := offset_le (Bool.eq_false_iff.mpr hstep)
    have hthreshold' : u.timeSet.stepThreshold ≤ 500 := hthreshold
    omega

theorem goodMark_time (s : State) (m : Stamp) : keepsTime s (s.goodMark m) := by
  intro hs
  unfold State.goodMark
  dsimp only
  split
  · exact keepsTime_onTbu (·.1) (evaluate_time s m hs)
  · split
    · exact keepsTime_onTbu (·.1) (evaluate_time s m hs)
    · exact keepsTime_onTbu (·.1) hs
  · exact hs

theorem history_rangeLaw {t : Tbu} (h : t.rangeLaw) (xs : List Bool) (n : Nat) :
    ({ t with history := xs, consec := n } : Tbu).rangeLaw := h

theorem enterSlot_time (s : State) (good : Bool) : keepsTime s (s.enterSlot good) := by
  intro hs
  unfold State.enterSlot
  extract_lets u bad
  have hu : u.timeLaw := ⟨history_rangeLaw hs.1 _ _, hs.2⟩
  clear_value u bad
  split
  · exact raise_time _ _ _ (keepsTime_onTbu (fun hu => disqualify_rangeLaw hu.1) hu)
  · split
    · exact raise_time _ _ _ (keepsTime_onTbu (·.1) hu)
    · exact hu

theorem judgeMark_time (s : State) (c : Chain) (m : Option Stamp) : keepsTime s (s.judgeMark c m) := by
  intro hs
  have hslot := enterSlot_time _ (markGood c s.now m) (keepsTime_onTbu (f := fun t => { t with chain := some (nextChain c s.now m) }) (·.1) hs)
  unfold State.judgeMark
  dsimp only
  split
  · exact goodMark_time _ _ hslot
  · exact hslot

theorem secondBoundary_time : Keeps keepsTime .secondBoundary := by
  refine startOps_time.event (fun _ => by unfold exec execSecondBoundary; rfl) fun s hs => ?_
  dsimp only
  split
  · exact hs
  · have hnext : (s.onTbu Tbu.nextSecond).timeLaw := keepsTime_onTbu (fun h => nextSecond_rangeLaw h.1) hs
    exact boundaryEvents_time _ (loadBattery_time _ (ageHoldover_time _ (startSecond_time _ hnext)))

theorem marksAndSilence_time (date : WrittenDate) (time : WrittenTime) :
    Keeps keepsTime (.referenceMark date time) ∧ Keeps keepsTime .silenceSlot ∧ Keeps keepsTime .referenceAbsent ∧
      Keeps keepsTime .holdoverAgeUnsync := by
  refine ⟨startOps_time.event (fun _ => by unfold exec execReferenceMark; rfl) fun s => ?mark,
    startOps_time.event (fun _ => by unfold exec execSilenceSlot; rfl) fun s => ?silence,
    startOps_time.event (fun _ => by unfold exec execReferenceAbsent; rfl) fun s => ?absent,
    startOps_time.event (fun _ => by unfold exec execHoldoverAgeUnsync; rfl) takeUnsync_time⟩
  case mark =>
    split
    · exact id
    · dsimp only
      split
      · exact judgeMark_time s _ _
      · exact keepsTime_onTbu (·.1)
      · exact id
  case silence =>
    split
    · exact id
    · split
      · exact id
      · split
        · exact keepsTime_trans _ _ _ (keepsTime_onTbu (·.1)) (enterSlot_time _ _)
        · exact id
  case absent =>
    split
    · exact id
    · split
      · exact keepsTime_trans _ _ _ (keepsTime_onTbu fun hs => disqualify_rangeLaw hs.1) (raiseReference_time _ .absent s.tbu.badCount)
      · exact id

theorem settime_time (p : Port) (op : Fin 16) (date : WrittenDate) (time : WrittenTime) (n : Nat) :
    Keeps keepsTime (.settime p op date time n) := by
  refine startOps_time.request (fun _ => by unfold exec execSettime; rfl) fun s hs => ?_
  split
  · exact hs
  · split
    · refine stepTo_time _ _ _ (keepsTime_onTbu (fun hu => ?_) (takeUnsync_time s hs))
      obtain ⟨_, hdrift, _, hlen, hbattery⟩ := hu.1
      exact ⟨slew_zero, hdrift, acc_zero, hlen, hbattery⟩
    · exact hs

theorem adjust_time (p : Port) (op : Fin 16) (ms : Int) : Keeps keepsTime (.adjust p op ms) := by
  refine startOps_time.request (fun _ => by unfold exec execAdjust; rfl) fun s hs => ?_
  split
  · exact hs
  · refine keepsTime_onTbu (fun hs => ?_) hs
    obtain ⟨_, hrest⟩ := hs.1
    exact ⟨clampInt_bounds (by decide) _, hrest⟩

theorem exec_time (c : Instr) : Keeps keepsTime c := by
  obtain hc | hc | hc | hc := command_sort c
  · exact keeps_plain keepsTime_of_gist hc
  · cases c
    case secondBoundary => exact secondBoundary_time
    case holdoverAgeUnsync => exact (marksAndSilence_time ⟨0, 0, 0⟩ ⟨0, 0, 0⟩).2.2.2
    case referenceMark d m => exact (marksAndSilence_time d m).1
    case silenceSlot => exact (marksAndSilence_time ⟨0, 0, 0⟩ ⟨0, 0, 0⟩).2.1
    case referenceAbsent => exact (marksAndSilence_time ⟨0, 0, 0⟩ ⟨0, 0, 0⟩).2.2.1
    case settime p op d m n => exact settime_time p op d m n
    case adjust p op ms => exact adjust_time p op ms
    all_goals cases hc
  · exact startOps_time.store hc
  · have hup : ∀ s : State, keepsTime s s.comeUp := fun s => keepsTime_of_gist _ _ (gist_comeUp s)
    cases c
    case powerOn good n => exact startOps_time.powerOn good n load_time hup (batteryStart_time · good n) fun _ _ hs => hs
    case powerLoss a b => exact startOps_time.powerLoss a b
    case controllerRestart failed => exact startOps_time.restart failed load_time hup
    case activate p op r =>
      refine startOps_time.activate p op r fun s ⟨htbu, hlive, hstaged, himages⟩ => ?_
      exact ⟨htbu, copyRegion_rangeLaw hstaged hlive, hstaged, himages⟩
    all_goals cases hc

theorem takeChar_time (s : State) (p : Port) : keepsTime s (s.takeChar p) := by
  obtain heq | ⟨_, _, _, _, heq, _⟩ := takeChar_cases s p <;> rw [heq] <;> exact id

theorem tick_time (s : State) : keepsTime s s.tick := by
  intro hs
  have hchars : ((({ s with now := s.now + 1, tbu := { s.tbu with phase := s.tbu.phase + 1 } } : State).takeChar .a).takeChar .b).timeLaw :=
    takeChar_time _ .b (takeChar_time _ .a hs)
  unfold State.tick
  dsimp only
  split
  · split <;> exact hchars
  · exact hs

/-- Settles O5: every change of the Timebase Unit stays within the ranges, and every write of the time settings is held to them. -/
theorem timeLawKept : Obligations.TimeLawKept := by
  intro s t hs hstep
  obtain ⟨_, rfl⟩ | ⟨c, cs, _, hexec⟩ := step_cases hstep
  · exact tick_time s hs
  · exact exec_time c _ _ hexec hs

end Sys2Proof.Machine
end

