-- ==== Sys2Proof/Proofs/Steady.lean ====
section
/-! Operations that add nothing to the queues and start no drill. `Within` says that the jobs and pages of the later state are some of
those before it; `Steady` says besides that the panel guards and a session's RUNNING are as they were. All of the zone machinery,
the lines, the events of started drills and of bells and pages are steady. -/

set_option autoImplicit false

namespace Sys2Proof.Machine

open Sys2Proof

/-- Nothing enters the Bell Ready Queue, the Page Queue or the effective list. -/
structure Within (s t : State) : Prop where
  jobs : t.jobIds.Sublist s.jobIds
  srcs : t.srcs.Sublist s.srcs
  list : t.bds.list = s.bds.list

/-- What R166 asks of the panel link: its state, the sample time and DRILL-ACK. -/
def Pnl.guard (x : Pnl) : PanelState × Option Nat × Bool := (x.state, x.sampleUntil, x.drillAck.debounced)

/-- Besides, the panel guards stay and no session begins or starts to run. -/
structure Steady (s t : State) : Prop extends Within s t where
  panel : t.pnl.guard = s.pnl.guard
  running : ∀ d, t.dsq.session = some d → s.dsq.session.map Session.running = some d.running

theorem within_refl (s : State) : Within s s := ⟨.refl _, .refl _, rfl⟩

theorem within_trans {s t u : State} (h : Within s t) (g : Within t u) : Within s u :=
  ⟨g.jobs.trans h.jobs, g.srcs.trans h.srcs, g.list.trans h.list⟩

theorem steady_refl (s : State) : Steady s s := ⟨within_refl s, rfl, fun _ hd => hd ▸ rfl⟩

theorem steady_trans {s t u : State} (h : Steady s t) (g : Steady t u) : Steady s u := by
  refine ⟨within_trans h.toWithin g.toWithin, g.panel.trans h.panel, fun d hd => ?_⟩
  obtain ⟨e, he, hrunning⟩ := Option.map_eq_some_iff.mp (g.running d hd)
  exact hrunning ▸ h.running e he

/-- A change outside the blocks of bells, pages, the panel and the sequencer is steady. -/
theorem steady_of_eq {s t : State} (hbds : t.bds = s.bds) (hpgc : t.pgc = s.pgc) (hpnl : t.pnl.guard = s.pnl.guard)
    (hsession : t.dsq.session = s.dsq.session) : Steady s t := by
  refine ⟨⟨?_, ?_, congrArg Bds.list hbds⟩, hpnl, fun d hd => by rw [← hsession, hd]; rfl⟩
  · unfold State.jobIds
    rw [hbds]
  · unfold State.srcs
    rw [hpgc]

/-- The zone machinery is steady, by the frames of its operations. -/
theorem steady_of_rest {s t : State} (hrest : t.rest = s.rest) (hsess : t.sess = s.sess) (hjobs : t.jobsIn s.jobIds)
    (hsrcs : t.srcs.Sublist s.srcs) : Steady s t := by
  have hlist : t.rest.bds.list = s.rest.bds.list := by rw [hrest]
  have hpnl : t.rest.pnl.guard = s.rest.pnl.guard := by rw [hrest]
  refine ⟨⟨hjobs, hsrcs, hlist⟩, hpnl, fun d hd => ?_⟩
  rw [← running_of_sess hsess, hd]
  rfl

theorem sublist_of_srcs {s t : State} (h : t.srcs = s.srcs) : t.srcs.Sublist s.srcs := h ▸ .refl _

/-! ### Zones and trunks -/

section
variable (s : State)

theorem steady_settle : Steady s s.settle :=
  steady_of_rest (rest_settle s) (sess_settle s) (jobs_settle s (jobs_self s)) (srcs_settle s)

theorem steady_raiseAt (p : Port) (k : NoticeKind) (d : Detail) : Steady s (s.raiseAt p k d) := steady_of_eq rfl rfl rfl rfl

theorem steady_rejudge : Steady s s.rejudge := by
  refine steady_of_eq (rejudge_bds s) (rejudge_pgc s) ?_ ?_
  · rw [rejudge_pnl]
  · rw [rejudge_dsq]

theorem steady_lasting : Lasting Steady where
  refl := steady_refl
  trans := steady_trans
  settled := steady_settle
  rejudged := steady_rejudge
  port _ _ _ := steady_of_eq rfl rfl rfl rfl
  raised := steady_raiseAt
  field _ _ := steady_of_eq rfl rfl rfl rfl

theorem steady_raise (k : NoticeKind) (d : Detail) : Steady s (s.raise k d) := (steady_lasting).raise s k d

theorem steady_setZone (z : Nat) (r : ZoneRec) : Steady s (s.setZone z r) := steady_of_eq rfl rfl rfl rfl

theorem steady_setTrunk (t : Nat) (u : Option TrunkUse) : Steady s (s.setTrunk t u) := steady_of_eq rfl rfl rfl rfl

theorem steady_setLine (l : Nat) (x : LineSt) : Steady s (s.setLine l x) := steady_of_eq rfl rfl rfl rfl

theorem steady_onLine (l : Nat) (f : LineSt → LineSt) : Steady s (s.onLine l f) := steady_setLine s l _

theorem steady_push (w : List Work) : Steady s (s.push w) := steady_of_eq rfl rfl rfl rfl

theorem steady_later (w : Work) : Steady s (s.later w) :=
  steady_of_rest (rest_later s w) (sess_later s w) (jobs_later s w (jobs_self s)) (sublist_of_srcs (srcs_later s w))

theorem steady_output (z : Nat) (alarm : Bool) : Steady s (s.output z alarm) :=
  steady_of_rest (rest_output s z alarm) (sess_output s z alarm) (jobs_output s z alarm (jobs_self s))
    (sublist_of_srcs (srcs_output s z alarm))

theorem steady_setWanted (z : Nat) (b t : Option Nat) : Steady s (s.setWanted z b t) :=
  steady_of_rest (rest_setWanted s z b t) (sess_setWanted s z b t) (jobs_setWanted s z b t (jobs_self s))
    (sublist_of_srcs (srcs_setWanted s z b t))

theorem steady_updatePart (n z : Nat) (f : Part → Part) : Steady s (s.updatePart n z f) :=
  steady_of_rest (rest_updatePart s n z f) (sess_updatePart s n z f) (jobs_updatePart s n z f (jobs_self s))
    (sublist_of_srcs (srcs_updatePart s n z f))

theorem steady_updatePage (n : Nat) (f : Page → Page) (h : ∀ p, (f p).source = p.source) : Steady s (s.updatePage n f) :=
  steady_of_rest (rest_updatePage s n f) (sess_updatePage s n f) (jobs_updatePage s n f (jobs_self s))
    (sublist_of_srcs (srcs_updatePage s n f h))

theorem steady_dropPart (n z : Nat) (r : DropReason) : Steady s (s.dropPart n z r) :=
  steady_of_rest (rest_dropPart s n z r) (sess_dropPart s n z r) (jobs_dropPart s n z r (jobs_self s))
    (sublist_of_srcs (srcs_dropPart s n z r))

theorem steady_donePart (n z : Nat) : Steady s (s.donePart n z) :=
  steady_of_rest (rest_donePart s n z) (sess_donePart s n z) (jobs_donePart s n z (jobs_self s))
    (sublist_of_srcs (srcs_donePart s n z))

theorem steady_pageLoses (n z : Nat) (r : LossReason) : Steady s (s.pageLoses n z r) :=
  steady_of_rest (rest_pageLoses s n z r) (sess_pageLoses s n z r) (jobs_pageLoses s n z r (jobs_self s))
    (sublist_of_srcs (srcs_pageLoses s n z r))

theorem steady_joinWaits (w : Wait) (r : DeferReason) : Steady s (s.joinWaits w r) :=
  steady_of_rest (rest_joinWaits s w r) (sess_joinWaits s w r) (jobs_joinWaits s w r (jobs_self s))
    (sublist_of_srcs (srcs_joinWaits s w r))

theorem steady_joinGroup (w : Wait) : Steady s (s.joinGroup w) :=
  steady_of_rest (rest_joinGroup s w) (sess_joinGroup s w) (jobs_joinGroup s w (jobs_self s)) (sublist_of_srcs (srcs_joinGroup s w))

theorem steady_clearWaits (z : Nat) (r : DropReason) : Steady s (s.clearWaits z r) :=
  steady_of_rest (rest_clearWaits s z r) (sess_clearWaits s z r) (jobs_clearWaits s z r (jobs_self s))
    (sublist_of_srcs (srcs_clearWaits s z r))

theorem steady_bellTakes (n z : Nat) (tone : Option (Nat × Nat)) : Steady s (s.bellTakes n z tone) :=
  steady_of_rest (rest_bellTakes s n z tone) (sess_bellTakes s n z tone) (jobs_bellTakes s n z tone (jobs_self s))
    (sublist_of_srcs (srcs_bellTakes s n z tone))

theorem steady_forceTakes (n z : Nat) (tone : Option (Nat × Nat)) : Steady s (s.forceTakes n z tone) :=
  steady_of_rest (rest_forceTakes s n z tone) (sess_forceTakes s n z tone) (jobs_forceTakes s n z tone (jobs_self s))
    (sublist_of_srcs (srcs_forceTakes s n z tone))

theorem steady_claimAlarm (zs : List Nat) : Steady s (s.claimAlarm zs) :=
  steady_of_rest (rest_claimAlarm s zs) (sess_claimAlarm s zs) (jobs_claimAlarm s zs (jobs_self s))
    (sublist_of_srcs (srcs_claimAlarm s zs))

theorem steady_claimDrill (zs : List Nat) : Steady s (s.claimDrill zs) :=
  steady_of_rest (rest_claimDrill s zs) (sess_claimDrill s zs) (jobs_claimDrill s zs (jobs_self s))
    (sublist_of_srcs (srcs_claimDrill s zs))

theorem steady_returnZone (z : Nat) : Steady s (s.returnZone z) :=
  steady_of_rest (rest_returnZone s z) (sess_returnZone s z) (jobs_returnZone s z (jobs_self s))
    (sublist_of_srcs (srcs_returnZone s z))

theorem steady_holdersEnd (zs : List Nat) : Steady s (s.holdersEnd zs) :=
  steady_of_rest (rest_holdersEnd s zs) (sess_holdersEnd s zs) (jobs_holdersEnd s zs (jobs_self s))
    (sublist_of_srcs (srcs_holdersEnd s zs))

theorem steady_releaseZones (mine : Holder → Bool) (under : Suspended → Bool) (zs : List Nat) :
    Steady s (s.releaseZones mine under zs) :=
  steady_of_rest (rest_releaseZones s mine under zs) (sess_releaseZones s mine under zs)
    (jobs_releaseZones s mine under zs (jobs_self s)) (sublist_of_srcs (srcs_releaseZones s mine under zs))

theorem steady_releaseNow (kept : List Nat) : Steady s (s.releaseNow kept) :=
  steady_of_rest (rest_releaseNow s kept) (sess_releaseNow s kept) (jobs_releaseNow s kept (jobs_self s))
    (sublist_of_srcs (srcs_releaseNow s kept))

theorem steady_loseZone (z : Nat) : Steady s (s.loseZone z) :=
  steady_of_rest (rest_loseZone s z) (sess_loseZone s z) (jobs_loseZone s z (jobs_self s)) (sublist_of_srcs (srcs_loseZone s z))

theorem steady_lineDown (l : Nat) : Steady s (s.lineDown l) :=
  steady_of_rest (rest_lineDown s l) (sess_lineDown s l) (jobs_lineDown s l (jobs_self s)) (sublist_of_srcs (srcs_lineDown s l))

theorem steady_lineUp (l : Nat) : Steady s (s.lineUp l) :=
  steady_of_rest (rest_lineUp s l) (sess_lineUp s l) (jobs_lineUp s l (jobs_self s)) (sublist_of_srcs (srcs_lineUp s l))

theorem steady_sortPage (n : Nat) : Steady s (s.sortPage n) :=
  steady_of_rest (rest_sortPage s n) (sess_sortPage s n) (jobs_sortPage s n (jobs_self s)) (sublist_of_srcs (srcs_sortPage s n))

theorem steady_enterLive (n t : Nat) : Steady s (s.enterLive n t) :=
  steady_of_rest (rest_enterLive s n t) (sess_enterLive s n t) (jobs_enterLive s n t (jobs_self s))
    (sublist_of_srcs (srcs_enterLive s n t))

theorem steady_expireWaits (n : Nat) : Steady s (s.expireWaits n) :=
  steady_of_rest (rest_expireWaits s n) (sess_expireWaits s n) (jobs_expireWaits s n (jobs_self s))
    (sublist_of_srcs (srcs_expireWaits s n))

theorem steady_raiseStage : Steady s s.raiseStage :=
  steady_of_rest (rest_raiseStage s) (sess_raiseStage s) (jobs_raiseStage s (jobs_self s)) (sublist_of_srcs (srcs_raiseStage s))

theorem steady_releaseDrillTrunk : Steady s s.releaseDrillTrunk :=
  steady_of_rest (rest_releaseDrillTrunk s) (sess_releaseDrillTrunk s) (jobs_releaseDrillTrunk s (jobs_self s))
    (sublist_of_srcs (srcs_releaseDrillTrunk s))

theorem steady_seekDrillTrunk : Steady s s.seekDrillTrunk :=
  steady_of_rest (rest_seekDrillTrunk s) (sess_seekDrillTrunk s) (jobs_seekDrillTrunk s (jobs_self s))
    (sublist_of_srcs (srcs_seekDrillTrunk s))

theorem steady_raisePageEnd (p : Page) (r : PageReason) : Steady s (s.raisePageEnd p r) := steady_raise s _ _

end

theorem steady_foldl {α : Type} {f : State → α → State} (hf : ∀ s a, Steady s (f s a)) (xs : List α) (s : State) :
    Steady s (xs.foldl f s) := (steady_lasting).foldl hf xs s

/-! ### Bells and pages -/

theorem steady_soundChange (s : State) (j : Job) (p : Part) : Steady s (s.soundChange j p) := by
  unfold State.soundChange
  split
  case h_1 t c _ _ =>
    extract_lets mine u v
    have hu : Steady s u := by
      change Steady s (if _ then _ else _)
      split
      · exact steady_setWanted s _ _ _
      · exact steady_refl s
    split
    · exact steady_trans hu (steady_updatePart u _ _ _)
    · have hv : Steady s v := steady_trans hu (steady_updatePart u _ _ _)
      split
      · exact steady_trans hv (steady_trans (steady_donePart v _ _) (steady_holdersEnd _ _))
      · exact steady_trans hv (steady_trans (steady_donePart v _ _) (steady_holdersEnd _ _))
      · exact hv
  case h_2 => exact steady_refl s

theorem steady_toneOver (s : State) (t j g : Nat) : Steady s (s.toneOver t j g) := by
  unfold State.toneOver
  extract_lets zs done u v w
  have hu : Steady s u := steady_foldl (fun s z => steady_updatePart s _ _ _) zs s
  have hv : Steady u v := steady_foldl (fun s z => steady_setWanted s _ _ _) zs u
  have hw : Steady v w := steady_foldl (fun s z => steady_donePart s _ _) done v
  exact steady_trans (steady_trans hu hv) (steady_trans hw (steady_trans (steady_holdersEnd w done) (steady_later _ _)))

theorem steady_endPage (s : State) (n : Nat) (r : PageReason) : Steady s (s.endPage n r) := by
  unfold State.endPage
  split
  · exact steady_refl s
  · dsimp only
    have hended := steady_updatePage s n (fun p => { p with state := .ended r, waiting := [] }) fun _ => rfl
    split
    · exact steady_trans hended (steady_releaseZones _ _ _ _)
    · exact hended

/-! ### The lines -/

section
variable (s : State) (l : Nat)

theorem steady_refreshDegraded : Steady s (s.refreshDegraded l) := steady_foldl (fun s z => steady_setZone s z _) _ _

theorem steady_onDevices (f : FieldDev → FieldDev) : Steady s (s.onDevices l f) := by
  unfold State.onDevices
  exact steady_foldl (fun s a => steady_lasting.field s _) _ _

theorem steady_enterDiscovery : Steady s (s.enterDiscovery l) := steady_trans (steady_onLine s l _) (steady_refreshDegraded _ l)

theorem steady_enterRun : Steady s (s.enterRun l) :=
  steady_trans (steady_onLine s l _) (steady_trans (steady_raise _ _ _) (steady_lineUp _ l))

theorem steady_enterLost : Steady s (s.enterLost l) := by
  unfold State.enterLost
  dsimp only
  have hlost := fun f => steady_trans (steady_onLine s l f) (steady_raise _ .line (.line l .lost))
  split
  · exact steady_trans (hlost _) (steady_lineDown _ l)
  · exact hlost _

theorem steady_discoveryEnds : Steady s (s.discoveryEnds l) := by
  unfold State.discoveryEnds
  dsimp only
  split
  · exact steady_trans (steady_onLine s l _) (steady_enterRun _ l)
  · exact steady_trans (steady_onLine s l _) (steady_enterLost _ l)

theorem steady_lineRecovers : Steady s (s.lineRecovers l) := steady_trans (steady_onLine s l _) (steady_enterRun _ l)

theorem steady_enterFault : Steady s (s.enterFault l) := steady_trans (steady_onLine s l _) (steady_raise _ _ _)

theorem steady_raiseTestEnd : Steady s (s.raiseTestEnd l) := by
  unfold State.raiseTestEnd
  split
  · exact steady_raise s _ _
  · exact steady_refl s

theorem steady_takeResult (r : TestResult) (cause : Option AbortCause) : Steady s (s.takeResult l r cause) :=
  steady_trans (steady_onLine s l _) (steady_raiseTestEnd _ l)

theorem steady_abortTest (cause : AbortCause) : Steady s (s.abortTest l cause) := by
  unfold State.abortTest
  dsimp only
  have htaken := steady_takeResult s l .aborted (some cause)
  split
  · exact steady_refl s
  · split
    · split
      · exact htaken
      · exact steady_trans htaken (steady_onLine _ l _)
    · exact steady_trans htaken (steady_enterDiscovery _ l)

theorem steady_bringUp : Steady s (s.bringUp l) := by
  have hoff := steady_trans (steady_trans (steady_setLine s l (s.broughtUp l)) (steady_onDevices _ l FieldDev.lineOff))
    (steady_refreshDegraded _ l)
  unfold State.bringUp
  dsimp only
  split
  · exact steady_trans hoff (steady_lineDown _ l)
  · exact hoff

theorem steady_restartLine : Steady s (s.restartLine l) := by
  unfold State.restartLine
  split
  · exact steady_trans (steady_takeResult s l _ _) (steady_bringUp _ l)
  · exact steady_bringUp s l

theorem steady_beginTest (mode : TestMode) (n : Nat) : Steady s (s.beginTest l mode n) := by
  unfold State.beginTest
  dsimp only
  split
  · exact steady_trans (steady_onLine s l _) (steady_lineDown _ l)
  · exact steady_onLine s l _

theorem steady_enterPowering : Steady s (s.enterPowering l) := steady_trans (steady_onLine s l _) (steady_onDevices _ l _)

theorem steady_changeRec (a : Nat) (r : DevRec) : Steady s (s.changeRec l a r) := by
  unfold State.changeRec
  dsimp only
  have hset := steady_trans (steady_onLine s l fun x => x.setRec a r) (steady_refreshDegraded _ l)
  split
  · exact hset
  · exact steady_trans hset (steady_raise _ _ _)

theorem steady_discoverRec (a : Nat) (r : DevRec) : Steady s (s.discoverRec l a r) := by
  unfold State.discoverRec
  split
  · exact steady_trans (steady_onLine s l _) (steady_refreshDegraded _ l)
  · exact steady_changeRec s l a r

theorem steady_reconcile (a : Nat) (report : Report) : Steady s (s.reconcile l a report) := by
  unfold State.reconcile
  split
  · exact steady_refl s
  · extract_lets r agrees
    clear_value agrees
    split
    · exact steady_refl s
    · exact steady_onLine s l _

theorem steady_ampFlag (a : Nat) (fault : Bool) : Steady s (s.ampFlag l a fault) := by
  unfold State.ampFlag
  dsimp only
  split
  · exact steady_changeRec s l a _
  · exact steady_changeRec s l a _
  · exact steady_refl s

theorem steady_correctClock (a h m sec : Nat) : Steady s (s.correctClock l a h m sec) := by
  unfold State.correctClock
  dsimp only
  split
  · exact steady_refl s
  · split
    · exact steady_changeRec s l a _
    · split
      · split
        · exact steady_trans (steady_changeRec s l a _) (steady_onLine _ l _)
        · exact steady_trans (steady_onLine s l _) (steady_trans (steady_refreshDegraded _ l) (steady_raise _ _ _))
      · exact steady_refl s

theorem steady_compareReport (a : Nat) (report : Report) : Steady s (s.compareReport l a report) := by
  have hreconciled : ∀ (b : Bool), Steady s (if b then s.reconcile l a report else s) := by
    intro b
    split
    · exact steady_reconcile s l a report
    · exact steady_refl s
  unfold State.compareReport
  dsimp only
  split
  · split
    · split
      · exact steady_correctClock s l a _ _ _
      · exact steady_refl s
    · exact hreconciled _
    · split
      · exact steady_refl s
      · exact steady_trans (hreconciled _) (steady_ampFlag _ l a _)
    · exact steady_refl s
  · exact steady_refl s

theorem steady_discoverNext : Steady s (s.discoverNext l) := by
  unfold State.discoverNext
  dsimp only
  split
  · exact steady_discoveryEnds s l
  · exact steady_setLine s l _

theorem steady_lossHistory (good : Bool) : Steady s (s.lossHistory l good) := by
  unfold State.lossHistory
  extract_lets x n u w v
  have hu : Steady s u := steady_setLine s l _
  have hv : Steady s v := steady_setLine s l _
  split
  · split
    · exact steady_trans hu (steady_enterLost u l)
    · exact hu
  · split
    · exact steady_trans hv (steady_lineRecovers v l)
    · exact hv
  · exact steady_refl s

theorem steady_judgeReply (a : Nat) (g : GoodReply) : Steady s (s.judgeReply l a g) := by
  unfold State.judgeReply
  dsimp only
  split
  · exact steady_discoverRec s l a _
  · exact steady_changeRec s l a _

theorem steady_takeMiss (a : Nat) : Steady s (s.takeMiss l a) := by
  unfold State.takeMiss
  dsimp only
  have hset := steady_setLine s l { s.lineAt l with transaction := none }
  split
  · exact hset
  · split
    · split
      · exact hset
      · exact steady_trans hset (steady_trans (steady_discoverRec _ l a _) (steady_discoverNext _ l))
    · exact steady_trans hset (steady_trans (steady_changeRec _ l a _) (steady_lossHistory _ l _))

theorem steady_lineSeconds (b : Bool) : Steady s (s.lineSeconds b) := steady_foldl (fun s l => steady_onLine s l _) _ _

end

/-! ### Drill sessions -/

section
variable (s : State)

/-- A session whose RUNNING is as it was. -/
theorem steady_session {d e : Session} (hd : s.dsq.session = some d) (he : e.running = d.running) :
    Steady s (s.withSession (some e)) := by
  refine ⟨⟨.refl _, .refl _, rfl⟩, rfl, fun f hf => ?_⟩
  rw [hd, ← Option.some.inj hf, he]
  rfl

theorem steady_withSession_none : Steady s (s.withSession none) := ⟨⟨.refl _, .refl _, rfl⟩, rfl, fun _ hd => nomatch hd⟩

theorem steady_onSession {f : Session → Session} (hf : ∀ d, (f d).running = d.running) : Steady s (s.onSession f) := by
  unfold State.onSession
  cases hd : s.dsq.session with
  | none => exact steady_withSession_none s
  | some d => exact steady_session s hd (hf d)

theorem steady_setDrillReq (b : Bool) : Steady s (s.setDrillReq b) := steady_of_eq rfl rfl rfl rfl

theorem steady_writeRecord (x : RecordSource) : Steady s (s.writeRecord x) := steady_of_eq rfl rfl rfl rfl

theorem setResults_running (f : Session → Nat → Session) (hf : ∀ d l, (f d l).running = d.running) (ls : List Nat) (d : Session) :
    (ls.foldl f d).running = d.running := by
  induction ls generalizing d with
  | nil => rfl
  | cons l ls ih => exact (ih _).trans (hf d l)

theorem steady_endTiming : Steady s s.endTiming := by
  refine steady_onSession s fun d => ?_
  split
  · refine setResults_running _ (fun d l => ?_) _ d
    split <;> rfl
  · rfl

theorem steady_closeSession (d : Session) (r : DrillReason) : Steady s (s.closeSession d r) :=
  steady_trans (steady_writeRecord s _) (steady_trans (steady_raise _ _ _) (steady_withSession_none _))

theorem steady_endSession (r : DrillReason) : Steady s (s.endSession r) := by
  unfold State.endSession
  split
  · exact steady_refl s
  · extract_lets u v w
    have hu : Steady s u := steady_trans (steady_endTiming s) (steady_onSession _ fun _ => rfl)
    have hv : Steady u v := steady_trans (steady_releaseZones u _ _ _) (steady_settle _)
    have hw : Steady v w := steady_trans (steady_releaseDrillTrunk v) (steady_setDrillReq _ _)
    have hsw := steady_trans hu (steady_trans hv hw)
    split
    · exact steady_trans hsw (steady_closeSession w _ _)
    · exact hsw

/-- However it ends, a session is gone. -/
theorem endSession_vacant (r : DrillReason) : (s.endSession r).dsq.session = none := by
  unfold State.endSession
  split
  case h_1 h => exact h
  · dsimp only
    split
    · rfl
    case h_2 h => exact h

theorem steady_restartSession : Steady s s.restartSession := by
  unfold State.restartSession
  split
  · exact steady_trans (steady_endTiming s) (steady_closeSession _ _ _)
  · exact steady_refl s

theorem steady_drillOutputs : Steady s s.drillOutputs := by
  refine steady_foldl (fun s z => ?_) _ _
  split
  · exact steady_setWanted s _ _ _
  · exact steady_refl s

theorem steady_retuneDrill : Steady s s.retuneDrill := by
  unfold State.retuneDrill
  split
  · exact steady_refl s
  · split
    · exact steady_setTrunk s _ _
    · exact steady_refl s

theorem stageBegun_running (d : Session) (k : Nat) (c : StageCopy) : (s.stageBegun d k c).running = d.running := by
  unfold State.stageBegun
  dsimp only
  split <;> rfl

theorem steady_beginStage (k : Nat) : Steady s (s.beginStage k) := by
  unfold State.beginStage
  split
  · exact steady_refl s
  case h_2 d hd =>
    split
    · exact steady_refl s
    case h_2 c _ =>
      extract_lets u v w
      have hu : Steady s u := steady_session s hd (stageBegun_running s d k c)
      have hv : Steady u v := by
        refine steady_trans ?_ (steady_drillOutputs _)
        split
        · exact steady_retuneDrill u
        · exact steady_releaseDrillTrunk u
      have hw : Steady v w := steady_trans (steady_seekDrillTrunk v) (steady_settle _)
      have htold : Steady w (w.raiseStage.onSession fun d => { d with announced := true }) :=
        steady_trans (steady_raiseStage w) (steady_onSession _ fun _ => rfl)
      exact steady_trans (steady_trans hu hv) (steady_trans hw htold)

theorem steady_endStage : Steady s s.endStage := by
  unfold State.endStage
  dsimp only
  split
  · exact steady_endTiming s
  · split
    · exact steady_trans (steady_endTiming s) (steady_beginStage _ _)
    · exact steady_trans (steady_endTiming s) (steady_endSession _ _)

theorem steady_drillChange : Steady s s.drillChange := by
  unfold State.drillChange
  split
  · exact steady_refl s
  case h_2 d hd =>
    split
    · exact steady_refl s
    · have hnext : ∀ next, Steady s (s.withSession (some { d with nextChange := next })) := fun _ => steady_session s hd rfl
      exact steady_trans (hnext _) (steady_drillOutputs _)

theorem setResult_running (d : Session) (l : Nat) (r : BuildingResult) : (d.setResult l r).running = d.running := rfl

theorem steady_clearLine {d : Session} (hd : s.dsq.session = some d) (l : Nat) : Steady s (s.clearLine d l) := by
  unfold State.clearLine
  extract_lets e u
  have hu : Steady s u := steady_session s hd (setResult_running d l (.cleared ((s.now - d.stageSince) / 8)))
  split
  · exact steady_trans hu (steady_endStage u)
  · exact hu

theorem steady_clearReport (l a n : Nat) : Steady s (s.clearReport l a n) := by
  unfold State.clearReport
  split
  · exact steady_refl s
  case h_2 d hd =>
    split
    · split
      · exact steady_session s hd rfl
      · split
        · exact steady_refl s
        · exact steady_clearLine s hd l
    · exact steady_refl s

theorem steady_handClear (l a : Nat) (report : Report) : Steady s (s.handClear l a report) := by
  unfold State.handClear
  split
  · exact steady_clearReport s l a _
  · exact steady_refl s

theorem steady_takeReply (l a start : Nat) (g : GoodReply) : Steady s (s.takeReply l a start g) := by
  unfold State.takeReply
  dsimp only
  have hset := steady_onLine s l fun x => x.reported a start g
  split
  · exact steady_trans hset (steady_handClear _ l a _)
  · have hjudged := steady_trans hset <| steady_trans (steady_judgeReply _ l a g) <|
      steady_trans (steady_compareReport _ l a g.report) (steady_handClear _ l a g.report)
    split
    · exact steady_trans hjudged (steady_discoverNext _ l)
    · exact steady_trans hjudged (steady_lossHistory _ l true)

end

end Sys2Proof.Machine
end

