-- ==== Sys2Proof/Proofs/OrderedLists.lean ====
section
/-! The ordered lists of the dispatcher: insertion by time of day, by due time and by priority, the effective list (R91) that the first
gives, and the free numbers of jobs and pages (R123, R135). -/

set_option autoImplicit false

namespace Sys2Proof.Machine

open Sys2Proof

/-! ### Insertion -/

/-- Insertion behind all that is not later by a key. -/
def insertBy {α : Type} (key : α → Nat) (x : α) : List α → List α
  | [] => [x]
  | y :: ys => if key y ≤ key x then y :: insertBy key x ys else x :: y :: ys

section
variable {α : Type} {key : α → Nat}

theorem insertBy_perm (x : α) (l : List α) : (insertBy key x l).Perm (x :: l) := by
  induction l with
  | nil => exact .refl _
  | cons y ys ih =>
    rw [insertBy]
    split
    · exact (ih.cons y).trans (.swap x y ys)
    · exact .refl _

theorem insertBy_sorted (x : α) (l : List α) (h : l.Pairwise fun a b => key a ≤ key b) :
    (insertBy key x l).Pairwise fun a b => key a ≤ key b := by
  induction l with
  | nil => exact List.pairwise_singleton _ _
  | cons y ys ih =>
    obtain ⟨hy, hys⟩ := List.pairwise_cons.mp h
    rw [insertBy]
    split
    case isTrue hle =>
      refine List.pairwise_cons.mpr ⟨fun a ha => ?_, ih hys⟩
      obtain rfl | ha := List.mem_cons.mp ((insertBy_perm x ys).mem_iff.mp ha)
      · exact hle
      · exact hy a ha
    case isFalse hlt =>
      refine List.pairwise_cons.mpr ⟨fun a ha => ?_, h⟩
      obtain rfl | ha := List.mem_cons.mp ha
      · omega
      · have := hy a ha
        omega

/-- Insertion goes behind the entries of the same key. -/
theorem insertBy_filter (x : α) (n : Nat) (l : List α) (h : l.Pairwise fun a b => key a ≤ key b) :
    ((insertBy key x l).filter fun e => decide (key e = n)) = (l ++ [x]).filter fun e => decide (key e = n) := by
  induction l with
  | nil => rfl
  | cons y ys ih =>
    obtain ⟨hy, hys⟩ := List.pairwise_cons.mp h
    rw [insertBy]
    split
    case isTrue hle =>
      simp only [List.cons_append, List.filter_cons, ih hys]
    case isFalse hlt =>
      by_cases hx : key x = n
      · have hnone : ((y :: ys).filter fun e => decide (key e = n)) = [] := by
          refine List.filter_eq_nil_iff.mpr fun a ha => ?_
          have hya : key y ≤ key a := (List.mem_cons.mp ha).elim (fun e => e ▸ le_rfl) (hy a)
          simp only [decide_eq_true_eq]
          omega
        rw [List.filter_append, hnone, List.filter_cons, hnone]
        simp [hx]
      · rw [List.filter_append, List.filter_cons]
        simp [hx]

/-- Inserting the entries of a list in turn. -/
theorem foldl_insertBy (es acc : List α) (h : acc.Pairwise fun a b => key a ≤ key b) :
    (es.foldl (fun l x => insertBy key x l) acc).Pairwise (fun a b => key a ≤ key b) ∧
      (es.foldl (fun l x => insertBy key x l) acc).Perm (acc ++ es) ∧
      ∀ n, ((es.foldl (fun l x => insertBy key x l) acc).filter fun e => decide (key e = n)) =
        (acc ++ es).filter fun e => decide (key e = n) := by
  induction es generalizing acc with
  | nil => exact ⟨h, by rw [List.append_nil]; exact .refl _, fun n => by rw [List.append_nil]; rfl⟩
  | cons e es ih =>
    obtain ⟨hsorted, hperm, hfilter⟩ := ih (insertBy key e acc) (insertBy_sorted e acc h)
    have hmove : (insertBy key e acc ++ es).Perm (acc ++ e :: es) :=
      ((insertBy_perm e acc).append_right es).trans List.perm_middle.symm
    refine ⟨hsorted, hperm.trans hmove, fun n => (hfilter n).trans ?_⟩
    rw [List.filter_append, insertBy_filter e n acc h, ← List.filter_append, List.append_assoc]
    rfl

end

theorem insertByTime_eq (x : ListEntry) (l : List ListEntry) : insertByTime x l = insertBy ListEntry.time x l := by
  induction l with
  | nil => rfl
  | cons y ys ih => rw [insertByTime, insertBy, ih]

/-- Settles O30: insertion keeps the order of time, adds each entry once and goes behind those of the same time. -/
theorem effectiveListInOrder : Obligations.EffectiveListInOrder := by
  intro p day
  have hinsert : (fun l x => insertByTime x l) = fun l x => insertBy ListEntry.time x l := by
    funext l x
    exact insertByTime_eq x l
  unfold effectiveList
  rw [hinsert]
  exact foldl_insertBy _ [] .nil

theorem insertJob_split (j : Job) (l : List Job) :
    ∃ before after, l = before ++ after ∧ insertJob j l = before ++ j :: after ∧
      (∀ x, x ∈ before → x.due.count ≤ j.due.count) ∧ ∀ x, after.head? = some x → j.due.count < x.due.count := by
  induction l with
  | nil => exact ⟨[], [], rfl, rfl, by simp, by simp⟩
  | cons y ys ih =>
    rw [insertJob]
    split
    case isTrue hle =>
      obtain ⟨before, after, hys, hinsert, hbefore, hafter⟩ := ih
      refine ⟨y :: before, after, congrArg _ hys, congrArg _ hinsert, fun x hx => ?_, hafter⟩
      obtain rfl | hx := List.mem_cons.mp hx
      · exact hle
      · exact hbefore x hx
    case isFalse hlt =>
      exact ⟨[], y :: ys, rfl, rfl, (fun _ h => nomatch h), fun x hx => Option.some.inj hx ▸ Nat.lt_of_not_le hlt⟩

theorem insertJob_perm (j : Job) (l : List Job) : (insertJob j l).Perm (j :: l) := by
  obtain ⟨before, after, hl, hinsert, _⟩ := insertJob_split j l
  rw [hinsert, hl]
  exact List.perm_middle

theorem insertPage_perm (p : Page) (l : List Page) : (insertPage p l).Perm (p :: l) := by
  induction l with
  | nil => exact .refl _
  | cons y ys ih =>
    rw [insertPage]
    split
    · exact (ih.cons y).trans (.swap p y ys)
    · exact .refl _

/-! ### The keys of the effective list -/

theorem slots_listed {d : Dpl} {p : Nat} {e : ListEntry} (h : e ∈ d.slots p) : e.key.listed = true := by
  obtain ⟨k, _, hk⟩ := List.mem_filterMap.mp h
  obtain ⟨_, _, rfl⟩ := Option.map_eq_some_iff.mp hk
  rfl

theorem addPart_listed {os : List (Nat × Override)} {e : ListEntry} (h : e ∈ addPart os) : e.key.listed = true := by
  obtain ⟨o, _, ho⟩ := List.mem_filterMap.mp h
  split at ho
  · exact Option.some.inj ho ▸ rfl
  · cases ho

theorem effectiveList_listed {b : Plan} {day : Nat} {e : ListEntry} (h : e ∈ effectiveList b day) : e.key.listed = true := by
  obtain ⟨_, hperm, _⟩ := effectiveListInOrder b day
  obtain h | h := List.mem_append.mp (hperm.mem_iff.mp h)
  · split at h
    · exact slots_listed (List.mem_of_mem_filter h)
    · cases h
  · exact addPart_listed h

/-! ### Free numbers -/

/-- The number after another, from 1 to 255 in a circle. -/
def nextOf (n : Nat) : Nat := if 255 ≤ n then 1 else n + 1

theorem nextOf_range (n : Nat) : 1 ≤ nextOf n ∧ nextOf n ≤ 255 := by
  unfold nextOf
  split <;> omega

/-- A search ends at a number that is not used, or every number that it tried is used. -/
theorem nextNumber_cases (used : List Nat) (k n : Nat) :
    (nextNumber used k n ∉ used ∧ 1 ≤ nextNumber used k n ∧ nextNumber used k n ≤ 255) ∨
      ∀ i, i < k → nextOf^[i + 1] n ∈ used := by
  induction k generalizing n with
  | zero => exact .inr fun i hi => absurd hi (Nat.not_lt_zero i)
  | succ k ih =>
    have hstep : nextNumber used (k + 1) n = if used.contains (nextOf n) then nextNumber used k (nextOf n) else nextOf n := rfl
    rw [hstep]
    split
    case isTrue hused =>
      refine (ih (nextOf n)).imp id fun htried i hi => ?_
      cases i with
      | zero => exact List.contains_iff_mem.mp hused
      | succ i => exact htried i (Nat.lt_of_succ_lt_succ hi)
    case isFalse hfree => exact .inl ⟨fun hmem => hfree (List.contains_iff_mem.mpr hmem), nextOf_range n⟩

theorem iterate_nextOf (n i : Nat) : nextOf^[i + 1] n = (nextOf n - 1 + i) % 255 + 1 := by
  have hrange := nextOf_range n
  induction i with
  | zero =>
    show nextOf n = _
    omega
  | succ i ih =>
    rw [Function.iterate_succ_apply', ih]
    generalize nextOf n - 1 = m
    unfold nextOf
    split <;> omega

/-- Fewer than 255 numbers in use leave one free, which the search finds. -/
theorem nextNumber_free {used : List Nat} (h : used.length < 255) (n : Nat) :
    nextNumber used 256 n ∉ used ∧ 1 ≤ nextNumber used 256 n ∧ nextNumber used 256 n ≤ 255 := by
  refine (nextNumber_cases used 256 n).resolve_right fun htried => ?_
  have hnodup : ((List.range 255).map fun i => nextOf^[i + 1] n).Nodup := by
    refine List.Nodup.map_on (fun i hi k hk hik => ?_) List.nodup_range
    rw [iterate_nextOf, iterate_nextOf] at hik
    have := List.mem_range.mp hi
    have := List.mem_range.mp hk
    omega
  have hsubset : ((List.range 255).map fun i => nextOf^[i + 1] n) ⊆ used := by
    intro m hm
    obtain ⟨i, hi, rfl⟩ := List.mem_map.mp hm
    exact htried i (Nat.lt_succ_of_lt (List.mem_range.mp hi))
  have hlength := (hnodup.subperm hsubset).length_le
  rw [List.length_map, List.length_range] at hlength
  omega

end Sys2Proof.Machine
end

