-- ==== Sys2Proof/Proofs/QueueAndDrillLaws.lean ====
section
/-! Every step keeps the laws of the queues (R124, R135) and of drill sessions (R166). Most operations are steady; what is left is the
entry of a job and of a page, the start of a drill, and the panel, whose alarms end the session. -/

set_option autoImplicit false

namespace Sys2Proof.Machine

open Sys2Proof

/-! ### The laws by what they look at -/

theorem bellLaw_iff (s : State) :
    s.bellLaw ↔ s.jobIds.length ≤ 8 ∧ (s.jobIds.map fun x => (x.1, x.2.1)).Nodup ∧ (∀ x, x ∈ s.jobIds → x.1.fits x.2.2 = true) ∧
      ∀ e, e ∈ s.bds.list → e.key.listed = true := by
  simp only [State.bellLaw, State.jobIds, List.length_map, List.map_map, List.forall_mem_map, Function.comp_def]

theorem pageLaw_iff (s : State) : s.pageLaw ↔ s.srcs.length ≤ 3 ∧ s.srcs.Nodup := by
  simp only [State.pageLaw, State.srcs, List.length_map]

/-- The laws of the queues and of the drill session are kept. -/
def Lawful (s t : State) : Prop := (s.bellLaw ∧ s.pageLaw → t.bellLaw ∧ t.pageLaw) ∧ (s.drillLaw → t.drillLaw)

theorem lawful_refl (s : State) : Lawful s s := ⟨id, id⟩

theorem lawful_trans {s t u : State} (h : Lawful s t) (g : Lawful t u) : Lawful s u := ⟨g.1 ∘ h.1, g.2 ∘ h.2⟩

theorem queueLaws_of_within {s t : State} (h : Within s t) : s.bellLaw ∧ s.pageLaw → t.bellLaw ∧ t.pageLaw := by
  rw [bellLaw_iff, bellLaw_iff, pageLaw_iff, pageLaw_iff, h.list]
  intro ⟨⟨hlength, hnodup, hfits, hlist⟩, hpages, hsources⟩
  exact ⟨⟨h.jobs.length_le.trans hlength, hnodup.sublist (h.jobs.map _), fun x hx => hfits x (h.jobs.subset hx), hlist⟩,
    h.srcs.length_le.trans hpages, hsources.sublist h.srcs⟩

/-- R166's law by the panel guards. -/
theorem drillLaw_iff (s : State) :
    s.drillLaw ↔ ∀ d, s.dsq.session = some d →
      s.pnl.guard.1 = .normal ∧ s.pnl.guard.2.1 = none ∧ (d.running = true → s.pnl.guard.2.2 = true) := Iff.rfl

theorem drillLaw_of_steady {s t : State} (h : Steady s t) (hs : s.drillLaw) : t.drillLaw := by
  rw [drillLaw_iff] at *
  intro d hd
  obtain ⟨e, he, hrunning⟩ := Option.map_eq_some_iff.mp (h.running d hd)
  rw [h.panel, ← hrunning]
  exact hs e he

theorem drillLaw_of_vacant {s : State} (h : s.dsq.session = none) : s.drillLaw := fun _ hd => nomatch h.symm.trans hd

theorem vacant_of_steady {s t : State} (h : Steady s t) (hs : s.dsq.session = none) : t.dsq.session = none := by
  cases hd : t.dsq.session with
  | none => rfl
  | some d =>
    have hrunning := h.running d hd
    rw [hs] at hrunning
    cases hrunning

/-- Outside panel state NORMAL, and while the inputs are sampled, no session exists. -/
theorem vacant_of_guard {s : State} (hs : s.drillLaw) (h : s.pnl.state ≠ .normal ∨ s.pnl.sampleUntil.isSome = true) :
    s.dsq.session = none := by
  cases hd : s.dsq.session with
  | none => rfl
  | some d =>
    obtain ⟨hnormal, hsampled, _⟩ := hs d hd
    obtain h | h := h
    · exact absurd hnormal h
    · rw [hsampled] at h
      cases h

theorem lawful_of_steady {s t : State} (h : Steady s t) : Lawful s t := ⟨queueLaws_of_within h.toWithin, drillLaw_of_steady h⟩

theorem lawful_of_vacant {s t : State} (h : Within s t) (ht : s.drillLaw → t.dsq.session = none) : Lawful s t :=
  ⟨queueLaws_of_within h, fun hs => drillLaw_of_vacant (ht hs)⟩

theorem lawful_lasting : Lasting Lawful where
  refl := lawful_refl
  trans := lawful_trans
  settled s := lawful_of_steady (steady_settle s)
  rejudged s := lawful_of_steady (steady_rejudge s)
  port _ _ _ := lawful_of_steady (steady_of_eq rfl rfl rfl rfl)
  raised s p k d := lawful_of_steady (steady_raiseAt s p k d)
  field _ _ := lawful_of_steady (steady_of_eq rfl rfl rfl rfl)

/-! ### Jobs and pages -/

theorem steady_bds (s : State) (b : Bds) (hq : b.queue = s.bds.queue) (hl : b.list = s.bds.list) :
    Steady s { s with bds := b } := by
  refine ⟨⟨?_, .refl _, hl⟩, rfl, fun d hd => by rw [show s.dsq.session = some d from hd]; rfl⟩
  unfold State.jobIds
  rw [hq]

theorem steady_claimPart (n : Nat) (s : State) (p : Part) : Steady s (State.claimPart n s p) := by
  unfold State.claimPart
  dsimp only
  split
  · split
    · exact steady_joinGroup s _
    · exact steady_bellTakes s _ _ _
  · split
    · split
      · exact steady_dropPart s _ _ _
      · split
        · exact steady_joinGroup s _
        · exact steady_forceTakes s _ _ _
    · exact steady_joinWaits s _ _
  · exact steady_dropPart s _ _ _

theorem steady_claimJob (s : State) (j : Job) : Steady s (s.claimJob j) := by
  unfold State.claimJob
  refine steady_trans (steady_foldl (steady_claimPart j.num) j.parts s) (steady_trans ?_ (steady_settle _))
  split
  · exact steady_push _ _
  · exact steady_refl _

theorem jobNumber_fresh {s : State} (h : s.bds.queue.length ≤ 8) (j : Job) (hj : j ∈ s.bds.queue) : j.num ≠ s.jobNumber := by
  have hlength : (s.bds.queue.map Job.num).length < 255 := by
    rw [List.length_map]
    omega
  intro e
  have hused : s.jobNumber ∈ s.bds.queue.map Job.num := e ▸ List.mem_map_of_mem hj
  exact (nextNumber_free hlength s.bds.lastJob).1 hused

/-- A new job's key and date are no other job's. -/
theorem newJob_key_fresh {s : State} {x : JobSource} (hs : s.bellLaw) (hfree : s.jobRefused x = none) (j : Job)
    (hj : j ∈ s.bds.queue) : (j.key, j.day) ≠ ((s.newJob x).key, (s.newJob x).day) := by
  obtain ⟨hlength, _, hfits, _⟩ := hs
  intro e
  obtain ⟨hkey, hday⟩ := Prod.mk.inj e
  cases hx : x.key with
  | none =>
    have hmanual : j.key = .manual s.jobNumber := hkey.trans (by simp [State.newJob, hx])
    have hnum := hfits j hj
    rw [hmanual] at hnum
    exact jobNumber_fresh hlength j hj (of_decide_eq_true hnum).symm
  | some k =>
    have hk : j.key = k := hkey.trans (by simp [State.newJob, hx])
    unfold State.jobRefused at hfree
    split at hfree
    · cases hfree
    · split at hfree
      · cases hfree
      case isFalse hany =>
        refine hany (List.any_eq_true.mpr ⟨j, hj, ?_⟩)
        have hday' : j.day = x.due.day := hday
        simp [hx, hk, hday']

theorem queue_room {s : State} {x : JobSource} (h : s.jobRefused x = none) : s.bds.queue.length < 8 := by
  unfold State.jobRefused at h
  split at h
  · cases h
  · omega

theorem newJob_fits {s : State} {x : JobSource} (hkey : ∀ k, x.key = some k → k.listed = true) :
    (s.newJob x).key.fits (s.newJob x).num = true := by
  cases hx : x.key with
  | none => simp [State.newJob, hx, EntryKey.fits]
  | some k =>
    have hlisted := hkey k hx
    have hk : (s.newJob x).key = k := by simp [State.newJob, hx]
    rw [hk]
    cases k
    case manual => cases hlisted
    all_goals rfl

/-- The queue with a new job in it keeps R124's law. -/
theorem inserted_bellLaw {s : State} {x : JobSource} (hs : s.bellLaw) (hfree : s.jobRefused x = none)
    (hkey : ∀ k, x.key = some k → k.listed = true) (b : Bds) (hq : b.queue = insertJob (s.newJob x) s.bds.queue)
    (hl : b.list = s.bds.list) : ({ s with bds := b } : State).bellLaw := by
  have hfresh := newJob_key_fresh hs hfree
  obtain ⟨_, hnodup, hfits, hlist⟩ := hs
  have hperm : b.queue.Perm (s.newJob x :: s.bds.queue) := hq ▸ insertJob_perm _ _
  refine ⟨?length, ?nodup, fun j hj => ?fits, fun e he => hlist e (hl ▸ he)⟩
  case length =>
    rw [hperm.length_eq]
    exact queue_room hfree
  case nodup =>
    rw [(hperm.map _).nodup_iff]
    refine List.nodup_cons.mpr ⟨fun hmem => ?_, hnodup⟩
    obtain ⟨j, hj, e⟩ := List.mem_map.mp hmem
    exact hfresh j hj e
  case fits =>
    obtain rfl | hj := List.mem_cons.mp (hperm.mem_iff.mp hj)
    · exact newJob_fits hkey
    · exact hfits j hj

/-- A job with an empty pattern or no part takes its number and is over; any other enters the queue and its parts are claimed. -/
theorem enterJob_cases (s : State) (x : JobSource) :
    (((s.newJob x).timeline.isEmpty || (s.newJob x).parts.isEmpty) = true ∧
        s.enterJob x = { s with bds := { s.bds with lastJob := (s.newJob x).num } }) ∨
      (((s.newJob x).timeline.isEmpty || (s.newJob x).parts.isEmpty) = false ∧
        s.enterJob x = ({ s with bds := { s.bds with
          lastJob := (s.newJob x).num, queue := insertJob (s.newJob x) s.bds.queue } } : State).claimJob (s.newJob x)) := by
  unfold State.enterJob
  dsimp only
  split
  case isTrue h => exact .inl ⟨h, rfl⟩
  case isFalse h => exact .inr ⟨Bool.eq_false_iff.mpr h, rfl⟩

/-- A job that enters has a fresh key and date; the drill session is not touched. -/
theorem enterJob_lawful (s : State) (x : JobSource) :
    (s.jobRefused x = none → (∀ k, x.key = some k → k.listed = true) →
      s.bellLaw ∧ s.pageLaw → (s.enterJob x).bellLaw ∧ (s.enterJob x).pageLaw) ∧ (s.drillLaw → (s.enterJob x).drillLaw) := by
  obtain ⟨_, heq⟩ | ⟨_, heq⟩ := enterJob_cases s x
  · rw [heq]
    obtain ⟨hqueues, hdrill⟩ := lawful_of_steady (steady_bds s { s.bds with lastJob := (s.newJob x).num } rfl rfl)
    exact ⟨fun _ _ => hqueues, hdrill⟩
  · rw [heq]
    obtain ⟨hqueues, hdrill⟩ := lawful_of_steady (steady_claimJob { s with bds := { s.bds with
      lastJob := (s.newJob x).num, queue := insertJob (s.newJob x) s.bds.queue } } (s.newJob x))
    exact ⟨fun hfree hkey hs => hqueues ⟨inserted_bellLaw hs.1 hfree hkey _ rfl rfl, hs.2⟩, fun hs => hdrill hs⟩

theorem lawful_enterPage (s : State) (p : Port) (op : Fin 16) (a : PageAsk)
    (hfree : (s.pgc.queue.any fun q => q.source = a.source) = false) : Lawful s (s.enterPage p op a) := by
  have hentered : ∀ (pg : Page) (n m : Nat), pg.source = a.source →
      Lawful s { s with pgc := { queue := insertPage pg s.pgc.queue, lastPage := n, arrivals := m } } := by
    intro pg n m hpg
    refine ⟨fun ⟨hbell, _, hnodup⟩ => ⟨hbell, ?_⟩, id⟩
    have hperm : (insertPage pg s.pgc.queue).Perm (pg :: s.pgc.queue) := insertPage_perm _ _
    have hfresh : (insertPage pg s.pgc.queue).map Page.source |>.Nodup := by
      rw [(hperm.map _).nodup_iff]
      refine List.nodup_cons.mpr ⟨fun hmem => ?_, hnodup⟩
      obtain ⟨q, hq, e⟩ := List.mem_map.mp hmem
      exact Bool.eq_false_iff.mp hfree (List.any_eq_true.mpr ⟨q, hq, decide_eq_true (e.trans hpg)⟩)
    refine ⟨?_, hfresh⟩
    have hthree := (hfresh.subperm (l₂ := [.micA, .micB, .aux]) fun src _ => by cases src <;> simp).length_le
    rwa [List.length_map] at hthree
  unfold State.enterPage
  extract_lets pg u v
  have hv : Lawful s v := lawful_trans (hentered pg _ _ rfl) (lawful_of_steady (steady_sortPage u pg.num))
  split
  · exact lawful_trans hv (lawful_of_steady (steady_later v _))
  · exact hv

/-! ### The panel and the start of drills -/

/-- A change of the panel record leaves the queues and the session. -/
theorem within_pnl (s : State) (x : Pnl) : Within s { s with pnl := x } := ⟨.refl _, .refl _, rfl⟩

theorem within_setPanel (s : State) (st : PanelState) (ev : PanelEvent) : Within s (s.setPanel st ev) :=
  within_trans (within_pnl s _) (steady_raise _ _ _).toWithin

theorem setPanel_session (s : State) (st : PanelState) (ev : PanelEvent) : (s.setPanel st ev).dsq.session = s.dsq.session := rfl

theorem within_withSession (s : State) (d : Option Session) : Within s (s.withSession d) := ⟨.refl _, .refl _, rfl⟩

/-- A change of a panel input that leaves DRILL-ACK's debounced value is steady. -/
theorem steady_onInput (s : State) (i : PanelInput) (f : InputSt → InputSt)
    (hf : i = .drillAck → (f s.pnl.drillAck).debounced = s.pnl.drillAck.debounced) : Steady s (s.onInput i f) := by
  refine ⟨⟨.refl _, .refl _, rfl⟩, ?_, fun d hd => ?_⟩
  · cases i
    case drillAck => exact congrArg (fun b => (s.pnl.state, s.pnl.sampleUntil, b)) (hf rfl)
    all_goals rfl
  · rw [show s.dsq.session = some d from hd]
    rfl

theorem steady_shows (s : State) (i : PanelInput) (raw : RawLevel) : Steady s (s.onInput i fun x => x.shows raw s.now) := by
  refine steady_onInput s i _ fun _ => ?_
  unfold InputSt.shows
  split <;> rfl

theorem steady_rewireInput (s : State) (i : PanelInput) : Steady s (s.rewireInput i) := by
  unfold State.rewireInput
  dsimp only
  split
  · exact steady_trans (steady_onInput s i _ fun _ => rfl) (steady_raise _ _ _)
  · exact steady_refl s

/-- A drill starts only with DRILL-ACK active and the panel NORMAL, and keeps both. -/
theorem enterRunning_lawful (s : State) :
    Within s s.enterRunning ∧ (s.pnl.guard = (.normal, none, true) → s.enterRunning.drillLaw) := by
  unfold State.enterRunning
  split
  case h_1 hnone => exact ⟨within_refl s, fun _ => drillLaw_of_vacant hnone⟩
  case h_2 d hd =>
    extract_lets u v zs w
    have hu : Within s u := within_withSession s _
    have hlaw : s.pnl.guard = (.normal, none, true) → u.drillLaw := by
      intro hguard
      rw [drillLaw_iff]
      intro e _
      rw [show u.pnl.guard = _ from hguard]
      exact ⟨rfl, rfl, fun _ => rfl⟩
    have huv : Steady u v := steady_foldl (fun s l => steady_abortTest s l .drill) _ u
    have hvw : Steady v w := steady_onSession v fun _ => rfl
    have hend : Steady w (((w.claimDrill (zs.map Prod.fst)).settle).beginStage 0) :=
      steady_trans (steady_claimDrill w _) (steady_trans (steady_settle _) (steady_beginStage _ 0))
    have hall := steady_trans huv (steady_trans hvw hend)
    exact ⟨within_trans hu hall.toWithin, fun hguard => drillLaw_of_steady hall (hlaw hguard)⟩

theorem untroubled_unsampled {x : Pnl} (h : x.troubled = false) : x.sampleUntil = none := by
  cases hx : x.sampleUntil with
  | none => rfl
  | some t => simp [Pnl.troubled, Pnl.causes, hx] at h

/-- A session created in panel state NORMAL, and none while the inputs are sampled, keeps R166's law. -/
theorem lawful_startDrill (s : State) (o : DrillOrigin) (n : Nat) (b : List Nat) (hnormal : s.pnl.state = .normal)
    (hquiet : s.pnl.troubled = false) : Lawful s (s.createSession o n b).enterRequesting := by
  have hsample := untroubled_unsampled hquiet
  unfold State.enterRequesting
  extract_lets u
  have hu : Within s u := within_trans (within_withSession s _) (steady_setDrillReq _ true).toWithin
  have hguard : u.pnl.guard = (.normal, none, u.pnl.drillAck.debounced) :=
    congrArg₂ (fun a b => (a, b, s.pnl.drillAck.debounced)) hnormal hsample
  have hsession : ∀ d, u.dsq.session = some d → d.running = false := fun d hd => Option.some.inj hd ▸ rfl
  split
  case isTrue hack =>
    rw [hack] at hguard
    obtain ⟨hwithin, hlaw⟩ := enterRunning_lawful u
    exact ⟨queueLaws_of_within (within_trans hu hwithin), fun _ => hlaw hguard⟩
  case isFalse =>
    refine ⟨queueLaws_of_within hu, fun _ => (drillLaw_iff u).mpr fun d hd => ?_⟩
    rw [hguard, hsession d hd]
    exact ⟨rfl, rfl, fun h => nomatch h⟩

theorem steady_writeSkipped (s : State) (n : Nat) (b : List Nat) : Steady s (s.writeSkipped n b) := steady_writeRecord s _

/-! ### Alarms -/

theorem within_takeover (s : State) : Within s s.takeover := by
  unfold State.takeover
  extract_lets zs _ u v
  have hu : Within s u := within_pnl s _
  have hv : Steady u v := steady_foldl (fun s l => steady_abortTest s l .alarm) allLines u
  have hend := steady_trans hv (steady_trans (steady_claimAlarm v zs) (steady_trans (steady_settle _) (steady_endSession _ .abortedAlarm)))
  exact within_trans hu hend.toWithin

theorem takeover_vacant (s : State) : s.takeover.dsq.session = none := endSession_vacant _ _

theorem steady_reclaim (s : State) : Steady s s.reclaim := steady_claimAlarm s _

/-- Releasing the alarm's zones and returning to NORMAL leaves the queues, and no session where there was none. -/
theorem restored_vacant (s : State) : Within s s.restored ∧ (s.dsq.session = none → s.restored.dsq.session = none) := by
  have hset := within_trans (within_pnl s { s.pnl with restoreAt := none, alarmSet := [] }) (within_setPanel _ .normal .normal)
  have hrelease := steady_releaseZones (({ s with pnl := { s.pnl with restoreAt := none, alarmSet := [] } } : State).setPanel .normal .normal)
    Holder.isAlarm Suspended.isAlarm allZones
  exact ⟨within_trans hset hrelease.toWithin, fun hs => vacant_of_steady hrelease hs⟩

theorem enterRestoring_vacant (s : State) (again : Bool) :
    Within s (s.enterRestoring again) ∧ (s.dsq.session = none → (s.enterRestoring again).dsq.session = none) := by
  unfold State.enterRestoring
  extract_lets d kept _ u v
  have hu : Within s u := within_trans (within_pnl s _) (within_setPanel _ _ _)
  have hv : Steady u v := by
    change Steady u (if _ then _ else _)
    split
    · exact steady_reclaim u
    · exact steady_refl u
  have hsv : Within s v ∧ (s.dsq.session = none → v.dsq.session = none) :=
    ⟨within_trans hu hv.toWithin, fun hs => vacant_of_steady hv hs⟩
  clear_value v
  split
  · have hfreed := steady_releaseNow v kept
    obtain ⟨hwithin, hvacant⟩ := restored_vacant (v.releaseNow kept)
    exact ⟨within_trans hsv.1 (within_trans hfreed.toWithin hwithin), fun hs => hvacant (vacant_of_steady hfreed (hsv.2 hs))⟩
  · exact hsv

/-- An alarm leaves no session, where there was none outside panel state NORMAL. -/
theorem alarmRises_vacant (s : State) :
    Within s s.alarmRises ∧ ((s.pnl.state ≠ .normal → s.dsq.session = none) → s.alarmRises.dsq.session = none) := by
  unfold State.alarmRises
  split
  · exact ⟨within_trans (within_setPanel s _ _) (within_takeover _), fun _ => takeover_vacant _⟩
  case h_2 hstate =>
    exact ⟨within_trans (within_pnl s _) (within_setPanel _ _ _), fun hs => hs (by rw [hstate]; decide)⟩
  case h_3 hnot _ => exact ⟨within_refl s, fun hs => hs hnot⟩

/-- The other inputs of the alarm act outside panel state NORMAL alone, and bring no session. -/
theorem alarmInputs_lawful (s : State) : Lawful s s.alarmFalls ∧ Lawful s s.silenceRises ∧ Lawful s s.silenceFalls := by
  have hstate : ∀ st : PanelState, st ≠ .normal → s.pnl.state = st → s.drillLaw → s.dsq.session = none := fun st hst h hs =>
    vacant_of_guard hs (.inl (h ▸ hst))
  have hback : ∀ st ev, Within s (s.setPanel st ev).reclaim ∧ (s.dsq.session = none → (s.setPanel st ev).reclaim.dsq.session = none) :=
    fun st ev => ⟨within_trans (within_setPanel s st ev) (steady_reclaim _).toWithin, fun hs => vacant_of_steady (steady_reclaim _) hs⟩
  refine ⟨?_, ?_, ?_⟩
  · unfold State.alarmFalls
    split
    case h_1 h =>
      obtain ⟨hwithin, hvacant⟩ := enterRestoring_vacant s false
      exact lawful_of_vacant hwithin fun hs => hvacant (hstate _ (by decide) h hs)
    case h_2 h =>
      obtain ⟨hwithin, hvacant⟩ := enterRestoring_vacant s true
      exact lawful_of_vacant hwithin fun hs => hvacant (hstate _ (by decide) h hs)
    case h_3 => exact lawful_refl s
  · unfold State.silenceRises
    split
    case h_1 h => exact lawful_of_vacant (within_setPanel s _ _) fun hs => hstate _ (by decide) h hs
    case h_2 h _ => exact lawful_of_vacant (hback _ _).1 fun hs => (hback _ _).2 (hstate _ (by decide) h hs)
    case h_3 => exact lawful_refl s
  · unfold State.silenceFalls
    split
    case h_1 h _ => exact lawful_of_vacant (hback _ _).1 fun hs => (hback _ _).2 (hstate _ (by decide) h hs)
    case h_2 => exact lawful_refl s

theorem lawful_alarmRises (s : State) : Lawful s s.alarmRises := by
  obtain ⟨hwithin, hvacant⟩ := alarmRises_vacant s
  exact lawful_of_vacant hwithin fun hs => hvacant fun hstate => vacant_of_guard hs (.inl hstate)

theorem steady_raisePanel (s : State) (ev : PanelEvent) : Steady s (s.raisePanel ev) := steady_raise s _ _

/-- DRILL-ACK rising starts the session that waits for it, or the panel's own. -/
theorem lawful_ackRises (s : State) (hsample : s.pnl.sampleUntil = none) :
    Lawful s ((s.onInput .drillAck fun x => { x with debounced := true }).drillAckRises) := by
  have hquiet : ∀ u : State, u.pnl.state = .normal → u.pnl.sampleUntil = none → u.pnl.drillAck.debounced = true →
      u.pnl.guard = (.normal, none, true) := fun u h h' h'' => by rw [← h, ← h', ← h'']; rfl
  obtain ⟨u, hu⟩ : ∃ u, u = s.onInput .drillAck fun x => { x with debounced := true } := ⟨_, rfl⟩
  have hstate : u.pnl.state = s.pnl.state := hu ▸ rfl
  have hsampleU : u.pnl.sampleUntil = none := hu ▸ hsample
  have hack : u.pnl.drillAck.debounced = true := hu ▸ rfl
  have hsession : u.dsq.session = s.dsq.session := hu ▸ rfl
  have hwithin : Within s u := hu ▸ within_pnl s _
  rw [← hu]
  unfold State.drillAckRises
  split
  case h_1 d hd =>
    have hnormal : s.drillLaw → u.pnl.state = .normal := fun hs => hstate.trans (hs d (hsession ▸ hd)).1
    have hlaw : s.drillLaw → u.drillLaw := fun hs e _ => ⟨hnormal hs, hsampleU, fun _ => hack⟩
    split
    · exact ⟨queueLaws_of_within hwithin, hlaw⟩
    · obtain ⟨hrun, hrunLaw⟩ := enterRunning_lawful u
      exact ⟨queueLaws_of_within (within_trans hwithin hrun), fun hs => hrunLaw (hquiet u (hnormal hs) hsampleU hack)⟩
  case h_2 hnone =>
    split
    · have htold := steady_raise u .drill (.drill (.refused ‹_›))
      exact lawful_of_vacant (within_trans hwithin htold.toWithin) fun _ => vacant_of_steady htold hnone
    case h_2 hmay =>
      have hnormal : u.pnl.state = .normal := by
        unfold State.panelDrillRefused at hmay
        split at hmay
        · cases hmay
        case isFalse h => exact not_not.mp h
      extract_lets n
      have hmade : Within u ((u.createSession .panel n (u.program n).building).setDrillReq true) :=
        within_trans (within_withSession u _) (steady_setDrillReq _ true).toWithin
      obtain ⟨hrun, hrunLaw⟩ := enterRunning_lawful ((u.createSession .panel n (u.program n).building).setDrillReq true)
      exact ⟨queueLaws_of_within (within_trans hwithin (within_trans hmade hrun)),
        fun _ => hrunLaw (hquiet u hnormal hsampleU hack)⟩

/-- DRILL-ACK falling ends a session that runs. -/
theorem lawful_ackFalls (s : State) :
    Lawful s ((s.onInput .drillAck fun x => { x with debounced := false }).drillAckFalls) := by
  obtain ⟨u, hu⟩ : ∃ u, u = s.onInput .drillAck fun x => { x with debounced := false } := ⟨_, rfl⟩
  have hpanel : u.pnl.state = s.pnl.state ∧ u.pnl.sampleUntil = s.pnl.sampleUntil := hu ▸ ⟨rfl, rfl⟩
  have hsession : u.dsq.session = s.dsq.session := hu ▸ rfl
  have hwithin : Within s u := hu ▸ within_pnl s _
  rw [← hu]
  unfold State.drillAckFalls
  split
  case h_1 d hd =>
    split
    · exact lawful_of_vacant (within_trans hwithin (steady_endSession u _).toWithin) fun _ => endSession_vacant u _
    case isFalse hidle =>
      refine ⟨queueLaws_of_within hwithin, fun hs e he => ?_⟩
      obtain ⟨hnormal, hsample, _⟩ := hs e (hsession ▸ he)
      refine ⟨hpanel.1.trans hnormal, hpanel.2.trans hsample, fun hrunning => ?_⟩
      rw [Option.some.inj (hd.symm.trans he)] at hidle
      exact absurd hrunning hidle
  case h_2 hnone => exact lawful_of_vacant hwithin fun _ => hnone

theorem lawful_inputChanged (s : State) (i : PanelInput) (v : Bool) (hsample : s.pnl.sampleUntil = none) :
    Lawful s ((s.onInput i fun x => { x with debounced := v }).inputChanged i v) := by
  have hother : ∀ j, j ≠ .drillAck → Lawful s (s.onInput j fun x => { x with debounced := v }) := fun j hj =>
    lawful_of_steady (steady_onInput s j _ fun h => absurd h hj)
  obtain ⟨hfalls, hrises, hquiets⟩ := alarmInputs_lawful (s.onInput i fun x => { x with debounced := v })
  cases i
  case drillAck =>
    cases v
    · exact lawful_ackFalls s
    · exact lawful_ackRises s hsample
  case alarm =>
    refine lawful_trans (hother .alarm (by decide)) ?_
    cases v
    · exact hfalls
    · exact lawful_alarmRises _
  case trouble =>
    refine lawful_trans (hother .trouble (by decide)) ?_
    cases v <;> exact lawful_of_steady (steady_raisePanel _ _)
  case silence =>
    refine lawful_trans (hother .silence (by decide)) ?_
    cases v
    · exact hquiets
    · exact hrises

theorem lawful_debounceInput (s : State) (i : PanelInput) : Lawful s (s.debounceInput i) := by
  unfold State.debounceInput
  extract_lets x
  split
  · split
    case isTrue hdue =>
      have hsample : s.pnl.sampleUntil = none := by
        cases hx : s.pnl.sampleUntil with
        | none => rfl
        | some t => simp [Pnl.sampling, hx] at hdue
      exact lawful_inputChanged s i _ hsample
    case isFalse => exact lawful_refl s
  · exact lawful_refl s

theorem lawful_redebounce (s : State) : Lawful s s.redebounce :=
  lawful_lasting.foldl (fun s i => lawful_trans (lawful_debounceInput s i) (lawful_of_steady (steady_rewireInput _ i))) allInputs s

/-- The sample ends while no session exists, and an alarm found active brings none. -/
theorem lawful_sampleDone (s : State) (begun : Nat) (h : s.pnl.sampleUntil.isSome = true) : Lawful s (s.sampleDone begun) := by
  have hsampled : ∀ (is : List PanelInput) (u : State),
      Within u (is.foldl (fun s i => s.onInput i fun x => x.sampled begun) u) ∧
        (is.foldl (fun s i => s.onInput i fun x => x.sampled begun) u).dsq.session = u.dsq.session := by
    intro is
    induction is with
    | nil => exact fun u => ⟨within_refl u, rfl⟩
    | cons i is ih =>
      intro u
      obtain ⟨hwithin, hsession⟩ := ih (u.onInput i fun x => x.sampled begun)
      exact ⟨within_trans (within_pnl u _) hwithin, hsession⟩
  unfold State.sampleDone
  extract_lets u _ v w
  obtain ⟨hu, huSession⟩ : Within s u ∧ u.dsq.session = s.dsq.session := hsampled allInputs s
  have hv : Within u v := within_pnl u _
  have hw : Steady v w := steady_foldl (fun s _ => steady_raisePanel s .trouble) v.pnl.causes v
  have hvacant : s.drillLaw → w.dsq.session = none := fun hs =>
    vacant_of_steady hw (huSession.trans (vacant_of_guard hs (.inr h)))
  have hsw := within_trans hu (within_trans hv hw.toWithin)
  split
  · obtain ⟨hrises, hnone⟩ := alarmRises_vacant w
    exact lawful_of_vacant (within_trans hsw hrises) fun hs => hnone fun _ => hvacant hs
  · exact lawful_of_vacant hsw hvacant

theorem lawful_restored (s : State) (h : s.pnl.state = .restoring) : Lawful s s.restored := by
  obtain ⟨hwithin, hvacant⟩ := restored_vacant s
  exact lawful_of_vacant hwithin fun hs => hvacant (vacant_of_guard hs (.inl (by rw [h]; decide)))

/-! ### The dispatcher and the sequencer -/

theorem fire_lawful (now : Stamp) (s : State) (e : ListEntry) :
    (e.key.listed = true → s.bellLaw ∧ s.pageLaw → (State.fire now s e).bellLaw ∧ (State.fire now s e).pageLaw) ∧
      (s.drillLaw → (State.fire now s e).drillLaw) := by
  unfold State.fire
  extract_lets due x
  split
  · obtain ⟨hqueues, hdrill⟩ := lawful_of_steady (steady_raise s .bellOverrun (.bellOverrun e.key due ‹_›))
    exact ⟨fun _ => hqueues, hdrill⟩
  case h_2 hfree =>
    obtain ⟨hqueues, hdrill⟩ := enterJob_lawful s x
    exact ⟨fun he => hqueues hfree fun k hk => Option.some.inj hk ▸ he, hdrill⟩

theorem lawful_formList (s : State) : Lawful s s.formList :=
  ⟨fun ⟨⟨hlength, hnodup, hfits, _⟩, hpages⟩ => ⟨⟨hlength, hnodup, hfits, fun _ he => effectiveList_listed he⟩, hpages⟩, id⟩

theorem lawful_freshList (s : State) : Lawful s s.freshList := by
  unfold State.freshList
  split
  · exact lawful_refl s
  · exact lawful_formList s

theorem lawful_setMark (s : State) (m : Stamp) : Lawful s (s.setMark m) := lawful_of_steady (steady_bds s _ rfl rfl)

/-- Entries of the effective list fire one after the other, each with a key of the list. -/
theorem lawful_fires (now : Stamp) (s : State) (es : List ListEntry) (hes : ∀ e, e ∈ es → e ∈ s.bds.list) :
    Lawful s (es.foldl (State.fire now) s) := by
  refine ⟨fun hs => ?_, fun hs => ?_⟩
  · refine List.foldlRecOn es (State.fire now) (motive := fun u => u.bellLaw ∧ u.pageLaw) hs fun u hu e he => ?_
    exact (fire_lawful now u e).1 (hs.1.2.2.2 e (hes e he)) hu
  · exact List.foldlRecOn es (State.fire now) (motive := State.drillLaw) hs fun u hu e _ => (fire_lawful now u e).2 hu

theorem lawful_takeGated (s : State) : Lawful s s.takeGated := lawful_trans (lawful_freshList s) (lawful_setMark _ _)

theorem dueEntries_mem {s : State} {e : ListEntry} (h : e ∈ s.dueEntries) : e ∈ s.bds.list := List.mem_of_mem_filter h

theorem lawful_bdsBoundary (s : State) : Lawful s s.bdsBoundary := by
  unfold State.bdsBoundary
  extract_lets _ u isOpen was _ v w x
  have hu : Steady s u := steady_bds s _ rfl rfl
  have huv : Steady u v := steady_bds u _ rfl rfl
  have hv : Lawful s v := lawful_of_steady (steady_trans hu huv)
  have hw : Lawful v w := lawful_freshList v
  have hx : Lawful w x := lawful_fires _ w _ fun _ he => dueEntries_mem he
  split
  · exact lawful_trans hv (lawful_trans hw (lawful_trans hx (lawful_setMark _ _)))
  · exact lawful_trans hv (lawful_takeGated v)

theorem lawful_bdsStep (s : State) (before after : CampusMs) : Lawful s (s.bdsStep before after) := by
  unfold State.bdsStep
  extract_lets isOpen was _ u v stamp skips due skipped w x
  have hu : Lawful s u := lawful_of_steady (t := u) (steady_bds s _ rfl rfl)
  have hv : Lawful u v := lawful_freshList u
  have hw : Lawful v w := lawful_fires _ v _ fun _ he => dueEntries_mem (List.mem_of_mem_filter he)
  have hx : Lawful w x := by
    dsimp only [x]
    split
    · exact lawful_of_steady (steady_raise w _ _)
    · exact lawful_refl w
  split
  · exact lawful_trans hu (lawful_trans hv (lawful_trans hw (lawful_trans hx (lawful_setMark _ _))))
  · exact lawful_trans hu (lawful_takeGated u)

theorem steady_dsq (s : State) (d : Dsq) (h : d.session = s.dsq.session) : Steady s { s with dsq := d } :=
  steady_of_eq rfl rfl rfl h

theorem lawful_takeSchedule (skips : Schedule → Bool) (s : State) (e : Schedule) : Lawful s (State.takeSchedule skips s e) := by
  unfold State.takeSchedule
  split
  case isTrue h =>
    simp only [Bool.and_eq_true, Bool.not_eq_true', decide_eq_true_eq] at h
    obtain ⟨⟨⟨_, hnormal⟩, hquiet⟩, _⟩ := h
    exact lawful_startDrill s _ _ _ hnormal hquiet
  case isFalse => exact lawful_of_steady (steady_writeSkipped s _ _)

theorem lawful_dsqTake (s : State) (skips : Schedule → Bool) : Lawful s (s.dsqTake skips) := by
  unfold State.dsqTake
  extract_lets isOpen was _ u v
  have hu : Lawful s u := lawful_of_steady (steady_dsq s _ rfl)
  have hv : Lawful u v := lawful_lasting.foldl (lawful_takeSchedule skips) _ u
  split
  · exact lawful_trans hu (lawful_trans hv (lawful_of_steady (steady_dsq v _ rfl)))
  · exact lawful_trans hu (lawful_of_steady (steady_dsq u _ rfl))

theorem lawful_dsqBoundary (s : State) : Lawful s s.dsqBoundary :=
  lawful_trans (lawful_of_steady (steady_dsq s { s.dsq with trustBackup := s.timeSet.trustBackup } rfl)) (lawful_dsqTake _ _)

/-! ### Every command -/

theorem blocks_lawful : Blocks Lawful where
  toLasting := lawful_lasting
  notices _ _ _ := lawful_of_steady (steady_of_eq rfl rfl rfl rfl)
  slots _ _ := lawful_of_steady (steady_of_eq rfl rfl rfl rfl)
  signals s p xs := by cases p <;> exact lawful_of_steady (steady_of_eq rfl rfl rfl rfl)
  restartDue _ _ := lawful_of_steady (steady_of_eq rfl rfl rfl rfl)
  expireWaits s n := lawful_of_steady (steady_expireWaits s n)
  soundChange s j p := lawful_of_steady (steady_soundChange s j p)
  toneOver s t j g := lawful_of_steady (steady_toneOver s t j g)
  enterJob s x hkey hfree := ⟨(enterJob_lawful s x).1 hfree (fun k hk => nomatch hkey.symm.trans hk), (enterJob_lawful s x).2⟩
  enterPage := lawful_enterPage
  endPage s n r := lawful_of_steady (steady_endPage s n r)
  enterLive s n t := lawful_of_steady (steady_enterLive s n t)
  trunk s t u := lawful_of_steady (steady_setTrunk s t u)
  push s w := lawful_of_steady (steady_push s w)
  shows s i raw := lawful_of_steady (steady_shows s i raw)
  debounceInput := lawful_debounceInput
  rewireInput s i := lawful_of_steady (steady_rewireInput s i)
  restored := lawful_restored
  sampleDone s t b ht := lawful_sampleDone s b (by rw [ht]; rfl)
  startDrill s o n b _ hnormal hquiet := lawful_startDrill s o n b hnormal hquiet
  endSession s r := lawful_of_steady (steady_endSession s r)
  drillChange s := lawful_of_steady (steady_drillChange s)
  endStage s := lawful_of_steady (steady_endStage s)
  setLine s l x := lawful_of_steady (steady_setLine s l x)
  enterPowering s l := lawful_of_steady (steady_enterPowering s l)
  enterFault s l := lawful_of_steady (steady_enterFault s l)
  enterDiscovery s l := lawful_of_steady (steady_enterDiscovery s l)
  takeReply s l a start g := lawful_of_steady (steady_takeReply s l a start g)
  takeMiss s l a := lawful_of_steady (steady_takeMiss s l a)
  restartLine s l := lawful_of_steady (steady_restartLine s l)
  beginTest s l mode n := lawful_of_steady (steady_beginTest s l mode n)
  takeResult s l r cause := lawful_of_steady (steady_takeResult s l r cause)

theorem timeOps_lawful : TimeOps Lawful where
  toLasting := lawful_lasting
  tbu _ _ := lawful_of_steady (steady_of_eq rfl rfl rfl rfl)
  bdsBoundary := lawful_bdsBoundary
  bdsStep := lawful_bdsStep
  dsqBoundary := lawful_dsqBoundary
  dsqStep s := lawful_dsqTake s _
  lineSeconds s b := lawful_of_steady (steady_lineSeconds s b)

theorem storeOps_lawful : StoreOps Lawful where
  toLasting := lawful_lasting
  setHold _ _ _ := lawful_of_steady (steady_of_eq rfl rfl rfl rfl)
  discardStaged _ _ := lawful_of_steady (steady_of_eq rfl rfl rfl rfl)
  putStaged _ _ _ _ := lawful_of_steady (steady_of_eq rfl rfl rfl rfl)
  setup _ _ := lawful_of_steady (steady_of_eq rfl rfl rfl rfl)
  image _ _ _ := lawful_of_steady (steady_of_eq rfl rfl rfl rfl)

theorem steady_leaveZone (s : State) (z : Nat) : Steady s (s.leaveZone z) := by
  unfold State.leaveZone
  dsimp only
  split
  case h_1 j _ =>
    refine steady_trans (steady_trans (steady_dropPart s j z .reconfig) ?_) (steady_trans (steady_setZone _ _ _) (steady_setWanted _ _ _ _))
    split
    · exact steady_pageLoses _ _ _ _
    · exact steady_refl _
  case h_2 => exact steady_trans (steady_pageLoses s _ _ _) (steady_returnZone _ _)
  case h_3 => exact steady_refl s

theorem steady_moveZone (s : State) (old : Option Nat) (z : Nat) : Steady s (s.moveZone old z) := by
  unfold State.moveZone
  extract_lets new a b c up _ d e _ f
  have ha : Steady s a := steady_trans (steady_leaveZone s z) (steady_releaseNow _ _)
  have hb : Steady a b := by
    dsimp only [b]
    split
    · exact steady_clearWaits a z _
    · exact steady_refl a
  have hc : Steady b c := by
    dsimp only [c]
    split
    · exact steady_onLine b _ _
    · exact steady_refl b
  have hd : Steady c d := by
    dsimp only [d]
    split
    · exact steady_setZone c _ _
    · exact steady_loseZone c z
  have hf : Steady d f := steady_trans (steady_output d z false) (steady_setZone e _ _)
  have hall := steady_trans (steady_trans ha hb) (steady_trans hc (steady_trans hd hf))
  split
  · exact steady_trans hall (steady_push f _)
  · exact hall

theorem steady_zonActivation (s : State) (old : Zon) : Steady s (s.zonActivation old) := by
  refine steady_foldl (fun s z => ?_) allZones s
  dsimp only
  split
  · exact steady_refl s
  · exact steady_trans (steady_moveZone s _ z) (steady_settle _)

theorem steady_dropAllParts (s : State) : Steady s s.dropAllParts := by
  unfold State.dropAllParts
  exact steady_foldl (fun s j => steady_foldl (fun s p => steady_dropPart s j.num p.zone .restart) j.parts s) s.bds.queue s

theorem steady_endAllPages (s : State) : Steady s s.endAllPages := by
  have htold : Steady s (s.pgc.queue.foldl (fun s p => s.raisePageEnd p .restart) s) :=
    steady_foldl (fun s p => steady_raisePageEnd s p _) s.pgc.queue s
  exact steady_trans htold ⟨⟨.refl _, List.nil_sublist _, rfl⟩, rfl, fun _ hd => hd ▸ rfl⟩

theorem steady_tbuActivation (s : State) (was : Bool) : Steady s (s.tbuActivation was) := by
  obtain h | h | h := tbuActivation_cases s was <;> rw [h] <;> exact steady_of_eq rfl rfl rfl rfl

theorem startOps_lawful : StartOps Lawful where
  toStoreOps := storeOps_lawful
  power _ _ := lawful_of_steady (steady_of_eq rfl rfl rfl rfl)
  records _ _ _ := lawful_of_steady (steady_of_eq rfl rfl rfl rfl)
  setLine s l x := lawful_of_steady (steady_setLine s l x)
  tbuActivation s was := lawful_of_steady (steady_tbuActivation s was)
  bdsActivation s := lawful_trans (lawful_formList s) (lawful_setMark _ _)
  zonActivation s z := lawful_of_steady (steady_zonActivation s z)
  dsqActivation s := lawful_of_steady (steady_dsq s _ rfl)
  redebounce := lawful_redebounce
  dropAllParts s := lawful_of_steady (steady_dropAllParts s)
  endAllPages s := lawful_of_steady (steady_endAllPages s)
  restartSession s := lawful_of_steady (steady_restartSession s)

theorem lawful_load (s : State) : Lawful s s.load := by
  obtain ⟨_, h⟩ := load_shape s
  rw [h]
  exact lawful_of_steady (steady_of_eq rfl rfl rfl rfl)

/-- The blocks come up with empty queues and no session, and the lines' bring-up leaves both. -/
theorem lawful_comeUp (s : State) : Lawful s s.comeUp := by
  have hstart : ∀ u : State, u.pgc.queue = [] →
      u.bdsStart.dsqStart.panelStart.bellLaw ∧ u.bdsStart.dsqStart.panelStart.pageLaw ∧
        u.bdsStart.dsqStart.panelStart.dsq.session = none := by
    intro u hu
    have hpages : u.bdsStart.dsqStart.panelStart.pgc.queue = [] := hu
    refine ⟨⟨Nat.zero_le 8, .nil, (fun _ h => nomatch h), fun _ he => effectiveList_listed he⟩, ?_, rfl⟩
    unfold State.pageLaw
    rw [hpages]
    exact ⟨Nat.zero_le 3, .nil⟩
  have hrest : ∀ u : State, Steady u (allLines.foldl State.bringUp u).raiseLoads := fun u =>
    steady_trans (steady_foldl steady_bringUp allLines u) <| steady_foldl (fun s r => by
      split
      · exact steady_refl s
      · exact steady_raise s _ _) allRegions _
  unfold State.comeUp
  extract_lets u v
  obtain ⟨hbell, hpage, hvacant⟩ : v.bellLaw ∧ v.pageLaw ∧ v.dsq.session = none := hstart u rfl
  clear_value v
  exact ⟨fun _ => queueLaws_of_within (hrest v).toWithin ⟨hbell, hpage⟩, fun _ => drillLaw_of_vacant (vacant_of_steady (hrest v) hvacant)⟩

theorem exec_lawful (c : Instr) : Keeps Lawful c := by
  obtain hc | hc | hc | hc := command_sort c
  · exact blocks_lawful.plain hc
  · exact timeOps_lawful.time hc
  · exact startOps_lawful.store hc
  · cases c
    case powerOn good n =>
      exact startOps_lawful.powerOn good n lawful_load lawful_comeUp (fun _ => lawful_of_steady (steady_of_eq rfl rfl rfl rfl))
        fun _ _ => lawful_of_steady (steady_of_eq rfl rfl rfl rfl)
    case powerLoss a b => exact startOps_lawful.powerLoss a b
    case controllerRestart failed => exact startOps_lawful.restart failed lawful_load lawful_comeUp
    case activate p op r => exact startOps_lawful.activate p op r fun _ => lawful_of_steady (steady_of_eq rfl rfl rfl rfl)
    all_goals cases hc

theorem steady_takeChar (s : State) (p : Port) : Steady s (s.takeChar p) := by
  obtain heq | ⟨_, _, _, _, heq, _⟩ := takeChar_cases s p
  · rw [heq]
    exact steady_refl s
  · rw [heq]
    exact steady_of_eq rfl rfl rfl rfl

theorem steady_tick (s : State) : Steady s s.tick := by
  have hnow : Steady s { s with now := s.now + 1, tbu := { s.tbu with phase := s.tbu.phase + 1 } } := steady_of_eq rfl rfl rfl rfl
  have hchars := steady_trans hnow (steady_trans (steady_takeChar _ .a) (steady_takeChar _ .b))
  unfold State.tick
  dsimp only
  split
  · split
    · exact hchars
    · exact steady_trans hchars (steady_of_eq rfl rfl rfl rfl)
  · exact steady_refl s

theorem step_lawful {s t : State} (h : step s = .next t) : Lawful s t := by
  obtain ⟨_, rfl⟩ | ⟨c, cs, _, hexec⟩ := step_cases h
  · exact lawful_of_steady (steady_tick s)
  · exact lawful_trans (lawful_of_steady (t := { s with pending := cs }) (steady_of_eq rfl rfl rfl rfl)) (exec_lawful c _ _ hexec)

/-- Settles O6: jobs enter only with a fresh key and date where there is room, and pages only with a fresh source. -/
theorem queueLawsKept : Obligations.QueueLawsKept := fun _ _ hs hstep => (step_lawful hstep).1 hs

/-- Settles O7: a drill starts only with DRILL-ACK active in panel state NORMAL, and what ends either ends the session. -/
theorem drillLawKept : Obligations.DrillLawKept := fun _ _ hs hstep => (step_lawful hstep).2 hs

end Sys2Proof.Machine
end

