-- ==== Sys2Proof/Proofs/PlanRequests.lean ====
section
/-! The requests at the staged bank of a region (chapter 4 and section 10.3): SELECT, READ, WRITE, EMPTY, HOLD and ACTIVATE, with the
ends of holds and of image writes and the key switch. Every request ends with its reply begun, so what is proved once is what the
cursor's requests share: the hold timer restarted, the check of the index, and the cursor moved on behind an accepted request. -/

set_option autoImplicit false

namespace Sys2Proof.Machine

open Sys2Proof

/-! ### The hold timer -/

section
variable {s : State} {p : Port} {r : Region}

theorem startHold_restingLaw (h : s.restingLaw) (p : Port) (r : Region) : (s.startHold p r).restingLaw := setHold_restingLaw h r _

theorem touchHold_holder (h : s.holds p r = true) : s.touchHold p r = s.startHold p r := if_pos h

theorem touchHold_other (h : s.holds p r = false) : s.touchHold p r = s := by simp [State.touchHold, h]

theorem touchHold_restingLaw (h : s.restingLaw) (p : Port) (r : Region) : (s.touchHold p r).restingLaw := by
  unfold State.touchHold
  split
  · exact startHold_restingLaw h p r
  · exact h

theorem setCursor_restingLaw (h : s.restingLaw) (p : Port) (c : Cursor) : (s.setCursor p c).restingLaw :=
  setPort_restingLaw h p _

theorem startHold_holds (s : State) (p : Port) (r : Region) : (s.startHold p r).holds p r = true :=
  holds_iff.mpr ⟨_, (holdAt_setHold ..).trans (if_pos rfl)⟩

theorem touchHold_holds (s : State) (p : Port) (r : Region) : (s.touchHold p r).holds p r = s.holds p r := by
  cases h : s.holds p r
  · rw [touchHold_other h, h]
  · rw [touchHold_holder h, startHold_holds]

/-- Restarting the hold timer writes the holds alone. -/
theorem touchHold_shape (s : State) (p : Port) (r : Region) :
    ∃ holds, s.touchHold p r = { s with store := { s.store with holds := holds } } := by
  unfold State.touchHold
  split
  · exact ⟨_, rfl⟩
  · exact ⟨s.store.holds, rfl⟩

/-- A region that is FREE, HELD by the other port or COMMITTING is not held by the port. -/
theorem holds_of_refused {why : NoReason} (h : s.notHolding p r = some why) : s.holds p r = false := by
  cases hold : s.holds p r
  · rfl
  · rw [notHolding_holder hold] at h
    cases h

end

/-! ### SELECT -/

section
variable {s : State} {p : Port} {op : Fin 16} {r : Region} {t : Tbl} {i : Nat} {b : Bank}

theorem selected_some : selected r (some t) i = if tableRegion t = r ∧ i < tableSize t then some t else none := rfl

variable (h : s.takesPlan p op .viewer r (decide (b = .staged)))
include h

theorem execSelect_range {table : Option Tbl} (hnone : selected r table i = none) :
    execSelect p op r table i b s = .next ((s.touchHold p r).replied p (.no .range)) :=
  planLine_replied h _ (by simp only [hnone]) rfl (touchHold_restingLaw h.1.1 p r)

theorem execSelect_notHeld {table : Option Tbl} (hsome : selected r table i = some t) (hb : b = .staged)
    (hold : s.holds p r = false) : execSelect p op r table i b s = .next ((s.touchHold p r).replied p (.no .notHeld)) :=
  planLine_replied h _ (by simp only [hsome, touchHold_holds, hb, hold, and_self, if_true]) rfl (touchHold_restingLaw h.1.1 p r)

theorem execSelect_accepted {table : Option Tbl} (hsome : selected r table i = some t) (hold : b = .staged → s.holds p r = true) :
    execSelect p op r table i b s =
      .next (((s.touchHold p r).setCursor p { region := r, table := t, index := i, bank := b }).replied p .ok) := by
  have hallowed : ¬(b = .staged ∧ s.holds p r = false) := fun ⟨hb, hfalse⟩ => by simp [hold hb] at hfalse
  refine planLine_replied h _ ?_ rfl (setCursor_restingLaw (touchHold_restingLaw h.1.1 p r) p _)
  dsimp only
  rw [hsome, touchHold_holds]
  exact if_neg hallowed

end

/-- Settles O20: which answer SELECT gives goes by the table and index, and for a staged bank by the hold. -/
theorem selectSetsTheCursor : Obligations.SelectSetsTheCursor := by
  rintro s u p op r t i b h rfl
  refine ⟨execSelect_range (table := none) (i := i) h rfl, fun hnot => ?noEntry, fun ht hi hb hold => ?notHeld, fun ht hi hold => ?accepted⟩
  case noEntry =>
    refine execSelect_range h (selected_some.trans (if_neg ?_))
    rintro ⟨hregion, hindex⟩
    obtain hne | hpast := hnot
    · exact hne hregion
    · omega
  case notHeld => exact execSelect_notHeld h (selected_some.trans (if_pos ⟨ht, hi⟩)) hb hold
  case accepted => exact execSelect_accepted h (selected_some.trans (if_pos ⟨ht, hi⟩)) hold

/-! ### Requests at the cursor -/

section
variable {p : Port} {op : Fin 16} {kw : Keyword} {min : Region → OpClass} {least : OpClass} {needsEdit : Cursor → Bool} {s : State}
  {c : Cursor} (body : Cursor → State → State × Reply) (hcursor : (s.port p).cursor = some c)
  (h : s.takesPlan p op (min c.region) c.region (needsEdit c))
include hcursor h

/-- A cursor past the end of its table is refused. -/
theorem cursorLine_past (hpast : tableSize c.table ≤ c.index) :
    line p s (fun s => atCursor p op kw min least needsEdit s body) = .next ((s.touchHold p c.region).replied p (.no .range)) := by
  have hline := planLine_replied (kw := kw) (a := .no .range) h
    (fun s => if tableSize c.table ≤ c.index then (s.touchHold p c.region, .no .range) else (s, .ok)) (if_pos hpast) rfl
    (touchHold_restingLaw h.1.1 p c.region)
  rw [line_free _ h.1.2.1 h.1.2.2.1] at hline ⊢
  refine (congrArg finish ?_).trans hline
  unfold atCursor planRequest
  simp only [hcursor, if_pos hpast]

/-- What the block answers at an entry that exists is the request's answer; behind an accepted one the cursor moves on. -/
theorem cursorLine_entry (hindex : c.index < tableSize c.table) {v : State} {a : Reply}
    (hbody : body c (s.touchHold p c.region) = (v, a)) (ha : a.access? = none) (hv : v.restingLaw) :
    line p s (fun s => atCursor p op kw min least needsEdit s body) =
      .next ((if a.advances then v.advanceCursor p else v).replied p a) := by
  have hrest : (if a.advances then v.advanceCursor p else v).restingLaw := by
    split
    · unfold State.advanceCursor
      split
      · exact setPort_restingLaw hv p _
      · exact hv
    · exact hv
  have hline := planLine_replied (kw := kw) (a := a) h (fun _ => (if a.advances then v.advanceCursor p else v, a)) rfl ha hrest
  rw [line_free _ h.1.2.1 h.1.2.2.1] at hline ⊢
  refine (congrArg finish ?_).trans hline
  unfold atCursor planRequest
  simp only [hcursor, if_neg (Nat.not_le.mpr hindex), hbody]

/-- A refusal at an entry that exists. -/
theorem cursorLine_refused (hindex : c.index < tableSize c.table) {why : NoReason}
    (hbody : body c (s.touchHold p c.region) = (s.touchHold p c.region, .no why)) (hwhy : (Reply.no why).access? = none) :
    line p s (fun s => atCursor p op kw min least needsEdit s body) = .next ((s.touchHold p c.region).replied p (.no why)) :=
  cursorLine_entry body hcursor h hindex hbody hwhy (touchHold_restingLaw h.1.1 p c.region)

/-- An accepted request at an entry that exists: the cursor moves on. -/
theorem cursorLine_accepted (hindex : c.index < tableSize c.table) {v : State} {a : Reply}
    (hbody : body c (s.touchHold p c.region) = (v, a)) (ha : a.access? = none) (hadvances : a.advances = true) (hv : v.restingLaw)
    (hports : v.ports = s.ports) :
    line p s (fun s => atCursor p op kw min least needsEdit s body) =
      .next ((v.setPort p { v.port p with cursor := some { c with index := c.index + 1 } }).replied p a) := by
  have hmoved : v.advanceCursor p = v.setPort p { v.port p with cursor := some { c with index := c.index + 1 } } := by
    have hv : (v.port p).cursor = some c := by
      unfold State.port at hcursor ⊢
      rw [hports, hcursor]
    unfold State.advanceCursor
    simp only [hv]
    rfl
  rw [cursorLine_entry body hcursor h hindex hbody ha hv, if_pos hadvances, hmoved]

end

/-! ### READ -/

/-- Restarting the hold timer changes no entry that can be read. -/
theorem touchHold_readEntry (s : State) (p : Port) (r : Region) (b : Plan) (t : Tbl) (i : Nat) :
    (s.touchHold p r).readEntry b t i = s.readEntry b t i := by
  obtain ⟨holds, hshape⟩ := touchHold_shape s p r
  rw [hshape]
  rfl

/-- The reply to a READ of an entry (R72). -/
def entryReply (e : Entry) : Reply := if e.isEmpty then .okEmpty else .entry (readFields e)

theorem entryReply_accepts (e : Entry) : (entryReply e).access? = none ∧ (entryReply e).advances = true := by
  unfold entryReply
  split <;> exact ⟨rfl, rfl⟩

section
variable {s : State} {p : Port} {op : Fin 16} {c : Cursor} (hcursor : (s.port p).cursor = some c)
  (h : s.takesPlan p op .viewer c.region (decide (c.bank = .staged)))
include hcursor h

theorem execRead_notHeld (hindex : c.index < tableSize c.table) (hbank : c.bank = .staged) (hold : s.holds p c.region = false) :
    execRead p op s = .next (s.replied p (.no .notHeld)) := by
  refine (cursorLine_refused (min := fun _ => .viewer) (needsEdit := fun c => decide (c.bank = .staged)) _ hcursor h hindex ?_
    rfl).trans (by rw [touchHold_other hold])
  simp only [hbank, touchHold_holds, hold, Bool.false_eq_true, if_false]

theorem execRead_entry (hindex : c.index < tableSize c.table) (hold : c.bank = .staged → s.holds p c.region = true) {u : State}
    (hu : u = s.touchHold p c.region) :
    execRead p op s =
      .next ((u.setPort p { u.port p with cursor := some { c with index := c.index + 1 } }).replied p
        (entryReply (s.readEntry (if c.bank = .staged then s.store.staged else s.store.live) c.table c.index))) := by
  obtain ⟨holds, hshape⟩ := touchHold_shape s p c.region
  obtain ⟨haccess, hadvances⟩ := entryReply_accepts
    (s.readEntry (if c.bank = .staged then s.store.staged else s.store.live) c.table c.index)
  refine cursorLine_accepted (min := fun _ => .viewer) (needsEdit := fun c => decide (c.bank = .staged)) _ hcursor h hindex ?_
    haccess hadvances (hu ▸ touchHold_restingLaw h.1.1 p c.region) (by rw [hu, hshape])
  rw [← hu]
  have hread : ∀ b, u.readEntry b c.table c.index = s.readEntry b c.table c.index := fun b =>
    hu ▸ touchHold_readEntry s p c.region b _ _
  have hbanks : u.store.live = s.store.live ∧ u.store.staged = s.store.staged := by rw [hu, hshape]; exact ⟨rfl, rfl⟩
  cases hbank : c.bank
  · simp only [hread, hbanks.1]
    rfl
  · have hholds : u.holds p c.region = true := by rw [hu, touchHold_holds, hold hbank]
    simp only [hread, hbanks.2, hholds, if_true]
    rfl

end

/-- Settles O21: READ is a request at the cursor whose block changes nothing. -/
theorem readAnswersTheEntryAtTheCursor : Obligations.ReadAnswersTheEntryAtTheCursor := by
  intro s u p op c hcursor h hu
  refine ⟨fun hpast => ?past, fun hindex hbank hold => execRead_notHeld hcursor h hindex hbank hold, ?entry,
    fun hold => hu.trans (touchHold_other hold), fun hold => hu.trans (touchHold_holder hold)⟩
  case past =>
    rw [hu]
    exact cursorLine_past (min := fun _ => .viewer) (needsEdit := fun c => decide (c.bank = .staged)) _ hcursor h hpast
  case entry =>
    rintro e hindex hold rfl
    exact execRead_entry hcursor h hindex hold hu

/-! ### WRITE and EMPTY -/

/-- A line taken by a free port reads the request of that very state. -/
theorem line_congr {p : Port} {s : State} {f g : State → State} (h : f s = g s) : line p s f = line p s g := by
  unfold line
  rw [h]

/-- What an edit answers at an entry that exists: its refusal, NO RANGE where nothing that exists is named, or the staged entry
replaced. -/
def editAnswer (w : Option Entry) (a : Reply) (p : Port) (c : Cursor) (s : State) : State × Reply :=
  match s.editRefused p c with
  | some r => (s, .no r)
  | none =>
    match w with
    | none => (s, .no .range)
    | some e => (s.putStaged c.index e, a)

/-- A request that edits the entry at the cursor. -/
def editLine (p : Port) (op : Fin 16) (kw : Keyword) (w : Cursor → Option Entry) (a : Reply) (s : State) : Result :=
  line p s fun s => atCursor p op kw editClass .office (fun _ => true) s fun c s => editAnswer (w c) a p c s

/-- The reply to a WRITE that is accepted (R74). -/
def Written.reply (w : Written) : Reply := if w.clamped then .okClamped else .ok

theorem execEmpty_eq (p : Port) (op : Fin 16) (s : State) :
    execEmpty p op s = editLine p op .empty (fun c => some (entryAt emptyPlan c.table c.index)) .ok s := rfl

theorem execWrite_eq {p : Port} {s : State} {c : Cursor} {fs : List Field} {w : Written} (op : Fin 16)
    (hcursor : (s.port p).cursor = some c) (hw : writeFields c.table fs = some w) :
    execWrite p op fs s = editLine p op .write (fun _ => w.entry) w.reply s := by
  refine line_congr ?_
  simp only [hcursor, hw]
  rfl

section
variable {s : State} {p : Port} {op : Fin 16} {kw : Keyword} {c : Cursor} {w : Cursor → Option Entry} {a : Reply}

theorem editAnswer_refused {w : Option Entry} {why : NoReason} (h : s.editRefused p c = some why) :
    editAnswer w a p c s = (s, .no why) := by simp only [editAnswer, h]

theorem editRefused_notHolding {why : NoReason} (h : s.notHolding p c.region = some why) : s.editRefused p c = some why := by
  simp only [State.editRefused, h]

theorem editRefused_live (hold : s.holds p c.region = true) (hbank : c.bank = .live) : s.editRefused p c = some .state := by
  simp only [State.editRefused, notHolding_holder hold, hbank, ne_eq, reduceCtorEq, not_false_eq_true, if_true]

theorem editRefused_staged (hold : s.holds p c.region = true) (hbank : c.bank = .staged) :
    s.editRefused p c = if fixedEntry c.table c.index then some .range else none := by
  simp only [State.editRefused, notHolding_holder hold, hbank, ne_eq, not_true_eq_false, if_false]

theorem putStaged_restingLaw (h : s.restingLaw) (i : Nat) (e : Entry) : (s.putStaged i e).restingLaw :=
  restingLaw_of_eq h rfl rfl rfl rfl

variable (hcursor : (s.port p).cursor = some c) (h : s.takesPlan p op (editClass c.region) c.region true)
include hcursor h

theorem editLine_past (hold : s.holds p c.region = true) (hpast : tableSize c.table ≤ c.index) :
    editLine p op kw w a s = .next ((s.startHold p c.region).replied p (.no .range)) :=
  touchHold_holder hold ▸ cursorLine_past (needsEdit := fun _ => true) _ hcursor h hpast

/-- A port that does not hold the region is refused. -/
theorem editLine_notHolding (hindex : c.index < tableSize c.table) {why : NoReason} (hwhy : s.notHolding p c.region = some why) :
    editLine p op kw w a s = .next (s.replied p (.no why)) := by
  have huntouched : s.touchHold p c.region = s := touchHold_other (holds_of_refused hwhy)
  refine (cursorLine_refused (why := why) (needsEdit := fun _ => true) _ hcursor h hindex ?_ (notHolding_access hwhy)).trans
    (by rw [huntouched])
  rw [huntouched]
  exact editAnswer_refused (editRefused_notHolding hwhy)

variable (hold : s.holds p c.region = true) (hindex : c.index < tableSize c.table)
include hold hindex

/-- The holder is refused by what the edit itself answers. -/
theorem editLine_refused {why : NoReason} (hwhy : editAnswer (w c) a p c (s.startHold p c.region) = (s.startHold p c.region, .no why))
    (haccess : (Reply.no why).access? = none) :
    editLine p op kw w a s = .next ((s.startHold p c.region).replied p (.no why)) := by
  have htouched : s.touchHold p c.region = s.startHold p c.region := touchHold_holder hold
  exact (cursorLine_refused (needsEdit := fun _ => true) _ hcursor h hindex (htouched.symm ▸ hwhy) haccess).trans
    (by rw [htouched])

theorem editLine_live (hbank : c.bank = .live) :
    editLine p op kw w a s = .next ((s.startHold p c.region).replied p (.no .state)) :=
  editLine_refused hcursor h hold hindex (editAnswer_refused (editRefused_live (startHold_holds s p _) hbank)) rfl

/-- A fixed entry, or fields that name nothing that exists. -/
theorem editLine_range (hbank : c.bank = .staged) (hrange : fixedEntry c.table c.index = true ∨ w c = none) :
    editLine p op kw w a s = .next ((s.startHold p c.region).replied p (.no .range)) := by
  refine editLine_refused hcursor h hold hindex ?_ rfl
  have hrefused := editRefused_staged (startHold_holds s p c.region) hbank
  obtain hfixed | hnone := hrange
  · exact editAnswer_refused (hrefused.trans (if_pos hfixed))
  · cases hfixed : fixedEntry c.table c.index
    · simp only [editAnswer, hrefused, hfixed, hnone, Bool.false_eq_true, if_false]
    · exact editAnswer_refused (hrefused.trans (if_pos hfixed))

/-- The staged entry is replaced and the cursor moves on. -/
theorem editLine_accepted (hbank : c.bank = .staged) (hfixed : fixedEntry c.table c.index = false) {e : Entry} (he : w c = some e)
    (ha : a.access? = none) (hadvances : a.advances = true) {v : State} (hv : v = (s.startHold p c.region).putStaged c.index e) :
    editLine p op kw w a s =
      .next ((v.setPort p { v.port p with cursor := some { c with index := c.index + 1 } }).replied p a) := by
  have htouched : s.touchHold p c.region = s.startHold p c.region := touchHold_holder hold
  have hallowed : (s.startHold p c.region).editRefused p c = none := by
    rw [editRefused_staged (startHold_holds s p c.region) hbank, hfixed]
    rfl
  refine cursorLine_accepted (needsEdit := fun _ => true) _ hcursor h hindex ?_ ha hadvances
    (hv ▸ putStaged_restingLaw (startHold_restingLaw h.1.1 p _) _ e) (hv ▸ rfl)
  rw [htouched, hv]
  simp only [editAnswer, hallowed, he]

end

theorem Written.reply_accepts (w : Written) : w.reply.access? = none ∧ w.reply.advances = true := by
  unfold Written.reply
  split <;> exact ⟨rfl, rfl⟩

/-- Fields that do not fit the table are refused before anything else is looked at. -/
theorem execWrite_badSyntax {s : State} {p : Port} {op : Fin 16} {c : Cursor} {fs : List Field}
    (hcursor : (s.port p).cursor = some c) (hrest : s.restingLaw) (hreads : s.reads = true) (hfree : (s.port p).reply = none)
    (hnone : writeFields c.table fs = none) : execWrite p op fs s = .next (s.replied p (.no .badSyntax)) := by
  refine (line_free _ hreads hfree).trans ?_
  simp only [hcursor, hnone]
  rw [respond_plain rfl]
  exact finish_replied hrest p _

/-- Settles O22: WRITE and EMPTY are one edit of the entry at the cursor, with the entry the fields name or the entry of an empty
plan. -/
theorem editsReplaceTheStagedEntry : Obligations.EditsReplaceTheStagedEntry := by
  rintro s u p op c hcursor h rfl
  have hwrite : ∀ {fs w}, writeFields c.table fs = some w →
      exec (.write p op fs) s = editLine p op .write (fun _ => w.entry) w.reply s := fun hw => execWrite_eq op hcursor hw
  have hempty : exec (.empty p op) s = editLine p op .empty (fun c => some (entryAt emptyPlan c.table c.index)) .ok s := rfl
  refine ⟨fun fs hnone => execWrite_badSyntax hcursor h.1.1 h.1.2.1 h.1.2.2.1 hnone,
    fun hold hpast => ⟨hempty.trans (editLine_past hcursor h hold hpast),
      fun fs w hw => (hwrite hw).trans (editLine_past hcursor h hold hpast)⟩,
    fun hindex hnot => ?notHeld, fun q t hindex hcommit => ?committing, fun hold hindex => ⟨fun fs w hw hbank => ?writeLive,
      fun hbank => ?emptyLive, fun fs w hw hbank hrange => ?writeRange, fun hbank hfixed => ?emptyFixed,
      fun v e hbank hfixed hv => ⟨fun fs w hw he => ?written, fun he => ?emptied⟩⟩⟩
  case notHeld =>
    have hwhy := notHolding_notHeld hnot
    exact ⟨hempty.trans (editLine_notHolding hcursor h hindex hwhy),
      fun fs w hw => (hwrite hw).trans (editLine_notHolding hcursor h hindex hwhy)⟩
  case committing =>
    have hwhy := notHolding_busy (p := p) hcommit
    exact ⟨hempty.trans (editLine_notHolding hcursor h hindex hwhy),
      fun fs w hw => (hwrite hw).trans (editLine_notHolding hcursor h hindex hwhy)⟩
  case writeLive => exact (hwrite hw).trans (editLine_live hcursor h hold hindex hbank)
  case emptyLive => exact hempty.trans (editLine_live hcursor h hold hindex hbank)
  case writeRange => exact (hwrite hw).trans (editLine_range hcursor h hold hindex hbank hrange)
  case emptyFixed => exact hempty.trans (editLine_range hcursor h hold hindex hbank (.inl hfixed))
  case written =>
    obtain ⟨haccess, hadvances⟩ := w.reply_accepts
    exact (hwrite hw).trans (editLine_accepted hcursor h hold hindex hbank hfixed he haccess hadvances hv)
  case emptied => exact hempty.trans (editLine_accepted hcursor h hold hindex hbank hfixed (he ▸ rfl) rfl rfl hv)

/-! ### HOLD -/

section
variable {s : State} {p : Port} {op : Fin 16} {r : Region} (h : s.takesPlan p op (editClass r) r true)
include h

theorem execHold_granted (hfree : s.holdAt r = .free ∨ s.holds p r = true) :
    execHold p op r s = .next ((s.startHold p r).replied p .ok) := by
  refine planLine_replied h _ ?_ rfl (startHold_restingLaw h.1.1 p r)
  obtain hfree | hold := hfree
  · simp only [hfree]
  · obtain ⟨t, ht⟩ := holds_iff.mp hold
    simp only [ht, if_true]

theorem execHold_held {q : Port} {t : Nat} (hheld : s.holdAt r = .held q t) (hne : q ≠ p) :
    execHold p op r s = .next (s.replied p (.no .held)) :=
  planLine_replied h _ (by simp only [hheld, if_neg hne]) rfl h.1.1

theorem execHold_committing {q : Port} {t : Nat} (hcommit : s.holdAt r = .committing q t) :
    execHold p op r s = .next (s.replied p (.no .busy)) :=
  planLine_replied h _ (by simp only [hcommit]) rfl h.1.1

end

/-- Settles O23, by the hold state of the region. -/
theorem holdGrantsTheRegion : Obligations.HoldGrantsTheRegion := by
  intro s p op r h
  exact ⟨fun hfree => execHold_granted h hfree, fun q t hheld hne => execHold_held h hheld hne,
    fun q t hcommit => execHold_committing h hcommit⟩

/-! ### ACTIVATE -/

theorem base_leaveZone (s : State) (z : Nat) : (s.leaveZone z).base = s.base := by
  unfold State.leaveZone
  dsimp only
  repeat' split
  all_goals simp

theorem base_moveZone (s : State) (old : Option Nat) (z : Nat) : (s.moveZone old z).base = s.base := by
  refine Eq.trans ?_ (base_leaveZone s z)
  unfold State.moveZone
  dsimp only
  repeat' split
  all_goals simp

theorem base_zonActivation (s : State) (old : Zon) : (s.zonActivation old).base = s.base := by
  unfold State.zonActivation
  generalize allZones = zs
  induction zs generalizing s with
  | nil => rfl
  | cons z zs ih =>
    refine (ih _).trans ?_
    dsimp only
    split
    · rfl
    · exact (base_settle _).trans (base_moveZone s _ z)

theorem tbu_of_base {s t : State} (h : t.base = s.base) : t.tbu = s.tbu := by
  have htbu := congrArg State.tbu h
  exact htbu

theorem setup_of_base {s t : State} (h : t.base = s.base) : t.setup = s.setup := by
  have hsetup := congrArg State.setup h
  exact hsetup

theorem store_of_base {s t : State} (h : t.base = s.base) : t.store = s.store := by
  have hstore := congrArg State.store h
  exact hstore

/-- A state of the same base is the state with its Timebase Unit, seen from the base. -/
theorem base_withTbu {s t : State} (h : t.base = s.base) : t.base = ({ s with tbu := t.tbu } : State).base := by
  rw [tbu_of_base h, h]

/-- What an activation tells the blocks leaves the plan, the ports and the clockwork alone, but for the Timebase Unit. -/
theorem announce_base (s : State) (r : Region) (old : Plan) :
    (s.announce r old).base = ({ s with tbu := (s.announce r old).tbu } : State).base := by
  cases r
  case cal =>
    show (State.bdsActivation _).base = _
    have htbu : (s.tbuActivation old.cal.timeSet.refEnable).bdsActivation.tbu = (s.tbuActivation old.cal.timeSet.refEnable).tbu :=
      tbu_of_base (base_bdsActivation _)
    rw [base_bdsActivation]
    show _ = ({ s with tbu := (s.tbuActivation old.cal.timeSet.refEnable).bdsActivation.tbu } : State).base
    rw [htbu]
    obtain h | h | h := tbuActivation_cases s old.cal.timeSet.refEnable <;> rw [h] <;> rfl
  case dpl => exact base_withTbu (base_bdsActivation s)
  case ovr => exact base_withTbu (base_bdsActivation s)
  case zon => exact base_withTbu (base_zonActivation s old.zon)
  case drl => exact base_withTbu ((base_redebounce _).trans (base_dsqActivation s))
  all_goals rfl

section
variable {s : State} {p : Port} {op : Fin 16} {r : Region} (h : s.takesPlan p op (editClass r) r true)
include h

theorem execActivate_refused {why : NoReason} (hwhy : s.notHolding p r = some why) :
    execActivate p op r s = .next (s.replied p (.no why)) :=
  planLine_replied h _ (by simp only [hwhy]) (notHolding_access hwhy) h.1.1

variable (hold : s.holds p r = true)
include hold

theorem execActivate_panel (hzon : r = .zon) (hpanel : s.pnl.state ≠ .normal) :
    execActivate p op r s = .next ((s.startHold p r).replied p (.no .state)) := by
  refine planLine_replied h _ ?_ rfl (startHold_restingLaw h.1.1 p r)
  simp only [notHolding_holder hold]
  exact if_pos ⟨hzon, hpanel⟩

variable (hnormal : r = .zon → s.pnl.state = .normal)
include hnormal

theorem execActivate_invalid {t : Tbl} {i : Nat} (hfault : s.validate r = some (t, i)) :
    execActivate p op r s = .next ((s.startHold p r).replied p (.no (.invalid t i))) := by
  refine planLine_replied h _ ?_ rfl (startHold_restingLaw h.1.1 p r)
  simp only [notHolding_holder hold, hfault]
  exact if_neg fun ⟨hzon, hpanel⟩ => hpanel (hnormal hzon)

theorem execActivate_valid (hvalid : s.validate r = none) :
    execActivate p op r s = finish ((s.activate p r).answer p .ok) := by
  refine (line_free _ h.1.2.1 h.1.2.2.1).trans ?_
  rw [planRequest_allowed _ h.1.2.2.2 h.2]
  simp only [notHolding_holder hold, hvalid]
  rw [if_neg fun ⟨hzon, hpanel⟩ => hpanel (hnormal hzon)]
  rfl

end

/-- The state with the staged bank of a region made live, and the region COMMITTING by the port (R79). -/
def State.activated (s : State) (p : Port) (r : Region) : State :=
  ({ s with store := { s.store with
      live := copyRegion r s.store.staged s.store.live
      imageGood := tset imageGoodStart s.store.imageGood (regionIdx r) false } } : State).setHold r (.committing p (s.now + 16000))

theorem activate_eq (s : State) (p : Port) (r : Region) : s.activate p r = (s.activated p r).announce r s.store.live := rfl

/-- What the end of a request leaves of the base, where its reply was the last thing done. -/
theorem finish_answered_base {s t x : State} {p : Port} {a : Reply} (ht : finish (s.answer p a) = .next t) (h : s.base = x.base) :
    t.base = x.base.replied p a := by
  rw [finish_base ht]
  exact congrArg (State.answer · p a) h

/-- What follows of an activation in the other blocks writes neither the plan nor the ports. -/
theorem activate_done (s : State) (p : Port) (r : Region) :
    ∃ t, finish ((s.activate p r).answer p .ok) = .next t ∧ (t.port p).reply = some .ok ∧ t.store = (s.activated p r).store ∧
      t.base = ({ s.activated p r with tbu := t.tbu } : State).base.replied p .ok := by
  obtain ⟨t, ht⟩ := finish_next ((s.activate p r).answer p .ok)
  have hbase := finish_answered_base ht (announce_base (s.activated p r) r s.store.live)
  have htbu : t.tbu = ((s.activated p r).announce r s.store.live).tbu := by
    have h := congrArg State.tbu hbase
    exact h
  have hstore : t.store = (s.activated p r).store := by
    have h := congrArg State.store hbase
    exact h
  refine ⟨t, ht, ?_, hstore, htbu ▸ hbase⟩
  rw [finish_port ht]
  exact port_replied_same _ p .ok

/-- Settles O25: an activation that is not refused writes the live bank and the hold, and what follows of it in the other blocks
writes neither. -/
theorem activateMakesTheStagedBankLive : Obligations.ActivateMakesTheStagedBankLive := by
  intro s p op r h
  refine ⟨fun q t hcommit => execActivate_refused h (notHolding_busy hcommit),
    fun hnot => execActivate_refused h (notHolding_notHeld hnot), fun hold hzon hpanel => execActivate_panel h hold hzon hpanel,
    fun hold hnormal => ⟨fun t i hfault => execActivate_invalid h hold hnormal hfault, fun hvalid => ?_⟩⟩
  obtain ⟨t, ht, hreply, hstore, hbase⟩ := activate_done s p r
  have hhold : ∀ q, t.holdAt q = (s.activated p r).holdAt q := fun q => by
    unfold State.holdAt
    rw [hstore]
  refine ⟨t, (execActivate_valid h hold hnormal hvalid).trans ht, hreply, ?_, ?_, ?_,
    (hhold r).trans ((holdAt_setHold ..).trans (if_pos rfl)),
    fun q hq => (hhold q).trans ((holdAt_setHold ..).trans (if_neg hq)), ?_⟩
  · rw [hstore]; rfl
  · rw [hstore]; rfl
  · rw [hstore]; rfl
  · rw [hbase, hstore]
    cases p <;> rfl

/-! ### The ends of holds and of image writes -/

/-- A notice raised at rest leaves nothing to carry out but the attention lines. -/
theorem finish_unsettled {s t : State} (h : s.restingLaw) (hztc : t.ztc = s.ztc) (hpgc : t.pgc = s.pgc) :
    finish t = .next t.rejudge := by
  unfold finish
  rw [settle_eq_self (hztc ▸ h.1) (hpgc ▸ h.2.1)]

theorem execHoldExpiry_expired {s : State} {r : Region} {p : Port} {t : Nat} (h : s.ready) (hheld : s.holdAt r = .held p t)
    (hdue : t ≤ s.now) : execHoldExpiry r s = .next ((s.dropHold r).raiseAt p .hold (.hold r .expired)).rejudge := by
  obtain ⟨hrest, hpower⟩ := h
  refine (event_powered _ hpower).trans ?_
  simp only [hheld, State.reached, hdue, decide_true, if_true]
  exact finish_unsettled hrest rfl rfl

/-- The state at the end of an image write, but for its notices (R70, R79). -/
def State.imageWritten (s : State) (r : Region) (good : Bool) : State :=
  ({ s with store := { s.store with
      images := if good then copyRegion r s.store.live s.store.images else s.store.images
      imageGood := tset imageGoodStart s.store.imageGood (regionIdx r) good } } : State).dropHold r

section
variable {s : State} {r : Region} {p : Port} {t : Nat} (h : s.ready) (hcommit : s.holdAt r = .committing p t)
include h hcommit

theorem execImageWriteEnd_good :
    execImageWriteEnd r true s = .next ((s.imageWritten r true).raiseAt p .hold (.hold r (.activated true))).rejudge := by
  obtain ⟨hrest, hpower⟩ := h
  refine (event_powered _ hpower).trans ?_
  simp only [hcommit]
  exact finish_unsettled hrest rfl rfl

theorem execImageWriteEnd_failed :
    execImageWriteEnd r false s =
      .next (((s.imageWritten r false).raiseAt p .hold (.hold r (.activated false))).raise .store (.store r .writeFailed)).rejudge := by
  obtain ⟨hrest, hpower⟩ := h
  refine (event_powered _ hpower).trans ?_
  simp only [hcommit]
  exact finish_unsettled hrest rfl rfl

end

/-- What the end of an image write leaves in the store and beside it. -/
theorem imageWritten_store {s w : State} {r : Region} {good : Bool} (hstore : w.store = (s.imageWritten r good).store)
    (hrest : w.rest = (s.imageWritten r good).rest) :
    w.imageGoodAt r = good ∧ w.holdAt r = .free ∧ w.store.staged = copyRegion r s.store.live s.store.staged ∧
      w.store.live = s.store.live ∧ (∀ q, q ≠ r → w.holdAt q = s.holdAt q ∧ w.imageGoodAt q = s.imageGoodAt q) ∧
      { w.rest with store := s.store } = s.rest := by
  have hhold : ∀ q, w.holdAt q = (s.imageWritten r good).holdAt q := fun q => by
    unfold State.holdAt
    rw [hstore]
  have himage : ∀ q, w.imageGoodAt q = tget imageGoodStart (tset imageGoodStart s.store.imageGood (regionIdx r) good) (regionIdx q) :=
    fun q => by
      unfold State.imageGoodAt
      rw [hstore]
      rfl
  refine ⟨(himage r).trans (tget_tset_same ..), (hhold r).trans ((holdAt_setHold ..).trans (if_pos rfl)), ?_, ?_,
    fun q hq => ⟨(hhold q).trans ((holdAt_setHold ..).trans (if_neg hq)), ?_⟩, ?_⟩
  · rw [hstore]; rfl
  · rw [hstore]; rfl
  · exact (himage q).trans (tget_tset_other _ _ _ fun e => hq (regionIdx_inj e))
  · rw [hrest]; rfl

/-- Settles O26: the ends of a hold and of an image write write the store, and then raise their notices. -/
theorem holdExpiryAndImageWriteEnd : Obligations.HoldExpiryAndImageWriteEnd := by
  intro s r p t h
  refine ⟨fun hheld hdue => execHoldExpiry_expired h hheld hdue, fun hcommit => ?_⟩
  refine ⟨_, _, s.imageWritten r true, s.imageWritten r false, execImageWriteEnd_good h hcommit,
    execImageWriteEnd_failed h hcommit, rfl, ?good, rfl, ?failed, ?both, rfl, rfl, rfl, rfl⟩
  case good => exact And.left (imageWritten_store (good := true) rfl ((rejudge_rest _).trans (rest_raiseAt ..)))
  case failed => exact And.left (imageWritten_store (good := false) rfl ((rejudge_rest _).trans ((rest_raise ..).trans (rest_raiseAt ..))))
  case both =>
    rintro w (rfl | rfl)
    · exact And.right (imageWritten_store (good := true) rfl ((rejudge_rest _).trans (rest_raiseAt ..)))
    · exact And.right (imageWritten_store (good := false) rfl ((rejudge_rest _).trans ((rest_raise ..).trans (rest_raiseAt ..))))

/-! ### The key switch -/

section
variable (s : State) (r q : Region)

/-- A withdrawal writes the staged bank and the holds, besides its notice. -/
theorem withdraw_rest : { (s.withdraw r).rest with store := s.store } = s.rest := by
  unfold State.withdraw
  split
  · split
    · rfl
    · rw [rest_raiseAt]
      rfl
  · rfl

theorem withdraw_live : (s.withdraw r).store.live = s.store.live := by
  unfold State.withdraw
  split
  · split <;> rfl
  · rfl

theorem dropHold_holdAt : (s.dropHold r).holdAt q = if q = r then .free else s.holdAt q := holdAt_setHold ..

variable {s r q}

/-- A withdrawal of one region leaves the others. -/
theorem withdraw_other (hq : q ≠ r) :
    (s.withdraw r).holdAt q = s.holdAt q ∧ agreeOn q s.store.staged (s.withdraw r).store.staged := by
  have hdrop : (s.dropHold r).holdAt q = s.holdAt q := (dropHold_holdAt ..).trans (if_neg hq)
  unfold State.withdraw
  split
  · split
    · exact ⟨rfl, agreeOn_self q _⟩
    · exact ⟨hdrop, agreeOn_copy (Ne.symm hq) _ _⟩
  · exact ⟨rfl, agreeOn_self q _⟩

/-- A hold that its holder's rights in RUN allow stands. -/
theorem withdraw_allowed (h : ∀ p d, s.holdAt r = .held p d → s.rightsInRun p r = .edit) : s.withdraw r = s := by
  unfold State.withdraw
  split
  · rename_i p d hheld
    rw [if_pos (h p d hheld)]
  · rfl

theorem withdraw_withdrawn {p : Port} {d : Nat} (hheld : s.holdAt r = .held p d) (h : s.rightsInRun p r ≠ .edit) :
    (s.withdraw r).holdAt r = .free ∧ agreeOn r s.store.live (s.withdraw r).store.staged := by
  unfold State.withdraw
  simp only [hheld, if_neg h]
  refine ⟨(dropHold_holdAt s r r).trans (if_pos rfl), ?_⟩
  show copyRegion r (copyRegion r s.store.live s.store.staged) s.store.live = s.store.live
  cases r <;> rfl

end

/-- A right in RUN goes by the live bank alone. -/
theorem rightsInRun_live {s t : State} (h : t.store.live = s.store.live) (p : Port) (r : Region) :
    t.rightsInRun p r = s.rightsInRun p r := by
  unfold State.rightsInRun State.givenRights
  rw [h]

theorem foldl_withdraw_other {q : Region} {rs : List Region} (hq : q ∉ rs) (s : State) :
    (rs.foldl State.withdraw s).holdAt q = s.holdAt q ∧ agreeOn q s.store.staged (rs.foldl State.withdraw s).store.staged := by
  induction rs generalizing s with
  | nil => exact ⟨rfl, agreeOn_self q _⟩
  | cons r rs ih =>
    obtain ⟨hne, hrs⟩ := List.ne_and_not_mem_of_not_mem_cons hq
    obtain ⟨hhold, hstaged⟩ := ih hrs (s.withdraw r)
    obtain ⟨hhold', hstaged'⟩ := withdraw_other (s := s) hne
    exact ⟨hhold.trans hhold', agreeOn_trans hstaged' hstaged⟩

theorem foldl_withdraw_live (rs : List Region) (s : State) : (rs.foldl State.withdraw s).store.live = s.store.live := by
  induction rs generalizing s with
  | nil => rfl
  | cons r rs ih => exact (ih _).trans (withdraw_live s r)

theorem foldl_withdraw_setup (rs : List Region) (s : State) : (rs.foldl State.withdraw s).setup = s.setup := by
  induction rs generalizing s with
  | nil => rfl
  | cons r rs ih =>
    have hsetup := congrArg State.setup (withdraw_rest s r)
    exact (ih _).trans hsetup

/-- Every region stands once among the regions. -/
theorem allRegions_split (r : Region) : ∃ before behind, allRegions = before ++ r :: behind ∧ r ∉ before ∧ r ∉ behind := by
  have hmem : r ∈ allRegions := List.mem_of_getElem? (allRegions_regionIdx r)
  obtain ⟨before, behind, hsplit⟩ := List.append_of_mem hmem
  have hnodup : (before ++ r :: behind).Nodup := hsplit ▸ (by decide : allRegions.Nodup)
  obtain ⟨hbefore, hbehind⟩ := List.nodup_cons.mp (List.nodup_middle.mp hnodup)
  exact ⟨before, behind, hsplit, fun h => hbefore (List.mem_append_left _ h), fun h => hbefore (List.mem_append_right _ h)⟩

section
variable {s : State} {r : Region}

/-- The withdrawals of all regions come to the one of the region, seen from there. -/
theorem withdrawAll_region (s : State) (r : Region) :
    ∃ u : State, u.store.live = s.store.live ∧ u.holdAt r = s.holdAt r ∧ agreeOn r s.store.staged u.store.staged ∧
      (allRegions.foldl State.withdraw s).holdAt r = (u.withdraw r).holdAt r ∧
      agreeOn r (u.withdraw r).store.staged (allRegions.foldl State.withdraw s).store.staged := by
  obtain ⟨before, behind, hsplit, hbefore, hbehind⟩ := allRegions_split r
  obtain ⟨hhold, hstaged⟩ := foldl_withdraw_other hbefore s
  refine ⟨before.foldl State.withdraw s, foldl_withdraw_live before s, hhold, hstaged, ?_⟩
  rw [hsplit, List.foldl_append, List.foldl_cons]
  exact foldl_withdraw_other hbehind _

theorem withdrawAll_withdrawn {p : Port} {d : Nat} (hheld : s.holdAt r = .held p d) (h : s.rightsInRun p r ≠ .edit) :
    (allRegions.foldl State.withdraw s).holdAt r = .free ∧
      agreeOn r s.store.live (allRegions.foldl State.withdraw s).store.staged := by
  obtain ⟨u, hlive, hhold, -, hall, hstaged⟩ := withdrawAll_region s r
  obtain ⟨hfree, hdiscarded⟩ := withdraw_withdrawn (s := u) (hhold.trans hheld) (rightsInRun_live hlive p r ▸ h)
  exact ⟨hall.trans hfree, agreeOn_trans (hlive ▸ hdiscarded) hstaged⟩

theorem withdrawAll_allowed (h : ∀ p d, s.holdAt r = .held p d → s.rightsInRun p r = .edit) :
    (allRegions.foldl State.withdraw s).holdAt r = s.holdAt r ∧
      agreeOn r s.store.staged (allRegions.foldl State.withdraw s).store.staged := by
  obtain ⟨u, hlive, hhold, hsame, hall, hstaged⟩ := withdrawAll_region s r
  have huntouched : u.withdraw r = u := withdraw_allowed fun p d hheld =>
    (rightsInRun_live hlive p r).trans (h p d (hhold.symm.trans hheld))
  rw [huntouched] at hall hstaged
  exact ⟨hall.trans hhold, agreeOn_trans hsame hstaged⟩

end

theorem execKeySwitchRun_off {s : State} (hoff : s.power = false ∨ s.setup = false) :
    execKeySwitchRun s = .next { s with setup := false } := by
  have hnot : (s.power && s.setup) = false := by
    obtain hoff | hoff := hoff <;> simp [hoff]
  simp only [execKeySwitchRun, hnot, Bool.false_eq_true, if_false]

theorem execKeySwitchRun_on {s : State} (hpower : s.power = true) (hsetup : s.setup = true) :
    execKeySwitchRun s = finish (allRegions.foldl State.withdraw { s with setup := false }) :=
  if_pos (by rw [hpower, hsetup]; rfl)

/-- Settles O27: a region is met by its own withdrawal alone, which goes by its holder's rights in RUN. -/
theorem keySwitchWithdrawsHolds : Obligations.KeySwitchWithdrawsHolds := by
  refine ⟨fun s => rfl, fun s hoff => execKeySwitchRun_off hoff, fun s h hsetup => ?_⟩
  have hrun : exec .keySwitchRun s = _ := execKeySwitchRun_on h.2 hsetup
  obtain ⟨u, hu⟩ : ∃ u : State, u = { s with setup := false } := ⟨_, rfl⟩
  rw [← hu] at hrun
  have hlive : u.store.live = s.store.live := by rw [hu]
  have hheldBefore : ∀ r, u.holdAt r = s.holdAt r := fun r => by rw [hu]; rfl
  have hstagedBefore : u.store.staged = s.store.staged := by rw [hu]
  obtain ⟨t, ht⟩ := finish_next (allRegions.foldl State.withdraw u)
  have hstore : t.store = (allRegions.foldl State.withdraw u).store := store_of_base (finish_base ht)
  have hset : t.setup = (allRegions.foldl State.withdraw u).setup := setup_of_base (finish_base ht)
  have hhold : ∀ r, t.holdAt r = (allRegions.foldl State.withdraw u).holdAt r := fun r => by
    unfold State.holdAt
    rw [hstore]
  refine ⟨t, hrun.trans ht, ?_, ?_, fun r p d hheld hrights => ?_, fun r hallowed => ?_⟩
  · have hsetup : u.setup = false := congrArg State.setup hu
    exact hset.trans ((foldl_withdraw_setup allRegions u).trans hsetup)
  · rw [hstore, foldl_withdraw_live, hlive]
  · obtain ⟨hfree, hstaged⟩ := withdrawAll_withdrawn ((hheldBefore r).trans hheld) (rightsInRun_live hlive p r ▸ hrights)
    rw [← hstore, hlive] at hstaged
    exact ⟨(hhold r).trans hfree, hstaged⟩
  · obtain ⟨hsame, hstaged⟩ := withdrawAll_allowed (s := u) (r := r) fun p d hheld =>
      (rightsInRun_live hlive p r).trans (hallowed p d ((hheldBefore r).symm.trans hheld))
    rw [← hstore, hstagedBefore] at hstaged
    exact ⟨(hhold r).trans (hsame.trans (hheldBefore r)), hstaged⟩

end Sys2Proof.Machine
end

