-- ==== Sys2Proof/Proofs/PlanEntries.lean ====
section
/-! The entries of the plan's tables (section 4.1) and the checks of an activation (R85, R88, R90, R92, R40 and R157). Each check looks
for the first index at which its condition holds; `filledBefore` and `gapBefore` say of an entry what stands before it. -/

set_option autoImplicit false

namespace Sys2Proof.Machine

open Sys2Proof

/-! ### Reading an entry back -/

/-- What is put at an index of its table is read there. -/
theorem entryAt_putEntry_same (b : Plan) {i : Nat} {e : Entry} (hi : i < tableSize e.table) :
    entryAt (putEntry b i e) e.table i = e := by
  cases e
  case timeSet | zoneSet | drillSet => rfl
  case portSet v =>
    show Entry.portSet ((b.prt.ports.set (if i = 0 then .a else .b) v).get (if i = 0 then .a else .b)) = _
    by_cases h : i = 0 <;> simp only [h, if_true, if_false] <;> rfl
  all_goals simp [putEntry, entryAt, Entry.table]

/-- An entry put in a table leaves the other indices of the table. -/
theorem entryAt_putEntry_index (b : Plan) {i j : Nat} {e : Entry} (hi : i < tableSize e.table) (hj : j < tableSize e.table)
    (hne : j ≠ i) : entryAt (putEntry b i e) e.table j = entryAt b e.table j := by
  cases e
  case timeSet | zoneSet | drillSet =>
    have hi : i < 1 := hi
    have hj : j < 1 := hj
    omega
  case portSet v =>
    have hi : i < 2 := hi
    have hj : j < 2 := hj
    obtain ⟨rfl, rfl⟩ | ⟨rfl, rfl⟩ : (i = 0 ∧ j = 1) ∨ (i = 1 ∧ j = 0) := by omega
    · rfl
    · rfl
  all_goals simp [putEntry, entryAt, Entry.table, tget_tset_other, hne]

/-- An entry put in a table leaves the other tables. -/
theorem entryAt_putEntry_table (b : Plan) (i j : Nat) {e : Entry} {t : Tbl} (hne : t ≠ e.table) :
    entryAt (putEntry b i e) t j = entryAt b t j := by
  cases e <;> cases t <;> first | rfl | exact absurd rfl hne

/-- Settles O28: an entry is put in one table, at one index of it. -/
theorem entriesReadBack : Obligations.EntriesReadBack := by
  intro b i e hi
  refine ⟨entryAt_putEntry_same b hi, fun t j hj hne => ?_⟩
  by_cases ht : t = e.table
  · rw [ht] at hj ⊢
    exact entryAt_putEntry_index b hi hj (hne.resolve_left (not_not_intro ht))
  · exact entryAt_putEntry_table b i j ht

/-! ### The first index at which a check fails -/

/-- A check that finds the first of the indices below `n` that is bad. -/
def Finds (f : Option (Tbl × Nat)) (t : Tbl) (n : Nat) (bad : Nat → Prop) : Prop :=
  (∀ i, f = some (t, i) ↔ i < n ∧ bad i ∧ ∀ j, j < i → ¬bad j) ∧ (f = none ↔ ∀ i, i < n → ¬bad i)

theorem firstFault_finds (t : Tbl) {n : Nat} {p : Nat → Bool} {bad : Nat → Prop} (h : ∀ i, p i = true ↔ bad i) :
    Finds (firstFault t n p) t n bad := by
  have hnot : ∀ i, p i = false ↔ ¬bad i := fun i => by rw [← h i, Bool.not_eq_true]
  refine ⟨fun i => ?_, ?_⟩
  · unfold firstFault
    simp [hnot, h]
    tauto
  · unfold firstFault
    simp [hnot]

/-! ### What stands before an entry -/

/-- The last of the first `n` numbers at which something is found. -/
theorem findSome?_range_reverse {α : Type} {g : Nat → Option α} {n : Nat} {b : α} :
    (List.range n).reverse.findSome? g = some b ↔ ∃ k, k < n ∧ g k = some b ∧ ∀ m, k < m → m < n → g m = none := by
  induction n with
  | zero => simp
  | succ n ih =>
    rw [List.range_succ, List.reverse_append, List.reverse_singleton, List.singleton_append, List.findSome?_cons]
    cases hn : g n with
    | some x =>
      constructor
      · rintro ⟨rfl⟩
        exact ⟨n, n.lt_succ_self, hn, fun m h h' => by omega⟩
      · rintro ⟨k, hk, hb, hgap⟩
        obtain rfl | hlt := Nat.lt_succ_iff_lt_or_eq.mp hk |>.symm
        · rw [← hn, hb]
        · rw [hgap n hlt n.lt_succ_self] at hn
          cases hn
    | none =>
      rw [ih]
      constructor
      · rintro ⟨k, hk, hb, hgap⟩
        refine ⟨k, hk.trans n.lt_succ_self, hb, fun m h h' => ?_⟩
        obtain rfl | hlt := Nat.lt_succ_iff_lt_or_eq.mp h' |>.symm
        · exact hn
        · exact hgap m h hlt
      · rintro ⟨k, hk, hb, hgap⟩
        have hne : k ≠ n := fun e => by rw [← e, hb] at hn; cases hn
        exact ⟨k, by omega, hb, fun m h h' => hgap m h (h'.trans n.lt_succ_self)⟩

section
variable {α : Type} {t : Table (Option α)}

theorem filledBefore_eq_some {first i : Nat} {b : α} : filledBefore t first i = some b ↔
    ∃ k, first ≤ k ∧ k < i ∧ tget noneStart t k = some b ∧ ∀ m, k < m → m < i → tget noneStart t m = none := by
  unfold filledBefore
  rw [findSome?_range_reverse]
  constructor
  · rintro ⟨k, hk, hb, hgap⟩
    refine ⟨first + k, by omega, by omega, hb, fun m h h' => ?_⟩
    have hm := hgap (m - first) (by omega) (by omega)
    rwa [Nat.add_sub_cancel' (by omega)] at hm
  · rintro ⟨k, hfirst, hk, hb, hgap⟩
    refine ⟨k - first, by omega, ?_, fun m h h' => hgap _ (by omega) (by omega)⟩
    rwa [Nat.add_sub_cancel' hfirst]

/-- A check against the filled entry before: it fails where that entry is there and fails it. -/
theorem filledBefore_any {first i : Nat} {q : α → Bool} : (filledBefore t first i).any q = true ↔
    ∃ k b, first ≤ k ∧ k < i ∧ tget noneStart t k = some b ∧ (∀ m, k < m → m < i → tget noneStart t m = none) ∧ q b = true := by
  rw [Option.any_eq_true]
  constructor
  · rintro ⟨b, hb, hq⟩
    obtain ⟨k, hfirst, hk, hentry, hgap⟩ := filledBefore_eq_some.mp hb
    exact ⟨k, b, hfirst, hk, hentry, hgap, hq⟩
  · rintro ⟨k, b, hfirst, hk, hentry, hgap, hq⟩
    exact ⟨b, filledBefore_eq_some.mpr ⟨k, hfirst, hk, hentry, hgap⟩, hq⟩

/-- Some index of the same eight before this one has the property. -/
theorem any_eightBefore {i : Nat} {q : Nat → Bool} :
    ((List.range (i % 8)).any fun k => q (i / 8 * 8 + k)) = true ↔ ∃ k, k < i ∧ k / 8 = i / 8 ∧ q k = true := by
  rw [List.any_eq_true]
  constructor
  · rintro ⟨k, hk, hq⟩
    have hk := List.mem_range.mp hk
    exact ⟨i / 8 * 8 + k, by omega, by omega, hq⟩
  · rintro ⟨k, hk, hsame, hq⟩
    refine ⟨k % 8, List.mem_range.mpr (by omega), ?_⟩
    rwa [← hsame, Nat.div_add_mod']

theorem gapBefore_iff {i : Nat} : gapBefore t i = true ↔
    tget noneStart t i ≠ none ∧ ∃ k, k < i ∧ k / 8 = i / 8 ∧ tget noneStart t k = none := by
  unfold gapBefore
  rw [Bool.and_eq_true, any_eightBefore (q := fun k => (tget noneStart t k).isNone), ← Option.isSome_iff_ne_none]
  simp only [Option.isNone_iff_eq_none]

end

/-! ### The checks of the regions -/

theorem calFault_finds {c : Cal} {bad : Nat → Prop} (h : ∀ i, bad i ↔ ∃ e, tget noneStart c.except i = some e ∧
    (e.last < e.first ∨ ∃ k b, k < i ∧ tget noneStart c.except k = some b ∧
      (∀ m, k < m → m < i → tget noneStart c.except m = none) ∧ e.first ≤ b.last)) :
    Finds (calFault c) .except 64 bad := by
  refine firstFault_finds .except fun i => ?_
  rw [h]
  cases tget noneStart c.except i with
  | none => simp
  | some e => simp [filledBefore_any]

theorem dplFault_finds {d : Dpl} {bad : Nat → Prop} (h : ∀ i, bad i ↔ ∃ e k b, tget noneStart d.plan i = some e ∧ k < i ∧
    k / 64 = i / 64 ∧ tget noneStart d.plan k = some b ∧ (∀ m, k < m → m < i → tget noneStart d.plan m = none) ∧ e.time < b.time) :
    Finds (dplFault d) .plan 1024 bad := by
  refine firstFault_finds .plan fun i => ?_
  rw [h]
  cases tget noneStart d.plan i with
  | none => simp
  | some e =>
    have hsame : ∀ k, k < i → (i / 64 * 64 ≤ k ↔ k / 64 = i / 64) := fun k hk => by omega
    simp only [filledBefore_any, decide_eq_true_eq]
    constructor
    · rintro ⟨k, b, hfirst, hk, hrest⟩
      exact ⟨e, k, b, rfl, hk, (hsame k hk).mp hfirst, hrest⟩
    · rintro ⟨_, k, b, ⟨rfl⟩, hk, hfirst, hrest⟩
      exact ⟨k, b, (hsame k hk).mpr hfirst, hk, hrest⟩

/-- Times of day of two dates compare as the dates, and on one date as the times. -/
theorem count_lt_iff {x y : Stamp} (hx : x.sec < 86400) (hy : y.sec < 86400) :
    x.count < y.count ↔ x.day < y.day ∨ x.day = y.day ∧ x.sec < y.sec := by
  unfold Stamp.count
  omega

theorem ovrFault_finds {o : Ovr} {bad : Nat → Prop} (htime : ∀ i e, tget noneStart o.entries i = some e → e.time < 86400)
    (h : ∀ i, bad i ↔ ∃ e k b, tget noneStart o.entries i = some e ∧ k < i ∧ tget noneStart o.entries k = some b ∧
      (∀ m, k < m → m < i → tget noneStart o.entries m = none) ∧ (e.day < b.day ∨ e.day = b.day ∧ e.time < b.time)) :
    Finds (ovrFault o) .override 32 bad := by
  refine firstFault_finds .override fun i => ?_
  rw [h]
  cases hi : tget noneStart o.entries i with
  | none => simp
  | some e =>
    simp only [filledBefore_any, decide_eq_true_eq]
    constructor
    · rintro ⟨k, b, -, hk, hb, hgap, hlt⟩
      exact ⟨e, k, b, rfl, hk, hb, hgap, (count_lt_iff (htime i e hi) (htime k b hb)).mp hlt⟩
    · rintro ⟨_, k, b, ⟨rfl⟩, hk, hb, hgap, hlt⟩
      exact ⟨k, b, k.zero_le, hk, hb, hgap, (count_lt_iff (htime i e hi) (htime k b hb)).mpr hlt⟩

theorem patFault_finds {x : Pat} {bad : Nat → Prop} (h : ∀ i, bad i ↔ 8 ≤ i ∧ tget noneStart x.segments i ≠ none ∧
    ∃ k, k < i ∧ k / 8 = i / 8 ∧ tget noneStart x.segments k = none) : Finds (patFault x) .segment 128 bad := by
  refine firstFault_finds .segment fun i => ?_
  rw [h, Bool.and_eq_true, gapBefore_iff, decide_eq_true_eq]

theorem mem_allAddrs {a : Nat} : a ∈ allAddrs ↔ 1 ≤ a ∧ a ≤ 24 := by
  unfold allAddrs
  rw [List.mem_map]
  constructor
  · rintro ⟨k, hk, rfl⟩
    have hk := List.mem_range.mp hk
    omega
  · rintro ⟨h, h'⟩
    exact ⟨a - 1, List.mem_range.mpr (by omega), by omega⟩

theorem zonFault_finds {s : State} {x : Zon} {bad : Nat → Prop} (h : ∀ z, bad z ↔ ∃ l a, (s.zoneCfg z).line = some l ∧
    (tget zoneCfgStart x.zones z).line ≠ some l ∧ 1 ≤ a ∧ a ≤ 24 ∧
    ((∃ d, tget noneStart s.store.live.lin.devices (l * 24 + a - 1) = some d ∧ d.zone = some z) ∨
      ((s.lineAt l).recAt a).listed = true ∧ ((s.lineAt l).recAt a).zone = some z)) :
    Finds (s.zonFault x) .zone 32 bad := by
  refine firstFault_finds .zone fun z => ?_
  rw [h]
  cases (s.zoneCfg z).line with
  | none => simp
  | some l =>
    simp only [Bool.and_eq_true, decide_eq_true_eq, List.any_eq_true, mem_allAddrs, Bool.or_eq_true, Option.any_eq_true,
      Option.some.injEq, exists_and_left, exists_eq_left', and_assoc, devIdx]

theorem linFault_finds {s : State} {x : Lin} {bad : Nat → Prop} (h : ∀ i, bad i ↔ ∃ d, tget noneStart x.devices i = some d ∧
    ((d.kind = .clock ∧ d.zone ≠ none) ∨
      (d.kind ≠ .clock ∧ (d.zone = none ∨ ∃ z, d.zone = some z ∧ (s.zoneCfg z).line ≠ some (i / 24))))) :
    Finds (s.linFault x) .device 144 bad := by
  refine firstFault_finds .device fun i => ?_
  rw [h]
  cases tget noneStart x.devices i with
  | none => simp
  | some d => cases hkind : d.kind <;> cases hzone : d.zone <;> simp [hkind, hzone]

/-! ### The check of the drill programs -/

section
variable {d : Drl}

theorem stagesOf_isEmpty {n : Nat} : (d.stagesOf n).isEmpty = false ↔ ∃ k, k < 8 ∧ tget noneStart d.stages (n * 8 + k) ≠ none := by
  unfold Drl.stagesOf
  rw [List.isEmpty_eq_false_iff, ne_eq, List.filterMap_eq_nil_iff]
  simp only [List.mem_range, not_forall, exists_prop, ne_eq]

theorem stageFault_iff {i : Nat} : stageFault d i = true ↔ ∃ g, tget noneStart d.stages i = some g ∧
    ((∃ k, k < i ∧ k / 8 = i / 8 ∧ tget noneStart d.stages k = none) ∨
      (g.timing = true ∧ ∃ k h, k < i ∧ k / 8 = i / 8 ∧ tget noneStart d.stages k = some h ∧ h.timing = true) ∨
      (g.advance = .clearAll ∧ g.timing = false)) := by
  unfold stageFault
  cases hi : tget noneStart d.stages i with
  | none => simp
  | some g =>
    simp only [Bool.or_eq_true, Bool.and_eq_true, gapBefore_iff, hi,
      any_eightBefore (q := fun k => (tget noneStart d.stages k).any Stage.timing), Option.any_eq_true, decide_eq_true_eq,
      Bool.not_eq_true', ne_eq, reduceCtorEq, not_false_eq_true, true_and, Option.some.injEq, exists_eq_left', or_assoc,
      exists_and_left]

end

/-- The first check of several that finds something is the one whose finding stands. -/
theorem finds_orElse {f g : Option (Tbl × Nat)} {t : Tbl} {n : Nat} {bad : Nat → Prop} (h : Finds f t n bad)
    (hbad : ∃ i, i < n ∧ bad i) : (f <|> g) = f := by
  obtain ⟨i, hi, hbad⟩ := hbad
  cases f with
  | none => exact absurd hbad (h.2.mp rfl i hi)
  | some x => rfl

theorem finds_pass {f g : Option (Tbl × Nat)} {t : Tbl} {n : Nat} {bad : Nat → Prop} (h : Finds f t n bad)
    (hgood : ∀ i, i < n → ¬bad i) : (f <|> g) = g := by
  rw [h.2.mpr hgood]
  rfl

section
variable {d : Drl} {stages inProgram inStage inSchedule : Nat → Prop}
  (hstages : ∀ n, stages n ↔ ∃ k, k < 8 ∧ tget noneStart d.stages (n * 8 + k) ≠ none)
  (hprogram : ∀ n, inProgram n ↔ stages n ∧ (tget programStart d.programs n).building = [])
  (hstage : ∀ i, inStage i ↔ ∃ g, tget noneStart d.stages i = some g ∧
    ((∃ k, k < i ∧ k / 8 = i / 8 ∧ tget noneStart d.stages k = none) ∨
      (g.timing = true ∧ ∃ k h, k < i ∧ k / 8 = i / 8 ∧ tget noneStart d.stages k = some h ∧ h.timing = true) ∨
      (g.advance = .clearAll ∧ g.timing = false)))
  (hschedule : ∀ i, inSchedule i ↔ ∃ e, tget noneStart d.schedule i = some e ∧ ¬stages e.program)
include hstages hprogram hstage hschedule

/-- The checks of the drill programs: the programs, the stages, the schedule and the panel program, in this order (R157). -/
theorem drlFault_order :
    ∃ f g h k, drlFault d = (f <|> g <|> h <|> k) ∧ Finds f .program 8 inProgram ∧ Finds g .stage 64 inStage ∧
      Finds h .schedule 8 inSchedule ∧ Finds k .drillset 1 fun _ => ¬stages d.drillSet.program := by
  have hempty : ∀ n, (d.stagesOf n).isEmpty = true ↔ ¬stages n := fun n => by
    rw [hstages, ← stagesOf_isEmpty, Bool.not_eq_false]
  have hfilled : ∀ n, (d.stagesOf n).isEmpty = false ↔ stages n := fun n => by rw [hstages, stagesOf_isEmpty]
  refine ⟨_, _, _, _, rfl, firstFault_finds _ fun n => ?_, firstFault_finds _ fun i => stageFault_iff.trans (hstage i).symm,
    firstFault_finds _ fun i => ?_, firstFault_finds _ fun _ => hempty _⟩
  · rw [hprogram, Bool.and_eq_true, Bool.not_eq_true', hfilled, List.isEmpty_iff]
  · rw [hschedule, Option.any_eq_true]
    exact exists_congr fun e => and_congr_right fun _ => hempty _

/-- The first check that fails is the one told. -/
theorem drlFault_finds :
    ((∃ n, n < 8 ∧ inProgram n) → Finds (drlFault d) .program 8 inProgram) ∧
    ((∀ n, n < 8 → ¬inProgram n) →
      ((∃ i, i < 64 ∧ inStage i) → Finds (drlFault d) .stage 64 inStage) ∧
      ((∀ i, i < 64 → ¬inStage i) →
        ((∃ i, i < 8 ∧ inSchedule i) → Finds (drlFault d) .schedule 8 inSchedule) ∧
        ((∀ i, i < 8 → ¬inSchedule i) →
          (stages d.drillSet.program → drlFault d = none) ∧
          (¬stages d.drillSet.program → drlFault d = some (.drillset, 0))))) := by
  obtain ⟨f, g, h, k, hdrl, hf, hg, hh, hk⟩ := drlFault_order hstages hprogram hstage hschedule
  rw [hdrl]
  refine ⟨fun hbad => (finds_orElse hf hbad).symm ▸ hf, fun hgood => ?_⟩
  rw [finds_pass hf hgood]
  refine ⟨fun hbad => (finds_orElse hg hbad).symm ▸ hg, fun hgood => ?_⟩
  rw [finds_pass hg hgood]
  refine ⟨fun hbad => (finds_orElse hh hbad).symm ▸ hh, fun hgood => ?_⟩
  rw [finds_pass hh hgood]
  exact ⟨fun hthere => hk.2.mpr fun _ _ hnot => hnot hthere,
    fun hnot => (hk.1 0).mpr ⟨Nat.zero_lt_one, hnot, fun j hj => absurd hj j.not_lt_zero⟩⟩

end

/-- Settles O29: each region's check finds the first index of its condition, and what it finds is what ACTIVATE is refused with. -/
theorem validationFindsTheFirstFault : Obligations.ValidationFindsTheFirstFault := by
  unfold Obligations.ValidationFindsTheFirstFault
  intro finds
  refine ⟨fun c bad h => calFault_finds h, fun d bad h => dplFault_finds h, fun o bad htime h => ovrFault_finds htime h,
    fun x bad h => patFault_finds h, fun s x bad h => zonFault_finds h, ?drl, fun s x bad h => linFault_finds h, ?activate⟩
  case drl =>
    rintro d stages inProgram inStage inSchedule f rfl hstages hprogram hstage hschedule
    exact drlFault_finds hstages hprogram hstage hschedule
  case activate =>
    intro s p op r t i h hold hfault
    refine execActivate_invalid h hold (fun hzon => ?_) ?_
    · obtain ⟨hr, _⟩ | ⟨hr, _⟩ | ⟨hr, _⟩ | ⟨hr, _⟩ | ⟨_, hnormal, _⟩ | ⟨hr, _⟩ | ⟨hr, _⟩ := hfault
      case inr.inr.inr.inr.inl => exact hnormal
      all_goals exact absurd (hr.symm.trans hzon) (by decide)
    · obtain ⟨rfl, hf⟩ | ⟨rfl, hf⟩ | ⟨rfl, hf⟩ | ⟨rfl, hf⟩ | ⟨rfl, _, hf⟩ | ⟨rfl, hf⟩ | ⟨rfl, hf⟩ := hfault
      all_goals exact hf

end Sys2Proof.Machine
end

