-- ==== Sys2Proof/Proofs/ReferenceMarks.lean ====
section
/-! The reference and the settings of campus time (sections 1.3 to 1.7). A mark or a silence enters one slot of the history, which
qualifies or disqualifies the reference; a step of campus time, whether by a mark's evaluation or by SETTIME, is one operation. -/

set_option autoImplicit false

namespace Sys2Proof.Machine

open Sys2Proof

/-! ### What a command of the Timebase Unit leaves to carry out -/

section
variable {s : State} (h : s.restingLaw)
include h

theorem tbu_restingLaw (t : Tbu) : ({ s with tbu := t } : State).restingLaw := restingLaw_of_eq h rfl rfl rfl rfl

theorem finish_tbu (t : Tbu) : finish { s with tbu := t } = .next { s with tbu := t } := finish_eq_self (tbu_restingLaw h t)

theorem finish_tbuNoticed (t : Tbu) (k : NoticeKind) (d : Detail) :
    finish (({ s with tbu := t } : State).raise k d) = .next (({ s with tbu := t } : State).noticed k d) :=
  finish_unsettled h rfl rfl

end

/-! ### One slot of the history (R8, R12) -/

/-- The Timebase Unit with one more slot in its history. -/
def Tbu.slot (t : Tbu) (good : Bool) : Tbu :=
  { t with history := lastOf 128 (t.history ++ [good]), consec := if good then t.consec + 1 else 0 }

/-- A slot disqualifies, qualifies, or is only entered. -/
theorem enterSlot_eq (s : State) (good : Bool) {v : Tbu} (hv : v = s.tbu.slot good) :
    s.enterSlot good =
      if s.tbu.qualified && decide (4 ≤ v.badCount) then ({ s with tbu := v.disqualify } : State).raiseReference .disqualified v.badCount
      else if !s.tbu.qualified && decide (16 ≤ v.consec) then
        ({ s with tbu := v.qualify } : State).raiseReference .qualified v.badCount
      else { s with tbu := v } := by
  subst hv
  unfold State.enterSlot State.onTbu Tbu.slot
  dsimp only

/-- What the end of a reference leaves (R12, R13). -/
theorem disqualify_spec (t : Tbu) :
    t.disqualify.history = [] ∧ t.disqualify.consec = 0 ∧ t.disqualify.qualified = false ∧ t.disqualify.chain = t.chain ∧
      (t.disc = .locking → t.disqualify.disc = .free) ∧
      (t.disc = .locked → t.disqualify.disc = .holdover ∧ t.disqualify.holdoverAge = 0) ∧
      (t.disc = .free ∨ t.disc = .holdover → t.disqualify.disc = t.disc ∧ t.disqualify.holdoverAge = t.holdoverAge) ∧
      t.disqualify.day = t.day ∧ t.disqualify.sec = t.sec ∧ t.disqualify.slew = t.slew ∧ t.disqualify.drift = t.drift ∧
      t.disqualify.validity = t.validity := by
  unfold Tbu.disqualify
  cases t.disc <;> simp

section
variable {s : State} {w v : Tbu} {good : Bool} (hv : v = w.slot good)
include hv

theorem enterSlot_kept (h : w.qualified = true ∧ v.badCount ≤ 3 ∨ w.qualified = false ∧ v.consec ≤ 15) :
    ({ s with tbu := w } : State).enterSlot good = { s with tbu := v } := by
  refine (enterSlot_eq { s with tbu := w } good hv).trans ?_
  obtain ⟨hqualified, hfew⟩ | ⟨hqualified, hfew⟩ := h
  · rw [if_neg (by simp [hqualified]; omega), if_neg (by simp [hqualified])]
  · rw [if_neg (by simp [hqualified]), if_neg (by simp [hqualified]; omega)]

theorem enterSlot_qualifies (hqualified : w.qualified = false) (hmany : 16 ≤ v.consec) :
    ({ s with tbu := w } : State).enterSlot good = ({ s with tbu := v.qualify } : State).raiseReference .qualified v.badCount := by
  refine (enterSlot_eq { s with tbu := w } good hv).trans ?_
  rw [if_neg (by simp [hqualified]), if_pos (by simp [hqualified, hmany])]

theorem enterSlot_disqualifies (hqualified : w.qualified = true) (hmany : 4 ≤ v.badCount) :
    ({ s with tbu := w } : State).enterSlot good =
      ({ s with tbu := v.disqualify } : State).raiseReference .disqualified v.badCount := by
  refine (enterSlot_eq { s with tbu := w } good hv).trans ?_
  rw [if_pos (by simp [hqualified, hmany])]

end

/-- While the reference is enabled its notice tells the discipline state that stands. -/
theorem finish_raiseReference {s : State} (h : s.restingLaw) (henabled : s.timeSet.refEnable = true) (t : Tbu) (ev : RefEvent) (n : Nat) :
    finish (({ s with tbu := t } : State).raiseReference ev n) =
      .next (({ s with tbu := t } : State).noticed .reference (.reference ev t.disc n)) := by
  unfold State.raiseReference
  rw [discipline_enabled (s := { s with tbu := t }) henabled]
  exact finish_tbuNoticed h t _ _

/-! ### Silence and holdover (R9, R13, R15) -/

section
variable {s : State}

theorem execHoldoverAgeUnsync_due (h : s.ready) (hdue : s.tbu.unsyncDue = true) :
    execHoldoverAgeUnsync s =
      .next (({ s with tbu := { s.tbu with unsync := true, unsyncDue := false } } : State).noticed .reference
        (.reference .unsync s.discipline s.tbu.badCount)) := by
  refine (event_powered _ h.2).trans ?_
  unfold State.takeUnsync
  rw [if_pos hdue]
  exact finish_tbuNoticed h.1 _ _ _

theorem watched_disabled (hoff : s.timeSet.refEnable = false) : s.watched = none := by simp [State.watched, hoff]

theorem watched_enabled (hon : s.timeSet.refEnable = true) : s.watched = s.tbu.chain := by simp [State.watched, hon]

theorem execSilenceSlot_disabled (h : s.ready) (hoff : s.timeSet.refEnable = false) : execSilenceSlot s = .next s := by
  refine (event_powered _ h.2).trans ?_
  rw [watched_disabled hoff]
  exact finish_eq_self h.1

theorem execReferenceAbsent_disabled (h : s.ready) (hoff : s.timeSet.refEnable = false) : execReferenceAbsent s = .next s := by
  refine (event_powered _ h.2).trans ?_
  rw [watched_disabled hoff]
  exact finish_eq_self h.1

variable {c : Chain} (h : s.ready) (hon : s.timeSet.refEnable = true) (hchain : s.tbu.chain = some c)
include h hon hchain

theorem execSilenceSlot_due (hdue : c.slots = 0 ∧ c.at_ + 12000 ≤ s.now ∨ c.slots = 1 ∧ c.at_ + 20000 ≤ s.now) :
    execSilenceSlot s =
      finish (({ s with tbu := { s.tbu with chain := some { c with slots := c.slots + 1 } } } : State).enterSlot false) := by
  refine (event_powered _ h.2).trans (congrArg finish ?_)
  rw [watched_enabled hon, hchain]
  obtain ⟨hslots, hnow⟩ | ⟨hslots, hnow⟩ := hdue
  · simp only [hslots, silenceAt, State.reached, hnow, decide_true, if_true]
    rfl
  · simp only [hslots, silenceAt, State.reached, hnow, decide_true, if_true]
    rfl

theorem execReferenceAbsent_due (hdue : c.at_ + 24000 ≤ s.now) :
    execReferenceAbsent s =
      .next (({ s with tbu := { s.tbu.disqualify with chain := none } } : State).noticed .reference
        (.reference .absent s.tbu.disqualify.disc s.tbu.badCount)) := by
  refine (event_powered _ h.2).trans ?_
  rw [watched_enabled hon, hchain]
  simp only [State.reached, hdue, decide_true, if_true]
  exact finish_raiseReference h.1 hon { s.tbu.disqualify with chain := none } .absent _

end

/-- Settles O15: a silence is a bad slot, and the absence of the reference its disqualification with the chain dropped. -/
theorem silenceAndHoldoverEffects : Obligations.SilenceAndHoldoverEffects := by
  refine ⟨fun s h hdue => execHoldoverAgeUnsync_due h hdue,
    fun s h hoff => ⟨execSilenceSlot_disabled h hoff, execReferenceAbsent_disabled h hoff⟩, ?silence, ?absent⟩
  case silence =>
    intro s c h hon hchain hdue history bad hhistory hbad
    have hslot := execSilenceSlot_due h hon hchain hdue
    obtain ⟨v, hv⟩ : ∃ v : Tbu,
        v = { s.tbu with chain := some { c with slots := c.slots + 1 }, history := history, consec := 0 } := ⟨_, rfl⟩
    have hentered : v = ({ s.tbu with chain := some { c with slots := c.slots + 1 } } : Tbu).slot false := by
      rw [hv, hhistory]
      rfl
    have hcount : v.badCount = bad := by
      rw [hbad, hv]
      rfl
    have hconsec : v.consec = 0 := by rw [hv]
    refine ⟨fun hkept => ?_, fun hqualified hmany => ⟨v.disqualify, ?_, ?_⟩⟩
    · have hquiet : s.tbu.qualified = true ∧ v.badCount ≤ 3 ∨ s.tbu.qualified = false ∧ v.consec ≤ 15 := by
        cases hq : s.tbu.qualified <;> simp_all
      rw [← hv]
      exact hslot.trans ((congrArg finish (enterSlot_kept (s := s) hentered hquiet)).trans (finish_tbu h.1 v))
    · have hdisqualified := enterSlot_disqualifies (s := s) hentered hqualified (hcount ▸ hmany)
      exact hslot.trans ((congrArg finish hdisqualified).trans (hcount ▸ finish_raiseReference h.1 hon v.disqualify _ _))
    · have hsame : v.disc = s.tbu.disc ∧ v.holdoverAge = s.tbu.holdoverAge ∧
          v.chain = some { c with slots := c.slots + 1 } := by rw [hv]; exact ⟨rfl, rfl, rfl⟩
      obtain ⟨hdisc, hage, hchained⟩ := hsame
      obtain ⟨hhistory, hconsec, hunqualified, hkept, hlocking, hlocked, hfree, -⟩ := disqualify_spec v
      rw [hdisc] at hlocking hlocked hfree
      rw [hage] at hfree
      exact ⟨hkept.trans hchained, hhistory, hconsec, hunqualified, hlocking, hlocked, hfree⟩
  case absent =>
    intro s c h hon hchain hdue
    obtain ⟨hhistory, hconsec, hqualified, -, hlocking, hlocked, hfree, hday, hsec, hslew, hdrift, hvalidity⟩ :=
      disqualify_spec s.tbu
    exact ⟨_, execReferenceAbsent_due h hon hchain hdue, rfl, hhistory, hconsec, hqualified, hlocking, hlocked, hfree, hday, hsec,
      hslew, hdrift, hvalidity⟩

/-! ### A step of campus time (R4, R17) -/

/-- The Timebase Unit stepped to the time it shows, from the time before: the new second's length, the battery clock loaded and
the step's record. -/
def Tbu.stepped (t : Tbu) (limit : Nat) (before : CampusMs) (cause : StepCause) : Tbu :=
  let u := (t.startSecond limit).loadBattery
  { u with lastStep := some { before := before, after := u.campus, amount := stepAmount before u.campus, cause := cause } }

theorem stepTo_base (s : State) (before : CampusMs) (cause : StepCause) :
    (s.stepTo before cause).base = ({ s with tbu := s.tbu.stepped s.timeSet.slewLimit before cause } : State).base := by
  unfold State.stepTo
  dsimp only
  rw [base_lineSeconds, base_settle, base_dsqStep, base_settle, base_bdsStep, base_raise]
  rfl

/-- A step of a valid campus time with nothing left to slew. -/
theorem stepped_spec {t : Tbu} (hslew : t.slew = 0) (hvalid : t.validity = .valid) (limit : Nat) (before : CampusMs) (cause : StepCause) :
    ∃ u : Tbu, t.stepped limit before cause = u ∧ u.day = t.day ∧ u.sec = t.sec ∧ u.phase = t.phase ∧ u.slew = 0 ∧ u.drift = t.drift ∧
      u.disc = t.disc ∧ u.validity = .valid ∧ u.unsync = t.unsync ∧ u.chain = t.chain ∧ u.history = t.history ∧
      u.qualified = t.qualified ∧ u.nudgeReady = t.nudgeReady ∧
      u.battery = { t.battery with time := { day := t.day, sec := t.sec }, valid := true } ∧
      ∃ r : StepRecord, u.lastStep = some r ∧ r.before = before ∧ r.after = t.campus ∧ r.cause = cause := by
  have hnone : t.slew - slewShare t.slew limit = 0 := by
    rw [hslew]
    unfold slewShare clampInt
    simp only [Int.ofNat_eq_natCast]
    omega
  have hload : (t.startSecond limit).loadBattery = { t.startSecond limit with
      battery := { t.battery with time := { day := t.day, sec := t.sec }, valid := true } } := by
    unfold Tbu.loadBattery
    have hstarted : (t.startSecond limit).validity ≠ .invalid := by
      show t.validity ≠ .invalid
      rw [hvalid]
      decide
    rw [if_neg hstarted]
    rfl
  refine ⟨_, rfl, ?_⟩
  unfold Tbu.stepped
  rw [hload]
  exact ⟨rfl, rfl, rfl, hnone, rfl, rfl, hvalid, rfl, rfl, rfl, rfl, rfl, rfl, _, rfl, rfl, rfl, rfl⟩

/-! ### SETTIME and ADJUST (R20, R21) -/

section
variable {s : State} {p : Port} {op : Fin 16} (h : s.takes p op .office)

theorem governed_eq : s.governed = true ↔ s.discipline = .locking ∨ s.discipline = .locked := by simp [State.governed]

theorem governed_free (hfree : s.discipline = .free ∨ s.discipline = .holdover) : s.governed = false := by
  obtain hfree | hfree := hfree <;> simp [State.governed, hfree]

include h

theorem execSettime_governed {d : WrittenDate} {m : WrittenTime} {ms : Nat} (hgoverned : s.governed = true) :
    execSettime p op d m ms s = .next (s.replied p (.no .state)) :=
  request_reads h _ (by rw [if_pos hgoverned]) rfl

theorem execAdjust_governed {ms : Int} (hgoverned : s.governed = true) :
    execAdjust p op ms s = .next (s.replied p (.no .state)) :=
  request_reads h _ (by rw [if_pos hgoverned]) rfl

variable (hfree : s.governed = false)
include hfree

theorem execSettime_range {d : WrittenDate} {m : WrittenTime} {ms : Nat} (hnone : messageStamp d m = none ∨ 999 < ms) :
    execSettime p op d m ms s = .next (s.replied p (.no .range)) := by
  refine request_reads h _ ?_ rfl
  rw [hfree]
  obtain hnone | hms := hnone
  · simp only [hnone, Bool.false_eq_true, if_false]
  · have hlarge : decide (ms ≤ 999) = false := decide_eq_false (Nat.not_le.mpr hms)
    simp only [hlarge, Bool.false_eq_true, if_false]
    cases messageStamp d m <;> rfl

theorem execSettime_accepted {d : WrittenDate} {m : WrittenTime} {ms : Nat} {x : Stamp} (hx : messageStamp d m = some x) (hms : ms ≤ 999) :
    execSettime p op d m ms s = finish (((s.takeUnsync.onTbu fun t =>
      { t with day := x.day, sec := x.sec, phase := 8 * ms, slew := 0, acc := 0, validity := .valid, unsync := false }).stepTo
        s.campus .settime).answer p .ok) := by
  obtain ⟨-, hreads, hnone, hclass⟩ := h
  refine (request_allowed _ hreads hnone hclass).trans ?_
  rw [hfree]
  simp only [hx, decide_eq_true hms, Bool.false_eq_true, if_false]
  rfl

theorem execAdjust_accepted {ms m r : Int} (hm : m = clampInt 500 ms) (hr : r = clampInt 4000 (s.tbu.slew + 8 * m)) :
    execAdjust p op ms s = .next (({ s with tbu := { s.tbu with slew := r, validity := .valid } } : State).replied p
      (if m = ms ∧ r = s.tbu.slew + 8 * m then .ok else .okClamped)) := by
  obtain ⟨hrest, hreads, hnone, hclass⟩ := h
  refine (request_allowed _ hreads hnone hclass).trans ?_
  have haccess : (if m = ms ∧ r = s.tbu.slew + 8 * m then Reply.ok else .okClamped).access? = none := by split <;> rfl
  rw [hfree]
  simp only [Bool.false_eq_true, if_false, ← hm, ← hr]
  rw [respond_plain haccess]
  exact finish_replied (tbu_restingLaw hrest _) p _

end

/-- A state that differs from another in the Timebase Unit alone, as far as the base shows, still does so behind an operation of
that unit. -/
theorem onTbu_base {s x : State} {t : Tbu} (h : s.base = ({ x with tbu := t } : State).base) (f : Tbu → Tbu) :
    (s.onTbu f).base = ({ x with tbu := f t } : State).base := congrArg (State.onTbu · f) h

theorem stepTo_base_of {s x : State} {t : Tbu} (h : s.base = ({ x with tbu := t } : State).base) (before : CampusMs) (cause : StepCause) :
    (s.stepTo before cause).base = ({ x with tbu := t.stepped x.timeSet.slewLimit before cause } : State).base := by
  have htbu : s.tbu = t := tbu_of_base (h : s.base = State.base _)
  have hset : s.timeSet = x.timeSet := by
    have hset := congrArg State.timeSet h
    exact hset
  rw [stepTo_base, htbu, hset]
  exact congrArg (State.onTbu · fun _ => t.stepped x.timeSet.slewLimit before cause) h

/-- The UNSYNC notice that may be due before campus time moves writes its flags alone. -/
theorem takeUnsync_base (s : State) :
    ∃ a b, s.takeUnsync.base = ({ s with tbu := { s.tbu with unsync := a, unsyncDue := b } } : State).base := by
  obtain ⟨-, h⟩ | ⟨-, h⟩ := takeUnsync_cases s
  · exact ⟨s.tbu.unsync, s.tbu.unsyncDue, by rw [h]⟩
  · exact ⟨true, false, by rw [h]; exact base_raise ..⟩

/-- Settles O19. -/
theorem adjustTrimsTheSlewRemainder : Obligations.AdjustTrimsTheSlewRemainder := by
  intro s p op ms h
  exact ⟨fun hgoverned => execAdjust_governed h (governed_eq.mpr hgoverned),
    fun hfree m r hm hr => execAdjust_accepted h (governed_free hfree) hm hr⟩

/-- Settles O18: an accepted SETTIME is a step of campus time to the time given. -/
theorem settimeStepsCampusTime : Obligations.SettimeStepsCampusTime := by
  intro s p op d m ms h
  refine ⟨fun hgoverned => execSettime_governed h (governed_eq.mpr hgoverned),
    fun hfree => ⟨fun hnone => execSettime_range h (governed_free hfree) hnone, fun x hx hms => ?_⟩⟩
  have hset := execSettime_accepted h (governed_free hfree) hx hms
  obtain ⟨a, b, hunsync⟩ := takeUnsync_base s
  have hstepped := stepTo_base_of (onTbu_base hunsync fun t =>
    { t with day := x.day, sec := x.sec, phase := 8 * ms, slew := 0, acc := 0, validity := .valid, unsync := false }) s.campus .settime
  obtain ⟨u, hu, hday, hsec, hphase, hslew, hdrift, hdisc, hvalidity, hsync, hchain, hhistory, -, -, hbattery, r, hr, hbefore,
    hafter, hcause⟩ := stepped_spec (t := { s.tbu with
      unsyncDue := b, day := x.day, sec := x.sec, phase := 8 * ms, slew := 0, acc := 0, validity := .valid, unsync := false })
    rfl rfl s.timeSet.slewLimit s.campus .settime
  rw [hu] at hstepped
  obtain ⟨t, ht⟩ := finish_next (((s.takeUnsync.onTbu fun t =>
    { t with day := x.day, sec := x.sec, phase := 8 * ms, slew := 0, acc := 0, validity := .valid, unsync := false }).stepTo
      s.campus .settime).answer p .ok)
  have hbase := finish_answered_base ht hstepped
  have htbu : t.tbu = u := by
    have h := congrArg State.tbu hbase
    exact h
  refine ⟨t, hset.trans ht, htbu.symm ▸ hbase, ?_⟩
  rw [htbu]
  refine ⟨hday, hsec, hphase, hslew, hdrift, hdisc, hvalidity, hsync, hchain, hhistory, hbattery, r, hr, hbefore, ?_, hcause⟩
  rw [hafter]
  have hread : min (8 * ms) 7999 / 8 = ms := by omega
  exact congrArg (fun n => ({ day := x.day, ms := x.sec * 1000 + n } : CampusMs)) hread

/-! ### The evaluation of a good mark (R16, R17) -/

theorem slewBy_keeps (t : Tbu) (e8 : Int) (n : Nat) :
    (t.slewBy e8 n).disc = t.disc ∧ (t.slewBy e8 n).validity = t.validity ∧ (t.slewBy e8 n).unsync = t.unsync ∧
      (t.slewBy e8 n).qualified = t.qualified ∧ (t.slewBy e8 n).chain = t.chain ∧ (t.slewBy e8 n).history = t.history ∧
      (t.slewBy e8 n).lastStep = t.lastStep ∧
      (t.slewBy e8 n).drift =
        (if t.disc = .locked ∧ t.nudgeReady = true then clampInt 2880 (t.drift + nudge e8 n) else t.drift) := by
  obtain ⟨hdisc, hready⟩ | hnot := slewBy_cases t
  · rw [slewBy_nudged t e8 n hdisc hready, if_pos ⟨hdisc, hready⟩]
    exact ⟨rfl, rfl, rfl, rfl, rfl, rfl, rfl, rfl⟩
  · have hnone : ¬(t.disc = .locked ∧ t.nudgeReady = true) := by
      rintro ⟨hdisc, hready⟩
      simp [hdisc, hready] at hnot
    rw [slewBy_unnudged t e8 n hnot, if_neg hnone]
    exact ⟨rfl, rfl, rfl, rfl, rfl, rfl, rfl, rfl⟩

/-- The Timebase Unit behind an evaluation that steps campus time (R17). -/
def Tbu.evaluatedFar (t : Tbu) (m : Stamp) (limit : Nat) : Tbu :=
  ({ t with day := m.day, sec := m.sec, phase := 0, slew := 0, acc := 0, nudgeReady := false } : Tbu).stepped limit t.campus .reference

/-- An evaluation makes campus time valid, and steps it or slews the offset away. -/
theorem evaluate_base (s : State) (m : Stamp) : ∃ b t,
    t = { s.tbu with unsyncDue := b, validity := .valid, unsync := false } ∧
      (t.isStep m s.timeSet.stepThreshold = true →
        (s.evaluate m).base = ({ s with tbu := t.evaluatedFar m s.timeSet.slewLimit } : State).base) ∧
      (t.isStep m s.timeSet.stepThreshold = false →
        (s.evaluate m).base = ({ s with tbu := t.slewBy (t.offset m) s.timeSet.interval } : State).base) := by
  obtain ⟨a, b, hunsync⟩ := takeUnsync_base s
  have hbase := onTbu_base hunsync fun t => { t with validity := .valid, unsync := false }
  refine ⟨b, _, rfl, ?_⟩
  unfold State.evaluate
  revert hbase
  generalize s.takeUnsync.onTbu (fun t => { t with validity := .valid, unsync := false }) = u
  intro hbase
  have htbu : u.tbu = { s.tbu with unsyncDue := b, validity := .valid, unsync := false } := by
    have h := congrArg State.tbu hbase
    exact h
  have hset : u.timeSet = s.timeSet := by
    have h := congrArg State.timeSet hbase
    exact h
  dsimp only
  rw [hset]
  unfold State.campus
  rw [htbu]
  refine ⟨fun hfar => ?_, fun hnear => ?_⟩
  · rw [if_pos hfar]
    exact stepTo_base_of (onTbu_base hbase _) _ _
  · rw [hnear]
    exact onTbu_base hbase _

/-- What an evaluation's step leaves. -/
theorem evaluatedFar_spec {t : Tbu} (hvalid : t.validity = .valid) (m : Stamp) (limit : Nat) :
    ∃ u : Tbu, t.evaluatedFar m limit = u ∧ u.day = m.day ∧ u.sec = m.sec ∧ u.phase = 0 ∧ u.slew = 0 ∧ u.drift = t.drift ∧
      u.disc = t.disc ∧ u.validity = .valid ∧ u.unsync = t.unsync ∧ u.chain = t.chain ∧ u.history = t.history ∧
      u.qualified = t.qualified ∧ u.nudgeReady = false ∧ u.battery = { t.battery with time := m, valid := true } ∧
      ∃ r : StepRecord, u.lastStep = some r ∧ r.before = t.campus ∧ r.after = { day := m.day, ms := m.sec * 1000 } ∧
        r.cause = .reference := by
  obtain ⟨u, hu, hday, hsec, hphase, hslew, hdrift, hdisc, hvalidity, hsync, hchain, hhistory, hqualified, hready, hbattery, r, hr,
    hbefore, hafter, hcause⟩ := stepped_spec
      (t := { t with day := m.day, sec := m.sec, phase := 0, slew := 0, acc := 0, nudgeReady := false }) rfl hvalid limit t.campus
      .reference
  have hcampus : ({ t with day := m.day, sec := m.sec, phase := 0, slew := 0, acc := 0, nudgeReady := false } : Tbu).campus =
      { day := m.day, ms := m.sec * 1000 } := by simp [Tbu.campus, readPhase]
  exact ⟨u, hu, hday, hsec, hphase, hslew, hdrift, hdisc, hvalidity, hsync, hchain, hhistory, hqualified, hready, hbattery, r, hr,
    hbefore, hafter.trans hcampus, hcause⟩

theorem goodMark_idle {s : State} (h : s.tbu.disc = .free ∨ s.tbu.disc = .holdover) (m : Stamp) : s.goodMark m = s := by
  unfold State.goodMark
  obtain h | h := h <;> rw [h]

theorem goodMark_counted {s : State} (h : s.tbu.disc = .locked) (hfew : s.tbu.goodMarks + 1 < s.timeSet.interval) (m : Stamp) :
    s.goodMark m = { s with tbu := { s.tbu with goodMarks := s.tbu.goodMarks + 1 } } := by
  unfold State.goodMark
  rw [h]
  exact if_neg (Nat.not_le.mpr hfew)

/-- A good mark that is evaluated leaves the reference LOCKED, with its good marks counted anew. -/
theorem goodMark_evaluated {s : State} {e : Tbu} (m : Stamp)
    (h : s.tbu.disc = .locking ∨ s.tbu.disc = .locked ∧ s.timeSet.interval ≤ s.tbu.goodMarks + 1)
    (he : (s.evaluate m).base = ({ s with tbu := e } : State).base) (hdisc : e.disc = s.tbu.disc) :
    (s.goodMark m).base = ({ s with tbu := { e with disc := .locked, goodMarks := 0 } } : State).base := by
  unfold State.goodMark
  obtain hlocking | ⟨hlocked, hmany⟩ := h
  · rw [hlocking]
    exact onTbu_base he _
  · rw [hlocked] at hdisc
    rw [hlocked]
    dsimp only
    rw [if_pos hmany, ← hdisc]
    exact onTbu_base he _

/-! ### A mark against the chain (R10, R11) -/

section
variable {s : State} {c : Chain} {m : Option Stamp} {good : Bool}

/-- The Timebase Unit with a mark made the last of its chain. -/
def Tbu.marked (t : Tbu) (c : Chain) (now : Nat) (m : Option Stamp) : Tbu := { t with chain := some (nextChain c now m) }

theorem judgeMark_eq (s : State) (c : Chain) (m : Option Stamp) {u : State}
    (hu : ({ s with tbu := s.tbu.marked c s.now m } : State).enterSlot (markGood c s.now m) = u) :
    s.judgeMark c m = u ∨ ∃ x, m = some x ∧ markGood c s.now m = true ∧ s.tbu.qualified = true ∧ s.judgeMark c m = u.goodMark x := by
  have hentered : ∀ good, (s.onTbu fun t => { t with chain := some (nextChain c s.now m) }).enterSlot good =
      ({ s with tbu := s.tbu.marked c s.now m } : State).enterSlot good := fun _ => rfl
  unfold State.judgeMark
  dsimp only
  rw [hentered, hu]
  split
  · rename_i x hboth
    obtain ⟨hgood, hqualified⟩ := Bool.and_eq_true_iff.mp hboth
    exact .inr ⟨x, rfl, hgood, hqualified, rfl⟩
  · exact .inl rfl

/-- A bad mark, or one of a reference that is not qualified, is not evaluated; nor is one at which the discipline state takes no
evaluation. -/
theorem judgeMark_entered (hgood : good = markGood c s.now m) {u : State}
    (hu : ({ s with tbu := s.tbu.marked c s.now m } : State).enterSlot good = u)
    (h : good = false ∨ s.tbu.qualified = false ∨ u.tbu.disc = .free ∨ u.tbu.disc = .holdover) : s.judgeMark c m = u := by
  subst hgood
  obtain hsame | ⟨x, -, hgood, hqualified, hjudged⟩ := judgeMark_eq s c m hu
  · exact hsame
  · obtain h | h | hidle := h
    · rw [h] at hgood; cases hgood
    · rw [h] at hqualified; cases hqualified
    · exact hjudged.trans (goodMark_idle hidle x)

/-- A good mark of a qualified reference is taken by its discipline state. -/
theorem judgeMark_good (hgood : markGood c s.now m = true) (hqualified : s.tbu.qualified = true) {x : Stamp} (hx : m = some x) {u : State}
    (hu : ({ s with tbu := s.tbu.marked c s.now m } : State).enterSlot true = u) : s.judgeMark c m = u.goodMark x := by
  have hentered : ∀ good, (s.onTbu fun t => { t with chain := some (nextChain c s.now m) }).enterSlot good =
      ({ s with tbu := s.tbu.marked c s.now m } : State).enterSlot good := fun _ => rfl
  unfold State.judgeMark
  dsimp only
  rw [hentered, hgood, hqualified, hu, hx]
  rfl

variable {d : WrittenDate} {w : WrittenTime} (h : s.ready)
include h

theorem execReferenceMark_disabled (hoff : s.timeSet.refEnable = false) : execReferenceMark d w s = .next s := by
  refine (event_powered _ h.2).trans ?_
  rw [hoff]
  exact finish_eq_self h.1

variable (hon : s.timeSet.refEnable = true)
include hon

theorem execReferenceMark_chain (hchain : s.tbu.chain = some c) :
    execReferenceMark d w s = finish (s.judgeMark c (messageStamp d w)) := by
  refine (event_powered _ h.2).trans (congrArg finish ?_)
  rw [hon, hchain]
  rfl

theorem execReferenceMark_setAside (hnone : s.tbu.chain = none) (hbad : messageStamp d w = none) :
    execReferenceMark d w s = .next s := by
  refine (event_powered _ h.2).trans ?_
  rw [hon, hnone, hbad]
  exact finish_eq_self h.1

theorem execReferenceMark_starts (hnone : s.tbu.chain = none) {x : Stamp} (hx : messageStamp d w = some x) :
    execReferenceMark d w s =
      .next { s with tbu := { s.tbu with chain := some { msg := x, at_ := s.now, slots := 0 }, consec := 0 } } := by
  refine (event_powered _ h.2).trans ?_
  rw [hon, hnone, hx]
  exact finish_tbu h.1 _

end

theorem isStep_iff {t : Tbu} {m : Stamp} {threshold : Nat} : t.isStep m threshold = true ↔
    t.day + 1 < m.day ∨ m.day + 1 < t.day ∨ 8 * threshold < (t.offset m).natAbs := by
  unfold Tbu.isStep
  simp only [Bool.or_eq_true, decide_eq_true_eq]
  omega

/-- What an evaluated good mark leaves of campus time, near or far from the mark's message. -/
theorem goodMark_finished {s : State} (x : Stamp)
    (h : s.tbu.disc = .locking ∨ s.tbu.disc = .locked ∧ s.timeSet.interval ≤ s.tbu.goodMarks + 1) :
    ∃ t : State, finish (s.goodMark x) = .next t ∧ t.base = ({ s with tbu := t.tbu } : State).base ∧
      t.tbu.disc = .locked ∧ t.tbu.goodMarks = 0 ∧ t.tbu.validity = .valid ∧ t.tbu.unsync = false ∧
      t.tbu.qualified = s.tbu.qualified ∧ t.tbu.chain = s.tbu.chain ∧ t.tbu.history = s.tbu.history ∧
      (s.tbu.isStep x s.timeSet.stepThreshold = false →
        t.tbu.day = s.tbu.day ∧ t.tbu.sec = s.tbu.sec ∧ t.tbu.phase = s.tbu.phase ∧ t.tbu.slew = -s.tbu.offset x ∧
        (t.tbu.nudgeReady = true ↔ s.tbu.disc = .locked) ∧ t.tbu.lastStep = s.tbu.lastStep ∧
        t.tbu.drift = if s.tbu.disc = .locked ∧ s.tbu.nudgeReady = true then
          clampInt 2880 (s.tbu.drift + nudge (s.tbu.offset x) s.timeSet.interval) else s.tbu.drift) ∧
      (s.tbu.isStep x s.timeSet.stepThreshold = true →
        t.tbu.day = x.day ∧ t.tbu.sec = x.sec ∧ t.tbu.phase = 0 ∧ t.tbu.slew = 0 ∧ t.tbu.nudgeReady = false ∧
        t.tbu.drift = s.tbu.drift ∧ t.tbu.battery = { s.tbu.battery with time := x, valid := true } ∧
        ∃ r : StepRecord, t.tbu.lastStep = some r ∧ r.before = s.campus ∧ r.after = { day := x.day, ms := x.sec * 1000 } ∧
          r.cause = .reference) := by
  obtain ⟨b, w, hw, hfar, hnear⟩ := evaluate_base s x
  have hsame : w.isStep x s.timeSet.stepThreshold = s.tbu.isStep x s.timeSet.stepThreshold := by rw [hw]; rfl
  have hcampus : w.campus = s.campus := by rw [hw]; rfl
  obtain ⟨t, ht⟩ := finish_next (s.goodMark x)
  have hbase := finish_base ht
  cases hstep : s.tbu.isStep x s.timeSet.stepThreshold with
  | true =>
    obtain ⟨u, hu, hday, hsec, hphase, hslew, hdrift, hdisc, hvalidity, hsync, hchain, hhistory, hqualified, hready, hbattery, r, hr,
      hbefore, hafter, hcause⟩ := evaluatedFar_spec (t := w) (by rw [hw]) x s.timeSet.slewLimit
    have hmarked := goodMark_evaluated x h (hu ▸ hfar (hsame.trans hstep)) (by rw [hdisc, hw])
    rw [hmarked] at hbase
    have htbu : t.tbu = { u with disc := .locked, goodMarks := 0 } := by
      have h := congrArg State.tbu hbase
      exact h
    refine ⟨t, ht, by rw [htbu]; exact hbase, ?_⟩
    rw [htbu]
    subst hw
    exact ⟨rfl, rfl, hvalidity, hsync, hqualified, hchain, hhistory, nofun, fun _ => ⟨hday, hsec, hphase, hslew, hready, hdrift, hbattery, r, hr,
      hbefore.trans hcampus, hafter, hcause⟩⟩
  | false =>
    obtain ⟨hdisc, hvalidity, hsync, hqualified, hchain, hhistory, hlast, hdrift⟩ := slewBy_keeps w (w.offset x) s.timeSet.interval
    obtain ⟨hready, hday, hsec, hphase, -⟩ := slewBy_frame w (w.offset x) s.timeSet.interval
    have hslew := slewBy_slew w (w.offset x) s.timeSet.interval
    have hmarked := goodMark_evaluated x h (hnear (hsame.trans hstep)) (by rw [hdisc, hw])
    rw [hmarked] at hbase
    have htbu : t.tbu = { w.slewBy (w.offset x) s.timeSet.interval with disc := .locked, goodMarks := 0 } := by
      have h := congrArg State.tbu hbase
      exact h
    refine ⟨t, ht, by rw [htbu]; exact hbase, ?_⟩
    rw [htbu]
    subst hw
    exact ⟨rfl, rfl, hvalidity, hsync, hqualified, hchain, hhistory, fun _ => ⟨hday, hsec, hphase, hslew, hready, hlast, hdrift⟩,
      nofun⟩

/-- Settles O16: a mark against the chain enters a slot, and a good one that the discipline state takes is evaluated. -/
theorem referenceMarkJudged : Obligations.ReferenceMarkJudged := by
  intro s d m h
  refine ⟨fun hoff => execReferenceMark_disabled h hoff, fun hon hnone hbad => execReferenceMark_setAside h hon hnone hbad,
    fun x hon hnone hx => execReferenceMark_starts h hon hnone hx, ?_⟩
  intro c good v bad hon hchain hgoodIff hv hbad
  have hmark := execReferenceMark_chain (d := d) (w := m) h hon hchain
  have hgood : good = markGood c s.now (messageStamp d m) := by
    rw [Bool.eq_iff_iff, hgoodIff]
    simp [markGood, and_assoc]
  have hslot : v = (s.tbu.marked c s.now (messageStamp d m)).slot good := by rw [hv]; rfl
  have hcount : v.badCount = bad := by rw [hbad]; rfl
  obtain ⟨hdisc, hage, hmarks, hset⟩ : v.disc = s.tbu.disc ∧ v.holdoverAge = s.tbu.holdoverAge ∧ v.goodMarks = s.tbu.goodMarks ∧
      v.qualified = s.tbu.qualified := by rw [hv]; exact ⟨rfl, rfl, rfl, rfl⟩
  refine ⟨fun hunqualified hfew => ?few, fun hunqualified hmany => ?qualifies, fun hqualified hmany => ?disqualifies,
    fun hqualified hfew hnot => ?bad, fun hqualified hfew htrue hlocked hcounted => ?counted, ?evaluated⟩
  case few =>
    have hentered := enterSlot_kept (s := s) hslot (.inr ⟨hunqualified, hfew⟩)
    exact hmark.trans ((congrArg finish (judgeMark_entered hgood hentered (.inr (.inl hunqualified)))).trans (finish_tbu h.1 v))
  case qualifies =>
    have hentered := enterSlot_qualifies (s := s) hslot hunqualified hmany
    rw [hcount] at hentered
    exact hmark.trans ((congrArg finish (judgeMark_entered hgood hentered (.inr (.inl hunqualified)))).trans
      (finish_raiseReference h.1 hon v.qualify .qualified bad))
  case disqualifies =>
    obtain ⟨hhistory, hconsec, hunqualified, hkept, hlocking, hlocked, hfree, -⟩ := disqualify_spec v
    rw [hdisc] at hlocking hlocked hfree
    rw [hage] at hfree
    have hidle : v.disqualify.disc = .free ∨ v.disqualify.disc = .holdover := by
      cases hd : s.tbu.disc
      case locking => exact .inl (hlocking hd)
      case locked => exact .inr (hlocked hd).1
      case free => exact .inl ((hfree (.inl hd)).1.trans hd)
      case holdover => exact .inr ((hfree (.inr hd)).1.trans hd)
    have hentered := enterSlot_disqualifies (s := s) hslot hqualified (hcount ▸ hmany)
    rw [hcount] at hentered
    refine ⟨v.disqualify, hmark.trans ((congrArg finish (judgeMark_entered hgood hentered (.inr (.inr hidle)))).trans
      (finish_raiseReference h.1 hon v.disqualify .disqualified bad)), hkept, hhistory, hconsec, hunqualified, hlocking, hlocked,
      hfree⟩
  case bad =>
    have hentered := enterSlot_kept (s := s) hslot (.inl ⟨hqualified, hcount ▸ hfew⟩)
    have hidle : good = false ∨ s.tbu.qualified = false ∨ v.disc = .free ∨ v.disc = .holdover := by
      rw [hdisc]
      exact hnot.imp_right .inr
    exact hmark.trans ((congrArg finish (judgeMark_entered hgood hentered hidle)).trans (finish_tbu h.1 v))
  case counted =>
    subst htrue
    have hentered := enterSlot_kept (s := s) hslot (.inl ⟨hqualified, hcount ▸ hfew⟩)
    have hx := (hgoodIff.mp rfl).1
    have hjudged := judgeMark_good hgood.symm hqualified hx hentered
    rw [goodMark_counted (s := { s with tbu := v }) (hdisc.trans hlocked) (hmarks.symm ▸ hcounted)] at hjudged
    rw [← hmarks]
    exact hmark.trans ((congrArg finish hjudged).trans (finish_tbu h.1 _))
  case evaluated =>
    intro x e8 far hqualified hfew htrue hx htaken he hfar
    subst htrue
    have hentered := enterSlot_kept (s := s) hslot (.inl ⟨hqualified, hcount ▸ hfew⟩)
    have hjudged := judgeMark_good hgood.symm hqualified hx hentered
    obtain ⟨t, ht, hbase, hlocked, hnone, hvalid, hsync, hstill, hchained, hhistory, hnear, hstep⟩ :=
      goodMark_finished (s := { s with tbu := v }) x (by
        show v.disc = .locking ∨ v.disc = .locked ∧ s.timeSet.interval ≤ v.goodMarks + 1
        rw [hdisc, hmarks]
        exact htaken)
    have hoffset : v.offset x = e8 := by rw [he, hv]; rfl
    have hfarIff : far ↔ v.isStep x s.timeSet.stepThreshold = true := by
      rw [hfar, isStep_iff, hoffset, hv]
    refine ⟨t, hmark.trans ((congrArg finish hjudged).trans ht), hbase, hlocked, hnone, hvalid, hsync, hstill.trans (hset.trans hqualified),
      hchained, hhistory, fun hnotFar => ?_, fun hisFar => ?_⟩
    · obtain ⟨hday, hsec, hphase, hslew, hready, hlast, hdrift⟩ :=
        hnear (Bool.eq_false_iff.mpr fun hstep => hnotFar (hfarIff.mpr hstep))
      rw [hoffset] at hslew hdrift
      subst hv
      exact ⟨hday, hsec, hphase, hslew, hready, hlast, hdrift⟩
    · obtain ⟨hday, hsec, hphase, hslew, hready, hdrift, hbattery, r, hr, hbefore, hafter, hcause⟩ := hstep (hfarIff.mp hisFar)
      subst hv
      exact ⟨hday, hsec, hphase, hslew, hready, hdrift, hbattery, r, hr, hbefore, hafter, hcause⟩
end Sys2Proof.Machine
end

