-- ==== Sys2Proof/Proofs/ConsoleRequests.lean ====
section
/-! The requests of a port about its notices, slots and signals (chapters 10 and 11), the requests that only read, and the port
itself: the line it builds of the characters it takes, and the end of its reply. -/

set_option autoImplicit false

namespace Sys2Proof.Machine

open Sys2Proof

/-! ### Requests that leave the zones and pages at rest -/

/-- A reply that is not a refusal for access is all that an allowed request adds to what its block has done. -/
theorem request_answered {p : Port} {op : Fin 16} {kw : Keyword} {min : OpClass} {s : State} (h : s.takes p op min)
    (body : State → State × Reply) {t : State} {r : Reply} (hbody : body s = (t, r)) (hr : r.access? = none) :
    request p op kw min s body = finish (t.replied p r) := by
  obtain ⟨-, hreads, hfree, hclass⟩ := h
  rw [request_allowed body hreads hfree hclass, hbody, respond_plain hr]
  rfl

/-- What a request writes beside the zones and the pages leaves only the attention lines to follow. -/
theorem request_changes {p : Port} {op : Fin 16} {kw : Keyword} {min : OpClass} {s : State} (h : s.takes p op min)
    (body : State → State × Reply) {t : State} {r : Reply} (hbody : body s = (t, r)) (hr : r.access? = none)
    (hztc : t.ztc = s.ztc) (hpgc : t.pgc = s.pgc) :
    request p op kw min s body = .next (t.replied p r).rejudge :=
  (request_answered h body hbody hr).trans (finish_unsettled h.1 hztc hpgc)

/-- A request whose block leaves a resting state. -/
theorem request_rests {p : Port} {op : Fin 16} {kw : Keyword} {min : OpClass} {s : State} (h : s.takes p op min)
    (body : State → State × Reply) {t : State} {r : Reply} (hbody : body s = (t, r)) (hr : r.access? = none) (ht : t.restingLaw) :
    request p op kw min s body = .next (t.replied p r) :=
  (request_answered h body hbody hr).trans (finish_replied ht p r)

theorem takes_lower {s : State} {p : Port} {op : Fin 16} {a b : OpClass} (h : s.takes p op a) (hle : classRank b ≤ classRank a) :
    s.takes p op b := by
  obtain ⟨hrest, hreads, hfree, hclass⟩ := h
  refine ⟨hrest, hreads, hfree, ?_⟩
  unfold State.classAllows at hclass ⊢
  obtain ⟨hrank, hsome⟩ := Bool.and_eq_true_iff.mp hclass
  exact Bool.and_eq_true_iff.mpr ⟨decide_eq_true (hle.trans (of_decide_eq_true hrank)), hsome⟩

/-! ### Writing a port's notice records -/

/-- The rest of the machine does not show the notice records. -/
theorem onNtu_setRec_rest (s : State) (p : Port) (k : NoticeKind) (r : NoticeRec) : (s.onNtu p fun n => n.setRec k r).rest = s.rest := by
  cases p <;> rfl

theorem onNtu_get_same (s : State) (p : Port) (f : NtuPort → NtuPort) : (s.onNtu p f).ntu.get p = f (s.ntu.get p) := by cases p <;> rfl

theorem onNtu_get_other (s : State) (p : Port) (f : NtuPort → NtuPort) {q : Port} (h : q ≠ p) :
    (s.onNtu p f).ntu.get q = s.ntu.get q := by
  cases p <;> cases q <;> first | rfl | exact absurd rfl h

theorem onNtu_setRec_recAt (s : State) (p q : Port) (k j : NoticeKind) (r : NoticeRec) :
    ((s.onNtu p fun n => n.setRec k r).ntu.get q).recAt j = if q = p ∧ j = k then r else (s.ntu.get q).recAt j := by
  by_cases hq : q = p
  · subst hq
    rw [onNtu_get_same, recAt_setRec_kind]
    simp only [true_and]
  · rw [onNtu_get_other _ _ _ hq, if_neg fun ⟨h, _⟩ => hq h]

/-- The attention lines are no part of the notice records. -/
theorem rejudge_recAt (s : State) (q : Port) (j : NoticeKind) : (s.rejudge.ntu.get q).recAt j = (s.ntu.get q).recAt j := by
  unfold NtuPort.recAt
  rw [rejudge_recs]

theorem rejudge_quiet (s : State) (q : Port) : (s.rejudge.ntu.get q).quiet = (s.ntu.get q).quiet := by cases q <;> rfl

theorem rejudge_port (s : State) (q : Port) : s.rejudge.port q = s.port q := rfl

theorem clearKind_ntu (s : State) (p : Port) (k : NoticeKind) :
    (s.clearKind p k).ntu = (s.onNtu p fun n => n.setRec k { flag := false, count := 0, detail := none }).ntu := by
  unfold State.clearKind State.afterClear
  split <;> rfl

/-- Clearing a kind takes the capture with the ACCESS kind (R177). -/
theorem clearKind_port (s : State) (p : Port) (k : NoticeKind) :
    (s.clearKind p k).port p = { s.port p with capture := if k = .access then none else (s.port p).capture } := by
  unfold State.clearKind State.afterClear
  split
  · exact port_setPort_same _ p _
  · rfl

theorem clearKind_rest (s : State) (p : Port) (k : NoticeKind) : (s.clearKind p k).rest.setPort p (s.port p) = s.rest := by
  unfold State.clearKind State.afterClear
  split <;> cases p <;> rfl

/-- A port's record set over a reply begun there. -/
theorem replied_setPort (s : State) (p : Port) (r : Reply) (x : PortSt) : (s.replied p r).setPort p x = s.setPort p x := by
  cases p <;> rfl

/-- Setting a port's record back undoes a reply begun there. -/
theorem replied_restored (s : State) (p : Port) (r : Reply) : (s.replied p r).setPort p (s.port p) = s := by cases p <;> rfl

theorem replied_rest_restored {s u : State} (h : u.rest = s.rest) (p : Port) (r : Reply) :
    (u.replied p r).rest.setPort p (s.port p) = s.rest := by
  show (u.rest.replied p r).setPort p (s.port p) = s.rest
  rw [h]
  exact replied_restored s.rest p r

theorem replied_capture (s : State) (p : Port) (r : Reply) : ((s.replied p r).port p).capture = (s.port p).capture := by
  cases p <;> rfl

/-! ### CLEAR, QUIET and ATTEND (R182, R183, R185) -/

section
variable {s : State} {p : Port} {op : Fin 16} {k : NoticeKind} {n : Nat} (h : s.takes p op .staff)
include h

theorem execClear_noKind : execClear p op none n s = .next (s.replied p (.no .range)) := request_reads h _ rfl rfl

theorem execClear_outOfRange (hn : n = 0 ∨ 255 < n) : execClear p op (some k) n s = .next (s.replied p (.no .range)) :=
  request_reads h _ (if_pos hn) rfl

variable (hn : ¬(n = 0 ∨ 255 < n))
include hn

theorem execClear_unflagged (hflag : ((s.ntu.get p).recAt k).flag = false) :
    execClear p op (some k) n s = .next (s.replied p (.no .state)) :=
  request_reads h _ ((if_neg hn).trans (if_pos hflag)) rfl

variable (hflag : ((s.ntu.get p).recAt k).flag = true)
include hflag

theorem execClear_tooMany (hcount : ((s.ntu.get p).recAt k).count < n) :
    execClear p op (some k) n s = .next (s.replied p (.no .range)) :=
  request_reads h _ ((if_neg hn).trans ((if_neg (by simp [hflag])).trans (if_pos hcount))) rfl

theorem execClear_all (hcount : n = ((s.ntu.get p).recAt k).count) :
    execClear p op (some k) n s = .next ((s.clearKind p k).replied p .ok).rejudge := by
  refine request_changes h _ ((if_neg hn).trans ((if_neg (by simp [hflag])).trans ((if_neg (by omega)).trans (if_pos hcount)))) rfl
    ?_ ?_ <;> unfold State.clearKind State.afterClear <;> split <;> rfl

theorem execClear_some (hcount : n < ((s.ntu.get p).recAt k).count) :
    execClear p op (some k) n s =
      .next ((s.onNtu p fun x => x.setRec k { (s.ntu.get p).recAt k with count := ((s.ntu.get p).recAt k).count - n }).replied p
        .ok).rejudge :=
  request_changes h _ ((if_neg hn).trans ((if_neg (by simp [hflag])).trans ((if_neg (by omega)).trans (if_neg (by omega))))) rfl rfl rfl

end

theorem setQuiet_contains (q : List NoticeKind) (k j : NoticeKind) (on : Bool) :
    (setQuiet q k on).contains j = if j = k then on else q.contains j := by
  unfold setQuiet
  rw [Bool.eq_iff_iff, List.contains_iff_mem, List.mem_filter]
  simp [mem_allKinds]

/-- The state with a kind made quiet, or not (R185). -/
def State.quieted (s : State) (p : Port) (k : NoticeKind) (on : Bool) : State :=
  let u := s.onNtu p fun n => { n with quiet := setQuiet n.quiet k on }
  if on then u.clearKind p k else u

section
variable {s : State} {p : Port} {op : Fin 16} (h : s.takes p op .staff)

theorem quieted_ntu (s : State) (p : Port) (k : NoticeKind) (on : Bool) (q : Port) :
    ((s.quieted p k on).ntu.get q).quiet = (if q = p then setQuiet (s.ntu.get p).quiet k on else (s.ntu.get q).quiet) ∧
    ∀ j, ((s.quieted p k on).ntu.get q).recAt j =
      if q = p ∧ j = k ∧ on = true then { flag := false, count := 0, detail := none } else (s.ntu.get q).recAt j := by
  unfold State.quieted
  cases on with
  | false => cases p <;> cases q <;> exact ⟨rfl, fun j => by simp; rfl⟩
  | true =>
    dsimp only
    rw [if_pos rfl, clearKind_ntu]
    refine ⟨by cases p <;> cases q <;> rfl, fun j => ?_⟩
    rw [onNtu_setRec_recAt]
    have hsame : (s.onNtu p fun n => { n with quiet := setQuiet n.quiet k true }).ntu.get q =
        { s.ntu.get q with quiet := ((s.onNtu p fun n => { n with quiet := setQuiet n.quiet k true }).ntu.get q).quiet } := by
      cases p <;> cases q <;> rfl
    simp only [and_true]
    rw [hsame]
    rfl

include h

theorem execQuiet_noKind (on : Bool) : execQuiet p op none on s = .next (s.replied p (.no .range)) := request_reads h _ rfl rfl

theorem execQuiet_set (k : NoticeKind) (on : Bool) : execQuiet p op (some k) on s = .next ((s.quieted p k on).replied p .ok).rejudge := by
  refine request_changes h _ rfl rfl ?_ ?_ <;> unfold State.quieted <;> cases on <;> try rfl
  all_goals
    dsimp only
    rw [if_pos rfl]
    unfold State.clearKind State.afterClear
    split <;> rfl

theorem execAttend_set (m : AttMode) :
    execAttend p op m s = .next ((({ s with ntu := s.ntu.set p { s.ntu.get p with mode := m } } : State).replied p .ok).rejudge) :=
  request_changes h _ rfl rfl rfl rfl

end

/-- Settles O55. -/
theorem noticeRequestsActAtTheirPort : Obligations.NoticeRequestsActAtTheirPort := by
  intro s p op h
  refine ⟨fun n => execClear_noKind (n := n) h, fun on => execQuiet_noKind h on, fun k n r hr => ?_, fun m => execAttend_set h m⟩
  subst hr
  refine ⟨fun hn => execClear_outOfRange h hn, fun hn hn' hflag => execClear_unflagged h (by omega) hflag,
    fun hn hn' hflag hcount => execClear_tooMany h (by omega) hflag hcount, fun hn hn' hflag hcount => ?clear, fun on => ?quiet⟩
  case clear =>
    by_cases hall : n = ((s.ntu.get p).recAt k).count
    · refine ⟨_, execClear_all h (by omega) hflag hall, ?_, ?_, ?_, fun q j => ?_⟩
      · rw [rejudge_rest]
        exact (replied_setPort _ p _ _).trans (clearKind_rest s p k)
      · exact congrArg PortSt.reply (port_setPort_same ..)
      · refine (replied_capture _ p _).trans ?_
        rw [clearKind_port]
        simp only [hall, and_true]
      · refine (rejudge_recAt _ q j).trans ?_
        rw [if_pos hall]
        show (((s.clearKind p k).ntu).get q).recAt j = _
        rw [clearKind_ntu, onNtu_setRec_recAt]
    · refine ⟨_, execClear_some h (by omega) hflag (by omega), ?_, ?_, ?_, fun q j => ?_⟩
      · rw [rejudge_rest]
        exact replied_rest_restored (onNtu_setRec_rest ..) p _
      · exact congrArg PortSt.reply (port_setPort_same ..)
      · rw [if_neg fun hboth => hall hboth.2]
        exact replied_capture _ p _
      · refine (rejudge_recAt _ q j).trans ?_
        rw [if_neg hall]
        exact onNtu_setRec_recAt ..
  case quiet =>
    have hntu := quieted_ntu s p k on
    refine ⟨_, execQuiet_set h k on, congrArg PortSt.reply (port_setPort_same ..), fun j => ?_, ?_, fun q j => ?_⟩
    · rw [rejudge_quiet]
      show ((s.quieted p k on).ntu.get p).quiet.contains j = _
      rw [(hntu p).1, if_pos rfl, setQuiet_contains]
    · rw [rejudge_quiet]
      show ((s.quieted p k on).ntu.get (otherPort p)).quiet = _
      rw [(hntu (otherPort p)).1, if_neg (otherPort_ne p)]
    · exact (rejudge_recAt _ q j).trans ((hntu q).2 j)

/-! ### Slots and signals (R179, R180) -/

theorem mem_setBelow {n k : Nat} {xs : List Nat} : k ∈ setBelow n xs ↔ k < n ∧ k ∈ xs := by
  unfold setBelow
  rw [List.mem_filter, List.mem_range, List.contains_iff_mem]

theorem setSignals_restingLaw {s : State} (h : s.restingLaw) (p : Port) (xs : List Nat) : (s.setSignals p xs).restingLaw := by
  cases p <;> exact restingLaw_of_eq h rfl rfl rfl rfl

section
variable {s : State} {p : Port} {op : Fin 16} {n : Nat} (h : s.takes p op .staff)
include h

theorem execNote_range (v : Nat) (hn : 8 ≤ n) : execNote p op n v s = .next (s.replied p (.no .range)) :=
  request_reads h _ (if_pos hn) rfl

theorem execNote_set (v : Nat) (hn : n < 8) :
    execNote p op n v s = .next (({ s with slots := tset slotStart s.slots n (min v 65535) } : State).replied p
      (if 65535 < v then .okClamped else .ok)) :=
  request_rests h _ (if_neg (Nat.not_le.mpr hn)) (by split <;> rfl) (restingLaw_of_eq h.1 rfl rfl rfl rfl)

theorem execSignal_range (hn : 8 ≤ n) : execSignal p op n s = .next (s.replied p (.no .range)) :=
  request_reads h _ (if_pos hn) rfl

theorem execSignal_raised (hn : n < 8) (hraised : n ∈ s.signalsFrom p) : execSignal p op n s = .next (s.replied p (.no .state)) :=
  request_reads h _ ((if_neg (Nat.not_le.mpr hn)).trans (if_pos (List.contains_iff_mem.mpr hraised))) rfl

theorem execSignal_set (hn : n < 8) (hnot : n ∉ s.signalsFrom p) {xs : List Nat} (hxs : xs = setBelow 8 (n :: s.signalsFrom p)) :
    execSignal p op n s =
      .next ((((s.setSignals p xs).raiseAt (otherPort p) .crossSignal (.crossSignal xs)).replied p .ok).rejudge) := by
  subst hxs
  refine request_changes h _
    ((if_neg (Nat.not_le.mpr hn)).trans (if_neg fun hraised => hnot (List.contains_iff_mem.mp hraised))) rfl ?_ ?_ <;>
  cases p <;> rfl

theorem execLower_range (hn : 8 ≤ n) : execLower p op n s = .next (s.replied p (.no .range)) :=
  request_reads h _ (if_pos hn) rfl

theorem execLower_notRaised (hn : n < 8) (hnot : n ∉ s.signalsFrom (otherPort p)) :
    execLower p op n s = .next (s.replied p (.no .state)) :=
  request_reads h _ ((if_neg (Nat.not_le.mpr hn)).trans (if_neg fun hraised => hnot (List.contains_iff_mem.mp hraised))) rfl

theorem execLower_set (hn : n < 8) (hraised : n ∈ s.signalsFrom (otherPort p)) :
    execLower p op n s =
      .next ((s.setSignals (otherPort p) ((s.signalsFrom (otherPort p)).filter (· ≠ n))).replied p .ok) :=
  request_rests h _ ((if_neg (Nat.not_le.mpr hn)).trans (if_pos (List.contains_iff_mem.mpr hraised))) rfl
    (setSignals_restingLaw h.1 _ _)

end

/-- Settles O56. -/
theorem slotsAndSignals : Obligations.SlotsAndSignals := by
  intro s p op n h
  refine ⟨fun v hn => execNote_range h v hn, fun v hn => ⟨_, execNote_set h v hn, ?_, fun k hk => ?_, rfl⟩,
    fun hn => ⟨execSignal_range h hn, execLower_range h hn⟩, fun hn hraised => execSignal_raised h hn hraised,
    fun hn hnot => ⟨_, fun k => ?_, execSignal_set h hn hnot rfl⟩, fun hn hnot => execLower_notRaised h hn hnot,
    fun hn hraised => execLower_set h hn hraised⟩
  · exact tget_tset_same ..
  · exact tget_tset_other _ _ _ hk
  · rw [mem_setBelow, List.mem_cons]

/-! ### The requests that read a block -/

section
variable {s : State} {p : Port} {op : Fin 16} (h : s.takes p op .viewer)
include h

theorem execBells_reads : execBells p op s = .next (s.replied p (.bells s.bellsReply)) := request_reads h _ rfl rfl

theorem execPages_reads : execPages p op s = .next (s.replied p (.pages (s.pgc.queue.map s.pageReply))) := request_reads h _ rfl rfl

theorem execLines_reads : execLines p op s = .next (s.replied p (.lines (allLines.map s.lineReply))) := request_reads h _ rfl rfl

theorem execNotes_reads : execNotes p op s = .next (s.replied p (.notes s.slotValues)) := request_reads h _ rfl rfl

theorem execStatus_reads : execStatus p op s = .next (s.replied p (.status (s.statusReply p))) := request_reads h _ rfl rfl

theorem execDevice_reads (n a : Nat) :
    execDevice p op n a s =
      .next (s.replied p (if n < 6 ∧ 1 ≤ a ∧ a ≤ 24 then .device ((s.lineAt n).recAt a) else .no .range)) := by
  by_cases hn : n < 6 ∧ 1 ≤ a ∧ a ≤ 24
  · rw [if_pos hn]
    exact request_reads h _ (if_pos hn) rfl
  · rw [if_neg hn]
    exact request_reads h _ (if_neg hn) rfl

theorem execTestRead_reads (n : Nat) :
    execTestRead p op n s =
      .next (s.replied p (if n < 6 then (match (s.lineAt n).record with | some r => .test r | none => .no .empty) else .no .range)) := by
  by_cases hn : n < 6
  · rw [if_pos hn]
    cases hrecord : (s.lineAt n).record with
    | some r => exact request_reads h _ ((if_pos hn).trans (by rw [hrecord])) rfl
    | none => exact request_reads h _ ((if_pos hn).trans (by rw [hrecord])) rfl
  · rw [if_neg hn]
    exact request_reads h _ (if_neg hn) rfl

theorem execZone_readsZone (z : Nat) :
    execZone p op (.zone z) s = .next (s.replied p (if z < 32 then .zone (s.zoneReply z) else .no .range)) := by
  by_cases hz : z < 32
  · rw [if_pos hz]
    exact request_reads h _ (if_pos hz) rfl
  · rw [if_neg hz]
    exact request_reads h _ (if_neg hz) rfl

theorem execZone_readsTrunk (t : Nat) :
    execZone p op (.trunk t) s = .next (s.replied p (if t < 4 then .trunk (s.trunkReply t) else .no .range)) := by
  by_cases ht : t < 4
  · rw [if_pos ht]
    exact request_reads h _ (if_pos ht) rfl
  · rw [if_neg ht]
    exact request_reads h _ (if_neg ht) rfl

theorem execDrillrec_readsSession :
    execDrillrec p op none s =
      .next (s.replied p (match s.dsq.session with | some d => .session (s.sessionReply d) | none => .no .empty)) := by
  cases hsession : s.dsq.session with
  | some d => exact request_reads h _ (by simp only [hsession]) rfl
  | none => exact request_reads h _ (by simp only [hsession]) rfl

theorem execDrillrec_readsRecord (i : Nat) :
    execDrillrec p op (some i) s =
      .next (s.replied p
        (if s.dsq.records = [] then .no .empty else match s.dsq.records[i]? with | some r => .record r | none => .no .range)) := by
  by_cases hnone : s.dsq.records = []
  · rw [if_pos hnone]
    exact request_reads h _ (if_pos (List.isEmpty_iff.mpr hnone)) rfl
  · rw [if_neg hnone]
    have hsome : ¬s.dsq.records.isEmpty = true := fun hempty => hnone (List.isEmpty_iff.mp hempty)
    cases hrecord : s.dsq.records[i]? with
    | some r => exact request_reads h _ ((if_neg hsome).trans (by rw [hrecord])) rfl
    | none => exact request_reads h _ ((if_neg hsome).trans (by rw [hrecord])) rfl

end

/-- Settles O57: a request that reads leaves its reply alone. -/
theorem readingRequestsAnswered : Obligations.ReadingRequestsAnswered := by
  intro s p op h
  exact ⟨execBells_reads h, execPages_reads h, execLines_reads h, execNotes_reads h, execStatus_reads h, execDevice_reads h,
    execTestRead_reads h, execZone_readsZone h, execZone_readsTrunk h, execDrillrec_readsSession h, execDrillrec_readsRecord h⟩

/-! ### The line a port builds (R170) -/

section
variable {s : State} {p : Port} {c : LinkChar} {cs : List LinkChar} {x : PortSt}

/-- A character taken while requests are read goes into the line being built, which a carriage return ends. -/
theorem takeChar_reads (hreads : s.reads = true) (hcs : (s.port p).arriving = c :: cs) (hx : x = { s.port p with arriving := cs }) :
    s.takeChar p = s.setPort p { x with typed := if c = .code 13 then LineBuf.new else x.typed.take c } := by
  subst hx
  unfold State.takeChar
  rw [hcs]
  simp only [hreads, Bool.not_true, Bool.false_or, decide_eq_true_eq]

theorem charCommand_other (hcs : (s.port p).arriving = c :: cs) (hne : c ≠ .code 13) : s.charCommand p = [] := by
  unfold State.charCommand
  rw [hcs]
  simp [hne]

theorem charCommand_ended (hreads : s.reads = true) (hcs : (s.port p).arriving = .code 13 :: cs) :
    s.charCommand p = s.lineEnded p (s.port p).typed := by
  unfold State.charCommand
  rw [hcs, hreads]
  rfl

theorem lineEnded_eq (s : State) (p : Port) (b : LineBuf) : s.lineEnded p b =
    if b.chars = [] ∧ b.tooLong = false then []
    else if (s.port p).reply ≠ none then [.lineWhileBusy p]
    else if b.tooLong = true ∨ b.bad = true then [.unreadableLine p]
    else [readLine p ((s.port p).cursor.map Cursor.table) b.chars] := by
  unfold State.lineEnded
  simp only [Bool.and_eq_true, List.isEmpty_iff, Bool.not_eq_true', Option.isSome_iff_ne_none, Bool.or_eq_true]

end

theorem put_tooLong {b : LineBuf} (h : b.tooLong = true) (k : Nat) (bad : Bool) : b.put k bad = b := by simp [LineBuf.put, h]

theorem put_full {b : LineBuf} (h : b.tooLong = false) (hfull : 80 ≤ b.chars.length) (k : Nat) (bad : Bool) :
    b.put k bad = { chars := [], bad := false, tooLong := true } := by simp [LineBuf.put, h, hfull, LineBuf.new]

theorem put_room {b : LineBuf} (h : b.tooLong = false) (hroom : b.chars.length < 80) (k : Nat) (bad : Bool) :
    b.put k bad = { chars := b.chars ++ [k], bad := b.bad || bad, tooLong := false } := by
  simp [LineBuf.put, h, Nat.not_le.mpr hroom]

/-- A character that is no line feed is put to the line. -/
theorem take_put {b : LineBuf} {c : LinkChar} (hne : c ≠ .code 10) : ∃ k bad, b.take c = b.put k bad := by
  cases c with
  | broken => exact ⟨0, true, rfl⟩
  | code k => exact ⟨k, !printable k, if_neg fun h => hne (congrArg LinkChar.code h)⟩

theorem take_tooLong {b : LineBuf} (h : b.tooLong = true) (c : LinkChar) : b.take c = b := by
  by_cases hc : c = .code 10
  · rw [hc]
    rfl
  · obtain ⟨k, bad, hput⟩ := take_put (b := b) hc
    rw [hput, put_tooLong h]

theorem take_code {b : LineBuf} {k : Nat} (hne : k ≠ 10) : b.take (.code k) = b.put k (!decide (32 ≤ k ∧ k ≤ 126)) := by
  show (if k = 10 then b else b.put k (!printable k)) = _
  rw [if_neg hne, printable, Bool.decide_and]

/-! ### Requests in progress and the end of a reply (R171, R178) -/

theorem execRestart_refused {s : State} {p : Port} {op : Fin 16} (h : s.takes p op .office) (hrun : s.setup = false) :
    execRestart p op s = .next (s.replied p (.no .state)) := request_reads h _ (by rw [hrun]; rfl) rfl

theorem execRestart_accepted {s : State} {p : Port} {op : Fin 16} (h : s.takes p op .office) (hsetup : s.setup = true) :
    execRestart p op s = .next ((s.setPort p { s.port p with restarts := true }).replied p .ok) :=
  request_rests h _ (if_pos hsetup) rfl (setPort_restingLaw h.1 p _)

section
variable {s : State} {p : Port} (hrest : s.restingLaw) (hreads : s.reads = true)
include hrest hreads

/-- A line taken while a request is in progress is owed NO BUSY, up to eight. -/
theorem line_owed (hbusy : (s.port p).reply ≠ none) (read : State → State) {t : State}
    (ht : t = if (s.port p).owed < 8 then s.setPort p { s.port p with owed := (s.port p).owed + 1 } else s) :
    line p s read = .next t := by
  have howed : s.oweBusy p = t := ht.symm
  rw [line_busy read hreads (Option.isSome_iff_ne_none.mpr hbusy), howed]
  refine finish_eq_self ?_
  rw [ht]
  split
  · exact setPort_restingLaw hrest p _
  · exact hrest

theorem execLineWhileBusy_owed (hbusy : (s.port p).reply ≠ none) {t : State}
    (ht : t = if (s.port p).owed < 8 then s.setPort p { s.port p with owed := (s.port p).owed + 1 } else s) :
    execLineWhileBusy p s = .next t := by
  have hsome := Option.isSome_iff_ne_none.mpr hbusy
  refine (if_pos (by rw [hreads, hsome]; rfl)).trans ?_
  exact (line_busy id hreads hsome).symm.trans (line_owed hrest hreads hbusy id ht)

theorem execUnreadableLine_busy (hbusy : (s.port p).reply ≠ none) {t : State}
    (ht : t = if (s.port p).owed < 8 then s.setPort p { s.port p with owed := (s.port p).owed + 1 } else s) :
    execUnreadableLine p s = .next t := line_owed hrest hreads hbusy _ ht

theorem execUnknownKeyword_busy (why : LineFault) (hbusy : (s.port p).reply ≠ none) {t : State}
    (ht : t = if (s.port p).owed < 8 then s.setPort p { s.port p with owed := (s.port p).owed + 1 } else s) :
    execUnknownKeyword p why s = .next t := line_owed hrest hreads hbusy _ ht

theorem execStatus_busy (op : Fin 16) (hbusy : (s.port p).reply ≠ none) {t : State}
    (ht : t = if (s.port p).owed < 8 then s.setPort p { s.port p with owed := (s.port p).owed + 1 } else s) :
    execStatus p op s = .next t := by
  unfold execStatus request
  exact line_owed hrest hreads hbusy _ ht

variable (hfree : (s.port p).reply = none)
include hfree

theorem execUnreadableLine_free : execUnreadableLine p s = .next (s.replied p (.no .badSyntax)) :=
  (line_free _ hreads hfree).trans (finish_replied hrest p _)

theorem execUnknownKeyword_free (why : LineFault) :
    execUnknownKeyword p why s = .next (s.replied p (if why = .noKeyword then .no .unknown else .no .badSyntax)) := by
  refine (line_free _ hreads hfree).trans ?_
  cases why <;> exact finish_replied hrest p _

end

theorem replySent_eq (s : State) (p : Port) : s.replySent p =
    { (s.setPort p
        { s.port p with
          reply := if 0 < (s.port p).owed then some (.no .busy) else none
          owed := (s.port p).owed - 1
          restarts := false }) with
      restartDue := s.restartDue || (s.port p).restarts } := by
  unfold State.replySent
  dsimp only
  by_cases howed : 0 < (s.port p).owed
  · rw [if_pos howed, if_pos howed]
    cases (s.port p).restarts
    · rw [Bool.or_false]
      rfl
    · rw [Bool.or_true]
      rfl
  · have hnone : (s.port p).owed - 1 = (s.port p).owed := by omega
    rw [if_neg howed, if_neg howed, hnone]
    cases (s.port p).restarts
    · rw [Bool.or_false]
      rfl
    · rw [Bool.or_true]
      rfl

theorem execReplySent_sent {s : State} {p : Port} (h : s.ready) (hbusy : (s.port p).reply ≠ none) :
    execReplySent p s =
      .next { (s.setPort p
          { s.port p with
            reply := if 0 < (s.port p).owed then some (.no .busy) else none
            owed := (s.port p).owed - 1
            restarts := false }) with
        restartDue := s.restartDue || (s.port p).restarts } := by
  refine (event_powered _ h.2).trans ?_
  rw [if_pos (Option.isSome_iff_ne_none.mpr hbusy), replySent_eq]
  exact finish_eq_self (restingLaw_of_eq h.1 rfl rfl rfl rfl)

/-- Settles O58. -/
theorem portTakesOneRequestAtATime : Obligations.PortTakesOneRequestAtATime := by
  refine ⟨?line, ?restart, ?requests, ?sent⟩
  case line =>
    intro s p c cs x hreads hcs hx
    have htaken := takeChar_reads hreads hcs hx
    have htyped : x.typed = (s.port p).typed := by rw [hx]
    refine ⟨?_, fun hne => charCommand_other hcs hne, ?_, ?_, ?_, ?_, ?_⟩
    · rintro rfl
      refine ⟨htaken.trans (by rw [if_pos rfl]; rfl), ?_⟩
      rw [charCommand_ended hreads hcs, lineEnded_eq, hx]
    · rintro rfl
      rw [htaken]
      rfl
    · rintro k rfl hne hne' hlong hroom
      rw [htaken, if_neg (fun h => hne (LinkChar.code.inj h)), take_code hne', put_room hlong hroom]
    · rintro rfl hlong hroom
      refine ⟨0, ?_⟩
      rw [htaken, if_neg nofun]
      show s.setPort p { x with typed := x.typed.put 0 true } = _
      rw [put_room hlong hroom, Bool.or_true]
    · intro hne hne' hlong hfull
      obtain ⟨k, bad, hput⟩ := take_put (b := x.typed) hne'
      rw [htaken, if_neg hne, hput, put_full hlong hfull]
    · intro hne hlong
      rw [htaken, if_neg hne, take_tooLong hlong]
  case restart =>
    intro s p op h
    exact ⟨fun hrun => execRestart_refused h hrun, fun hsetup => execRestart_accepted h hsetup⟩
  case requests =>
    intro s p hrest hreads
    refine ⟨fun hfree => ⟨execUnreadableLine_free hrest hreads hfree, execUnknownKeyword_free hrest hreads hfree⟩,
      fun hbusy t ht => ⟨execLineWhileBusy_owed hrest hreads hbusy ht, execUnreadableLine_busy hrest hreads hbusy ht,
        fun why => execUnknownKeyword_busy hrest hreads why hbusy ht, fun op => execStatus_busy hrest hreads op hbusy ht⟩⟩
  case sent =>
    intro s p h hbusy
    exact execReplySent_sent h hbusy

end Sys2Proof.Machine
end

