-- ==== Sys2Proof/Proofs/FieldDevices.lean ====
section
/-! The field devices (sections 2.3, 2.7, 2.8 and R59). What a device does with a frame that it receives is said once: a frame
with a valid check moves its silence timer, in echo a proving frame is sent back, and out of echo its kind acts on it. -/

set_option autoImplicit false

namespace Sys2Proof.Machine

open Sys2Proof

/-! ### Frames received -/

/-- A frame with a check that is no LOOP-UP for the device moves the silence timer and ends a count of LOOP-UPs. -/
theorem hears_checked (d : FieldDev) (now a : Nat) {f : Frame} (hcheck : f.checked = true) (hne : f ≠ .loopUp a) :
    d.hears now a f = { d with lastValid := now, loopUps := 0 } := by
  unfold FieldDev.hears
  rw [if_pos hcheck, if_neg hne]

theorem hears_loopUp (d : FieldDev) (now a : Nat) : d.hears now a (.loopUp a) = { d with lastValid := now } := by
  unfold FieldDev.hears
  rw [if_pos (show (Frame.loopUp a).checked = true from rfl), if_pos rfl]

theorem hears_proving (d : FieldDev) (now a b : Nat) (vs : List Byte) : d.hears now a (.proving b vs) = d := rfl

theorem echoes_proving (d : FieldDev) (now a : Nat) (vs : List Byte) (hecho : d.echo.isSome = true) :
    d.echoes now a (.proving a vs) = { d with echo := some now, sent := (Frame.proving a vs).bytes } := if_pos ⟨rfl, hecho⟩

theorem replies_poll (d : FieldDev) (kind : DevKind) (l now a : Nat) (z : Option Nat) :
    d.replies kind l now a (.poll a z) =
      { d with sent := (Frame.reply a (Config.deviceSerial l a % 1000000) (d.report kind now)).bytes } := if_pos rfl

theorem bellTakes_poll (d : FieldDev) (now a : Nat) (z : Option Nat) : d.bellTakes now a (.poll a z) = { d with zone := z } := if_pos rfl

theorem speakerTakes_poll (d : FieldDev) (a : Nat) (z : Option Nat) : d.speakerTakes a (.poll a z) = { d with zone := z } := if_pos rfl

theorem clockTakes_poll (d : FieldDev) (now a b : Nat) (z : Option Nat) : d.clockTakes now a (.poll b z) = d := rfl

/-- A frame with a check is no proving frame. -/
theorem checked_ne_proving {f : Frame} (h : f.checked = true) (b : Nat) (vs : List Byte) : f ≠ .proving b vs := by
  rintro rfl
  cases h

section
variable {s : State} {l : Fin 6} {a : Nat} {d : FieldDev} {bs : List Byte} (ha : 1 ≤ a ∧ a ≤ 24) (hd : d = s.fieldAt l.val a)
include ha hd

theorem deviceEvent_eq (f : FieldDev → FieldDev) : deviceEvent l a s f = .next (s.setField l.val a (f d)) :=
  hd ▸ deviceEvent_of_address s f ha

variable (hpower : s.power = true) (hline : (s.lineAt l.val).state.powered = true)
include hpower hline

theorem received_eq (f : Frame → FieldDev → FieldDev) {x : Frame} (hread : readFrame bs = some x) :
    received l a bs s f = .next (s.setField l.val a (f x ((d.hears s.now a x).echoes s.now a x))) := by
  have hpowered : s.linePowered l.val = true := Bool.and_eq_true_iff.mpr ⟨hpower, hline⟩
  refine (deviceEvent_eq ha hd _).trans ?_
  rw [if_pos hpowered, hread]

/-- A frame with a check, but for a LOOP-UP, is acted on by a device that has heard it. -/
theorem received_checked (f : Frame → FieldDev → FieldDev) {x : Frame} (hread : readFrame bs = some x) (hcheck : x.checked = true)
    (hne : x ≠ .loopUp a) :
    received l a bs s f = .next (s.setField l.val a (f x { d with lastValid := s.now, loopUps := 0 })) := by
  rw [received_eq ha hd hpower hline f hread, hears_checked d s.now a hcheck hne, echoes_other _ _ _ _ (checked_ne_proving hcheck)]

/-! ### A device that is not in echo -/

section
variable (hecho : d.echo = none)
include hecho

theorem execRoomClockFrame_idle {x : Frame} (hread : readFrame bs = some x) (hcheck : x.checked = true) (hne : x ≠ .loopUp a) :
    execRoomClockFrame l a bs s = .next (s.setField l.val a
      ((FieldDev.clockTakes { d with lastValid := s.now, loopUps := 0 } s.now a x).replies .clock l.val s.now a x)) :=
  (received_checked ha hd hpower hline _ hread hcheck hne).trans (by rw [acts_idle]; exact hecho)

theorem execBellUnitCommand_idle {x : Frame} (hread : readFrame bs = some x) (hcheck : x.checked = true) (hne : x ≠ .loopUp a) :
    execBellUnitCommand l a bs s = .next (s.setField l.val a
      ((FieldDev.bellTakes { d with lastValid := s.now, loopUps := 0 } s.now a x).replies .bell l.val s.now a x)) :=
  (received_checked ha hd hpower hline _ hread hcheck hne).trans (by rw [acts_idle]; exact hecho)

theorem execSpeakerNodeCommand_idle {x : Frame} (hread : readFrame bs = some x) (hcheck : x.checked = true) (hne : x ≠ .loopUp a) :
    execSpeakerNodeCommand l a bs s = .next (s.setField l.val a
      ((FieldDev.speakerTakes { d with lastValid := s.now, loopUps := 0 } a x).replies .speaker l.val s.now a x)) :=
  (received_checked ha hd hpower hline _ hread hcheck hne).trans (by rw [acts_idle]; exact hecho)

theorem execDeviceLoopUp_idle (hread : readFrame bs = some (.loopUp a)) :
    execDeviceLoopUp l a bs s =
      .next (s.setField l.val a
        { d with lastValid := s.now, loopUps := if 5 ≤ d.loopUps + 1 then 0 else d.loopUps + 1
                 echo := if 5 ≤ d.loopUps + 1 then some s.now else none }) := by
  refine (received_eq ha hd hpower hline _ hread).trans ?_
  rw [hears_loopUp]
  show Host.Outcome.next (s.setField l.val a (FieldDev.loopHears { d with lastValid := s.now } s.now a (.loopUp a))) = _
  unfold FieldDev.loopHears
  dsimp only
  rw [if_neg (not_not_intro rfl), hecho]
  split
  · rfl
  · rw [← hecho]

end

/-! ### A device in echo (R59) -/

theorem execDeviceLoopUp_proving (hecho : d.echo.isSome = true) {vs : List Byte} (hread : readFrame bs = some (.proving a vs)) :
    execDeviceLoopUp l a bs s =
      .next (s.setField l.val a { d with echo := some s.now, sent := (Frame.proving a vs).bytes }) := by
  refine (received_eq ha hd hpower hline _ hread).trans ?_
  rw [hears_proving, echoes_proving d s.now a vs hecho]
  rfl

theorem execRoomClockFrame_echo (hecho : d.echo.isSome = true) {x : Frame} (hread : readFrame bs = some x) (hcheck : x.checked = true)
    (hne : x ≠ .loopUp a) : execRoomClockFrame l a bs s = .next (s.setField l.val a { d with lastValid := s.now, loopUps := 0 }) :=
  (received_checked ha hd hpower hline _ hread hcheck hne).trans (by rw [acts_echo]; exact hecho)

theorem execBellUnitCommand_echo (hecho : d.echo.isSome = true) {x : Frame} (hread : readFrame bs = some x) (hcheck : x.checked = true)
    (hne : x ≠ .loopUp a) : execBellUnitCommand l a bs s = .next (s.setField l.val a { d with lastValid := s.now, loopUps := 0 }) :=
  (received_checked ha hd hpower hline _ hread hcheck hne).trans (by rw [acts_echo]; exact hecho)

theorem execSpeakerNodeCommand_echo (hecho : d.echo.isSome = true) {x : Frame} (hread : readFrame bs = some x)
    (hcheck : x.checked = true) (hne : x ≠ .loopUp a) :
    execSpeakerNodeCommand l a bs s = .next (s.setField l.val a { d with lastValid := s.now, loopUps := 0 }) :=
  (received_checked ha hd hpower hline _ hread hcheck hne).trans (by rw [acts_echo]; exact hecho)

theorem execDeviceLoopDown_heard (hread : readFrame bs = some (.loopDown a)) :
    execDeviceLoopDown l a bs s = .next (s.setField l.val a { d with lastValid := s.now, loopUps := 0, echo := none }) :=
  (received_checked ha hd hpower hline _ hread rfl nofun).trans (by rw [if_pos rfl])

end

/-! ### A device's own timers and inputs -/

section
variable {s : State} {l : Fin 6} {a : Nat} {d : FieldDev} (ha : 1 ≤ a ∧ a ≤ 24) (hd : d = s.fieldAt l.val a)
include ha hd

theorem execHoldForExpiry_due (hon : d.bellOn = true) (hdue : d.holdUntil ≤ s.now) :
    execHoldForExpiry l a s = .next (s.setField l.val a { d with bellOn := false }) := by
  have hboth : (d.bellOn && s.reached d.holdUntil) = true := by
    rw [State.reached, hon, decide_eq_true hdue, Bool.and_self]
  exact (deviceEvent_eq ha hd _).trans (by rw [if_pos hboth])

theorem execSpeakerSilenceMute_due (hdue : d.lastValid + 24000 ≤ s.now) :
    execSpeakerSilenceMute l a s = .next (s.setField l.val a { d with trunk := none }) := by
  have hreached : s.reached (d.lastValid + 24000) = true := by rw [State.reached, decide_eq_true hdue]
  exact (deviceEvent_eq ha hd _).trans (by rw [if_pos hreached])

theorem execClearStationPress_eq :
    execClearStationPress l a s =
      .next (s.setField l.val a { d with presses := if d.presses = 255 then 0 else (d.presses + 1) % 256 }) := by
  have hwrap : (if d.presses = 255 then 0 else (d.presses + 1) % 256) = (d.presses + 1) % 256 := by split <;> omega
  rw [hwrap]
  exact deviceEvent_eq ha hd _

theorem execEchoTimeout_due {e : Nat} (hecho : d.echo = some e) (hdue : e + 480000 ≤ s.now) :
    execEchoTimeout l a s = .next (s.setField l.val a { d with echo := none }) := by
  have hreached : (d.echo.any fun t => s.reached (t + 480000)) = true := by
    rw [hecho, Option.any_some, State.reached, decide_eq_true hdue]
  exact (deviceEvent_eq ha hd _).trans (by rw [if_pos hreached])

theorem execAmplifierFaultChange_eq (f : Bool) :
    execAmplifierFaultChange l a f s = .next (s.setField l.val a { d with ampFault := f }) := deviceEvent_eq ha hd _

end

/-! ### What a clock shows -/

/-- A time of day written out. -/
theorem writtenTime_spec {n : Nat} (h : n < 86400) :
    (writtenTime n).hour ≤ 23 ∧ (writtenTime n).minute ≤ 59 ∧ (writtenTime n).second ≤ 59 ∧
      (writtenTime n).hour * 3600 + (writtenTime n).minute * 60 + (writtenTime n).second = n := by
  unfold writtenTime
  dsimp only
  omega

theorem shows_sec (c : ClockFace) (now : Nat) : (c.shows now).sec = (c.ms + (now - c.at_) / 8) / 1000 % 86400 := by
  unfold ClockFace.shows Stamp.after Stamp.count
  dsimp only
  omega

/-- A clock reports a time of day: the one it shows, where it has had a frame. -/
theorem clockReport_spec (d : FieldDev) (now : Nat) : ∃ h m sec, d.report .clock now = .clock h m sec ∧ h ≤ 23 ∧ m ≤ 59 ∧ sec ≤ 59 ∧
    ∀ c, d.clock = some c → h * 3600 + m * 60 + sec = (c.ms + (now - c.at_) / 8) / 1000 % 86400 := by
  have htime : (d.clock.map fun c => (c.shows now).sec).getD 0 < 86400 := by
    cases hc : d.clock with
    | none =>
      rw [Option.map_none, Option.getD_none]
      omega
    | some c =>
      rw [Option.map_some, Option.getD_some, shows_sec]
      omega
  obtain ⟨hh, hm, hsec, hsum⟩ := writtenTime_spec htime
  refine ⟨_, _, _, rfl, hh, hm, hsec, fun c hc => hsum.trans ?_⟩
  rw [hc, Option.map_some, Option.getD_some, shows_sec]

/-- Settles O60, command by command. -/
theorem fieldDevicesAct : Obligations.FieldDevicesAct := by
  intro s l a d bs hlo hhi hd
  have ha : 1 ≤ a ∧ a ≤ 24 := ⟨hlo, hhi⟩
  refine ⟨fun hpower hline hecho => ⟨?time, ?clockSet, ?otherSet, ?output, ?poll, fun hread => ?loopUp⟩,
    fun e hpower hline hecho => ⟨fun vs hread => ?proving, ?inEcho⟩, fun hpower hline hread => ?loopDown, ?hold, ?mute, ?press, ?timeout,
    fun f => execAmplifierFaultChange_eq ha hd f⟩
  case time =>
    intro n day h m sec ms st al dr un ba hread
    exact execRoomClockFrame_idle ha hd hpower hline hecho hread rfl nofun
  case clockSet =>
    intro day h m sec ms hread
    refine ⟨_, (execRoomClockFrame_idle ha hd hpower hline hecho hread rfl nofun).trans
      (by rw [FieldDev.clockTakes, if_pos rfl]; rfl), rfl, rfl, rfl, fun b hb => ?_⟩
    dsimp only
    rw [hb]
    exact ⟨rfl, rfl⟩
  case otherSet =>
    intro b day h m sec ms hne hread
    exact (execRoomClockFrame_idle ha hd hpower hline hecho hread rfl nofun).trans
      (by rw [FieldDev.clockTakes, if_neg hne]; rfl)
  case output =>
    intro z b hold u hread
    refine ⟨(execBellUnitCommand_idle ha hd hpower hline hecho hread rfl nofun).trans ?_,
      (execSpeakerNodeCommand_idle ha hd hpower hline hecho hread rfl nofun).trans ?_⟩
    · show Host.Outcome.next (s.setField l.val a (FieldDev.bellTakes _ s.now a (.output z b hold u))) = _
      unfold FieldDev.bellTakes
      by_cases hz : d.zone = some z
      · simp only [hz, if_true, true_and]
      · simp only [hz, if_false, false_and]
    · show Host.Outcome.next (s.setField l.val a (FieldDev.speakerTakes _ a (.output z b hold u))) = _
      unfold FieldDev.speakerTakes
      by_cases hz : d.zone = some z
      · simp only [hz, if_true]
      · simp only [hz, if_false]
  case poll =>
    rintro z serial hread rfl
    refine ⟨(execBellUnitCommand_idle ha hd hpower hline hecho hread rfl nofun).trans ?_,
      (execSpeakerNodeCommand_idle ha hd hpower hline hecho hread rfl nofun).trans ?_, ?_⟩
    · rw [replies_poll, bellTakes_poll]
      rfl
    · rw [replies_poll, speakerTakes_poll]
      rfl
    · obtain ⟨h, m, sec, hreport, hh, hm, hsec, hshown⟩ := clockReport_spec { d with lastValid := s.now, loopUps := 0 } s.now
      refine ⟨h, m, sec, hh, hm, hsec, (execRoomClockFrame_idle ha hd hpower hline hecho hread rfl nofun).trans ?_, hshown⟩
      rw [replies_poll, clockTakes_poll, hreport]
  case loopUp => exact execDeviceLoopUp_idle ha hd hpower hline hecho hread
  case proving => exact execDeviceLoopUp_proving ha hd hpower hline (Option.isSome_iff_exists.mpr ⟨e, hecho⟩) hread
  case inEcho =>
    intro f hread hcheck hne c hc
    have hsome : d.echo.isSome = true := Option.isSome_iff_exists.mpr ⟨e, hecho⟩
    obtain rfl | rfl | rfl : c = .roomClockFrame l a bs ∨ c = .bellUnitCommand l a bs ∨ c = .speakerNodeCommand l a bs := by
      simpa using hc
    · exact execRoomClockFrame_echo ha hd hpower hline hsome hread hcheck (hne a)
    · exact execBellUnitCommand_echo ha hd hpower hline hsome hread hcheck (hne a)
    · exact execSpeakerNodeCommand_echo ha hd hpower hline hsome hread hcheck (hne a)
  case loopDown => exact execDeviceLoopDown_heard ha hd hpower hline hread
  case hold => exact fun hon hdue => execHoldForExpiry_due ha hd hon hdue
  case mute => exact fun hdue => execSpeakerSilenceMute_due ha hd hdue
  case press => exact execClearStationPress_eq ha hd
  case timeout => exact fun e hecho hdue => execEchoTimeout_due ha hd hecho hdue

end Sys2Proof.Machine
end

