-- ==== Sys2Proof/Proofs/LineFrames.lean ====
section
/-! The bytes of the line frames (R50): the check byte makes the sum of a frame zero, a number is read back from the bytes that it is
written in, and so every frame that fits the layout is read back as itself. -/

set_option autoImplicit false

namespace Sys2Proof.Machine

open Sys2Proof

/-! ### Numbers and flags in bytes -/

theorem byte_toNat {n : Nat} (h : n < 256) : (byte n).toNat = n := by
  unfold byte
  rw [BitVec.toNat_ofNat]
  exact Nat.mod_eq_of_lt h

theorem two?_two {n : Nat} (h : n < 65536) : two? (byte (n / 256)) (byte n) = n := by
  unfold two? byte
  simp only [BitVec.toNat_ofNat]
  omega

theorem three?_three {n : Nat} (h : n < 16777216) : three? (byte (n / 65536)) (byte (n / 256)) (byte n) = n := by
  unfold three? byte
  simp only [BitVec.toNat_ofNat]
  omega

theorem flagBit_byte (b : Bool) : (byte (flagBit b 1)).toNat ≤ 1 ∧ decide ((byte (flagBit b 1)).toNat = 1) = b ∧
    decide ((byte (flagBit b 1)).toNat % 2 = 1) = b := by
  revert b
  decide

theorem flags_bits (a b c d e : Bool) :
    (byte (flagBit a 1 + flagBit b 2 + flagBit c 4 + flagBit d 8 + flagBit e 16)).getLsbD 0 = a ∧
    (byte (flagBit a 1 + flagBit b 2 + flagBit c 4 + flagBit d 8 + flagBit e 16)).getLsbD 1 = b ∧
    (byte (flagBit a 1 + flagBit b 2 + flagBit c 4 + flagBit d 8 + flagBit e 16)).getLsbD 2 = c ∧
    (byte (flagBit a 1 + flagBit b 2 + flagBit c 4 + flagBit d 8 + flagBit e 16)).getLsbD 3 = d ∧
    (byte (flagBit a 1 + flagBit b 2 + flagBit c 4 + flagBit d 8 + flagBit e 16)).getLsbD 4 = e := by
  revert a b c d e
  decide

theorem trunkByte_spec {t : Option Nat} (h : ∀ n, t = some n → n ≤ 3) : (trunkByte t).toNat ≤ 4 ∧ trunkOf (trunkByte t) = t := by
  cases t with
  | none => exact ⟨Nat.zero_le _, rfl⟩
  | some n =>
    have hn := h n rfl
    have hbyte : (trunkByte (some n)).toNat = n + 1 := byte_toNat (by omega)
    refine ⟨by omega, ?_⟩
    unfold trunkOf
    rw [hbyte, if_neg (Nat.succ_ne_zero n), Nat.add_sub_cancel]

theorem hmsOk_byte {h m sec : Nat} (hfits : hmsFits h m sec) : hmsOk (byte h) (byte m) (byte sec) = true := by
  obtain ⟨hh, hm, hsec⟩ := hfits
  unfold hmsOk
  rw [byte_toNat (by omega), byte_toNat (by omega), byte_toNat (by omega)]
  simp only [hh, hm, hsec, decide_true, Bool.and_self]

theorem addrOk_byte {a : Nat} (ha : 1 ≤ a ∧ a ≤ 24) : addrOk (byte a) = true := by
  unfold addrOk
  rw [byte_toNat (by omega)]
  simp only [ha.1, ha.2, decide_true, Bool.and_self]

theorem hms_read {h m sec : Nat} (hfits : hmsFits h m sec) :
    (byte h).toNat = h ∧ (byte m).toNat = m ∧ (byte sec).toNat = sec := by
  obtain ⟨hh, hm, hsec⟩ := hfits
  exact ⟨byte_toNat (by omega), byte_toNat (by omega), byte_toNat (by omega)⟩

/-! ### The check byte -/

theorem byteSum_withCheck (bs : List Byte) : byteSum (withCheck bs) = 0 := by
  unfold withCheck
  show List.foldl (· + ·) 0 (bs ++ [0 - byteSum bs]) = 0
  rw [List.foldl_append]
  show byteSum bs + (0 - byteSum bs) = 0
  bv_omega

theorem withCheck_dropLast (bs : List Byte) : (withCheck bs).dropLast = bs := List.dropLast_concat

theorem withCheck_length (bs : List Byte) : (withCheck bs).length = bs.length + 1 := List.length_append

/-- A frame with a check, whose first byte is not that of a proving frame, is read by its body. -/
theorem readFrame_withCheck {b : Byte} {bs : List Byte} (hb : b ≠ 8) : readFrame (withCheck (b :: bs)) = bodyOf (b :: bs) := by
  have hread : readFrame (withCheck (b :: bs)) =
      if byteSum (withCheck (b :: bs)) = 0 then bodyOf (withCheck (b :: bs)).dropLast else none := by
    unfold readFrame
    split
    · rename_i a vs heq
      exact absurd (List.cons.inj heq).1 hb
    · rfl
  rw [hread, if_pos (byteSum_withCheck _), withCheck_dropLast]

/-! ### The bodies -/

theorem reportOf_bytes {r : Report} (h : r.fits) : reportOf (kindByte (reportKind r) :: reportBytes r) = some r := by
  cases r with
  | clock h' m sec =>
    have hfits : hmsFits h' m sec := h
    obtain ⟨hh, hm, hsec⟩ := hms_read hfits
    show (if hmsOk (byte h') (byte m) (byte sec) then some (Report.clock (byte h').toNat (byte m).toNat (byte sec).toNat) else none) = _
    rw [if_pos (hmsOk_byte hfits), hh, hm, hsec]
  | bell on =>
    obtain ⟨hle, hon, -⟩ := flagBit_byte on
    show (if (byte (flagBit on 1)).toNat ≤ 1 then some (Report.bell (decide ((byte (flagBit on 1)).toNat = 1))) else none) = _
    rw [if_pos hle, hon]
  | speaker t f =>
    obtain ⟨hle, ht⟩ := trunkByte_spec h
    obtain ⟨-, -, hf⟩ := flagBit_byte f
    show (if (trunkByte t).toNat ≤ 4 then
      some (Report.speaker (trunkOf (trunkByte t)) (decide ((byte (flagBit f 1)).toNat % 2 = 1))) else none) = _
    rw [if_pos hle, ht, hf]
  | clear n =>
    have hn : n ≤ 255 := h
    show some (Report.clear (byte n).toNat) = _
    rw [byte_toNat (by omega)]

theorem bodyOf_time {n day h m sec ms : Nat} {st al dr un ba : Bool} (hn : n ≤ 4095) (hday : day ≤ 36524) (hhms : hmsFits h m sec)
    (hms : ms ≤ 999) :
    bodyOf ([1] ++ two n ++ two day ++ [byte h, byte m, byte sec] ++ two ms ++
      [byte (flagBit st 1 + flagBit al 2 + flagBit dr 4 + flagBit un 8 + flagBit ba 16)]) = some (.time n day h m sec ms st al dr un ba) := by
  obtain ⟨h0, h1, h2, h3, h4⟩ := flags_bits st al dr un ba
  obtain ⟨hh, hm, hsec⟩ := hms_read hhms
  show (if hmsOk (byte h) (byte m) (byte sec) && decide (two? (byte (n / 256)) (byte n) ≤ 4095) &&
      decide (two? (byte (day / 256)) (byte day) ≤ 36524) && decide (two? (byte (ms / 256)) (byte ms) ≤ 999) then _ else _) = _
  rw [two?_two (by omega), two?_two (by omega), two?_two (by omega), hmsOk_byte hhms, decide_eq_true hn, decide_eq_true hday,
    decide_eq_true hms, h0, h1, h2, h3, h4, hh, hm, hsec]
  rfl

theorem bodyOf_poll {a : Nat} {z : Option Nat} (ha : 1 ≤ a ∧ a ≤ 24) (hz : ∀ n, z = some n → n ≤ 31) :
    bodyOf [2, byte a, zoneByte z] = some (.poll a z) := by
  have hread : (byte a).toNat = a := byte_toNat (by omega)
  cases z with
  | none =>
    show (if addrOk (byte a) && true then some (Frame.poll (byte a).toNat none) else none) = _
    rw [addrOk_byte ha, hread]
    rfl
  | some n =>
    have hn := hz n rfl
    have hzone : (byte n).toNat = n := byte_toNat (by omega)
    show (if addrOk (byte a) && (decide ((byte n).toNat ≤ 31) || decide ((byte n).toNat = 255)) then
      some (Frame.poll (byte a).toNat (if (byte n).toNat = 255 then none else some (byte n).toNat)) else none) = _
    rw [addrOk_byte ha, hread, hzone, decide_eq_true hn, if_neg (show ¬n = 255 by omega)]
    rfl

theorem bodyOf_reply {a serial : Nat} {r : Report} (ha : 1 ≤ a ∧ a ≤ 24) (hserial : serial ≤ 999999) (hr : r.fits) :
    bodyOf ([3, byte a, kindByte (reportKind r)] ++ three serial ++ reportBytes r) = some (.reply a serial r) := by
  have hread : (byte a).toNat = a := byte_toNat (by omega)
  show (if addrOk (byte a) && decide (three? (byte (serial / 65536)) (byte (serial / 256)) (byte serial) ≤ 999999) then
    (reportOf (kindByte (reportKind r) :: reportBytes r)).map fun r =>
      Frame.reply (byte a).toNat (three? (byte (serial / 65536)) (byte (serial / 256)) (byte serial)) r else none) = _
  rw [three?_three (by omega), addrOk_byte ha, decide_eq_true hserial, reportOf_bytes hr, hread]
  rfl

theorem bodyOf_output {z hold : Nat} {b : Bool} {t : Option Nat} (hz : z ≤ 31) (hhold : hold ≤ 10500) (ht : ∀ n, t = some n → n ≤ 3) :
    bodyOf ([4, byte z, byte (flagBit b 1)] ++ two hold ++ [trunkByte t]) = some (.output z b hold t) := by
  have hread : (byte z).toNat = z := byte_toNat (by omega)
  obtain ⟨hle, hon, -⟩ := flagBit_byte b
  obtain ⟨htrunk, hback⟩ := trunkByte_spec ht
  show (if decide ((byte z).toNat ≤ 31) && decide ((byte (flagBit b 1)).toNat ≤ 1) &&
      decide (two? (byte (hold / 256)) (byte hold) ≤ 10500) && decide ((trunkByte t).toNat ≤ 4) then
    some (Frame.output (byte z).toNat (decide ((byte (flagBit b 1)).toNat = 1)) (two? (byte (hold / 256)) (byte hold))
      (trunkOf (trunkByte t))) else none) = _
  rw [two?_two (by omega), hread, decide_eq_true hz, decide_eq_true hle, decide_eq_true hhold, decide_eq_true htrunk, hon, hback]
  rfl

theorem bodyOf_clockSet {a day h m sec ms : Nat} (ha : 1 ≤ a ∧ a ≤ 24) (hday : day ≤ 36524) (hhms : hmsFits h m sec) (hms : ms ≤ 999) :
    bodyOf ([5, byte a] ++ two day ++ [byte h, byte m, byte sec] ++ two ms) = some (.clockSet a day h m sec ms) := by
  have hread : (byte a).toNat = a := byte_toNat (by omega)
  obtain ⟨hh, hm, hsec⟩ := hms_read hhms
  show (if addrOk (byte a) && hmsOk (byte h) (byte m) (byte sec) && decide (two? (byte (day / 256)) (byte day) ≤ 36524) &&
      decide (two? (byte (ms / 256)) (byte ms) ≤ 999) then _ else _) = _
  rw [two?_two (by omega), two?_two (by omega), hmsOk_byte hhms, addrOk_byte ha, decide_eq_true hday, decide_eq_true hms, hread, hh, hm,
    hsec]
  rfl

theorem bodyOf_loopUp {a : Nat} (ha : 1 ≤ a ∧ a ≤ 24) : bodyOf [6, byte a] = some (.loopUp a) := by
  have hread : (byte a).toNat = a := byte_toNat (by omega)
  show (if addrOk (byte a) then some (Frame.loopUp (byte a).toNat) else none) = _
  rw [if_pos (addrOk_byte ha), hread]

theorem bodyOf_loopDown {a : Nat} (ha : 1 ≤ a ∧ a ≤ 24) : bodyOf [7, byte a] = some (.loopDown a) := by
  have hread : (byte a).toNat = a := byte_toNat (by omega)
  show (if addrOk (byte a) then some (Frame.loopDown (byte a).toNat) else none) = _
  rw [if_pos (addrOk_byte ha), hread]

/-- A proving frame has no check; it is read by its first byte and its length. -/
theorem readFrame_proving {a : Nat} {vs : List Byte} (ha : a ≤ 24) (hvs : vs.length = 16) :
    readFrame (Frame.proving a vs).bytes = some (.proving a vs) := by
  have hread : (byte a).toNat = a := byte_toNat (by omega)
  show (if vs.length = 16 && decide ((byte a).toNat ≤ 24) then some (Frame.proving (byte a).toNat vs) else none) = _
  rw [hvs, hread, decide_eq_true ha]
  rfl

theorem reportBytes_length (r : Report) : 1 ≤ (reportBytes r).length ∧ (reportBytes r).length ≤ 3 := by
  cases r <;> simp [reportBytes]

/-- Settles O40: a checked frame is read by its body, a proving frame by its first byte. -/
theorem framesReadBack : Obligations.FramesReadBack := by
  intro f hfits
  cases f with
  | time n day h m sec ms st al dr un ba =>
    obtain ⟨hn, hday, hhms, hms⟩ := hfits
    exact ⟨(readFrame_withCheck (by decide)).trans (bodyOf_time hn hday hhms hms), by simp [Frame.bytes, withCheck_length, two]⟩
  | poll a z =>
    obtain ⟨ha, hz⟩ := hfits
    exact ⟨(readFrame_withCheck (by decide)).trans (bodyOf_poll ha hz), by simp [Frame.bytes, withCheck_length]⟩
  | reply a serial r =>
    obtain ⟨ha, hserial, hr⟩ := hfits
    obtain ⟨hlo, hhi⟩ := reportBytes_length r
    have hlength : (Frame.reply a serial r).bytes.length = (reportBytes r).length + 7 := by
      refine (withCheck_length _).trans ?_
      rw [List.length_append]
      show 6 + (reportBytes r).length + 1 = _
      omega
    exact ⟨(readFrame_withCheck (by decide)).trans (bodyOf_reply ha hserial hr), by omega⟩
  | output z b hold t =>
    obtain ⟨hz, hhold, ht⟩ := hfits
    exact ⟨(readFrame_withCheck (by decide)).trans (bodyOf_output hz hhold ht), by simp [Frame.bytes, withCheck_length, two]⟩
  | clockSet a day h m sec ms =>
    obtain ⟨ha, hday, hhms, hms⟩ := hfits
    exact ⟨(readFrame_withCheck (by decide)).trans (bodyOf_clockSet ha hday hhms hms), by simp [Frame.bytes, withCheck_length, two]⟩
  | loopUp a => exact ⟨(readFrame_withCheck (by decide)).trans (bodyOf_loopUp hfits), by simp [Frame.bytes, withCheck_length]⟩
  | loopDown a => exact ⟨(readFrame_withCheck (by decide)).trans (bodyOf_loopDown hfits), by simp [Frame.bytes, withCheck_length]⟩
  | proving a vs =>
    obtain ⟨ha, hvs⟩ := hfits
    have hlength : (Frame.proving a vs).bytes.length = 18 := by
      show vs.length + 2 = 18
      omega
    exact ⟨readFrame_proving ha hvs, by omega⟩

end Sys2Proof.Machine
end

