-- ==== Sys2Proof/Proofs/LineSlots.lean ====
section
/-! What a line sends in its slots (sections 2.2 to 2.7) and the poll table that it makes of its records (R35). Which work a slot is
for follows from the line's state, its output list and its poll table; each command does that work and no other. -/

set_option autoImplicit false

namespace Sys2Proof.Machine

open Sys2Proof

/-! ### What a slot is for -/

theorem setLine_restingLaw {s : State} (h : s.restingLaw) (l : Nat) (x : LineSt) : (s.setLine l x).restingLaw :=
  restingLaw_of_eq h rfl rfl rfl rfl

/-- An event of a line that sets its record alone. -/
theorem event_setLine {s : State} (h : s.ready) {f : State → State} {l : Nat} {x : LineSt} (hf : f s = s.setLine l x) :
    event s f = .next (s.setLine l x) := by
  rw [event_powered f h.2, hf]
  exact finish_eq_self (setLine_restingLaw h.1 l x)

/-- A slot of its own: the line's state has slots, the second has one left, and it is time. -/
theorem slotReady_time {s : State} {x : LineSt} (hstate : x.state = .discovery ∨ x.state = .run ∨ x.state = .lost)
    (hslot : x.slot = 0) (hsecond : x.secondAt ≤ s.now) (hnone : x.transaction = none) : s.slotReady x = true := by
  have hslotted : x.state.slotted = true := by obtain h | h | h := hstate <;> rw [h] <;> rfl
  unfold State.slotReady
  rw [hslotted, hslot, hnone]
  simp [State.reached, hsecond]

/-- What a slot of RUN is for when no command goes out: the device of the phase, or a search (R36). -/
def LineSt.phaseWork (x : LineSt) : SlotWork :=
  match x.phase with
  | some a => if (x.recAt a).state = .absent then .search else .poll a
  | none => .search

section
variable {s : State} {x : LineSt} (h : s.slotReady x = true)
include h

theorem workOf_ready : s.workOf x = x.slotWork := if_pos h

theorem workOf_time (hstate : x.state = .discovery ∨ x.state = .run ∨ x.state = .lost) (hslot : x.slot = 0) :
    s.workOf x = .time := by
  rw [workOf_ready h, LineSt.slotWork]
  obtain hstate | hstate | hstate := hstate <;> simp only [hstate, hslot, if_true]

variable (hslot : 1 ≤ x.slot)
include hslot

theorem workOf_discovery (hstate : x.state = .discovery) : s.workOf x = .discovery := by
  have hne : x.slot ≠ 0 := by omega
  simp only [workOf_ready h, LineSt.slotWork, hstate, hne, if_false]

theorem workOf_lost (hstate : x.state = .lost) : s.workOf x = .recovery := by
  have hne : x.slot ≠ 0 := by omega
  simp only [workOf_ready h, LineSt.slotWork, hstate, hne, if_false]

variable (hstate : x.state = .run)
include hstate

theorem workOf_run : s.workOf x = x.runSlot := by
  have hne : x.slot ≠ 0 := by omega
  simp only [workOf_ready h, LineSt.slotWork, hstate, hne, if_false]

/-- Fewer than three commands have been sent since the last poll: the head of the output list goes out. -/
theorem workOf_output {z : Nat} (hfew : x.commands < 3) (hhead : x.headOut = some (.zone z)) : s.workOf x = .output z := by
  simp only [workOf_run h hslot hstate, LineSt.runSlot, hhead, decide_eq_true hfew]

theorem workOf_clock {a : Nat} (hfew : x.commands < 3) (hhead : x.headOut = some (.clock a)) : s.workOf x = .clock a := by
  simp only [workOf_run h hslot hstate, LineSt.runSlot, hhead, decide_eq_true hfew]

/-- Nothing to send, or three commands sent: the slot is for the phase of the poll table. -/
theorem workOf_phase (hpoll : x.headOut = none ∨ 3 ≤ x.commands) : s.workOf x = x.phaseWork := by
  rw [workOf_run h hslot hstate]
  unfold LineSt.runSlot
  obtain hnone | hmany := hpoll
  · rw [hnone]
    rfl
  · rw [decide_eq_false (Nat.not_lt.mpr hmany)]
    cases x.headOut with
    | none => rfl
    | some e => cases e <;> rfl

theorem workOf_poll (hpoll : x.headOut = none ∨ 3 ≤ x.commands) {a : Nat} (hphase : x.phase = some a)
    (hthere : (x.recAt a).state ≠ .absent) : s.workOf x = .poll a := by
  simp only [workOf_phase h hslot hstate hpoll, LineSt.phaseWork, hphase, hthere, if_false]

theorem workOf_search (hpoll : x.headOut = none ∨ 3 ≤ x.commands)
    (hphase : (x.phase.all fun b => (x.recAt b).state = .absent) = true) : s.workOf x = .search := by
  rw [workOf_phase h hslot hstate hpoll, LineSt.phaseWork]
  cases hp : x.phase with
  | none => rfl
  | some b =>
    rw [hp] at hphase
    have habsent : (x.recAt b).state = .absent := of_decide_eq_true hphase
    simp only [habsent, if_true]

end

/-! ### The time frame (R29 to R32) -/

theorem execTimeFrame_sent {s : State} {l : Fin 6} {x : LineSt} (h : s.ready) (hx : x = s.lineAt l.val) (hwork : s.workOf x = .time) :
    execTimeFrame l s =
      .next (s.setLine l.val
        { x.send (s.timeFrameOf l.val x) with frameNo := (x.frameNo + 1) % 4096, lastFrame := some x.frameNo, stepPending := false }) :=
  event_setLine h (by dsimp only; rw [← hx, hwork])

/-- Settles O31. -/
theorem timeFrameCarriesCampusTime : Obligations.TimeFrameCarriesCampusTime := by
  intro s l x h hx hstate hslot hsecond hnone
  have hsent := execTimeFrame_sent h hx (workOf_time (slotReady_time hstate hslot hsecond hnone) hstate hslot)
  unfold LineSt.send at hsent
  rw [hslot] at hsent
  exact hsent

/-! ### Polls (R33, R36, R37, R43) -/

/-- A poll carries the zone of a PRESENT, MISSING or FAULTY record. -/
theorem pollZone_eq (x : LineSt) (a : Nat) :
    x.pollZone a = if (x.recAt a).state = .present ∨ (x.recAt a).state = .missing ∨ (x.recAt a).state = .faulty then (x.recAt a).zone
      else none := by
  unfold LineSt.pollZone
  cases h : (x.recAt a).state <;> simp [h]

section
variable {s : State} {l : Fin 6} {x : LineSt} (h : s.ready) (hx : x = s.lineAt l.val)
include h hx

theorem execDiscoveryPoll_sent (hwork : s.workOf x = .discovery) :
    execDiscoveryPoll l s = .next (s.setLine l.val { x.sendPoll s.now x.discAddr with discTry := x.discTry + 1 }) :=
  event_setLine h (by dsimp only; rw [← hx, hwork])

theorem execPoll_sent {a : Nat} (hwork : s.workOf x = .poll a) :
    execPoll l s = .next (s.setLine l.val (x.tookPhase.sendPoll s.now a)) := event_setLine h (by dsimp only; rw [← hx, hwork])

theorem execSearchPoll_sent {a : Nat} (hwork : s.workOf x = .search) (hnext : x.searchNext = some a) :
    execSearchPoll l s = .next (s.setLine l.val { x.tookPhase.sendPoll s.now a with searchPtr := a }) :=
  event_setLine h (by dsimp only; rw [← hx, hwork, hnext])

theorem execSearchPoll_skipped (hwork : s.workOf x = .search) (hnext : x.searchNext = none) :
    execSearchPoll l s = .next (s.setLine l.val { x.tookPhase with slot := x.slot + 1 }) :=
  event_setLine h (by dsimp only; rw [← hx, hwork, hnext]; rfl)

theorem execRecoveryPoll_sent {a : Nat} (hwork : s.workOf x = .recovery) (hnext : x.recoverNext = some a) :
    execRecoveryPoll l s = .next (s.setLine l.val { x.sendPoll s.now a with recoverPtr := a }) :=
  event_setLine h (by dsimp only; rw [← hx, hwork, hnext])

end

/-- Settles O32: each poll is the work of its slot. -/
theorem pollsGoOutInTheirSlots : Obligations.PollsGoOutInTheirSlots := by
  intro s l x a z h hx hready hslot hz
  rw [← pollZone_eq] at hz
  subst hz
  refine ⟨fun hstate ha => ?_, fun hstate hpoll hphase hthere => ?_, fun hstate hpoll hphase => ⟨fun hnext => ?_, fun hnext => ?_⟩,
    fun hstate hnext => ?_⟩
  · subst ha
    exact execDiscoveryPoll_sent h hx (workOf_discovery hready hslot hstate)
  · exact execPoll_sent h hx (workOf_poll hready hslot hstate hpoll hphase hthere)
  · exact execSearchPoll_sent h hx (workOf_search hready hslot hstate hpoll hphase) hnext
  · exact execSearchPoll_skipped h hx (workOf_search hready hslot hstate hpoll hphase) hnext
  · exact execRecoveryPoll_sent h hx (workOf_lost hready hslot hstate) hnext

/-! ### The output list (R44, R32) -/

/-- Taking the head of the output list, urgent entries first. -/
theorem dropHead_eq (x : LineSt) :
    x.dropHead = { x with outAlarm := x.outAlarm.tail, outOrd := if x.outAlarm = [] then x.outOrd.tail else x.outOrd } := by
  unfold LineSt.dropHead
  cases h : x.outAlarm with
  | nil => simp only [if_true, List.tail_nil]
  | cons e es => simp only [reduceCtorEq, if_false, List.tail_cons]

/-- The date and second that a CLOCK-SET carries: campus time, or the next second where the milliseconds have run over (R32). -/
theorem clockSetFrame_eq {s : State} {x : LineSt} {a ms day sec : Nat}
    (hms : ms = min s.tbu.phase 7999 / 8 + (x.delay.getD 0 + 8) / 16)
    (hday : (day, sec) = if ms < 1000 then (s.tbu.day, s.tbu.sec)
      else if s.tbu.sec + 1 < 86400 then (s.tbu.day, s.tbu.sec + 1) else (s.tbu.day + 1, 0)) :
    s.clockSetFrame x a =
      .clockSet a (if day ≤ 36524 then day else 0) (sec / 3600) (sec / 60 % 60) (sec % 60) (ms % 1000) := by
  have hread : s.campus.ms % 1000 + halfTrip x.delay = ms := by
    have hcampus : s.campus.ms = s.tbu.sec * 1000 + min s.tbu.phase 7999 / 8 := rfl
    unfold halfTrip
    omega
  have hat : (if 1000 ≤ ms then s.tbu.stamp.next else s.tbu.stamp) = { day := day, sec := sec } := by
    split_ifs at hday with hlow hmid
    · obtain ⟨rfl, rfl⟩ := Prod.mk.inj hday
      rw [if_neg (by omega)]
      rfl
    · obtain ⟨rfl, rfl⟩ := Prod.mk.inj hday
      rw [if_pos (by omega)]
      exact if_pos hmid
    · obtain ⟨rfl, rfl⟩ := Prod.mk.inj hday
      rw [if_pos (by omega)]
      exact if_neg hmid
  have hover : (if 36524 < day then 0 else day) = if day ≤ 36524 then day else 0 := by split_ifs <;> omega
  unfold State.clockSetFrame
  dsimp only
  rw [hread, hat, ← hover]
  rfl

section
variable {s : State} {l : Fin 6} {x : LineSt} (h : s.ready) (hx : x = s.lineAt l.val)
include h hx

theorem execZoneOutputCommand_sent {z : Nat} (hwork : s.workOf x = .output z) :
    execZoneOutputCommand l s =
      .next (s.setLine l.val { x.dropHead.send (s.outputFrame z) with commands := x.commands + 1 }) :=
  event_setLine h (by dsimp only; rw [← hx, hwork])

theorem execClockSet_sent {a : Nat} (hwork : s.workOf x = .clock a) :
    execClockSet l s = .next (s.setLine l.val { x.dropHead.send (s.clockSetFrame x a) with commands := x.commands + 1 }) :=
  event_setLine h (by dsimp only; rw [← hx, hwork])

end

/-- Settles O33: the head of the output list is the work of its slot. -/
theorem outputCommandsEmptyTheList : Obligations.OutputCommandsEmptyTheList := by
  intro s l x e f h hx hready hstate hslot hfew hhead
  refine ⟨?_, ?_⟩
  · rintro z rfl hf
    have hsent := execZoneOutputCommand_sent h hx (workOf_output hready hslot hstate hfew hhead)
    have hframe : s.outputFrame z = f := by
      rw [hf]
      unfold State.outputFrame State.holdFor
      rfl
    rw [hframe, dropHead_eq] at hsent
    exact hsent
  · rintro a ms day sec rfl hms hday hf
    have hsent := execClockSet_sent h hx (workOf_clock hready hslot hstate hfew hhead)
    rw [clockSetFrame_eq hms hday, ← hf, dropHead_eq] at hsent
    exact hsent

/-! ### The AUTO poll table (R35) -/

section
variable (x : LineSt)

/-- The addresses that answer, in rising order. -/
def LineSt.answerers : List Nat := allAddrs.filter fun a => (x.recAt a).answering

/-- The clear stations that are PRESENT or FAULTY, in rising order. -/
def LineSt.clears : List Nat := allAddrs.filter fun a => (x.recAt a).extra

/-- The phases that are not EMPTY. -/
def LineSt.filled : List Nat := (x.answerers ++ x.clears ++ x.clears ++ x.clears).take 32

theorem autoTable_eq : x.autoTable = x.filled.map some ++ List.replicate (32 - x.filled.length) none := by
  have hlength : (x.filled.map some).length = x.filled.length := List.length_map some
  rw [← hlength]
  rfl

theorem filled_length_le : x.filled.length ≤ 32 := List.length_take_le ..

theorem autoTable_length : x.autoTable.length = 32 := by
  rw [autoTable_eq, List.length_append, List.length_map, List.length_replicate]
  exact Nat.add_sub_cancel' (filled_length_le x)

theorem answerers_length_le : x.answerers.length ≤ 24 := List.length_filter_le ..

theorem allAddrs_sorted : allAddrs.Pairwise (· < ·) := by decide

theorem clears_sorted : x.clears.Pairwise (· < ·) := allAddrs_sorted.sublist List.filter_sublist

theorem answerers_nodup : x.answerers.Nodup := (allAddrs_sorted.sublist List.filter_sublist).imp fun h => Nat.ne_of_lt h

theorem clears_nodup : x.clears.Nodup := (clears_sorted x).imp fun h => Nat.ne_of_lt h

variable {x}

theorem mem_answerers {a : Nat} : a ∈ x.answerers ↔ a ∈ allAddrs ∧ (x.recAt a).answering = true := List.mem_filter

theorem mem_clears {a : Nat} : a ∈ x.clears ↔ a ∈ allAddrs ∧ (x.recAt a).extra = true := List.mem_filter

/-- A clear station that is PRESENT or FAULTY answers. -/
theorem answering_of_extra {r : DevRec} (h : r.extra = true) : r.answering = true := by
  unfold DevRec.extra at h
  unfold DevRec.answering
  obtain ⟨-, hstate⟩ := Bool.and_eq_true_iff.mp h
  obtain hstate | hstate := Bool.or_eq_true_iff.mp hstate <;> rw [of_decide_eq_true hstate]

theorem clears_subset {a : Nat} (h : a ∈ x.clears) : a ∈ x.answerers := by
  obtain ⟨haddr, hextra⟩ := mem_clears.mp h
  exact mem_answerers.mpr ⟨haddr, answering_of_extra hextra⟩

/-- The answering devices have their phases before any extra phase. -/
theorem filled_eq : x.filled = x.answerers ++ (x.clears ++ x.clears ++ x.clears).take (32 - x.answerers.length) := by
  have hle := answerers_length_le x
  unfold LineSt.filled
  rw [List.append_assoc, List.append_assoc, ← List.append_assoc x.clears, List.take_append, List.take_of_length_le (by omega)]

theorem count_autoTable (a : Nat) : x.autoTable.count (some a) = x.filled.count a := by
  rw [autoTable_eq, List.count_append, List.count_map_of_injective _ _ (Option.some_injective _), List.count_replicate]
  simp

end

/-- How often an entry stands in the first places of a list without repetitions: once from its place on. -/
theorem count_take {xs : List Nat} (h : xs.Nodup) {a : Nat} (ha : a ∈ xs) (k : Nat) :
    (xs.take k).count a = if xs.idxOf a < k then 1 else 0 := by
  split
  · rename_i hlt
    exact List.count_eq_one_of_mem (h.sublist (List.take_sublist k xs)) ((List.mem_take_iff_idxOf_lt ha).mpr hlt)
  · rename_i hge
    exact List.count_eq_zero.mpr fun hmem => hge ((List.mem_take_iff_idxOf_lt ha).mp hmem)

/-- The places of an entry in three rounds of a list without repetitions. -/
theorem count_take_rounds {xs : List Nat} (h : xs.Nodup) {a : Nat} (ha : a ∈ xs) (k : Nat) :
    ((xs ++ xs ++ xs).take k).count a =
      (if xs.idxOf a < k then 1 else 0) + (if xs.idxOf a + xs.length < k then 1 else 0) +
        (if xs.idxOf a + 2 * xs.length < k then 1 else 0) := by
  rw [List.take_append, List.take_append, List.count_append, List.count_append, count_take h ha, count_take h ha, count_take h ha,
    List.length_append]
  have hfirst : xs.idxOf a < k - xs.length ↔ xs.idxOf a + xs.length < k := by omega
  have hsecond : xs.idxOf a < k - (xs.length + xs.length) ↔ xs.idxOf a + 2 * xs.length < k := by omega
  simp only [hfirst, hsecond]

/-- In a rising list a smaller entry stands before a larger one. -/
theorem idxOf_lt_of_lt {xs : List Nat} (h : xs.Pairwise (· < ·)) {a b : Nat} (ha : a ∈ xs) (hb : b ∈ xs) (hlt : a < b) :
    xs.idxOf a < xs.idxOf b := by
  have hia := List.idxOf_lt_length_of_mem ha
  have hib := List.idxOf_lt_length_of_mem hb
  have hga : xs[xs.idxOf a] = a := List.getElem_idxOf hia
  have hgb : xs[xs.idxOf b] = b := List.getElem_idxOf hib
  by_contra hnot
  obtain heq | hgt := Nat.eq_or_lt_of_le (Nat.not_lt.mp hnot)
  · have hsame : xs[xs.idxOf b] = xs[xs.idxOf a] := by simp only [heq]
    omega
  · have hrev := List.pairwise_iff_getElem.mp h _ _ hib hia hgt
    omega

section
variable {x : LineSt}

/-- Behind an EMPTY phase all are EMPTY. -/
theorem autoTable_emptyBehind {i j : Nat} (hij : i ≤ j) (hi : x.autoTable[i]? = some none) (hj : j < 32) :
    x.autoTable[j]? = some none := by
  rw [autoTable_eq] at hi ⊢
  have hbehind : x.filled.length ≤ i := by
    by_contra hlt
    rw [List.getElem?_append_left (by rw [List.length_map]; omega), List.getElem?_map] at hi
    obtain ⟨b, -, hb⟩ := Option.map_eq_some_iff.mp hi
    cases hb
  rw [List.getElem?_append_right (by rw [List.length_map]; omega), List.getElem?_replicate, List.length_map, if_pos (by omega)]

theorem autoTable_answers {a : Nat} (h : some a ∈ x.autoTable) : a ∈ x.answerers := by
  rw [autoTable_eq, filled_eq] at h
  simp only [List.mem_append, List.mem_map, List.mem_replicate, Option.some.injEq, exists_eq_right, reduceCtorEq, and_false,
    or_false] at h
  obtain h | h := h
  · exact h
  · exact clears_subset (by simpa using List.mem_of_mem_take h)

/-- An EMPTY phase is left only where all rounds have found room. -/
theorem autoTable_room (h : none ∈ x.autoTable) : x.answerers.length + 3 * x.clears.length < 32 := by
  rw [autoTable_eq] at h
  have hshort : x.filled.length < 32 := by
    simp only [List.mem_append, List.mem_map, reduceCtorEq, and_false, exists_false, List.mem_replicate, false_or] at h
    omega
  unfold LineSt.filled at hshort
  rw [List.length_take, List.length_append, List.length_append, List.length_append] at hshort
  omega

theorem count_autoTable_clear {a : Nat} (h : a ∈ x.clears) : x.autoTable.count (some a) =
    1 + ((if x.clears.idxOf a < 32 - x.answerers.length then 1 else 0) +
      (if x.clears.idxOf a + x.clears.length < 32 - x.answerers.length then 1 else 0) +
      (if x.clears.idxOf a + 2 * x.clears.length < 32 - x.answerers.length then 1 else 0)) := by
  rw [count_autoTable, filled_eq, List.count_append, List.count_eq_one_of_mem (answerers_nodup x) (clears_subset h),
    count_take_rounds (clears_nodup x) h]

end

/-- Settles O38: the answering devices, then up to three rounds of the clear stations, cut at 32 phases. -/
theorem autoTableSharesThePhases : Obligations.AutoTableSharesThePhases := by
  intro x
  have hfilled := filled_eq (x := x)
  have hle := answerers_length_le x
  refine ⟨x.answerers, x.clears, rfl, rfl, autoTable_length x, ?first, ?filled, ?empty, ?none, ?once, ?share, ?order⟩
  case first =>
    rw [autoTable_eq, hfilled, List.map_append, List.append_assoc, List.take_append_of_le_length (by simp),
      List.take_of_length_le (by simp)]
  case filled =>
    rw [autoTable_eq, List.filterMap_append, List.filterMap_map]
    simp [LineSt.filled]
  case empty => exact fun i j hij hi hj => autoTable_emptyBehind hij hi hj
  case none => exact fun a ha hmem => ha (autoTable_answers hmem)
  case once =>
    intro a ha hextra
    have hnot : a ∉ x.clears := fun hmem => by simp [(mem_clears.mp hmem).2] at hextra
    rw [count_autoTable, hfilled, List.count_append, List.count_eq_one_of_mem (answerers_nodup x) ha,
      List.count_eq_zero.mpr fun hmem => hnot (by simpa using List.mem_of_mem_take hmem)]
  case share =>
    intro a ha hextra
    have hmem : a ∈ x.clears := mem_clears.mpr ⟨(mem_answerers.mp ha).1, hextra⟩
    have hcount := count_autoTable_clear hmem
    refine ⟨by omega, by split_ifs at hcount <;> omega, fun hnone => ?_⟩
    have hroom := autoTable_room hnone
    have hindex := List.idxOf_lt_length_of_mem hmem
    rw [hcount, if_pos (by omega), if_pos (by omega), if_pos (by omega)]
  case order =>
    intro a b ha hb hlt hea heb
    have hma : a ∈ x.clears := mem_clears.mpr ⟨(mem_answerers.mp ha).1, hea⟩
    have hmb : b ∈ x.clears := mem_clears.mpr ⟨(mem_answerers.mp hb).1, heb⟩
    have hbefore := idxOf_lt_of_lt (clears_sorted x) hma hmb hlt
    have hinside := List.idxOf_lt_length_of_mem hmb
    rw [count_autoTable_clear hma, count_autoTable_clear hmb]
    split_ifs <;> omega

end Sys2Proof.Machine
end

