-- ==== Sys2Proof/Proofs/LineLife.lean ====
section
/-! The life of a line between its states: its devices' records at DISCOVERY and the degraded marks of its zones, bring-up (O36), and
the frames and ends of a test (O42, O43). -/

set_option autoImplicit false

namespace Sys2Proof.Machine

open Sys2Proof

/-! ### The end of a command that leaves the zone controller at rest -/

theorem finish_atRest {t : State} (hagenda : t.ztc.agenda = []) (hpages : (t.pgc.queue.all fun p => !p.hasEnded) = true) :
    finish t = .next t.rejudge := by
  unfold finish
  rw [settle_eq_self hagenda hpages]

/-! ### The degraded marks of a line's zones (R40) -/

theorem setZones_shape {f : State → Nat → ZoneRec} (zs : List Nat) (s : State) :
    ∃ table, zs.foldl (fun s z => s.setZone z (f s z)) s = { s with ztc := { s.ztc with zones := table } } := by
  induction zs generalizing s with
  | nil => exact ⟨s.ztc.zones, rfl⟩
  | cons z zs ih =>
    obtain ⟨table, htable⟩ := ih (s.setZone z (f s z))
    exact ⟨table, htable⟩

theorem refreshDegraded_shape (s : State) (l : Nat) :
    ∃ table, s.refreshDegraded l = { s with ztc := { s.ztc with zones := table } } := setZones_shape _ s

theorem refreshDegraded_lineAt (s : State) (l k : Nat) : (s.refreshDegraded l).lineAt k = s.lineAt k := by
  obtain ⟨table, h⟩ := refreshDegraded_shape s l
  rw [h]
  rfl

theorem refreshDegraded_ntu (s : State) (l : Nat) : (s.refreshDegraded l).ntu = s.ntu := by
  obtain ⟨table, h⟩ := refreshDegraded_shape s l
  rw [h]

theorem refreshDegraded_agenda (s : State) (l : Nat) : (s.refreshDegraded l).ztc.agenda = s.ztc.agenda := by
  obtain ⟨table, h⟩ := refreshDegraded_shape s l
  rw [h]

theorem refreshDegraded_pgc (s : State) (l : Nat) : (s.refreshDegraded l).pgc = s.pgc := by
  obtain ⟨table, h⟩ := refreshDegraded_shape s l
  rw [h]

theorem refreshDegraded_rest (s : State) (l : Nat) : (s.refreshDegraded l).rest = s.rest := by
  obtain ⟨table, h⟩ := refreshDegraded_shape s l
  rw [h]
  rfl

/-! ### DISCOVERY -/

theorem setRecs_shape {f : LineSt → Nat → DevRec} (as : List Nat) (x : LineSt) :
    ∃ recs, as.foldl (fun x a => x.setRec a (f x a)) x = { x with recs := recs } := by
  induction as generalizing x with
  | nil => exact ⟨x.recs, rfl⟩
  | cons a as ih =>
    obtain ⟨recs, hrecs⟩ := ih (x.setRec a (f x a))
    exact ⟨recs, hrecs⟩

theorem mapRecs_shape (x : LineSt) (f : DevRec → DevRec) : ∃ recs, x.mapRecs f = { x with recs := recs } := setRecs_shape _ x

theorem foldRecs_recAt (f : DevRec → DevRec) {as : List Nat} (hnodup : as.Nodup) (x : LineSt) (b : Nat) :
    (as.foldl (fun x a => x.setRec a (f (x.recAt a))) x).recAt b = if b ∈ as then f (x.recAt b) else x.recAt b := by
  induction as generalizing x with
  | nil => rfl
  | cons a as ih =>
    obtain ⟨hnot, hrest⟩ := List.nodup_cons.mp hnodup
    rw [List.foldl_cons, ih hrest, recAt_setRec]
    by_cases hab : b = a
    · subst hab
      simp [hnot]
    · simp [hab]

theorem mapRecs_recAt (x : LineSt) (f : DevRec → DevRec) {b : Nat} (hb : b ∈ allAddrs) : (x.mapRecs f).recAt b = f (x.recAt b) := by
  unfold LineSt.mapRecs
  rw [foldRecs_recAt f (by decide), if_pos hb]

/-- The record of a line as DISCOVERY begins, which looks to the other lines for nothing. -/
def State.discoveringLine (s : State) (x : LineSt) : LineSt :=
  { x.mapRecs DevRec.discovering with state := .discovery, since := s.now, outAlarm := [], outOrd := [], window := [], unanswered := 0
                                      discAddr := 1, discTry := 0, test := none, slot := s.slotFrom x }

theorem enterDiscovery_eq (s : State) (l : Nat) :
    s.enterDiscovery l = (s.setLine l (s.discoveringLine (s.lineAt l))).refreshDegraded l := rfl

theorem enterDiscovery_lineAt (s : State) (l k : Nat) :
    (s.enterDiscovery l).lineAt k = if k = l then s.discoveringLine (s.lineAt l) else s.lineAt k := by
  rw [enterDiscovery_eq, refreshDegraded_lineAt, lineAt_setLine]

theorem enterDiscovery_ntu (s : State) (l : Nat) : (s.enterDiscovery l).ntu = s.ntu := refreshDegraded_ntu _ l

theorem enterDiscovery_rest (s : State) (l : Nat) : (s.enterDiscovery l).rest = s.rest := refreshDegraded_rest _ l

theorem finish_enterDiscovery {s : State} (hagenda : s.ztc.agenda = []) (hpages : (s.pgc.queue.all fun p => !p.hasEnded) = true)
    (l : Nat) : finish (s.enterDiscovery l) = .next (s.enterDiscovery l).rejudge :=
  finish_atRest ((refreshDegraded_agenda _ l).trans hagenda) (by rw [enterDiscovery_eq, refreshDegraded_pgc]; exact hpages)

/-- The fields of the line's record that DISCOVERY keeps. -/
theorem discoveringLine_kept (s : State) (x : LineSt) :
    (s.discoveringLine x).record = x.record ∧ (s.discoveringLine x).sent = x.sent := by
  obtain ⟨recs, h⟩ := mapRecs_shape x DevRec.discovering
  unfold State.discoveringLine
  rw [h]
  exact ⟨rfl, rfl⟩

theorem discoveringLine_recAt (s : State) (x : LineSt) {a : Nat} (ha : a ∈ allAddrs) :
    (s.discoveringLine x).recAt a = (x.recAt a).discovering := by
  rw [← mapRecs_recAt x DevRec.discovering ha]
  obtain ⟨recs, h⟩ := mapRecs_shape x DevRec.discovering
  unfold State.discoveringLine
  rw [h]
  rfl

theorem rejudge_lineAt (s : State) (k : Nat) : s.rejudge.lineAt k = s.lineAt k := rfl

/-! ### Bring-up (R24 to R26) -/

section
variable {s : State} {l : Fin 6} {x : LineSt} (h : s.ready) (hx : x = s.lineAt l.val)
include h hx

theorem execProvingEnd_passed (hstate : x.state = .proving) (hdue : x.since + 8000 ≤ s.now) (hpass : x.prover.passes = true) :
    execProvingEnd l s = .next (s.enterPowering l.val) := by
  unfold execProvingEnd
  rw [event_powered _ h.2]
  dsimp only
  rw [← hx, hstate, hpass, State.reached, decide_eq_true hdue, if_pos rfl]
  have hrest : (s.enterPowering l.val).restingLaw := onDevices_restingLaw (setLine_restingLaw h.1 _ _) _ _
  exact finish_eq_self hrest

theorem execProvingEnd_failed (hstate : x.state = .proving) (hdue : x.since + 8000 ≤ s.now) (hfail : x.prover.passes = false) :
    execProvingEnd l s =
      .next ((s.setLine l.val { x with state := .fault, since := s.now }).noticed .line (.line l.val .fault)) := by
  unfold execProvingEnd
  rw [event_powered _ h.2]
  dsimp only
  rw [← hx, hstate, hfail, State.reached, decide_eq_true hdue]
  subst hx
  exact finish_unsettled h.1 rfl rfl

theorem execPoweringEnd_due (hstate : x.state = .powering) (hdue : x.since + 16000 ≤ s.now) :
    execPoweringEnd l s = .next (s.enterDiscovery l.val).rejudge := by
  unfold execPoweringEnd
  rw [event_powered _ h.2]
  dsimp only
  rw [← hx, hstate, State.reached, decide_eq_true hdue]
  exact finish_enterDiscovery h.1.1 h.1.2.1 l.val

end

/-- Settles O36: each end of a part of bring-up is one of the three outcomes above; `enterPowering_fieldAt` gives the devices and
`enterDiscovery_lineAt` the line's record. -/
theorem bringUpGoesOn : Obligations.BringUpGoesOn := by
  intro s l x h hx
  refine ⟨fun hstate hdue hpass => ⟨_, execProvingEnd_passed h hx hstate hdue hpass, ?_, fun a hlow hhigh => ?_, fun k a _ hk hlow hhigh => ?_⟩,
    execProvingEnd_failed h hx, fun hstate hdue => ⟨_, execPoweringEnd_due h hx hstate hdue, ?_⟩⟩
  · subst hx
    exact onDevices_eq (s.setLine l.val { s.lineAt l.val with state := .powering, since := s.now }) l.val FieldDev.cold
  · rw [enterPowering_fieldAt s l.val l.val a ⟨hlow, hhigh⟩, if_pos rfl]
    rfl
  · rw [enterPowering_fieldAt s l.val k a ⟨hlow, hhigh⟩, if_neg hk]
  · have hline : (s.enterDiscovery l.val).rejudge.lineAt l.val = s.discoveringLine x := by
      rw [rejudge_lineAt, enterDiscovery_lineAt, if_pos rfl, hx]
    rw [hline, rejudge_rest, enterDiscovery_rest]
    refine ⟨rfl, rfl, rfl, rfl, rfl, rfl, fun a hlow hhigh => ?_, fun k hk => ?_, rfl⟩
    · rw [discoveringLine_recAt s x (mem_allAddrs.mpr ⟨hlow, hhigh⟩)]
      exact ⟨rfl, rfl, rfl⟩
    · rw [rejudge_lineAt, enterDiscovery_lineAt, if_neg hk]

/-! ### The sequence comparison (R51 to R53) -/

theorem take_compared (r : Prover) (v : Nat) (injected : Bool) : (r.take v injected).compared = r.compared + 1 := by
  unfold Prover.take
  split
  · unfold Prover.search
    dsimp only
    split <;> rfl
  · unfold Prover.compare
    dsimp only
    split <;> rfl

theorem foldTake_compared (injected : Byte × Nat → Bool) (vs : List (Byte × Nat)) (r : Prover) :
    (vs.foldl (fun x v => x.take v.1.toNat (injected v)) r).compared = r.compared + vs.length := by
  induction vs generalizing r with
  | nil => rfl
  | cons v vs ih => rw [List.foldl_cons, ih, take_compared, List.length_cons]; omega

theorem takeAll_compared (r : Prover) (vs : List Byte) : (r.takeAll vs).compared = r.compared + vs.length := by
  unfold Prover.takeAll
  rw [foldTake_compared, List.length_zipIdx]

theorem take_frames (r : Prover) (v : Nat) (injected : Bool) : (r.take v injected).frames = r.frames := by
  unfold Prover.take
  split
  · unfold Prover.search
    dsimp only
    split <;> rfl
  · unfold Prover.compare
    dsimp only
    split <;> rfl

theorem takeAll_frames (r : Prover) (vs : List Byte) : (r.takeAll vs).frames = r.frames :=
  List.foldlRecOn (motive := fun p => p.frames = r.frames) _ _ rfl fun p hp _ _ => (take_frames p _ _).trans hp

theorem bodyOf_checked {bs : List Byte} {f : Frame} (h : bodyOf bs = some f) : f.checked = true := by
  unfold bodyOf at h
  split at h
  case h_8 => exact nomatch h
  all_goals
    obtain ⟨_, h⟩ := Option.ite_none_right_eq_some.mp h
    first
    | exact Option.some.inj h ▸ rfl
    | obtain ⟨_, _, h⟩ := Option.map_eq_some_iff.mp h
      exact h ▸ rfl

theorem readFrame_provingLength {bs : List Byte} {a : Nat} {vs : List Byte} (h : readFrame bs = some (.proving a vs)) : vs.length = 16 := by
  unfold readFrame at h
  split at h
  · split at h
    next hlength =>
      injection h with h
      injection h with _ hvs
      rw [Bool.and_eq_true, decide_eq_true_eq] at hlength
      exact hvs ▸ hlength.1
    · exact nomatch h
  · split at h
    · exact nomatch bodyOf_checked h
    · exact nomatch h

theorem echoOf_length {a start : Nat} {bs vs : List Byte} (h : echoOf a start bs = some vs) : vs.length = 16 := by
  unfold echoOf at h
  split at h
  next hread =>
    split at h
    · exact Option.some.inj h ▸ readFrame_provingLength hread
    · exact nomatch h
  · exact nomatch h

/-! ### Results of a test -/

/-- A line whose test has taken its result. -/
def LineSt.resulted (x : LineSt) (r : TestRecord) (res : TestResult) (cause : Option AbortCause) : LineSt :=
  { x with prover := { x.prover with injPending := false }, record := some { r with result := res, cause := cause } }

theorem takeResult_eq {s : State} {l : Nat} {x : LineSt} {r : TestRecord} (hx : x = s.lineAt l) (hrecord : x.record = some r)
    (res : TestResult) (cause : Option AbortCause) :
    s.takeResult l res cause = (s.setLine l (x.resulted r res cause)).raise .testEnd (.testEnd l r.mode res cause) := by
  subst hx
  unfold State.takeResult State.raiseTestEnd State.onLine
  dsimp only
  rw [lineAt_setLine, if_pos rfl]
  simp only [hrecord, Option.map_some, LineSt.resulted]

theorem raise_recAt (s : State) (k j : NoticeKind) (d : Detail) (q : Port) :
    ((s.raise k d).ntu.get q).recAt j = ((s.ntu.get q).take k d).recAt j := by
  cases q <;> rfl

/-- A test that ends with this result, and DISCOVERY after it: the line's record and the notices. -/
theorem takeResult_ends {s : State} {l : Nat} {x : LineSt} {r : TestRecord} (hx : x = s.lineAt l) (hrecord : x.record = some r)
    (hagenda : s.ztc.agenda = []) (hpages : (s.pgc.queue.all fun p => !p.hasEnded) = true) (res : TestResult) :
    ∃ u : State, finish ((s.takeResult l res none).enterDiscovery l) = .next u ∧ (u.lineAt l).state = .discovery ∧
      (u.lineAt l).since = s.now ∧ (u.lineAt l).discAddr = 1 ∧ (u.lineAt l).test = none ∧ (u.lineAt l).sent = x.sent ∧
      (u.lineAt l).record = some { r with cause := none, result := res } ∧
      (∀ q, (u.ntu.get q).recAt .testEnd = ((s.ntu.get q).take .testEnd (.testEnd l r.mode res none)).recAt .testEnd) ∧
      u.rest = s.rest := by
  have hline : (s.takeResult l res none).lineAt l = x.resulted r res none := by
    rw [takeResult_eq hx hrecord res none]
    exact (lineAt_setLine ..).trans (if_pos rfl)
  have hagenda' : (s.takeResult l res none).ztc.agenda = [] := by
    rw [takeResult_eq hx hrecord res none]
    exact hagenda
  have hpages' : ((s.takeResult l res none).pgc.queue.all fun p => !p.hasEnded) = true := by
    rw [takeResult_eq hx hrecord res none]
    exact hpages
  obtain ⟨hkept, hsent⟩ := discoveringLine_kept (s.takeResult l res none) ((s.takeResult l res none).lineAt l)
  refine ⟨_, finish_enterDiscovery hagenda' hpages' l, ?_⟩
  rw [rejudge_lineAt, enterDiscovery_lineAt, if_pos rfl, hkept, hsent, hline]
  refine ⟨rfl, ?_, rfl, rfl, rfl, rfl, fun q => ?_, ?_⟩
  · have hnow := congrArg State.now (takeResult_eq hx hrecord res none)
    exact hnow
  · rw [rejudge_recAt, enterDiscovery_ntu, takeResult_eq hx hrecord res none, raise_recAt]
    rfl
  · rw [rejudge_rest, enterDiscovery_rest, takeResult_eq hx hrecord res none, rest_raise, rest_setLine]

/-! ### The parts of a test (R57, R58, R61, R62) -/

section
variable {s : State} {l : Fin 6} {x : LineSt} {t : TestRun} {r : TestRecord} (h : s.ready) (hx : x = s.lineAt l.val)

theorem unjudged_running (htest : x.test = some t) (hrecord : x.record = some r) (hrunning : r.result = .running) :
    x.unjudged = true := by simp [LineSt.unjudged, htest, hrecord, hrunning]

theorem unjudged_judged (hrecord : x.record = some r) (hjudged : r.result ≠ .running) : x.unjudged = false := by
  simp [LineSt.unjudged, hrecord, hjudged]

include h hx

section
variable {w : Transaction} (hw : x.transaction = some w) (hproving : w.proving = true)
include hw hproving

omit h hx in
theorem awaited_some : x.awaited = some w := by
  unfold LineSt.awaited
  rw [hw]
  exact if_pos hproving

theorem execEchoMissing_awaited : execEchoMissing l s = .next (s.setLine l.val x.echoMissed) := by
  refine event_setLine h ?_
  dsimp only
  rw [← hx, awaited_some hw hproving]
  rfl

theorem execEcho_none {start : Nat} {bs : List Byte} (hnone : echoOf w.addr start bs = none) :
    execEcho l start bs s = .next (s.setLine l.val x.echoMissed) := by
  refine event_setLine h ?_
  dsimp only
  rw [← hx, awaited_some hw hproving]
  dsimp only
  rw [hnone]

theorem execEcho_some {start : Nat} {bs vs : List Byte} (hvs : echoOf w.addr start bs = some vs) (htest : x.test = some t)
    (hunjudged : x.unjudged = true) (hpart : s.provingPart x = true) :
    execEcho l start bs s =
      .next (s.setLine l.val (({ x with transaction := none, test := some { t with echoed := true } } : LineSt).judge s.now vs)) := by
  refine event_setLine h ?_
  dsimp only
  rw [← hx, awaited_some hw hproving]
  dsimp only
  rw [hvs]
  dsimp only
  rw [hunjudged, hpart, htest, if_pos rfl, Option.map_some, Bool.or_true]

end

theorem execNoEchoTimeout_due (htest : x.test = some t) (hpart : s.provingPart x = true) {b : Nat} (hup : t.upAt = some b)
    (hecho : t.echoed = false) (hdue : b + 8000 ≤ s.now) :
    execNoEchoTimeout l s = .next (s.setLine l.val { x with test := some { t with phase := .loopDown 0 } }) := by
  refine event_setLine h ?_
  dsimp only
  rw [← hx, htest]
  dsimp only
  rw [hpart, hecho, hup, Option.any_some, State.reached, decide_eq_true hdue]
  rfl

section
variable (htest : x.test = some t) (hrecord : x.record = some r) (hpart : s.provingPart x = true) (hover : s.durationOver x r = true)
  (hnone : x.transaction = none)
include htest hrecord hpart hover hnone

theorem execTestDurationEnd_far {a : Nat} (hmode : r.mode = .far a) :
    execTestDurationEnd l s = .next (s.setLine l.val { x with test := some { t with phase := .loopDown 0 } }) := by
  refine event_setLine h ?_
  dsimp only
  rw [← hx, htest, hrecord]
  dsimp only
  rw [hpart, hover, hnone, hmode]
  rfl

theorem execTestDurationEnd_near (hmode : ∀ a, r.mode ≠ .far a) :
    execTestDurationEnd l s =
      finish ((s.takeResult l.val (if r.mode = .pass then .sent else if x.prover.passes then .pass else .fail) none).enterDiscovery l.val) := by
  unfold execTestDurationEnd
  rw [event_powered _ h.2]
  dsimp only
  rw [← hx, htest, hrecord]
  dsimp only
  rw [hpart, hover, hnone, Option.isNone_none, Bool.and_self, Bool.and_self, if_pos rfl]
  split
  next a hfar => exact absurd hfar (hmode a)
  next hinner => rw [hinner, if_neg (by decide)]; rfl
  next hpass => rw [hpass, if_pos rfl]

end

end

/-- Settles O43: each command of the proving part by the lemma of its name. -/
theorem testPartsEnd : Obligations.TestPartsEnd := by
  intro s l x t r h hx _ htest hrecord hpart
  refine ⟨fun w start bs hw hproving hrunning => ?_, fun b => execNoEchoTimeout_due h hx htest hpart, fun hover hnone => ⟨?_, ?_⟩⟩
  · have hunjudged := unjudged_running htest hrecord hrunning
    have hmissed : x.echoMissed =
        { x with transaction := none, record := some { r with echoesMissing := r.echoesMissing + 1 } } := by
      unfold LineSt.echoMissed
      rw [if_pos hunjudged, hrecord]
      rfl
    refine ⟨hmissed ▸ execEchoMissing_awaited h hx hw hproving,
      fun hnone => (execEcho_none h hx hw hproving hnone).trans (execEchoMissing_awaited h hx hw hproving).symm, fun vs hvs => ?_⟩
    refine ⟨_, execEcho_some h hx hw hproving hvs htest hunjudged hpart, ?_⟩
    rw [lineAt_setLine, if_pos rfl]
    refine ⟨rfl, rfl, rfl, ?_, rfl⟩
    exact (takeAll_compared x.prover vs).trans (by rw [echoOf_length hvs])
  · exact fun a => execTestDurationEnd_far h hx htest hrecord hpart hover hnone
  · intro hmode
    obtain ⟨u, hu, hstate, _, _, hnotest, _, hresult, hnotice, hrest⟩ := takeResult_ends hx hrecord h.1.1 h.1.2.1
      (if r.mode = .pass then .sent else if x.prover.passes then .pass else .fail)
    exact ⟨u, _, rfl, (execTestDurationEnd_near h hx htest hrecord hpart hover hnone hmode).trans hu, hstate, hnotest, hresult, hnotice, hrest⟩

/-! ### The frames of a test (R51, R57, R58, R62) -/

section
variable {s : State} {l : Fin 6} {x : LineSt} {t : TestRun} {r : TestRecord} {back : List Byte} (h : s.ready) (hx : x = s.lineAt l.val)

section
variable (hslot : s.slotReady x = true) (hstate : x.state = .test) (htest : x.test = some t) (hrecord : x.record = some r)
include htest hrecord

omit hrecord in
theorem testSlot_up {k : Nat} (hrecord : x.record = some r) (hphase : t.phase = .loopUp k) (hk : k < 5) :
    s.testSlot x = some (.up k (testAddr r.mode)) := by
  unfold State.testSlot
  rw [htest, hrecord]
  dsimp only
  rw [hphase]
  exact if_pos hk

theorem testSlot_down {k : Nat} (hphase : t.phase = .loopDown k) : s.testSlot x = some (.down k (testAddr r.mode)) := by
  unfold State.testSlot
  rw [htest, hrecord]
  dsimp only
  rw [hphase]

theorem testSlot_frame (hphase : t.phase = .proving ∨ t.phase = .loopUp 5) :
    s.testSlot x = if s.durationOver x r then none else some (.proving r.mode) := by
  unfold State.testSlot
  rw [htest, hrecord]
  dsimp only
  obtain hphase | hphase := hphase <;> rw [hphase]
  exact if_neg (by decide)

include h hx hslot hstate

theorem execLoopUp_sent {k : Nat} (hphase : t.phase = .loopUp k) (hk : k < 5) :
    execLoopUp l s =
      .next (s.setLine l.val { x with sent := (Frame.loopUp (testAddr r.mode)).bytes, slot := x.slot + 1
                                      test := some (t.upSent k s.now) }) := by
  refine event_setLine h ?_
  dsimp only
  rw [← hx, hslot, hstate, testSlot_up htest hrecord hphase hk, htest]
  rfl

omit hslot hstate in
theorem execLoopUp_over (hphase : t.phase = .proving ∨ t.phase = .loopUp 5) : execLoopUp l s = .next s := by
  unfold execLoopUp
  rw [event_powered _ h.2]
  dsimp only
  rw [← hx, testSlot_frame htest hrecord hphase]
  split
  next hframe =>
    split at hframe
    · exact nomatch hframe
    · exact nomatch Option.some.inj hframe
  · exact finish_eq_self h.1

/-- The line's record as a LOOP-DOWN has gone out. -/
def LineSt.downSent (x : LineSt) (t : TestRun) (r : TestRecord) (k : Nat) : LineSt :=
  { x with sent := (Frame.loopDown (testAddr r.mode)).bytes, slot := x.slot + 1, test := some { t with phase := .loopDown (k + 1) } }

theorem execLoopDown_eq {k : Nat} (hphase : t.phase = .loopDown k) :
    execLoopDown l s =
      finish
        (if k + 1 < 3 then s.setLine l.val (x.downSent t r k)
         else
          (if x.unjudged then
            (s.setLine l.val (x.downSent t r k)).takeResult l.val
              (if t.echoed then (if x.prover.passes then .pass else .fail) else .noEcho) none
           else s.setLine l.val (x.downSent t r k)).enterDiscovery l.val) := by
  unfold execLoopDown
  rw [event_powered _ h.2]
  dsimp only
  rw [← hx, hslot, decide_eq_true hstate, testSlot_down htest hrecord hphase, htest]
  rfl

theorem execLoopDown_sent {k : Nat} (hphase : t.phase = .loopDown k) (hk : k + 1 < 3) :
    execLoopDown l s = .next (s.setLine l.val (x.downSent t r k)) := by
  rw [execLoopDown_eq h hx hslot hstate htest hrecord hphase, if_pos hk]
  exact finish_eq_self (setLine_restingLaw h.1 _ _)

/-- The third LOOP-DOWN ends the test: a test without a result takes one. -/
theorem execLoopDown_judges {k : Nat} (hphase : t.phase = .loopDown k) (hk : 3 ≤ k + 1) (hrunning : r.result = .running)
    {res : TestResult} (hres : res = if t.echoed then (if x.prover.passes then .pass else .fail) else .noEcho) :
    execLoopDown l s = finish (((s.setLine l.val (x.downSent t r k)).takeResult l.val res none).enterDiscovery l.val) := by
  rw [execLoopDown_eq h hx hslot hstate htest hrecord hphase, if_neg (by omega), if_pos (unjudged_running htest hrecord hrunning), hres]

theorem execLoopDown_judged {k : Nat} (hphase : t.phase = .loopDown k) (hk : 3 ≤ k + 1) (hjudged : r.result ≠ .running) :
    execLoopDown l s = .next ((s.setLine l.val (x.downSent t r k)).enterDiscovery l.val).rejudge := by
  rw [execLoopDown_eq h hx hslot hstate htest hrecord hphase, if_neg (by omega), unjudged_judged hrecord hjudged, if_neg Bool.false_ne_true]
  exact finish_enterDiscovery (s := s.setLine l.val (x.downSent t r k)) h.1.1 h.1.2.1 l.val

theorem execProvingFrame_eq (hphase : t.phase = .proving ∨ t.phase = .loopUp 5) (hover : s.durationOver x r = false) :
    execProvingFrame l back s = event s fun s => s.testProve l.val r.mode back := by
  unfold execProvingFrame
  rw [event_powered _ h.2, event_powered _ h.2]
  dsimp only
  rw [← hx, hstate]
  dsimp only
  rw [hslot, testSlot_frame htest hrecord hphase, hover]
  rfl

end

/-- The line's record as a proving frame of a test has gone out. -/
def LineSt.frameSent (x : LineSt) (t : TestRun) (r : TestRecord) (now : Nat) : LineSt :=
  { x.sendProving now (testAddr r.mode) with
    slot := x.slot + 1, record := some (r.countSent x.prover.injPending), test := some { t with phase := .proving } }

theorem testProve_inner (hx : x = s.lineAt l.val) (htest : x.test = some t) (hrecord : x.record = some r) (hmode : r.mode = .inner) :
    s.testProve l.val r.mode back = s.setLine l.val ((x.frameSent t r s.now).judge s.now back) := by
  subst hx
  unfold State.testProve LineSt.frameSent LineSt.sendProving
  dsimp only
  rw [htest, hrecord, hmode]
  rfl

include h hx

theorem execProvingFrame_self (hstate : x.state = .proving) (hframes : x.prover.frames < 40)
    (hdue : x.since + 200 * x.prover.frames ≤ s.now) :
    execProvingFrame l back s =
      .next (s.setLine l.val { x.sendProving s.now 0 with prover := (x.sendProving s.now 0).prover.takeAll back }) := by
  refine event_setLine h ?_
  dsimp only
  rw [← hx, hstate]
  dsimp only
  unfold State.selfProve
  dsimp only
  rw [← hx, decide_eq_true hframes, State.reached, decide_eq_true hdue]
  rfl

end

/-- Settles O42: the slots of a test in their order, then the frames of self-proving. -/
theorem testFramesGoOut : Obligations.TestFramesGoOut := by
  intro s l x back h hx
  refine ⟨fun t r a k hslot hstate htest hrecord hmode => ⟨fun hphase hk => ?_, fun hphase => ?_, fun hphase hk => ?_, ?_⟩,
    fun t r inj pv hslot hstate htest hrecord hphase hover hinj hpv => ⟨fun hmode => ?_, fun hmode => ?_⟩,
    fun hstate hframes hdue hpending => ?_⟩
  · have hsent := execLoopUp_sent h hx hslot hstate htest hrecord hphase hk
    rw [hmode] at hsent
    refine hsent.trans ?_
    have hup : t.upSent k s.now = { t with phase := .loopUp (k + 1), upAt := if k = 4 then some s.now else t.upAt } := by
      unfold TestRun.upSent
      by_cases hlast : k = 4
      · rw [if_neg (by omega), if_pos hlast]
      · rw [if_pos (by omega), if_neg hlast]
    rw [hup]
    rfl
  · exact execLoopUp_over h hx htest hrecord hphase.symm
  · have hsent := execLoopDown_sent h hx hslot hstate htest hrecord hphase hk
    unfold LineSt.downSent at hsent
    rw [hmode] at hsent
    exact hsent
  · intro res hphase hk hres
    have hbytes : (x.downSent t r k).sent = (Frame.loopDown a).bytes := by
      unfold LineSt.downSent
      rw [hmode]
      rfl
    have hdown : x.downSent t r k = (s.setLine l.val (x.downSent t r k)).lineAt l.val := ((lineAt_setLine ..).trans (if_pos rfl)).symm
    by_cases hrunning : r.result = .running
    · obtain ⟨u, hu, hustate, hsince, haddr, hnotest, husent, hurecord, hnotice, hrest⟩ :=
        takeResult_ends (s := s.setLine l.val (x.downSent t r k)) hdown hrecord h.1.1 h.1.2.1 res
      exact ⟨u, (execLoopDown_judges h hx hslot hstate htest hrecord hphase hk hrunning hres).trans hu, husent.trans hbytes, hustate, hsince,
        haddr, hnotest, hrest, fun _ => ⟨hurecord, hnotice⟩, fun hjudged => absurd hrunning hjudged⟩
    · obtain ⟨hkept, hsent⟩ := discoveringLine_kept (s.setLine l.val (x.downSent t r k)) (x.downSent t r k)
      refine ⟨_, execLoopDown_judged h hx hslot hstate htest hrecord hphase hk hrunning, ?_⟩
      rw [rejudge_lineAt, enterDiscovery_lineAt, if_pos rfl, ← hdown, hkept, hsent, rejudge_rest, enterDiscovery_rest]
      refine ⟨hbytes, rfl, rfl, rfl, rfl, rfl, fun hr => absurd hr hrunning, fun _ => ⟨hrecord, fun q j => ?_⟩⟩
      rw [rejudge_recAt, enterDiscovery_ntu]
      rfl
  · refine (execProvingFrame_eq h hx hslot hstate htest hrecord hphase hover).trans (event_setLine h ?_)
    subst hx hinj hpv
    unfold State.testProve LineSt.sendProving
    dsimp only
    rw [htest, hrecord]
    dsimp only [TestRecord.countSent, Option.map_some]
    cases hm : r.mode
    case inner => exact absurd hm hmode
    all_goals rfl
  · refine ⟨_, (execProvingFrame_eq h hx hslot hstate htest hrecord hphase hover).trans
      (event_setLine h (testProve_inner hx htest hrecord hmode)), ?_⟩
    unfold LineSt.frameSent LineSt.sendProving LineSt.judge
    dsimp only
    subst hinj hpv
    rw [hmode]
    exact ⟨rfl, _, rfl, rfl, rfl, rfl, rfl, rfl, rfl, takeAll_compared _ back, hmode.symm ▸ rfl, rfl, rfl, rfl, rfl, rfl⟩
  · refine ⟨_, execProvingFrame_self h hx hstate hframes hdue, ?_⟩
    rw [lineAt_setLine, if_pos rfl]
    unfold LineSt.sendProving
    dsimp only
    rw [hpending]
    refine ⟨rfl, ?_, takeAll_compared _ back, fun k hk => (lineAt_setLine ..).trans (if_neg hk), rfl⟩
    exact takeAll_frames _ back

end Sys2Proof.Machine
end

