-- ==== Sys2Proof/Proofs/Settling.lean ====
section
/-! What the zone controller's work keeps. `Settles` says what a property must allow each elementary change of the work on the agenda
to do; whatever allows those changes is kept by every claim, grant, return and release, and by all that stands on the agenda. -/

set_option autoImplicit false

namespace Sys2Proof.Machine

open Sys2Proof

/-- The elementary changes that claims, grants, suspensions, returns and releases are made of: none moves a zone's availability or ends
a part but by dropping it, and a page that has ended may be set on air again only where `revive` allows its number. -/
structure Settles (P : State → Prop) (revive : Nat → Prop) : Prop where
  claims : ∀ {s}, P s → ∀ n, .claimPage n ∈ s.ztc.agenda → revive n
  queued : ∀ {s}, P s → ∀ p, p ∈ s.pgc.queue → p.state = .queued → revive p.num
  ztc : ∀ {s} {z : Ztc}, P s → z.zones = s.ztc.zones → (∀ n, .claimPage n ∈ z.agenda → .claimPage n ∈ s.ztc.agenda ∨ revive n) →
    P { s with ztc := z }
  zone : ∀ {s} {z : Nat} {r : ZoneRec}, P s → r.available = (s.zoneAt z).available → P (s.setZone z r)
  output : ∀ {s} {z : Nat} {alarm : Bool}, P s → P (s.output z alarm)
  part : ∀ {s} {n z : Nat} {f : Part → Part}, P s →
    (∀ p, (f p).zone = p.zone ∧ (f p).medium = p.medium ∧ ((f p).ended = true → p.ended = true)) → P (s.updatePart n z f)
  number : ∀ {s} {job num : Nat}, P s → P (s.numberGiven job num)
  drop : ∀ {s} {n z : Nat} {r : DropReason}, P s → P (s.dropPart n z r)
  page : ∀ {s} {n : Nat} {f : Page → Page}, P s → (∀ p, (f p).num = p.num) →
    (∀ p, p.hasEnded = true → (f p).hasEnded = true) ∨ revive n → P (s.updatePage n f)
  waiters : ∀ {s} {z : Nat} {r : LossReason}, P s → P (s.waitersLose z r)
  signal : ∀ {s} {d : Session} {x : SignalState}, P s → s.dsq.session = some d →
    P { s with dsq := { s.dsq with session := some { d with signal := x } } }
  stage : ∀ {s}, P s → P s.raiseStage
  pagesEnd : ∀ {s}, P s → P s.finalizePages

/-- A property kept by each step of a fold is kept by the fold. -/
theorem foldl_keeps {P : State → Prop} {α : Type} {f : State → α → State} {xs : List α} {s : State} (h : P s)
    (hf : ∀ s a, P s → P (f s a)) : P (xs.foldl f s) := List.foldlRecOn xs f h fun s hs a _ => hf s a hs

namespace Settles

variable {P : State → Prop} {revive : Nat → Prop} (F : Settles P revive) {s : State} (h : P s)
include F h

/-! ### Trunks and the agenda -/

theorem setTrunk {t : Nat} {u : Option TrunkUse} : P (s.setTrunk t u) := F.ztc h rfl fun _ hn => .inl hn

theorem push {ws : List Work} (hws : ∀ n, .claimPage n ∈ ws → revive n) : P (s.push ws) :=
  F.ztc h rfl fun n hn => (List.mem_append.mp hn).symm.imp id (hws n)

theorem later {w : Work} (hw : ∀ n, .claimPage n = w → revive n) : P (s.later w) := by
  unfold State.later
  split
  · exact h
  · refine F.ztc h rfl fun n hn => (List.mem_append.mp hn).imp id fun hn => ?_
    exact hw n (List.mem_singleton.mp hn)

theorem groups {gs : List StartGroup} : P { s with ztc := { s.ztc with groups := gs } } := F.ztc h rfl fun _ hn => .inl hn

/-! ### Parts, waits and pages -/

theorem setWanted {z : Nat} {bell trunk : Option Nat} : P (s.setWanted z bell trunk) := by
  unfold State.setWanted
  dsimp only
  split
  · exact h
  · exact F.output (F.zone h (by rfl))

theorem tellDeferred {n z since : Nat} {r : DeferReason} : P (s.tellDeferred n z since r) := by
  refine F.part h fun p => ?_
  unfold Part.defer
  split
  · exact ⟨rfl, rfl, fun hended => nomatch hended⟩
  · exact ⟨rfl, rfl, fun hended => nomatch hended⟩
  · exact ⟨rfl, rfl, id⟩

theorem pageLoses {n z : Nat} {r : LossReason} : P (s.pageLoses n z r) := by
  refine F.page h (fun p => ?_) (.inl fun p hp => ?_)
  · split
    · unfold Page.lose
      dsimp only
      split <;> rfl
    · rfl
  · have hoff : p.onAir = false := by
      unfold Page.hasEnded at hp
      split at hp
      next hstate => simp [Page.onAir, hstate]
      · exact nomatch hp
    rw [hoff]
    exact hp

theorem pageSuspended {n z : Nat} : P (s.pageSuspended n z) := by
  refine F.page h (fun p => ?_) (.inl fun p hp => ?_)
  · split <;> rfl
  · split <;> exact hp

theorem pageReturned {n z : Nat} : P (s.pageReturned n z) := by
  refine F.page h (fun p => ?_) (.inl fun p hp => ?_)
  · split <;> rfl
  · split <;> exact hp

theorem refreshReasons {z : Nat} : P (s.refreshReasons z) := by
  unfold State.refreshReasons
  dsimp only
  exact foldl_keeps (F.zone h (by rfl)) fun _ _ hs => F.tellDeferred hs

theorem joinWaits {w : Wait} {r : DeferReason} : P (s.joinWaits w r) := by
  unfold State.joinWaits
  dsimp only
  split
  · exact F.drop h
  · exact F.tellDeferred (F.zone h (by rfl))

theorem leaveWaits {n z : Nat} : P (s.leaveWaits n z) := F.zone h (by rfl)

theorem leaveGroups {n z : Nat} : P (s.leaveGroups n z) := F.groups h

theorem clearWaits {z : Nat} {r : DropReason} : P (s.clearWaits z r) := by
  unfold State.clearWaits
  dsimp only
  exact foldl_keeps (F.groups (F.zone h (by rfl))) fun _ _ hs => F.drop hs

/-! ### Claims on a zone (R98 to R101) -/

theorem tellDisplaced {w : Taker} {z : Nat} : P (s.tellDisplaced w z) := by
  unfold State.tellDisplaced
  split
  · exact F.drop h
  · exact F.pageLoses h
  · exact h

theorem tellSuspended {w : Taker} {z : Nat} : P (s.tellSuspended w z) := by
  unfold State.tellSuspended
  split
  · exact F.pageLoses h
  · exact h

theorem judgeWaits {w : Taker} {z : Nat} : P (s.judgeWaits w z) := by
  have hcleared : P (match w.waitDrop with | some r => s.clearWaits z r | none => s) := by
    split
    · exact F.clearWaits h
    · exact h
  unfold State.judgeWaits
  dsimp only
  split
  · exact hcleared
  · exact F.waiters hcleared

theorem seat {w : Taker} {z : Nat} : P (s.seat w z) := by
  have hheld : P (s.setZone z { s.zoneAt z with holder := w.holder (s.zoneCfg z).medium, suspended := w.suspends (s.zoneAt z).holder }) :=
    F.zone h (by rfl)
  unfold State.seat
  dsimp only
  split
  · exact F.output (F.zone hheld (by rfl))
  · exact F.setWanted hheld
  · exact F.refreshReasons (F.setWanted hheld)

theorem release : P (s.later .release) := F.later h fun _ hn => nomatch hn

theorem toPass : P (s.later .pass) := F.later h fun _ hn => nomatch hn

theorem seekDrillTrunk : P s.seekDrillTrunk := by
  unfold State.seekDrillTrunk
  split
  · exact F.toPass h
  · exact h

theorem takeZone {w : Taker} {z : Nat} : P (s.takeZone w z) :=
  F.release (F.seat (F.judgeWaits (F.tellSuspended (F.tellDisplaced h))))

theorem claimAlarm {zs : List Nat} : P (s.claimAlarm zs) := by
  refine foldl_keeps h fun s z hs => ?_
  split
  · exact hs
  · exact F.takeZone hs

theorem claimDrill {zs : List Nat} : P (s.claimDrill zs) := by
  refine foldl_keeps h fun s z hs => ?_
  split
  · exact hs
  · exact hs
  · exact F.takeZone hs

theorem bellTakes {n z : Nat} {tone : Option (Nat × Nat)} : P (s.bellTakes n z tone) := by
  unfold State.bellTakes
  split
  · exact h
  · split
    · exact h
    · dsimp only
      refine F.refreshReasons (F.setWanted (F.zone (F.part ?_ ?_) (by rfl)))
      · split
        · exact F.pageSuspended (F.leaveGroups (F.leaveWaits h))
        · exact F.leaveGroups (F.leaveWaits h)
      · exact fun p => ⟨rfl, rfl, fun hended => nomatch hended⟩

theorem returnZone {z : Nat} : P (s.returnZone z) := by
  unfold State.returnZone
  dsimp only
  split
  · split
    · split
      · exact F.refreshReasons (F.setWanted (F.pageReturned (F.zone h (by rfl))))
      · exact F.setWanted (F.zone h (by rfl))
    · exact F.setWanted (F.zone h (by rfl))
  · split
    · split
      · exact F.release (F.waiters (F.setWanted (F.zone h (by rfl))))
      · exact F.seekDrillTrunk (F.release (F.waiters (F.setWanted (F.zone h (by rfl)))))
    · exact F.setWanted (F.zone h (by rfl))
  · split
    · exact F.setWanted (F.zone h (by rfl))
    · exact F.waiters (F.setWanted (F.zone h (by rfl)))
  · exact F.setWanted (F.zone h (by rfl))

theorem holdersEnd {zs : List Nat} : P (s.holdersEnd zs) := by
  unfold State.holdersEnd
  refine F.release (F.push (foldl_keeps h fun _ _ hs => F.returnZone hs) fun n hn => ?_)
  simp at hn

theorem releaseZones {mine : Holder → Bool} {mineUnder : Suspended → Bool} {zs : List Nat} : P (s.releaseZones mine mineUnder zs) := by
  unfold State.releaseZones
  dsimp only
  exact F.holdersEnd (foldl_keeps h fun _ _ hs => F.zone hs (by rfl))

/-! ### Lines that take their zones away and give them back (R102) -/

section
variable (havailable : ∀ {s : State} {z : Nat} {r : ZoneRec}, P s → P (s.setZone z r))
include havailable

theorem loseZone {z : Nat} : P (s.loseZone z) := by
  have hgone : P (s.setZone z { s.zoneAt z with available := false }) := havailable h
  unfold State.loseZone
  dsimp only
  refine F.release (F.waiters (F.clearWaits ?_))
  split
  · refine F.setWanted (F.zone ?_ (by rfl))
    split
    · exact F.pageLoses (F.drop hgone)
    · exact F.drop hgone
  · exact F.returnZone (F.pageLoses hgone)
  · exact hgone

theorem lineDown {l : Nat} : P (s.lineDown l) := foldl_keeps h fun _ _ hs => F.loseZone hs havailable

theorem gainZone {z : Nat} : P (s.gainZone z) := by
  unfold State.gainZone
  dsimp only
  split
  · exact F.later (havailable h) fun _ hn => nomatch hn
  · exact havailable h

theorem lineUp {l : Nat} : P (s.lineUp l) := foldl_keeps h fun _ _ hs => F.gainZone hs havailable

end

/-! ### Grants and releases of trunks (R106 to R111) -/

theorem grant {t : Nat} {program : TrunkProgram} {tone : Option Timeline} {toneSince toneUntil : Option Nat} :
    P (s.grant t program tone toneSince toneUntil) := F.ztc (F.setTrunk h) rfl fun _ hn => .inl hn

theorem freeTrunks {ts : List Nat} : P (s.freeTrunks ts) := foldl_keeps h fun _ _ hs => F.setTrunk hs

theorem releaseTrunks : P s.releaseTrunks := by
  unfold State.releaseTrunks
  dsimp only
  split
  · exact h
  · refine F.push (F.freeTrunks h) fun n hn => ?_
    simp at hn

theorem releaseOwn {kept : List Nat} : P (s.releaseOwn kept) := F.freeTrunks h

theorem releaseNow {kept : List Nat} : P (s.releaseNow kept) := by
  unfold State.releaseNow
  split
  · exact h
  · exact F.toPass (F.releaseOwn h)

theorem forceTakes {n z : Nat} {tone : Option (Nat × Nat)} : P (s.forceTakes n z tone) := by
  unfold State.forceTakes
  split
  · exact F.releaseNow (F.bellTakes (F.drop h))
  · split
    · exact F.bellTakes h
    · exact F.drop h
  · exact F.bellTakes h
  · exact F.drop h

/-! ### Pages that start and are offered zones (R137 to R140) -/

theorem sortPage {n : Nat} : P (s.sortPage n) := by
  refine F.page h (fun p => ?_) (.inl fun p hp => ?_)
  · split
    · unfold State.sorted
      dsimp only
      split <;> rfl
    · rfl
  · split
    next hqueued => rw [Page.hasEnded, hqueued] at hp; exact nomatch hp
    · exact hp

theorem startPage {n t : Nat} (hn : revive n) : P (s.startPage n t) := F.page (F.grant h) (fun _ => rfl) (.inr hn)

theorem enterLive {n t : Nat} (hn : revive n) : P (s.enterLive n t) := by
  refine F.page ?_ (fun _ => rfl) (.inr hn)
  split
  · exact F.setTrunk h
  · exact h

theorem enterChime {n t : Nat} {pretone : Option Nat} (hn : revive n) : P (s.enterChime n t pretone) := by
  unfold State.enterChime
  split
  · exact F.enterLive h hn
  · dsimp only
    split
    · exact F.enterLive h hn
    · refine F.page ?_ (fun _ => rfl) (.inr hn)
      split
      · exact F.setTrunk h
      · exact h

theorem claimForPage {n prio t z : Nat} : P (State.claimForPage n prio t s z) := by
  unfold State.claimForPage
  split
  · exact F.page (F.takeZone h) (fun _ => rfl) (.inl fun _ hp => hp)
  · exact F.page h (fun _ => rfl) (.inl fun _ hp => hp)
  · exact F.page h (fun _ => rfl) (.inl fun _ hp => hp)

theorem claimPage {n : Nat} (hn : revive n) : P (s.claimPage n) := by
  unfold State.claimPage
  split
  · exact h
  · split
    · exact h
    · dsimp only
      refine F.releaseOwn (F.page (F.enterChime (foldl_keeps h fun _ _ hs => F.claimForPage hs) hn) (fun p => ?_) (.inr hn))
      split <;> rfl

theorem offerZone {z : Nat} : P (s.offerZone z) := by
  unfold State.offerZone
  split
  · exact h
  · split
    · split
      · exact F.page (F.takeZone h) (fun _ => rfl) (.inl fun _ hp => hp)
      · exact F.release (F.pageLoses h)
      · exact h
    · refine foldl_keeps h fun s p hs => ?_
      dsimp only
      split
      · exact F.toPass (F.sortPage hs)
      · exact F.sortPage hs

/-! ### Wait lists and start groups (R104, R109) -/

theorem joinGroup {w : Wait} : P (s.joinGroup w) := by
  unfold State.joinGroup
  split
  · exact h
  · exact F.groups h

theorem serveZone {paused : Option Nat} {z : Nat} : P (s.serveZone paused z).1 := by
  unfold State.serveZone
  split
  · exact h
  · dsimp only
    split
    · exact h
    · split
      · split
        · exact F.release (F.bellTakes h)
        · split
          · split
            · exact h
            · exact F.leaveWaits h
          · exact F.leaveWaits h
      · exact h

omit h in
theorem serveZones {paused : Option Nat} {zs : List Nat} : ∀ {s}, P s → P (State.serveZones paused zs s).1 := by
  induction zs with
  | nil => exact id
  | cons z zs ih => exact fun hs => ih (F.serveZone hs)

theorem waitForTrunk {g : StartGroup} {ws : List Wait} : P (s.waitForTrunk g ws) := by
  unfold State.waitForTrunk
  split
  · exact h
  · dsimp only
    exact F.groups (foldl_keeps (F.number h) fun _ _ hs => F.tellDeferred hs)

theorem leaveUngranted {g : StartGroup} : P (s.leaveUngranted g) := by
  unfold State.leaveUngranted
  split
  · exact h
  · exact F.waitForTrunk (foldl_keeps h fun _ _ hs => F.drop hs)

theorem turnDown {gs : List StartGroup} : P (s.turnDown gs) := by
  unfold State.turnDown
  refine F.push (foldl_keeps h fun _ _ hs => F.leaveUngranted hs) fun n hn => ?_
  simp at hn

theorem ungranted : P s.ungranted := F.turnDown (F.groups h)

theorem served {zs : List Nat} {freed : Bool} {gs : List StartGroup} : P (s.served zs freed gs) := by
  have hoffer (ns : List Nat) (n : Nat) : .claimPage n ∉ (if freed = true then [Work.offer ns] else []) := by cases freed <;> simp
  unfold State.served
  dsimp only
  split
  · exact F.push h fun n hn => absurd hn (hoffer zs n)
  · split
    · exact F.turnDown (F.push h fun n hn => absurd hn (hoffer zs n))
    · refine F.toPass (F.push (F.groups h) fun n hn => ?_)
      simp [hoffer] at hn

theorem serve {zs : List Nat} {paused : Option Nat} {freed : Bool} : P (s.serve zs paused freed) := F.served (F.serveZones h)

theorem deferPart {w : Wait} {r : DeferReason} {tone : Option (Nat × Nat)} : P (s.deferPart w r tone) := by
  unfold State.deferPart
  split
  · split
    · exact F.drop h
    · exact F.forceTakes h
  · exact F.joinWaits h

theorem claimMember {g : StartGroup} {num t : Nat} {w : Wait} : P (State.claimMember g num t s w) := by
  unfold State.claimMember
  split
  · exact F.forceTakes h
  · split
    · exact F.bellTakes h
    · split
      · exact h
      · exact F.deferPart h
    · exact F.drop (F.leaveWaits h)

theorem grantTone {t job num : Nat} : P (s.grantTone t job num) := F.grant h

theorem grantGroup {g : StartGroup} {t : Nat} : P (s.grantGroup g t) := by
  unfold State.grantGroup
  dsimp only
  refine F.releaseOwn (foldl_keeps (F.grantTone ?_) fun _ _ hs => F.claimMember hs)
  split
  · exact F.number (F.groups h)
  · exact F.groups h

/-! ### The drill's trunk (R110, R161) -/

theorem grantDrill {t : Nat} : P (s.grantDrill t) := by
  unfold State.grantDrill
  dsimp only
  refine foldl_keeps ?_ fun s z hs => ?_
  · split
    next d hd =>
      split
      · exact F.stage (F.signal (F.grant h) hd)
      · exact F.signal (F.grant h) hd
    · exact F.grant h
  · split
    · split
      · exact F.setWanted hs
      · exact hs
    · exact hs

theorem releaseDrillTrunk : P s.releaseDrillTrunk := by
  unfold State.releaseDrillTrunk
  split
  · exact h
  · refine F.toPass (F.setTrunk (foldl_keeps h fun s z hs => ?_))
    split
    · exact F.setWanted hs
    · exact hs

theorem markSignal : P s.markSignal := by
  unfold State.markSignal
  split
  next d hd =>
    split
    · dsimp only
      split
      · exact F.stage (F.signal h hd)
      · exact F.signal h hd
    · exact h
  · exact h

/-! ### The grant pass (R111, R112) -/

theorem stripTone {t job : Nat} : P (s.stripTone t job).1 :=
  F.setTrunk (foldl_keeps (foldl_keeps h fun _ _ hs => F.drop hs) fun _ _ hs => F.returnZone hs)

theorem stripPage {p : Page} {t : Nat} : P (s.stripPage p t).1 :=
  F.setTrunk (foldl_keeps (foldl_keeps (foldl_keeps h fun _ _ hs => F.pageLoses hs) fun _ _ hs => F.zone hs (by rfl)) fun _ _ hs => F.returnZone hs)

theorem preempt {s' : State} {t : Nat} {zs : List Nat} (hpre : s.preempt = some (t, s', zs)) : P s' := by
  unfold State.preempt at hpre
  split at hpre
  · split at hpre
    · cases hpre
      exact F.stripTone h
    · exact nomatch hpre
  · split at hpre
    · split at hpre
      · cases hpre
        exact F.stripPage h
      · exact nomatch hpre
    · exact nomatch hpre

theorem canStart_revives {n : Nat} (hstart : (s.page? n).any Page.canStart = true) : revive n := by
  obtain ⟨p, hp, hcan⟩ := (Option.any_eq_true ..).mp hstart
  have hnum : p.num = n := of_decide_eq_true (List.find?_some (p := fun p : Page => decide (p.num = n)) hp)
  have hqueued : p.state = .queued := by
    simp only [Page.canStart, Bool.and_eq_true, decide_eq_true_eq] at hcan
    exact hcan.1.1
  exact hnum ▸ F.queued h p (List.mem_of_find?_eq_some hp) hqueued

omit F h in
theorem noClaims (ws : List Work) (hws : some [] = some ws) (n : Nat) (hn : .claimPage n ∈ ws) : revive n := by
  rw [← Option.some.inj hws] at hn
  exact nomatch hn

omit h in
/-- The pages that a pass considers, with the work it leaves: a claim only for a page that was QUEUED. -/
theorem considerPages {free : Option Nat} {ps : List Page} : ∀ {s}, P s → P (State.considerPages free ps s).1 ∧
    ∀ ws, (State.considerPages free ps s).2 = some ws → ∀ n, .claimPage n ∈ ws → revive n := by
  induction ps with
  | nil => exact fun hs => ⟨hs, fun _ hws => nomatch hws⟩
  | cons p ps ih =>
    intro s hs
    have hsorted : P (s.sortPage p.num) := F.sortPage hs
    unfold State.considerPages
    dsimp only
    split
    next hstart =>
      have hp := F.canStart_revives hsorted hstart
      split
      · refine ⟨F.startPage hsorted hp, fun ws hws n hn => ?_⟩
        rw [← Option.some.inj hws, List.mem_singleton] at hn
        exact Work.claimPage.inj hn ▸ hp
      · split
        next hpre =>
          refine ⟨F.startPage (F.preempt hsorted hpre) hp, fun ws hws n hn => ?_⟩
          rw [← Option.some.inj hws] at hn
          obtain hn | hn := List.mem_cons.mp hn
          · exact nomatch hn
          · exact Work.claimPage.inj (List.mem_singleton.mp hn) ▸ hp
        · exact ih hsorted
    · exact ih hsorted

theorem considerRoutine {whole : Bool} {t : Nat} : P (s.considerRoutine whole t).1 ∧
    ∀ ws, (s.considerRoutine whole t).2 = some ws → ∀ n, .claimPage n ∈ ws → revive n := by
  unfold State.considerRoutine
  split
  · exact F.considerPages h
  · exact ⟨h, fun _ hws => nomatch hws⟩

theorem considerBells {whole : Bool} {t : Nat} : P (s.considerBells whole t).1 ∧
    ∀ ws, (s.considerBells whole t).2 = some ws → ∀ n, .claimPage n ∈ ws → revive n := by
  unfold State.considerBells
  split
  · split
    · exact ⟨F.grantGroup h, noClaims⟩
    · exact F.considerRoutine h
  · exact F.considerRoutine h

theorem passOnce {whole : Bool} : P (s.passOnce whole).1 ∧
    ∀ ws, (s.passOnce whole).2 = some ws → ∀ n, .claimPage n ∈ ws → revive n := by
  unfold State.passOnce
  split
  · split
    · dsimp only
      exact ⟨F.grantDrill h, noClaims⟩
    · dsimp only
      split
      · exact F.considerPages h
      · exact F.considerBells (F.considerPages h).1
  · split
    · split
      next hpre =>
        dsimp only
        refine ⟨F.grantDrill (F.preempt h hpre), fun ws hws n hn => ?_⟩
        rw [← Option.some.inj hws, List.mem_singleton] at hn
        exact nomatch hn
      · exact F.considerPages h
    · exact F.considerPages h

theorem pass : P s.pass := by
  obtain ⟨hkept, hclaims⟩ := F.passOnce h (whole := true)
  unfold State.pass
  split
  next s' ws heq =>
    rw [heq] at hkept hclaims
    exact F.push hkept fun n hn => hclaims ws rfl n (by simpa using hn)
  next s' heq =>
    rw [heq] at hkept
    exact F.markSignal hkept

theorem grants : P s.grants := by
  obtain ⟨hkept, hclaims⟩ := F.passOnce h (whole := false)
  unfold State.grants
  split
  next s' ws heq =>
    rw [heq] at hkept hclaims
    exact F.push hkept fun n hn => hclaims ws rfl n (by simpa using hn)
  next s' heq =>
    rw [heq] at hkept
    exact F.ungranted hkept

/-! ### The agenda -/

theorem doWork {w : Work} (hw : ∀ n, w = .claimPage n → revive n) : P (s.doWork w) := by
  cases w with
  | serve zs p freed => exact F.serve h
  | grants => exact F.grants h
  | offer zs => exact foldl_keeps h fun _ _ hs => F.offerZone hs
  | claimPage n => exact F.claimPage h (hw n rfl)
  | release => exact F.releaseTrunks h
  | pass => exact F.pass h

omit h in
theorem settleFor {k : Nat} : ∀ {s}, P s → P (Machine.settleFor k s) := by
  induction k with
  | zero => exact fun hs => F.pagesEnd (F.ztc hs rfl fun _ hn => nomatch hn)
  | succ k ih =>
    intro s hs
    unfold Machine.settleFor
    split
    · exact F.pagesEnd hs
    next w ws hagenda =>
      refine ih (F.doWork ?_ fun n hw => F.claims hs n ?_)
      · refine F.ztc hs rfl fun n hn => .inl ?_
        rw [hagenda]
        exact List.mem_cons_of_mem w hn
      · rw [hagenda, hw]
        exact List.mem_cons_self

theorem settle : P s.settle := F.settleFor h

end Settles

end Sys2Proof.Machine
end

