-- ==== Sys2Proof/Proofs/LineRequests.lean ====
section
/-! What the zone controller's work leaves of the lines (all but their output lists), and the requests that move a line: TEST and
INJECT (O41), LINE (O37). -/

set_option autoImplicit false

namespace Sys2Proof.Machine

open Sys2Proof

/-! ### The elementary changes -/

/-- A dropped part is told, counted by the session where a drill took it, and its job leaves the queue once it has no other. -/
theorem dropPart_cases (s : State) (n z : Nat) (r : DropReason) :
    s.dropPart n z r = s ∨ ∃ j p, s.job? n = some j ∧ j.part? z = some p ∧ p.ended = false ∧
      s.dropPart n z r =
        (if r = .drill then
          ((s.updatePart n z (Part.drop r)).raise .bellDropped (.bellDropped n j.key { day := j.day, sec := j.sec } z r)).countDrillDrop
         else (s.updatePart n z (Part.drop r)).raise .bellDropped (.bellDropped n j.key { day := j.day, sec := j.sec } z r)).leaveJobs := by
  unfold State.dropPart
  split
  · exact .inl rfl
  next j hj =>
    split
    · exact .inl rfl
    next p hp =>
      split
      · exact .inl rfl
      next hended => exact .inr ⟨j, p, hj, hp, Bool.eq_false_iff.mpr hended, rfl⟩

theorem countDrillDrop_shape (s : State) : ∃ d, s.countDrillDrop = { s with dsq := { s.dsq with session := d } } := by
  unfold State.countDrillDrop
  split
  · split
    · exact ⟨_, rfl⟩
    · exact ⟨s.dsq.session, rfl⟩
  · exact ⟨s.dsq.session, rfl⟩

theorem dropPart_shape (s : State) (n z : Nat) (r : DropReason) :
    ∃ q d x, s.dropPart n z r = { s with bds := { s.bds with queue := q }, dsq := { s.dsq with session := d }, ntu := x } := by
  obtain h | ⟨j, p, _, _, _, h⟩ := dropPart_cases s n z r
  · exact ⟨s.bds.queue, s.dsq.session, s.ntu, h⟩
  · rw [h]
    split
    · obtain ⟨d, hd⟩ := countDrillDrop_shape
        ((s.updatePart n z (Part.drop r)).raise .bellDropped (.bellDropped n j.key { day := j.day, sec := j.sec } z r))
      rw [hd]
      exact ⟨_, d, _, rfl⟩
    · exact ⟨_, s.dsq.session, _, rfl⟩

theorem tellEnded_shape (ps : List Page) (s : State) : ∃ x, ps.foldl State.tellEnded s = { s with ntu := x } := by
  induction ps generalizing s with
  | nil => exact ⟨s.ntu, rfl⟩
  | cons p ps ih =>
    have htold : ∃ x, s.tellEnded p = { s with ntu := x } := by
      unfold State.tellEnded
      split
      · exact ⟨_, rfl⟩
      · exact ⟨s.ntu, rfl⟩
    obtain ⟨x, hx⟩ := htold
    obtain ⟨y, hy⟩ := ih (s.tellEnded p)
    exact ⟨y, by rw [List.foldl_cons, hy, hx]⟩

theorem finalizePages_shape (s : State) : ∃ g x, s.finalizePages = { s with pgc := g, ntu := x } := by
  obtain ⟨x, hx⟩ := tellEnded_shape s.pgc.queue s
  unfold State.finalizePages
  rw [hx]
  exact ⟨_, x, rfl⟩

theorem raiseStage_shape (s : State) : ∃ x, s.raiseStage = { s with ntu := x } := by
  unfold State.raiseStage
  split
  · split
    · exact ⟨_, rfl⟩
    · exact ⟨s.ntu, rfl⟩
  · exact ⟨s.ntu, rfl⟩

/-! ### The lines, but for their output lists -/

theorem queueZone_lists (x : LineSt) (z : Nat) (alarm : Bool) :
    ∃ a o, x.queueZone z alarm = { x with outAlarm := a, outOrd := o } := by
  unfold LineSt.queueZone
  split
  · exact ⟨x.outAlarm, x.outOrd, rfl⟩
  · split
    · exact ⟨x.outAlarm, x.outOrd, rfl⟩
    · split
      · exact ⟨_, _, rfl⟩
      · split
        · exact ⟨x.outAlarm, x.outOrd, rfl⟩
        · exact ⟨x.outAlarm, _, rfl⟩

theorem wires_of_lines {s t : State} (h : t.lines = s.lines) : t.wires = s.wires := by
  unfold State.wires State.lineAt
  rw [h]

theorem wires_setLine (s : State) (l : Nat) (x : LineSt) :
    (s.setLine l x).wires = fun k => if k = l then { x with outAlarm := [], outOrd := [] } else s.wires k := by
  funext k
  unfold State.wires
  rw [lineAt_setLine]
  by_cases hk : k = l
  · rw [if_pos hk, if_pos hk]
  · rw [if_neg hk, if_neg hk]

theorem wires_output (s : State) (z : Nat) (alarm : Bool) : (s.output z alarm).wires = s.wires := by
  unfold State.output
  split
  next l _ =>
    obtain ⟨a, o, hqueue⟩ := queueZone_lists (s.lineAt l) z alarm
    rw [wires_setLine, hqueue]
    funext k
    by_cases hk : k = l
    · subst hk
      exact if_pos rfl
    · exact if_neg hk
  · rfl

/-- The zone controller touches the lines through their output lists alone. -/
theorem settles_wires (w : Nat → LineSt) : Settles (fun s => s.wires = w) fun _ => True where
  claims _ _ _ := trivial
  queued _ _ _ _ := trivial
  ztc h _ _ := h
  zone h _ := h
  output h := (wires_output ..).trans h
  part h _ := h
  number h := h
  drop {s n z r} h := by
    obtain ⟨q, d, x, hdrop⟩ := dropPart_shape s n z r
    rw [hdrop]
    exact h
  page h _ _ := h
  waiters h := h
  signal h _ := h
  stage {s} h := by
    obtain ⟨x, hstage⟩ := raiseStage_shape s
    rw [hstage]
    exact h
  pagesEnd {s} h := by
    obtain ⟨g, x, hpages⟩ := finalizePages_shape s
    rw [hpages]
    exact h

theorem wires_settle (s : State) : s.settle.wires = s.wires := (settles_wires s.wires).settle rfl

theorem wires_lineDown (s : State) (l : Nat) : (s.lineDown l).wires = s.wires := (settles_wires s.wires).lineDown rfl id

theorem wires_lineUp (s : State) (l : Nat) : (s.lineUp l).wires = s.wires := (settles_wires s.wires).lineUp rfl id

theorem wires_refreshDegraded (s : State) (l : Nat) : (s.refreshDegraded l).wires = s.wires := by
  obtain ⟨table, h⟩ := refreshDegraded_shape s l
  rw [h]
  rfl

theorem finish_wires {s t : State} (h : finish s = .next t) : t.wires = s.wires := by
  rw [← Host.Outcome.next.inj h]
  exact wires_settle s

/-! ### A reply beside what the zone controller does -/

theorem rest_replied (s : State) (p : Port) (r : Reply) : (s.replied p r).rest = s.rest.replied p r := by cases p <;> rfl

theorem rest_replied_of {s t : State} (h : t.rest = s.rest) (p : Port) (r : Reply) : (t.replied p r).rest = (s.replied p r).rest := by
  rw [rest_replied, rest_replied, h]

theorem wires_replied (s : State) (p : Port) (r : Reply) : (s.replied p r).wires = s.wires := wires_of_lines (replied_lines ..)

/-! ### TEST and INJECT (R56, R63) -/

section
variable {s : State} {p : Port} {op : Fin 16} {n : Nat} {mode : TestMode} {seconds : Option Nat} (h : s.takes p op .office)
include h

theorem execTest_range (hbad : 6 ≤ n ∨ modeExists mode = false) :
    execTest p op n mode seconds s = .next (s.replied p (.no .range)) := by
  refine request_reads h _ (if_neg fun hgood => ?_) rfl
  obtain hline | hmode := hbad
  · exact absurd hgood.1 (by omega)
  · exact absurd hgood.2 (by rw [hmode]; decide)

theorem execTest_refused (hline : n < 6) (hmode : modeExists mode = true) {why : NoReason} (hwhy : s.testRefused n = some why)
    (hplain : (Reply.no why).access? = none) : execTest p op n mode seconds s = .next (s.replied p (.no why)) := by
  refine request_reads h _ ?_ hplain
  dsimp only
  rw [if_pos ⟨hline, hmode⟩, hwhy]

theorem execTest_accepted (hline : n < 6) (hmode : modeExists mode = true) (hfree : s.testRefused n = none) :
    execTest p op n mode seconds s =
      finish ((s.beginTest n mode (clampDuration (seconds.getD 10))).replied p
        (if clampDuration (seconds.getD 10) = seconds.getD 10 then .ok else .okClamped)) := by
  refine request_answered h _ ?_ (by split <;> rfl)
  dsimp only
  rw [if_pos ⟨hline, hmode⟩, hfree]

theorem execInject_range (hline : 6 ≤ n) : execInject p op n s = .next (s.replied p (.no .range)) :=
  request_reads h _ (if_pos hline) rfl

theorem execInject_state (hline : n < 6) (hpart : (decide ((s.lineAt n).state = .test) && s.provingPart (s.lineAt n)) = false) :
    execInject p op n s = .next (s.replied p (.no .state)) := by
  refine request_reads h _ ?_ rfl
  dsimp only
  rw [if_neg (by omega), hpart, if_neg Bool.false_ne_true]

theorem execInject_busy (hline : n < 6) (hpart : (decide ((s.lineAt n).state = .test) && s.provingPart (s.lineAt n)) = true)
    (hpending : (s.lineAt n).prover.injPending = true) : execInject p op n s = .next (s.replied p (.no .busy)) := by
  refine request_reads h _ ?_ rfl
  dsimp only
  rw [if_neg (by omega), hpart, if_pos rfl, if_pos hpending]

theorem execInject_accepted (hline : n < 6) (hpart : (decide ((s.lineAt n).state = .test) && s.provingPart (s.lineAt n)) = true)
    (hpending : (s.lineAt n).prover.injPending = false) :
    execInject p op n s =
      .next ((s.setLine n { s.lineAt n with prover := { (s.lineAt n).prover with injPending := true } }).replied p .ok) := by
  refine request_rests h _ ?_ rfl (setLine_restingLaw h.1 n _)
  dsimp only
  rw [if_neg (by omega), hpart, if_pos rfl, hpending, if_neg Bool.false_ne_true]

end

/-- The proving part of a test: its own phase, or the slot after the fifth LOOP-UP has come (R58). -/
theorem provingPart_iff {s : State} {x : LineSt} (hstate : x.state = .test) :
    s.provingPart x = true ↔ ∃ t : TestRun, x.test = some t ∧
      (t.phase = .proving ∨ t.phase = .loopUp 5 ∧ x.slot < 40 ∧ x.secondAt + 200 * x.slot ≤ s.now ∧ x.transaction = none) := by
  have hready : s.slotReady x = true ↔ x.slot < 40 ∧ x.secondAt + 200 * x.slot ≤ s.now ∧ x.transaction = none := by
    unfold State.slotReady
    rw [hstate]
    simp [LineState.slotted, State.reached, and_assoc]
  unfold State.provingPart
  rw [Option.any_eq_true]
  simp only [Bool.or_eq_true, Bool.and_eq_true, decide_eq_true_eq, hready]

/-- The line's record as a test begins. -/
def State.begunLine (s : State) (x : LineSt) (mode : TestMode) (seconds : Nat) : LineSt :=
  { x with
    state := .test, since := s.now, slot := s.slotFrom x, prover := proverStart
    test := some { phase := match mode with | .far _ => .loopUp 0 | _ => .proving, upAt := none, echoed := false }
    record := some
      { mode := mode, seconds := seconds, begun := s.campus, sent := 0, compared := 0, errored := 0, injected := 0,
        echoesMissing := 0, firstInStep := none, slips := 0, slipsInj := 0, result := .running, cause := none } }

theorem beginTest_eq (s : State) (l : Nat) (mode : TestMode) (seconds : Nat) :
    s.beginTest l mode seconds =
      if (s.lineAt l).state = .run then (s.setLine l (s.begunLine (s.lineAt l) mode seconds)).lineDown l
      else s.setLine l (s.begunLine (s.lineAt l) mode seconds) := rfl

theorem beginTest_rest (s : State) (l : Nat) (mode : TestMode) (seconds : Nat) : (s.beginTest l mode seconds).rest = s.rest := by
  rw [beginTest_eq]
  split
  · rw [rest_lineDown, rest_setLine]
  · rw [rest_setLine]

theorem beginTest_wires (s : State) (l : Nat) (mode : TestMode) (seconds : Nat) :
    (s.beginTest l mode seconds).wires =
      fun k => if k = l then { s.begunLine (s.lineAt l) mode seconds with outAlarm := [], outOrd := [] } else s.wires k := by
  rw [beginTest_eq, ← wires_setLine]
  split
  · rw [wires_lineDown]
  · rfl

/-- Settles O41: TEST and INJECT by their refusals; a test that begins by `beginTest_wires` and `beginTest_rest`. -/
theorem testsBeginAndTakeInjections : Obligations.TestsBeginAndTakeInjections := by
  intro s p op n mode seconds h
  refine ⟨execTest_range h, fun hline hmode hstate => ?_, fun hline hmode hwhy => execTest_refused h hline hmode hwhy rfl,
    fun d k hline hmode hfree hd hk => ?_, execInject_range h, fun x proves hline hx hproves => ?_⟩
  · refine execTest_refused h hline hmode ?_ rfl
    unfold State.testRefused
    rw [hstate]
  · subst hd hk
    have haccepted := execTest_accepted (seconds := seconds) h hline hmode hfree
    obtain ⟨t, ht⟩ := finish_next ((s.beginTest n mode (clampDuration (seconds.getD 10))).replied p
      (if clampDuration (seconds.getD 10) = seconds.getD 10 then .ok else .okClamped))
    have hwires : t.wires = _ := (finish_wires ht).trans ((wires_replied ..).trans (beginTest_wires ..))
    refine ⟨t, haccepted.trans ht, (finish_rest ht).trans (rest_replied_of (beginTest_rest ..) p _), ?_⟩
    rw [hwires]
    dsimp only
    rw [if_pos rfl]
    exact ⟨rfl, rfl, rfl, ⟨_, rfl, rfl, rfl, rfl, rfl, rfl, rfl, rfl⟩, fun j hj => if_neg hj⟩
  · subst hx
    have hpart : proves ↔ (decide ((s.lineAt n).state = .test) && s.provingPart (s.lineAt n)) = true := by
      rw [hproves, Bool.and_eq_true, decide_eq_true_eq]
      exact and_congr_right fun hstate => (provingPart_iff hstate).symm
    rw [hpart]
    exact ⟨fun hnot => execInject_state h hline (Bool.eq_false_iff.mpr hnot), execInject_busy h hline, execInject_accepted h hline⟩

/-! ### LINE (R24) -/

/-- A state that differs from another in the field devices alone. -/
theorem rest_of_fieldEq {s t : State} (h : ({ t with field := s.field } : State) = s) :
    t.rest = ({ s with field := t.field } : State).rest := by
  have h' := congrArg (fun u : State => ({ u with field := t.field } : State).rest) h
  exact h'

theorem lines_of_fieldEq {s t : State} (h : ({ t with field := s.field } : State) = s) : t.lines = s.lines := by
  have h' := congrArg State.lines h
  exact h'

theorem onDevices_rest (s : State) (l : Nat) (f : FieldDev → FieldDev) :
    (s.onDevices l f).rest = ({ s with field := (s.onDevices l f).field } : State).rest := rest_of_fieldEq (onDevices_eq s l f)

theorem rest_withField {s t : State} (h : t.rest = s.rest) (f : Table FieldDev) :
    ({ t with field := f } : State).rest = ({ s with field := f } : State).rest := by
  have h' := congrArg (fun t : State => ({ t with field := f } : State)) h
  exact h'

/-- A line's bring-up from its record on: no power to its devices, its zones given up where it was in RUN. -/
theorem bringUp_eq (s : State) (l : Nat) :
    s.bringUp l =
      if (s.lineAt l).state = .run then (((s.setLine l (s.broughtUp l)).onDevices l FieldDev.lineOff).refreshDegraded l).lineDown l
      else ((s.setLine l (s.broughtUp l)).onDevices l FieldDev.lineOff).refreshDegraded l := rfl

theorem onDevices_wires (s : State) (l : Nat) (f : FieldDev → FieldDev) : (s.onDevices l f).wires = s.wires :=
  wires_of_lines (lines_of_fieldEq (onDevices_eq s l f))

theorem bringUp_wires (s : State) (l : Nat) :
    (s.bringUp l).wires = fun k => if k = l then { s.broughtUp l with outAlarm := [], outOrd := [] } else s.wires k := by
  rw [bringUp_eq, ← wires_setLine]
  split
  · rw [wires_lineDown, wires_refreshDegraded, onDevices_wires]
  · rw [wires_refreshDegraded, onDevices_wires]

theorem bringUp_begun (s : State) (l : Nat) :
    (s.bringUp l).rest = ((s.setLine l (s.broughtUp l)).onDevices l FieldDev.lineOff).rest := by
  rw [bringUp_eq]
  split
  · rw [rest_lineDown, refreshDegraded_rest]
  · rw [refreshDegraded_rest]

theorem field_of_rest {s t : State} (h : t.rest = s.rest) : t.field = s.field := by
  have h' := congrArg State.field h
  exact h'

theorem bringUp_field (s : State) (l : Nat) :
    (s.bringUp l).field = ((s.setLine l (s.broughtUp l)).onDevices l FieldDev.lineOff).field := field_of_rest (bringUp_begun s l)

theorem bringUp_rest (s : State) (l : Nat) : (s.bringUp l).rest = ({ s with field := (s.bringUp l).field } : State).rest := by
  rw [bringUp_begun, bringUp_field, onDevices_rest]
  exact rest_withField (rest_setLine ..) _

theorem bringUp_fieldAt (s : State) {l k a : Nat} (hk : k ≠ l) (ha : 1 ≤ a ∧ a ≤ 24) : (s.bringUp l).fieldAt k a = s.fieldAt k a := by
  have h : (s.bringUp l).fieldAt k a = ((s.setLine l (s.broughtUp l)).onDevices l FieldDev.lineOff).fieldAt k a := by
    unfold State.fieldAt
    rw [bringUp_field]
  rw [h, onDevices_fieldAt _ _ _ k a ha, if_neg hk]
  rfl

/-- A test in progress takes its result before a LINE RESTART. -/
def State.testCutShort (s : State) (l : Nat) : State :=
  if (s.lineAt l).unjudged then s.takeResult l .aborted (some .lineRestart) else s

theorem restartLine_eq (s : State) (l : Nat) : s.restartLine l = (s.testCutShort l).bringUp l := rfl

theorem takeResult_shape (s : State) (l : Nat) (r : TestResult) (cause : Option AbortCause) :
    ∃ x, s.takeResult l r cause = { s.setLine l x with ntu := (s.takeResult l r cause).ntu } := by
  unfold State.takeResult State.raiseTestEnd State.onLine
  dsimp only
  split
  · exact ⟨_, rfl⟩
  · exact ⟨_, rfl⟩

theorem testCutShort_keeps (s : State) (l : Nat) : (s.testCutShort l).store = s.store ∧ (s.testCutShort l).now = s.now ∧
    (s.testCutShort l).field = s.field ∧ (s.testCutShort l).rest = s.rest ∧ ∀ k, k ≠ l → (s.testCutShort l).wires k = s.wires k := by
  unfold State.testCutShort
  split
  · have hrest : (s.takeResult l .aborted (some .lineRestart)).rest = s.rest := by
      unfold State.takeResult State.raiseTestEnd State.onLine
      dsimp only
      split
      · rw [rest_raise, rest_setLine]
      · rw [rest_setLine]
    obtain ⟨x, hx⟩ := takeResult_shape s l .aborted (some .lineRestart)
    refine ⟨?_, ?_, ?_, hrest, fun k hk => ?_⟩
    · rw [hx]; rfl
    · rw [hx]; rfl
    · rw [hx]; rfl
    · have hwires : (s.takeResult l .aborted (some .lineRestart)).wires = (s.setLine l x).wires := by rw [hx]; rfl
      rw [hwires, wires_setLine]
      exact if_neg hk
  · exact ⟨rfl, rfl, rfl, rfl, fun _ _ => rfl⟩

/-- A line as bring-up begins (R24): what its record is then, by the LINE entry. -/
theorem broughtUp_begun (s : State) (l : Nat) :
    (s.broughtUp l).state = (if (tget lineCfgStart s.store.live.lin.lines l).enable then .proving else .off) ∧
      (s.broughtUp l).enabled = (tget lineCfgStart s.store.live.lin.lines l).enable ∧ (s.broughtUp l).since = s.now ∧
      (s.broughtUp l).transaction = none ∧ (s.broughtUp l).test = none := by
  unfold State.broughtUp
  dsimp only
  cases (tget lineCfgStart s.store.live.lin.lines l).enable <;> exact ⟨rfl, rfl, rfl, rfl, rfl⟩

section
variable {s : State} {p : Port} {op : Fin 16} {n : Nat} (h : s.takes p op .office)
include h

theorem execLine_range (hline : 6 ≤ n) : execLine p op n s = .next (s.replied p (.no .range)) :=
  request_reads h _ (if_neg (by omega)) rfl

theorem execLine_restarts (hline : n < 6) : execLine p op n s = finish ((s.restartLine n).replied p .ok) :=
  request_answered h _ (if_pos hline) rfl

end

/-- Settles O37: the restart is the bring-up of `broughtUp_begun`, and `bringUp_rest`, `bringUp_wires` and `bringUp_fieldAt` are its frame. -/
theorem lineRestartBeginsBringUp : Obligations.LineRestartBeginsBringUp := by
  intro s p op n h
  refine ⟨execLine_range h, fun hline => ?_⟩
  obtain ⟨t, ht⟩ := finish_next ((s.restartLine n).replied p .ok)
  obtain ⟨hstore, hnow, hfield, hrest, hother⟩ := testCutShort_keeps s n
  have htrest : t.rest = ((s.restartLine n).replied p .ok).rest := finish_rest ht
  have htfield : t.field = (s.restartLine n).field := (field_of_rest htrest).trans (replied_field (s.restartLine n) p .ok)
  have hwires : t.wires = _ := (finish_wires ht).trans ((wires_replied ..).trans (bringUp_wires (s.testCutShort n) n))
  obtain ⟨hstate, henabled, hsince, htransaction, htest⟩ := broughtUp_begun (s.testCutShort n) n
  rw [hstore] at hstate henabled
  rw [hnow] at hsince
  refine ⟨t, (execLine_restarts h hline).trans ht, ?_, ?_⟩
  · rw [htrest, htfield, restartLine_eq]
    exact rest_replied_of ((bringUp_rest _ n).trans (rest_withField hrest _)) p _
  · rw [hwires]
    dsimp only
    rw [if_pos rfl]
    refine ⟨hstate, henabled, hsince, htransaction, htest, fun k hk => (if_neg hk).trans (hother k hk), fun k a _ hk hlow hhigh => ?_⟩
    have ht' : t.fieldAt k a = (s.restartLine n).fieldAt k a := by
      unfold State.fieldAt
      rw [htfield]
    rw [ht', restartLine_eq, bringUp_fieldAt _ hk ⟨hlow, hhigh⟩]
    unfold State.fieldAt
    rw [hfield]

end Sys2Proof.Machine
end

