-- ==== Sys2Proof/Proofs/DrillSessions.lean ====
section
/-! Drill sessions: how one ends, with its record, and how a stage begins; DRILL and its time-out (O52), the ends of stages, ADVANCE and
ABORT (O53). -/

set_option autoImplicit false

namespace Sys2Proof.Machine

open Sys2Proof

/-! ### Sessions that the zone controller's work leaves as they are -/

theorem rest_onSession (s : State) (f : Session → Session) : (s.onSession f).rest = s.rest := rfl

theorem rest_endTiming (s : State) : s.endTiming.rest = s.rest := rfl

theorem rest_drillOutputs (s : State) : s.drillOutputs.rest = s.rest := by
  refine rest_foldl (fun s z => ?_) _ _
  split
  · exact rest_setWanted ..
  · rfl

theorem rest_retuneDrill (s : State) : s.retuneDrill.rest = s.rest := by
  unfold State.retuneDrill
  split
  · rfl
  · split <;> rfl

theorem sess_drillOutputs (s : State) : s.drillOutputs.sess = s.sess := by
  refine sess_foldl (fun s z => ?_) _ _
  split
  · exact sess_setWanted ..
  · rfl

theorem sess_retuneDrill (s : State) : s.retuneDrill.sess = s.sess := by
  unfold State.retuneDrill
  split
  · rfl
  · split <;> rfl

theorem session_of_sess {s t : State} {d : Session} (h : t.sess = s.sess) (hd : s.dsq.session = some d) :
    ∃ e, t.dsq.session = some e ∧ e.fixed = d.fixed := by
  unfold State.sess at h
  rw [hd] at h
  exact Option.map_eq_some_iff.mp h

/-- A session that does not run counts no drop, whatever the zone controller does. -/
theorem settles_drops (k : Nat) :
    Settles (fun s => ∃ d, s.dsq.session = some d ∧ d.running = false ∧ d.drops = k) fun _ => True where
  claims _ _ _ := trivial
  queued _ _ _ _ := trivial
  ztc h _ _ := h
  zone h _ := h
  output {s z alarm} h := by
    unfold State.output
    split
    · exact h
    · exact h
  part h _ := h
  number h := h
  drop {s n z r} h := by
    obtain hsame | ⟨j, p, _, _, _, hdrop⟩ := dropPart_cases s n z r
    · rw [hsame]
      exact h
    · rw [hdrop]
      split
      · obtain ⟨d, hd, hidle, hdrops⟩ := h
        refine ⟨d, ?_, hidle, hdrops⟩
        unfold State.countDrillDrop
        have hsession : ((s.updatePart n z (Part.drop r)).raise .bellDropped
            (.bellDropped n j.key { day := j.day, sec := j.sec } z r)).dsq.session = some d := hd
        rw [hsession]
        dsimp only
        rw [hidle]
        exact hd
      · exact h
  page h _ _ := h
  waiters h := h
  signal {s d x} h hd := by
    obtain ⟨e, he, hidle, hdrops⟩ := h
    obtain rfl := Option.some.inj (hd.symm.trans he)
    exact ⟨_, rfl, hidle, hdrops⟩
  stage {s} h := by
    obtain ⟨x, hstage⟩ := raiseStage_shape s
    rw [hstage]
    exact h
  pagesEnd {s} h := by
    obtain ⟨g, x, hpages⟩ := finalizePages_shape s
    rw [hpages]
    exact h

/-! ### The end of a session (R166, R167) -/

/-- A session whose drill timers have been judged (R165). -/
def State.timingEnded (s : State) (d : Session) : Session :=
  if d.timing = .running then
    { d.building.foldl (fun d l => if (d.resultOf l).isSome then d else d.setResult l (s.judgeLine l)) d with timing := .ended }
  else d

theorem endTiming_session {s : State} {d : Session} (hd : s.dsq.session = some d) :
    s.endTiming.dsq.session = some (s.timingEnded d) := by
  unfold State.endTiming State.onSession State.withSession
  rw [hd]
  rfl

/-- The fields of a session that the judgement of its timers leaves. -/
def Session.outline (d : Session) : Session := { d with results := [], timing := .before }

theorem setResults_outline {f : Session → Nat → Session} (hf : ∀ d l, (f d l).outline = d.outline) (ls : List Nat) (d : Session) :
    (ls.foldl f d).outline = d.outline := by
  induction ls generalizing d with
  | nil => rfl
  | cons l ls ih => exact (ih _).trans (hf d l)

theorem timingEnded_outline (s : State) (d : Session) : (s.timingEnded d).outline = d.outline := by
  unfold State.timingEnded
  split
  · refine Eq.trans ?_ (setResults_outline (f := fun d l => if (d.resultOf l).isSome then d else d.setResult l (s.judgeLine l))
      (fun d l => ?_) d.building d)
    · rfl
    · split <;> rfl
  · rfl

theorem timingEnded_before {s : State} {d : Session} (h : d.timing ≠ .running) : s.timingEnded d = d := if_neg h

/-- The session that ends, with no signal and no change to come. -/
def State.silenced (s : State) (d : Session) : Session := { s.timingEnded d with signal := .silent, nextChange := none }

/-- A session ends once its zones have been given up and its trunk released: what its record is written from, and where. -/
theorem endSession_closes {s : State} {d : Session} (hd : s.dsq.session = some d) (r : DrillReason) :
    ∃ (u : State) (e : Session), s.endSession r = u.closeSession e r ∧ u.rest = (s.setDrillReq false).rest ∧ e.fixed = (s.silenced d).fixed ∧
      (d.running = false → d.timing ≠ .running → e.drops = d.drops) := by
  let a : State := s.endTiming.onSession fun d => { d with signal := .silent, nextChange := none }
  let b : State := (a.releaseZones Holder.isDrill Suspended.isDrill allZones).settle.releaseDrillTrunk
  have ha : a.dsq.session = some (s.silenced d) := by
    show s.endTiming.dsq.session.map _ = _
    rw [endTiming_session hd]
    rfl
  have hsess : b.sess = a.sess := by
    show ((a.releaseZones Holder.isDrill Suspended.isDrill allZones).settle.releaseDrillTrunk).sess = _
    rw [sess_releaseDrillTrunk, sess_settle, sess_releaseZones]
  have hrest : b.rest = s.rest := by
    show ((a.releaseZones Holder.isDrill Suspended.isDrill allZones).settle.releaseDrillTrunk).rest = _
    rw [rest_releaseDrillTrunk, rest_settle, rest_releaseZones]
    rfl
  obtain ⟨e, he, hfixed⟩ := session_of_sess hsess ha
  refine ⟨b.setDrillReq false, e, ?_, congrArg (fun t : State => t.setDrillReq false) hrest, hfixed, fun hidle htiming => ?_⟩
  · unfold State.endSession
    rw [hd]
    show (match (b.setDrillReq false).dsq.session with | some d => _ | none => _) = _
    rw [show (b.setDrillReq false).dsq.session = some e from he]
  · have F := settles_drops d.drops
    have hkept : ∃ e, b.dsq.session = some e ∧ e.running = false ∧ e.drops = d.drops := by
      refine F.releaseDrillTrunk (F.settle (F.releaseZones ⟨_, ha, ?_⟩))
      unfold State.silenced
      rw [timingEnded_before htiming]
      exact ⟨hidle, rfl⟩
    obtain ⟨e', he', _, hdrops⟩ := hkept
    rw [← Option.some.inj (he'.symm.trans he)]
    exact hdrops

/-- What the record of a session that ends is written from. -/
def Session.recordSource (e : Session) (r : DrillReason) : RecordSource :=
  { program := e.program, origin := e.origin, start := e.start, results := e.allResults, drops := e.drops, reason := r }

theorem closeSession_rest (s : State) (e : Session) (r : DrillReason) :
    (s.closeSession e r).rest = (s.writeRecord (e.recordSource r)).rest := rest_raise (s.writeRecord (e.recordSource r)) _ _

theorem writeRecord_rest {s t : State} (h : t.rest = s.rest) (x : RecordSource) : (t.writeRecord x).rest = (s.writeRecord x).rest := by
  have h' := congrArg (fun u : State => u.writeRecord x) h
  exact h'

theorem setDrillReq_rest {s t : State} (h : t.rest = s.rest) (b : Bool) : (t.setDrillReq b).rest = (s.setDrillReq b).rest := by
  have h' := congrArg (fun u : State => u.setDrillReq b) h
  exact h'

theorem finish_vacant {x t : State} (hx : x.dsq.session = none) (ht : finish x = .next t) : t.dsq.session = none := by
  rw [← Host.Outcome.next.inj ht]
  exact vacant_of_steady (steady_trans (steady_settle x) (steady_rejudge _)) hx

theorem endSession_rest {s : State} {d : Session} (hd : s.dsq.session = some d) (r : DrillReason) :
    ∃ e : Session, (s.endSession r).rest = ((s.setDrillReq false).writeRecord (e.recordSource r)).rest ∧
      e.fixed = (s.silenced d).fixed ∧ (d.running = false → d.timing ≠ .running → e.drops = d.drops) := by
  obtain ⟨u, e, hclosed, hurest, hfixed, hdrops⟩ := endSession_closes hd r
  refine ⟨e, ?_, hfixed, hdrops⟩
  rw [hclosed, closeSession_rest]
  exact writeRecord_rest hurest _

/-- What the record of a session is written from, whatever the zone controller's work has changed of it. -/
theorem recordSource_of_fixed {e d : Session} (h : e.fixed = d.fixed) (r : DrillReason) :
    e.recordSource r = { d.recordSource r with drops := e.drops } := by
  have hprogram := congrArg Session.program h
  have horigin := congrArg Session.origin h
  have hstart := congrArg Session.start h
  have hresults := congrArg Session.allResults h
  unfold Session.recordSource
  rw [show e.program = d.program from hprogram, show e.origin = d.origin from horigin, show e.start = d.start from hstart,
    show e.allResults = d.allResults from hresults]

theorem records_of_rest {s t : State} (h : t.rest = s.rest) :
    t.pnl = s.pnl ∧ t.dsq.lastRecord = s.dsq.lastRecord ∧ t.dsq.records = s.dsq.records := by
  have hpnl := congrArg State.pnl h
  have hlast := congrArg (fun u : State => u.dsq.lastRecord) h
  have hrecords := congrArg (fun u : State => u.dsq.records) h
  exact ⟨hpnl, hlast, hrecords⟩

/-! ### DRILL and its time-out (R159, R160) -/

section
variable {s : State} {p : Port} {op : Fin 16} {n : Nat} {b : Option (List Nat)} (h : s.takes p op .safety)
include h

theorem execDrill_range (hbad : 8 ≤ n ∨ ∃ ls l, b = some ls ∧ l ∈ ls ∧ 6 ≤ l) :
    execDrill p op n b s = .next (s.replied p (.no .range)) := by
  refine request_reads h _ (if_pos ?_) rfl
  refine hbad.imp_right fun ⟨ls, l, hls, hl, hout⟩ => ?_
  rw [hls, Option.getD_some, List.any_eq_true]
  exact ⟨l, hl, decide_eq_true hout⟩

omit h in
theorem drill_inRange (hn : n < 8) (hb : ∀ ls l, b = some ls → l ∈ ls → l < 6) :
    ¬(8 ≤ n ∨ (b.getD []).any (fun l => decide (6 ≤ l)) = true) := by
  rintro (hn' | hany)
  · omega
  · obtain ⟨l, hl, hout⟩ := List.any_eq_true.mp hany
    cases b with
    | none => exact nomatch hl
    | some ls =>
      have := hb ls l rfl hl
      have := of_decide_eq_true hout
      omega

theorem execDrill_state (hn : n < 8) (hb : ∀ ls l, b = some ls → l ∈ ls → l < 6)
    (hwhy : s.dsq.session ≠ none ∨ s.pnl.state ≠ .normal ∨ s.pnl.causes ≠ [] ∨ s.store.live.drl.stagesOf n = []) :
    execDrill p op n b s = .next (s.replied p (.no .state)) := by
  refine request_reads h _ ?_ rfl
  rw [if_neg (drill_inRange hn hb), if_pos]
  refine hwhy.imp Option.isSome_iff_ne_none.mpr (Or.imp_right (Or.imp (fun hcauses => ?_) fun hstages => ?_))
  · simpa [Pnl.troubled] using hcauses
  · rw [hstages]
    rfl

theorem execDrill_requested (hn : n < 8) (hb : ∀ ls l, b = some ls → l ∈ ls → l < 6) (hvacant : s.dsq.session = none)
    (hnormal : s.pnl.state = .normal) (hcauses : s.pnl.causes = []) (hstages : s.store.live.drl.stagesOf n ≠ [])
    (hack : s.pnl.drillAck.debounced = false) :
    execDrill p op n b s =
      .next (((s.createSession (drillOrigin p) n (setBelow 6 (b.getD (s.program n).building))).setDrillReq true).replied p .ok) := by
  refine request_rests h _ ?_ rfl (restingLaw_of_eq h.1 rfl rfl rfl rfl)
  rw [if_neg (drill_inRange hn hb), if_neg]
  · unfold State.enterRequesting
    dsimp only
    rw [if_neg]
    show ¬s.pnl.drillAck.debounced = true
    rw [hack]
    exact Bool.false_ne_true
  · rw [hvacant, Pnl.troubled, hcauses]
    simp [hnormal, hstages]

end

theorem execAckTimerExpiry_due {s : State} {d : Session} (h : s.ready) (hd : s.dsq.session = some d) (hidle : d.running = false)
    (hdue : d.ackAt ≤ s.now) : execAckTimerExpiry s = finish (s.endSession .panelTimeout) := by
  unfold execAckTimerExpiry
  rw [event_powered _ h.2]
  rw [hd]
  dsimp only
  rw [hidle, State.reached, decide_eq_true hdue]
  rfl

/-- Settles O52: the refusals and the request by the lemmas of DRILL; the time-out by what the end of a session leaves. -/
theorem drillRequestedAndTimedOut : Obligations.DrillRequestedAndTimedOut := by
  refine ⟨fun s p op n b h => ⟨execDrill_range h, fun hn hb => ⟨execDrill_state h hn hb, fun hvacant hnormal hcauses hstages hack => ?_⟩⟩,
    fun s d h hd hidle hdue htiming => ?_⟩
  · refine ⟨_, rfl, (execDrill_requested h hn hb hvacant hnormal hcauses hstages hack).trans ?_⟩
    cases p <;> rfl
  · obtain ⟨t, ht⟩ := finish_next (s.endSession .panelTimeout)
    have hbefore : d.timing ≠ .running := by rw [htiming]; decide
    obtain ⟨e, hrest, hfixed, hdrops⟩ := endSession_rest hd .panelTimeout
    obtain ⟨hpnl, hlast, hrecords⟩ := records_of_rest ((finish_rest ht).trans hrest)
    refine ⟨t, (execAckTimerExpiry_due h hd hidle hdue).trans ht, finish_vacant (endSession_vacant s _) ht, hpnl, hlast, ?_⟩
    rw [hrecords, recordSource_of_fixed hfixed, hdrops hidle hbefore]
    unfold State.silenced
    rw [timingEnded_before hbefore]
    rfl

/-! ### The ends of stages (R161, R165, R166) -/

theorem setWanted_restingLaw {s : State} (h : s.restingLaw) (z : Nat) (bell trunk : Option Nat) : (s.setWanted z bell trunk).restingLaw := by
  have hset (r : ZoneRec) : (s.setZone z r).restingLaw := h
  unfold State.setWanted
  dsimp only
  split
  · exact h
  · unfold State.output
    split
    · exact setLine_restingLaw (hset _) _ _
    · exact hset _

theorem drillOutputs_restingLaw {s : State} (h : s.restingLaw) : s.drillOutputs.restingLaw := by
  unfold State.drillOutputs
  refine foldl_keeps h fun s z hs => ?_
  split
  · exact setWanted_restingLaw hs _ _ _
  · exact hs

theorem withSession_restingLaw {s : State} (h : s.restingLaw) (d : Option Session) : (s.withSession d).restingLaw :=
  restingLaw_of_eq h rfl rfl rfl rfl

section
variable {s : State} {d : Session} {c : StageCopy} (h : s.ready) (hd : s.dsq.session = some d) (hrunning : d.running = true)
include h hd hrunning

theorem execDrillTimelineChange_due (hc : d.current = some c) {e : Nat} (he : d.nextChange = some e) (hdue : e ≤ s.now) :
    execDrillTimelineChange s =
      .next (s.withSession (some { d with
        nextChange := (c.timeline.nextChange (s.now - d.stageSince)).map (· + d.stageSince) })).drillOutputs := by
  have hguard : (d.running && d.nextChange.any s.reached) = true := by
    rw [hrunning, he, Option.any_some, State.reached, decide_eq_true hdue, Bool.and_self]
  unfold execDrillTimelineChange
  rw [event_powered _ h.2]
  rw [hd]
  dsimp only
  rw [if_pos hguard]
  unfold State.drillChange
  rw [hd]
  dsimp only
  rw [hc]
  rw [finish_eq_self (drillOutputs_restingLaw (withSession_restingLaw h.1 _))]

theorem execStageExpiry_due (hc : d.current = some c) (hdue : d.stageSince + 8000 * c.stage.duration ≤ s.now) :
    execStageExpiry s = finish s.endStage := by
  unfold execStageExpiry
  rw [event_powered _ h.2]
  rw [hd]
  dsimp only
  unfold Session.stageUntil
  rw [hrunning, hc, Option.map_some, Option.any_some, State.reached, decide_eq_true hdue, Bool.and_self, if_pos rfl]

end

theorem timingEnded_kept (s : State) (d : Session) : (s.timingEnded d).program = d.program ∧ (s.timingEnded d).start = d.start ∧
    (s.timingEnded d).stage = d.stage ∧ (s.timingEnded d).stages = d.stages := by
  have h := timingEnded_outline s d
  have hprogram := congrArg Session.program h
  have hstart := congrArg Session.start h
  have hstage := congrArg Session.stage h
  have hstages := congrArg Session.stages h
  exact ⟨hprogram, hstart, hstage, hstages⟩

theorem endStage_last {s : State} {d : Session} (hd : s.dsq.session = some d) (hlast : d.stages.length ≤ d.stage + 1) :
    s.endStage = s.endTiming.endSession .completed := by
  obtain ⟨_, _, hstage, hstages⟩ := timingEnded_kept s d
  unfold State.endStage
  dsimp only
  rw [endTiming_session hd]
  dsimp only
  rw [hstage, hstages, if_neg (by omega)]

/-- A record that a session's end writes, as R167 has it. -/
theorem endSession_record {s t : State} {d : Session} (hd : s.dsq.session = some d) {r : DrillReason}
    (hpnl : t.pnl = (s.endSession r).pnl) (hrecords : t.dsq.records = (s.endSession r).dsq.records) :
    t.pnl = { s.pnl with drillReq := false } ∧
      ∃ x : DrillRecord, t.dsq.records = (x :: s.dsq.records).take 16 ∧ x.reason = r ∧ x.num = s.dsq.nextRecord ∧ x.program = d.program ∧
        x.start = d.start ∧ x.finish = s.campus ∧ x.results = (s.timingEnded d).allResults := by
  obtain ⟨e, hrest, hfixed, _⟩ := endSession_rest hd r
  obtain ⟨hp, _, hr⟩ := records_of_rest hrest
  obtain ⟨hprogram, hstart, _, _⟩ := timingEnded_kept s d
  have hsource := recordSource_of_fixed hfixed r
  have hsprogram := congrArg RecordSource.program hsource
  have hsstart := congrArg RecordSource.start hsource
  have hsresults := congrArg RecordSource.results hsource
  exact ⟨hpnl.trans hp, _, hrecords.trans hr, rfl, rfl, hsprogram.trans hprogram, hsstart.trans hstart, rfl, hsresults⟩

section
variable {s : State} {p : Port} {op : Fin 16} {k : Nat} (h : s.takes p op .safety)
include h

theorem execAdvance_refused
    (hwhy : ∀ d, s.dsq.session = some d → d.running = false ∨ d.stage ≠ k ∨ ∀ c, d.stages[k]? = some c → c.stage.advance ≠ .manual) :
    execAdvance p op k s = .next (s.replied p (.no .state)) := by
  refine request_reads h _ ?_ rfl
  split
  next d hd =>
    refine if_neg fun hgood => ?_
    simp only [Bool.and_eq_true, decide_eq_true_eq, Option.any_eq_true] at hgood
    obtain ⟨⟨hrunning, hstage⟩, c, hc, hmanual⟩ := hgood
    obtain hidle | hother | hmode := hwhy d hd
    · exact absurd (hidle.symm.trans hrunning) Bool.false_ne_true
    · exact hother hstage
    · exact hmode c (hstage ▸ hc) hmanual
  · rfl

theorem execAdvance_manual {d : Session} {c : StageCopy} (hd : s.dsq.session = some d) (hrunning : d.running = true) (hstage : d.stage = k)
    (hc : d.stages[k]? = some c) (hmanual : c.stage.advance = .manual) :
    execAdvance p op k s = .next (s.endStage.replied p .ok).done := by
  have hcurrent : d.current = some c := by
    unfold Session.current
    rw [hstage]
    exact hc
  refine request_answered h _ ?_ rfl
  rw [hd]
  dsimp only
  rw [hrunning, decide_eq_true hstage, hcurrent, Option.any_some, decide_eq_true hmanual]
  rfl

theorem execAbort_idle (hnone : s.dsq.session = none) : execAbort p op s = .next (s.replied p (.no .state)) := by
  refine request_reads h _ ?_ rfl
  rw [hnone]
  rfl

theorem execAbort_ends {d : Session} (hd : s.dsq.session = some d) :
    execAbort p op s = finish ((s.endSession .abortedPort).replied p .ok) := by
  refine request_answered h _ ?_ rfl
  rw [hd]
  rfl

end

theorem port_of_rest {s t : State} (h : t.rest = s.rest) (p : Port) : t.port p = s.port p := by
  have h' := congrArg (fun u : State => u.port p) h
  exact h'

theorem finish_replies {s t : State} {p : Port} {r : Reply} (h : finish (s.replied p r) = .next t) : (t.port p).reply = some r := by
  rw [port_of_rest (finish_rest h) p]
  exact port_replied_same ..

/-- Settles O53: the timeline by `execDrillTimelineChange_due`, the last stage and ABORT by the record that the end of a session writes. -/
theorem drillStagesEnd : Obligations.DrillStagesEnd := by
  refine ⟨fun s d c e h hd hrunning hc => ⟨fun d' he hdue hd' => hd' ▸ execDrillTimelineChange_due h hd hrunning hc he hdue,
      execStageExpiry_due h hd hrunning hc, fun hdue hlast => ?_⟩,
    fun s p op k h => ⟨execAdvance_refused h, fun d c => execAdvance_manual h, execAbort_idle h, fun d hd => ?_⟩⟩
  · have hexec := execStageExpiry_due h hd hrunning hc hdue
    rw [endStage_last hd (by omega)] at hexec
    obtain ⟨t, ht⟩ := finish_next (s.endTiming.endSession .completed)
    obtain ⟨hpnl, _, hrecords⟩ := records_of_rest (finish_rest ht)
    obtain ⟨hreq, x, hx, hreason, hnum, hprogram, hstart, hfinish, _⟩ := endSession_record (endTiming_session hd) hpnl hrecords
    obtain ⟨hdprogram, hdstart, _, _⟩ := timingEnded_kept s d
    exact ⟨t, x, hexec.trans ht, finish_vacant (endSession_vacant ..) ht, congrArg Pnl.drillReq hreq, hx, hreason, hnum,
      hprogram.trans hdprogram, hstart.trans hdstart, hfinish⟩
  · obtain ⟨t, ht⟩ := finish_next ((s.endSession .abortedPort).replied p .ok)
    obtain ⟨hpnl, _, hrecords⟩ := records_of_rest (finish_rest ht)
    obtain ⟨hreq, x, hx, hreason, hnum, hprogram, hstart, hfinish, _⟩ :=
      endSession_record hd (hpnl.trans (replied_pnl ..)) (hrecords.trans (congrArg Dsq.records (replied_dsq ..)))
    have hvacant : ((s.endSession .abortedPort).replied p .ok).dsq.session = none :=
      (congrArg Dsq.session (replied_dsq ..)).trans (endSession_vacant ..)
    exact ⟨t, x, (execAbort_ends h hd).trans ht, finish_replies ht, finish_vacant hvacant ht, congrArg Pnl.drillReq hreq, hx, hreason, hnum,
      hprogram, hstart, hfinish⟩

end Sys2Proof.Machine
end

