-- ==== Sys2Proof/Proofs/ZoneRules.lean ====
section
/-! What the claims and returns of a zone leave of the zones' records, of the pages and of the agenda: one rule per operation. -/

set_option autoImplicit false

namespace Sys2Proof.Machine

open Sys2Proof

/-! ### Operations that leave the zone controller's block -/

theorem ztc_foldl {α : Type} {f : State → α → State} (hf : ∀ s a, (f s a).ztc = s.ztc) (xs : List α) (s : State) :
    (xs.foldl f s).ztc = s.ztc := List.foldlRecOn (motive := fun u => u.ztc = s.ztc) xs f rfl fun u hu a _ => (hf u a).trans hu

theorem dropPart_ztc (s : State) (n z : Nat) (r : DropReason) : (s.dropPart n z r).ztc = s.ztc := by
  obtain ⟨q, d, x, h⟩ := dropPart_shape s n z r
  rw [h]

theorem dropPart_pgc (s : State) (n z : Nat) (r : DropReason) : (s.dropPart n z r).pgc = s.pgc := by
  obtain ⟨q, d, x, h⟩ := dropPart_shape s n z r
  rw [h]

theorem tellDisplaced_ztc (s : State) (w : Taker) (z : Nat) : (s.tellDisplaced w z).ztc = s.ztc := by
  unfold State.tellDisplaced
  split
  · exact dropPart_ztc ..
  · rfl
  · rfl

theorem tellSuspended_ztc (s : State) (w : Taker) (z : Nat) : (s.tellSuspended w z).ztc = s.ztc := by
  unfold State.tellSuspended
  split <;> rfl

theorem zoneAt_of_ztc {s t : State} (h : t.ztc = s.ztc) (z : Nat) : t.zoneAt z = s.zoneAt z := by
  unfold State.zoneAt
  rw [h]

theorem later_shape (s : State) (w : Work) : ∃ ws, s.later w = { s with ztc := { s.ztc with agenda := ws } } := by
  unfold State.later
  split
  · exact ⟨s.ztc.agenda, rfl⟩
  · exact ⟨_, rfl⟩

theorem zoneAt_later (s : State) (w : Work) (z : Nat) : (s.later w).zoneAt z = s.zoneAt z := by
  obtain ⟨ws, h⟩ := later_shape s w
  rw [h]
  rfl

theorem agenda_later (s : State) (w : Work) : (s.later w).ztc.agenda = if w ∈ s.ztc.agenda then s.ztc.agenda else s.ztc.agenda ++ [w] := by
  unfold State.later
  simp only [List.contains_iff_mem]
  split <;> rfl

theorem zoneAt_seekDrillTrunk (s : State) (z : Nat) : s.seekDrillTrunk.zoneAt z = s.zoneAt z := by
  unfold State.seekDrillTrunk
  split
  · exact zoneAt_later ..
  · rfl

theorem zoneAt_output (s : State) (y : Nat) (alarm : Bool) (z : Nat) : (s.output y alarm).zoneAt z = s.zoneAt z := by
  unfold State.output
  split <;> rfl

/-- The zones' records alone. -/
theorem setWanted_shape (s : State) (z : Nat) (b t : Option Nat) :
    ∃ zones lines, s.setWanted z b t = { s with ztc := { s.ztc with zones := zones }, lines := lines } := by
  unfold State.setWanted State.output
  dsimp only
  split
  · exact ⟨s.ztc.zones, s.lines, rfl⟩
  · split <;> exact ⟨_, _, rfl⟩

theorem setWanted_agenda (s : State) (z : Nat) (b t : Option Nat) : (s.setWanted z b t).ztc.agenda = s.ztc.agenda := by
  obtain ⟨zones, lines, h⟩ := setWanted_shape s z b t
  rw [h]

theorem setWanted_pgc (s : State) (z : Nat) (b t : Option Nat) : (s.setWanted z b t).pgc = s.pgc := by
  obtain ⟨zones, lines, h⟩ := setWanted_shape s z b t
  rw [h]

/-! ### Waits (R104, R128) -/

/-- A wait as its zone's holder now makes it wait. -/
def waitUnder (h : Holder) (w : Wait) : Wait := { w with reason := waitReason h w }

theorem refreshReasons_told (s : State) (z : Nat) :
    s.refreshReasons z = ((s.zoneAt z).waits.map (waitUnder (s.zoneAt z).holder)).foldl
      (fun s w => s.tellDeferred w.job w.zone w.since w.reason)
      (s.setZone z { s.zoneAt z with waits := (s.zoneAt z).waits.map (waitUnder (s.zoneAt z).holder) }) := rfl

theorem refreshReasons_ztc (s : State) (z : Nat) :
    (s.refreshReasons z).ztc =
      (s.setZone z { s.zoneAt z with waits := (s.zoneAt z).waits.map (waitUnder (s.zoneAt z).holder) }).ztc := by
  rw [refreshReasons_told]
  exact ztc_foldl (f := fun (s : State) (w : Wait) => s.tellDeferred w.job w.zone w.since w.reason) (fun _ _ => rfl) _ _

theorem refreshReasons_zoneAt (s : State) (z y : Nat) :
    (s.refreshReasons z).zoneAt y =
      if y = z then { s.zoneAt z with waits := (s.zoneAt z).waits.map (waitUnder (s.zoneAt z).holder) } else s.zoneAt y := by
  rw [zoneAt_of_ztc (refreshReasons_ztc s z), zoneAt_setZone]

theorem refreshReasons_pgc (s : State) (z : Nat) : (s.refreshReasons z).pgc = s.pgc := by
  rw [refreshReasons_told]
  exact List.foldlRecOn (motive := fun u : State => u.pgc = s.pgc) _ _ rfl fun u hu _ _ => hu

theorem leaveWaits_zoneAt (s : State) (n z y : Nat) :
    (s.leaveWaits n z).zoneAt y =
      if y = z then { s.zoneAt z with waits := (s.zoneAt z).waits.filter fun w => w.job ≠ n } else s.zoneAt y := zoneAt_setZone ..

theorem clearWaits_zoneAt (s : State) (z : Nat) (r : DropReason) (y : Nat) :
    (s.clearWaits z r).zoneAt y = if y = z then { s.zoneAt z with waits := [] } else s.zoneAt y := by
  unfold State.clearWaits
  dsimp only
  rw [zoneAt_of_ztc (ztc_foldl (fun s w => dropPart_ztc s _ _ _) _ _)]
  exact zoneAt_setZone s z y _

/-! ### Pages -/

theorem find_page_map (n : Nat) (f : Page → Page) (hf : ∀ p, (f p).num = p.num) (ps : List Page) :
    (ps.map f).find? (fun p => decide (p.num = n)) = (ps.find? fun p => decide (p.num = n)).map f := by
  induction ps with
  | nil => rfl
  | cons p ps ih => by_cases h : p.num = n <;> simp [hf, h, ih]

theorem page_num {s : State} {n : Nat} {p : Page} (h : s.page? n = some p) : p.num = n := by simpa using List.find?_some h

theorem updatePage_page (s : State) (m n : Nat) (f : Page → Page) (hf : ∀ p, (f p).num = p.num) :
    (s.updatePage m f).page? n = if n = m then (s.page? n).map f else s.page? n := by
  have h : (s.updatePage m f).page? n = (s.page? n).map fun p => if p.num = m then f p else p :=
    find_page_map n _ (fun p => by split <;> simp [hf]) _
  rw [h]
  cases hp : s.page? n with
  | none => simp
  | some p =>
    rw [Option.map_some, Option.map_some, page_num hp]
    split <;> rfl

theorem page_of_pgc {s t : State} (h : t.pgc = s.pgc) (n : Nat) : t.page? n = s.page? n := by
  unfold State.page?
  rw [h]

/-! ### Claims (R98, R99) -/

theorem judgeWaits_alarm_zoneAt (s : State) (z y : Nat) :
    (s.judgeWaits .alarm z).zoneAt y = if y = z then { s.zoneAt z with waits := [] } else s.zoneAt y := clearWaits_zoneAt s z .alarm y

theorem seat_alarm_zoneAt (s : State) (z y : Nat) :
    (s.seat .alarm z).zoneAt y =
      if y = z then { s.zoneAt z with holder := .alarm, suspended := .none, bellUntil := none, trunk := none } else s.zoneAt y := by
  unfold State.seat
  dsimp only
  rw [zoneAt_output, zoneAt_setZone, zoneAt_setZone, zoneAt_setZone, if_pos rfl]
  split <;> rfl

/-- ALARM takes a zone, silences it and empties its wait list. -/
theorem takeZone_alarm_zoneAt (s : State) (z y : Nat) :
    (s.takeZone .alarm z).zoneAt y =
      if y = z then { s.zoneAt z with holder := .alarm, suspended := .none, bellUntil := none, trunk := none, waits := [] }
      else s.zoneAt y := by
  have htold (y : Nat) : ((s.tellDisplaced .alarm z).tellSuspended .alarm z).zoneAt y = s.zoneAt y :=
    zoneAt_of_ztc ((tellSuspended_ztc ..).trans (tellDisplaced_ztc ..)) y
  unfold State.takeZone
  rw [zoneAt_later, seat_alarm_zoneAt, judgeWaits_alarm_zoneAt, judgeWaits_alarm_zoneAt, if_pos rfl, htold, htold]
  split <;> rfl

/-! ### Returns (R100) -/

/-- A zone's record as its holder ends: what is suspended there returns, and else it is NONE. -/
def State.returned (s : State) (z : Nat) : ZoneRec :=
  let r := s.zoneAt z
  let free : ZoneRec := { r with holder := .none, suspended := .none, bellUntil := none, trunk := none }
  match r.suspended with
  | .page n q =>
    match s.page? n with
    | some p =>
      if p.onAir then
        { r with holder := .page n q, suspended := .none, bellUntil := none, trunk := p.trunk
                 waits := r.waits.map (waitUnder (.page n q)) }
      else free
    | none => free
  | .drill m =>
    if (s.dsq.session.map Session.running).getD false then
      { r with holder := .drill m, suspended := .none, bellUntil := s.drillBell m, trunk := s.drillSpeaker m }
    else free
  | .alarm => if s.pnl.state = .normal then free else { r with holder := .alarm, suspended := .none, bellUntil := none, trunk := none }
  | .none => free

theorem returnZone_zoneAt (s : State) (z y : Nat) : (s.returnZone z).zoneAt y = if y = z then s.returned z else s.zoneAt y := by
  have hset (r : ZoneRec) (b t : Option Nat) :
      ((s.setZone z r).setWanted z b t).zoneAt y = if y = z then { r with bellUntil := b, trunk := t } else s.zoneAt y := by
    rw [setWanted_zoneAt, zoneAt_setZone, zoneAt_setZone, if_pos rfl]
    split <;> rfl
  unfold State.returnZone State.returned
  dsimp only
  cases hsusp : (s.zoneAt z).suspended with
  | page n q =>
    dsimp only
    cases hp : s.page? n with
    | none => exact hset _ _ _
    | some p =>
      dsimp only
      split
      · rw [refreshReasons_zoneAt, setWanted_zoneAt, if_pos rfl, setWanted_zoneAt]
        have hzone (x : Nat) : ((s.setZone z { s.zoneAt z with holder := .page n q, suspended := .none }).pageReturned n z).zoneAt x =
          if x = z then { s.zoneAt z with holder := .page n q, suspended := .none } else s.zoneAt x := zoneAt_setZone s z x _
        rw [hzone, hzone, if_pos rfl]
        split <;> rfl
      · exact hset _ _ _
  | drill m =>
    dsimp only
    split
    · have hdrill : (((((s.setZone z { s.zoneAt z with holder := .drill m, suspended := .none }).setWanted z
          ((s.setZone z { s.zoneAt z with holder := .drill m, suspended := .none }).drillBell m)
          ((s.setZone z { s.zoneAt z with holder := .drill m, suspended := .none }).drillSpeaker m)).waitersLose z .drill).later
          .release).zoneAt y) =
          if y = z then { s.zoneAt z with holder := .drill m, suspended := .none, bellUntil := s.drillBell m, trunk := s.drillSpeaker m }
          else s.zoneAt y := by
        rw [zoneAt_later]
        exact hset _ _ _
      split
      · exact hdrill
      · rw [zoneAt_seekDrillTrunk]
        exact hdrill
    · exact hset _ _ _
  | alarm =>
    dsimp only
    split <;> exact hset _ _ _
  | none =>
    dsimp only
    rw [hset]

theorem returned_kept (s : State) (z : Nat) : (s.returned z).available = (s.zoneAt z).available ∧ (s.returned z).suspended = .none ∧
    (s.returned z).waits.map Wait.job = (s.zoneAt z).waits.map Wait.job := by
  have hjobs (h : Holder) (ws : List Wait) : (ws.map (waitUnder h)).map Wait.job = ws.map Wait.job := by
    rw [List.map_map]
    rfl
  unfold State.returned
  dsimp only
  split
  · split
    · split
      · exact ⟨rfl, rfl, hjobs _ _⟩
      · exact ⟨rfl, rfl, rfl⟩
    · exact ⟨rfl, rfl, rfl⟩
  · split <;> exact ⟨rfl, rfl, rfl⟩
  · split <;> exact ⟨rfl, rfl, rfl⟩
  · exact ⟨rfl, rfl, rfl⟩

theorem returned_none {s : State} {z : Nat} (h : (s.zoneAt z).suspended = .none) :
    s.returned z = { s.zoneAt z with holder := .none, suspended := .none, bellUntil := none, trunk := none } := by
  unfold State.returned
  dsimp only
  rw [h]

/-- A zone returns ALARM to nobody but a suspended ALARM, of which R99 speaks. -/
theorem returned_notAlarm {s : State} {z : Nat} (h : (s.zoneAt z).suspended ≠ .alarm) : (s.returned z).holder ≠ .alarm := by
  unfold State.returned
  dsimp only
  split
  · split
    · split <;> exact nofun
    · exact nofun
  · split <;> exact nofun
  next ha => exact absurd ha h
  · exact nofun

/-! ### Several returns at once -/

/-- Zones that are returned one after the other: each once, from the record that it had, and the others not at all. -/
theorem returns_zoneAt {zs : List Nat} (hnodup : zs.Nodup) (s : State) (z : Nat) :
    (z ∉ zs → (zs.foldl State.returnZone s).zoneAt z = s.zoneAt z) ∧
      (z ∈ zs → ∃ u : State, u.zoneAt z = s.zoneAt z ∧ u.rest = s.rest ∧ (zs.foldl State.returnZone s).zoneAt z = u.returned z) := by
  induction zs generalizing s with
  | nil => exact ⟨fun _ => rfl, nofun⟩
  | cons y ys ih =>
    obtain ⟨hy, hys⟩ := List.nodup_cons.mp hnodup
    obtain ⟨houtside, hinside⟩ := ih hys (s.returnZone y)
    refine ⟨fun hz => ?_, fun hz => ?_⟩
    · rw [List.mem_cons, not_or] at hz
      rw [List.foldl_cons, houtside hz.2, returnZone_zoneAt, if_neg hz.1]
    · by_cases hzy : z = y
      · subst hzy
        exact ⟨s, rfl, rfl, by rw [List.foldl_cons, houtside hy, returnZone_zoneAt, if_pos rfl]⟩
      · obtain ⟨u, hu, hrest, hlast⟩ := hinside ((List.mem_cons.mp hz).resolve_left hzy)
        exact ⟨u, by rw [hu, returnZone_zoneAt, if_neg hzy], hrest.trans (rest_returnZone s y), hlast⟩

theorem holdersEnd_zoneAt (s : State) (zs : List Nat) (z : Nat) :
    (s.holdersEnd zs).zoneAt z = (zs.foldl State.returnZone s).zoneAt z := by
  unfold State.holdersEnd
  rw [zoneAt_later, zoneAt_push]

/-- What stood suspended for the released holder is gone before its zones are returned. -/
theorem clearSuspended_zoneAt {zs : List Nat} (s : State) (z : Nat) :
    (zs.foldl (fun s z => s.setZone z { s.zoneAt z with suspended := .none }) s).zoneAt z =
      if z ∈ zs then { s.zoneAt z with suspended := .none } else s.zoneAt z := by
  induction zs generalizing s with
  | nil => rfl
  | cons y ys ih =>
    rw [List.foldl_cons, ih, zoneAt_setZone]
    by_cases hzy : z = y
    · subst hzy
      simp
    · simp [hzy]

/-- A release of all the zones of a holder (R100): a zone that it holds is returned, with nothing of its own suspended there; any
other keeps its record, but for what the holder had suspended. -/
theorem releaseZones_zoneAt (s : State) (mine : Holder → Bool) (mineUnder : Suspended → Bool) {z : Nat} (hz : z < 32) :
    let r : ZoneRec := if mineUnder (s.zoneAt z).suspended then { s.zoneAt z with suspended := .none } else s.zoneAt z
    (mine (s.zoneAt z).holder = false → (s.releaseZones mine mineUnder allZones).zoneAt z = r) ∧
      (mine (s.zoneAt z).holder = true → ∃ u : State, u.zoneAt z = r ∧ u.rest = s.rest ∧
        (s.releaseZones mine mineUnder allZones).zoneAt z = u.returned z) := by
  intro r
  have hmem : z ∈ allZones := List.mem_range.mpr hz
  have hnodup (f : Nat → Bool) : (allZones.filter f).Nodup := List.nodup_range.filter f
  have hcleared : ((allZones.filter fun z => mineUnder (s.zoneAt z).suspended).foldl
      (fun s z => s.setZone z { s.zoneAt z with suspended := .none }) s).zoneAt z = r := by
    rw [clearSuspended_zoneAt]
    simp only [List.mem_filter, hmem, true_and]
    rfl
  obtain ⟨houtside, hinside⟩ := returns_zoneAt (hnodup fun z => mine (s.zoneAt z).holder)
    ((allZones.filter fun z => mineUnder (s.zoneAt z).suspended).foldl (fun s z => s.setZone z { s.zoneAt z with suspended := .none }) s) z
  have hrest : ((allZones.filter fun z => mineUnder (s.zoneAt z).suspended).foldl
      (fun s z => s.setZone z { s.zoneAt z with suspended := .none }) s).rest = s.rest := rest_foldl (fun s z => rest_setZone s z _) _ _
  have hends : (s.releaseZones mine mineUnder allZones).zoneAt z =
      ((allZones.filter fun z => mine (s.zoneAt z).holder).foldl State.returnZone
        ((allZones.filter fun z => mineUnder (s.zoneAt z).suspended).foldl
          (fun s z => s.setZone z { s.zoneAt z with suspended := .none }) s)).zoneAt z := by
    unfold State.releaseZones
    rw [holdersEnd_zoneAt]
  rw [hends]
  refine ⟨fun hnot => ?_, fun hheld => ?_⟩
  · rw [houtside (by simp [hnot]), hcleared]
  · obtain ⟨u, hu, hurest, hlast⟩ := hinside (List.mem_filter.mpr ⟨hmem, hheld⟩)
    exact ⟨u, hu.trans hcleared, hurest.trans hrest, hlast⟩

end Sys2Proof.Machine
end

