-- ==== Sys2Proof/Proofs/PanelLink.lean ====
section
/-! The panel link: its timers (O51) and its inputs (O50), with the alarms that begin and end and the drills that DRILL-ACK starts. -/

set_option autoImplicit false

namespace Sys2Proof.Machine

open Sys2Proof

/-! ### The panel record after the ends of sessions and the beginnings of alarms -/

theorem rest_takeResult (s : State) (l : Nat) (r : TestResult) (cause : Option AbortCause) : (s.takeResult l r cause).rest = s.rest := by
  unfold State.takeResult State.raiseTestEnd
  dsimp only
  split
  · rw [rest_raise]
    rfl
  · rfl

theorem rest_abortTest (s : State) (l : Nat) (cause : AbortCause) : (s.abortTest l cause).rest = s.rest := by
  unfold State.abortTest
  dsimp only
  split
  · rfl
  · split
    · split
      · exact rest_takeResult ..
      · exact rest_takeResult ..
    · rw [enterDiscovery_rest]
      exact rest_takeResult ..

theorem endSession_pnl (s : State) (r : DrillReason) : ∃ b, (s.endSession r).pnl = { s.pnl with drillReq := b } := by
  cases hd : s.dsq.session with
  | none =>
    unfold State.endSession
    rw [hd]
    exact ⟨s.pnl.drillReq, rfl⟩
  | some d =>
    obtain ⟨e, hrest, _⟩ := endSession_rest hd r
    exact ⟨false, (records_of_rest hrest).1⟩

theorem takeover_pnl (s : State) : ∃ b, s.takeover.pnl = { s.pnl with alarmSet := s.alarmFollowers, drillReq := b } := by
  let u : State := { s with pnl := { s.pnl with alarmSet := s.alarmFollowers } }
  let v : State := ((allLines.foldl (fun s l => s.abortTest l .alarm) u).claimAlarm s.alarmFollowers).settle
  have hrest : v.rest = u.rest := by
    show (((allLines.foldl (fun s l => s.abortTest l .alarm) u).claimAlarm s.alarmFollowers).settle).rest = _
    rw [rest_settle, rest_claimAlarm]
    exact rest_foldl (fun s l => rest_abortTest s l .alarm) _ _
  obtain ⟨b, hb⟩ := endSession_pnl v .abortedAlarm
  refine ⟨b, hb.trans ?_⟩
  rw [(records_of_rest hrest).1]

theorem alarmRises_normal_pnl {s : State} (h : s.pnl.state = .normal) :
    ∃ b, s.alarmRises.pnl = { s.pnl with state := .alarm, alarmSet := s.alarmFollowers, drillReq := b } := by
  unfold State.alarmRises
  rw [h]
  exact takeover_pnl (s.setPanel .alarm .alarm)

/-- An alarm that begins leaves the panel's inputs, and its sampling, as they are. -/
theorem alarmRises_inputs (s : State) :
    (∀ i, s.alarmRises.pnl.input i = s.pnl.input i) ∧ s.alarmRises.pnl.sampleUntil = s.pnl.sampleUntil := by
  have hsame {x : Pnl} {st : PanelState} {a : Option Nat} {set : List Nat} {b : Bool}
      (h : x = { s.pnl with state := st, restoreAt := a, alarmSet := set, drillReq := b }) :
      (∀ i, x.input i = s.pnl.input i) ∧ x.sampleUntil = s.pnl.sampleUntil := by
    subst h
    exact ⟨fun i => by cases i <;> rfl, rfl⟩
  cases hstate : s.pnl.state with
  | normal =>
    obtain ⟨b, hb⟩ := alarmRises_normal_pnl hstate
    exact hsame hb
  | restoring =>
    unfold State.alarmRises
    rw [hstate]
    exact hsame (st := .alarm) (a := none) (set := s.pnl.alarmSet) (b := s.pnl.drillReq) rfl
  | alarm | silenced =>
    unfold State.alarmRises
    rw [hstate]
    exact ⟨fun _ => rfl, rfl⟩

/-! ### The timers of the panel (R154, R186) -/

theorem execRestoreTimerExpiry_due {s : State} {e : Nat} (h : s.ready) (hstate : s.pnl.state = .restoring)
    (hat : s.pnl.restoreAt = some e) (hdue : e ≤ s.now) : execRestoreTimerExpiry s = finish s.restored := by
  have hguard : (decide (s.pnl.state = .restoring) && s.pnl.restoreAt.any s.reached) = true := by
    rw [decide_eq_true hstate, hat, Option.any_some, State.reached, decide_eq_true hdue]
    rfl
  unfold execRestoreTimerExpiry
  rw [event_powered _ h.2, if_pos hguard]

/-- A release of the alarm's zones leaves no zone to it. -/
theorem releaseAlarm_zoneAt (s : State) {z : Nat} (hz : z < 32) :
    let v := s.releaseZones Holder.isAlarm Suspended.isAlarm allZones
    (v.zoneAt z).suspended ≠ .alarm ∧ ((s.zoneAt z).holder = .alarm → (v.zoneAt z).holder ≠ .alarm) ∧
      ((s.zoneAt z).holder = .alarm → (s.zoneAt z).suspended = .none →
        (v.zoneAt z).holder = .none ∧ (v.zoneAt z).bellUntil = none ∧ (v.zoneAt z).trunk = none) := by
  intro v
  obtain ⟨houtside, hinside⟩ := releaseZones_zoneAt s Holder.isAlarm Suspended.isAlarm hz
  have hcleared : (if (s.zoneAt z).suspended.isAlarm = true then { s.zoneAt z with suspended := .none } else s.zoneAt z).suspended ≠ .alarm := by
    split
    · exact nofun
    next hnot => exact fun ha => hnot (by rw [ha]; rfl)
  by_cases hheld : (s.zoneAt z).holder.isAlarm = true
  · obtain ⟨u, hu, _, hlast⟩ := hinside hheld
    have hnot : (u.zoneAt z).suspended ≠ .alarm := hu ▸ hcleared
    rw [show v.zoneAt z = u.returned z from hlast]
    refine ⟨(returned_kept u z).2.1 ▸ nofun, fun _ => returned_notAlarm hnot, fun _ hsusp => ?_⟩
    have hfree : (u.zoneAt z).suspended = .none := by
      rw [hu, hsusp]
      exact hsusp
    rw [returned_none hfree]
    exact ⟨rfl, rfl, rfl⟩
  · rw [show v.zoneAt z = _ from houtside (Bool.eq_false_iff.mpr hheld)]
    have hother : (s.zoneAt z).holder ≠ .alarm := fun ha => hheld (by rw [ha]; rfl)
    exact ⟨hcleared, fun ha => absurd ha hother, fun ha => absurd ha hother⟩

/-- The panel record with the sampled levels in it (R186). -/
def Pnl.sampled (x : Pnl) (begun : Nat) : Pnl :=
  { x with alarm := x.alarm.sampled begun, trouble := x.trouble.sampled begun, silence := x.silence.sampled begun
           drillAck := x.drillAck.sampled begun, sampleUntil := none }

theorem sampled_input (x : Pnl) (begun : Nat) (i : PanelInput) : (x.sampled begun).input i = (x.input i).sampled begun := by
  cases i <;> rfl

theorem sampled_debounced (x : InputSt) (begun : Nat) : (x.sampled begun).debounced = decide (x.raw = .active) := by
  unfold InputSt.sampled
  cases x.raw <;> rfl

theorem sampled_fault (x : InputSt) (begun : Nat) : (x.sampled begun).fault = true ↔ x.raw = .broken ∧ x.circuitSince ≤ begun := by
  unfold InputSt.sampled
  rw [Bool.and_eq_true, decide_eq_true_eq, decide_eq_true_eq]

theorem sampledInputs_eq (s : State) (begun : Nat) :
    allInputs.foldl (fun s i => s.onInput i fun x => x.sampled begun) s =
      { s with pnl := { s.pnl.sampled begun with sampleUntil := s.pnl.sampleUntil } } := rfl

/-- A sample that is complete: the debounced values, the troubles told, and an alarm that begins where ALARM is active. -/
theorem sampleDone_eq (s : State) (begun : Nat) :
    ∃ u : State, u.rest = ({ s with pnl := s.pnl.sampled begun } : State).rest ∧ u.pnl = s.pnl.sampled begun ∧
      s.sampleDone begun = if s.pnl.alarm.raw = .active then u.alarmRises else u := by
  obtain ⟨v, hv⟩ : ∃ v : State, v = { s with pnl := s.pnl.sampled begun } := ⟨_, rfl⟩
  obtain ⟨u, hu⟩ : ∃ u, u = v.pnl.causes.foldl (fun s _ => s.raisePanel .trouble) v := ⟨_, rfl⟩
  have hrest : u.rest = v.rest := hu ▸ rest_foldl (fun s _ => rest_raise s _ _) _ _
  have hpnl : u.pnl = s.pnl.sampled begun := (records_of_rest hrest).1.trans (hv ▸ rfl)
  refine ⟨u, hrest.trans (hv ▸ rfl), hpnl, ?_⟩

  have halarm : u.pnl.alarm.debounced = decide (s.pnl.alarm.raw = .active) := by
    rw [hpnl]
    exact sampled_debounced s.pnl.alarm begun
  unfold State.sampleDone
  dsimp only
  rw [sampledInputs_eq]
  dsimp only
  rw [hv] at hu
  rw [show ({ s.pnl.sampled begun with sampleUntil := none } : Pnl) = s.pnl.sampled begun from rfl]
  simp only [← hu, halarm, decide_eq_true_eq]

theorem execPanelSampleComplete_due {s : State} {e : Nat} (h : s.ready) (hat : s.pnl.sampleUntil = some e) (hdue : e ≤ s.now) :
    execPanelSampleComplete s = finish (s.sampleDone (e - s.debounce)) := by
  unfold execPanelSampleComplete
  rw [event_powered _ h.2, hat]
  dsimp only
  rw [State.reached, if_pos (decide_eq_true hdue)]

theorem alarmFollowers_of_base {s t : State} (h : t.base = s.base) : t.alarmFollowers = s.alarmFollowers := by
  have h' := congrArg State.alarmFollowers h
  exact h'

theorem power_of_base {s t : State} (h : t.base = s.base) : t.power = s.power := by
  have h' := congrArg State.power h
  exact h'

/-- Settles O51: the restoring by what a release leaves of the zones, the sample by `sampleDone_eq` and the alarm that begins. -/
theorem panelTimersTakeEffect : Obligations.PanelTimersTakeEffect := by
  refine fun s e h hdue => ⟨fun hstate hat => ?_, fun hat => ?_⟩
  · have hexec := execRestoreTimerExpiry_due h hstate hat hdue
    refine ⟨?_, fun u v hu hv => ?_⟩
    · obtain ⟨t, ht⟩ := finish_next s.restored
      refine ⟨t, hexec.trans ht, (finish_rest ht).trans ?_⟩
      unfold State.restored State.setPanel State.raisePanel
      dsimp only
      rw [rest_releaseZones, rest_raise]
    · subst hu hv
      exact ⟨hexec, fun z hz => releaseAlarm_zoneAt _ hz⟩
  · obtain ⟨u, hurest, hupnl, hdone⟩ := sampleDone_eq s (e - s.debounce)
    obtain ⟨t, ht⟩ := finish_next (s.sampleDone (e - s.debounce))
    have hrest := finish_rest ht
    have hpnl := (records_of_rest hrest).1
    have hpower : t.power = s.power := power_of_base ((finish_base ht).trans (base_sampleDone s _))
    have hkept : (∀ i, t.pnl.input i = u.pnl.input i) ∧ t.pnl.sampleUntil = u.pnl.sampleUntil := by
      rw [hpnl, hdone]
      split
      · exact alarmRises_inputs u
      · exact ⟨fun _ => rfl, rfl⟩
    obtain ⟨hinputs, hsampling⟩ := hkept
    refine ⟨t, (execPanelSampleComplete_due h hat hdue).trans ht, ?_, fun i => ?_, fun hquiet => ?_, fun hactive hnormal => ?_⟩
    · unfold State.reads
      rw [hpower, h.2, hsampling, hupnl]
      rfl
    · rw [hinputs, hupnl, sampled_input]
      exact ⟨sampled_debounced .., sampled_fault .., rfl⟩
    · rw [if_neg hquiet] at hdone
      rw [hpnl, hrest, hdone, hurest, hupnl]
      exact ⟨rfl, rfl⟩
    · rw [if_pos hactive] at hdone
      obtain ⟨b, hb⟩ := alarmRises_normal_pnl (s := u) (by rw [hupnl]; exact hnormal)
      rw [hpnl, hdone, hb]
      exact ⟨rfl, alarmFollowers_of_base ((base_of_rest hurest).trans rfl)⟩

/-! ### A stage begins, and a drill begins to run (R160, R162, R163) -/

theorem beginStage_rest (s : State) (k : Nat) : (s.beginStage k).rest = s.rest := by
  unfold State.beginStage
  split
  · rfl
  · split
    · rfl
    · dsimp only
      rw [rest_onSession, rest_raiseStage, rest_settle, rest_seekDrillTrunk, rest_drillOutputs]
      split
      · exact rest_retuneDrill _
      · exact rest_releaseDrillTrunk _

theorem beginStage_session {s : State} {d : Session} {k : Nat} {c : StageCopy} (hd : s.dsq.session = some d) (hc : d.stages[k]? = some c) :
    ∃ e, (s.beginStage k).dsq.session = some e ∧ e.fixed = ({ s.stageBegun d k c with announced := true } : Session).fixed := by
  let a : State := s.withSession (some (s.stageBegun d k c))
  let b : State := ((if a.stageSpeaks then a.retuneDrill else a.releaseDrillTrunk).drillOutputs.seekDrillTrunk.settle).raiseStage
  have hsess : b.sess = a.sess := by
    show (((if a.stageSpeaks then a.retuneDrill else a.releaseDrillTrunk).drillOutputs.seekDrillTrunk.settle).raiseStage).sess = _
    rw [sess_raiseStage, sess_settle, sess_seekDrillTrunk, sess_drillOutputs]
    split
    · exact sess_retuneDrill _
    · exact sess_releaseDrillTrunk _
  obtain ⟨e, he, hfixed⟩ := session_of_sess hsess (d := s.stageBegun d k c) rfl
  have hbegun : s.beginStage k = b.onSession fun d => { d with announced := true } := by
    unfold State.beginStage
    rw [hd]
    dsimp only
    rw [hc]
  refine ⟨{ e with announced := true }, ?_, congrArg (fun d : Session => { d with announced := true }) hfixed⟩
  rw [hbegun]
  unfold State.onSession State.withSession
  rw [he]
  rfl

/-- What of a session is settled as it begins a stage. -/
def Session.course (d : Session) : Session :=
  { d with ackAt := 0, signal := .silent, nextChange := none, announced := false, timing := .before, baselines := [], results := [], drops := 0 }

theorem course_of_fixed {e d : Session} (h : e.fixed = d.fixed) : e.course = d.course := by
  have h' := congrArg Session.course h
  exact h'

theorem stageBegun_course (s : State) (d : Session) (k : Nat) (c : StageCopy) :
    (s.stageBegun d k c).course = ({ d with stage := k, stageSince := s.now } : Session).course := by
  unfold State.stageBegun
  dsimp only
  split <;> rfl

theorem sess_takeResult (s : State) (l : Nat) (r : TestResult) (cause : Option AbortCause) : (s.takeResult l r cause).sess = s.sess := by
  unfold State.takeResult State.raiseTestEnd
  dsimp only
  split
  · rw [sess_raise]
    rfl
  · rfl

theorem sess_enterDiscovery (s : State) (l : Nat) : (s.enterDiscovery l).sess = s.sess := by
  obtain ⟨table, h⟩ := refreshDegraded_shape (s.setLine l (s.discoveringLine (s.lineAt l))) l
  rw [enterDiscovery_eq, h]
  rfl

theorem sess_abortTest (s : State) (l : Nat) (cause : AbortCause) : (s.abortTest l cause).sess = s.sess := by
  unfold State.abortTest
  dsimp only
  split
  · rfl
  · split
    · split
      · exact sess_takeResult ..
      · exact sess_takeResult ..
    · rw [sess_enterDiscovery]
      exact sess_takeResult ..

theorem enterRunning_rest (s : State) : s.enterRunning.rest = s.rest := by
  unfold State.enterRunning
  split
  · rfl
  · dsimp only
    rw [beginStage_rest, rest_settle, rest_claimDrill, rest_onSession, rest_foldl fun s l => rest_abortTest s l .drill]
    rfl

theorem drillZones_of_base {s t : State} (h : t.base = s.base) (b : List Nat) : t.drillZones b = s.drillZones b := by
  have h' := congrArg (fun u : State => u.drillZones b) h
  exact h'

theorem now_of_base {s t : State} (h : t.base = s.base) : t.now = s.now := by
  have h' := congrArg State.now h
  exact h'

/-- A session that begins to run: its start, its first stage and the zones of its building. -/
theorem enterRunning_course {s : State} {d : Session} {c : StageCopy} (hd : s.dsq.session = some d) (hc : d.stages[0]? = some c) :
    ∃ e, s.enterRunning.dsq.session = some e ∧
      e.course = ({ d with running := true, start := s.campus, stage := 0, stageSince := s.now,
                           zones := s.drillZones d.building } : Session).course := by
  let a : State := s.withSession (some { d with running := true, start := s.campus })
  let b : State := (allLines.filter fun l => d.building.contains l).foldl (fun s l => s.abortTest l .drill) a
  let zs := b.drillZones d.building
  let v : State := ((b.onSession fun d => { d with zones := zs }).claimDrill (zs.map Prod.fst)).settle
  have hbrest : b.rest = s.rest := rest_foldl (fun s l => rest_abortTest s l .drill) _ a
  have hvrest : v.rest = s.rest := by
    show (((b.onSession fun d => { d with zones := zs }).claimDrill (zs.map Prod.fst)).settle).rest = _
    rw [rest_settle, rest_claimDrill, rest_onSession, hbrest]
  obtain ⟨e, he, hefixed⟩ := session_of_sess (s := a) (t := b) (sess_foldl (fun s l => sess_abortTest s l .drill) _ a) rfl
  have hvsess : v.sess = (b.onSession fun d => { d with zones := zs }).sess := by
    show (((b.onSession fun d => { d with zones := zs }).claimDrill (zs.map Prod.fst)).settle).sess = _
    rw [sess_settle, sess_claimDrill]
  have hb : (b.onSession fun d => { d with zones := zs }).dsq.session = some { e with zones := zs } := by
    unfold State.onSession State.withSession
    rw [he]
    rfl
  obtain ⟨g, hg, hgfixed⟩ := session_of_sess hvsess hb
  have hgd : g.fixed = ({ d with running := true, start := s.campus, zones := zs } : Session).fixed :=
    hgfixed.trans (congrArg (fun d : Session => { d with zones := zs }) hefixed)
  have hstages : g.stages = d.stages := by
    have h' := congrArg Session.stages hgd
    exact h'
  obtain ⟨x, hx, hxfixed⟩ := beginStage_session hg (k := 0) (c := c) (hstages ▸ hc)
  have hbegun : s.enterRunning = v.beginStage 0 := by
    unfold State.enterRunning
    rw [hd]
  have hnow : v.now = s.now := now_of_base (base_of_rest hvrest)
  have hzs : zs = s.drillZones d.building := drillZones_of_base (base_of_rest hbrest) _
  refine ⟨x, hbegun ▸ hx, ?_⟩
  calc x.course = (v.stageBegun g 0 c).course := course_of_fixed (d := { v.stageBegun g 0 c with announced := true }) hxfixed
    _ = ({ g with stage := 0, stageSince := v.now } : Session).course := stageBegun_course v g 0 c
    _ = ({ d with running := true, start := s.campus, zones := zs, stage := 0, stageSince := v.now } : Session).course :=
      congrArg (fun d : Session => ({ d with stage := 0, stageSince := v.now } : Session).course) hgd
    _ = _ := by rw [hnow, hzs]

end Sys2Proof.Machine
end

