-- ==== Sys2Proof/Proofs/PanelInputs.lean ====
section
/-! The panel's inputs (O50): raw levels, debounce and wiring, and what each debounced input sets going. -/

set_option autoImplicit false

namespace Sys2Proof.Machine

open Sys2Proof

/-! ### Levels and circuits (R148 to R150) -/

theorem pnl_restingLaw {s : State} (h : s.restingLaw) (x : Pnl) : ({ s with pnl := x } : State).restingLaw :=
  restingLaw_of_eq h rfl rfl rfl rfl

theorem finish_pnlNoticed {s : State} (h : s.restingLaw) (x : Pnl) (k : NoticeKind) (d : Detail) :
    finish (({ s with pnl := x } : State).raise k d) = .next (({ s with pnl := x } : State).noticed k d) :=
  finish_unsettled h rfl rfl

theorem execInputRawChange_eq {s : State} (h : s.restingLaw) (i : PanelInput) (raw : RawLevel) :
    execInputRawChange i raw s = .next { s with pnl := s.pnl.setInput i ((s.pnl.input i).shows raw s.now) } := by
  unfold execInputRawChange
  split
  · exact finish_eq_self (pnl_restingLaw h _)
  · rfl

theorem setInput_input (x : Pnl) (i : PanelInput) : x.setInput i (x.input i) = x := by cases i <;> rfl

theorem shows_other {x : InputSt} {raw : RawLevel} (h : raw ≠ x.raw) (now : Nat) :
    x.shows raw now =
      { x with raw := raw, levelSince := now
               circuitSince := if (raw = .broken ↔ x.raw = .broken) then x.circuitSince else now } := by
  unfold InputSt.shows
  rw [if_neg h]
  simp only [decide_eq_decide]

/-- A level that differs and has stood for the debounce time is taken. -/
theorem debounceInput_due {s : State} {x : InputSt} {i : PanelInput} {v : Bool} (hx : x = s.pnl.input i) (hsampled : s.pnl.sampleUntil = none)
    (hfault : x.fault = false) (hraw : x.raw = if v then .active else .inactive) (hdebounced : x.debounced = !v)
    (hdue : x.levelSince + 8 * s.drillSet.debounce ≤ s.now) :
    s.debounceInput i = ({ s with pnl := s.pnl.setInput i { x with debounced := v } } : State).inputChanged i v := by
  subst hx
  have htoward : (s.pnl.input i).toward = some v := by
    unfold InputSt.toward
    rw [hfault, hraw, hdebounced]
    cases v <;> rfl
  have hguard : (!s.pnl.sampling && s.reached ((s.pnl.input i).levelSince + s.debounce)) = true := by
    rw [Pnl.sampling, hsampled, State.reached, State.debounce, decide_eq_true hdue]
    rfl
  unfold State.debounceInput
  dsimp only
  rw [htoward]
  exact if_pos hguard

theorem execWiringStateChange_due {s : State} {i : PanelInput} {x : InputSt} (h : s.ready) (hsampled : s.pnl.sampleUntil = none)
    (hx : x = s.pnl.input i) (hwires : x.fault = true ↔ x.raw ≠ .broken) (hdue : x.circuitSince + 8 * s.drillSet.debounce ≤ s.now) {u : Pnl}
    (hu : u = s.pnl.setInput i { x with fault := !x.fault, levelSince := s.now }) :
    execWiringStateChange i s = .next (({ s with pnl := u } : State).noticed .panel (.panel .trouble u.state u.causes)) := by
  subst hx hu
  have hguard : ((s.pnl.input i).rewires && !s.pnl.sampling && s.reached ((s.pnl.input i).circuitSince + s.debounce)) = true := by
    rw [Pnl.sampling, hsampled, State.reached, State.debounce, decide_eq_true hdue, InputSt.rewires]
    cases hfault : (s.pnl.input i).fault <;> simp [hfault] at hwires <;> simp [hwires]
  unfold execWiringStateChange
  rw [event_powered _ h.2]
  unfold State.rewireInput
  dsimp only
  rw [if_pos hguard]
  exact finish_pnlNoticed h.1 _ _ _

/-! ### The alarm's inputs (R152 to R154) -/

section
variable {s : State} {x : InputSt} {v : Bool} (h : s.ready) (hsampled : s.pnl.sampleUntil = none) (hfault : x.fault = false)
  (hraw : x.raw = if v then .active else .inactive) (hdebounced : x.debounced = !v)
  (hdue : x.levelSince + 8 * s.drillSet.debounce ≤ s.now)
include h hsampled hfault hraw hdebounced hdue

theorem execDebounceExpiry_due {i : PanelInput} (hx : x = s.pnl.input i) :
    execDebounceExpiry i s = finish (({ s with pnl := s.pnl.setInput i { x with debounced := v } } : State).inputChanged i v) := by
  unfold execDebounceExpiry
  rw [event_powered _ h.2, debounceInput_due hx hsampled hfault hraw hdebounced hdue]

end

theorem rest_enterRestoring_atOnce {s : State} (again : Bool) (h : s.drillSet.restoreDelay = 0) :
    (s.enterRestoring again).rest = ({ s with pnl := { s.pnl with state := .normal, restoreAt := none, alarmSet := [] } } : State).rest := by
  have hrestored (t : State) :
      t.restored.rest = ({ t with pnl := { t.pnl with state := .normal, restoreAt := none, alarmSet := [] } } : State).rest := by
    unfold State.restored State.setPanel State.raisePanel
    dsimp only
    rw [rest_releaseZones, rest_raise]
  have hkept {t u : State} (htu : t.rest = u.rest) :
      ({ t with pnl := { t.pnl with state := .normal, restoreAt := none, alarmSet := [] } } : State).rest =
        ({ u with pnl := { u.pnl with state := .normal, restoreAt := none, alarmSet := [] } } : State).rest := by
    have h' := congrArg (fun x : State => ({ x with pnl := { x.pnl with state := .normal, restoreAt := none, alarmSet := [] } } : State)) htu
    exact h'
  unfold State.enterRestoring
  dsimp only
  rw [if_pos h, hrestored]
  refine (hkept (rest_releaseNow ..)).trans ?_
  let u : State := { s with pnl := { s.pnl with restoreAt := some (s.now + 8000 * s.drillSet.restoreDelay) } }
  have hset : (u.setPanel .restoring .restoring).rest = ({ u with pnl := { u.pnl with state := .restoring } } : State).rest := rest_raise ..
  split
  · exact (hkept (rest_claimAlarm ..)).trans ((hkept hset).trans rfl)
  · exact (hkept hset).trans rfl

theorem enterRestoring_later {s : State} (again : Bool) (h : 0 < s.drillSet.restoreDelay) :
    s.enterRestoring again =
      (fun w : State => if again then w.reclaim else w)
        (({ s with pnl := { s.pnl with restoreAt := some (s.now + 8000 * s.drillSet.restoreDelay) } } : State).setPanel .restoring
          .restoring) := by
  unfold State.enterRestoring
  dsimp only
  rw [if_neg (by omega)]

section
variable {s : State} {x : InputSt} {v : Bool} (h : s.ready) (hsampled : s.pnl.sampleUntil = none) (hfault : x.fault = false)
  (hraw : x.raw = if v then .active else .inactive) (hdebounced : x.debounced = !v)
  (hdue : x.levelSince + 8 * s.drillSet.debounce ≤ s.now)
include h hsampled hfault hraw hdebounced hdue

theorem debounceExpiry_trouble (hx : x = s.pnl.trouble) :
    exec (.debounceExpiry .trouble) s =
      .next (({ s with pnl := { s.pnl with trouble := { x with debounced := v } } } : State).noticed .panel
        (.panel .trouble s.pnl.state ({ s.pnl with trouble := { x with debounced := v } } : Pnl).causes)) := by
  refine (execDebounceExpiry_due h hsampled hfault hraw hdebounced hdue (i := .trouble) hx).trans ?_
  exact finish_pnlNoticed h.1 _ _ _

theorem debounceExpiry_alarmBegins (hx : x = s.pnl.alarm) (hv : v = true) (hnormal : s.pnl.state = .normal) :
    ∃ t : State, exec (.debounceExpiry .alarm) s = .next t ∧ t.pnl.alarm = { x with debounced := true } ∧
      t.pnl.state = .alarm ∧ t.pnl.alarmSet = (allZones.filter fun z => (s.zoneCfg z).alarmFollow) ∧ t.base = s.base := by
  subst hv
  let u : State := { s with pnl := { s.pnl with alarm := { x with debounced := true } } }
  obtain ⟨t, ht⟩ := finish_next u.alarmRises
  obtain ⟨b, hb⟩ := alarmRises_normal_pnl (s := u) hnormal
  have hpnl := (records_of_rest (finish_rest ht)).1
  refine ⟨t, (execDebounceExpiry_due h hsampled hfault hraw hdebounced hdue (i := .alarm) hx).trans ht, ?_, ?_, ?_,
    (finish_base ht).trans (base_alarmRises u)⟩
  all_goals rw [hpnl, hb]
  rfl

theorem debounceExpiry_alarmAgain (hx : x = s.pnl.alarm) (hv : v = true) (hstate : s.pnl.state = .restoring) {u : Pnl}
    (hu : u = { s.pnl with alarm := { x with debounced := true }, state := .alarm, restoreAt := none }) :
    exec (.debounceExpiry .alarm) s = .next (({ s with pnl := u } : State).noticed .panel (.panel .alarm .alarm u.causes)) := by
  subst hv hu
  refine (execDebounceExpiry_due h hsampled hfault hraw hdebounced hdue (i := .alarm) hx).trans ?_
  show finish (State.alarmRises _) = _
  unfold State.alarmRises
  dsimp only [Pnl.setInput]
  rw [hstate]
  exact finish_pnlNoticed h.1 _ _ _

theorem debounceExpiry_alarmEnds (hx : x = s.pnl.alarm) (hv : v = false) {u : Pnl} {w : State}
    (hu : u = { s.pnl with alarm := { x with debounced := false }, state := .restoring
                           restoreAt := some (s.now + 8000 * s.drillSet.restoreDelay) })
    (hw : w = ({ s with pnl := u } : State).raise .panel (.panel .restoring .restoring u.causes)) :
    (s.pnl.state = .alarm → 0 < s.drillSet.restoreDelay → exec (.debounceExpiry .alarm) s = .next w.rejudge) ∧
    (s.pnl.state = .silenced → 0 < s.drillSet.restoreDelay →
      exec (.debounceExpiry .alarm) s = .next (w.claimAlarm s.pnl.alarmSet).done) ∧
    (s.pnl.state = .alarm ∨ s.pnl.state = .silenced → s.drillSet.restoreDelay = 0 →
      ∃ t : State, exec (.debounceExpiry .alarm) s = .next t ∧
        t.pnl = { u with state := .normal, restoreAt := none, alarmSet := [] } ∧ t.base = s.base) ∧
    (s.pnl.state = .normal ∨ s.pnl.state = .restoring →
      exec (.debounceExpiry .alarm) s = .next { s with pnl := { s.pnl with alarm := { x with debounced := false } } }) := by
  subst hv
  let a : State := { s with pnl := { s.pnl with alarm := { x with debounced := false } } }
  have hexec : exec (.debounceExpiry .alarm) s = finish a.alarmFalls :=
    execDebounceExpiry_due h hsampled hfault hraw hdebounced hdue (i := .alarm) hx
  have hfalls : a.alarmFalls =
      match s.pnl.state with | .alarm => a.enterRestoring false | .silenced => a.enterRestoring true | _ => a := rfl
  have hset : w = ({ a with pnl := { a.pnl with restoreAt := some (a.now + 8000 * a.drillSet.restoreDelay) } } : State).setPanel .restoring
      .restoring := by
    subst hu hw
    rfl
  rw [hexec, hfalls]
  refine ⟨fun hstate hlater => ?_, fun hstate hlater => ?_, fun hstate hnow => ?_, fun hstate => ?_⟩
  · rw [hstate]
    dsimp only
    rw [enterRestoring_later (s := a) false hlater, ← hset, hw]
    exact finish_pnlNoticed h.1 _ _ _
  · rw [hstate]
    dsimp only
    rw [enterRestoring_later (s := a) true hlater, ← hset, hw, hu]
    rfl
  · have hatOnce (again : Bool) : ∃ t : State, finish (a.enterRestoring again) = .next t ∧
        t.pnl = { u with state := .normal, restoreAt := none, alarmSet := [] } ∧ t.base = s.base := by
      obtain ⟨t, ht⟩ := finish_next (a.enterRestoring again)
      have hrest := (finish_rest ht).trans (rest_enterRestoring_atOnce again hnow)
      refine ⟨t, ht, (records_of_rest hrest).1.trans ?_, (base_of_rest hrest).trans rfl⟩
      rw [hu]
    rcases hstate with hstate | hstate <;> rw [hstate]
    · exact hatOnce false
    · exact hatOnce true
  · rcases hstate with hstate | hstate <;> rw [hstate] <;> exact finish_eq_self (pnl_restingLaw h.1 _)

theorem debounceExpiry_silenced (hx : x = s.pnl.silence) (hv : v = true) (hstate : s.pnl.state = .alarm) :
    exec (.debounceExpiry .silence) s =
      .next (({ s with pnl := { s.pnl with silence := { x with debounced := true }, state := .silenced } } : State).noticed .panel
        (.panel .silenced .silenced ({ s.pnl with silence := { x with debounced := true }, state := .silenced } : Pnl).causes)) := by
  subst hv
  refine (execDebounceExpiry_due h hsampled hfault hraw hdebounced hdue (i := .silence) hx).trans ?_
  show finish (State.silenceRises _) = _
  unfold State.silenceRises
  dsimp only [Pnl.setInput]
  rw [hstate]
  exact finish_pnlNoticed h.1 _ _ _

/-- SILENCE in ALARM-SILENCED: by its mode, its edge or its level sounds the alarm again. -/
theorem debounceExpiry_silenceOther (hx : x = s.pnl.silence) {u : Pnl} (hu : u = { s.pnl with silence := { x with debounced := v } }) :
    (s.pnl.state = .silenced → s.drillSet.silence = (if v then .edge else .level) →
      exec (.debounceExpiry .silence) s =
        .next ((({ s with pnl := { u with state := .alarm } } : State).raise .panel
          (.panel .alarm .alarm ({ u with state := .alarm } : Pnl).causes)).claimAlarm s.pnl.alarmSet).done) ∧
    (s.pnl.state = .normal ∨ s.pnl.state = .restoring ∨ (s.pnl.state = .alarm ∧ v = false) ∨
      (s.pnl.state = .silenced ∧ s.drillSet.silence = (if v then .level else .edge)) →
      exec (.debounceExpiry .silence) s = .next { s with pnl := u }) := by
  have hexec := execDebounceExpiry_due h hsampled hfault hraw hdebounced hdue (i := .silence) hx
  have hself : finish ({ s with pnl := u } : State) = .next { s with pnl := u } := finish_eq_self (pnl_restingLaw h.1 _)
  rw [← show u = s.pnl.setInput .silence { x with debounced := v } from hu] at hexec
  have hrises : ({ s with pnl := u } : State).silenceRises =
      match s.pnl.state, s.drillSet.silence with
      | .alarm, _ => ({ s with pnl := u } : State).setPanel .silenced .silenced
      | .silenced, .edge => (({ s with pnl := u } : State).setPanel .alarm .alarm).reclaim
      | _, _ => { s with pnl := u } := by rw [hu]; rfl
  have hfalls : ({ s with pnl := u } : State).silenceFalls =
      match s.pnl.state, s.drillSet.silence with
      | .silenced, .level => (({ s with pnl := u } : State).setPanel .alarm .alarm).reclaim
      | _, _ => { s with pnl := u } := by rw [hu]; rfl
  rw [show exec (.debounceExpiry .silence) s = _ from hexec]
  have hset : u.alarmSet = s.pnl.alarmSet := by rw [hu]
  cases v with
  | true =>
    show _ ∧ (_ → finish (State.silenceRises _) = _)
    refine ⟨fun hstate hmode => ?_, fun hwhy => ?_⟩
    · show finish (State.silenceRises _) = _
      rw [hrises, hstate, hmode, ← hset]
      rfl
    · rw [hrises]
      obtain hstate | hstate | ⟨_, hv⟩ | ⟨hstate, hmode⟩ := hwhy
      · rw [hstate]
        exact hself
      · rw [hstate]
        exact hself
      · exact absurd hv.symm Bool.false_ne_true
      · rw [hstate, hmode]
        exact hself
  | false =>
    refine ⟨fun hstate hmode => ?_, fun hwhy => ?_⟩
    · show finish (State.silenceFalls _) = _
      rw [hfalls, hstate, hmode, ← hset]
      rfl
    · show finish (State.silenceFalls _) = _
      rw [hfalls]
      obtain hstate | hstate | ⟨hstate, _⟩ | ⟨hstate, hmode⟩ := hwhy
      · rw [hstate]
        exact hself
      · rw [hstate]
        exact hself
      · rw [hstate]
        exact hself
      · rw [hstate, hmode]
        exact hself

/-! ### DRILL-ACK (R160, R166) -/

theorem debounceExpiry_drillAck (hx : x = s.pnl.drillAck) {u : State}
    (hu : u = { s with pnl := { s.pnl with drillAck := { x with debounced := v } } }) :
    exec (.debounceExpiry .drillAck) s = finish (u.inputChanged .drillAck v) := by
  subst hu
  exact execDebounceExpiry_due h hsampled hfault hraw hdebounced hdue (i := .drillAck) hx

end

theorem drillAckRises_running {u : State} {d : Session} (hd : u.dsq.session = some d) (hrunning : d.running = true) :
    u.drillAckRises = u := by
  unfold State.drillAckRises
  rw [hd]
  exact if_pos hrunning

theorem drillAckRises_starts {u : State} {d : Session} (hd : u.dsq.session = some d) (hidle : d.running = false) :
    u.drillAckRises = u.enterRunning := by
  unfold State.drillAckRises
  rw [hd]
  exact if_neg (Bool.eq_false_iff.mp hidle)

theorem drillAckRises_refused {u : State} {c : RefuseCause} (hd : u.dsq.session = none) (hc : u.panelDrillRefused = some c) :
    u.drillAckRises = u.raise .drill (.drill (.refused c)) := by
  unfold State.drillAckRises
  rw [hd]
  dsimp only
  rw [hc]

/-- Why the panel's own drill is refused (R160): the first of STATE, TROUBLE and NO-PROGRAM that holds. -/
theorem panelDrillRefused_eq (u : State) :
    (u.pnl.state ≠ .normal → u.panelDrillRefused = some .state) ∧
    (u.pnl.state = .normal → u.pnl.causes ≠ [] → u.panelDrillRefused = some .trouble) ∧
    (u.pnl.state = .normal → u.pnl.causes = [] → u.store.live.drl.stagesOf u.drillSet.program = [] →
      u.panelDrillRefused = some .noProgram) ∧
    (u.pnl.state = .normal → u.pnl.causes = [] → u.store.live.drl.stagesOf u.drillSet.program ≠ [] → u.panelDrillRefused = none) := by
  unfold State.panelDrillRefused Pnl.troubled
  refine ⟨fun hstate => if_pos hstate, fun hstate hcauses => ?_, fun hstate hcauses hstages => ?_, fun hstate hcauses hstages => ?_⟩
  all_goals rw [if_neg (not_not.mpr hstate)]
  · rw [if_pos (by simpa using hcauses)]
  · rw [hcauses, hstages]
    rfl
  · rw [hcauses, if_neg (by simp), if_neg (by simpa using hstages)]

theorem course_eq_iff {e d : Session} (h : e.course = d.course) :
    e.running = d.running ∧ e.start = d.start ∧ e.stage = d.stage ∧ e.stageSince = d.stageSince ∧ e.zones = d.zones ∧
      e.program = d.program ∧ e.origin = d.origin ∧ e.building = d.building ∧ e.stages = d.stages := by
  unfold Session.course at h
  injection h with hrunning horigin hprogram _ hstages hbuilding hstart _ hzones hstage hsince
  exact ⟨hrunning, hstart, hstage, hsince, hzones, hprogram, horigin, hbuilding, hstages⟩

/-- A drill that begins to run, as the state shows it once the command is carried out. -/
theorem finish_enterRunning {u t : State} {d : Session} {c : StageCopy} (hd : u.dsq.session = some d) (hc : d.stages[0]? = some c)
    (ht : finish u.enterRunning = .next t) :
    t.pnl = u.pnl ∧ t.base = u.base ∧ ∃ e, t.dsq.session = some e ∧ e.running = true ∧ e.start = u.campus ∧ e.stage = 0 ∧
      e.stageSince = u.now ∧ e.zones = u.drillZones d.building ∧ e.program = d.program ∧ e.origin = d.origin ∧ e.building = d.building ∧
      e.stages = d.stages := by
  have hrest := (finish_rest ht).trans (enterRunning_rest u)
  obtain ⟨g, hg, hcourse⟩ := enterRunning_course hd hc
  have hsess : t.sess = u.enterRunning.sess := by
    rw [← Host.Outcome.next.inj ht]
    exact sess_settle u.enterRunning
  obtain ⟨e, he, hfixed⟩ := session_of_sess hsess hg
  exact ⟨(records_of_rest hrest).1, base_of_rest hrest, e, he, course_eq_iff ((course_of_fixed hfixed).trans hcourse)⟩

/-- A program with stages: the copy of them has a first one. -/
theorem copyStages_first {s : State} {n : Nat} (h : s.store.live.drl.stagesOf n ≠ []) : ∃ c, (s.copyStages n)[0]? = some c := by
  unfold State.copyStages
  cases hstages : s.store.live.drl.stagesOf n with
  | nil => exact absurd hstages h
  | cons g gs => exact ⟨_, rfl⟩

section
variable {s : State} {x : InputSt} {v : Bool} (h : s.ready) (hsampled : s.pnl.sampleUntil = none) (hfault : x.fault = false)
  (hraw : x.raw = if v then .active else .inactive) (hdebounced : x.debounced = !v)
  (hdue : x.levelSince + 8 * s.drillSet.debounce ≤ s.now)
include h hsampled hfault hraw hdebounced hdue

theorem debounceExpiry_ackRises (hx : x = s.pnl.drillAck) (hv : v = true) {u : State} {n : Nat}
    (hu : u = { s with pnl := { s.pnl with drillAck := { x with debounced := true } } }) (hn : n = s.drillSet.program) :
    (∀ d, s.dsq.session = some d → d.running = true → exec (.debounceExpiry .drillAck) s = .next u) ∧
    (∀ d c, s.dsq.session = some d → d.running = false → d.stages[0]? = some c →
      ∃ (t : State) (e : Session), exec (.debounceExpiry .drillAck) s = .next t ∧ t.pnl = u.pnl ∧ t.base = s.base ∧
        t.dsq.session = some e ∧ e.running = true ∧ e.start = s.campus ∧ e.stage = 0 ∧ e.stageSince = s.now ∧
        e.zones = s.drillZones d.building ∧ e.program = d.program ∧ e.origin = d.origin ∧ e.building = d.building ∧
        e.stages = d.stages) ∧
    (s.dsq.session = none →
      (s.pnl.state ≠ .normal → exec (.debounceExpiry .drillAck) s = .next (u.noticed .drill (.drill (.refused .state)))) ∧
      (s.pnl.state = .normal → s.pnl.causes ≠ [] →
        exec (.debounceExpiry .drillAck) s = .next (u.noticed .drill (.drill (.refused .trouble)))) ∧
      (s.pnl.state = .normal → s.pnl.causes = [] → s.store.live.drl.stagesOf n = [] →
        exec (.debounceExpiry .drillAck) s = .next (u.noticed .drill (.drill (.refused .noProgram)))) ∧
      (s.pnl.state = .normal → s.pnl.causes = [] → s.store.live.drl.stagesOf n ≠ [] →
        ∃ (t : State) (e : Session), exec (.debounceExpiry .drillAck) s = .next t ∧ t.pnl = { u.pnl with drillReq := true } ∧
          t.base = s.base ∧ t.dsq.session = some e ∧ e.running = true ∧ e.origin = .panel ∧ e.program = n ∧
          e.start = s.campus ∧ e.stage = 0 ∧ e.stageSince = s.now ∧ e.building = (s.program n).building ∧
          e.zones = s.drillZones (s.program n).building)) := by
  subst hv
  have hexec : exec (.debounceExpiry .drillAck) s = finish u.drillAckRises :=
    debounceExpiry_drillAck h hsampled hfault hraw hdebounced hdue hx hu
  have hbase : u.base = s.base := hu ▸ rfl
  have hsession : u.dsq.session = s.dsq.session := hu ▸ rfl
  have hstate : u.pnl.state = s.pnl.state := hu ▸ rfl
  have hcauses : u.pnl.causes = s.pnl.causes := by
    subst hu hx
    rfl
  have hstages : u.store.live.drl.stagesOf u.drillSet.program = s.store.live.drl.stagesOf n := by
    subst hu hn
    rfl
  obtain ⟨hrefState, hrefTrouble, hrefProgram, hnotRefused⟩ := panelDrillRefused_eq u
  rw [hstate, hcauses, hstages] at *
  have hrefused {c : RefuseCause} (hnone : s.dsq.session = none) (hc : u.panelDrillRefused = some c) :
      exec (.debounceExpiry .drillAck) s = .next (u.noticed .drill (.drill (.refused c))) := by
    rw [hexec, drillAckRises_refused (hsession.trans hnone) hc, hu]
    exact finish_pnlNoticed h.1 _ _ _
  refine ⟨fun d hd hrunning => ?_, fun d c hd hidle hc => ?_, fun hnone => ⟨fun hs => hrefused hnone (hrefState hs),
    fun hs ht => hrefused hnone (hrefTrouble hs ht), fun hs ht hp => hrefused hnone (hrefProgram hs ht hp), fun hs ht hp => ?_⟩⟩
  · rw [hexec, drillAckRises_running (hsession.trans hd) hrunning, hu]
    exact finish_eq_self (pnl_restingLaw h.1 _)
  · obtain ⟨t, ht⟩ := finish_next u.enterRunning
    obtain ⟨hpnl, htbase, e, he, hfacts⟩ := finish_enterRunning (hsession.trans hd) hc ht
    rw [drillAckRises_starts (hsession.trans hd) hidle] at hexec
    subst hu
    exact ⟨t, e, hexec.trans ht, hpnl, htbase, he, hfacts⟩
  · let w : State := (u.createSession .panel n (u.program n).building).setDrillReq true
    have hrises : u.drillAckRises = w.enterRunning := by
      unfold State.drillAckRises
      rw [hsession, hnone]
      dsimp only
      rw [hnotRefused hs ht hp]
      subst hu hn
      rfl
    obtain ⟨c, hc⟩ := copyStages_first (s := u) (n := n) (by subst hu; exact hp)
    obtain ⟨t, htf⟩ := finish_next w.enterRunning
    obtain ⟨hpnl, htbase, e, he, hrunning, hstart, hstage, hsince, hzones, hprogram, horigin, hbuilding, _⟩ :=
      finish_enterRunning (u := w) rfl hc htf
    rw [hrises] at hexec
    subst hu
    exact ⟨t, e, hexec.trans htf, hpnl, htbase, he, hrunning, horigin, hprogram, hstart, hstage, hsince, hbuilding, hzones⟩

theorem debounceExpiry_ackFalls (hx : x = s.pnl.drillAck) (hv : v = false) {u : State}
    (hu : u = { s with pnl := { s.pnl with drillAck := { x with debounced := false } } }) :
    (s.dsq.session = none → exec (.debounceExpiry .drillAck) s = .next u) ∧
    (∀ d, s.dsq.session = some d → d.running = false → exec (.debounceExpiry .drillAck) s = .next u) ∧
    (∀ d, s.dsq.session = some d → d.running = true →
      ∃ (t : State) (r : DrillRecord), exec (.debounceExpiry .drillAck) s = .next t ∧ t.dsq.session = none ∧
        t.pnl = { u.pnl with drillReq := false } ∧ t.base = s.base ∧
        t.dsq.records = (r :: s.dsq.records).take 16 ∧ r.reason = .abortedPanel ∧ r.num = s.dsq.nextRecord ∧
        r.program = d.program ∧ r.start = d.start ∧ r.finish = s.campus) := by
  subst hv
  have hexec : exec (.debounceExpiry .drillAck) s = finish u.drillAckFalls :=
    debounceExpiry_drillAck h hsampled hfault hraw hdebounced hdue hx hu
  have hsession : u.dsq.session = s.dsq.session := hu ▸ rfl
  have hself : finish u = .next u := hu ▸ finish_eq_self (pnl_restingLaw h.1 _)
  have hbase : u.base = s.base := hu ▸ rfl
  have hfalls : u.drillAckFalls =
      match s.dsq.session with
      | some d => if d.running then u.endSession .abortedPanel else u
      | none => u := by rw [← hsession]; rfl
  rw [hexec, hfalls]
  refine ⟨fun hnone => ?_, fun d hd hidle => ?_, fun d hd hrunning => ?_⟩
  · rw [hnone]
    exact hself
  · rw [hd]
    dsimp only
    rw [if_neg (Bool.eq_false_iff.mp hidle)]
    exact hself
  · obtain ⟨t, ht⟩ := finish_next (u.endSession .abortedPanel)
    obtain ⟨hpnl, _, hrecords⟩ := records_of_rest (finish_rest ht)
    obtain ⟨hreq, r, hr, hreason, hnum, hprogram, hstart, hfinish, _⟩ := endSession_record (hsession.trans hd) hpnl hrecords
    have htbase : t.base = s.base := (finish_base ht).trans ((base_endSession u _).trans hbase)
    rw [hd]
    dsimp only
    rw [if_pos hrunning]
    subst hu
    exact ⟨t, r, ht, finish_vacant (endSession_vacant ..) ht, hreq, htbase, hr, hreason, hnum, hprogram, hstart, hfinish⟩

end

/-- Settles O50: levels and circuits by their own equations, each debounced input by what it sets going. -/
theorem panelInputsDebounced : Obligations.PanelInputsDebounced := by
  refine ⟨fun s i raw h => ⟨fun hraw => ?_, fun x hraw hx => ?_⟩, fun s x v h hsampled hfault hraw hdebounced hdue => ?_,
    fun s i x h hsampled hx hwires hdue => ⟨_, rfl, execWiringStateChange_due h hsampled hx hwires hdue rfl⟩⟩
  · refine (execInputRawChange_eq h i raw).trans ?_
    rw [InputSt.shows, if_pos hraw, setInput_input]
  · refine (execInputRawChange_eq h i raw).trans ?_
    rw [shows_other hraw, ← hx]
  · exact ⟨debounceExpiry_trouble h hsampled hfault hraw hdebounced hdue, debounceExpiry_alarmBegins h hsampled hfault hraw hdebounced hdue,
      fun u hx hv hstate => debounceExpiry_alarmAgain h hsampled hfault hraw hdebounced hdue hx hv hstate,
      fun u w hx hv => debounceExpiry_alarmEnds h hsampled hfault hraw hdebounced hdue hx hv,
      debounceExpiry_silenced h hsampled hfault hraw hdebounced hdue,
      fun u hx => debounceExpiry_silenceOther h hsampled hfault hraw hdebounced hdue hx,
      fun u n hx hv => debounceExpiry_ackRises h hsampled hfault hraw hdebounced hdue hx hv,
      fun u hx hv => debounceExpiry_ackFalls h hsampled hfault hraw hdebounced hdue hx hv⟩

end Sys2Proof.Machine
end

