-- ==== Sys2Proof/Proofs/ZoneClaims.lean ====
section
/-! How claims are answered, what an ALARM claim takes, how a zone returns, is lost and is gained: the first half of O44. -/

set_option autoImplicit false

namespace Sys2Proof.Machine

open Sys2Proof

/-! ### Answers to claims (R98, R99) -/

section
variable {s : State} {z prio : Nat} {policy : Policy} {atPause : Bool}

theorem answers_unavailable (h : (s.zoneAt z).available = false) :
    s.pageAnswer prio z = .excluded .line ∧ s.bellAnswer policy atPause z = .drop .line := by
  unfold State.pageAnswer State.bellAnswer
  rw [h]
  exact ⟨rfl, rfl⟩

theorem pageAnswer_notAllowed (h : (s.zoneAt z).available = true) (hcfg : (s.zoneCfg z).pageAllowed = false) :
    s.pageAnswer prio z = .excluded .notAllowed := by
  unfold State.pageAnswer
  rw [h, hcfg]
  rfl

theorem pageAnswer_holder (h : (s.zoneAt z).available = true) (hcfg : (s.zoneCfg z).pageAllowed = true) :
    s.pageAnswer prio z =
      match (s.zoneAt z).holder with
      | .none => .taken
      | .bell _ => if prio ≤ 5 then .waiting else .taken
      | .page _ q => if prio ≤ 5 then .waiting else if q ≤ 5 then .taken else .waiting
      | .drill _ => if prio = 7 then .taken else .excluded .drill
      | .alarm => if prio = 7 && decide (s.pnl.state = .silenced) then .taken else .excluded .alarm := by
  unfold State.pageAnswer
  rw [h, hcfg]
  rfl

theorem bellAnswer_holder (h : (s.zoneAt z).available = true) :
    s.bellAnswer policy atPause z =
      match (s.zoneAt z).holder with
      | .none => .take
      | .bell _ => .defer .bell
      | .page _ q =>
        if 6 ≤ q then .drop .emergencyPage
        else
          match policy with
          | .immediate => .take
          | .pause => if atPause then .take else .defer .pauseWait
          | .finish => .defer .page
      | .drill _ => .drop .drill
      | .alarm => .drop .alarm := by
  unfold State.bellAnswer
  rw [h]
  rfl

/-- A page's answer by the zone's holder and the two priorities. -/
theorem pageAnswers (h : (s.zoneAt z).available = true) (hcfg : (s.zoneCfg z).pageAllowed = true) :
    ((s.zoneAt z).holder = .none → s.pageAnswer prio z = .taken) ∧
    (∀ j, (s.zoneAt z).holder = .bell j → s.pageAnswer prio z = if prio ≤ 5 then .waiting else .taken) ∧
    (∀ n q, (s.zoneAt z).holder = .page n q → s.pageAnswer prio z = if 6 ≤ prio ∧ q ≤ 5 then .taken else .waiting) ∧
    (∀ m, (s.zoneAt z).holder = .drill m → s.pageAnswer prio z = if prio = 7 then .taken else .excluded .drill) ∧
    ((s.zoneAt z).holder = .alarm →
      s.pageAnswer prio z = if prio = 7 ∧ s.pnl.state = .silenced then .taken else .excluded .alarm) := by
  rw [pageAnswer_holder h hcfg]
  refine ⟨fun hh => ?_, fun j hh => ?_, fun n q hh => ?_, fun m hh => ?_, fun hh => ?_⟩ <;> rw [hh]
  · dsimp only
    by_cases hprio : prio ≤ 5
    · rw [if_pos hprio, if_neg (by omega)]
    · rw [if_neg hprio]
      by_cases hq : q ≤ 5
      · rw [if_pos hq, if_pos (by omega)]
      · rw [if_neg hq, if_neg (by omega)]
  · simp only [Bool.and_eq_true, decide_eq_true_eq]

/-- A bell part's answer by the zone's holder and the part's policy. -/
theorem bellAnswers (h : (s.zoneAt z).available = true) :
    ((s.zoneAt z).holder = .none → s.bellAnswer policy atPause z = .take) ∧
    (∀ j, (s.zoneAt z).holder = .bell j → s.bellAnswer policy atPause z = .defer .bell) ∧
    (∀ n q, (s.zoneAt z).holder = .page n q →
      s.bellAnswer policy atPause z =
        if 6 ≤ q then .drop .emergencyPage
        else if policy = .immediate ∨ policy = .pause ∧ atPause = true then .take
        else if policy = .pause then .defer .pauseWait else .defer .page) ∧
    (∀ m, (s.zoneAt z).holder = .drill m → s.bellAnswer policy atPause z = .drop .drill) ∧
    ((s.zoneAt z).holder = .alarm → s.bellAnswer policy atPause z = .drop .alarm) := by
  rw [bellAnswer_holder h]
  refine ⟨fun hh => ?_, fun j hh => ?_, fun n q hh => ?_, fun m hh => ?_, fun hh => ?_⟩ <;> rw [hh]
  dsimp only
  split
  · rfl
  · cases policy with
    | immediate | finish => rfl
    | pause => cases atPause <;> rfl

end

/-! ### An ALARM claim (R99) -/

/-- A zone's record once ALARM has taken it. -/
def ZoneRec.alarmed (r : ZoneRec) : ZoneRec :=
  { r with holder := .alarm, suspended := .none, bellUntil := none, trunk := none, waits := [] }

theorem claimAlarm_zoneAt (zs : List Nat) (s : State) (z : Nat) :
    (s.claimAlarm zs).zoneAt z = if z ∈ zs ∧ (s.zoneAt z).holder ≠ .alarm then (s.zoneAt z).alarmed else s.zoneAt z := by
  induction zs generalizing s with
  | nil => simp [State.claimAlarm]
  | cons y ys ih =>
    have hstep : s.claimAlarm (y :: ys) =
        (if (s.zoneAt y).holder = .alarm then s else s.takeZone .alarm y).claimAlarm ys := rfl
    rw [hstep, ih]
    by_cases hheld : (s.zoneAt y).holder = .alarm
    · rw [if_pos hheld]
      by_cases hzy : z = y
      · subst hzy
        simp [hheld]
      · simp [hzy]
    · rw [if_neg hheld, takeZone_alarm_zoneAt]
      by_cases hzy : z = y
      · subst hzy
        simp [hheld, ZoneRec.alarmed]
      · simp [hzy]

/-! ### The pages of a zone that returns (R100) -/

theorem returnZone_page {s : State} {z n q : Nat} {p : Page} (hsusp : (s.zoneAt z).suspended = .page n q) (hp : s.page? n = some p)
    (honAir : p.onAir = true) :
    (s.returnZone z).page? n =
      some (if p.suspended.contains z then
        { p with suspended := p.suspended.filter (· ≠ z), held := setBelow 32 (z :: p.held) } else p) := by
  have hreturn : s.returnZone z =
      ((((s.setZone z { s.zoneAt z with holder := .page n q, suspended := .none }).pageReturned n z).setWanted z none
        p.trunk).refreshReasons z) := by
    unfold State.returnZone
    dsimp only
    rw [hsusp]
    dsimp only
    rw [hp]
    dsimp only
    rw [if_pos honAir]
  have hpgc := (refreshReasons_pgc (((s.setZone z { s.zoneAt z with holder := .page n q, suspended := .none }).pageReturned n z).setWanted z
    none p.trunk) z).trans (setWanted_pgc ..)
  rw [hreturn, page_of_pgc hpgc]
  unfold State.pageReturned
  rw [updatePage_page _ _ _ _ (fun p => by split <;> rfl), if_pos rfl]
  rw [show (s.setZone z _).page? n = some p from hp]
  rfl

/-! ### The agenda of zones that return (R101) -/

/-- What is put on the agenda once. -/
def withWork (ws : List Work) (w : Work) : List Work := if w ∈ ws then ws else ws ++ [w]

theorem later_withWork (s : State) (w : Work) : (s.later w).ztc.agenda = withWork s.ztc.agenda w := agenda_later s w

theorem seekDrillTrunk_agenda (s : State) :
    s.seekDrillTrunk.ztc.agenda = if s.drillNeeds then withWork s.ztc.agenda .pass else s.ztc.agenda := by
  unfold State.seekDrillTrunk
  split
  · exact later_withWork ..
  · rfl

theorem refreshReasons_agenda (s : State) (z : Nat) : (s.refreshReasons z).ztc.agenda = s.ztc.agenda := by rw [refreshReasons_ztc]; rfl

theorem returnZone_agenda_other {s : State} {z : Nat} (h : ∀ m, (s.zoneAt z).suspended ≠ .drill m) :
    (s.returnZone z).ztc.agenda = s.ztc.agenda := by
  have hset (r : ZoneRec) (b t : Option Nat) : ((s.setZone z r).setWanted z b t).ztc.agenda = s.ztc.agenda := setWanted_agenda ..
  unfold State.returnZone
  dsimp only
  split
  · split
    · split
      · rw [refreshReasons_agenda, setWanted_agenda]
        rfl
      · exact hset ..
    · exact hset ..
  next m hm => exact absurd hm (h m)
  · split <;> exact hset ..
  · exact hset ..

/-- What decides whether a drill needs a trunk: the session, the trunks and the zones that the drill holds. -/
theorem drillNeeds_of_eq {s t : State} (hdsq : t.dsq = s.dsq) (hztc : ∀ z, (t.zoneAt z).holder = (s.zoneAt z).holder)
    (htrunks : t.ztc.trunks = s.ztc.trunks) : t.drillNeeds = s.drillNeeds ∧ t.drillTrunk = s.drillTrunk := by
  have htrunk : t.drillTrunk = s.drillTrunk := by
    unfold State.drillTrunk State.trunkAt
    rw [htrunks]
  refine ⟨?_, htrunk⟩
  unfold State.drillNeeds State.stageSpeaks
  rw [hdsq, htrunk]
  simp only [hztc]

theorem later_drill (s : State) (w : Work) : (s.later w).drillNeeds = s.drillNeeds := by
  obtain ⟨ws, h⟩ := later_shape s w
  rw [h]
  rfl

theorem setWanted_trunks (s : State) (z : Nat) (b t : Option Nat) : (s.setWanted z b t).ztc.trunks = s.ztc.trunks := by
  obtain ⟨zones, lines, h⟩ := setWanted_shape s z b t
  rw [h]

theorem setWanted_dsq (s : State) (z : Nat) (b t : Option Nat) : (s.setWanted z b t).dsq = s.dsq := by
  obtain ⟨zones, lines, h⟩ := setWanted_shape s z b t
  rw [h]

theorem refreshReasons_dsq (s : State) (z : Nat) : (s.refreshReasons z).dsq = s.dsq := by
  rw [refreshReasons_told]
  exact List.foldlRecOn (motive := fun u : State => u.dsq = s.dsq) _ _ rfl fun u hu _ _ => hu

theorem later_trunks (s : State) (w : Work) : (s.later w).ztc.trunks = s.ztc.trunks := by
  obtain ⟨ws, h⟩ := later_shape s w
  rw [h]

theorem later_dsq (s : State) (w : Work) : (s.later w).dsq = s.dsq := by
  obtain ⟨ws, h⟩ := later_shape s w
  rw [h]

theorem seekDrillTrunk_trunks (s : State) : s.seekDrillTrunk.ztc.trunks = s.ztc.trunks ∧ s.seekDrillTrunk.dsq = s.dsq := by
  unfold State.seekDrillTrunk
  split
  · exact ⟨later_trunks .., later_dsq ..⟩
  · exact ⟨rfl, rfl⟩

theorem returnZone_trunks (s : State) (z : Nat) : (s.returnZone z).ztc.trunks = s.ztc.trunks ∧ (s.returnZone z).dsq = s.dsq := by
  have hset (r : ZoneRec) (b t : Option Nat) :
      ((s.setZone z r).setWanted z b t).ztc.trunks = s.ztc.trunks ∧ ((s.setZone z r).setWanted z b t).dsq = s.dsq :=
    ⟨setWanted_trunks .., setWanted_dsq ..⟩
  unfold State.returnZone
  dsimp only
  split
  · split
    · split
      · refine ⟨?_, ?_⟩
        · rw [refreshReasons_ztc]
          exact (setWanted_trunks ..).trans rfl
        · rw [refreshReasons_dsq, setWanted_dsq]
          rfl
      · exact hset ..
    · exact hset ..
  · split
    · split
      · rw [later_trunks, later_dsq]
        exact hset ..
      · rw [(seekDrillTrunk_trunks _).1, (seekDrillTrunk_trunks _).2, later_trunks, later_dsq]
        exact hset ..
    · exact hset ..
  · split <;> exact hset ..
  · exact hset ..

theorem returnZone_agenda_drill {s : State} {z : Nat} {m : Medium} {d : Session} (h : (s.zoneAt z).suspended = .drill m)
    (hd : s.dsq.session = some d) (hrunning : d.running = true) :
    (s.returnZone z).ztc.agenda =
      if s.drillNeeds = false ∧ (s.returnZone z).drillNeeds = true then withWork (withWork s.ztc.agenda .release) .pass
      else withWork s.ztc.agenda .release := by
  let a : State := s.setZone z { s.zoneAt z with holder := .drill m, suspended := .none }
  let b : State := ((a.setWanted z (a.drillBell m) (a.drillSpeaker m)).waitersLose z .drill).later .release
  have hreturn : s.returnZone z = if s.drillNeeds then b else b.seekDrillTrunk := by
    unfold State.returnZone
    dsimp only
    rw [h]
    dsimp only
    rw [hd, Option.map_some, Option.getD_some, if_pos hrunning]
  have hb : b.ztc.agenda = withWork s.ztc.agenda .release := by
    show (State.later _ _).ztc.agenda = _
    rw [later_withWork]
    exact congrArg (withWork · .release) (setWanted_agenda ..)
  have hneeds : b.seekDrillTrunk.drillNeeds = b.drillNeeds := by
    unfold State.seekDrillTrunk
    split
    · exact later_drill ..
    · rfl
  rw [hreturn]
  by_cases hneeded : s.drillNeeds = true
  · rw [if_pos hneeded, if_neg (by simp [hneeded]), hb]
  · rw [if_neg hneeded, seekDrillTrunk_agenda, hneeds, hb]
    simp [Bool.eq_false_iff.mpr hneeded]

theorem holdersEnd_agenda (s : State) (zs : List Nat) :
    (s.holdersEnd zs).ztc.agenda = withWork (.serve zs none true :: (zs.foldl State.returnZone s).ztc.agenda) .release := by
  unfold State.holdersEnd
  rw [later_withWork]
  rfl

theorem returns_suspended (s : State) (y z : Nat) :
    ((s.returnZone y).zoneAt z).suspended = if z = y then .none else (s.zoneAt z).suspended := by
  rw [returnZone_zoneAt]
  split
  · exact (returned_kept ..).2.1
  · rfl

theorem returns_agenda_other {zs : List Nat} {s : State} (h : ∀ z m, z ∈ zs → (s.zoneAt z).suspended ≠ .drill m) :
    (zs.foldl State.returnZone s).ztc.agenda = s.ztc.agenda := by
  induction zs generalizing s with
  | nil => rfl
  | cons y ys ih =>
    rw [List.foldl_cons, ih, returnZone_agenda_other fun m => h y m List.mem_cons_self]
    intro z m hz
    rw [returns_suspended]
    split
    · exact nofun
    · exact h z m (List.mem_cons_of_mem y hz)

/-- Whether a drill stands suspended in one of these zones. -/
def State.drillUnder (s : State) (zs : List Nat) : Prop := ∃ z m, z ∈ zs ∧ (s.zoneAt z).suspended = .drill m

theorem drillUnder_cons {s : State} {y : Nat} {ys : List Nat} (h : s.drillUnder (y :: ys))
    (hy : ∀ m, (s.zoneAt y).suspended ≠ .drill m) : (s.returnZone y).drillUnder ys := by
  obtain ⟨z, m, hz, hsusp⟩ := h
  obtain rfl | hz := List.mem_cons.mp hz
  · exact absurd hsusp (hy m)
  · refine ⟨z, m, hz, ?_⟩
    rw [returns_suspended, if_neg]
    · exact hsusp
    · rintro rfl
      exact hy m hsusp

theorem drillNeeds_false {s : State} {d : Session} (hd : s.dsq.session = some d)
    (h : d.soundingStage = false ∨ s.drillTrunk ≠ none) : s.drillNeeds = false := by
  unfold State.drillNeeds State.stageSpeaks
  rw [hd, Option.any_some]
  obtain hquiet | htrunk := h
  · rw [hquiet]
    rfl
  · rw [Option.isNone_eq_false_iff.mpr (Option.isSome_iff_ne_none.mpr htrunk), Bool.and_false]

theorem drillTrunk_returnZone (s : State) (y : Nat) : (s.returnZone y).drillTrunk = s.drillTrunk := by
  unfold State.drillTrunk State.trunkAt
  rw [(returnZone_trunks s y).1]

/-- A drill that needs no trunk: its return sets a release going, and no grant pass. -/
theorem returns_agenda_quiet {zs : List Nat} {s : State} {d : Session} (hd : s.dsq.session = some d) (hrunning : d.running = true)
    (hquiet : d.soundingStage = false ∨ s.drillTrunk ≠ none)
    (hagenda : s.ztc.agenda = [.release] ∨ s.ztc.agenda = [] ∧ s.drillUnder zs) :
    (zs.foldl State.returnZone s).ztc.agenda = [.release] := by
  induction zs generalizing s with
  | nil =>
    obtain h | ⟨_, z, m, hz, _⟩ := hagenda
    · exact h
    · exact nomatch hz
  | cons y ys ih =>
    have hd' : (s.returnZone y).dsq.session = some d := by rw [(returnZone_trunks s y).2, hd]
    have hquiet' : d.soundingStage = false ∨ (s.returnZone y).drillTrunk ≠ none := by rw [drillTrunk_returnZone]; exact hquiet
    refine ih hd' hquiet' ?_
    by_cases hdrill : ∃ m, (s.zoneAt y).suspended = .drill m
    · obtain ⟨m, hm⟩ := hdrill
      rw [returnZone_agenda_drill hm hd hrunning, if_neg (by simp [drillNeeds_false hd' hquiet'])]
      refine .inl ?_
      obtain h | ⟨h, _⟩ := hagenda <;> rw [h] <;> rfl
    · rw [not_exists] at hdrill
      rw [returnZone_agenda_other hdrill]
      exact hagenda.imp_right fun ⟨h, hunder⟩ => ⟨h, drillUnder_cons hunder hdrill⟩

/-- A zone with a speaker that returns to the drill makes its sounding stage need a trunk. -/
theorem drillNeeds_returnZone {s : State} {d : Session} {z : Nat} {m : Medium} (hd : s.dsq.session = some d) (hrunning : d.running = true)
    (hsounding : d.soundingStage = true) (htrunk : s.drillTrunk = none) (hz : z < 32) (hsusp : (s.zoneAt z).suspended = .drill m)
    (hspeaks : mediumSpeaks m = true) : (s.returnZone z).drillNeeds = true := by
  have hholder : ((s.returnZone z).zoneAt z).holder = .drill m := by
    rw [returnZone_zoneAt, if_pos rfl]
    unfold State.returned
    dsimp only
    rw [hsusp]
    dsimp only
    rw [hd, Option.map_some, Option.getD_some, if_pos hrunning]
  unfold State.drillNeeds State.stageSpeaks
  rw [(returnZone_trunks s z).2, hd, Option.any_some, hsounding, drillTrunk_returnZone, htrunk, Bool.true_and, Option.isNone_none, Bool.and_true,
    List.any_eq_true]
  refine ⟨z, List.mem_range.mpr hz, ?_⟩
  rw [hholder]
  exact hspeaks

/-- Whether a sounding drill with a speaker stands suspended in one of these zones. -/
def State.speakerUnder (s : State) (zs : List Nat) : Prop :=
  ∃ z m, z ∈ zs ∧ z < 32 ∧ (s.zoneAt z).suspended = .drill m ∧ mediumSpeaks m = true

/-- The agenda while zones return to a drill without the trunk that it needs: once it needs one, a grant pass is to come. -/
def State.passComes (s : State) (zs : List Nat) : Prop :=
  s.ztc.agenda = [.release, .pass] ∨
    (s.ztc.agenda = [] ∨ s.ztc.agenda = [.release]) ∧ s.drillNeeds = false ∧ s.speakerUnder zs

theorem speakerUnder_cons {s : State} {y : Nat} {ys : List Nat} (h : s.speakerUnder (y :: ys))
    (hy : ∀ m, (s.zoneAt y).suspended = .drill m → mediumSpeaks m = false ∨ 32 ≤ y) : (s.returnZone y).speakerUnder ys := by
  obtain ⟨z, m, hz, hlt, hsusp, hspeaks⟩ := h
  obtain rfl | hz := List.mem_cons.mp hz
  · obtain hnot | hout := hy m hsusp
    · exact absurd (hspeaks.symm.trans hnot) Bool.noConfusion
    · omega
  · refine ⟨z, m, hz, hlt, ?_, hspeaks⟩
    rw [returns_suspended, if_neg]
    · exact hsusp
    · rintro rfl
      obtain hnot | hout := hy m hsusp
      · exact absurd (hspeaks.symm.trans hnot) Bool.noConfusion
      · omega

/-- Only a suspended drill returns a zone to the drill. -/
theorem returned_drill {s : State} {z : Nat} {m : Medium} (h : (s.returned z).holder = .drill m) : (s.zoneAt z).suspended = .drill m := by
  unfold State.returned at h
  dsimp only at h
  split at h
  · split at h
    · split at h <;> exact nomatch h
    · exact nomatch h
  next k hk =>
    split at h
    · rw [hk, Holder.drill.inj h]
    · exact nomatch h
  · split at h <;> exact nomatch h
  · exact nomatch h

theorem drillNeeds_returnZone_other {s : State} {y : Nat} (hy : ∀ m, (s.zoneAt y).suspended ≠ .drill m) (h : s.drillNeeds = false) :
    (s.returnZone y).drillNeeds = false := by
  rw [Bool.eq_false_iff] at h ⊢
  refine fun hneeds => h ?_
  unfold State.drillNeeds State.stageSpeaks at hneeds ⊢
  rw [(returnZone_trunks s y).2, drillTrunk_returnZone, Bool.and_eq_true, Bool.and_eq_true, List.any_eq_true] at hneeds
  obtain ⟨⟨hsounding, z, hz, hholder⟩, htrunk⟩ := hneeds
  rw [returnZone_zoneAt] at hholder
  have hnot : z ≠ y := by
    rintro rfl
    rw [if_pos rfl] at hholder
    cases hr : (s.returned z).holder with
    | drill m => exact hy m (returned_drill hr)
    | none | bell | page | alarm =>
      rw [hr] at hholder
      exact nomatch hholder
  rw [if_neg hnot] at hholder
  rw [hsounding, htrunk, Bool.true_and, Bool.and_true, List.any_eq_true]
  exact ⟨z, hz, hholder⟩

theorem passComes_returnZone {s : State} {d : Session} (hd : s.dsq.session = some d) (hrunning : d.running = true)
    (hsounding : d.soundingStage = true) (htrunk : s.drillTrunk = none) {y : Nat} {ys : List Nat} (h : s.passComes (y :: ys)) :
    (s.returnZone y).passComes ys := by
  by_cases hdrill : ∃ m, (s.zoneAt y).suspended = .drill m
  · obtain ⟨m, hm⟩ := hdrill
    have hagenda := returnZone_agenda_drill hm hd hrunning
    obtain hpass | ⟨hwaits, hquiet, hunder⟩ := h
    · refine .inl ?_
      rw [hagenda, hpass]
      split <;> rfl
    · have hrelease : withWork s.ztc.agenda .release = [.release] := by
        obtain h | h := hwaits <;> rw [h] <;> rfl
      cases hneeds : (s.returnZone y).drillNeeds with
      | true =>
        refine .inl ?_
        rw [hagenda, if_pos ⟨hquiet, hneeds⟩, hrelease]
        rfl
      | false =>
        refine .inr ⟨.inr ?_, hneeds, speakerUnder_cons hunder fun k hk => ?_⟩
        · rw [hagenda, if_neg (by simp [hneeds]), hrelease]
        · by_contra! hbad
          have hlt : y < 32 := by omega
          have := drillNeeds_returnZone hd hrunning hsounding htrunk hlt hk (by simpa using hbad.1)
          exact Bool.noConfusion (hneeds.symm.trans this)
  · rw [not_exists] at hdrill
    unfold State.passComes
    rw [returnZone_agenda_other hdrill]
    exact h.imp_right fun ⟨hwaits, hquiet, hunder⟩ =>
      ⟨hwaits, drillNeeds_returnZone_other hdrill hquiet, speakerUnder_cons hunder fun k hk => absurd hk (hdrill k)⟩

theorem returns_agenda_pass {zs : List Nat} {s : State} {d : Session} (hd : s.dsq.session = some d) (hrunning : d.running = true)
    (hsounding : d.soundingStage = true) (htrunk : s.drillTrunk = none) (h : s.passComes zs) :
    (zs.foldl State.returnZone s).ztc.agenda = [.release, .pass] := by
  induction zs generalizing s with
  | nil =>
    obtain h | ⟨_, _, z, m, hz, _⟩ := h
    · exact h
    · exact nomatch hz
  | cons y ys ih =>
    exact ih (by rw [(returnZone_trunks s y).2, hd]) (by rw [drillTrunk_returnZone, htrunk])
      (passComes_returnZone hd hrunning hsounding htrunk h)

/-! ### Zones lost and gained (R102) -/

theorem gainZone_eq (s : State) (z : Nat) :
    s.gainZone z =
      (if (s.zoneAt z).holder = .none then (s.setZone z { s.zoneAt z with available := true }).later (.offer [z])
        else s.setZone z { s.zoneAt z with available := true }) := rfl

theorem gainZone_zoneAt (s : State) (z y : Nat) :
    (s.gainZone z).zoneAt y = if y = z then { s.zoneAt z with available := true } else s.zoneAt y := by
  rw [gainZone_eq]
  split
  · rw [zoneAt_later]
    exact zoneAt_setZone ..
  · exact zoneAt_setZone ..

theorem gainZone_agenda (s : State) (z : Nat) :
    ((s.zoneAt z).holder = .none → Work.offer [z] ∈ (s.gainZone z).ztc.agenda) ∧
      ((s.zoneAt z).holder ≠ .none → (s.gainZone z).ztc.agenda = s.ztc.agenda) := by
  rw [gainZone_eq]
  refine ⟨fun h => ?_, fun h => ?_⟩
  · rw [if_pos h, later_withWork]
    unfold withWork
    split
    next hmem => exact hmem
    · simp
  · rw [if_neg h]
    rfl

/-- A zone that is not available any more, with nothing else changed. -/
def State.unavailable (s : State) (z : Nat) : State := s.setZone z { s.zoneAt z with available := false }

/-- A bell part and a page suspended under it lose a zone. -/
def State.bellCut (s : State) (j z : Nat) : State :=
  match (s.zoneAt z).suspended with
  | .page n _ => (s.dropPart j z .line).pageLoses n z .line
  | _ => s.dropPart j z .line

/-- A zone whose line has been lost, before its waits are judged. -/
def State.deprived (s : State) (z : Nat) : State :=
  match (s.zoneAt z).holder with
  | .bell j =>
    ((s.unavailable z).bellCut j z |>.setZone z
      { ((s.unavailable z).bellCut j z).zoneAt z with holder := .none, suspended := .none }).setWanted z none none
  | .page n _ => ((s.unavailable z).pageLoses n z .line).returnZone z
  | _ => s.unavailable z

theorem unavailable_zoneAt (s : State) (z y : Nat) :
    (s.unavailable z).zoneAt y = if y = z then { s.zoneAt z with available := false } else s.zoneAt y := zoneAt_setZone ..

theorem bellCut_zoneAt (s : State) (j z y : Nat) : (s.bellCut j z).zoneAt y = s.zoneAt y := by
  unfold State.bellCut
  split
  · exact zoneAt_of_ztc (dropPart_ztc ..) y
  · exact zoneAt_of_ztc (dropPart_ztc ..) y

theorem loseZone_eq (s : State) (z : Nat) :
    s.loseZone z = (((s.deprived z).clearWaits z .line).waitersLose z .line).later .release := by
  have hholder : ((s.unavailable z).zoneAt z).holder = (s.zoneAt z).holder := by rw [unavailable_zoneAt, if_pos rfl]
  unfold State.loseZone State.deprived
  dsimp only
  rw [show s.setZone z { s.zoneAt z with available := false } = s.unavailable z from rfl, hholder]
  cases (s.zoneAt z).holder with
  | none | drill | alarm | page => rfl
  | bell j =>
    unfold State.bellCut
    cases ((s.unavailable z).zoneAt z).suspended <;> rfl

theorem loseZone_zoneAt (s : State) (z y : Nat) :
    (s.loseZone z).zoneAt y = if y = z then { (s.deprived z).zoneAt z with waits := [] } else (s.deprived z).zoneAt y := by
  rw [loseZone_eq, zoneAt_later]
  exact clearWaits_zoneAt ..

theorem deprived_bell {s : State} {z n : Nat} (h : (s.zoneAt z).holder = .bell n) (y : Nat) :
    (s.deprived z).zoneAt y =
      if y = z then
        { s.zoneAt z with available := false, holder := .none, suspended := .none, bellUntil := none, trunk := none }
      else s.zoneAt y := by
  unfold State.deprived
  rw [h]
  dsimp only
  rw [setWanted_zoneAt, zoneAt_setZone, zoneAt_setZone, if_pos rfl, bellCut_zoneAt, bellCut_zoneAt, unavailable_zoneAt, unavailable_zoneAt,
    if_pos rfl]
  split <;> rfl

theorem deprived_page {s : State} {z n q : Nat} (h : (s.zoneAt z).holder = .page n q) :
    s.deprived z = ((s.unavailable z).pageLoses n z .line).returnZone z := by
  unfold State.deprived
  rw [h]

theorem deprived_other {s : State} {z : Nat} (hbell : ∀ n, (s.zoneAt z).holder ≠ .bell n) (hpage : ∀ n q, (s.zoneAt z).holder ≠ .page n q) :
    s.deprived z = s.unavailable z := by
  unfold State.deprived
  cases hh : (s.zoneAt z).holder with
  | bell n => exact absurd hh (hbell n)
  | page n q => exact absurd hh (hpage n q)
  | none | drill | alarm => rfl

theorem deprived_zoneAt_other (s : State) {z y : Nat} (hy : y ≠ z) : (s.deprived z).zoneAt y = s.zoneAt y := by
  have hfree : (s.unavailable z).zoneAt y = s.zoneAt y := by rw [unavailable_zoneAt, if_neg hy]
  cases hh : (s.zoneAt z).holder with
  | bell n => rw [deprived_bell hh, if_neg hy]
  | page n q =>
    rw [deprived_page hh, returnZone_zoneAt, if_neg hy]
    exact hfree
  | none | drill | alarm =>
    rw [deprived_other (by rw [hh]; exact nofun) (by rw [hh]; exact nofun)]
    exact hfree

theorem deprived_unavailable (s : State) (z : Nat) : ((s.deprived z).zoneAt z).available = false := by
  have hfree : (s.unavailable z).zoneAt z = { s.zoneAt z with available := false } := by rw [unavailable_zoneAt, if_pos rfl]
  cases hh : (s.zoneAt z).holder with
  | bell n => rw [deprived_bell hh, if_pos rfl]
  | page n q =>
    rw [deprived_page hh, returnZone_zoneAt, if_pos rfl, (returned_kept ..).1]
    exact congrArg ZoneRec.available hfree
  | none | drill | alarm =>
    rw [deprived_other (by rw [hh]; exact nofun) (by rw [hh]; exact nofun), hfree]

/-- Every part of this job in this zone has been dropped for this reason. -/
def State.droppedAt (s : State) (n z : Nat) (r : DropReason) : Prop :=
  ∀ j, j ∈ s.bds.queue → j.num = n → ∀ p, p ∈ j.parts → p.zone = z → p.state = .dropped r

theorem droppedAt_part {s : State} {n z : Nat} {r : DropReason} (h : s.droppedAt n z r) {p : Part} (hp : s.part? n z = some p) :
    p.state = .dropped r := by
  obtain ⟨j, hj, hz⟩ := Option.bind_eq_some_iff.mp hp
  exact h j (List.mem_of_find?_eq_some hj) (by simpa using List.find?_some hj) p (List.mem_of_find?_eq_some hz)
    (by simpa using List.find?_some hz)

/-- A part is dropped in every job of its number, and the jobs with parts left stay. -/
theorem dropPart_queue {s : State} {n z : Nat} (r : DropReason) {j : Job} {p : Part} (hj : s.job? n = some j) (hp : j.part? z = some p)
    (hlive : p.ended = false) :
    (s.dropPart n z r).bds.queue = ((s.updatePart n z (Part.drop r)).bds.queue).filter fun j => !j.parts.all Part.ended := by
  have hcount (t : State) : t.countDrillDrop.bds = t.bds := by
    unfold State.countDrillDrop
    split
    · split <;> rfl
    · rfl
  unfold State.dropPart
  rw [hj]
  dsimp only
  rw [hp]
  dsimp only
  rw [hlive, if_neg Bool.false_ne_true]
  unfold State.leaveJobs
  dsimp only
  split
  · rw [hcount]
    rfl
  · rfl

theorem mem_updatePart {s : State} {n z : Nat} {f : Part → Part} {j : Job} (h : j ∈ (s.updatePart n z f).bds.queue) :
    ∃ i, i ∈ s.bds.queue ∧ j = if i.num = n then i.update z f else i := by
  obtain ⟨i, hi, rfl⟩ := List.mem_map.mp h
  exact ⟨i, hi, rfl⟩

theorem dropPart_droppedAt {s : State} {n z : Nat} {r : DropReason} {j : Job} {p : Part} (hj : s.job? n = some j) (hp : j.part? z = some p)
    (hlive : p.ended = false) : (s.dropPart n z r).droppedAt n z r := by
  intro i hi hnum q hq hzone
  rw [dropPart_queue r hj hp hlive] at hi
  obtain ⟨k, _, rfl⟩ := mem_updatePart (List.mem_filter.mp hi).1
  by_cases hk : k.num = n
  · rw [if_pos hk] at hq
    obtain ⟨x, _, rfl⟩ := List.mem_map.mp hq
    by_cases hx : x.zone = z
    · rw [if_pos hx]
      rfl
    · rw [if_neg hx] at hzone
      exact absurd hzone hx
  · rw [if_neg hk] at hnum
    exact absurd hnum hk

theorem droppedAt_dropPart {s : State} {n z : Nat} {r : DropReason} (h : s.droppedAt n z r) (m y : Nat) :
    (s.dropPart m y r).droppedAt n z r := by
  obtain hsame | ⟨j, p, hj, hp, hlive, _⟩ := dropPart_cases s m y r
  · rw [hsame]
    exact h
  · intro i hi hnum q hq hzone
    rw [dropPart_queue r hj hp hlive] at hi
    obtain ⟨k, hk, rfl⟩ := mem_updatePart (List.mem_filter.mp hi).1
    by_cases hkm : k.num = m
    · rw [if_pos hkm] at hnum hq
      obtain ⟨x, hx, rfl⟩ := List.mem_map.mp hq
      by_cases hxy : x.zone = y
      · rw [if_pos hxy]
        rfl
      · rw [if_neg hxy] at hzone ⊢
        exact h k hk hnum x hx hzone
    · rw [if_neg hkm] at hnum hq
      exact h k hk hnum q hq hzone

theorem droppedAt_of_bds {s t : State} (ht : t.bds = s.bds) {n z : Nat} {r : DropReason} (h : s.droppedAt n z r) : t.droppedAt n z r := by
  unfold State.droppedAt
  rw [ht]
  exact h

theorem setWanted_bds (s : State) (z : Nat) (b t : Option Nat) : (s.setWanted z b t).bds = s.bds := by
  obtain ⟨zones, lines, h⟩ := setWanted_shape s z b t
  rw [h]

theorem clearWaits_droppedAt {s : State} {n z : Nat} (h : s.droppedAt n z .line) : (s.clearWaits z .line).droppedAt n z .line := by
  unfold State.clearWaits
  dsimp only
  exact List.foldlRecOn (motive := fun u : State => u.droppedAt n z .line) _ _ (droppedAt_of_bds rfl h) fun u hu w _ =>
    droppedAt_dropPart hu w.job w.zone

theorem loseZone_droppedAt {s : State} {z n : Nat} (h : (s.zoneAt z).holder = .bell n) {j : Job} {p : Part} (hj : s.job? n = some j)
    (hp : j.part? z = some p) (hlive : p.ended = false) : (s.loseZone z).droppedAt n z .line := by
  have hcut : ((s.unavailable z).bellCut n z).droppedAt n z .line := by
    have hdrop : ((s.unavailable z).dropPart n z .line).droppedAt n z .line := dropPart_droppedAt (s := s.unavailable z) hj hp hlive
    unfold State.bellCut
    split
    · exact droppedAt_of_bds rfl hdrop
    · exact hdrop
  have hdeprived : (s.deprived z).droppedAt n z .line := by
    unfold State.deprived
    rw [h]
    exact droppedAt_of_bds (setWanted_bds ..) (droppedAt_of_bds rfl hcut)
  rw [loseZone_eq]
  obtain ⟨ws, hshape⟩ := later_shape (((s.deprived z).clearWaits z .line).waitersLose z .line) .release
  rw [hshape]
  exact droppedAt_of_bds rfl (clearWaits_droppedAt hdeprived)

/-- A page that has lost a zone, and holds it no more. -/
def Page.without (p : Page) (z : Nat) (r : LossReason) : Prop := z ∉ p.held ∧ (z, r) ∈ p.lost

theorem lose_kept (p : Page) (z : Nat) (r : LossReason) :
    (p.lose z r).held = p.held.filter (· ≠ z) ∧ (p.lose z r).lost = p.lost ++ [(z, r)] ∧ (p.lose z r).num = p.num := by
  unfold Page.lose
  dsimp only
  split <;> exact ⟨rfl, rfl, rfl⟩

theorem lose_without (p : Page) (z : Nat) (r : LossReason) : (p.lose z r).without z r := by
  obtain ⟨hheld, hlost, _⟩ := lose_kept p z r
  unfold Page.without
  rw [hheld, hlost]
  simp

theorem clearWaits_pgc (s : State) (z : Nat) (r : DropReason) : (s.clearWaits z r).pgc = s.pgc := by
  unfold State.clearWaits
  dsimp only
  exact List.foldlRecOn (motive := fun u : State => u.pgc = s.pgc) _ _ rfl fun u hu w _ => (dropPart_pgc ..).trans hu

theorem waitersLose_page (s : State) (z : Nat) (r : LossReason) (n : Nat) :
    (s.waitersLose z r).page? n = (s.page? n).map fun p => if p.onAir && p.waiting.contains z then p.lose z r else p :=
  find_page_map n _ (fun p => by split <;> simp [lose_kept]) _

theorem loseZone_page {s : State} {z n q : Nat} (hholder : (s.zoneAt z).holder = .page n q) (hsusp : (s.zoneAt z).suspended = .none)
    {p : Page} (hp : s.page? n = some p) (honAir : p.onAir = true) (hheld : z ∈ p.held) {p' : Page}
    (hp' : (s.loseZone z).page? n = some p') : p'.without z .line := by
  let a : State := (s.unavailable z).pageLoses n z .line
  have ha : a.page? n = some (p.lose z .line) := by
    have hconcerns : (p.onAir && p.concerns z) = true := by simp [honAir, Page.concerns, hheld]
    show (State.updatePage _ _ _).page? n = _
    rw [updatePage_page _ _ _ _ fun p => by split <;> simp [lose_kept], if_pos rfl]
    rw [show (s.unavailable z).page? n = some p from hp, Option.map_some, if_pos hconcerns]
  have hzone : (a.zoneAt z).suspended = .none := by
    show ((s.unavailable z).zoneAt z).suspended = _
    rw [unavailable_zoneAt, if_pos rfl]
    exact hsusp
  have hreturn : (a.returnZone z).pgc = a.pgc := by
    unfold State.returnZone
    dsimp only
    rw [hzone]
    exact setWanted_pgc ..
  have hcleared : ((s.deprived z).clearWaits z .line).page? n = some (p.lose z .line) := by
    rw [page_of_pgc (clearWaits_pgc ..), deprived_page hholder, page_of_pgc hreturn, ha]
  rw [loseZone_eq] at hp'
  obtain ⟨ws, hshape⟩ := later_shape (((s.deprived z).clearWaits z .line).waitersLose z .line) .release
  rw [hshape] at hp'
  have hlast := (waitersLose_page ((s.deprived z).clearWaits z .line) z .line n).symm.trans hp'
  rw [hcleared, Option.map_some] at hlast
  rw [← Option.some.inj hlast]
  split
  · exact lose_without ..
  · exact lose_without ..

/-! ### The clauses of O44 on claims, returns, loss and gain -/

theorem claimAlarm_takes (s : State) (zs : List Nat) :
    (∀ z, z ∈ zs → ((s.claimAlarm zs).zoneAt z).holder = .alarm) ∧
    (∀ z, z ∈ zs → (s.zoneAt z).holder ≠ .alarm →
      ((s.claimAlarm zs).zoneAt z).bellUntil = none ∧ ((s.claimAlarm zs).zoneAt z).trunk = none ∧
        ((s.claimAlarm zs).zoneAt z).waits = [] ∧ ((s.claimAlarm zs).zoneAt z).suspended = .none) ∧
    (∀ z, z ∉ zs → (s.claimAlarm zs).zoneAt z = s.zoneAt z) ∧ (s.claimAlarm zs).rest = s.rest := by
  refine ⟨fun z hz => ?_, fun z hz hother => ?_, fun z hz => ?_, rest_claimAlarm s zs⟩ <;> rw [claimAlarm_zoneAt]
  · by_cases hheld : (s.zoneAt z).holder = .alarm
    · rw [if_neg fun h => h.2 hheld]
      exact hheld
    · rw [if_pos ⟨hz, hheld⟩]
      rfl
  · rw [if_pos ⟨hz, hother⟩]
    exact ⟨rfl, rfl, rfl, rfl⟩
  · rw [if_neg fun h => hz h.1]

/-- A zone's record with nobody in the zone. -/
def ZoneRec.freed (r : ZoneRec) : ZoneRec := { r with holder := .none, suspended := .none, bellUntil := none, trunk := none }

section
variable {s : State} {z n q : Nat} {p : Page} {m : Medium} {d : Session}

theorem returned_onAir (hsusp : (s.zoneAt z).suspended = .page n q) (hp : s.page? n = some p) (honAir : p.onAir = true) :
    s.returned z =
      { s.zoneAt z with holder := .page n q, suspended := .none, bellUntil := none, trunk := p.trunk
                        waits := (s.zoneAt z).waits.map (waitUnder (.page n q)) } := by
  unfold State.returned
  dsimp only
  rw [hsusp]
  dsimp only
  rw [hp]
  exact if_pos honAir

theorem returned_offAir (hsusp : (s.zoneAt z).suspended = .page n q) (hp : s.page? n = some p) (hoff : p.onAir = false) :
    s.returned z = (s.zoneAt z).freed := by
  unfold State.returned
  dsimp only
  rw [hsusp]
  dsimp only
  rw [hp]
  exact if_neg (Bool.eq_false_iff.mp hoff)

theorem returned_running (hsusp : (s.zoneAt z).suspended = .drill m) (hd : s.dsq.session = some d) (hrunning : d.running = true) :
    s.returned z =
      { s.zoneAt z with holder := .drill m, suspended := .none, bellUntil := s.drillBell m, trunk := s.drillSpeaker m } := by
  unfold State.returned
  dsimp only
  rw [hsusp]
  dsimp only
  rw [hd, Option.map_some, Option.getD_some, if_pos hrunning]

theorem returned_vacant (hsusp : (s.zoneAt z).suspended = .drill m) (hnone : s.dsq.session = none) :
    s.returned z = (s.zoneAt z).freed := by
  unfold State.returned
  dsimp only
  rw [hsusp]
  dsimp only
  rw [hnone]
  rfl

theorem returned_alarm (hsusp : (s.zoneAt z).suspended = .alarm) :
    s.returned z =
      if s.pnl.state = .normal then (s.zoneAt z).freed
      else { s.zoneAt z with holder := .alarm, suspended := .none, bellUntil := none, trunk := none } := by
  unfold State.returned
  dsimp only
  rw [hsusp]
  rfl

end

theorem returnZone_returns {s : State} {z : Nat} {r u : ZoneRec} (hr : r = s.zoneAt z) (hu : u = (s.returnZone z).zoneAt z) :
    (∀ y, y ≠ z → (s.returnZone z).zoneAt y = s.zoneAt y) ∧ u.available = r.available ∧ u.suspended = .none ∧
    u.waits.map Wait.job = r.waits.map Wait.job ∧
    (r.suspended = .none → u.holder = .none ∧ u.bellUntil = none ∧ u.trunk = none) ∧
    (∀ n q p, r.suspended = .page n q → s.page? n = some p →
      (p.onAir = true →
        u.holder = .page n q ∧ u.bellUntil = none ∧ u.trunk = p.trunk ∧
        (z < 32 → z ∈ p.suspended → ∀ p', (s.returnZone z).page? n = some p' → z ∈ p'.held ∧ z ∉ p'.suspended)) ∧
      (p.onAir = false → u.holder = .none ∧ u.bellUntil = none ∧ u.trunk = none)) ∧
    (∀ m, r.suspended = .drill m →
      (∀ d, s.dsq.session = some d → d.running = true →
        u.holder = .drill m ∧ u.bellUntil = s.drillBell m ∧ u.trunk = s.drillSpeaker m) ∧
      (s.dsq.session = none → u.holder = .none)) ∧
    (r.suspended = .alarm →
      u.bellUntil = none ∧ u.trunk = none ∧ u.holder = (if s.pnl.state = .normal then .none else .alarm)) := by
  subst hr hu
  have hother (y : Nat) (hy : y ≠ z) : (s.returnZone z).zoneAt y = s.zoneAt y := by rw [returnZone_zoneAt, if_neg hy]
  have hself : (s.returnZone z).zoneAt z = s.returned z := by rw [returnZone_zoneAt, if_pos rfl]
  obtain ⟨havail, hgone, hjobs⟩ := returned_kept s z
  rw [hself]
  refine ⟨hother, havail, hgone, hjobs, fun hsusp => ?_, fun n q p hsusp hp => ⟨fun honAir => ⟨?_, ?_, ?_, fun hz hmem p' hp' => ?_⟩,
    fun hoff => ?_⟩, fun m hsusp => ⟨fun d hd hrunning => ?_, fun hnone => ?_⟩, fun hsusp => ?_⟩
  · rw [returned_none hsusp]
    exact ⟨rfl, rfl, rfl⟩
  iterate 3
    rw [returned_onAir hsusp hp honAir]
  · rw [returnZone_page hsusp hp honAir] at hp'
    rw [← Option.some.inj hp', if_pos (List.contains_iff_mem.mpr hmem)]
    exact ⟨mem_setBelow.mpr ⟨hz, List.mem_cons_self⟩, by simp⟩
  · rw [returned_offAir hsusp hp hoff]
    exact ⟨rfl, rfl, rfl⟩
  · rw [returned_running hsusp hd hrunning]
    exact ⟨rfl, rfl, rfl⟩
  · rw [returned_vacant hsusp hnone]
    rfl
  · rw [returned_alarm hsusp]
    split <;> exact ⟨rfl, rfl, rfl⟩

theorem holdersEnd_serves {s : State} (zs : List Nat) (hagenda : s.ztc.agenda = []) :
    ((∀ z m, z ∈ zs → (s.zoneAt z).suspended ≠ .drill m) → (s.holdersEnd zs).ztc.agenda = [.serve zs none true, .release]) ∧
    (∀ d, s.dsq.session = some d → d.running = true → (∃ z m, z ∈ zs ∧ (s.zoneAt z).suspended = .drill m) →
      (d.soundingStage = true → s.drillTrunk = none → s.drillNeeds = false →
        (∃ z m, z ∈ zs ∧ z < 32 ∧ (s.zoneAt z).suspended = .drill m ∧ mediumSpeaks m = true) →
        (s.holdersEnd zs).ztc.agenda = [.serve zs none true, .release, .pass]) ∧
      (d.soundingStage = false ∨ s.drillTrunk ≠ none →
        (s.holdersEnd zs).ztc.agenda = [.serve zs none true, .release])) := by
  rw [holdersEnd_agenda]
  refine ⟨fun hnone => ?_, fun d hd hrunning hunder => ⟨fun hsounding htrunk hneeds hspeaker => ?_, fun hquiet => ?_⟩⟩
  · rw [returns_agenda_other hnone, hagenda]
    rfl
  · rw [returns_agenda_pass hd hrunning hsounding htrunk (.inr ⟨.inl hagenda, hneeds, hspeaker⟩)]
    rfl
  · rw [returns_agenda_quiet hd hrunning hquiet (.inr ⟨hagenda, hunder⟩)]
    rfl

theorem loseZone_loses {s : State} {z : Nat} {r u : ZoneRec} (hr : r = s.zoneAt z) (hu : u = (s.loseZone z).zoneAt z) :
    u.available = false ∧ u.waits = [] ∧ (∀ y, y ≠ z → (s.loseZone z).zoneAt y = s.zoneAt y) ∧
    (∀ m, r.holder = .drill m → u.holder = .drill m) ∧ (r.holder = .alarm → u.holder = .alarm) ∧
    (∀ n, r.holder = .bell n →
      u.holder = .none ∧ u.suspended = .none ∧ u.bellUntil = none ∧ u.trunk = none ∧
      (∀ j p, s.job? n = some j → j.part? z = some p → p.ended = false →
        ∀ p', (s.loseZone z).part? n z = some p' → p'.state = .dropped .line)) ∧
    (∀ n q, r.holder = .page n q → r.suspended = .none →
      u.holder = .none ∧ u.bellUntil = none ∧ u.trunk = none ∧
      (∀ p, s.page? n = some p → p.onAir = true → z ∈ p.held →
        ∀ p', (s.loseZone z).page? n = some p' → z ∉ p'.held ∧ (z, .line) ∈ p'.lost)) := by
  subst hr hu
  have hself : (s.loseZone z).zoneAt z = { (s.deprived z).zoneAt z with waits := [] } := by rw [loseZone_zoneAt, if_pos rfl]
  have hfree : (s.unavailable z).zoneAt z = { s.zoneAt z with available := false } := by rw [unavailable_zoneAt, if_pos rfl]
  have hkept (hbell : ∀ n, (s.zoneAt z).holder ≠ .bell n) (hpage : ∀ n q, (s.zoneAt z).holder ≠ .page n q) :
      ((s.deprived z).zoneAt z).holder = (s.zoneAt z).holder := by rw [deprived_other hbell hpage, hfree]
  rw [hself]
  refine ⟨deprived_unavailable s z, rfl, fun y hy => ?_, fun m hh => ?_, fun hh => ?_, fun n hh => ?_, fun n q hh hsusp => ?_⟩
  · rw [loseZone_zoneAt, if_neg hy, deprived_zoneAt_other s hy]
  · exact (hkept (by rw [hh]; exact nofun) (by rw [hh]; exact nofun)).trans hh
  · exact (hkept (by rw [hh]; exact nofun) (by rw [hh]; exact nofun)).trans hh
  · rw [deprived_bell hh, if_pos rfl]
    exact ⟨rfl, rfl, rfl, rfl, fun j p hj hp hlive p' => droppedAt_part (loseZone_droppedAt hh hj hp hlive)⟩
  · have hzone : (((s.unavailable z).pageLoses n z .line).zoneAt z).suspended = .none := (congrArg ZoneRec.suspended hfree).trans hsusp
    rw [deprived_page hh, returnZone_zoneAt, if_pos rfl, returned_none hzone]
    exact ⟨rfl, rfl, rfl, fun p hp honAir hheld p' => loseZone_page hh hsusp hp honAir hheld⟩

end Sys2Proof.Machine
end

