-- ==== Sys2Proof/Proofs/ServingRules.lean ====
section
/-! How wait lists are served, start groups formed and bell timers kept: the second half of O44. -/

set_option autoImplicit false

namespace Sys2Proof.Machine

open Sys2Proof

/-! ### What a serving sets going (R101, R109) -/

theorem tellDeferred_ztc (s : State) (ws : List Wait) (r : DeferReason) :
    (ws.foldl (fun s w => s.tellDeferred w.job w.zone w.since r) s).ztc = s.ztc :=
  ztc_foldl (f := fun (s : State) (w : Wait) => s.tellDeferred w.job w.zone w.since r) (fun _ _ => rfl) ws s

theorem waitForTrunk_groups (s : State) (g : StartGroup) (ws : List Wait) :
    (s.waitForTrunk g ws).ztc.groups = s.ztc.groups ∨
      ∃ h : StartGroup, h.fresh = false ∧ (s.waitForTrunk g ws).ztc.groups = s.ztc.groups ++ [h] := by
  unfold State.waitForTrunk
  split
  · exact .inl rfl
  · refine .inr ⟨_, ?_, congrArg (· ++ [_]) (congrArg Ztc.groups (tellDeferred_ztc (s.numberGiven g.job (s.groupNumber g.job)) ws .noTrunk))⟩
    rfl

theorem leaveUngranted_fresh {s : State} {g h : StartGroup} (hh : h ∈ (s.leaveUngranted g).ztc.groups) (hfresh : h.fresh = true) :
    h ∈ s.ztc.groups := by
  unfold State.leaveUngranted at hh
  split at hh
  · exact hh
  · dsimp only at hh
    have hdropped : ((g.members.filter fun w => w.maxDefer = 0).foldl (fun s w => s.dropPart w.job w.zone .limit) s).ztc = s.ztc :=
      ztc_foldl (f := fun (s : State) (w : Wait) => s.dropPart w.job w.zone .limit) (fun s w => dropPart_ztc ..) _ s
    obtain hsame | ⟨k, hk, hmore⟩ := waitForTrunk_groups
      ((g.members.filter fun w => w.maxDefer = 0).foldl (fun s w => s.dropPart w.job w.zone .limit) s) g
      (g.members.filter fun w => w.maxDefer ≠ 0)
    · rw [hsame, hdropped] at hh
      exact hh
    · rw [hmore, hdropped, List.mem_append, List.mem_singleton] at hh
      obtain hmem | rfl := hh
      · exact hmem
      · exact absurd (hk.symm.trans hfresh) Bool.false_ne_true

theorem turnDown_fresh {s : State} {gs : List StartGroup} {h : StartGroup} (hh : h ∈ (s.turnDown gs).ztc.groups) (hfresh : h.fresh = true) :
    h ∈ s.ztc.groups := by
  have hall : ∀ (gs : List StartGroup) (s : State), h ∈ (gs.foldl State.leaveUngranted s).ztc.groups → h ∈ s.ztc.groups := by
    intro gs
    induction gs with
    | nil => exact fun s hs => hs
    | cons g gs ih => exact fun s hs => leaveUngranted_fresh (ih _ hs) hfresh
  exact hall gs s hh

theorem served_none (s : State) (zs : List Nat) (freed : Bool) : s.served zs freed [] = s.push (if freed then [.offer zs] else []) := rfl

theorem served_pageStarting {s : State} (h : s.pageStarting = true) (zs : List Nat) (freed : Bool) {gs : List StartGroup} {g : StartGroup}
    (hg : g ∈ (s.served zs freed gs).ztc.groups) (hfresh : g.fresh = true) : g ∈ s.ztc.groups := by
  unfold State.served at hg
  dsimp only at hg
  split at hg
  · exact hg
  · have hold := turnDown_fresh hg hfresh
    exact hold

theorem push_agenda (s : State) (ws : List Work) : (s.push ws).ztc.agenda = ws ++ s.ztc.agenda := rfl

theorem push_groups (s : State) (ws : List Work) : (s.push ws).ztc.groups = s.ztc.groups := rfl

theorem later_groups (s : State) (w : Work) : (s.later w).ztc.groups = s.ztc.groups := by
  obtain ⟨ws, h⟩ := later_shape s w
  rw [h]

theorem served_groups {s : State} {zs : List Nat} {gs : List StartGroup} {sought : Nat → Bool}
    (hsought : ∀ z, sought z = true ↔ ∃ g w, g ∈ gs ∧ w ∈ g.members ∧ w.zone = z) (hgs : gs ≠ []) (hagenda : s.ztc.agenda = [])
    (hpage : s.pageStarting = false) :
    (s.served zs true gs).ztc.groups = s.ztc.groups ++ gs ∧
      (s.served zs true gs).ztc.agenda = [.offer (zs.filter fun z => !sought z), .grants, .offer (zs.filter sought), .pass] := by
  have hmodel : (fun z => gs.any fun g => g.members.any fun w => w.zone = z) = sought := by
    funext z
    rw [Bool.eq_iff_iff, hsought]
    simp only [List.any_eq_true, decide_eq_true_eq]
    exact ⟨fun ⟨g, hg, w, hw, hz⟩ => ⟨g, w, hg, hw, hz⟩, fun ⟨g, w, hg, hw, hz⟩ => ⟨g, hg, w, hw, hz⟩⟩
  unfold State.served
  dsimp only
  rw [if_neg (by simpa using hgs), hpage, if_neg Bool.false_ne_true, if_pos rfl, if_pos rfl]
  simp only [funext_iff] at hmodel
  simp only [hmodel]
  rw [later_groups, later_withWork, push_agenda, push_groups]
  refine ⟨rfl, ?_⟩
  rw [hagenda]
  rfl

/-! ### Start groups (R109) -/

/-- Groups of which none is granted yet, and no two are of one job and one turn. -/
def groupsLawful (gs : List StartGroup) : Prop := (∀ g, g ∈ gs → g.fresh = true) ∧ (gs.map fun g => (g.job, g.atPause)).Nodup

theorem joinGroups_keeps {gs : List StartGroup} (hgs : groupsLawful gs) (due : Stamp) (w : Wait) (atPause : Bool) :
    groupsLawful (joinGroups due w atPause gs) ∧
    (∃ g, g ∈ joinGroups due w atPause gs ∧ g.job = w.job ∧ w ∈ g.members ∧ g.atPause = atPause) ∧
    ∀ g v, g ∈ gs → v ∈ g.members →
      ∃ h, h ∈ joinGroups due w atPause gs ∧ h.job = g.job ∧ v ∈ h.members ∧ h.atPause = g.atPause := by
  obtain ⟨hfresh, hnodup⟩ := hgs
  obtain ⟨fits, hfits⟩ : ∃ fits : StartGroup → Bool, fits = fun g => decide (g.job = w.job) && g.fresh && decide (g.atPause = atPause) :=
    ⟨_, rfl⟩
  have hjoin : joinGroups due w atPause gs =
      if gs.any fits then gs.map fun g => if fits g then { g with members := g.members ++ [w] } else g
      else gs ++ [{ job := w.job, num := 0, due := due, members := [w], fresh := true, atPause := atPause }] := by
    subst hfits
    rfl
  have hfit (g : StartGroup) (hg : fits g = true) : g.job = w.job ∧ g.atPause = atPause := by
    subst hfits
    simp only [Bool.and_eq_true, decide_eq_true_eq] at hg
    exact ⟨hg.1.1, hg.2⟩
  have hmap (g : StartGroup) : (if fits g then { g with members := g.members ++ [w] } else g : StartGroup).job = g.job ∧
      (if fits g then { g with members := g.members ++ [w] } else g : StartGroup).atPause = g.atPause ∧
      (if fits g then { g with members := g.members ++ [w] } else g : StartGroup).fresh = g.fresh ∧
      ∀ v, v ∈ g.members → v ∈ (if fits g then { g with members := g.members ++ [w] } else g : StartGroup).members := by
    split
    · exact ⟨rfl, rfl, rfl, fun v hv => List.mem_append_left _ hv⟩
    · exact ⟨rfl, rfl, rfl, fun v hv => hv⟩
  rw [hjoin]
  by_cases hany : gs.any fits = true
  · rw [if_pos hany]
    refine ⟨⟨fun g hg => ?_, ?_⟩, ?_, fun g v hg hv => ⟨_, List.mem_map.mpr ⟨g, hg, rfl⟩, (hmap g).1, (hmap g).2.2.2 v hv, (hmap g).2.1⟩⟩
    · obtain ⟨x, hx, rfl⟩ := List.mem_map.mp hg
      exact (hmap x).2.2.1.trans (hfresh x hx)
    · rw [List.map_map]
      refine (List.map_congr_left fun g _ => ?_).symm ▸ hnodup
      exact Prod.ext (hmap g).1 (hmap g).2.1
    · obtain ⟨g, hg, hgfits⟩ := List.any_eq_true.mp hany
      obtain ⟨hjob, hpause⟩ := hfit g hgfits
      exact ⟨_, List.mem_map.mpr ⟨g, hg, rfl⟩, (hmap g).1.trans hjob, by rw [if_pos hgfits]; simp, (hmap g).2.1.trans hpause⟩
  · rw [if_neg hany]
    refine ⟨⟨fun g hg => ?_, ?_⟩, ⟨_, List.mem_append_right _ List.mem_cons_self, rfl, List.mem_cons_self, rfl⟩,
      fun g v hg hv => ⟨g, List.mem_append_left _ hg, rfl, hv, rfl⟩⟩
    · rw [List.mem_append, List.mem_singleton] at hg
      obtain hg | rfl := hg
      · exact hfresh g hg
      · rfl
    · rw [List.map_append, List.nodup_append]
      refine ⟨hnodup, List.nodup_singleton _, fun x hx y hy hxy => ?_⟩
      obtain ⟨g, hg, rfl⟩ := List.mem_map.mp hx
      rw [List.map_singleton, List.mem_singleton] at hy
      subst hy
      obtain ⟨hjob, hpause⟩ := Prod.mk.inj hxy
      refine hany (List.any_eq_true.mpr ⟨g, hg, ?_⟩)
      subst hfits
      simp [show g.job = w.job from hjob, show g.atPause = atPause from hpause, hfresh g hg]

/-- The groups with one more seeker. -/
def State.withSeeker (s : State) (gs : List StartGroup) (x : Seeker) : List StartGroup :=
  match s.job? x.wait.job with
  | some j => joinGroups j.due x.wait x.atPause gs
  | none => gs

theorem seekers_groups (s : State) (xs : List Seeker) {gs : List StartGroup} (hgs : groupsLawful gs) :
    groupsLawful (xs.foldl s.withSeeker gs) ∧
    (∀ x j, x ∈ xs → s.job? x.wait.job = some j →
      ∃ g, g ∈ xs.foldl s.withSeeker gs ∧ g.job = x.wait.job ∧ x.wait ∈ g.members ∧ g.atPause = x.atPause) ∧
    ∀ g v, g ∈ gs → v ∈ g.members →
      ∃ h, h ∈ xs.foldl s.withSeeker gs ∧ h.job = g.job ∧ v ∈ h.members ∧ h.atPause = g.atPause := by
  induction xs generalizing gs with
  | nil => exact ⟨hgs, fun x j hx => absurd hx List.not_mem_nil, fun g v hg hv => ⟨g, hg, rfl, hv, rfl⟩⟩
  | cons x xs ih =>
    rw [List.foldl_cons]
    cases hj : s.job? x.wait.job with
    | none =>
      have hsame : s.withSeeker gs x = gs := by unfold State.withSeeker; rw [hj]
      rw [hsame]
      obtain ⟨hlaw, hjoined, hkept⟩ := ih hgs
      refine ⟨hlaw, fun y j hy hyj => ?_, hkept⟩
      obtain rfl | hy := List.mem_cons.mp hy
      · exact nomatch hj.symm.trans hyj
      · exact hjoined y j hy hyj
    | some j =>
      have hstep : s.withSeeker gs x = joinGroups j.due x.wait x.atPause gs := by unfold State.withSeeker; rw [hj]
      obtain ⟨hlawful, ⟨g, hg, hgjob, hgmem, hgpause⟩, hstays⟩ := joinGroups_keeps hgs j.due x.wait x.atPause
      rw [hstep]
      obtain ⟨hlaw, hjoined, hkept⟩ := ih hlawful
      refine ⟨hlaw, fun y i hy hyj => ?_, fun h v hh hv => ?_⟩
      · obtain rfl | hy := List.mem_cons.mp hy
        · obtain ⟨k, hk, hkjob, hkmem, hkpause⟩ := hkept g y.wait hg hgmem
          exact ⟨k, hk, hkjob.trans hgjob, hkmem, hkpause.trans hgpause⟩
        · exact hjoined y i hy hyj
      · obtain ⟨k, hk, hkjob, hkmem, hkpause⟩ := hstays h v hh hv
        obtain ⟨i, hi, hijob, himem, hipause⟩ := hkept k v hk hkmem
        exact ⟨i, hi, hijob.trans hkjob, himem, hipause.trans hkpause⟩

theorem formGroups_forms (s : State) (xs : List Seeker) :
    (∀ x j, x ∈ xs → s.job? x.wait.job = some j →
      ∃ g, g ∈ s.formGroups xs ∧ g.job = x.wait.job ∧ g.fresh = true ∧ x.wait ∈ g.members ∧ g.atPause = x.atPause) ∧
    ((s.formGroups xs).map fun g => (g.job, g.atPause)).Nodup := by
  have hform : s.formGroups xs = xs.foldl s.withSeeker [] := by
    unfold State.formGroups
    congr 1
  rw [hform]
  obtain ⟨⟨hfresh, hnodup⟩, hjoined, _⟩ := seekers_groups s xs (gs := []) ⟨nofun, List.nodup_nil⟩
  refine ⟨fun x j hx hj => ?_, hnodup⟩
  obtain ⟨g, hg, hjob, hmem, hpause⟩ := hjoined x j hx hj
  exact ⟨g, hg, hjob, hfresh g hg, hmem, hpause⟩

/-! ### A wait that is served (R104) -/

theorem job_num {s : State} {n : Nat} {j : Job} (h : s.job? n = some j) : j.num = n := by simpa using List.find?_some h

theorem part_zone {j : Job} {z : Nat} {p : Part} (h : j.part? z = some p) : p.zone = z := by simpa using List.find?_some h

theorem part_of_job {s : State} {n z : Nat} {j : Job} {p : Part} (hj : s.job? n = some j) (hp : j.part? z = some p) :
    s.part? n z = some p := by
  unfold State.part?
  rw [hj]
  exact hp

/-- When the first segment of a job's pattern ends, for a part with a sounder. -/
def State.firstChange (s : State) (j : Job) (p : Part) : Option Nat :=
  if mediumSounds p.medium then j.timeline.ons.head?.map fun o => s.now + 8 * o.stop else none

/-- A part as it begins to sound. -/
def Part.begun (p : Part) (now : Nat) (tone : Option (Nat × Nat)) : Part :=
  { p with state := .sounding, start := some now, step := 1
           sounder := if mediumSounds p.medium then .playing else .absent
           speaker := match tone with | some (g, t) => .playing g t | none => .absent }

/-- A bell part that takes a zone, before the zone's record follows. -/
def State.bellClaims (s : State) (n z : Nat) (tone : Option (Nat × Nat)) : State :=
  (match (s.zoneAt z).holder with
    | .page m _ => ((s.leaveWaits n z).leaveGroups n z).pageSuspended m z
    | _ => (s.leaveWaits n z).leaveGroups n z : State).updatePart n z fun p => p.begun s.now tone

theorem bellClaims_zoneAt (s : State) (n z : Nat) (tone : Option (Nat × Nat)) (y : Nat) :
    (s.bellClaims n z tone).zoneAt y =
      if y = z then { s.zoneAt z with waits := (s.zoneAt z).waits.filter fun w => w.job ≠ n } else s.zoneAt y := by
  have hleft : ((s.leaveWaits n z).leaveGroups n z).zoneAt y = _ := leaveWaits_zoneAt s n z y
  unfold State.bellClaims
  split <;> exact hleft

theorem bellTakes_eq {s : State} {n z : Nat} {j : Job} {p : Part} (hj : s.job? n = some j) (hp : j.part? z = some p)
    (tone : Option (Nat × Nat)) :
    s.bellTakes n z tone =
      (((s.bellClaims n z tone).setZone z
        { (s.bellClaims n z tone).zoneAt z with
          holder := .bell n, suspended := suspendedUnderBell ((s.bellClaims n z tone).zoneAt z) }).setWanted z (s.firstChange j p)
        (tone.map Prod.snd)).refreshReasons z := by
  unfold State.bellTakes
  rw [hj]
  dsimp only
  rw [hp]
  dsimp only
  unfold State.bellClaims
  cases (s.zoneAt z).holder <;> rfl

theorem suspendedUnderBell_waits (r : ZoneRec) (ws : List Wait) : suspendedUnderBell { r with waits := ws } = suspendedUnderBell r := rfl

theorem bellTakes_zoneAt {s : State} {n z : Nat} {j : Job} {p : Part} (hj : s.job? n = some j) (hp : j.part? z = some p)
    (tone : Option (Nat × Nat)) (y : Nat) :
    (s.bellTakes n z tone).zoneAt y =
      if y = z then
        { s.zoneAt z with
          holder := .bell n, suspended := suspendedUnderBell (s.zoneAt z), bellUntil := s.firstChange j p, trunk := tone.map Prod.snd
          waits := ((s.zoneAt z).waits.filter fun w => w.job ≠ n).map (waitUnder (.bell n)) }
      else s.zoneAt y := by
  rw [bellTakes_eq hj hp, refreshReasons_zoneAt, setWanted_zoneAt, setWanted_zoneAt, zoneAt_setZone, zoneAt_setZone, if_pos rfl, if_pos rfl,
    bellClaims_zoneAt, bellClaims_zoneAt, if_pos rfl, suspendedUnderBell_waits]
  split <;> rfl

theorem part_of_bds {s t : State} (h : t.bds = s.bds) (n z : Nat) : t.part? n z = s.part? n z := by
  unfold State.part? State.job?
  rw [h]

theorem bellTakes_part {s : State} {n z : Nat} {j : Job} {p : Part} (hj : s.job? n = some j) (hp : j.part? z = some p)
    (tone : Option (Nat × Nat)) : (s.bellTakes n z tone).part? n z = some (p.begun s.now tone) := by
  have hbegun : (s.bellClaims n z tone).part? n z = some (p.begun s.now tone) := by
    have hupdate (u : State) (hu : u.bds = s.bds) :
        (u.updatePart n z fun p => p.begun s.now tone).part? n z = some (p.begun s.now tone) := by
      rw [updatePart_part _ _ _ _ _ (fun p => p.begun s.now tone) fun _ => rfl, part_of_bds hu, part_of_job hj hp, Option.map_some, if_pos ⟨rfl, part_zone hp⟩]
    unfold State.bellClaims
    refine hupdate _ ?_
    split <;> rfl
  rw [bellTakes_eq hj hp]
  refine refreshReasons_part _ _ ?_ rfl
  rw [setWanted_part]
  exact hbegun

theorem sounds_of_quiet {m : Medium} (h : mediumSpeaks m = false) : mediumSounds m = true := by
  cases m with
  | sounder => rfl
  | speaker | both => exact nomatch h

/-- Whether a zone's list is served at a pause of the page that holds it. -/
def State.servedAtPause (s : State) (pause : Option Nat) (z : Nat) : Bool :=
  match (s.zoneAt z).holder, pause with
  | .page n _, some m => decide (n = m)
  | _, _ => false

theorem servedAtPause_iff (s : State) (pause : Option Nat) (z : Nat) :
    s.servedAtPause pause z = true ↔ ∃ n q, (s.zoneAt z).holder = .page n q ∧ pause = some n := by
  unfold State.servedAtPause
  split
  next n q m hh =>
    rw [decide_eq_true_eq, hh]
    exact ⟨fun h => ⟨n, q, rfl, h ▸ rfl⟩, fun ⟨n', q', hn, hm⟩ => by
      rw [(Holder.page.inj hn).1]
      exact (Option.some.inj hm).symm⟩
  next hnot => exact ⟨nofun, fun ⟨n, q, hh, hp⟩ => absurd hp (hnot n q n hh)⟩

section
variable {s : State} {z : Nat} {w : Wait} {ws : List Wait} {pause : Option Nat} {atPause : Bool} {j : Job} {p : Part} {u : State}
  {x : Option Seeker} (hwaits : (s.zoneAt z).waits = w :: ws) (hseeking : s.seeking w = false) (hj : s.job? w.job = some j)
  (hp : j.part? z = some p) (hpause : atPause = true ↔ ∃ n q, (s.zoneAt z).holder = .page n q ∧ pause = some n)
include hwaits hseeking hj hp hpause

theorem serveZone_eq :
    s.serveZone pause z =
      match s.bellAnswer w.policy atPause z with
      | .take =>
        if mediumSpeaks p.medium = false then ((s.bellTakes w.job z none).later .release, none)
        else if atPause && decide (w.policy = .pause) then (s, some { wait := w, atPause := true })
        else (s.leaveWaits w.job z, some { wait := w, atPause := false })
      | _ => (s, none) := by
  have hat : s.servedAtPause pause z = atPause := by rw [Bool.eq_iff_iff, servedAtPause_iff, hpause]
  have hspeaks : s.partSpeaks w.job z = mediumSpeaks p.medium := by
    unfold State.partSpeaks
    rw [part_of_job hj hp]
  have hunfold : s.serveZone pause z =
      if s.seeking w then (s, none)
      else
        match s.bellAnswer w.policy (s.servedAtPause pause z) z with
        | .take =>
          if !s.partSpeaks w.job z then ((s.bellTakes w.job z none).later .release, none)
          else if s.servedAtPause pause z && decide (w.policy = .pause) then (s, some { wait := w, atPause := true })
          else (s.leaveWaits w.job z, some { wait := w, atPause := false })
        | _ => (s, none) := by
    unfold State.serveZone
    rw [hwaits]
    rfl
  rw [hunfold, hseeking, if_neg Bool.false_ne_true, hat, hspeaks]
  cases s.bellAnswer w.policy atPause z with
  | take => simp
  | defer | drop => rfl

theorem serveZone_waits (hu : (u, x) = s.serveZone pause z) (hnot : s.bellAnswer w.policy atPause z ≠ .take) : u = s ∧ x = none := by
  rw [serveZone_eq hwaits hseeking hj hp hpause] at hu
  cases ha : s.bellAnswer w.policy atPause z with
  | take => exact absurd ha hnot
  | defer | drop =>
    rw [ha] at hu
    exact Prod.mk.inj hu

theorem serveZone_sounds (hu : (u, x) = s.serveZone pause z) (htake : s.bellAnswer w.policy atPause z = .take)
    (hquiet : mediumSpeaks p.medium = false) :
    x = none ∧ (u.zoneAt z).holder = .bell w.job ∧ (∀ x, x ∈ (u.zoneAt z).waits → x.job ≠ w.job) ∧ (u.zoneAt z).trunk = none ∧
      (∀ o, j.timeline.ons.head? = some o → (u.zoneAt z).bellUntil = some (s.now + 8 * o.stop)) ∧
      (∀ n q, (s.zoneAt z).holder = .page n q → (u.zoneAt z).suspended = .page n q) ∧
      ∃ p', u.part? w.job z = some p' ∧ p'.state = .sounding ∧ p'.start = some s.now ∧ p'.sounder = .playing := by
  have hsounds : mediumSounds p.medium = true := sounds_of_quiet hquiet
  rw [serveZone_eq hwaits hseeking hj hp hpause, htake] at hu
  dsimp only at hu
  rw [if_pos hquiet] at hu
  obtain ⟨rfl, rfl⟩ := Prod.mk.inj hu
  rw [zoneAt_later, bellTakes_zoneAt hj hp, if_pos rfl]
  refine ⟨rfl, rfl, fun v hv => ?_, rfl, fun o ho => ?_, fun n q hh => ?_, p.begun s.now none, ?_, rfl, rfl, if_pos hsounds⟩
  · obtain ⟨v', hv', rfl⟩ := List.mem_map.mp hv
    have hother := (List.mem_filter.mp hv').2
    exact of_decide_eq_true hother
  · show s.firstChange j p = _
    unfold State.firstChange
    rw [if_pos hsounds, ho]
    rfl
  · show suspendedUnderBell (s.zoneAt z) = _
    unfold suspendedUnderBell
    rw [hh]
  · obtain ⟨ws, hshape⟩ := later_shape (s.bellTakes w.job z none) .release
    rw [hshape]
    exact bellTakes_part hj hp none

theorem serveZone_seeks (hu : (u, x) = s.serveZone pause z) (htake : s.bellAnswer w.policy atPause z = .take)
    (hspeaks : mediumSpeaks p.medium = true) :
    x = some { wait := w, atPause := atPause && decide (w.policy = .pause) } ∧
      (atPause = true → w.policy = .pause → u = s) ∧
      (atPause = false ∨ w.policy ≠ .pause →
        u = s.setZone z { s.zoneAt z with waits := (s.zoneAt z).waits.filter fun v => v.job ≠ w.job }) := by
  rw [serveZone_eq hwaits hseeking hj hp hpause, htake] at hu
  dsimp only at hu
  rw [if_neg (by rw [hspeaks]; decide)] at hu
  by_cases hboth : (atPause && decide (w.policy = .pause)) = true
  · rw [if_pos hboth] at hu
    obtain ⟨rfl, rfl⟩ := Prod.mk.inj hu
    rw [hboth]
    refine ⟨rfl, fun _ _ => rfl, fun hnot => ?_⟩
    rw [Bool.and_eq_true, decide_eq_true_eq] at hboth
    obtain hf | hf := hnot
    · exact absurd (hf.symm.trans hboth.1) Bool.false_ne_true
    · exact absurd hboth.2 hf
  · rw [if_neg hboth] at hu
    obtain ⟨rfl, rfl⟩ := Prod.mk.inj hu
    refine ⟨by rw [Bool.eq_false_iff.mpr hboth], fun hat hpol => ?_, fun _ => rfl⟩
    rw [hat, decide_eq_true hpol] at hboth
    exact absurd rfl hboth

end

/-! ### Timers of bell parts (R105, R107, R129) -/

theorem expiredWaits_job {s : State} {n : Nat} {w : Wait} (h : w ∈ s.expiredWaits n) : w.job = n := by
  unfold State.expiredWaits at h
  obtain ⟨z, _, hz⟩ := List.mem_flatMap.mp h
  have := (List.mem_filter.mp (List.mem_filter.mp hz).1).2
  simp only [Bool.and_eq_true, decide_eq_true_eq] at this
  exact this.1

theorem execDeferralLimitExpiry_drop {s : State} {n : Nat} {j : Job} {w : Wait} (h : s.ready) (hj : s.job? n = some j)
    (hw : s.expiredWaits n = [w]) (hlimit : w.limit = .drop) :
    execDeferralLimitExpiry n s =
      .next (((((s.leaveWaits n w.zone).leaveGroups n w.zone).dropPart n w.zone .limit).releaseNow s.idleTrunks).push
        [.serve [w.zone] none false]).done := by
  have hjob : w.job = n := expiredWaits_job (hw ▸ List.mem_cons_self)
  have hmeet : State.meetLimit none s w = ((s.leaveWaits n w.zone).leaveGroups n w.zone).dropPart n w.zone .limit := by
    unfold State.meetLimit
    rw [hlimit, hjob]
  unfold execDeferralLimitExpiry
  rw [event_powered _ h.2, hw]
  have hexpire : s.expireWaits n = ((State.meetLimit none s w).releaseNow s.idleTrunks).push [.serve [w.zone] none false] := by
    have hnoTone : ¬((([w].any fun w => decide (w.limit = .force) && s.partSpeaks n w.zone) && s.mayTone) = true) := by simp [hlimit]
    unfold State.expireWaits
    rw [hw, hj]
    dsimp only
    rw [if_neg hnoTone]
    rfl
  rw [if_neg (c := [w].isEmpty = true) Bool.false_ne_true, hexpire, hmeet]
  rfl

theorem updatePart_restingLaw {s : State} (h : s.restingLaw) (n z : Nat) (f : Part → Part) : (s.updatePart n z f).restingLaw :=
  restingLaw_of_eq h rfl rfl rfl rfl

theorem soundChange_goesOn {s : State} {j : Job} {p : Part} {t : Nat} {c : Nat × Option Nat} (hstart : p.start = some t)
    (hc : j.timeline.changes[p.step]? = some c) (hholder : (s.zoneAt p.zone).holder = .bell j.num)
    (hmore : p.step + 1 < j.timeline.changes.length) :
    s.soundChange j p =
      (s.setWanted p.zone (c.2.map fun e => t + 8 * e) (s.zoneAt p.zone).trunk).updatePart j.num p.zone
        fun p => { p with step := p.step + 1 } := by
  unfold State.soundChange
  rw [hstart, hc]
  dsimp only
  rw [if_pos hholder, if_pos hmore]

theorem execSounderTimelineChange_goesOn {s : State} {n z t : Nat} {j : Job} {p : Part} {c : Nat × Option Nat} (h : s.ready)
    (hj : s.job? n = some j) (hp : j.part? z = some p) (hstate : p.state = .sounding) (hsounder : p.sounder = .playing)
    (hstart : p.start = some t) (hc : j.timeline.changes[p.step]? = some c) (hdue : t + 8 * c.1 ≤ s.now)
    (hholder : (s.zoneAt z).holder = .bell n) (hmore : p.step + 1 < j.timeline.changes.length) :
    ∃ u : State, execSounderTimelineChange n z s = .next u ∧
      u.zoneAt z = { s.zoneAt z with bellUntil := c.2.map fun e => t + 8 * e } ∧ (∀ y, y ≠ z → u.zoneAt y = s.zoneAt y) ∧
      u.part? n z = some { p with step := p.step + 1 } ∧ (∀ m y, m ≠ n ∨ y ≠ z → u.part? m y = s.part? m y) := by
  obtain rfl := job_num hj
  obtain rfl := part_zone hp
  have hat : partChangeAt j p = some (t + 8 * c.1) := by
    unfold partChangeAt
    rw [hstate, hsounder, hstart, hc]
  have hzone (y : Nat) : (((s.setWanted p.zone (c.2.map fun e => t + 8 * e) (s.zoneAt p.zone).trunk).updatePart j.num p.zone
      fun p => { p with step := p.step + 1 }).zoneAt y) = _ := setWanted_zoneAt s p.zone _ _ y
  have hpart (m y : Nat) := updatePart_part (s.setWanted p.zone (c.2.map fun e => t + 8 * e) (s.zoneAt p.zone).trunk) j.num p.zone m y
    (fun p => { p with step := p.step + 1 }) fun _ => rfl
  refine ⟨(s.setWanted p.zone (c.2.map fun e => t + 8 * e) (s.zoneAt p.zone).trunk).updatePart j.num p.zone
    fun p => { p with step := p.step + 1 }, ?_, ?_, fun y hy => ?_, ?_, fun m y hother => ?_⟩
  · unfold execSounderTimelineChange
    rw [event_powered _ h.2, hj]
    dsimp only
    rw [hp]
    dsimp only
    rw [hat]
    dsimp only
    rw [State.reached, if_pos (decide_eq_true hdue), soundChange_goesOn hstart hc hholder hmore]
    exact finish_eq_self (updatePart_restingLaw (setWanted_restingLaw h.1 _ _ _) _ _ _)
  · rw [hzone, if_pos rfl]
  · rw [hzone, if_neg hy]
  · rw [hpart, setWanted_part, part_of_job hj hp, Option.map_some, if_pos ⟨rfl, rfl⟩]
  · rw [hpart, setWanted_part]
    cases hmy : s.part? m y with
    | none => rfl
    | some q =>
      rw [Option.map_some, if_neg]
      rintro ⟨hm, hy⟩
      obtain ⟨i, _, hi⟩ := Option.bind_eq_some_iff.mp hmy
      obtain hne | hne := hother
      · exact hne hm
      · exact hne ((part_zone hi).symm.trans hy)

theorem later_again (s : State) (w : Work) (h : w ∈ s.ztc.agenda) : s.later w = s := by
  unfold State.later
  exact if_pos (List.contains_iff_mem.mpr h)

/-- The end of a tone whose parts' sounders still play: their speakers leave the trunk. -/
theorem toneOver_speakers {s : State} {n g t : Nat} {j : Job} {zs : List Nat} (hj : s.job? n = some j)
    (hzs : zs = (j.parts.filter fun p => decide (p.state = .sounding ∧ p.speaker = .playing g t)).map Part.zone)
    (hplaying : ∀ z p, z ∈ zs → j.part? z = some p → p.sounder = .playing) :
    s.toneOver t n g =
      ((zs.foldl (fun v z => v.setWanted z (v.zoneAt z).bellUntil none)
        (zs.foldl (fun v z => v.updatePart n z fun p => { p with speaker := .finished }) s)).push [.serve [] none true]).later .release := by
  have hdone : zs.filter (fun z => (s.part? n z).any fun p => decide (p.sounder ≠ .playing)) = [] := by
    rw [List.filter_eq_nil_iff]
    intro z hz
    unfold State.part?
    rw [hj, Option.bind_some]
    cases hp : j.part? z with
    | none => exact nofun
    | some p =>
      rw [Option.any_some, hplaying z p hz hp]
      decide
  simp only [Bool.decide_and] at hzs
  unfold State.toneOver
  rw [hj]
  dsimp only [Option.elim_some]
  rw [← hzs, hdone]
  unfold State.holdersEnd
  dsimp only [List.foldl_nil]
  refine later_again _ _ ?_
  rw [later_withWork]
  unfold withWork
  split
  next hmem => exact hmem
  · simp

theorem execToneEnd_speakers {s : State} {t : Fin 4} {x : TrunkUse} {n g e : Nat} {j : Job} {zs : List Nat} (h : s.ready)
    (hx : s.trunkAt t.val = some x) (hprogram : x.program = .tone n g) (hat : x.toneUntil = some e) (hdue : e ≤ s.now)
    (hj : s.job? n = some j)
    (hzs : zs = (j.parts.filter fun p => decide (p.state = .sounding ∧ p.speaker = .playing g t.val)).map Part.zone)
    (hplaying : ∀ z p, z ∈ zs → j.part? z = some p → p.sounder = .playing) :
    execToneEnd t s =
      .next (((zs.foldl (fun v z => v.setWanted z (v.zoneAt z).bellUntil none)
        (zs.foldl (fun v z => v.updatePart n z fun p => { p with speaker := .finished }) s)).push
          [.serve [] none true]).later .release).done := by
  unfold execToneEnd
  rw [event_powered _ h.2, hx]
  dsimp only
  rw [hprogram, hat]
  dsimp only
  rw [State.reached, if_pos (decide_eq_true hdue), toneOver_speakers hj hzs hplaying]
  rfl

/-- Settles O44: each clause by the rule of the operation that it speaks of. -/
theorem claimsResolvedByHolder : Obligations.ClaimsResolvedByHolder := by
  refine ⟨fun s z prio policy atPause h hh => ?_, claimAlarm_takes, fun s z r u => returnZone_returns, fun s zs => holdersEnd_serves zs,
    fun s zs freed gs u hu => ?_, formGroups_forms,
    fun s z w ws pause atPause j p u x hwaits hseeking hj hp hpause hu =>
      ⟨serveZone_waits hwaits hseeking hj hp hpause hu, serveZone_sounds hwaits hseeking hj hp hpause hu,
        serveZone_seeks hwaits hseeking hj hp hpause hu⟩,
    fun s z r u => loseZone_loses, fun s z => ?_, fun s n j w => execDeferralLimitExpiry_drop,
    fun s n z t j p c => execSounderTimelineChange_goesOn, fun s t x n g e j zs => execToneEnd_speakers⟩
  · subst hh
    exact ⟨answers_unavailable, pageAnswer_notAllowed, pageAnswers, bellAnswers⟩
  · subst hu
    refine ⟨fun hnone => hnone ▸ served_none s zs freed, fun sought hsought hgs hagenda hpage hfreed => ?_,
      fun hpage g hg hfresh => served_pageStarting hpage zs freed hg hfresh⟩
    subst hfreed
    exact served_groups hsought hgs hagenda hpage
  · refine ⟨_, rfl, ?_, fun y hy => ?_, gainZone_agenda s z⟩
    · rw [gainZone_zoneAt, if_pos rfl]
    · rw [gainZone_zoneAt, if_neg hy]

end Sys2Proof.Machine
end

