-- ==== Sys2Proof/Proofs/StartUps.lean ====
section
/-! Power-on, the loss of power and the restart (O59): what each leaves as it is, and how the blocks start. -/

set_option autoImplicit false

namespace Sys2Proof.Machine

open Sys2Proof

/-! ### The blocks come up (R186) -/

/-- The blocks as start-up sets them, before the lines' bring-up. -/
def State.blocksUp (s : State) : State :=
  ({ s with
      ntu := { a := s.ntuStart .a, b := s.ntuStart .b }, ports := { a := portStart, b := portStart }, slots := [], fromA := [],
      fromB := [], restartDue := false, ztc := { zones := [], trunks := [], groups := [], grants := 0, agenda := [] },
      pgc := { queue := [], lastPage := 0, arrivals := 0 } } : State).bdsStart.dsqStart.panelStart

theorem comeUp_eq (s : State) : s.comeUp = (allLines.foldl State.bringUp s.blocksUp).raiseLoads := rfl

theorem raiseLoads_rest (s : State) : s.raiseLoads.rest = s.rest := by
  refine rest_foldl (fun s r => ?_) _ _
  split
  · rfl
  · exact rest_raise ..

theorem steady_raiseLoads (s : State) : Steady s s.raiseLoads := by
  refine steady_foldl (fun s r => ?_) _ _
  split
  · exact steady_refl s
  · exact steady_raise ..

theorem bringUps_rest (ls : List Nat) (s : State) :
    (ls.foldl State.bringUp s).rest = ({ s with field := (ls.foldl State.bringUp s).field } : State).rest := by
  induction ls generalizing s with
  | nil => rfl
  | cons l ls ih =>
    rw [List.foldl_cons]
    exact (ih (s.bringUp l)).trans (rest_withField (bringUp_rest s l) _)

theorem comeUp_rest (s : State) : ∃ f, s.comeUp.rest = ({ s.blocksUp with field := f } : State).rest := by
  rw [comeUp_eq]
  exact ⟨_, (raiseLoads_rest _).trans (bringUps_rest ..)⟩

/-- The queues are empty, and no session is there, once the blocks are up. -/
theorem risen_idle {s t : State} (ht : finish s.comeUp = .next t) : t.bds.queue = [] ∧ t.pgc.queue = [] ∧ t.dsq.session = none := by
  have hsteady : Steady s.blocksUp t := by
    rw [← Host.Outcome.next.inj ht, comeUp_eq]
    exact steady_trans (steady_foldl steady_bringUp allLines _)
      (steady_trans (steady_raiseLoads _) (steady_trans (steady_settle _) (steady_rejudge _)))
  have hjobs : t.jobIds.Sublist [] := hsteady.jobs
  have hsrcs : t.srcs.Sublist [] := hsteady.srcs
  refine ⟨?_, ?_, vacant_of_steady hsteady rfl⟩
  · exact List.map_eq_nil_iff.mp (List.sublist_nil.mp hjobs)
  · exact List.map_eq_nil_iff.mp (List.sublist_nil.mp hsrcs)

/-- What the state shows of the blocks once they are up. -/
theorem risen_blocks {s t : State} (ht : finish s.comeUp = .next t) :
    (t.power, t.setup, t.now, t.store, t.tbu, t.slots, t.fromA, t.fromB) = (s.power, s.setup, s.now, s.store, s.tbu, [], [], []) ∧
    t.ports = { a := portStart, b := portStart } ∧ t.restartDue = false ∧ t.pnl.state = .normal ∧ t.pnl.sampleUntil ≠ none ∧
    t.dsq.records = s.dsq.records := by
  obtain ⟨f, hf⟩ := comeUp_rest s
  have hrest := (finish_rest ht).trans hf
  have hparts := congrArg (fun u : State => (u.power, u.setup, u.now, u.store, u.tbu, u.slots, u.fromA, u.fromB)) hrest
  have hports := congrArg State.ports hrest
  have hdue := congrArg State.restartDue hrest
  have hpnl := congrArg State.pnl hrest
  have hrecords := congrArg (fun u : State => u.dsq.records) hrest
  have hpnl' : t.pnl = s.blocksUp.pnl := hpnl
  exact ⟨hparts, hports, hdue, by rw [hpnl']; rfl, by rw [hpnl']; exact nofun, hrecords⟩

theorem risen_reads {t : State} (h : t.pnl.sampleUntil ≠ none) : t.reads = false := by
  unfold State.reads
  rw [Option.isNone_eq_false_iff.mpr (Option.isSome_iff_ne_none.mpr h), Bool.and_false]

theorem risen_port {t : State} (h : t.ports = { a := portStart, b := portStart }) (p : Port) : t.port p = portStart := by
  unfold State.port
  rw [h]
  cases p <;> rfl

/-! ### The faces of room clocks -/

theorem setField_clock {s : State} {l a : Nat} {d : FieldDev} (hd : d.clock = (s.fieldAt l a).clock) (k b : Nat) :
    ((s.setField l a d).fieldAt k b).clock = (s.fieldAt k b).clock := by
  unfold State.setField State.fieldAt
  dsimp only
  rw [tget_tset]
  split
  next h =>
    rw [hd, h]
    rfl
  · rfl

theorem onDevices_clock {f : FieldDev → FieldDev} (hf : ∀ d, (f d).clock = d.clock) (s : State) (l k b : Nat) :
    ((s.onDevices l f).fieldAt k b).clock = (s.fieldAt k b).clock := by
  unfold State.onDevices
  exact List.foldlRecOn (motive := fun u : State => (u.fieldAt k b).clock = (s.fieldAt k b).clock) _ _ rfl fun u hu a _ =>
    (setField_clock (hf _) k b).trans hu

theorem fieldAt_of_field {s t : State} (h : t.field = s.field) (k b : Nat) : t.fieldAt k b = s.fieldAt k b := by
  unfold State.fieldAt
  rw [h]

theorem bringUp_clock (s : State) (l k b : Nat) : ((s.bringUp l).fieldAt k b).clock = (s.fieldAt k b).clock := by
  rw [fieldAt_of_field (bringUp_field s l), onDevices_clock (f := FieldDev.lineOff) fun _ => rfl]
  rfl

theorem risen_clock {s t : State} (ht : finish s.comeUp = .next t) (k b : Nat) : (t.fieldAt k b).clock = (s.fieldAt k b).clock := by
  have hall (ls : List Nat) (u : State) : ((ls.foldl State.bringUp u).fieldAt k b).clock = (u.fieldAt k b).clock :=
    List.foldlRecOn (motive := fun v : State => (v.fieldAt k b).clock = (u.fieldAt k b).clock) _ _ rfl fun v hv l _ =>
      (bringUp_clock v l k b).trans hv
  have hstart : s.blocksUp.fieldAt k b = s.fieldAt k b := fieldAt_of_field rfl k b
  have hrest : t.rest = (allLines.foldl State.bringUp s.blocksUp).rest := by
    rw [finish_rest ht, comeUp_eq]
    exact raiseLoads_rest _
  rw [fieldAt_of_field (field_of_rest hrest), hall, hstart]

/-! ### The load (R76) -/

theorem copyRegion_copyRegion (r q : Region) (x y z : Plan) :
    copyRegion r (copyRegion q x y) z = if r = q then copyRegion r x z else copyRegion r y z := by
  cases r <;> cases q <;> rfl

theorem copyRegion_self (r : Region) (x : Plan) : copyRegion r x x = x := by cases r <;> rfl

/-- What a region is loaded from: its image, where it is good. -/
def State.loaded (s : State) (r : Region) : Plan := if s.imageGoodAt r then s.store.images else emptyPlan

theorem loads_region (rs : List Region) (s : State) (r : Region) (z : Plan) :
    copyRegion r (rs.foldl State.loadRegion s).store.live z =
      if r ∈ rs then copyRegion r (s.loaded r) z else copyRegion r s.store.live z := by
  induction rs generalizing s with
  | nil => rfl
  | cons q rs ih =>
    have hloaded : (s.loadRegion q).loaded r = s.loaded r := rfl
    have hlive : (s.loadRegion q).store.live = copyRegion q (s.loaded q) s.store.live := rfl
    rw [List.foldl_cons, ih, hloaded, hlive, copyRegion_copyRegion]
    by_cases hrq : r = q
    · subst hrq
      simp
    · simp [hrq]

theorem load_region (s : State) (r : Region) :
    copyRegion r s.load.store.live s.store.images =
      if s.imageGoodAt r then s.store.images else copyRegion r emptyPlan s.store.images := by
  have hmem : r ∈ allRegions := by cases r <;> decide
  have hlive : s.load.store.live = (allRegions.foldl State.loadRegion s).store.live := rfl
  rw [hlive, loads_region, if_pos hmem]
  unfold State.loaded
  split
  · exact copyRegion_self ..
  · rfl

/-! ### POWER_ON (R4, R11, R76) -/

/-- The state that the blocks come up from at power-on. -/
def State.poweredFrom (s : State) (good : Bool) (n : Nat) : State :=
  let v := (({ s with power := true } : State).clocksRun n).load.batteryStart good n
  { v with dsq := v.dsq.reload
           lines := allLines.foldl (fun t l => tset lineStart t l { lineStart l with secondAt := v.now }) [] }

theorem execPowerOn_eq {s : State} (h : s.power = false) (good : Bool) (n : Nat) :
    execPowerOn good n s = finish (s.poweredFrom good n).comeUp := by
  unfold execPowerOn
  rw [h]
  rfl

theorem poweredFrom_kept (s : State) (good : Bool) (n : Nat) :
    ((s.poweredFrom good n).power, (s.poweredFrom good n).setup, (s.poweredFrom good n).now) = (true, s.setup, s.now) ∧
    (s.poweredFrom good n).store = (({ s with power := true } : State).clocksRun n).load.store ∧
    (s.poweredFrom good n).field = (({ s with power := true } : State).clocksRun n).field ∧
    ∃ limit, (s.poweredFrom good n).tbu = ({ s.tbu with battery := s.tbu.battery.count n } : Tbu).powerOn good limit := by
  obtain ⟨live, hload⟩ := load_shape (({ s with power := true } : State).clocksRun n)
  unfold State.poweredFrom
  dsimp only
  rw [hload]
  exact ⟨rfl, rfl, rfl, _, rfl⟩

/-- The Timebase Unit at power-on: from a battery clock that can be trusted, or from the start of the calendar. -/
theorem powerOn_tbu {t u : Tbu} {good : Bool} {limit n : Nat}
    (hu : u = ({ t with battery := t.battery.count n } : Tbu).powerOn good limit) :
    (good = true → t.battery.valid = true →
      u.validity = .backup ∧ { day := u.day, sec := u.sec } = t.battery.time.after n ∧ u.drift = t.battery.drift) ∧
    (good = false ∨ t.battery.valid = false → u.validity = .invalid ∧ u.day = 0 ∧ u.sec = 0 ∧ u.drift = 0) ∧
    u.phase = 0 ∧ u.chain = none ∧ u.history = [] ∧ u.disc = .free ∧ u.lastStep = none := by
  have hvalid : (t.battery.count n).valid = t.battery.valid := rfl
  unfold Tbu.powerOn at hu
  dsimp only at hu
  rw [hvalid] at hu
  refine ⟨fun hgood hbattery => ?_, fun hwhy => ?_, hu ▸ rfl, hu ▸ rfl, hu ▸ rfl, hu ▸ rfl, hu ▸ rfl⟩
  · rw [hgood, hbattery] at hu
    subst hu
    exact ⟨rfl, rfl, rfl⟩
  · have hbad : (good && t.battery.valid) = false := by
      obtain h | h := hwhy <;> rw [h] <;> simp
    rw [hbad] at hu
    subst hu
    exact ⟨rfl, rfl, rfl, rfl⟩

/-! ### POWER_LOSS -/

/-- Changing the devices of some lines, read at any device. -/
theorem onLines_fieldAt (f : FieldDev → FieldDev) {ls : List Nat} (hnodup : ls.Nodup) (s : State) (k b : Nat) (hb : 1 ≤ b ∧ b ≤ 24) :
    (ls.foldl (fun s l => s.onDevices l f) s).fieldAt k b = if k ∈ ls then f (s.fieldAt k b) else s.fieldAt k b := by
  induction ls generalizing s with
  | nil => rfl
  | cons l ls ih =>
    obtain ⟨hl, hls⟩ := List.nodup_cons.mp hnodup
    rw [List.foldl_cons, ih hls, onDevices_fieldAt _ _ _ _ _ hb]
    by_cases hkl : k = l
    · subst hkl
      simp [hl]
    · simp [hkl]

theorem onLines_eq (f : FieldDev → FieldDev) (ls : List Nat) (s : State) :
    ∃ table, ls.foldl (fun s l => s.onDevices l f) s = { s with field := table } := by
  induction ls generalizing s with
  | nil => exact ⟨s.field, rfl⟩
  | cons l ls ih =>
    obtain ⟨table, h⟩ := ih (s.onDevices l f)
    refine ⟨table, ?_⟩
    rw [List.foldl_cons, h]
    have hstep := onDevices_eq s l f
    have h' := congrArg (fun u : State => ({ u with field := table } : State)) hstep
    exact h'

theorem execPowerLoss_loses {s : State} (h : s.power = true) (a b : Bool) :
    ∃ t : State, execPowerLoss a b s = .next t ∧ t.power = false ∧ t.store = s.store ∧ t.tbu = s.tbu ∧
      (a = false → t.dsq.records = s.dsq.records) ∧ (b = false → t.dsq.lastRecord = s.dsq.lastRecord) ∧
      (∀ l x, l < 6 → 1 ≤ x → x ≤ 24 → (t.fieldAt l x).bellOn = false ∧ (t.fieldAt l x).trunk = none ∧
        (t.fieldAt l x).echo = none ∧ (t.fieldAt l x).zone = none ∧ (t.fieldAt l x).presses = (s.fieldAt l x).presses ∧
        (t.fieldAt l x).clock = (s.fieldAt l x).clock) := by
  obtain ⟨table, htable⟩ := onLines_eq FieldDev.cold allLines { s with power := false }
  have hfield (l x : Nat) (hl : l < 6) (hlow : 1 ≤ x) (hhigh : x ≤ 24) :
      ({ s with power := false, field := table } : State).fieldAt l x = (s.fieldAt l x).cold := by
    have hcold := onLines_fieldAt FieldDev.cold (ls := allLines) (by decide) { s with power := false } l x ⟨hlow, hhigh⟩
    rw [htable, if_pos (show l ∈ allLines from List.mem_range.mpr hl)] at hcold
    exact hcold
  obtain ⟨t, ht⟩ : ∃ t : State, t = { s with
      power := false, field := table
      dsq := { s.dsq with
        records := if a then tearFirst s.dsq.records else s.dsq.records
        lastRecord := if b then none else s.dsq.lastRecord } } := ⟨_, rfl⟩
  have hexec : execPowerLoss a b s = .next t := by
    unfold execPowerLoss
    rw [h, if_neg (c := (!true) = true) Bool.false_ne_true, htable, ht]
  have htfield : t.field = table := by rw [ht]
  refine ⟨t, hexec, ?_, ?_, ?_, fun ha => ?_, fun hb => ?_, fun l x hl hlow hhigh => ?_⟩
  case _ => rw [ht]
  case _ => rw [ht]
  case _ => rw [ht]
  · rw [ht, ha]
    rfl
  · rw [ht, hb]
    rfl
  · rw [show t.fieldAt l x = (s.fieldAt l x).cold from (fieldAt_of_field (s := { s with power := false, field := table }) htfield l x).trans
      (hfield l x hl hlow hhigh)]
    exact ⟨rfl, rfl, rfl, rfl, rfl, rfl⟩

/-! ### CONTROLLER_RESTART -/

theorem restartSession_shape (s : State) : ∃ d x, s.restartSession = { s with dsq := d, ntu := x } := by
  unfold State.restartSession
  split
  · exact ⟨_, _, rfl⟩
  · exact ⟨s.dsq, s.ntu, rfl⟩

theorem writeRecord_records (s : State) (x : RecordSource) :
    ∃ r : DrillRecord, (s.writeRecord x).dsq.records = (r :: s.dsq.records).take 16 ∧ r.reason = x.reason ∧ r.program = x.program :=
  ⟨_, rfl, rfl, rfl⟩

theorem restartSession_record {s : State} {d : Session} (hd : s.dsq.session = some d) :
    s.restartSession.dsq.records = ((s.endTiming.writeRecord ((s.timingEnded d).recordSource .restart)).dsq.records) := by
  unfold State.restartSession
  rw [endTiming_session hd]
  rfl

theorem endAllPages_shape (s : State) : ∃ g x, s.endAllPages = { s with pgc := g, ntu := x } := by
  have hends : ∀ (ps : List Page) (u : State), ∃ x, ps.foldl (fun s p => s.raisePageEnd p .restart) u = { u with ntu := x } := by
    intro ps
    induction ps with
    | nil => exact fun u => ⟨u.ntu, rfl⟩
    | cons p ps ih =>
      intro u
      obtain ⟨x, hx⟩ := ih (u.raisePageEnd p .restart)
      exact ⟨x, hx⟩
  obtain ⟨x, hx⟩ := hends s.pgc.queue s
  refine ⟨{ queue := [], lastPage := 0, arrivals := 0 }, x, ?_⟩
  unfold State.endAllPages
  rw [hx]

theorem endWrites_shape (failed : List Region) (s : State) :
    ∃ store x, s.endWrites failed = { s with store := store, ntu := x } := by
  unfold State.endWrites
  refine List.foldlRecOn (motive := fun u : State => ∃ store x, u = { s with store := store, ntu := x }) _ _ ⟨s.store, s.ntu, rfl⟩
    fun u ⟨store, x, hu⟩ r _ => ?_
  subst hu
  split
  · unfold State.writeEnds
    dsimp only
    split
    · exact ⟨_, _, rfl⟩
    · exact ⟨_, _, rfl⟩
  · exact ⟨store, x, rfl⟩

theorem dropTests_shape (ls : List Nat) (s : State) : ∃ table, ls.foldl State.dropTest s = { s with lines := table } := by
  induction ls generalizing s with
  | nil => exact ⟨s.lines, rfl⟩
  | cons l ls ih =>
    obtain ⟨table, h⟩ := ih (s.dropTest l)
    exact ⟨table, h⟩

/-- What is carried over a restart beside the load. -/
def State.carried (s : State) : Bool × Bool × Nat × Tbu × List DrillRecord := (s.power, s.setup, s.now, s.tbu, s.dsq.records)

theorem carried_of_rest {s t : State} (h : t.rest = s.rest) : t.carried = s.carried := by
  have h' := congrArg State.carried h
  exact h'

theorem rest_dropAllParts (s : State) : s.dropAllParts.rest = s.rest :=
  rest_foldl (fun _ _ => rest_foldl (fun _ _ => rest_dropPart ..) _ _) _ _

theorem sess_dropAllParts (s : State) : s.dropAllParts.sess = s.sess :=
  sess_foldl (fun _ _ => sess_foldl (fun _ _ => sess_dropPart ..) _ _) _ _

/-- A restart carries the Timebase Unit over, and writes the record of a session that it ends. -/
theorem endWork_carried (s : State) (failed : List Region) :
    (s.endWork failed).power = s.power ∧ (s.endWork failed).setup = s.setup ∧ (s.endWork failed).tbu = s.tbu ∧
      ∀ d, s.dsq.session = some d →
        ∃ r : DrillRecord, (s.endWork failed).dsq.records = (r :: s.dsq.records).take 16 ∧ r.reason = .restart ∧ r.program = d.program := by
  obtain ⟨a, ha⟩ : ∃ a, a = s.dropAllParts := ⟨_, rfl⟩
  have hcarried : a.carried = s.carried := ha ▸ carried_of_rest (rest_dropAllParts s)
  have hsess : a.sess = s.sess := ha ▸ sess_dropAllParts s
  obtain ⟨g, x, hpages⟩ := endAllPages_shape a
  obtain ⟨b, hb⟩ : ∃ b, b = a.endAllPages := ⟨_, rfl⟩
  obtain ⟨dsq, y, hrestart⟩ := restartSession_shape b
  obtain ⟨table, htests⟩ := dropTests_shape allLines b.restartSession
  obtain ⟨store, z, hwrites⟩ := endWrites_shape failed (allLines.foldl State.dropTest b.restartSession)
  have hend : s.endWork failed = (allLines.foldl State.dropTest b.restartSession).endWrites failed := by
    subst hb ha
    rfl
  have hparts : (s.endWork failed).power = b.power ∧ (s.endWork failed).setup = b.setup ∧ (s.endWork failed).tbu = b.tbu ∧
      (s.endWork failed).dsq = b.restartSession.dsq := by
    rw [hend, hwrites, htests]
    dsimp only
    rw [hrestart]
    exact ⟨rfl, rfl, rfl, rfl⟩
  obtain ⟨hpower, hsetup, htbu, hdsq⟩ := hparts
  have hbcarried : b.carried = a.carried := by rw [hb, hpages]; rfl
  have hbsess : b.dsq = a.dsq := by rw [hb, hpages]
  obtain ⟨hcpower, hcsetup, _, hctbu, hcrecords⟩ : b.power = s.power ∧ b.setup = s.setup ∧ b.now = s.now ∧ b.tbu = s.tbu ∧
      b.dsq.records = s.dsq.records := by
    have h := hbcarried.trans hcarried
    unfold State.carried at h
    simpa only [Prod.mk.injEq] using h
  refine ⟨hpower.trans hcpower, hsetup.trans hcsetup, htbu.trans hctbu, fun d hd => ?_⟩
  obtain ⟨e, he, hfixed⟩ := session_of_sess hsess hd
  have heb : b.dsq.session = some e := by rw [hbsess]; exact he
  obtain ⟨hprogram, _⟩ := timingEnded_kept b e
  have heprogram : e.program = d.program := by
    have h' := congrArg Session.program hfixed
    exact h'
  obtain ⟨r, hr, hreason, hrprogram⟩ := writeRecord_records b.endTiming ((b.timingEnded e).recordSource .restart)
  refine ⟨r, ?_, hreason, hrprogram.trans (hprogram.trans heprogram)⟩
  rw [hdsq, restartSession_record heb, ← hcrecords]
  exact hr

theorem execControllerRestart_restarts {s : State} (h : s.power = true) (hdue : s.restartDue = true) (failed : List Region) :
    execControllerRestart failed s = finish ((s.endWork failed).load).comeUp := by
  unfold execControllerRestart
  rw [event_powered _ h, if_pos hdue]

/-- Settles O59: power-on and the restart by what the load and the blocks' start leave, the loss of power by what it does to devices. -/
theorem startUpSetsTheBlocks : Obligations.StartUpSetsTheBlocks := by
  refine ⟨fun s good n h => ?_, fun s a b h => execPowerLoss_loses h a b, fun s failed h hdue => ?_⟩
  · obtain ⟨t, ht⟩ := finish_next (s.poweredFrom good n).comeUp
    obtain ⟨hparts, hports, _, hpnl, hsample, _⟩ := risen_blocks ht
    obtain ⟨hpages, hjobs, hvacant⟩ := risen_idle ht
    obtain ⟨hkept, hstore, hfield, limit, htbu⟩ := poweredFrom_kept s good n
    simp only [Prod.mk.injEq] at hparts hkept
    obtain ⟨hpower, hsetup, hnow, htstore, httbu, hslots, hfromA, hfromB⟩ := hparts
    obtain ⟨hkpower, hksetup, hknow⟩ := hkept
    obtain ⟨live, hload⟩ := load_shape (({ s with power := true } : State).clocksRun n)
    have hregion := load_region (({ s with power := true } : State).clocksRun n)
    rw [hload] at hregion hstore
    rw [htbu] at httbu
    obtain ⟨hgood, hbad, hphase, hchain, hhistory, hdisc, hstep⟩ := powerOn_tbu httbu
    have hst := htstore.trans hstore
    refine ⟨t, (execPowerOn_eq h good n).trans ht, hpower.trans hkpower, hsetup.trans hksetup, hnow.trans hknow, ?_, ?_, ?_, ?_, hgood, hbad,
      hphase, hchain, hhistory, hdisc, hstep, hpages, hjobs, hvacant, hpnl, hslots, hfromA, hfromB, risen_port hports, risen_reads hsample,
      fun l x => ?_⟩
    · rw [hst]
      exact hregion
    case _ => rw [hst]
    case _ => rw [hst]
    case _ => rw [hst]; rfl
    · rw [risen_clock ht, fieldAt_of_field hfield, clocksRun_fieldAt]
      rfl
  · obtain ⟨t, ht⟩ := finish_next ((s.endWork failed).load).comeUp
    obtain ⟨hparts, hports, hdue', _, hsample, hrecords⟩ := risen_blocks ht
    obtain ⟨hpages, hjobs, hvacant⟩ := risen_idle ht
    obtain ⟨_, hsetup, htbu, hrecord⟩ := endWork_carried s failed
    obtain ⟨live, hload⟩ := load_shape (s.endWork failed)
    rw [hload] at hparts hrecords
    dsimp only at hrecords
    simp only [Prod.mk.injEq] at hparts
    obtain ⟨_, htsetup, _, htstore, httbu, hslots, hfromA, hfromB⟩ := hparts
    refine ⟨t, (execControllerRestart_restarts h hdue failed).trans ht, hdue', htsetup.trans hsetup, httbu.trans htbu,
      discipline_disabled, ?_, ?_, hpages, hjobs, hvacant, hslots, hfromA, hfromB, risen_port hports, risen_reads hsample, fun d hd => ?_⟩
    case _ => rw [htstore]
    case _ => rw [htstore]
    · obtain ⟨r, hr, hreason, hprogram⟩ := hrecord d hd
      refine ⟨r, ?_, hreason, hprogram⟩
      rw [hrecords]
      exact hr

end Sys2Proof.Machine
end

