-- ==== Sys2Proof/Proofs/Pages.lean ====
section
/-! Pages: how one enters the queue, how one is ended and leaves it; PAGE, END and CANCEL (O49). -/

set_option autoImplicit false

namespace Sys2Proof.Machine

open Sys2Proof

/-! ### Ended pages leave the queue (R146) -/

theorem tellEnded_live {p : Page} (h : p.hasEnded = false) (s : State) : s.tellEnded p = s := by
  unfold State.tellEnded
  unfold Page.hasEnded at h
  cases hp : p.state with
  | ended r =>
    rw [hp] at h
    exact Bool.noConfusion h
  | queued | starting | chime | live => rfl

theorem tellEnded_all (ps : List Page) (s : State) : ps.foldl State.tellEnded s = (ps.filter Page.hasEnded).foldl State.tellEnded s := by
  induction ps generalizing s with
  | nil => rfl
  | cons p ps ih =>
    rw [List.foldl_cons, ih, List.filter_cons]
    cases hp : p.hasEnded with
    | true => rfl
    | false =>
      rw [tellEnded_live hp]
      rfl

theorem tellEnded_ended {p : Page} {r : PageReason} (h : p.state = .ended r) (s : State) : s.tellEnded p = s.raisePageEnd p r := by
  unfold State.tellEnded
  rw [h]

/-- The one ended page of the queue leaves it with its PAGE-END. -/
theorem finalizePages_one {s : State} {p : Page} {r : PageReason} (hended : s.pgc.queue.filter Page.hasEnded = [p])
    (hstate : p.state = .ended r) :
    s.finalizePages =
      ({ s with pgc := { s.pgc with queue := s.pgc.queue.filter fun q => !q.hasEnded } } : State).raisePageEnd p r := by
  unfold State.finalizePages
  rw [tellEnded_all, hended, List.foldl_cons, List.foldl_nil, tellEnded_ended hstate]
  rfl

/-- A page as its end leaves it. -/
def Page.endedBy (p : Page) (r : PageReason) : Page := { p with state := .ended r, waiting := [] }

/-- Pages that are ended by their number, among pages of which none had ended. -/
theorem endedPages {ps : List Page} (hlive : (ps.all fun p => !p.hasEnded) = true) (n : Nat) (r : PageReason) :
    (ps.map fun p => if p.num = n then p.endedBy r else p).filter Page.hasEnded =
        (ps.filter fun p => p.num = n).map (fun p => p.endedBy r) ∧
      ((ps.map fun p => if p.num = n then p.endedBy r else p).filter fun p => !p.hasEnded) = ps.filter fun p => p.num ≠ n := by
  induction ps with
  | nil => exact ⟨rfl, rfl⟩
  | cons p ps ih =>
    rw [List.all_cons, Bool.and_eq_true] at hlive
    obtain ⟨hp, hps⟩ := hlive
    obtain ⟨hended, hothers⟩ := ih hps
    have hpEnded : p.hasEnded = false := by simpa using hp
    by_cases hnum : p.num = n
    · have hself : (p.endedBy r).hasEnded = true := rfl
      simp [hnum, hself, hended, hothers]
    · simp [hnum, hpEnded, hended, hothers]

theorem endPage_offAir {s : State} {n : Nat} {p : Page} (hp : s.page? n = some p) (hoff : p.onAir = false) (r : PageReason) :
    s.endPage n r = s.updatePage n fun p => p.endedBy r := by
  unfold State.endPage
  rw [hp]
  exact if_neg (Bool.eq_false_iff.mp hoff)

theorem endPage_onAir {s : State} {n : Nat} {p : Page} (hp : s.page? n = some p) (hon : p.onAir = true) (r : PageReason) :
    s.endPage n r = (s.updatePage n fun p => p.endedBy r).releaseZones (Holder.isPage n) (Suspended.isPage n) allZones := by
  unfold State.endPage
  rw [hp]
  exact if_pos hon

/-! ### A page enters the queue (R135, R136) -/

theorem insertPage_split (p : Page) (l : List Page) :
    ∃ before after, l = before ++ after ∧ insertPage p l = before ++ p :: after := by
  induction l with
  | nil => exact ⟨[], [], rfl, rfl⟩
  | cons y ys ih =>
    rw [insertPage]
    split
    · obtain ⟨before, after, hys, hinsert⟩ := ih
      exact ⟨y :: before, after, congrArg _ hys, congrArg _ hinsert⟩
    · exact ⟨[], y :: ys, rfl, rfl⟩

theorem newPage_fresh {s : State} (h : s.pgc.queue.length ≤ 3) {q : Page} (hq : q ∈ s.pgc.queue) : q.num ≠ s.pageNumber := by
  have hlength : (s.pgc.queue.map Page.num).length < 255 := by rw [List.length_map]; omega
  intro hnum
  have hused := List.mem_map_of_mem (f := Page.num) hq
  rw [hnum] at hused
  exact (nextNumber_free hlength s.pgc.lastPage).1 hused

/-- A page of which no zone can be taken yet, sorted as it enters. -/
structure Sorted (s : State) (pg q : Page) : Prop where
  held : q.held = []
  live : q.hasEnded = false
  num : q.num = pg.num
  state : q.state = pg.state
  source : q.source = pg.source
  prio : q.prio = pg.prio
  port : q.port = pg.port
  start : q.start = pg.start

theorem sorted_waits {s : State} {pg : Page} (hqueued : pg.state = .queued)
    (hwait : ∃ z, z ∈ s.expandNames pg.names ∧ s.pageAnswer pg.prio z = .waiting)
    (hnot : ∀ z, z ∈ s.expandNames pg.names → s.pageAnswer pg.prio z ≠ .taken) : Sorted s pg (s.sorted pg) := by
  obtain ⟨z, hz, hzwait⟩ := hwait
  have hheld : (s.expandNames pg.names).filter (fun z => s.pageAnswer pg.prio z = .taken) = [] :=
    List.filter_eq_nil_iff.mpr fun z hz h => hnot z hz (of_decide_eq_true h)
  have hwaiting : (s.expandNames pg.names).filter (fun z => s.pageAnswer pg.prio z = .waiting) ≠ [] :=
    List.ne_nil_of_mem (List.mem_filter.mpr ⟨hz, decide_eq_true hzwait⟩)
  have hnotEnded : ¬((((s.expandNames pg.names).filter fun z => s.pageAnswer pg.prio z = .taken).isEmpty &&
      ((s.expandNames pg.names).filter fun z => s.pageAnswer pg.prio z = .waiting).isEmpty) = true) := by
    rw [Bool.and_eq_true, List.isEmpty_iff, List.isEmpty_iff]
    exact fun h => hwaiting h.2
  have hsorted : s.sorted pg =
      { pg with
        held := (s.expandNames pg.names).filter fun z => s.pageAnswer pg.prio z = .taken
        waiting := (s.expandNames pg.names).filter fun z => s.pageAnswer pg.prio z = .waiting
        suspended := []
        lost := (s.expandNames pg.names).filterMap fun z =>
          match s.pageAnswer pg.prio z with | .excluded r => some (z, r) | _ => none } := by
    unfold State.sorted
    exact if_neg hnotEnded
  rw [hsorted]
  refine ⟨hheld, ?_, rfl, rfl, rfl, rfl, rfl, rfl⟩
  unfold Page.hasEnded
  dsimp only
  rw [hqueued]

/-- What sorting leaves of a page of the queue. -/
def State.resorted (u : State) (n : Nat) (x : Page) : Page := if x.num = n then (if x.state = .queued then u.sorted x else x) else x

/-- A page that has to wait for all its zones takes its place in the queue, and nothing else changes. -/
theorem enterPage_waits {s : State} {p : Port} {op : Fin 16} {a : PageAsk} (hlength : s.pgc.queue.length ≤ 3)
    (hwait : ∃ z, z ∈ s.expandNames a.names ∧ s.pageAnswer a.prio z = .waiting)
    (hnot : ∀ z, z ∈ s.expandNames a.names → s.pageAnswer a.prio z ≠ .taken) :
    ∃ (before after : List Page) (q : Page), s.pgc.queue = before ++ after ∧ Sorted s (s.newPage p op a) q ∧
      s.enterPage p op a =
        { s with pgc := { queue := before ++ q :: after, lastPage := s.pageNumber, arrivals := s.pgc.arrivals + 1 } } := by
  obtain ⟨before, after, hqueue, hinsert⟩ := insertPage_split (s.newPage p op a) s.pgc.queue
  obtain ⟨u, hu⟩ : ∃ u : State, u = { s with pgc := { queue := before ++ s.newPage p op a :: after, lastPage := s.pageNumber
                                                      arrivals := s.pgc.arrivals + 1 } } := ⟨_, rfl⟩
  have hsort : Sorted s (s.newPage p op a) (s.sorted (s.newPage p op a)) := sorted_waits rfl hwait hnot
  have husort : u.sorted (s.newPage p op a) = s.sorted (s.newPage p op a) := by
    subst hu
    rfl
  have hold (x : Page) (hx : x ∈ before ++ after) : x.num ≠ s.pageNumber := newPage_fresh hlength (hqueue ▸ hx)
  have hkept (l : List Page) (hl : ∀ x, x ∈ l → x ∈ before ++ after) :
      l.map (u.resorted s.pageNumber) = l := by
    refine (List.map_congr_left fun x hx => if_neg (hold x (hl x hx))).trans ?_
    exact List.map_id _
  have hsorted : u.sortPage s.pageNumber =
      { s with pgc := { queue := before ++ s.sorted (s.newPage p op a) :: after, lastPage := s.pageNumber
                        arrivals := s.pgc.arrivals + 1 } } := by
    have hupdate : u.sortPage s.pageNumber =
        { u with pgc := { u.pgc with queue := u.pgc.queue.map (u.resorted s.pageNumber) } } := rfl
    have hself : u.resorted s.pageNumber (s.newPage p op a) = s.sorted (s.newPage p op a) := by
      unfold State.resorted
      rw [if_pos (show (s.newPage p op a).num = s.pageNumber from rfl), if_pos (show (s.newPage p op a).state = .queued from rfl), husort]
    have huqueue : u.pgc.queue = before ++ s.newPage p op a :: after := by rw [hu]
    rw [hupdate, huqueue, List.map_append, List.map_cons, hkept before fun x hx => List.mem_append_left _ hx,
      hkept after fun x hx => List.mem_append_right _ hx, hself, hu]
  have hpage : (u.sortPage s.pageNumber).page? s.pageNumber = some (s.sorted (s.newPage p op a)) := by
    rw [hsorted]
    have hnum : (s.sorted (s.newPage p op a)).num = s.pageNumber := hsort.num
    unfold State.page?
    dsimp only
    rw [List.find?_append, List.find?_eq_none.mpr fun x hx => by simpa using hold x (List.mem_append_left _ hx), List.find?_cons,
      decide_eq_true hnum]
    rfl
  refine ⟨before, after, s.sorted (s.newPage p op a), hqueue, hsort, ?_⟩
  have henter : s.enterPage p op a =
      (if ((u.sortPage s.pageNumber).page? s.pageNumber).any Page.canStart then (u.sortPage s.pageNumber).later .pass
        else u.sortPage s.pageNumber) := by
    rw [hu, ← hinsert]
    rfl
  rw [henter, if_neg, hsorted]
  rw [hpage, Option.any_some]
  unfold Page.canStart
  rw [hsort.held]
  simp

/-! ### PAGE, END and CANCEL (R135, R137, R145) -/

theorem classCap_eq (c : OpClass) : classCap c = if c = .safety then 7 else if c = .office then 5 else 3 := by cases c <;> rfl

theorem askPage_some {s : State} {p : Port} {op : Fin 16} {src : Source} {prio a : Nat} {names : ZoneNames} {pre limit : Option Nat}
    {part : Bool} (ha : a = min prio (if s.classOf p op = .safety then 7 else if s.classOf p op = .office then 5 else 3))
    (hsource : sourceFits src p = true) (hnames : namesExist names = true) (hpre : ∀ k, pre = some k → k < 16) :
    ∃ x, s.askPage p op src prio names pre limit part = some x ∧ x.source = src ∧ x.prio = a ∧ x.names = names := by
  have hpretone : (pre.all fun k => decide (k < 16)) = true := by
    cases pre with
    | none => rfl
    | some k => exact decide_eq_true (hpre k rfl)
  unfold State.askPage
  rw [if_pos (by rw [hsource, hnames, hpretone]; rfl)]
  exact ⟨_, rfl, rfl, by rw [ha, ← classCap_eq], rfl⟩

section
variable {s : State} {p : Port} {op : Fin 16} {n : Nat} (h : s.takes p op .staff)
include h

theorem execPage_waits {src : Source} {prio a : Nat} {names : ZoneNames} {pre limit : Option Nat} {part : Bool}
    (ha : a = min prio (if s.classOf p op = .safety then 7 else if s.classOf p op = .office then 5 else 3))
    (hsource : sourceFits src p = true) (hnames : namesExist names = true) (hpre : ∀ k, pre = some k → k < 16)
    (hnone : ∀ q, q ∈ s.pgc.queue → q.source ≠ src) (hlength : s.pgc.queue.length ≤ 3)
    (hwait : ∃ z, z ∈ s.expandNames names ∧ s.pageAnswer a z = .waiting)
    (hnot : ∀ z, z ∈ s.expandNames names → s.pageAnswer a z ≠ .taken) :
    ∃ (t : State) (q : Page) (clamped : Bool), execPage p op src prio names pre limit part s = .next t ∧
      q ∈ t.pgc.queue ∧ q.state = .queued ∧ q.source = src ∧ q.prio = a ∧ q.port = p ∧ q.start = none ∧
      (t.port p).reply = some (.okNumber clamped q.num) ∧ t.ztc = s.ztc := by
  obtain ⟨x, hask, hxsource, hxprio, hxnames⟩ := askPage_some (limit := limit) (part := part) ha hsource hnames hpre
  obtain ⟨before, after, q, hqueue, hsorted, henter⟩ :=
    enterPage_waits (p := p) (op := op) (a := x) hlength (by rw [hxnames, hxprio]; exact hwait) (by rw [hxnames, hxprio]; exact hnot)
  have hfree : ¬(s.pgc.queue.any fun q => q.source = x.source) = true := by
    rw [List.any_eq_true, hxsource]
    exact fun ⟨y, hy, hsrc⟩ => hnone y hy (of_decide_eq_true hsrc)
  obtain ⟨u, hu⟩ : ∃ u : State, u = { s with pgc := { queue := before ++ q :: after, lastPage := s.pageNumber
                                                      arrivals := s.pgc.arrivals + 1 } } := ⟨_, rfl⟩
  have hexec : execPage p op src prio names pre limit part s = finish (u.replied p (.okNumber x.clamped s.pageNumber)) := by
    refine request_answered h _ ?_ rfl
    rw [hask]
    dsimp only
    rw [if_neg hfree, henter, ← hu]
  have hpages : (u.pgc.queue.all fun p => !p.hasEnded) = true := by
    have hold := h.1.2.1
    rw [hqueue, List.all_append, Bool.and_eq_true] at hold
    rw [hu]
    dsimp only
    rw [List.all_append, List.all_cons, hsorted.live, hold.1, hold.2]
    rfl
  have hfinish : finish (u.replied p (.okNumber x.clamped s.pageNumber)) = .next (u.replied p (.okNumber x.clamped s.pageNumber)).rejudge :=
    finish_atRest (by rw [replied_ztc, hu]; exact h.1.1) (by rw [replied_pgc]; exact hpages)
  obtain ⟨t, ht⟩ := finish_next (u.replied p (.okNumber x.clamped s.pageNumber))
  have htEq := Host.Outcome.next.inj (ht.symm.trans hfinish)
  refine ⟨t, q, x.clamped, hexec.trans ht, ?_, hsorted.state, hsorted.source.trans hxsource, hsorted.prio.trans hxprio, hsorted.port,
    hsorted.start, ?_, ?_⟩
  · have hpgc : t.pgc = u.pgc := by rw [htEq]; exact replied_pgc u p (.okNumber x.clamped s.pageNumber)
    rw [hpgc, hu]
    exact List.mem_append_right _ List.mem_cons_self
  · rw [finish_replies ht, hsorted.num]
    rfl
  · have hztc : t.ztc = u.ztc := by rw [htEq]; exact replied_ztc u p (.okNumber x.clamped s.pageNumber)
    rw [hztc, hu]

theorem execEndPage_range (hnone : s.page? n = none) : execEndPage p op n s = .next (s.replied p (.no .range)) := by
  refine request_reads h _ ?_ rfl
  rw [hnone]

theorem execCancel_range (hnone : s.page? n = none) : execCancel p op n s = .next (s.replied p (.no .range)) := by
  refine request_reads h _ ?_ rfl
  rw [hnone]

theorem execEndPage_state {q : Page} (hq : s.page? n = some q) (hport : q.port ≠ p) :
    execEndPage p op n s = .next (s.replied p (.no .state)) := by
  refine request_reads h _ ?_ rfl
  rw [hq]
  exact if_neg hport

theorem execEndPage_ends {q : Page} (hq : s.page? n = some q) (hport : q.port = p) :
    execEndPage p op n s = .next ((s.endPage n .byEnd).replied p .ok).done := by
  refine request_answered h _ ?_ rfl
  rw [hq]
  exact if_pos hport

theorem execCancel_ends {q : Page} (hq : s.page? n = some q) (hwho : q.port = p ∨ classRank q.cls ≤ classRank (s.classOf p op)) :
    execCancel p op n s = .next ((s.endPage n .cancel).replied p .ok).done := by
  refine request_answered h _ ?_ rfl
  rw [hq]
  exact if_pos hwho

theorem execCancel_class {q : Page} (hq : s.page? n = some q) (hport : q.port ≠ p)
    (hclass : classRank (s.classOf p op) < classRank q.cls) :
    ∃ t : State, execCancel p op n s = .next t ∧ (t.port p).reply = some (.no .cls) ∧ t.pgc = s.pgc ∧ t.ztc = s.ztc := by
  obtain ⟨hrest, hreads, hfree, hallowed⟩ := h
  obtain ⟨u, hu⟩ : ∃ u, u = (s.answer p (.no .cls)).capture p op .cancel none .cls := ⟨_, rfl⟩
  have hexec : execCancel p op n s = finish u := by
    unfold execCancel
    rw [request_allowed _ hreads hfree hallowed, hq]
    dsimp only
    rw [if_neg (by rintro (hp | hle); exacts [hport hp, by omega])]
    rw [hu]
    rfl
  have hztc : u.ztc = s.ztc := by
    rw [hu]
    cases p <;> rfl
  have hpgc : u.pgc = s.pgc := by
    rw [hu]
    cases p <;> rfl
  have hreply : (u.port p).reply = some (.no .cls) := by
    rw [hu]
    cases p <;> rfl
  have hfinish := finish_unsettled hrest hztc hpgc
  refine ⟨u.rejudge, hexec.trans hfinish, ?_, hpgc, hztc⟩
  rw [finish_port hfinish p]
  exact hreply

theorem execCancel_queued {q : Page} (hq : s.page? n = some q) (hstate : q.state = .queued)
    (hone : (s.pgc.queue.filter fun x => x.num = n) = [q]) (hport : q.port = p) :
    execCancel p op n s =
      .next (({ s with pgc := { s.pgc with queue := s.pgc.queue.filter fun x => x.num ≠ n } } : State).replied p .ok
        |>.noticed .pageEnd (.pageEnd n q.port q.op q.source q.prio q.start.isNone .cancel q.arrival s.campus q.start
          (if q.start.isSome then q.lost else []))) := by
  have hoff : q.onAir = false := by
    unfold Page.onAir
    rw [hstate]
    rfl
  obtain ⟨u, hu⟩ : ∃ u : State, u = (s.updatePage n fun p => p.endedBy .cancel).replied p .ok := ⟨_, rfl⟩
  have hpgc : u.pgc = { s.pgc with queue := s.pgc.queue.map fun p => if p.num = n then p.endedBy .cancel else p } := by
    rw [hu]
    exact replied_pgc _ p .ok
  obtain ⟨hended, hothers⟩ := endedPages h.1.2.1 n .cancel
  have huended : u.pgc.queue.filter Page.hasEnded = [q.endedBy .cancel] := by
    rw [hpgc]
    exact hended.trans (by rw [hone]; rfl)
  have huothers : (u.pgc.queue.filter fun x => !x.hasEnded) = s.pgc.queue.filter fun x => x.num ≠ n := by
    rw [hpgc]
    exact hothers
  have hagenda : u.ztc.agenda = [] := by
    rw [hu, replied_ztc]
    exact h.1.1
  have hsettle : u.settle = _ := (settle_idle hagenda).trans (finalizePages_one huended rfl)
  have hdone : ((s.endPage n .cancel).replied p .ok).done = u.settle.rejudge := by
    rw [endPage_offAir hq hoff, hu]
    rfl
  rw [execCancel_ends h hq (.inl hport), hdone, hsettle, huothers]
  have hnum := page_num hq
  subst hnum
  subst hu
  cases p <;> rfl

end

/-- Settles O49: a page that waits by `enterPage_waits`, END and CANCEL by who may end a page and how one leaves the queue. -/
theorem endAndCancelEndAPage : Obligations.EndAndCancelEndAPage := by
  intro s p op n h
  exact ⟨fun src prio a names pre limit part => execPage_waits h, fun hnone => ⟨execEndPage_range h hnone, execCancel_range h hnone⟩,
    fun q hq => ⟨execEndPage_state h hq, execCancel_class h hq, execEndPage_ends h hq, execCancel_ends h hq, execCancel_queued h hq⟩⟩

end Sys2Proof.Machine
end

