-- ==== Sys2Proof/Proofs/PageTimers.lean ====
section
/-! The timers of pages (O48): what the end of a started page leaves, and how the work that it sets going is carried out. -/

set_option autoImplicit false

namespace Sys2Proof.Machine

open Sys2Proof

/-! ### The end of a started page (R145, R146) -/

theorem later_pgc (s : State) (w : Work) : (s.later w).pgc = s.pgc := by
  obtain ⟨ws, h⟩ := later_shape s w
  rw [h]

theorem later_ntu (s : State) (w : Work) : (s.later w).ntu = s.ntu := by
  obtain ⟨ws, h⟩ := later_shape s w
  rw [h]

theorem seekDrillTrunk_pgc (s : State) :
    s.seekDrillTrunk.pgc = s.pgc ∧ s.seekDrillTrunk.ntu = s.ntu ∧ s.seekDrillTrunk.ztc.groups = s.ztc.groups := by
  unfold State.seekDrillTrunk
  split
  · exact ⟨later_pgc .., later_ntu .., later_groups ..⟩
  · exact ⟨rfl, rfl, rfl⟩

theorem setWanted_groups (s : State) (z : Nat) (b t : Option Nat) : (s.setWanted z b t).ztc.groups = s.ztc.groups := by
  obtain ⟨zones, lines, h⟩ := setWanted_shape s z b t
  rw [h]

theorem setWanted_ntu (s : State) (z : Nat) (b t : Option Nat) : (s.setWanted z b t).ntu = s.ntu := by
  obtain ⟨zones, lines, h⟩ := setWanted_shape s z b t
  rw [h]

theorem refreshReasons_ntu (s : State) (z : Nat) : (s.refreshReasons z).ntu = s.ntu := by
  rw [refreshReasons_told]
  exact List.foldlRecOn (motive := fun u : State => u.ntu = s.ntu) _ _ rfl fun u hu _ _ => hu

/-- What a return does of the pages; it tells nothing and leaves the start groups. -/
theorem returnZone_pages (s : State) (z : Nat) :
    ((s.returnZone z).pgc = s.pgc ∨
      (∃ p, p ∈ s.pgc.queue ∧ p.onAir = true ∧ ∃ n, (s.returnZone z).pgc = (s.pageReturned n z).pgc) ∨
      ∃ r, (s.returnZone z).pgc = (s.waitersLose z r).pgc) ∧
      (s.returnZone z).ntu = s.ntu ∧ (s.returnZone z).ztc.groups = s.ztc.groups := by
  have hset (r : ZoneRec) (b t : Option Nat) : ((s.setZone z r).setWanted z b t).pgc = s.pgc := setWanted_pgc ..
  have hquiet (r : ZoneRec) (b t : Option Nat) :
      ((s.setZone z r).setWanted z b t).ntu = s.ntu ∧ ((s.setZone z r).setWanted z b t).ztc.groups = s.ztc.groups :=
    ⟨setWanted_ntu .., setWanted_groups ..⟩
  have hlost {u : State} (hu : u.pgc = s.pgc) (r : LossReason) : (u.waitersLose z r).pgc = (s.waitersLose z r).pgc := by
    unfold State.waitersLose
    rw [hu]
  unfold State.returnZone
  dsimp only
  split
  · split
    next pg hpg =>
      split
      next hair =>
        refine ⟨.inr (.inl ⟨pg, List.mem_of_find?_eq_some hpg, hair, _, (refreshReasons_pgc ..).trans (setWanted_pgc ..)⟩), ?_⟩
        rw [refreshReasons_ntu, setWanted_ntu, refreshReasons_ztc]
        exact ⟨rfl, setWanted_groups ..⟩
      · exact ⟨.inl (hset ..), hquiet ..⟩
    · exact ⟨.inl (hset ..), hquiet ..⟩
  · split
    · refine ⟨.inr (.inr ⟨.drill, ?_⟩), ?_⟩
      · split
        · exact (later_pgc ..).trans (hlost (hset ..) .drill)
        · exact (seekDrillTrunk_pgc _).1.trans ((later_pgc ..).trans (hlost (hset ..) .drill))
      · split
        · rw [later_ntu, later_groups]
          exact hquiet ..
        · rw [(seekDrillTrunk_pgc _).2.1, (seekDrillTrunk_pgc _).2.2, later_ntu, later_groups]
          exact hquiet ..
    · exact ⟨.inl (hset ..), hquiet ..⟩
  · split
    · exact ⟨.inl (hset ..), hquiet ..⟩
    · exact ⟨.inr (.inr ⟨.alarm, hlost (hset ..) .alarm⟩), hquiet ..⟩
  · exact ⟨.inl (hset ..), hquiet ..⟩

/-- Every page of this number has ended for this reason, and waits for no zone. -/
def State.endedFor (s : State) (n : Nat) (r : PageReason) : Prop :=
  ∀ q, q ∈ s.pgc.queue → q.num = n → q.state = .ended r ∧ q.waiting = []

theorem endedFor_of_pgc {s t : State} (ht : t.pgc = s.pgc) {n : Nat} {r : PageReason} (h : s.endedFor n r) : t.endedFor n r := by
  unfold State.endedFor
  rw [ht]
  exact h

theorem endedFor_returnZone {s : State} {n : Nat} {r : PageReason} (h : s.endedFor n r) (z : Nat) : (s.returnZone z).endedFor n r := by
  obtain hsame | ⟨_, _, _, m, hm⟩ | ⟨why, hm⟩ := (returnZone_pages s z).1
  · exact endedFor_of_pgc hsame h
  · refine endedFor_of_pgc hm fun q hq hnum => ?_
    obtain ⟨x, hx, rfl⟩ := List.mem_map.mp hq
    by_cases hxm : x.num = m
    · dsimp only at hnum ⊢
      rw [if_pos hxm] at hnum ⊢
      by_cases hsusp : x.suspended.contains z = true
      · rw [if_pos hsusp] at hnum ⊢
        exact h x hx hnum
      · rw [if_neg hsusp] at hnum ⊢
        exact h x hx hnum
    · rw [if_neg hxm] at hnum ⊢
      exact h x hx hnum
  · refine endedFor_of_pgc hm fun q hq hnum => ?_
    obtain ⟨x, hx, rfl⟩ := List.mem_map.mp hq
    by_cases hcond : (x.onAir && x.waiting.contains z) = true
    · rw [if_pos hcond, (lose_kept ..).2.2] at hnum
      obtain ⟨_, hempty⟩ := h x hx hnum
      rw [hempty, Bool.and_eq_true] at hcond
      exact absurd hcond.2 (by simp)
    · rw [if_neg hcond] at hnum ⊢
      exact h x hx hnum

/-- A property that the removal of what is suspended, a change of the agenda and each return keep is kept by a release. -/
theorem releaseZones_keeps {P : State → Prop} {s : State} (h : P s) (mine : Holder → Bool) (mineUnder : Suspended → Bool) (zs : List Nat)
    (hclear : ∀ (s : State) z, P s → P (s.setZone z { s.zoneAt z with suspended := .none }))
    (hagenda : ∀ (s : State) ws, P s → P { s with ztc := { s.ztc with agenda := ws } })
    (hreturn : ∀ (s : State) z, P s → P (s.returnZone z)) : P (s.releaseZones mine mineUnder zs) := by
  unfold State.releaseZones State.holdersEnd
  have hreturned := foldl_keeps (xs := zs.filter fun z => mine (s.zoneAt z).holder)
    (foldl_keeps (xs := zs.filter fun z => mineUnder (s.zoneAt z).suspended) h hclear) hreturn
  obtain ⟨ws, hlater⟩ := later_shape ((List.foldl State.returnZone (List.foldl (fun s z => s.setZone z { s.zoneAt z with suspended := .none })
    s (zs.filter fun z => mineUnder (s.zoneAt z).suspended)) (zs.filter fun z => mine (s.zoneAt z).holder)).push
      [.serve (zs.filter fun z => mine (s.zoneAt z).holder) none true]) .release
  refine Eq.mpr (congrArg P hlater) ?_
  generalize List.foldl State.returnZone _ _ = u at hreturned
  exact hagenda u ws hreturned

theorem ended_endedFor (s : State) (n : Nat) (r : PageReason) : (s.updatePage n fun p => p.endedBy r).endedFor n r := by
  intro q hq hnum
  obtain ⟨x, hx, rfl⟩ := List.mem_map.mp hq
  by_cases hxn : x.num = n
  · rw [if_pos hxn]
    exact ⟨rfl, rfl⟩
  · rw [if_neg hxn] at hnum
    exact absurd hnum hxn

theorem endPage_endedFor {s : State} {n : Nat} {p : Page} (hp : s.page? n = some p) (r : PageReason) : (s.endPage n r).endedFor n r := by
  cases hair : p.onAir with
  | false =>
    rw [endPage_offAir hp hair]
    exact ended_endedFor s n r
  | true =>
    rw [endPage_onAir hp hair]
    exact releaseZones_keeps (P := fun u => u.endedFor n r) (ended_endedFor s n r) _ _ _ (fun _ _ h => endedFor_of_pgc rfl h)
      (fun _ _ h => endedFor_of_pgc rfl h) fun _ z h => endedFor_returnZone h z

/-- Only a suspended page returns a zone to a page. -/
theorem returned_isPage {s : State} {z n : Nat} (h : (s.returned z).holder.isPage n = true) : (s.zoneAt z).suspended.isPage n = true := by
  unfold State.returned at h
  dsimp only at h
  split at h
  next m q hm =>
    split at h
    · split at h
      · rw [hm]
        exact h
      · exact nomatch h
    · exact nomatch h
  · split at h <;> exact nomatch h
  · split at h <;> exact nomatch h
  · exact nomatch h

section
variable {s : State} {n : Nat} {r : PageReason} {p : Page} (hp : s.page? n = some p) (hair : p.onAir = true)
include hp hair

theorem endPage_release : .release ∈ (s.endPage n r).ztc.agenda := by
  rw [endPage_onAir hp hair]
  unfold State.releaseZones
  rw [holdersEnd_agenda]
  unfold withWork
  split
  next hmem => exact hmem
  · exact List.mem_append_right _ List.mem_cons_self

/-- What a page on air leaves, when it ends, of a zone's record: nothing of the page's own. -/
theorem endPage_zoneAt {z : Nat} (hz : z < 32) :
    ((s.zoneAt z).suspended.isPage n = true → ((s.endPage n r).zoneAt z).suspended = .none) ∧
      ((s.zoneAt z).holder.isPage n = true → (s.zoneAt z).suspended = .none →
        (s.endPage n r).zoneAt z = (s.zoneAt z).freed) ∧
      ((s.zoneAt z).holder.isPage n = false →
        ((s.endPage n r).zoneAt z).holder = (s.zoneAt z).holder ∧ ((s.endPage n r).zoneAt z).bellUntil = (s.zoneAt z).bellUntil ∧
          ((s.endPage n r).zoneAt z).trunk = (s.zoneAt z).trunk) ∧
      ((s.endPage n r).zoneAt z).holder.isPage n = false ∧ ((s.endPage n r).zoneAt z).suspended.isPage n = false := by
  rw [endPage_onAir hp hair]
  obtain ⟨hother, hown⟩ := releaseZones_zoneAt (s.updatePage n fun p => p.endedBy r) (Holder.isPage n) (Suspended.isPage n) hz
  have hzone : (s.updatePage n fun p => p.endedBy r).zoneAt z = s.zoneAt z := rfl
  rw [hzone] at hother hown
  have hcleared : (if (s.zoneAt z).suspended.isPage n then { s.zoneAt z with suspended := .none } else s.zoneAt z).suspended.isPage n = false := by
    cases hsusp : (s.zoneAt z).suspended.isPage n with
    | true => rfl
    | false => exact hsusp
  cases hmine : (s.zoneAt z).holder.isPage n with
  | false =>
    rw [hother hmine]
    refine ⟨fun hsusp => ?_, nofun, fun _ => ?_, ?_, hcleared⟩
    · rw [if_pos hsusp]
    · split <;> exact ⟨rfl, rfl, rfl⟩
    · split <;> exact hmine
  | true =>
    obtain ⟨u, hu, _, hreturned⟩ := hown hmine
    rw [hreturned]
    refine ⟨fun _ => (returned_kept u z).2.1, fun _ hnone => ?_, nofun, ?_, ?_⟩
    · rw [if_neg (by rw [hnone]; exact nofun)] at hu
      rw [returned_none (by rw [hu]; exact hnone), hu]
      rfl
    · rw [← hu] at hcleared
      exact Bool.eq_false_iff.mpr fun h => Bool.eq_false_iff.mp hcleared (returned_isPage h)
    · rw [(returned_kept u z).2.1]
      rfl

theorem endPage_trunks : (s.endPage n r).ztc.trunks = s.ztc.trunks := by
  rw [endPage_onAir hp hair]
  exact releaseZones_keeps (P := fun u => u.ztc.trunks = s.ztc.trunks) (s := s.updatePage n fun p => p.endedBy r) rfl _ _ _ (fun _ _ h => h) (fun _ _ h => h)
    fun u z h => (returnZone_trunks u z).1.trans h

/-- The trunk of a page that has ended is in no use any more. -/
theorem endPage_idle {k : Nat} {x : TrunkUse} (hk : k < 4) (hx : s.trunkAt k = some x) (hprogram : x.program = .page n) :
    k ∈ (s.endPage n r).idleTrunks := by
  have hkept : (s.endPage n r).trunkAt k = some x := by
    unfold State.trunkAt
    rw [endPage_trunks hp hair]
    exact hx
  have hpage : ((s.endPage n r).page? n).any (fun p => p.state = .starting) = false := by
    rw [Option.any_eq_false]
    intro q hq
    rw [(endPage_endedFor hp r q (List.mem_of_find?_eq_some hq) (page_num hq)).1]
    simp
  have hzones : (allZones.any fun z => ((s.endPage n r).zoneAt z).holder.isPage n || ((s.endPage n r).zoneAt z).suspended.isPage n) = false := by
    rw [List.any_eq_false]
    intro z hz
    obtain ⟨_, _, _, hholder, hsusp⟩ := endPage_zoneAt (r := r) hp hair (List.mem_range.mp hz)
    rw [hholder, hsusp]
    exact nofun
  unfold State.idleTrunks
  rw [List.mem_filter, hkept]
  refine ⟨List.mem_range.mpr hk, ?_⟩
  dsimp only
  unfold State.programLives
  rw [hprogram]
  dsimp only
  rw [hpage, hzones]
  rfl

end

/-! ### A page that has ended does not come back -/

/-- The pages of this number have ended, and none of them is to be claimed for. -/
def State.pageGone (s : State) (n : Nat) : Prop :=
  (∀ q, q ∈ s.pgc.queue → q.num = n → q.hasEnded = true) ∧ .claimPage n ∉ s.ztc.agenda

theorem pageGone_of_eq {s t : State} {n : Nat} (h : s.pageGone n) (hpgc : t.pgc = s.pgc) (hagenda : t.ztc.agenda = s.ztc.agenda) :
    t.pageGone n := by
  unfold State.pageGone
  rw [hpgc, hagenda]
  exact h

theorem pageGone_map {s t : State} {n : Nat} (h : s.pageGone n) (f : Page → Page) (hpgc : t.pgc.queue = s.pgc.queue.map f)
    (hagenda : t.ztc.agenda = s.ztc.agenda) (hnum : ∀ q, (f q).num = q.num)
    (hended : ∀ q, q.num = n → q.hasEnded = true → (f q).hasEnded = true) : t.pageGone n := by
  unfold State.pageGone
  rw [hpgc, hagenda]
  refine ⟨fun q hq hqn => ?_, h.2⟩
  obtain ⟨x, hx, rfl⟩ := List.mem_map.mp hq
  have hxn : x.num = n := (hnum x).symm.trans hqn
  exact hended x hxn (h.1 x hx hxn)

theorem output_lines (s : State) (z : Nat) (alarm : Bool) : ∃ x, s.output z alarm = { s with lines := x } := by
  unfold State.output
  split
  · exact ⟨_, rfl⟩
  · exact ⟨s.lines, rfl⟩

theorem onAir_not_ended {p : Page} (h : p.onAir = true) : p.hasEnded = false := by
  unfold Page.onAir at h
  unfold Page.hasEnded
  cases hp : p.state <;> simp [hp] at h ⊢

theorem settles_pageGone (n : Nat) : Settles (fun s => s.pageGone n) fun m => m ≠ n where
  claims h m hm := by
    rintro rfl
    exact h.2 hm
  queued h p hp hstate hnum := by
    have hended := h.1 p hp hnum
    unfold Page.hasEnded at hended
    rw [hstate] at hended
    exact Bool.noConfusion hended
  ztc h _ hagenda := ⟨h.1, fun hn => (hagenda n hn).elim h.2 fun hne => hne rfl⟩
  zone h _ := pageGone_of_eq h rfl rfl
  output {s z alarm} h := by
    obtain ⟨x, hx⟩ := output_lines s z alarm
    rw [hx]
    exact pageGone_of_eq h rfl rfl
  part h _ := pageGone_of_eq h rfl rfl
  number h := pageGone_of_eq h rfl rfl
  drop {s m z r} h := pageGone_of_eq h (dropPart_pgc ..) (by rw [dropPart_ztc])
  page {s m f} h hnum hended := by
    refine pageGone_map h (fun p => if p.num = m then f p else p) rfl rfl (fun q => ?_) fun q hqn hq => ?_
    · by_cases hm : q.num = m
      · rw [if_pos hm, hnum]
      · rw [if_neg hm]
    · by_cases hm : q.num = m
      · rw [if_pos hm]
        exact hended.elim (fun hkept => hkept q hq) fun hne => absurd (hm.symm.trans hqn) hne
      · rw [if_neg hm]
        exact hq
  waiters {s z r} h := by
    refine pageGone_map h (fun p => if p.onAir && p.waiting.contains z then p.lose z r else p) rfl rfl (fun q => ?_) fun q _ hq => ?_
    · split
      · exact (lose_kept ..).2.2
      · rfl
    · split
      next hcond =>
        rw [Bool.and_eq_true] at hcond
        exact absurd (hq.symm.trans (onAir_not_ended hcond.1)) Bool.noConfusion
      · exact hq
  signal h _ := pageGone_of_eq h rfl rfl
  stage {s} h := by
    obtain ⟨x, hx⟩ := raiseStage_shape s
    rw [hx]
    exact pageGone_of_eq h rfl rfl
  pagesEnd {s} h := by
    unfold State.pageGone
    rw [finalizePages_agenda, finalizePages_queue]
    exact ⟨fun q hq => h.1 q (List.mem_of_mem_filter hq), h.2⟩

/-- A started page that is ended while no work is left over stands in the queue no more. -/
theorem endPage_leaves {s t : State} {n : Nat} {p : Page} {r : PageReason} (hp : s.page? n = some p) (hair : p.onAir = true)
    (hagenda : s.ztc.agenda = []) (ht : finish (s.endPage n r) = .next t) : ∀ q, q ∈ t.pgc.queue → q.num ≠ n := by
  have hended : (s.updatePage n fun p => p.endedBy r).pageGone n :=
    ⟨fun q hq hnum => by
      unfold Page.hasEnded
      rw [(ended_endedFor s n r q hq hnum).1],
    by
      rw [show (s.updatePage n fun p => p.endedBy r).ztc.agenda = [] from hagenda]
      exact List.not_mem_nil⟩
  have hgone : (s.endPage n r).settle.pageGone n := by
    rw [endPage_onAir hp hair]
    exact (settles_pageGone n).settle ((settles_pageGone n).releaseZones hended)
  intro q hq hnum
  rw [← Host.Outcome.next.inj ht] at hq
  have hlive := List.all_eq_true.mp (settle_law (s.endPage n r)).2 q hq
  rw [hgone.1 q hq hnum] at hlive
  exact Bool.noConfusion hlive

/-! ### The end of a page where nothing else waits -/

/-- The state with this work on the agenda. -/
def State.working (s : State) (ws : List Work) : State := { s with ztc := { s.ztc with agenda := ws } }

/-- Nobody waits for a zone or a trunk: no bell part, no start group, no drill, and every page of the queue has ended. -/
structure State.Hushed (s : State) : Prop where
  groups : s.ztc.groups = []
  waits : ∀ z, (s.zoneAt z).waits = []
  session : s.dsq.session = none
  pages : ∀ q, q ∈ s.pgc.queue → q.hasEnded = true

theorem drillNeeds_idle {s : State} (h : s.dsq.session = none) : s.drillNeeds = false := by
  unfold State.drillNeeds State.stageSpeaks
  rw [h]
  rfl

namespace State.Hushed

variable {s : State} (h : s.Hushed)
include h

theorem notOnAir {q : Page} (hq : q ∈ s.pgc.queue) : q.onAir = false :=
  Bool.eq_false_iff.mpr fun hair => Bool.noConfusion ((h.pages q hq).symm.trans (onAir_not_ended hair))

theorem withZtc {x : Ztc} (hgroups : x.groups = s.ztc.groups) (hzones : x.zones = s.ztc.zones) : ({ s with ztc := x } : State).Hushed where
  groups := hgroups.trans h.groups
  waits z := by
    unfold State.zoneAt
    dsimp only
    rw [hzones]
    exact h.waits z
  session := h.session
  pages := h.pages

theorem working (ws : List Work) : (s.working ws).Hushed := h.withZtc rfl rfl

theorem freeTrunks (ts : List Nat) : (s.freeTrunks ts).Hushed :=
  foldl_keeps (P := State.Hushed) h fun _ _ hs => hs.withZtc rfl rfl

theorem setZone {z : Nat} {r : ZoneRec} (hr : r.waits = []) : (s.setZone z r).Hushed where
  groups := h.groups
  waits y := by
    rw [zoneAt_setZone]
    split
    · exact hr
    · exact h.waits y
  session := h.session
  pages := h.pages

/-- A return leaves the pages as they are where all of them have ended. -/
theorem returnZone_pgc (z : Nat) : (s.returnZone z).pgc = s.pgc := by
  obtain hsame | ⟨p, hp, hair, _⟩ | ⟨r, hr⟩ := (returnZone_pages s z).1
  · exact hsame
  · exact absurd (hair.symm.trans (h.notOnAir hp)) Bool.noConfusion
  · rw [hr]
    unfold State.waitersLose
    dsimp only
    have hkept : s.pgc.queue.map (fun p => if (p.onAir && p.waiting.contains z) = true then p.lose z r else p) = s.pgc.queue := by
      refine (List.map_congr_left fun q hq => if_neg ?_).trans (List.map_id _)
      rw [h.notOnAir hq]
      exact nofun
    rw [hkept]

theorem returnZone (z : Nat) : (s.returnZone z).Hushed where
  groups := (returnZone_pages s z).2.2.trans h.groups
  waits y := by
    rw [returnZone_zoneAt]
    split
    next hy =>
      subst hy
      have hjobs := (returned_kept s y).2.2
      rw [h.waits, List.map_nil, List.map_eq_nil_iff] at hjobs
      exact hjobs
    · exact h.waits y
  session := by
    rw [(returnZone_trunks s z).2]
    exact h.session
  pages := by
    rw [h.returnZone_pgc]
    exact h.pages

theorem returnZone_agenda (z : Nat) : (s.returnZone z).ztc.agenda = s.ztc.agenda := by
  by_cases hdrill : ∃ m, (s.zoneAt z).suspended = .drill m
  · obtain ⟨m, hm⟩ := hdrill
    unfold State.returnZone
    dsimp only
    rw [hm]
    dsimp only
    rw [h.session]
    exact setWanted_agenda ..
  · exact returnZone_agenda_other fun m hm => hdrill ⟨m, hm⟩

theorem serve (zs : List Nat) : s.serve zs none true = s.push [.offer zs] := by
  have hserves : ∀ zs, State.serveZones none zs s = (s, []) := by
    intro zs
    induction zs with
    | nil => rfl
    | cons z zs ih =>
      have hzone : s.serveZone none z = (s, none) := by
        unfold State.serveZone
        rw [h.waits]
      unfold State.serveZones
      rw [hzone]
      dsimp only
      rw [ih]
      rfl
  unfold State.serve
  rw [hserves]
  rfl

theorem offer (zs : List Nat) : zs.foldl State.offerZone s = s := by
  refine List.foldlRecOn (motive := fun u => u = s) zs State.offerZone rfl fun u hu z _ => ?_
  rw [hu]
  have hfind : (s.pgc.queue.find? fun p => p.onAir && p.waiting.contains z) = none :=
    List.find?_eq_none.mpr fun q hq => by rw [h.notOnAir hq]; exact nofun
  have hqueued : (s.pgc.queue.filter fun p => p.state = .queued && p.latest.contains z) = [] := by
    refine List.filter_eq_nil_iff.mpr fun q hq => ?_
    have hended := h.pages q hq
    unfold Page.hasEnded at hended
    cases hstate : q.state <;> simp [hstate] at hended ⊢
  unfold State.offerZone
  split
  · rfl
  · rw [hfind, hqueued]
    rfl

theorem considerPages (free : Option Nat) (emergency : Bool) : State.considerPages free (s.queuedPages emergency) s = (s, none) := by
  have hqueued : s.queuedPages emergency = [] := by
    refine List.filter_eq_nil_iff.mpr fun q hq => ?_
    have hended := h.pages q hq
    unfold Page.hasEnded at hended
    cases hstate : q.state <;> simp [hstate] at hended ⊢
  rw [hqueued]
  rfl

theorem pass : s.pass = s := by
  have hgroup : s.nextGroup = none := by
    unfold State.nextGroup
    rw [h.groups]
    exact List.findSome?_eq_none_iff.mpr fun _ _ => rfl
  have honce : s.passOnce true = (s, none) := by
    unfold State.passOnce
    rw [drillNeeds_idle h.session]
    split
    · rw [if_neg Bool.false_ne_true, h.considerPages]
      unfold State.considerBells
      dsimp only [Option.isSome_none]
      rw [if_neg Bool.false_ne_true, hgroup]
      exact h.considerPages ..
    · rw [if_neg Bool.false_ne_true, h.considerPages]
  unfold State.pass
  rw [honce]
  unfold State.markSignal
  dsimp only
  rw [h.session]

end State.Hushed

theorem settleFor_work {k : Nat} {s : State} {w : Work} {ws : List Work} (h : s.ztc.agenda = w :: ws) :
    settleFor (k + 1) s = settleFor k ((s.working ws).doWork w) := by
  rw [settleFor, h]
  rfl

/-- Offers of zones and grant passes, of which nothing comes where nobody waits. -/
theorem settleFor_hushed (k : Nat) {s : State} (h : s.Hushed) (hworks : ∀ w, w ∈ s.ztc.agenda → w = .pass ∨ ∃ zs, w = .offer zs) :
    settleFor k s = (s.working []).finalizePages := by
  induction k generalizing s with
  | zero => rfl
  | succ k ih =>
    cases hagenda : s.ztc.agenda with
    | nil =>
      rw [settleFor_idle (k + 1) hagenda]
      unfold State.working
      rw [← hagenda]
    | cons w ws =>
      have hdone : (s.working ws).doWork w = s.working ws := by
        obtain rfl | ⟨zs, rfl⟩ := hworks w (by rw [hagenda]; exact List.mem_cons_self)
        · exact (h.working ws).pass
        · exact (h.working ws).offer zs
      rw [settleFor_work hagenda, hdone, ih (h.working ws)]
      · rfl
      · intro x hx
        exact hworks x (by rw [hagenda]; exact List.mem_cons_of_mem w hx)

theorem freeTrunks_working (ts : List Nat) (s : State) (ws : List Work) : (s.working ws).freeTrunks ts = (s.freeTrunks ts).working ws := by
  induction ts generalizing s with
  | nil => rfl
  | cons t ts ih => exact ih (s.setTrunk t none)

theorem idleTrunks_working (s : State) (ws : List Work) : (s.working ws).idleTrunks = s.idleTrunks := rfl

/-- The end of a holder where nobody waits: the trunks in no use become FREE, and the pages that have ended leave. -/
theorem settle_hushed {s : State} (h : s.Hushed) {zs : List Nat} (hagenda : s.ztc.agenda = [.serve zs none true, .release]) :
    s.settle = ((s.freeTrunks s.idleTrunks).working []).finalizePages := by
  have hserve : s.settle = settleFor 4095 (s.working [.offer zs, .release]) := by
    refine (settleFor_work (k := 4095) hagenda).trans ?_
    exact congrArg (Machine.settleFor 4095) ((h.working [.release]).serve zs)
  have hoffer : settleFor 4095 (s.working [.offer zs, .release]) = settleFor 4094 (s.working [.release]) := by
    refine (settleFor_work (k := 4094) (ws := [.release]) rfl).trans ?_
    exact congrArg (Machine.settleFor 4094) ((h.working [.release]).offer zs)
  have hrelease : settleFor 4094 (s.working [.release]) = settleFor 4093 (s.working []).releaseTrunks :=
    settleFor_work (k := 4093) (s := s.working [.release]) (w := .release) (ws := []) rfl
  rw [hserve, hoffer, hrelease]
  unfold State.releaseTrunks
  dsimp only
  rw [idleTrunks_working]
  split
  next hempty =>
    rw [List.isEmpty_iff.mp hempty, settleFor_hushed 4093 (h.working [])]
    · rfl
    · exact fun w hw => absurd hw List.not_mem_nil
  · rw [freeTrunks_working]
    exact settleFor_hushed 4093 ((h.freeTrunks s.idleTrunks).working [.pass]) fun w hw => .inl (List.mem_singleton.mp hw)

theorem freeTrunks_shape (ts : List Nat) (s : State) : ∃ x, s.freeTrunks ts = { s with ztc := { s.ztc with trunks := x } } := by
  induction ts generalizing s with
  | nil => exact ⟨s.ztc.trunks, rfl⟩
  | cons t ts ih =>
    obtain ⟨x, hx⟩ := ih (s.setTrunk t none)
    exact ⟨x, hx⟩

theorem rest_endPage (s : State) (n : Nat) (r : PageReason) : (s.endPage n r).rest = s.rest := by
  unfold State.endPage
  split
  · rfl
  · dsimp only
    split
    · exact rest_releaseZones ..
    · rfl

/-- The end of the one page of the queue. -/
theorem endPage_hushed {s : State} {n : Nat} {p : Page} {r : PageReason} (hp : s.page? n = some p) (hair : p.onAir = true)
    (hagenda : s.ztc.agenda = []) (hqueue : s.pgc.queue = [p]) (hgroups : s.ztc.groups = []) (hwaits : ∀ z, (s.zoneAt z).waits = [])
    (hsession : s.dsq.session = none) :
    ∃ (x : State) (zs : List Nat), s.endPage n r = x.working [.serve zs none true, .release] ∧ x.Hushed ∧
      x.pgc = { s.pgc with queue := [p.endedBy r] } ∧ x.ntu = s.ntu := by
  obtain ⟨P, hP⟩ : ∃ P : State → Prop, P = fun x => x.ztc.agenda = [] ∧ x.Hushed ∧ x.pgc = { s.pgc with queue := [p.endedBy r] } ∧
      x.ntu = s.ntu := ⟨_, rfl⟩
  have hqueued : (s.updatePage n fun p => p.endedBy r).pgc = { s.pgc with queue := [p.endedBy r] } := by
    unfold State.updatePage
    rw [hqueue, List.map_cons, if_pos (page_num hp)]
    rfl
  have hended : P (s.updatePage n fun p => p.endedBy r) := by
    rw [hP]
    refine ⟨hagenda, ⟨hgroups, hwaits, hsession, fun q hq => ?_⟩, hqueued, rfl⟩
    rw [hqueued] at hq
    rw [List.mem_singleton.mp hq]
    rfl
  have hclear (x : State) (z : Nat) (hx : P x) : P (x.setZone z { x.zoneAt z with suspended := .none }) := by
    rw [hP] at hx ⊢
    obtain ⟨hagenda, hhushed, hpgc, hntu⟩ := hx
    exact ⟨hagenda, hhushed.setZone (hhushed.waits z), hpgc, hntu⟩
  have hreturn (x : State) (z : Nat) (hx : P x) : P (x.returnZone z) := by
    rw [hP] at hx ⊢
    obtain ⟨hagenda, hhushed, hpgc, hntu⟩ := hx
    exact ⟨(hhushed.returnZone_agenda z).trans hagenda, hhushed.returnZone z, (hhushed.returnZone_pgc z).trans hpgc,
      (returnZone_pages x z).2.1.trans hntu⟩
  rw [endPage_onAir hp hair]
  unfold State.releaseZones State.holdersEnd
  dsimp only
  generalize s.updatePage n (fun p => p.endedBy r) = a at hended
  have hinner := foldl_keeps (xs := allZones.filter fun z => (a.zoneAt z).holder.isPage n)
    (foldl_keeps (xs := allZones.filter fun z => (a.zoneAt z).suspended.isPage n) hended hclear) hreturn
  generalize List.foldl State.returnZone _ _ = x at hinner
  rw [hP] at hinner
  obtain ⟨hnone, hhushed, hpgc, hntu⟩ := hinner
  refine ⟨x, allZones.filter fun z => (a.zoneAt z).holder.isPage n, ?_, hhushed, hpgc, hntu⟩
  unfold State.later State.push State.working
  dsimp only
  rw [hnone]
  exact if_neg (by simp)

/-- All that comes of the end of a page where nothing else waits. -/
theorem endPage_alone {s v : State} {n : Nat} {p : Page} {r : PageReason} (hp : s.page? n = some p) (hair : p.onAir = true)
    (hagenda : s.ztc.agenda = []) (hqueue : s.pgc.queue = [p]) (hgroups : s.ztc.groups = []) (hwaits : ∀ z, (s.zoneAt z).waits = [])
    (hsession : s.dsq.session = none) (hv : finish (s.endPage n r) = .next v) :
    v.pgc.queue = [] ∧ (∀ k, v.trunkAt k = if k ∈ (s.endPage n r).idleTrunks then none else (s.endPage n r).trunkAt k) ∧
      (∀ q k, (v.ntu.get q).recAt k =
        ((s.ntu.get q).take .pageEnd
          (.pageEnd n p.port p.op p.source p.prio p.start.isNone r p.arrival s.campus p.start
            (if p.start.isSome then p.lost else []))).recAt k) ∧
      ∀ z, v.zoneAt z = (s.endPage n r).zoneAt z := by
  obtain ⟨x, zs, hend, hhushed, hpgc, hntu⟩ := endPage_hushed (r := r) hp hair hagenda hqueue hgroups hwaits hsession
  have hcampus : x.campus = s.campus := by
    have h := congrArg State.campus (rest_endPage s n r)
    rw [hend] at h
    exact h
  obtain ⟨trunks, hfreed⟩ := freeTrunks_shape x.idleTrunks x
  have htrunks (k : Nat) := freeTrunks_trunkAt x.idleTrunks x k
  have hsettle : (x.working [.serve zs none true, .release]).settle =
      (((x.working [.serve zs none true, .release]).freeTrunks x.idleTrunks).working []).finalizePages := settle_hushed (hhushed.working _) rfl
  rw [freeTrunks_working, hfreed] at hsettle
  rw [hfreed] at htrunks
  rw [hend] at hv ⊢
  have hone := finalizePages_one (s := { x with ztc := { x.ztc with trunks := trunks, agenda := [] } }) (p := p.endedBy r) (r := r)
    (by show x.pgc.queue.filter _ = _; rw [hpgc]; rfl) rfl
  have hvEq : v = _ := (Host.Outcome.next.inj hv).symm.trans (congrArg State.rejudge (hsettle.trans hone))
  rw [hvEq]
  refine ⟨?_, htrunks, fun q k => ?_, fun z => rfl⟩
  · show (x.pgc.queue.filter _) = _
    rw [hpgc]
    rfl
  · rw [rejudge_recAt]
    refine (raise_recAt ..).trans ?_
    dsimp only
    rw [hntu, ← page_num hp]
    show _ = NtuPort.recAt (NtuPort.take _ _ (.pageEnd p.num p.port p.op p.source p.prio p.start.isNone r p.arrival s.campus p.start _)) k
    rw [← hcampus]
    rfl

/-! ### The events of a page's trunk and its limit -/

theorem pages_restingLaw {s t : State} (h : s.restingLaw) (hagenda : t.ztc.agenda = s.ztc.agenda)
    (hpages : (t.pgc.queue.all fun p => !p.hasEnded) = true) (hntu : t.ntu = s.ntu) (hlive : t.store.live = s.store.live) : t.restingLaw := by
  obtain ⟨hwork, _, hattention⟩ := h
  refine ⟨hagenda.trans hwork, hpages, fun p => ?_⟩
  have hp := hattention p
  unfold State.calls State.levelOf at hp ⊢
  rw [hntu, hlive]
  exact hp

theorem setTrunk_restingLaw {s : State} (h : s.restingLaw) (t : Nat) (u : Option TrunkUse) : (s.setTrunk t u).restingLaw :=
  pages_restingLaw h rfl h.2.1 rfl rfl

theorem live_restingLaw {s : State} (h : s.restingLaw) (n : Nat) : (s.updatePage n fun p => { p with state := .live }).restingLaw := by
  refine pages_restingLaw h rfl (List.all_eq_true.mpr fun q hq => ?_) rfl rfl
  obtain ⟨x, hx, rfl⟩ := List.mem_map.mp hq
  by_cases hn : x.num = n
  · rw [if_pos hn]
    rfl
  · rw [if_neg hn]
    exact List.all_eq_true.mp h.2.1 x hx

section
variable {s : State} {t : Fin 4} {u : TrunkUse} {p : Page} {n : Nat} (h : s.ready) (hu : s.trunkAt t.val = some u)
  (hprogram : u.program = .page n) (hp : s.page? n = some p)
include h hp

section
include hu hprogram

omit h in
theorem pageOn_eq {st : PageState} (hstate : p.state = st) : s.pageOn t.val st = some (u, p) := by
  have hpage : u.page?.bind s.page? = some p := by
    unfold TrunkUse.page?
    rw [hprogram]
    exact hp
  unfold State.pageOn
  rw [hu]
  dsimp only
  rw [hpage]
  exact if_pos hstate

theorem execPretoneEnd_live {e : Nat} (hstate : p.state = .chime) (he : u.toneUntil = some e) (hdue : e ≤ s.now) :
    execPretoneEnd t s =
      .next ((s.setTrunk t.val (some { u with tone := none, toneSince := none, toneUntil := none, source := true
                                              silence := some { since := s.now
                                                                pauseLength := s.store.live.zon.zoneSet.pauseLength
                                                                idleLimit := s.store.live.zon.zoneSet.idleLimit
                                                                paused := false, idled := false } })).updatePage n
        fun p => { p with state := .live }) := by
  unfold execPretoneEnd
  rw [event_powered _ h.2, pageOn_eq hu hprogram hp hstate]
  dsimp only
  rw [he, Option.any_some, if_pos (show s.reached e = true from decide_eq_true hdue), page_num hp]
  unfold State.enterLive
  rw [hu]
  exact finish_eq_self (live_restingLaw (setTrunk_restingLaw h.1 _ _) n)

variable (hstate : p.state = .live)
include hstate

theorem execTrunkLevelChange_ends :
    execTrunkLevelChange t false s = .next (s.setTrunk t.val (some { u with silence := none })) := by
  unfold execTrunkLevelChange
  rw [event_powered _ h.2, pageOn_eq hu hprogram hp hstate]
  exact finish_eq_self (setTrunk_restingLaw h.1 _ _)

theorem execTrunkLevelChange_begins (hnone : u.silence = none) :
    execTrunkLevelChange t true s =
      .next (s.setTrunk t.val (some { u with
        silence := some { since := s.now, pauseLength := s.store.live.zon.zoneSet.pauseLength
                          idleLimit := s.store.live.zon.zoneSet.idleLimit, paused := false, idled := false } })) := by
  unfold execTrunkLevelChange
  rw [event_powered _ h.2, pageOn_eq hu hprogram hp hstate]
  dsimp only
  rw [hnone]
  exact finish_eq_self (setTrunk_restingLaw h.1 _ _)

variable {q : Silence} (hq : u.silence = some q)
include hq

theorem execTrunkLevelChange_goesOn : execTrunkLevelChange t true s = .next s := by
  unfold execTrunkLevelChange
  rw [event_powered _ h.2, pageOn_eq hu hprogram hp hstate]
  dsimp only
  rw [hq]
  exact finish_eq_self h.1

theorem execPause_serves (hnot : q.paused = false) (hdue : q.since + 8 * q.pauseLength ≤ s.now) :
    execPause t s =
      .next ((s.setTrunk t.val (some { u with silence := some { q with paused := true } })).push
        [.serve (allZones.filter fun z => (s.zoneAt z).holder.isPage n) (some n) false]).done := by
  have hguard : (!q.paused && s.reached (q.since + 8 * q.pauseLength)) = true := by
    rw [hnot]
    exact decide_eq_true hdue
  unfold execPause
  rw [event_powered _ h.2, pageOn_eq hu hprogram hp hstate]
  dsimp only
  rw [hq]
  dsimp only
  rw [if_pos hguard, page_num hp]
  rfl

theorem execIdle_ends (hnot : q.idled = false) (hdue : q.since + 8000 * q.idleLimit ≤ s.now) :
    execIdle t s = finish ((s.setTrunk t.val (some { u with silence := some { q with idled := true } })).endPage n .idle) := by
  have hguard : (!q.idled && s.reached (q.since + 8000 * q.idleLimit)) = true := by
    rw [hnot]
    exact decide_eq_true hdue
  unfold execIdle
  rw [event_powered _ h.2, pageOn_eq hu hprogram hp hstate]
  dsimp only
  rw [hq]
  dsimp only
  rw [if_pos hguard, page_num hp]

end

omit h hp in
theorem onAir_iff : p.onAir = true ↔ p.state = .chime ∨ p.state = .live := by
  unfold Page.onAir
  rw [Bool.or_eq_true, decide_eq_true_iff, decide_eq_true_iff]

theorem execPageLimitExpiry_ends {e : Nat} (hair : p.onAir = true) (he : p.limitAt = some e) (hdue : e ≤ s.now) :
    execPageLimitExpiry n s = finish (s.endPage n .limit) := by
  have hguard : (p.onAir && p.limitAt.any s.reached) = true := by
    rw [hair, he]
    exact decide_eq_true hdue
  unfold execPageLimitExpiry
  rw [event_powered _ h.2, hp]
  dsimp only
  rw [if_pos hguard]

end

/-- What the end of a started page leaves, whatever set it off. -/
theorem endedPage_leaves {s w v : State} {k : Nat} {x : TrunkUse} {n : Nat} {p : Page} {r : PageReason} (hk : k < 4)
    (hx : w.trunkAt k = some x) (hprogram : x.program = .page n) (hw : ∃ trunks, w = { s with ztc := { s.ztc with trunks := trunks } })
    (h : s.restingLaw) (hp : s.page? n = some p) (hair : p.onAir = true) (hv : finish (w.endPage n r) = .next v) :
    (∀ q, q ∈ v.pgc.queue → q.num ≠ n) ∧
      (s.pgc.queue = [p] → s.ztc.groups = [] → (∀ z, (s.zoneAt z).waits = []) → s.dsq.session = none →
        v.pgc.queue = [] ∧ v.trunkAt k = none ∧
        (∀ q j, (v.ntu.get q).recAt j =
          if j = .pageEnd then
            ((s.ntu.get q).take .pageEnd
              (.pageEnd n p.port p.op p.source p.prio p.start.isNone r p.arrival s.campus p.start
                (if p.start.isSome then p.lost else []))).recAt .pageEnd
          else (s.ntu.get q).recAt j) ∧
        (∀ z m, z < 32 → (s.zoneAt z).holder = .page n m → (s.zoneAt z).suspended = .none →
          (v.zoneAt z).holder = .none ∧ (v.zoneAt z).bellUntil = none ∧ (v.zoneAt z).trunk = none) ∧
        v.rest = s.rest) := by
  obtain ⟨trunks, hw⟩ := hw
  have hwp : w.page? n = some p := by rw [hw]; exact hp
  have hwagenda : w.ztc.agenda = [] := by rw [hw]; exact h.1
  refine ⟨endPage_leaves hwp hair hwagenda hv, fun hqueue hgroups hwaits hsession => ?_⟩
  obtain ⟨hempty, htrunk, hrec, hzone⟩ := endPage_alone hwp hair hwagenda (by rw [hw]; exact hqueue) (by rw [hw]; exact hgroups)
    (by rw [hw]; exact hwaits) (by rw [hw]; exact hsession) hv
  refine ⟨hempty, ?_, fun q j => ?_, fun z m hz hholder hsusp => ?_, ?_⟩
  · rw [htrunk, if_pos (endPage_idle hwp hair hk hx hprogram)]
  · rw [hrec, take_recAt, take_recAt, hw]
    by_cases hj : j = .pageEnd
    · subst hj
      rw [if_pos rfl]
      rfl
    · rw [if_neg hj, if_neg fun hc => hj hc.1]
  · have hfreed := (endPage_zoneAt (r := r) hwp hair hz).2.1 (by rw [hw]; exact (congrArg (Holder.isPage n) hholder).trans (decide_eq_true rfl))
      (by rw [hw]; exact hsusp)
    rw [hzone, hfreed]
    exact ⟨rfl, rfl, rfl⟩
  · rw [finish_rest hv, rest_endPage, hw]
    rfl

/-- Settles O48: the events by what each does of the trunk and the page, the end of a page by its release, where nothing else waits
carried out to its last step. -/
theorem pageTimersTakeEffect : Obligations.PageTimersTakeEffect := by
  refine ⟨fun s t u p n h hu hprogram hp hnum => ⟨fun e hstate he hdue => execPretoneEnd_live h hu hprogram hp hstate he hdue,
    fun hstate => ⟨execTrunkLevelChange_ends h hu hprogram hp hstate, execTrunkLevelChange_begins h hu hprogram hp hstate,
      fun q hq => execTrunkLevelChange_goesOn h hu hprogram hp hstate hq,
      fun q hq => execPause_serves h hu hprogram hp hstate hq, fun q hq => execIdle_ends h hu hprogram hp hstate hq⟩,
    fun e hstate he hdue => execPageLimitExpiry_ends h hp (onAir_iff.mpr hstate) he hdue, fun c r hc => ?_⟩,
    fun s u n r p hp hu => ?_, fun s p r hended hstate => finalizePages_one hended hstate⟩
  · obtain ⟨rfl, rfl, hstate, e, he, hdue⟩ | ⟨rfl, rfl, hstate, q, hq, hnot, hdue⟩ := hc
    · obtain ⟨v, hv⟩ := finish_next (s.endPage n .limit)
      obtain ⟨hgone, halone⟩ := endedPage_leaves t.isLt hu hprogram ⟨s.ztc.trunks, rfl⟩ h.1 hp (onAir_iff.mpr hstate) hv
      exact ⟨v, (execPageLimitExpiry_ends h hp (onAir_iff.mpr hstate) he hdue).trans hv, fun _ => hgone, halone⟩
    · obtain ⟨v, hv⟩ := finish_next ((s.setTrunk t.val (some { u with silence := some { q with idled := true } })).endPage n .idle)
      obtain ⟨hgone, halone⟩ := endedPage_leaves (x := { u with silence := some { q with idled := true } }) t.isLt
        ((trunkAt_setTrunk ..).trans (if_pos rfl)) hprogram ⟨_, rfl⟩ h.1 hp (onAir_iff.mpr (.inr hstate)) hv
      exact ⟨v, (execIdle_ends h hu hprogram hp hstate hq hnot hdue).trans hv, fun _ => hgone, halone⟩
  · subst hu
    refine ⟨endPage_endedFor hp r, fun hoff => ?_, fun hair => ⟨endPage_release hp hair, fun z hz => ?_,
      fun k x hk hx hprogram => endPage_idle hp hair hk hx hprogram⟩⟩
    · rw [endPage_offAir hp hoff]
      rfl
    · obtain ⟨hsusp, hfreed, hother, _, _⟩ := endPage_zoneAt (r := r) hp hair hz
      refine ⟨fun m hm => hsusp ?_, fun m hm hnone => ?_, fun hm => hother ?_⟩
      · rw [hm]
        exact decide_eq_true rfl
      · rw [hfreed (by rw [hm]; exact decide_eq_true rfl) hnone]
        exact ⟨rfl, rfl, rfl⟩
      · cases hholder : (s.zoneAt z).holder with
        | page k m => exact decide_eq_false fun hk => hm m (hk ▸ hholder)
        | none | bell | drill | alarm => rfl

end Sys2Proof.Machine
end

