-- ==== Sys2Proof/Proofs/Rings.lean ====
section
/-! RING (O45): a job that enters the Bell Ready Queue keeps what it was made of until its parts are over, and each part of it that
is dropped is told. -/

set_option autoImplicit false

namespace Sys2Proof.Machine

open Sys2Proof

/-! ### What a job was made of -/

/-- A job as it was made: without what has become of its parts and the number of its last start group. -/
def Job.made (j : Job) : Job := { j with parts := j.parts.map fun p => newPart p.medium p.zone, groups := 0 }

/-- How many parts of a job have ended. -/
def Job.endedParts (j : Job) : Nat := j.parts.countP Part.ended

/-- The one job of its number in the queue was made like this. -/
def State.holdsOne (s : State) (n : Nat) (j : Job) : Prop := (s.bds.queue.filter fun x => x.num = n) = [j]

theorem holdsOne_job {s : State} {n : Nat} {j : Job} (h : s.holdsOne n j) : s.job? n = some j ∧ j.num = n := by
  have hmem : j ∈ s.bds.queue.filter fun x => x.num = n := by rw [h]; exact List.mem_cons_self
  refine ⟨?_, of_decide_eq_true (List.mem_filter.mp hmem).2⟩
  unfold State.job?
  rw [← List.head?_filter, h]
  rfl

theorem update_made (j : Job) (z : Nat) (f : Part → Part) (hf : ∀ p, (f p).zone = p.zone ∧ (f p).medium = p.medium) :
    (j.update z f).made = j.made := by
  unfold Job.made Job.update
  dsimp only
  rw [List.map_map]
  refine congrArg (fun ps => ({ j with parts := ps, groups := 0 } : Job)) (List.map_congr_left fun p _ => ?_)
  rw [Function.comp_apply]
  split
  · rw [(hf p).1, (hf p).2]
  · rfl

/-- A change of the jobs under their numbers, seen at the jobs of one number. -/
theorem filter_map_num (n : Nat) (f : Job → Job) (hf : ∀ j, (f j).num = j.num) (js : List Job) :
    (js.map f).filter (fun j => decide (j.num = n)) = (js.filter fun j => decide (j.num = n)).map f := by
  rw [List.filter_map]
  refine congrArg (List.map f) (List.filter_congr fun j _ => ?_)
  rw [Function.comp_apply, hf]

theorem holdsOne_map {s t : State} {n : Nat} {j : Job} (h : s.holdsOne n j) (f : Job → Job) (hf : ∀ j, (f j).num = j.num)
    (ht : t.bds.queue = s.bds.queue.map f) : t.holdsOne n (f j) := by
  unfold State.holdsOne
  rw [ht, filter_map_num n f hf, h]
  rfl

theorem endedParts_update {j : Job} {z : Nat} {f : Part → Part} (hf : ∀ p, (f p).ended = true → p.ended = true) :
    (j.update z f).endedParts ≤ j.endedParts := by
  unfold Job.endedParts Job.update
  dsimp only
  rw [List.countP_map]
  refine List.countP_mono_left fun p _ hp => ?_
  rw [Function.comp_apply] at hp
  split at hp
  · exact hf p hp
  · exact hp

/-- One part of a zone is dropped at most, where no two parts are of one zone. -/
theorem countP_drop {ps : List Part} (hnodup : (ps.map Part.zone).Nodup) (z : Nat) (r : DropReason) :
    (ps.map fun p => if p.zone = z then p.drop r else p).countP Part.ended ≤ ps.countP Part.ended + 1 := by
  induction ps with
  | nil => exact Nat.zero_le _
  | cons p ps ih =>
    obtain ⟨hp, hps⟩ := List.nodup_cons.mp hnodup
    rw [List.map_cons, List.countP_cons, List.countP_cons]
    by_cases hz : p.zone = z
    · have hrest : (ps.map fun p => if p.zone = z then p.drop r else p) = ps := by
        refine (List.map_congr_left fun x hx => if_neg fun hxz => hp ?_).trans (List.map_id _)
        rw [hz, ← hxz]
        exact List.mem_map_of_mem hx
      rw [hrest]
      split <;> split <;> omega
    · rw [if_neg hz]
      have := ih hps
      omega

/-! ### What is told of dropped parts (R131, R182) -/

/-- At least this many BELL-DROPPED have come to a port's record of the kind, where the kind is heard there, since it had counted `c`. -/
structure State.told (s : State) (q : Port) (heard : Bool) (c k : Nat) : Prop where
  quiet : (s.ntu.get q).quiet.contains .bellDropped = !heard
  count : heard = true → min 255 (c + k) ≤ ((s.ntu.get q).recAt .bellDropped).count
  flag : heard = true → 0 < k → ((s.ntu.get q).recAt .bellDropped).flag = true

namespace State.told

variable {s : State} {q : Port} {heard : Bool} {c k : Nat} (h : s.told q heard c k)
include h

theorem of_ntu {t : State} (ht : t.ntu = s.ntu) : t.told q heard c k := by
  constructor <;> rw [ht]
  exacts [h.quiet, h.count, h.flag]

theorem fewer {m : Nat} (hm : m ≤ k) : s.told q heard c m where
  quiet := h.quiet
  count hheard := by have := h.count hheard; omega
  flag hheard hpos := h.flag hheard (by omega)

theorem raise (j : NoticeKind) (d : Detail) : (s.raise j d).told q heard c k := by
  have hquiet : ((s.raise j d).ntu.get q).quiet = (s.ntu.get q).quiet := by cases q <;> exact take_quiet ..
  refine ⟨by rw [hquiet]; exact h.quiet, fun hheard => ?_, fun hheard hpos => ?_⟩
  · have hcount := h.count hheard
    rw [raise_recAt, take_recAt]
    split
    next hj =>
      rw [← hj.1]
      dsimp only
      omega
    · exact hcount
  · rw [raise_recAt, take_recAt]
    split
    · rfl
    · exact h.flag hheard hpos

/-- One BELL-DROPPED more. -/
theorem drop (d : Detail) : (s.raise .bellDropped d).told q heard c (k + 1) := by
  have hquiet : ((s.raise .bellDropped d).ntu.get q).quiet = (s.ntu.get q).quiet := by cases q <;> exact take_quiet ..
  have hrec (hheard : heard = true) : ((s.raise .bellDropped d).ntu.get q).recAt .bellDropped =
      { flag := true, count := min (((s.ntu.get q).recAt .bellDropped).count + 1) 255, detail := some d } := by
    rw [raise_recAt, take_recAt, if_pos ⟨rfl, by rw [h.quiet, hheard]; rfl⟩]
  refine ⟨by rw [hquiet]; exact h.quiet, fun hheard => ?_, fun hheard _ => by rw [hrec hheard]⟩
  have hcount := h.count hheard
  rw [hrec hheard]
  dsimp only
  omega

theorem rejudge : s.rejudge.told q heard c k := by
  constructor
  · rw [rejudge_quiet]
    exact h.quiet
  · rw [rejudge_recAt]
    exact h.count
  · rw [rejudge_recAt]
    exact h.flag

theorem finalizePages : s.finalizePages.told q heard c k := by
  have htells : (s.pgc.queue.foldl State.tellEnded s).told q heard c k :=
    foldl_keeps (P := fun u => u.told q heard c k) h fun u p hu => by
      unfold State.tellEnded
      split
      · exact hu.raise ..
      · exact hu
  exact htells.of_ntu rfl

theorem raiseStage : s.raiseStage.told q heard c k := by
  unfold State.raiseStage
  split
  · split
    · exact h.raise ..
    · exact h
  · exact h

end State.told

/-- A job of this number, made like this, is in the queue with a BELL-DROPPED told for each part that has ended; or it is not, and one
was told for every part. -/
def State.accounts (s : State) (q : Port) (heard : Bool) (n c : Nat) (made : Job) : Prop :=
  (∃ j, s.holdsOne n j ∧ j.made = made ∧ s.told q heard c j.endedParts) ∨
    ((∀ j, j ∈ s.bds.queue → j.num ≠ n) ∧ s.told q heard c made.parts.length)

theorem made_nodup {made j : Job} (hnodup : (made.parts.map Part.zone).Nodup) (hmade : j.made = made) : (j.parts.map Part.zone).Nodup := by
  have hzones : made.parts.map Part.zone = j.parts.map Part.zone := by
    rw [← hmade]
    unfold Job.made
    rw [List.map_map]
    rfl
  exact hzones ▸ hnodup

section
variable {s : State} {q : Port} {heard : Bool} {n c : Nat} {made : Job} (h : s.accounts q heard n c made)
include h

theorem accounts_same {t : State} (hbds : t.bds = s.bds) (htold : ∀ k, s.told q heard c k → t.told q heard c k) : t.accounts q heard n c made := by
  obtain ⟨j, hj, hmade, ht⟩ | ⟨hnone, ht⟩ := h
  · refine .inl ⟨j, ?_, hmade, htold _ ht⟩
    unfold State.holdsOne
    rw [hbds]
    exact hj
  · refine .inr ⟨?_, htold _ ht⟩
    rw [hbds]
    exact hnone

theorem accounts_map {t : State} (f : Job → Job) (ht : t.bds.queue = s.bds.queue.map f) (hntu : t.ntu = s.ntu)
    (hf : ∀ j, (f j).num = j.num) (hmade : ∀ j, (f j).made = j.made) (hended : ∀ j, (f j).endedParts ≤ j.endedParts) :
    t.accounts q heard n c made := by
  obtain ⟨j, hj, hj', htold⟩ | ⟨hnone, htold⟩ := h
  · exact .inl ⟨f j, holdsOne_map hj f hf ht, (hmade j).trans hj', (htold.fewer (hended j)).of_ntu hntu⟩
  · refine .inr ⟨fun j hj => ?_, htold.of_ntu hntu⟩
    rw [ht] at hj
    obtain ⟨x, hx, rfl⟩ := List.mem_map.mp hj
    rw [hf]
    exact hnone x hx

theorem accounts_part {m z : Nat} {f : Part → Part}
    (hf : ∀ p, (f p).zone = p.zone ∧ (f p).medium = p.medium ∧ ((f p).ended = true → p.ended = true)) :
    (s.updatePart m z f).accounts q heard n c made := by
  refine accounts_map h (fun j => if j.num = m then j.update z f else j) rfl rfl (fun j => ?_) (fun j => ?_) fun j => ?_
  · split <;> rfl
  · split
    · exact update_made j z f fun p => ⟨(hf p).1, (hf p).2.1⟩
    · rfl
  · split
    · exact endedParts_update fun p => (hf p).2.2
    · exact Nat.le_refl _

/-- A job leaves the queue when its last part has ended, all of them told. -/
theorem accounts_leaveJobs : s.leaveJobs.accounts q heard n c made := by
  obtain ⟨j, hj, hmade, htold⟩ | ⟨hnone, htold⟩ := h
  · have hfilter : s.leaveJobs.bds.queue.filter (fun x => x.num = n) = [j].filter fun x => !x.parts.all Part.ended := by
      rw [← hj]
      unfold State.leaveJobs
      dsimp only
      rw [List.filter_filter, List.filter_filter]
      exact List.filter_congr fun x _ => Bool.and_comm ..
    cases hall : j.parts.all Part.ended with
    | false =>
      refine .inl ⟨j, ?_, hmade, htold.of_ntu rfl⟩
      unfold State.holdsOne
      rw [hfilter, List.filter_cons, hall]
      rfl
    | true =>
      refine .inr ⟨fun x hx hn => ?_, ?_⟩
      · have hmem : x ∈ s.leaveJobs.bds.queue.filter fun x => x.num = n := List.mem_filter.mpr ⟨hx, decide_eq_true hn⟩
        rw [hfilter, List.filter_cons, hall] at hmem
        exact absurd hmem List.not_mem_nil
      · have hlength : j.endedParts = made.parts.length := by
          rw [← hmade]
          unfold Job.endedParts Job.made
          rw [List.length_map]
          exact List.countP_eq_length.mpr (List.all_eq_true.mp hall)
        rw [← hlength]
        exact htold.of_ntu rfl
  · refine .inr ⟨fun j hj => hnone j (List.mem_of_mem_filter hj), htold.of_ntu rfl⟩

/-- A part that is dropped is told. -/
theorem accounts_dropped (hnodup : (made.parts.map Part.zone).Nodup) (m z : Nat) (r : DropReason) (d : Detail) :
    ((s.updatePart m z (Part.drop r)).raise .bellDropped d).accounts q heard n c made := by
  have hqueue : ((s.updatePart m z (Part.drop r)).raise .bellDropped d).bds.queue =
      s.bds.queue.map fun j => if j.num = m then j.update z (Part.drop r) else j := rfl
  have hnum (j : Job) : (if j.num = m then j.update z (Part.drop r) else j).num = j.num := by split <;> rfl
  obtain ⟨j, hj, hmade, htold⟩ | ⟨hnone, htold⟩ := h
  · refine .inl ⟨_, holdsOne_map hj _ hnum hqueue, ?_, ?_⟩
    · split
      · exact (update_made j z (Part.drop r) fun _ => ⟨rfl, rfl⟩).trans hmade
      · exact hmade
    · have hraised := (htold.of_ntu (t := s.updatePart m z (Part.drop r)) rfl).drop d
      refine hraised.fewer ?_
      split
      · exact countP_drop (made_nodup hnodup hmade) z r
      · exact Nat.le_succ _
  · refine .inr ⟨fun j hj => ?_, (htold.of_ntu (t := s.updatePart m z (Part.drop r)) rfl).raise ..⟩
    rw [hqueue] at hj
    obtain ⟨x, hx, rfl⟩ := List.mem_map.mp hj
    rw [hnum]
    exact hnone x hx

theorem accounts_dropPart (hnodup : (made.parts.map Part.zone).Nodup) (m z : Nat) (r : DropReason) :
    (s.dropPart m z r).accounts q heard n c made := by
  obtain hsame | ⟨j, p, _, _, _, hdrop⟩ := dropPart_cases s m z r
  · rw [hsame]
    exact h
  · rw [hdrop]
    refine accounts_leaveJobs ?_
    have hdropped := accounts_dropped h hnodup m z r (.bellDropped m j.key { day := j.day, sec := j.sec } z r)
    split
    · obtain ⟨d, hd⟩ := countDrillDrop_shape
        ((s.updatePart m z (Part.drop r)).raise .bellDropped (.bellDropped m j.key { day := j.day, sec := j.sec } z r))
      rw [hd]
      exact accounts_same hdropped rfl fun _ hk => hk.of_ntu rfl
    · exact hdropped

end

/-- Whatever the zone controller does, a job's account stays right. -/
theorem settles_accounts (q : Port) (heard : Bool) (n c : Nat) {made : Job} (hnodup : (made.parts.map Part.zone).Nodup) :
    Settles (fun s => s.accounts q heard n c made) fun _ => True where
  claims _ _ _ := trivial
  queued _ _ _ _ := trivial
  ztc h _ _ := accounts_same h rfl fun _ hk => hk.of_ntu rfl
  zone h _ := accounts_same h rfl fun _ hk => hk.of_ntu rfl
  output {s z alarm} h := by
    obtain ⟨x, hx⟩ := output_lines s z alarm
    rw [hx]
    exact accounts_same h rfl fun _ hk => hk.of_ntu rfl
  part h hf := accounts_part h hf
  number {s job num} h := by
    refine accounts_map h (fun x => if x.num = job then { x with groups := num } else x) rfl rfl (fun j => ?_) (fun j => ?_) fun j => ?_
    · split <;> rfl
    · split <;> rfl
    · split <;> exact Nat.le_refl _
  drop h := accounts_dropPart h hnodup ..
  page h _ _ := accounts_same h rfl fun _ hk => hk.of_ntu rfl
  waiters h := accounts_same h rfl fun _ hk => hk.of_ntu rfl
  signal h _ := accounts_same h rfl fun _ hk => hk.of_ntu rfl
  stage {s} h := by
    refine accounts_same h ?_ fun _ hk => hk.raiseStage
    obtain ⟨x, hx⟩ := raiseStage_shape s
    rw [hx]
  pagesEnd {s} h := by
    refine accounts_same h ?_ fun _ hk => hk.finalizePages
    obtain ⟨g, x, hx⟩ := finalizePages_shape s
    rw [hx]

/-! ### The claims of a new job (R98, R99) -/

theorem claimPart_accounts {s : State} {q : Port} {heard : Bool} {n c : Nat} {made : Job} (h : s.accounts q heard n c made)
    (hnodup : (made.parts.map Part.zone).Nodup) (m : Nat) (p : Part) : (State.claimPart m s p).accounts q heard n c made := by
  have F := settles_accounts q heard n c hnodup
  unfold State.claimPart
  dsimp only
  split
  · split
    · exact F.joinGroup h
    · exact F.bellTakes h
  · split
    · split
      · exact F.drop h
      · split
        · exact F.joinGroup h
        · exact F.forceTakes h
    · exact F.joinWaits h
  · exact F.drop h

theorem claimJob_accounts {s : State} {q : Port} {heard : Bool} {n c : Nat} {made : Job} (h : s.accounts q heard n c made)
    (hnodup : (made.parts.map Part.zone).Nodup) (j : Job) : (s.claimJob j).accounts q heard n c made := by
  have F := settles_accounts q heard n c hnodup
  have hclaimed := foldl_keeps (P := fun u => u.accounts q heard n c made) (xs := j.parts) h fun u p hu => claimPart_accounts hu hnodup j.num p
  unfold State.claimJob
  dsimp only
  split
  · exact F.settle (F.push hclaimed fun _ _ => trivial)
  · exact F.settle hclaimed

theorem rest_claimPart (n : Nat) (s : State) (p : Part) : (State.claimPart n s p).rest = s.rest := by
  unfold State.claimPart
  dsimp only
  split
  · split
    · exact rest_joinGroup ..
    · exact rest_bellTakes ..
  · split
    · split
      · exact rest_dropPart ..
      · split
        · exact rest_joinGroup ..
        · exact rest_forceTakes ..
    · exact rest_joinWaits ..
  · exact rest_dropPart ..

theorem rest_claimJob (s : State) (j : Job) : (s.claimJob j).rest = s.rest := by
  have hclaimed : (j.parts.foldl (State.claimPart j.num) s).rest = s.rest := rest_foldl (rest_claimPart j.num) _ _
  unfold State.claimJob
  dsimp only
  rw [rest_settle]
  split
  · exact hclaimed
  · exact hclaimed

/-! ### Sounders on free zones -/

theorem bellAnswer_free {s : State} {z : Nat} (havailable : (s.zoneAt z).available = true) (hfree : (s.zoneAt z).holder = .none)
    (policy : Policy) (atPause : Bool) : s.bellAnswer policy atPause z = .take := by
  unfold State.bellAnswer
  rw [havailable, hfree]
  rfl

theorem claimPart_takes {s : State} {n : Nat} {p : Part} (havailable : (s.zoneAt p.zone).available = true)
    (hfree : (s.zoneAt p.zone).holder = .none) (hquiet : mediumSpeaks p.medium = false) :
    State.claimPart n s p = s.bellTakes n p.zone none := by
  unfold State.claimPart
  dsimp only
  rw [bellAnswer_free havailable hfree]
  dsimp only
  rw [hquiet]
  rfl

/-- A job of this number that was made like this stands in the queue. -/
def State.holdsMade (s : State) (n : Nat) (made : Job) : Prop := ∃ j, s.holdsOne n j ∧ j.made = made

theorem holdsMade_part {s : State} {n : Nat} {made : Job} (h : s.holdsMade n made) (m z : Nat) {f : Part → Part}
    (hf : ∀ p, (f p).zone = p.zone ∧ (f p).medium = p.medium) : (s.updatePart m z f).holdsMade n made := by
  obtain ⟨j, hj, hmade⟩ := h
  refine ⟨_, holdsOne_map hj (fun j => if j.num = m then j.update z f else j) (fun j => by split <;> rfl) rfl, ?_⟩
  split
  · exact (update_made j z f hf).trans hmade
  · exact hmade

theorem holdsMade_bds {s t : State} {n : Nat} {made : Job} (h : s.holdsMade n made) (ht : t.bds = s.bds) : t.holdsMade n made := by
  obtain ⟨j, hj, hmade⟩ := h
  refine ⟨j, ?_, hmade⟩
  unfold State.holdsOne
  rw [ht]
  exact hj

theorem defer_kept (since : Nat) (r : DeferReason) (p : Part) :
    (p.defer since r).zone = p.zone ∧ (p.defer since r).medium = p.medium := by
  unfold Part.defer
  split <;> exact ⟨rfl, rfl⟩

theorem holdsMade_refreshReasons {s : State} {n : Nat} {made : Job} (h : s.holdsMade n made) (z : Nat) :
    (s.refreshReasons z).holdsMade n made := by
  rw [refreshReasons_told]
  exact foldl_keeps (P := fun u => u.holdsMade n made) (holdsMade_bds h rfl) fun u w hu =>
    holdsMade_part hu w.job w.zone fun p => defer_kept w.since w.reason p

section
variable {s : State} {n z : Nat} {j : Job} {p : Part} (hj : s.job? n = some j) (hp : j.part? z = some p) (hfree : (s.zoneAt z).holder = .none)
include hj hp

theorem bellTakes_part_other (tone : Option (Nat × Nat)) {y : Nat} {x : Part} (hx : s.part? n y = some x) (hy : y ≠ z)
    (hsettled : x.settled = true) : (s.bellTakes n z tone).part? n y = some x := by
  have hclaims : (s.bellClaims n z tone).part? n y = some x := by
    have hupdate (u : State) (hu : u.bds = s.bds) : (u.updatePart n z fun p => p.begun s.now tone).part? n y = some x := by
      have hzone : x.zone = y := by
        obtain ⟨i, _, hi⟩ := Option.bind_eq_some_iff.mp hx
        exact part_zone hi
      rw [updatePart_part _ _ _ _ _ (fun p => p.begun s.now tone) fun _ => rfl, part_of_bds hu, hx, Option.map_some,
        if_neg fun hc => hy (hzone.symm.trans hc.2)]
    unfold State.bellClaims
    refine hupdate _ ?_
    split <;> rfl
  rw [bellTakes_eq hj hp]
  refine refreshReasons_part _ _ ?_ hsettled
  rw [setWanted_part]
  exact hclaims

theorem bellTakes_made (tone : Option (Nat × Nat)) {made : Job} (h : s.holdsMade n made) : (s.bellTakes n z tone).holdsMade n made := by
  rw [bellTakes_eq hj hp]
  have hset {u : State} (hu : u.holdsMade n made) (r : ZoneRec) (b t : Option Nat) : ((u.setZone z r).setWanted z b t).holdsMade n made :=
    holdsMade_bds hu (setWanted_bds ..)
  refine holdsMade_refreshReasons (hset ?_ ..) z
  unfold State.bellClaims
  refine holdsMade_part (holdsMade_bds h ?_) n z fun _ => ⟨rfl, rfl⟩
  split <;> rfl

include hfree

theorem bellTakes_free (tone : Option (Nat × Nat)) (hgroups : s.ztc.groups = []) :
    (s.bellTakes n z tone).ztc.agenda = s.ztc.agenda ∧ (s.bellTakes n z tone).ztc.groups = [] ∧ (s.bellTakes n z tone).pgc = s.pgc := by
  have hclaims : (s.bellClaims n z tone).ztc.agenda = s.ztc.agenda ∧ (s.bellClaims n z tone).ztc.groups = [] ∧
      (s.bellClaims n z tone).pgc = s.pgc := by
    have hleft : ((s.leaveWaits n z).leaveGroups n z).ztc.groups = [] := by
      show dropMembers s.ztc.groups _ = []
      rw [hgroups]
      rfl
    unfold State.bellClaims
    rw [hfree]
    exact ⟨rfl, hleft, rfl⟩
  rw [bellTakes_eq hj hp, refreshReasons_agenda, setWanted_agenda, refreshReasons_pgc, setWanted_pgc, refreshReasons_ztc]
  exact ⟨hclaims.1, (setWanted_groups ..).trans hclaims.2.1, hclaims.2.2⟩

end

/-- The sounders of a job in these zones have begun, and nothing else has come of its claims. -/
structure State.Rings (u s : State) (n : Nat) (made : Job) (o : OnTime) (started : List Nat) : Prop where
  agenda : u.ztc.agenda = s.ztc.agenda
  groups : u.ztc.groups = []
  pgc : u.pgc = s.pgc
  rest : u.rest = s.rest
  job : u.holdsMade n made
  other : ∀ z, z ∉ started → u.zoneAt z = s.zoneAt z
  sounding : ∀ z, z ∈ started →
    (u.zoneAt z).holder = .bell n ∧ (u.zoneAt z).bellUntil = some (s.now + 8 * o.stop) ∧ (u.zoneAt z).trunk = none ∧
      ∃ x, u.part? n z = some x ∧ x.state = .sounding ∧ x.start = some s.now ∧ x.sounder = .playing ∧ x.speaker = .absent

theorem rings_next {u s : State} {n z : Nat} {made : Job} {o : OnTime} {started : List Nat} (h : u.Rings s n made o started)
    (hz : z ∉ started) (hpart : made.part? z = some (newPart .sounder z)) (ho : made.timeline.ons.head? = some o)
    (havailable : (s.zoneAt z).available = true) (hfree : (s.zoneAt z).holder = .none) :
    (State.claimPart n u (newPart .sounder z)).Rings s n made o (z :: started) := by
  have hzone := h.other z hz
  obtain ⟨j, hone, hmade⟩ := h.job
  obtain ⟨hj, hnum⟩ := holdsOne_job hone
  obtain ⟨p, hp, hpmade⟩ : ∃ p, j.part? z = some p ∧ newPart p.medium p.zone = newPart .sounder z := by
    have hfound : made.part? z = (j.part? z).map fun p => newPart p.medium p.zone := by
      rw [← hmade]
      exact find_map_zone z (fun p => newPart p.medium p.zone) (fun _ => rfl) j.parts
    exact Option.map_eq_some_iff.mp (hfound.symm.trans hpart)
  have hmedium : p.medium = .sounder := congrArg Part.medium hpmade
  have hkept := congrArg State.now h.rest
  have hnow : u.now = s.now := hkept
  have htimeline : j.timeline.ons.head? = some o := by
    rw [← hmade] at ho
    exact ho
  have hfirst : u.firstChange j p = some (s.now + 8 * o.stop) := by
    unfold State.firstChange
    rw [hmedium, hnow, htimeline]
    rfl
  have htakes : State.claimPart n u (newPart .sounder z) = u.bellTakes n z none :=
    claimPart_takes (p := newPart .sounder z) (hzone ▸ havailable) (hzone ▸ hfree) rfl
  rw [htakes]
  obtain ⟨hagenda, hgroups, hpgc⟩ := bellTakes_free hj hp (hzone ▸ hfree) none h.groups
  refine ⟨hagenda.trans h.agenda, hgroups, hpgc.trans h.pgc, (rest_bellTakes ..).trans h.rest, bellTakes_made hj hp none h.job,
    fun y hy => ?_, fun y hy => ?_⟩
  · rw [List.mem_cons, not_or] at hy
    rw [bellTakes_zoneAt hj hp, if_neg hy.1]
    exact h.other y hy.2
  · by_cases hyz : y = z
    · subst hyz
      rw [bellTakes_zoneAt hj hp, if_pos rfl, bellTakes_part hj hp, hfirst]
      refine ⟨rfl, rfl, rfl, _, rfl, rfl, congrArg some hnow, ?_, rfl⟩
      unfold Part.begun
      dsimp only
      rw [hmedium]
      rfl
    · obtain ⟨hholder, huntil, htrunk, x, hx, hstate, hrest⟩ := h.sounding y ((List.mem_cons.mp hy).resolve_left hyz)
      rw [bellTakes_zoneAt hj hp, if_neg hyz]
      refine ⟨hholder, huntil, htrunk, x, bellTakes_part_other hj hp none hx hyz ?_, hstate, hrest⟩
      unfold Part.settled
      rw [hstate]

theorem rings_all {s : State} {n : Nat} {made : Job} {o : OnTime} (ho : made.timeline.ons.head? = some o) (zs : List Nat)
    (hnodup : zs.Nodup) (hparts : ∀ z, z ∈ zs → made.part? z = some (newPart .sounder z))
    (hfree : ∀ z, z ∈ zs → (s.zoneAt z).available = true ∧ (s.zoneAt z).holder = .none) {u : State} {started : List Nat}
    (h : u.Rings s n made o started) (hnew : ∀ z, z ∈ zs → z ∉ started) :
    ((zs.map (newPart .sounder)).foldl (State.claimPart n) u).Rings s n made o (zs.reverse ++ started) := by
  induction zs generalizing u started with
  | nil => exact h
  | cons z zs ih =>
    obtain ⟨hz, hzs⟩ := List.nodup_cons.mp hnodup
    obtain ⟨havailable, hvacant⟩ := hfree z List.mem_cons_self
    have hnext := rings_next h (hnew z List.mem_cons_self) (hparts z List.mem_cons_self) ho havailable hvacant
    rw [List.map_cons, List.foldl_cons, List.reverse_cons, List.append_assoc, List.singleton_append]
    refine ih hzs (fun y hy => hparts y (List.mem_cons_of_mem z hy)) (fun y hy => hfree y (List.mem_cons_of_mem z hy)) hnext fun y hy => ?_
    rw [List.mem_cons, not_or]
    exact ⟨fun hyz => hz (hyz ▸ hy), hnew y (List.mem_cons_of_mem z hy)⟩

/-! ### RING (R123, R126, R127) -/

/-- What RING asks of a new job. -/
def State.ringSource (s : State) (g k : Nat) (m : EntryMedium) : JobSource :=
  { key := none, due := s.tbu.stamp, late := false, label := none, group := g, pattern := k, medium := m }

section
variable {s : State} {p : Port} {op : Fin 16} {g k : Nat} {m : EntryMedium} (h : s.takes p op .staff)
include h

theorem execRing_range (hbad : 16 ≤ g ∨ 16 ≤ k) : execRing p op g k m s = .next (s.replied p (.no .range)) :=
  request_reads h _ (if_pos hbad) rfl

theorem execRing_full (hg : g < 16) (hk : k < 16) (hfull : 8 ≤ s.bds.queue.length) :
    execRing p op g k m s = .next (s.replied p (.no .full)) := by
  have hrefused : s.jobRefused (s.ringSource g k m) = some .full := by
    unfold State.jobRefused
    exact if_pos hfull
  refine request_reads h _ ?_ rfl
  dsimp only
  rw [if_neg (by omega)]
  show (match s.jobRefused (s.ringSource g k m) with | some _ => _ | none => _) = _
  rw [hrefused]

theorem execRing_enters (hg : g < 16) (hk : k < 16) (hroom : s.bds.queue.length < 8) :
    execRing p op g k m s = finish ((s.enterJob (s.ringSource g k m)).replied p (.okNumber false s.jobNumber)) := by
  have hfree : s.jobRefused (s.ringSource g k m) = none := by
    unfold State.jobRefused
    rw [if_neg (by omega)]
    refine if_neg fun hany => ?_
    obtain ⟨j, _, hkey⟩ := List.any_eq_true.mp hany
    rw [Bool.and_eq_true, decide_eq_true_iff] at hkey
    exact nomatch hkey.1
  refine request_answered h _ ?_ rfl
  dsimp only
  rw [if_neg (by omega)]
  show (match s.jobRefused (s.ringSource g k m) with | some _ => _ | none => _) = _
  rw [hfree]
  rfl

end

/-- The queue with a new job in it, before its parts have made their claims. -/
def State.withJob (s : State) (x : JobSource) : State :=
  { s with bds := { s.bds with lastJob := (s.newJob x).num, queue := insertJob (s.newJob x) s.bds.queue } }

section
variable {s : State} {x : JobSource}

theorem newJob_made : (s.newJob x).made = s.newJob x := by
  have hparts : (s.newJob x).parts.map (fun p => newPart p.medium p.zone) = (s.newJob x).parts := by
    refine (List.map_congr_left fun p hp => ?_).trans (List.map_id _)
    obtain ⟨z, _, rfl⟩ := List.mem_map.mp hp
    rfl
  unfold Job.made
  rw [hparts]
  rfl

theorem expand_nodup (s : State) (g : Nat) : (s.expand g).Nodup := List.nodup_range.filter _

theorem newJob_zones : (s.newJob x).parts.map Part.zone = s.expand x.group := by
  unfold State.newJob
  dsimp only
  rw [List.map_map]
  exact List.map_id _

theorem newJob_endedParts : (s.newJob x).endedParts = 0 := by
  refine List.countP_eq_zero.mpr fun p hp => ?_
  obtain ⟨z, _, rfl⟩ := List.mem_map.mp hp
  exact nofun

theorem withJob_holdsOne (hfresh : ∀ j, j ∈ s.bds.queue → j.num ≠ s.jobNumber) :
    (s.withJob x).holdsOne s.jobNumber (s.newJob x) := by
  obtain ⟨before, after, hqueue, hinsert, _, _⟩ := insertJob_split (s.newJob x) s.bds.queue
  have hnone {l : List Job} (hl : ∀ j, j ∈ l → j ∈ s.bds.queue) : (l.filter fun j => j.num = s.jobNumber) = [] :=
    List.filter_eq_nil_iff.mpr fun j hj hn => hfresh j (hl j hj) (of_decide_eq_true hn)
  have hself : decide ((s.newJob x).num = s.jobNumber) = true := decide_eq_true rfl
  unfold State.holdsOne State.withJob
  dsimp only
  rw [hinsert, List.filter_append, List.filter_cons, if_pos hself, hnone fun j hj => hqueue ▸ List.mem_append_left _ hj,
    hnone fun j hj => hqueue ▸ List.mem_append_right _ hj]
  rfl

theorem enterJob_over (h : (s.store.live.pat.timeline x.pattern).isEmpty = true ∨ s.expand x.group = []) :
    s.enterJob x = { s with bds := { s.bds with lastJob := s.jobNumber } } := by
  obtain ⟨_, hover⟩ | ⟨hbusy, _⟩ := enterJob_cases s x
  · exact hover
  · rw [Bool.or_eq_false_iff] at hbusy
    obtain hempty | hnone := h
    · exact absurd (hempty.symm.trans hbusy.1) Bool.noConfusion
    · rw [List.isEmpty_eq_false_iff] at hbusy
      exact absurd (List.map_eq_nil_iff.mpr hnone) hbusy.2

theorem enterJob_claims (hpattern : (s.store.live.pat.timeline x.pattern).isEmpty = false) (hzones : s.expand x.group ≠ []) :
    s.enterJob x = (s.withJob x).claimJob (s.newJob x) := by
  obtain ⟨hidle, _⟩ | ⟨_, hclaims⟩ := enterJob_cases s x
  · rw [Bool.or_eq_true, List.isEmpty_iff] at hidle
    obtain hempty | hnone := hidle
    · exact absurd (hempty.symm.trans hpattern) Bool.noConfusion
    · exact absurd (List.map_eq_nil_iff.mp hnone) hzones
  · exact hclaims

theorem rest_enterJob : (s.enterJob x).rest = ({ s with bds := { s.bds with lastJob := s.jobNumber } } : State).rest := by
  obtain ⟨_, h⟩ | ⟨_, h⟩ := enterJob_cases s x
  · rw [h]
    rfl
  · rw [h, rest_claimJob]
    rfl

end

theorem replied_bds_ntu (s : State) (p : Port) (r : Reply) : (s.replied p r).bds = s.bds ∧ (s.replied p r).ntu = s.ntu := by
  cases p <;> exact ⟨rfl, rfl⟩

/-- What a job answers for after its claims, the reply and all that follows from them. -/
theorem ring_accounts {s t : State} {x : JobSource} {p : Port} {r : Reply} (hfresh : ∀ j, j ∈ s.bds.queue → j.num ≠ s.jobNumber)
    (ht : finish (((s.withJob x).claimJob (s.newJob x)).replied p r) = .next t) (q : Port) (heard : Bool)
    (hheard : (s.ntu.get q).quiet.contains .bellDropped = !heard) :
    t.accounts q heard s.jobNumber ((s.ntu.get q).recAt .bellDropped).count (s.newJob x) := by
  have hnodup : ((s.newJob x).parts.map Part.zone).Nodup := newJob_zones ▸ expand_nodup s x.group
  have hentered : (s.withJob x).accounts q heard s.jobNumber ((s.ntu.get q).recAt .bellDropped).count (s.newJob x) := by
    refine .inl ⟨s.newJob x, withJob_holdsOne hfresh, newJob_made, hheard, fun _ => ?_, fun _ hpos => ?_⟩
    · rw [newJob_endedParts]
      exact Nat.min_le_right ..
    · rw [newJob_endedParts] at hpos
      exact absurd hpos (Nat.lt_irrefl 0)
  have hclaimed := claimJob_accounts hentered hnodup (s.newJob x)
  obtain ⟨hbds, hntu⟩ := replied_bds_ntu ((s.withJob x).claimJob (s.newJob x)) p r
  have hsettled := (settles_accounts q heard s.jobNumber _ hnodup).settle (accounts_same hclaimed hbds fun _ hk => hk.of_ntu hntu)
  rw [← Host.Outcome.next.inj ht]
  exact accounts_same hsettled rfl fun _ hk => hk.rejudge

theorem ring_jobs {s t : State} {x : JobSource} {p : Port} {r : Reply}
    (ht : finish (((s.withJob x).claimJob (s.newJob x)).replied p r) = .next t) :
    (t.bds.queue.map Job.num).Sublist ((insertJob (s.newJob x) s.bds.queue).map Job.num) := by
  have hreplied : Steady ((s.withJob x).claimJob (s.newJob x)) (((s.withJob x).claimJob (s.newJob x)).replied p r) := by
    cases p <;> exact steady_of_eq rfl rfl rfl rfl
  have hall : Steady (s.withJob x) t := by
    rw [← Host.Outcome.next.inj ht]
    exact steady_trans (steady_claimJob _ _) (steady_trans hreplied (steady_trans (steady_settle _) (steady_rejudge _)))
  have hjobs := hall.jobs.map fun i : EntryKey × Nat × Nat => i.2.2
  unfold State.jobIds at hjobs
  rw [List.map_map, List.map_map] at hjobs
  exact hjobs

/-- Sounders on free zones begin at once, each zone held by the job. -/
theorem ring_sounds {s t : State} {g k : Nat} {p : Port} {r : Reply} {o : OnTime} (h : s.restingLaw)
    (hfresh : ∀ j, j ∈ s.bds.queue → j.num ≠ s.jobNumber) (hgroups : s.ztc.groups = [])
    (hfree : ∀ z, z ∈ s.expand g → (s.zoneAt z).available = true ∧ (s.zoneAt z).holder = .none)
    (ho : (s.store.live.pat.timeline k).ons.head? = some o)
    (ht : finish (((s.withJob (s.ringSource g k .sounderOnly)).claimJob (s.newJob (s.ringSource g k .sounderOnly))).replied p r) = .next t) :
    ∀ z, z ∈ s.expand g →
      (t.zoneAt z).holder = .bell s.jobNumber ∧ (t.zoneAt z).bellUntil = some (s.now + 8 * o.stop) ∧ (t.zoneAt z).trunk = none ∧
      ∃ x, t.part? s.jobNumber z = some x ∧ x.state = .sounding ∧ x.start = some s.now ∧ x.sounder = .playing ∧ x.speaker = .absent := by
  obtain ⟨x, hx⟩ : ∃ x, x = s.ringSource g k .sounderOnly := ⟨_, rfl⟩
  rw [← hx] at ht
  have hparts : (s.newJob x).parts = (s.expand g).map (newPart .sounder) := by rw [hx]; rfl
  have hpart (z : Nat) (hz : z ∈ s.expand g) : (s.newJob x).part? z = some (newPart .sounder z) := by
    unfold Job.part?
    rw [hparts, List.find?_map]
    have hfind : (s.expand g).find? (fun y => decide (y = z)) = some z := by
      cases hfound : (s.expand g).find? (fun y => decide (y = z)) with
      | none => exact absurd (decide_eq_true rfl) (List.find?_eq_none.mp hfound z hz)
      | some y =>
        have hy := List.find?_some hfound
        rw [of_decide_eq_true hy]
    refine (congrArg (Option.map (newPart .sounder)) ?_).trans (Option.map_some ..)
    exact hfind
  have hbegin : (s.withJob x).Rings (s.withJob x) s.jobNumber (s.newJob x) o [] :=
    ⟨rfl, hgroups, rfl, rfl, ⟨_, withJob_holdsOne hfresh, newJob_made⟩, fun _ _ => rfl, fun z hz => absurd hz List.not_mem_nil⟩
  have htimeline : (s.newJob x).timeline.ons.head? = some o := by rw [hx]; exact ho
  have hrings := rings_all (s := s.withJob x) htimeline (s.expand g) (expand_nodup s g) hpart hfree hbegin fun z _ => List.not_mem_nil
  rw [← hparts] at hrings
  obtain ⟨u, hu⟩ : ∃ u, u = (s.newJob x).parts.foldl (State.claimPart s.jobNumber) (s.withJob x) := ⟨_, rfl⟩
  rw [← hu] at hrings
  have hagenda : u.ztc.agenda = [] := hrings.agenda.trans h.1
  have hpages : (u.pgc.queue.all fun p => !p.hasEnded) = true := by
    rw [hrings.pgc]
    exact h.2.1
  have hclaim : (s.withJob x).claimJob (s.newJob x) = u := by
    have hunfold : (s.withJob x).claimJob (s.newJob x) =
        (if u.ztc.groups.any StartGroup.fresh then u.push [.grants, .pass] else u).settle := by
      rw [hu]
      rfl
    rw [hunfold, hrings.groups, List.any_nil, if_neg Bool.false_ne_true, settle_idle hagenda, finalizePages_eq_self hpages]
  rw [hclaim] at ht
  have hfinish : finish (u.replied p r) = .next (u.replied p r).rejudge :=
    finish_atRest (by rw [replied_ztc]; exact hagenda) (by rw [replied_pgc]; exact hpages)
  have htEq := Host.Outcome.next.inj (ht.symm.trans hfinish)
  intro z hz
  have hzone : t.zoneAt z = u.zoneAt z := by
    unfold State.zoneAt
    rw [htEq, rejudge_ztc, replied_ztc]
  have hpartAt : t.part? s.jobNumber z = u.part? s.jobNumber z :=
    part_of_bds (by rw [htEq, rejudge_bds, (replied_bds_ntu u p r).1]) ..
  rw [hzone, hpartAt]
  exact hrings.sounding z (List.mem_append_left _ (List.mem_reverse.mpr hz))

/-- Settles O45: what a new job answers for (`settles_accounts`) through its claims and all that follows, and the claims of sounders on
free zones. -/
theorem ringMakesAJob : Obligations.RingMakesAJob := by
  intro s p op g k m h
  refine ⟨execRing_range h, execRing_full h, fun hg hk hroom => ?_⟩
  obtain ⟨x, hx⟩ : ∃ x, x = s.ringSource g k m := ⟨_, rfl⟩
  have hlength : (s.bds.queue.map Job.num).length < 255 := by rw [List.length_map]; omega
  have hnumber : 1 ≤ s.jobNumber ∧ s.jobNumber ≤ 255 := (nextNumber_free hlength s.bds.lastJob).2
  have hfresh (j : Job) (hj : j ∈ s.bds.queue) : j.num ≠ s.jobNumber := jobNumber_fresh (by omega) j hj
  obtain ⟨before, after, hqueue, hinsert, hbefore, hafter⟩ := insertJob_split (s.newJob x) s.bds.queue
  obtain ⟨t, ht⟩ := finish_next ((s.enterJob x).replied p (.okNumber false s.jobNumber))
  have hexec : execRing p op g k m s = .next t := by
    rw [execRing_enters h hg hk hroom, ← hx]
    exact ht
  have hrest : t.rest = (({ s with bds := { s.bds with lastJob := s.jobNumber } } : State).replied p (.okNumber false s.jobNumber)).rest :=
    (finish_rest ht).trans (rest_replied_of rest_enterJob p _)
  have hdue : (s.newJob x).due.count = s.tbu.day * 86400 + s.tbu.sec := by rw [hx]; rfl
  rw [hdue] at hbefore hafter
  refine ⟨t, s.jobNumber, before, after, hexec, hnumber.1, hnumber.2, hfresh, hrest, hqueue, hbefore, hafter, fun hover => ?_,
    fun hpattern hzones => ?_⟩
  · have hidle : s.enterJob x = { s with bds := { s.bds with lastJob := s.jobNumber } } := enterJob_over (by rw [hx]; exact hover)
    have hlaw : ({ s with bds := { s.bds with lastJob := s.jobNumber } } : State).restingLaw := restingLaw_of_eq h.1 rfl rfl rfl rfl
    rw [hidle] at ht
    exact Host.Outcome.next.inj (ht.symm.trans (finish_replied hlaw p _))
  · have hclaims : s.enterJob x = (s.withJob x).claimJob (s.newJob x) :=
      enterJob_claims (by rw [hx]; exact hpattern) (by rw [hx]; exact hzones)
    rw [hclaims] at ht
    refine ⟨?_, fun j hj hnum => ?_, fun hgone q hquiet => ?_, fun o hm hgroups hfree ho => ?_⟩
    · have hjobs := ring_jobs ht
      rw [hinsert, List.map_append, List.map_cons] at hjobs
      exact hjobs
    · obtain ⟨i, hi, hmade, _⟩ | ⟨hnone, _⟩ := ring_accounts hfresh ht .a (!(s.ntu.get .a).quiet.contains .bellDropped) (by rw [Bool.not_not])
      · have hmem : j ∈ t.bds.queue.filter fun y => y.num = s.jobNumber := List.mem_filter.mpr ⟨hj, decide_eq_true hnum⟩
        rw [hi, List.mem_singleton] at hmem
        subst hmem
        have hparts : (s.newJob x).parts.map (fun y => (y.zone, y.medium)) = j.parts.map fun y => (y.zone, y.medium) := by
          rw [← hmade]
          unfold Job.made
          rw [List.map_map]
          rfl
        refine ⟨(congrArg Job.key hmade).trans (by rw [hx]; rfl), (congrArg Job.day hmade).trans (by rw [hx]; rfl),
          (congrArg Job.sec hmade).trans (by rw [hx]; rfl), (congrArg Job.late hmade).trans (by rw [hx]; rfl),
          (congrArg Job.label hmade).trans (by rw [hx]; rfl), (congrArg Job.pattern hmade).trans (by rw [hx]; rfl),
          (congrArg Job.timeline hmade).trans (by rw [hx]; rfl), (congrArg Job.medium hmade).trans (by rw [hx]; rfl), ?_⟩
        rw [← hparts, hx]
        unfold State.newJob
        rw [List.map_map]
        refine List.map_congr_left fun z _ => ?_
        cases m <;> rfl
      · exact absurd hnum (hnone j hj)
    · obtain ⟨i, hi, _⟩ | ⟨_, htold⟩ := ring_accounts hfresh ht q true hquiet
      · exact absurd (holdsOne_job hi).2 (hgone i (List.mem_of_find?_eq_some (holdsOne_job hi).1))
      · have hcount : (s.newJob x).parts.length = (s.expand g).length := by rw [hx]; exact List.length_map ..
        rw [hcount] at htold
        exact ⟨htold.flag rfl (List.length_pos_iff.mpr hzones), htold.count rfl⟩
    · subst hm hx
      exact ring_sounds h.1 hfresh hgroups hfree ho ht

end Sys2Proof.Machine
end

