-- ==== Sys2Proof/Proofs/Boundaries.lean ====
section
/-! The end of a second (O14): what the dispatcher and the drill schedule take at a boundary and at a step, and SECOND_BOUNDARY. -/

set_option autoImplicit false

namespace Sys2Proof.Machine

open Sys2Proof

/-! ### What firing leaves of the dispatcher and the schedule -/

/-- The gate, the list and the mark of the dispatcher, and the gate and the mark of the schedule. -/
def State.dispatch (s : State) : Bds × Dsq :=
  ({ s.bds with queue := [], lastJob := 0 }, { s.dsq with session := none, records := [], lastRecord := none })

theorem dispatch_of_rest {s t : State} (h : t.rest = s.rest) : t.dispatch = s.dispatch := by
  have h' := congrArg State.dispatch h
  exact h'

theorem fire_dispatch (now : Stamp) (s : State) (e : ListEntry) : (s.fire now e).dispatch = s.dispatch := by
  unfold State.fire
  dsimp only
  split
  · exact dispatch_of_rest (rest_raise ..)
  · exact dispatch_of_rest (s := { s with bds := { s.bds with lastJob := s.jobNumber } }) rest_enterJob

theorem takeSchedule_dispatch (skips : Schedule → Bool) (s : State) (e : Schedule) : (s.takeSchedule skips e).dispatch = s.dispatch := by
  unfold State.takeSchedule
  split
  · unfold State.enterRequesting
    dsimp only
    split
    · exact dispatch_of_rest (s := (s.createSession .schedule e.program (s.scheduleBuilding e)).setDrillReq true) (enterRunning_rest _)
    · rfl
  · rfl

theorem foldl_dispatch {α : Type} {f : State → α → State} (hf : ∀ s a, (f s a).dispatch = s.dispatch) (xs : List α) (s : State) :
    (xs.foldl f s).dispatch = s.dispatch :=
  List.foldlRecOn (motive := fun u : State => u.dispatch = s.dispatch) xs f rfl fun u hu a _ => (hf u a).trans hu

theorem foldl_tbu {α : Type} {f : State → α → State} (hf : ∀ s a, (f s a).base = s.base) (xs : List α) (s : State) :
    (xs.foldl f s).tbu = s.tbu := by
  have h := congrArg State.tbu (base_foldl hf xs s)
  exact h

theorem bdsMark_of_dispatch {s t : State} (h : t.dispatch = s.dispatch) : t.bds.mark = s.bds.mark := by
  have h' := congrArg (fun x : Bds × Dsq => x.1.mark) h
  exact h'

theorem drillMark_of_dispatch {s t : State} (h : t.dispatch = s.dispatch) : t.dsq.mark = s.dsq.mark := by
  have h' := congrArg (fun x : Bds × Dsq => x.2.mark) h
  exact h'

/-! ### The dispatcher at a boundary and at a step (R116 to R122) -/

/-- The effective list of the campus date. -/
def State.listed (s : State) : State :=
  { s with bds := { s.bds with
      listDate := s.tbu.day
      list := if s.tbu.day = s.bds.listDate then s.bds.list else effectiveList s.store.live s.tbu.day } }

theorem freshList_eq (s : State) : s.freshList = s.listed := by
  unfold State.freshList State.listed State.formList
  split
  next h => rw [h]
  · rfl

/-- The entries due since the mark. -/
def State.fires (s : State) : List ListEntry :=
  s.listed.bds.list.filter fun e => decide (s.bds.mark.count < s.tbu.day * 86400 + e.time ∧ s.tbu.day * 86400 + e.time ≤ s.tbu.stamp.count)

theorem dueEntries_listed (s : State) : s.listed.dueEntries = s.fires := by
  refine List.filter_congr fun e _ => ?_
  exact (Bool.decide_and ..).symm

theorem setMark_later {s t : State} (hdispatch : t.dispatch = s.dispatch) (htbu : t.tbu = s.tbu) :
    t.setMark (t.bds.mark.later t.tbu.stamp) = t.setMark (s.bds.mark.later s.tbu.stamp) := by
  rw [bdsMark_of_dispatch hdispatch, htbu]

/-- The state with the gate and the trust in a battery start-up of the dispatcher's own. -/
def State.gated (s : State) (trust isOpen : Bool) : State := { s with bds := { s.bds with trustBackup := trust, gateOpen := isOpen } }

theorem takeGated_eq (s : State) : s.takeGated = s.listed.setMark s.tbu.stamp := by
  unfold State.takeGated
  rw [freshList_eq]

/-- The entries that fire leave the mark to the event. -/
theorem fired_mark {f : State} (es : List ListEntry) {g : State} (hg : g = es.foldl (State.fire f.tbu.stamp) f) :
    g.setMark (g.bds.mark.later g.tbu.stamp) = g.setMark (f.bds.mark.later f.tbu.stamp) := by
  subst hg
  exact setMark_later (foldl_dispatch (fire_dispatch _) ..) (foldl_tbu (base_fire _) ..)

theorem bdsBoundary_eq {s f g : State} {isOpen : Bool} (hopen : isOpen = gateOpen s.tbu.validity s.timeSet.trustBackup)
    (hf : f = (s.gated s.timeSet.trustBackup isOpen).listed) (hg : g = s.fires.foldl (State.fire s.tbu.stamp) f) :
    s.bdsBoundary = if (isOpen && s.bds.gateOpen) = true then g.setMark (s.bds.mark.later s.tbu.stamp) else f.setMark s.tbu.stamp := by
  have hunfold : s.bdsBoundary =
      if (isOpen && s.bds.gateOpen) = true then
        (fun f : State => (fun g : State => g.setMark (g.bds.mark.later g.tbu.stamp)) (f.dueEntries.foldl (State.fire f.tbu.stamp) f))
          (s.gated s.timeSet.trustBackup isOpen).freshList
      else (s.gated s.timeSet.trustBackup isOpen).takeGated := by
    subst hopen
    rfl
  have hdue : f.dueEntries = s.fires := by
    rw [hf, dueEntries_listed]
    rfl
  have htbu : f.tbu = s.tbu := by rw [hf]; rfl
  have hmark : f.bds.mark = s.bds.mark := by rw [hf]; rfl
  rw [hunfold, takeGated_eq, freshList_eq, ← hf]
  dsimp only
  rw [hdue, fired_mark s.fires rfl, htbu, hmark, ← hg]
  rfl

/-- Whether a step skips an entry: it was due before the new second less the catch-up window. -/
def State.skips (s : State) (e : ListEntry) : Bool := decide (s.tbu.day * 86400 + e.time + s.timeSet.catchUp < s.tbu.stamp.count)

/-- The entries that a step skips are told together. -/
def State.tellSkipped (s : State) (day : Nat) (late : List ListEntry) (before after : CampusMs) : State :=
  match late.head?, late.getLast? with
  | some a, some b =>
    s.raise .bellSkipped (.bellSkipped late.length { day := day, sec := a.time } { day := day, sec := b.time } before after)
  | _, _ => s

theorem tellSkipped_kept (s : State) (day : Nat) (late : List ListEntry) (before after : CampusMs) :
    (s.tellSkipped day late before after).dispatch = s.dispatch ∧ (s.tellSkipped day late before after).tbu = s.tbu := by
  unfold State.tellSkipped
  split
  · exact ⟨dispatch_of_rest (rest_raise ..), rfl⟩
  · exact ⟨rfl, rfl⟩

theorem bdsStep_eq {s f g : State} {isOpen : Bool} {before after : CampusMs} (hopen : isOpen = gateOpen s.tbu.validity s.bds.trustBackup)
    (hf : f = (s.gated s.bds.trustBackup isOpen).listed)
    (hg : g = (s.fires.filter fun e => !s.skips e).foldl (State.fire s.tbu.stamp) f) :
    s.bdsStep before after =
      if (isOpen && s.bds.gateOpen) = true then
        (g.tellSkipped s.tbu.day (s.fires.filter s.skips) before after).setMark (s.bds.mark.later s.tbu.stamp)
      else f.setMark s.tbu.stamp := by
  have hunfold : s.bdsStep before after =
      if (isOpen && s.bds.gateOpen) = true then
        (fun f : State =>
          (fun g : State => g.setMark (g.bds.mark.later g.tbu.stamp))
            (((f.dueEntries.filter fun e => !decide (f.bds.listDate * 86400 + e.time + f.timeSet.catchUp < f.tbu.stamp.count)).foldl
              (State.fire f.tbu.stamp) f).tellSkipped f.bds.listDate
                (f.dueEntries.filter fun e => decide (f.bds.listDate * 86400 + e.time + f.timeSet.catchUp < f.tbu.stamp.count)) before after))
          (s.gated s.bds.trustBackup isOpen).freshList
      else (s.gated s.bds.trustBackup isOpen).takeGated := by
    subst hopen
    rfl
  have hdue : f.dueEntries = s.fires := by
    rw [hf, dueEntries_listed]
    rfl
  have htbu : f.tbu = s.tbu := by rw [hf]; rfl
  have hmark : f.bds.mark = s.bds.mark := by rw [hf]; rfl
  have hdate : f.bds.listDate = s.tbu.day := by rw [hf]; rfl
  have hset : f.timeSet = s.timeSet := by rw [hf]; rfl
  rw [hunfold, takeGated_eq, freshList_eq, ← hf]
  dsimp only
  rw [hdue, htbu, hdate, hset]
  have hg' : g = (s.fires.filter fun e => !decide (s.tbu.day * 86400 + e.time + s.timeSet.catchUp < s.tbu.stamp.count)).foldl
      (State.fire s.tbu.stamp) f := hg
  have hlate : (s.fires.filter fun e => decide (s.tbu.day * 86400 + e.time + s.timeSet.catchUp < s.tbu.stamp.count)) = s.fires.filter s.skips :=
    rfl
  obtain ⟨htold, htold'⟩ := tellSkipped_kept g s.tbu.day (s.fires.filter s.skips) before after
  have hgmark : g.dispatch = f.dispatch := by
    rw [hg]
    exact foldl_dispatch (fire_dispatch _) ..
  have hgtbu : g.tbu = f.tbu := by
    rw [hg]
    exact foldl_tbu (base_fire _) ..
  rw [← hg', hlate, setMark_later (htold.trans hgmark) (htold'.trans hgtbu), htbu, hmark]
  rfl

/-- What fires makes its job, or is told BELL-OVERRUN (R124). -/
theorem fire_eq {s : State} {now : Stamp} {e : ListEntry} {x : JobSource}
    (hx : x = { key := some e.key, due := { day := s.bds.listDate, sec := e.time }
                late := decide (s.bds.listDate * 86400 + e.time < now.count)
                label := e.label, group := e.group, pattern := e.pattern, medium := e.medium }) :
    (8 ≤ s.bds.queue.length → s.fire now e = s.raise .bellOverrun (.bellOverrun e.key x.due .full)) ∧
    (s.bds.queue.length < 8 → (∃ j, j ∈ s.bds.queue ∧ j.key = e.key ∧ j.day = s.bds.listDate) →
      s.fire now e = s.raise .bellOverrun (.bellOverrun e.key x.due .duplicate)) ∧
    (s.bds.queue.length < 8 → (∀ j, j ∈ s.bds.queue → j.key = e.key → j.day ≠ s.bds.listDate) → s.fire now e = s.enterJob x) := by
  have hfire : s.fire now e =
      match s.jobRefused x with
      | some cause => s.raise .bellOverrun (.bellOverrun e.key x.due cause)
      | none => s.enterJob x := by
    subst hx
    rfl
  have hqueued : (s.bds.queue.any fun j => decide (some j.key = x.key) && decide (j.day = x.due.day)) = true ↔
      ∃ j, j ∈ s.bds.queue ∧ j.key = e.key ∧ j.day = s.bds.listDate := by
    subst hx
    simp [List.any_eq_true]
  rw [hfire]
  unfold State.jobRefused
  refine ⟨fun hfull => by rw [if_pos hfull], fun hroom hold => ?_, fun hroom hnew => ?_⟩
  · rw [if_neg (by omega), if_pos (hqueued.mpr hold)]
  · rw [if_neg (by omega), if_neg fun hany => ?_]
    obtain ⟨j, hj, hkey, hday⟩ := hqueued.mp hany
    exact hnew j hj hkey hday

/-! ### The drill schedule (R120, R161) -/

theorem insertDue_eq (x : Schedule) (l : List Schedule) : insertDue x l = insertBy (fun e => e.due.count) x l := by
  induction l with
  | nil => rfl
  | cons y ys ih => rw [insertDue, insertBy, ih]

/-- The filled entries of the schedule, in its order. -/
def State.scheduled (s : State) : List Schedule := (List.range 8).filterMap fun i => tget noneStart s.store.live.drl.schedule i

/-- Whether an entry of the schedule is due since the mark. -/
def State.drillDue (s : State) (e : Schedule) : Bool :=
  decide (s.dsq.mark.count < e.due.count) && decide (e.due.count ≤ s.tbu.stamp.count)

theorem dueDrills_eq (s : State) :
    s.dueDrills = (s.scheduled.filter s.drillDue).foldl (fun l e => insertBy (fun e => e.due.count) e l) [] := by
  have hinsert : (fun l e => insertDue e l) = fun l e => insertBy (fun e => e.due.count) e l := by
    funext l e
    exact insertDue_eq e l
  rw [← hinsert]
  rfl

theorem dueDrills_inOrder (s : State) :
    (∀ e, e ∈ s.dueDrills ↔ e ∈ s.scheduled ∧ s.drillDue e = true) ∧
    s.dueDrills.Pairwise (fun x y => x.due.count ≤ y.due.count) ∧
    ∀ n, (s.dueDrills.filter fun e => e.due.count = n) = s.scheduled.filter fun e => decide (e.due.count = n) && s.drillDue e := by
  obtain ⟨hsorted, hperm, hfilter⟩ := foldl_insertBy (key := fun e : Schedule => e.due.count) (s.scheduled.filter s.drillDue) [] .nil
  rw [← dueDrills_eq] at hsorted hperm hfilter
  refine ⟨fun e => hperm.mem_iff.trans List.mem_filter, hsorted, fun n => (hfilter n).trans ?_⟩
  rw [List.nil_append, List.filter_filter]

theorem drillDue_iff (s : State) (e : Schedule) :
    s.drillDue e = true ↔ s.dsq.mark.count < e.day * 86400 + e.time ∧ e.day * 86400 + e.time ≤ s.tbu.day * 86400 + s.tbu.sec := by
  unfold State.drillDue
  rw [Bool.and_eq_true, decide_eq_true_iff, decide_eq_true_iff]
  rfl

theorem scheduled_iff (s : State) (e : Schedule) :
    e ∈ s.scheduled ↔ ∃ i, i < 8 ∧ tget noneStart s.store.live.drl.schedule i = some e := by
  unfold State.scheduled
  rw [List.mem_filterMap]
  exact exists_congr fun i => and_congr_left fun _ => List.mem_range

theorem takeSchedule_starts {s : State} {skips : Schedule → Bool} {e : Schedule} (hnot : skips e = false) (hvacant : s.dsq.session = none)
    (hnormal : s.pnl.state = .normal) (hcauses : s.pnl.causes = []) (hstages : s.store.live.drl.stagesOf e.program ≠ []) :
    s.takeSchedule skips e = (s.createSession .schedule e.program (s.scheduleBuilding e)).enterRequesting := by
  unfold State.takeSchedule Pnl.troubled
  refine if_pos ?_
  rw [hnot, hvacant, hnormal, hcauses, List.isEmpty_eq_false_iff.mpr hstages]
  rfl

theorem takeSchedule_skips {s : State} {skips : Schedule → Bool} {e : Schedule}
    (h : skips e = true ∨ s.dsq.session ≠ none ∨ s.pnl.state ≠ .normal ∨ s.pnl.causes ≠ [] ∨ s.store.live.drl.stagesOf e.program = []) :
    s.takeSchedule skips e = s.writeSkipped e.program (s.scheduleBuilding e) := by
  unfold State.takeSchedule Pnl.troubled
  refine if_neg fun hguard => ?_
  simp only [Bool.and_eq_true, Bool.not_eq_true', Bool.not_not, List.isEmpty_iff, Option.isNone_iff_eq_none, decide_eq_true_eq,
    List.isEmpty_eq_false_iff] at hguard
  obtain ⟨⟨⟨⟨hnot, hvacant⟩, hnormal⟩, hcauses⟩, hstages⟩ := hguard
  obtain hskip | hbusy | hpanel | htrouble | hempty := h
  exacts [absurd (hskip.symm.trans hnot) Bool.noConfusion, hbusy hvacant, hpanel hnormal, htrouble hcauses, hstages hempty]

theorem dsqTake_eq {s v : State} {isOpen : Bool} (skips : Schedule → Bool) (hopen : isOpen = gateOpen s.tbu.validity s.dsq.trustBackup)
    (hv : v = { s with dsq := { s.dsq with gateOpen := isOpen } }) :
    s.dsqTake skips =
      if (isOpen && s.dsq.gateOpen) = true then
        (s.dueDrills.foldl (State.takeSchedule skips) v).setDrillMark (s.dsq.mark.later s.tbu.stamp)
      else v.setDrillMark s.tbu.stamp := by
  obtain ⟨g, hg⟩ : ∃ g, g = s.dueDrills.foldl (State.takeSchedule skips) v := ⟨_, rfl⟩
  have hmark : g.dsq.mark = s.dsq.mark := by
    rw [hg, drillMark_of_dispatch (foldl_dispatch (takeSchedule_dispatch skips) ..), hv]
  have htbu : g.tbu = s.tbu := by
    rw [hg, foldl_tbu (base_takeSchedule skips), hv]
  have hunfold : s.dsqTake skips =
      if (isOpen && s.dsq.gateOpen) = true then g.setDrillMark (g.dsq.mark.later g.tbu.stamp) else v.setDrillMark s.tbu.stamp := by
    subst hopen hg hv
    rfl
  rw [hunfold, hmark, htbu, hg]

/-! ### The Timebase Unit at the end of a second (R1, R2, R13, R4) -/

/-- The date, the time of day and the validity of the second after this one. -/
theorem nextSecond_spec (t : Tbu) :
    ∃ day sec validity, t.nextSecond = { t with phase := 0, day := day, sec := sec, validity := validity } ∧
      (t.sec + 1 < 86400 → day = t.day ∧ sec = t.sec + 1) ∧
      (86400 ≤ t.sec + 1 → t.day < 36524 → day = t.day + 1 ∧ sec = 0) ∧
      (86400 ≤ t.sec + 1 → 36524 ≤ t.day → day = 0 ∧ sec = 0 ∧ validity = .invalid) ∧
      (t.sec + 1 < 86400 ∨ t.day < 36524 → validity = t.validity) := by
  unfold Tbu.nextSecond
  dsimp only
  split
  · exact ⟨t.day, t.sec + 1, t.validity, rfl, fun _ => ⟨rfl, rfl⟩, fun _ => by omega, fun _ => by omega, fun _ => rfl⟩
  · split
    · exact ⟨t.day + 1, 0, t.validity, rfl, fun _ => by omega, fun _ _ => ⟨rfl, rfl⟩, fun _ _ => by omega, fun _ => rfl⟩
    · exact ⟨0, 0, .invalid, rfl, fun _ => by omega, fun _ _ => by omega, fun _ _ => ⟨rfl, rfl, rfl⟩, fun _ => by omega⟩

theorem loadBattery_eq (t : Tbu) :
    t.loadBattery =
      { t with battery := if t.validity = .invalid then { t.battery with valid := false }
                          else { t.battery with time := { day := t.day, sec := t.sec }, valid := true } } := by
  unfold Tbu.loadBattery
  split <;> rfl

theorem ageHoldover_eq (s : State) :
    ∃ due, s.ageHoldover =
      { s with tbu := { s.tbu with
          holdoverAge := if s.timeSet.refEnable = true ∧ s.tbu.disc = .holdover then min (s.tbu.holdoverAge + 1) 8640000 else s.tbu.holdoverAge
          unsyncDue := due } } := by
  have hholdover : s.discipline = .holdover ↔ s.timeSet.refEnable = true ∧ s.tbu.disc = .holdover := by
    unfold State.discipline
    cases s.timeSet.refEnable <;> simp
  unfold State.ageHoldover
  by_cases h : s.discipline = .holdover
  · rw [if_pos h]
    simp only [if_pos (hholdover.mp h)]
    exact ⟨_, rfl⟩
  · rw [if_neg h]
    simp only [if_neg (hholdover.not.mp h)]
    exact ⟨s.tbu.unsyncDue, rfl⟩

/-- The Timebase Unit as the end of a second leaves it, before the events of the boundary. -/
def State.secondEnded (s : State) : State := ((s.onTbu Tbu.nextSecond).startSecond).ageHoldover.onTbu Tbu.loadBattery

theorem secondEnded_spec (s : State) :
    ∃ u : Tbu, s.secondEnded = { s with tbu := u } ∧
      (s.tbu.sec + 1 < 86400 → u.day = s.tbu.day ∧ u.sec = s.tbu.sec + 1) ∧
      (86400 ≤ s.tbu.sec + 1 → s.tbu.day < 36524 → u.day = s.tbu.day + 1 ∧ u.sec = 0) ∧
      (86400 ≤ s.tbu.sec + 1 → 36524 ≤ s.tbu.day → u.day = 0 ∧ u.sec = 0 ∧ u.validity = .invalid) ∧
      (s.tbu.sec + 1 < 86400 ∨ s.tbu.day < 36524 → u.validity = s.tbu.validity) ∧
      u.phase = 0 ∧
      u.len = (s.tbu.startSecond s.timeSet.slewLimit).len ∧
      u.slew = (s.tbu.startSecond s.timeSet.slewLimit).slew ∧
      u.acc = (s.tbu.startSecond s.timeSet.slewLimit).acc ∧ u.drift = s.tbu.drift ∧ u.disc = s.tbu.disc ∧
      u.holdoverAge = (if s.timeSet.refEnable = true ∧ s.tbu.disc = .holdover then min (s.tbu.holdoverAge + 1) 8640000 else s.tbu.holdoverAge) ∧
      u.battery =
        (if u.validity = .invalid then { s.tbu.battery with valid := false }
         else { s.tbu.battery with time := { day := u.day, sec := u.sec }, valid := true }) := by
  obtain ⟨day, sec, validity, hnext, hsame, hmidnight, hend, hvalid⟩ := nextSecond_spec s.tbu
  obtain ⟨w, hw⟩ : ∃ w, w = (s.onTbu Tbu.nextSecond).startSecond := ⟨_, rfl⟩
  obtain ⟨due, hage⟩ := ageHoldover_eq w
  have hwtbu : w = { s with tbu := (({ s.tbu with phase := 0, day := day, sec := sec, validity := validity } : Tbu).startSecond
      s.timeSet.slewLimit) } := by
    rw [hw, ← hnext]
    rfl
  have hended : s.secondEnded = w.ageHoldover.onTbu Tbu.loadBattery := by rw [hw]; rfl
  unfold State.onTbu at hended
  rw [hage, loadBattery_eq, hwtbu] at hended
  exact ⟨_, hended, hsame, hmidnight, hend, hvalid, rfl, rfl, rfl, rfl, rfl, rfl, rfl, rfl⟩

/-! ### The events of a boundary -/

theorem isOpen_eq (v : Validity) (trust : Bool) : gateOpen v trust = (decide (v = .valid) || decide (v = .backup) && trust) := by
  cases v <;> simp [gateOpen]

theorem setMark_dispatch (s : State) (m : Stamp) : (s.setMark m).dispatch = ({ s.dispatch.1 with mark := m }, s.dispatch.2) := rfl

theorem setDrillMark_dispatch (s : State) (m : Stamp) : (s.setDrillMark m).dispatch = (s.dispatch.1, { s.dispatch.2 with mark := m }) := rfl

theorem bdsBoundary_dispatch {s : State} {isOpen : Bool} (hopen : isOpen = gateOpen s.tbu.validity s.timeSet.trustBackup) :
    s.bdsBoundary.dispatch =
      ({ listDate := s.tbu.day
         list := if s.tbu.day = s.bds.listDate then s.bds.list else effectiveList s.store.live s.tbu.day
         mark := if isOpen && s.bds.gateOpen then s.bds.mark.later s.tbu.stamp else s.tbu.stamp
         trustBackup := s.timeSet.trustBackup, gateOpen := isOpen, queue := [], lastJob := 0 }, s.dispatch.2) := by
  rw [bdsBoundary_eq hopen rfl rfl]
  split
  · rw [setMark_dispatch, foldl_dispatch (fire_dispatch _)]
    rfl
  · rfl

theorem dsqBoundary_dispatch {s : State} {isOpen : Bool} (hopen : isOpen = gateOpen s.tbu.validity s.timeSet.trustBackup) :
    s.dsqBoundary.dispatch =
      (s.dispatch.1,
        { s.dispatch.2 with
          trustBackup := s.timeSet.trustBackup, gateOpen := isOpen
          mark := if isOpen && s.dsq.gateOpen then s.dsq.mark.later s.tbu.stamp else s.tbu.stamp }) := by
  obtain ⟨u, hu⟩ : ∃ u : State, u = { s with dsq := { s.dsq with trustBackup := s.timeSet.trustBackup } } := ⟨_, rfl⟩
  have htake : s.dsqBoundary = u.dsqTake fun _ => false := by
    rw [hu]
    rfl
  rw [htake, dsqTake_eq (isOpen := isOpen) (fun _ => false) (by rw [hu]; exact hopen) rfl, hu]
  split
  · rw [setDrillMark_dispatch, foldl_dispatch (takeSchedule_dispatch _)]
    rfl
  · rfl

theorem lineSeconds_lineAt (step : Bool) {ls : List Nat} (hnodup : ls.Nodup) (s : State) (k : Nat) :
    (ls.foldl (fun s l => s.onLine l fun x => { x with secondAt := s.now, slot := 0, stepPending := x.stepPending || step }) s).lineAt k =
      if k ∈ ls then { s.lineAt k with secondAt := s.now, slot := 0, stepPending := (s.lineAt k).stepPending || step } else s.lineAt k := by
  induction ls generalizing s with
  | nil => rfl
  | cons l ls ih =>
    obtain ⟨hl, hls⟩ := List.nodup_cons.mp hnodup
    rw [List.foldl_cons, ih hls]
    unfold State.onLine
    rw [lineAt_setLine]
    by_cases hkl : k = l
    · subst hkl
      rw [if_neg hl, if_pos rfl, if_pos List.mem_cons_self]
    · simp only [List.mem_cons, hkl, false_or]
      rfl

theorem rest_lineSeconds (s : State) (step : Bool) : (s.lineSeconds step).rest = s.rest := by
  unfold State.lineSeconds
  refine rest_foldl (fun s l => ?_) _ _
  rfl

/-- What the events of a boundary leave, once their work is done. -/
theorem boundaryEvents_leaves {x t : State} {isOpen : Bool} (ht : finish x.boundaryEvents = .next t)
    (hopen : isOpen = gateOpen x.tbu.validity x.timeSet.trustBackup) :
    t.base = x.base ∧ (∀ l, l < 6 → (t.lineAt l).secondAt = x.now ∧ (t.lineAt l).slot = 0) ∧
      t.dispatch =
        ({ listDate := x.tbu.day
           list := if x.tbu.day = x.bds.listDate then x.bds.list else effectiveList x.store.live x.tbu.day
           mark := if isOpen && x.bds.gateOpen then x.bds.mark.later x.tbu.stamp else x.tbu.stamp
           trustBackup := x.timeSet.trustBackup, gateOpen := isOpen, queue := [], lastJob := 0 },
         { x.dispatch.2 with
           trustBackup := x.timeSet.trustBackup, gateOpen := isOpen
           mark := if isOpen && x.dsq.gateOpen then x.dsq.mark.later x.tbu.stamp else x.tbu.stamp }) := by
  obtain ⟨y, hy⟩ : ∃ y, y = x.bdsBoundary.settle := ⟨_, rfl⟩
  obtain ⟨z, hz⟩ : ∃ z, z = y.dsqBoundary.settle := ⟨_, rfl⟩
  have hevents : x.boundaryEvents = z.lineSeconds false := by
    rw [hz, hy]
    rfl
  have hybase : y.base = x.base := by rw [hy, base_settle, base_bdsBoundary]
  have hzbase : z.base = x.base := by rw [hz, base_settle, base_dsqBoundary, hybase]
  rw [hevents] at ht
  have htwires : t.wires = (z.lineSeconds false).wires := finish_wires ht
  refine ⟨(finish_base ht).trans ((base_lineSeconds z false).trans hzbase), fun l hl => ?_, ?_⟩
  · have hnow : z.now = x.now := now_of_base hzbase
    have hline : (z.lineSeconds false).lineAt l = _ := lineSeconds_lineAt false (List.nodup_range (n := 6)) z l
    rw [if_pos (List.mem_range.mpr hl)] at hline
    have hwire := congrFun htwires l
    unfold State.wires at hwire
    rw [hline, hnow] at hwire
    exact ⟨congrArg LineSt.secondAt hwire, congrArg LineSt.slot hwire⟩
  · have hset : y.timeSet = x.timeSet := by
      have h := congrArg State.timeSet hybase
      exact h
    have htbu : y.tbu = x.tbu := by
      have h := congrArg State.tbu hybase
      exact h
    have hydispatch : y.dispatch = x.bdsBoundary.dispatch := by
      rw [hy]
      exact dispatch_of_rest (rest_settle _)
    rw [bdsBoundary_dispatch hopen] at hydispatch
    have hgate : y.dsq.gateOpen = x.dsq.gateOpen := congrArg (fun d : Bds × Dsq => d.2.gateOpen) hydispatch
    have hmark : y.dsq.mark = x.dsq.mark := congrArg (fun d : Bds × Dsq => d.2.mark) hydispatch
    rw [dispatch_of_rest (finish_rest ht), dispatch_of_rest (rest_lineSeconds z false), hz, dispatch_of_rest (rest_settle _),
      dsqBoundary_dispatch (isOpen := isOpen) (by rw [htbu, hset]; exact hopen), hydispatch, hset, htbu, hgate, hmark]

/-- Settles O14: the Timebase Unit by `secondEnded_spec`, the events of the boundary by `boundaryEvents_leaves`, and what is due by the
equations of the dispatcher and the schedule. -/
theorem secondBoundaryEndsTheSecond : Obligations.SecondBoundaryEndsTheSecond := by
  refine ⟨fun s h hphase => ?_, fun s u now due fires hnow hu hdue hfires => ⟨fun isOpen v hopen hv => ?_,
    fun isOpen v before after late hopen hv hlate => ?_⟩, fun s now e x hx => fire_eq hx, fun s skips e building hbuilding => ?_,
    fun s => ?_, fun s now hnow => ⟨fun isOpen v hopen hv => ?_, fun isOpen v skips hopen hv hskips => ?_⟩⟩
  · obtain ⟨x, hx, hsame, hmidnight, hend, hvalid, hphase0, hlen, hslew, hacc, hdrift, hdisc, hage, hbattery⟩ := secondEnded_spec s
    obtain ⟨t, ht⟩ := finish_next s.secondEnded.boundaryEvents
    have hexec : exec .secondBoundary s = .next t := by
      show execSecondBoundary s = .next t
      unfold execSecondBoundary
      rw [event_powered _ h.2]
      dsimp only
      rw [if_neg (Nat.not_lt.mpr hphase)]
      exact ht
    obtain ⟨hbase, hlines, hdispatch⟩ := boundaryEvents_leaves ht rfl
    rw [hx] at hbase hlines hdispatch
    have htbu : t.tbu = x := by
      have h' := congrArg State.tbu hbase
      exact h'
    refine ⟨t, hexec, by rw [htbu]; exact hbase, ?_⟩
    rw [htbu]
    refine ⟨hsame, hmidnight, hend, hvalid, hphase0, hlen, hslew, hacc, hdrift, hdisc, hage, hbattery, hlines, ?_⟩
    intro now isOpen hnow hopen
    subst hnow hopen
    rw [← isOpen_eq]
    exact ⟨congrArg (fun d : Bds × Dsq => d.1.trustBackup) hdispatch, congrArg (fun d : Bds × Dsq => d.1.gateOpen) hdispatch,
      congrArg (fun d : Bds × Dsq => d.1.listDate) hdispatch, congrArg (fun d : Bds × Dsq => d.1.list) hdispatch,
      congrArg (fun d : Bds × Dsq => d.1.mark) hdispatch, congrArg (fun d : Bds × Dsq => d.2.trustBackup) hdispatch,
      congrArg (fun d : Bds × Dsq => d.2.gateOpen) hdispatch, congrArg (fun d : Bds × Dsq => d.2.mark) hdispatch⟩
  · subst hnow hu hdue hfires hv
    rw [bdsBoundary_eq hopen rfl rfl]
    refine ⟨fun htrue hwas => if_pos ?_, fun hclosed => if_neg ?_⟩
    · rw [htrue, hwas]
      rfl
    · obtain h | h := hclosed <;> rw [h] <;> simp
  · subst hnow hu hdue hfires hv hlate
    rw [bdsStep_eq hopen rfl rfl]
    refine ⟨fun htrue hwas => ?_, fun hclosed => if_neg ?_⟩
    · have hguard : (isOpen && s.bds.gateOpen) = true := by
        rw [htrue, hwas]
        rfl
      rw [if_pos hguard]
      refine ⟨fun hnone => ?_, fun a b ha hb => ?_⟩
      · have hlate : s.fires.filter s.skips = [] := hnone
        have hall : (s.fires.filter fun e => !s.skips e) = s.fires :=
          List.filter_eq_self.mpr fun e he => by simpa using List.filter_eq_nil_iff.mp hlate e he
        rw [hlate, hall]
        rfl
      · have ha' : (s.fires.filter s.skips).head? = some a := ha
        have hb' : (s.fires.filter s.skips).getLast? = some b := hb
        unfold State.tellSkipped
        rw [ha', hb']
        rfl
    · obtain h | h := hclosed <;> rw [h] <;> simp
  · subst hbuilding
    exact ⟨takeSchedule_starts, fun h => takeSchedule_skips h⟩
  · obtain ⟨hmem, hsorted, hfilter⟩ := dueDrills_inOrder s
    refine ⟨fun e => (hmem e).trans (and_congr (scheduled_iff s e) (drillDue_iff s e)), hsorted, fun n => (hfilter n).trans ?_⟩
    refine List.filter_congr fun e _ => ?_
    rw [Bool.eq_iff_iff, Bool.and_eq_true, decide_eq_true_iff, decide_eq_true_iff, drillDue_iff]
    exact and_congr_right fun he => by rw [← he]; rfl
  · subst hnow hv
    obtain ⟨w, hw⟩ : ∃ w : State, w = { s with dsq := { s.dsq with trustBackup := s.timeSet.trustBackup } } := ⟨_, rfl⟩
    have htake : s.dsqBoundary = w.dsqTake fun _ => false := by
      rw [hw]
      rfl
    rw [htake, dsqTake_eq (isOpen := isOpen) (fun _ => false) (by rw [hw]; exact hopen) rfl, hw]
    refine ⟨fun htrue hwas => if_pos ?_, fun hclosed => if_neg ?_⟩
    · rw [htrue]
      exact hwas
    · obtain h | h := hclosed
      · rw [h]
        simp
      · show ¬(isOpen && s.dsq.gateOpen) = true
        rw [h]
        simp
  · subst hnow hv hskips
    have htake : s.dsqStep = s.dsqTake fun e => decide (e.day * 86400 + e.time + s.timeSet.catchUp < s.tbu.stamp.count) := rfl
    rw [htake, dsqTake_eq _ hopen rfl]
    refine ⟨fun htrue hwas => if_pos ?_, fun hclosed => if_neg ?_⟩
    · rw [htrue, hwas]
      rfl
    · obtain h | h := hclosed <;> rw [h] <;> simp

end Sys2Proof.Machine
end

