-- ==== Sys2Proof/Proofs/DeviceRecords.lean ====
section
/-! The device records of a line: what a change of one leaves, and MISS (O35). -/

set_option autoImplicit false

namespace Sys2Proof.Machine

open Sys2Proof

/-! ### What the changes of a line's record leave -/

/-- All that becomes of a state is that one line stands like this: beside it only the zones' degraded flags and notices may differ. -/
structure State.Turns (s t : State) (l : Nat) (y : LineSt) : Prop where
  line : ∀ k, t.lineAt k = if k = l then y else s.lineAt k
  rest : t.rest = s.rest
  agenda : t.ztc.agenda = s.ztc.agenda
  pgc : t.pgc = s.pgc
  zone : ∀ z, ∃ d, t.zoneAt z = { s.zoneAt z with degraded := d }

theorem turns_setLine (s : State) (l : Nat) (y : LineSt) : s.Turns (s.setLine l y) l y :=
  ⟨fun k => lineAt_setLine s l k y, rfl, rfl, rfl, fun z => ⟨(s.zoneAt z).degraded, rfl⟩⟩

theorem turns_refl (s : State) (l : Nat) : s.Turns s l (s.lineAt l) := by
  refine ⟨fun k => ?_, rfl, rfl, rfl, fun z => ⟨(s.zoneAt z).degraded, rfl⟩⟩
  split
  next h => rw [h]
  · rfl

section
variable {s t u : State} {l : Nat} {y z : LineSt}

theorem State.Turns.self (h : s.Turns t l y) : t.lineAt l = y := (h.line l).trans (if_pos rfl)

theorem State.Turns.trans (h : s.Turns t l y) (h' : t.Turns u l z) : s.Turns u l z where
  line k := by
    rw [h'.line, h.line]
    split <;> rfl
  rest := h'.rest.trans h.rest
  agenda := h'.agenda.trans h.agenda
  pgc := h'.pgc.trans h.pgc
  zone k := by
    obtain ⟨d, hd⟩ := h.zone k
    obtain ⟨e, he⟩ := h'.zone k
    exact ⟨e, by rw [he, hd]⟩

theorem turns_refreshDegraded (s : State) (l : Nat) : s.Turns (s.refreshDegraded l) l (s.lineAt l) where
  line k := by
    rw [refreshDegraded_lineAt]
    split
    next h => rw [h]
    · rfl
  rest := refreshDegraded_rest s l
  agenda := refreshDegraded_agenda s l
  pgc := refreshDegraded_pgc s l
  zone z := List.foldlRecOn (motive := fun u : State => ∃ d, u.zoneAt z = { s.zoneAt z with degraded := d }) _ _
    ⟨(s.zoneAt z).degraded, rfl⟩ fun u hu k _ => by
      obtain ⟨d, hd⟩ := hu
      rw [zoneAt_setZone]
      split
      next h =>
        rw [← h, hd]
        exact ⟨_, rfl⟩
      · exact ⟨d, hd⟩

theorem turns_raise (s : State) (l : Nat) (k : NoticeKind) (d : Detail) : s.Turns (s.raise k d) l (s.lineAt l) :=
  ⟨(turns_refl s l).line, rest_raise s k d, rfl, rfl, fun z => ⟨(s.zoneAt z).degraded, rfl⟩⟩

theorem turns_rejudge (s : State) (l : Nat) : s.Turns s.rejudge l (s.lineAt l) :=
  ⟨(turns_refl s l).line, rejudge_rest s, rfl, rfl, fun z => ⟨(s.zoneAt z).degraded, rfl⟩⟩

/-- A state where nothing but a line has turned is at rest. -/
theorem finish_turns (h : s.Turns u l y) (hs : s.restingLaw) (ht : finish u = .next t) :
    s.Turns t l y ∧ t.dsq = u.dsq ∧ ∀ q k, (t.ntu.get q).recAt k = (u.ntu.get q).recAt k := by
  have hfinish : finish u = .next u.rejudge := finish_atRest (h.agenda.trans hs.1) (by rw [h.pgc]; exact hs.2.1)
  obtain rfl := Host.Outcome.next.inj (ht.symm.trans hfinish)
  exact ⟨h.self ▸ h.trans (turns_rejudge u l), rfl, fun q k => rejudge_recAt u q k⟩

end

/-! ### A change of a record -/

theorem turns_setRec (s : State) (l a : Nat) (r : DevRec) :
    s.Turns ((s.onLine l fun x => x.setRec a r).refreshDegraded l) l ((s.lineAt l).setRec a r) := by
  have h := turns_setLine s l ((s.lineAt l).setRec a r)
  exact h.self ▸ h.trans (turns_refreshDegraded (s.setLine l ((s.lineAt l).setRec a r)) l)

theorem setRec_ntu (s : State) (l a : Nat) (r : DevRec) : ((s.onLine l fun x => x.setRec a r).refreshDegraded l).ntu = s.ntu :=
  refreshDegraded_ntu (s.setLine l ((s.lineAt l).setRec a r)) l

/-- A record that keeps its state is changed without a notice. -/
theorem changeRec_same {s : State} {l a : Nat} {r : DevRec} (h : ((s.lineAt l).recAt a).state = r.state) :
    s.changeRec l a r = (s.onLine l fun x => x.setRec a r).refreshDegraded l := if_pos h

theorem changeRec_told {s : State} {l a : Nat} {r : DevRec} (h : ((s.lineAt l).recAt a).state ≠ r.state) (hr : r.state ≠ .absent) :
    s.changeRec l a r =
      ((s.onLine l fun x => x.setRec a r).refreshDegraded l).raise .device (.device l a r.kind ((s.lineAt l).recAt a).state r.state) := by
  refine (if_neg h).trans ?_
  rw [if_neg hr]
  rfl

theorem turns_changeRec (s : State) (l a : Nat) (r : DevRec) : s.Turns (s.changeRec l a r) l ((s.lineAt l).setRec a r) := by
  have h := turns_setRec s l a r
  unfold State.changeRec
  dsimp only
  split
  · exact h
  · exact h.self ▸ h.trans (turns_raise _ l _ _)

theorem changeRec_dsq (s : State) (l a : Nat) (r : DevRec) : (s.changeRec l a r).dsq = s.dsq := by
  have hset : ((s.onLine l fun x => x.setRec a r).refreshDegraded l).dsq = s.dsq := by
    obtain ⟨table, h⟩ := refreshDegraded_shape (s.onLine l fun x => x.setRec a r) l
    rw [h]
    rfl
  unfold State.changeRec
  dsimp only
  split <;> exact hset

theorem changeRec_recAt {s : State} {l a : Nat} {r : DevRec} (hr : r.state ≠ .absent) (q : Port) :
    ((s.changeRec l a r).ntu.get q).recAt .device =
      (if r.state = ((s.lineAt l).recAt a).state then s.ntu.get q
       else (s.ntu.get q).take .device (.device l a r.kind ((s.lineAt l).recAt a).state r.state)).recAt .device := by
  by_cases h : ((s.lineAt l).recAt a).state = r.state
  · rw [changeRec_same h, setRec_ntu, if_pos h.symm]
  · rw [changeRec_told h hr, raise_recAt, setRec_ntu, if_neg fun e => h e.symm]

/-! ### MISS (R39, R41) -/

theorem polled_some {x : LineSt} {w : Transaction} (hw : x.transaction = some w) (hproving : w.proving = false) : x.polled = some w := by
  unfold LineSt.polled
  rw [hw]
  dsimp only
  rw [hproving]
  rfl

theorem wires_raise (s : State) (k : NoticeKind) (d : Detail) : (s.raise k d).wires = s.wires := wires_of_lines rfl

/-- A line that is LOST (R41). -/
def State.lostLine (s : State) (x : LineSt) : LineSt := { x with state := .lost, since := s.now, window := [], recoverPtr := 24 }

theorem enterLost_eq {s : State} {l : Nat} (hrun : (s.lineAt l).state = .run) :
    s.enterLost l = ((s.setLine l (s.lostLine (s.lineAt l))).raise .line (.line l .lost)).lineDown l := if_pos hrun

/-- A poll of RUN that had no answer: the line counts it, and at 32 is LOST. -/
theorem lossHistory_unanswered {s : State} {l : Nat} {x : LineSt} (hx : s.lineAt l = x) (hrun : x.state = .run) :
    (s.lossHistory l false).rest = s.rest ∧
      ∃ y : LineSt, (s.lossHistory l false).wires l = { y with outAlarm := [], outOrd := [] } ∧ y.recs = x.recs ∧
        y.transaction = x.transaction ∧ y.unanswered = x.unanswered + 1 ∧ y.state = if 32 ≤ x.unanswered + 1 then .lost else .run := by
  obtain ⟨v, hv⟩ : ∃ v, v = s.setLine l { x with unanswered := x.unanswered + 1 } := ⟨_, rfl⟩
  have hself : v.lineAt l = { x with unanswered := x.unanswered + 1 } := by
    rw [hv]
    exact (lineAt_setLine ..).trans (if_pos rfl)
  have hhistory : s.lossHistory l false = if 32 ≤ x.unanswered + 1 then v.enterLost l else v := by
    rw [hv]
    unfold State.lossHistory
    dsimp only
    rw [hx, hrun]
    rfl
  have hrest : v.rest = s.rest := by
    rw [hv]
    rfl
  rw [hhistory]
  by_cases hlost : 32 ≤ x.unanswered + 1
  · rw [if_pos hlost, if_pos hlost, enterLost_eq (by rw [hself]; exact hrun), hself]
    refine ⟨(rest_lineDown ..).trans ((rest_raise ..).trans hrest), v.lostLine { x with unanswered := x.unanswered + 1 }, ?_, rfl, rfl, rfl,
      rfl⟩
    rw [wires_lineDown, wires_raise, wires_setLine]
    exact if_pos rfl
  · rw [if_neg hlost, if_neg hlost]
    refine ⟨hrest, v.lineAt l, rfl, ?_⟩
    rw [hself]
    exact ⟨rfl, rfl, rfl, hrun⟩

section
variable {s : State} {l : Fin 6} {x : LineSt} {w : Transaction} {r : DevRec} (h : s.ready) (hx : x = s.lineAt l.val)
  (hw : x.transaction = some w) (hproving : w.proving = false)
include h hx hw hproving

omit h hw hproving in
theorem takeMiss_eq {v : State} (hv : v = s.setLine l.val { x with transaction := none }) (a : Nat) :
    s.takeMiss l.val a =
      if x.stalePoll then v
      else if x.state = .discovery then
        if x.discTry < 2 then v else (v.discoverRec l.val a (x.recAt a).undiscovered).discoverNext l.val
      else (v.changeRec l.val a ((x.recAt a).missed x.missLimit)).lossHistory l.val false := by
  subst hx hv
  rfl

omit hx hw hproving h in
theorem stalePoll_false (hstate : x.state = .discovery → x.discTry ≠ 0) : x.stalePoll = false := by
  unfold LineSt.stalePoll
  by_cases hd : x.state = .discovery
  · rw [decide_eq_false (hstate hd), Bool.and_false]
  · rw [decide_eq_false hd, Bool.false_and]

theorem execMiss_eq : execMiss l s = finish (s.takeMiss l.val w.addr) := by
  unfold execMiss
  rw [event_powered _ h.2, ← hx, polled_some hw hproving]

theorem execMiss_running (hr : r = x.recAt w.addr) (hrun : x.state = .run) (hpresent : r.state = .present) (hmisses : r.misses < 15) :
    ∃ t : State, execMiss l s = .next t ∧
      (∀ b, (t.lineAt l.val).recAt b =
        if b = w.addr then
          (if r.misses + 1 < x.missLimit then { r with misses := r.misses + 1 }
           else { r with misses := r.misses + 1, state := .missing, corrections := 0 })
        else x.recAt b) ∧
      (t.lineAt l.val).transaction = none ∧ (t.lineAt l.val).unanswered = x.unanswered + 1 ∧
      (t.lineAt l.val).state = (if 32 ≤ x.unanswered + 1 then .lost else .run) ∧ t.rest = s.rest := by
  have hmissed : r.missed x.missLimit =
      if r.misses + 1 < x.missLimit then { r with misses := r.misses + 1 }
      else { r with misses := r.misses + 1, state := .missing, corrections := 0 } := by
    have hmin : min (r.misses + 1) 15 = r.misses + 1 := Nat.min_eq_left (by omega)
    unfold DevRec.missed
    dsimp only
    rw [hpresent, if_neg (by decide), hmin]
  obtain ⟨v, hv⟩ : ∃ v, v = s.setLine l.val { x with transaction := none } := ⟨_, rfl⟩
  have hself : v.lineAt l.val = { x with transaction := none } := by
    rw [hv]
    exact (lineAt_setLine ..).trans (if_pos rfl)
  have htake : s.takeMiss l.val w.addr = (v.changeRec l.val w.addr (r.missed x.missLimit)).lossHistory l.val false := by
    rw [takeMiss_eq hx hv, stalePoll_false (by rw [hrun]; exact nofun), if_neg Bool.false_ne_true, if_neg (by rw [hrun]; decide), hr]
  have hchanged := turns_changeRec v l.val w.addr (r.missed x.missLimit)
  rw [hself] at hchanged
  obtain ⟨hrest, y, hwire, hrecs, htransaction, hunanswered, hstate⟩ := lossHistory_unanswered hchanged.self hrun
  obtain ⟨t, ht⟩ := finish_next (s.takeMiss l.val w.addr)
  have hline : ({ t.lineAt l.val with outAlarm := [], outOrd := [] } : LineSt) = { y with outAlarm := [], outOrd := [] } := by
    have hall := congrFun (finish_wires ht) l.val
    rw [htake, hwire] at hall
    exact hall
  have hkept := congrArg LineSt.recs hline
  refine ⟨t, (execMiss_eq h hx hw hproving).trans ht, fun b => ?_, (congrArg LineSt.transaction hline).trans htransaction,
    (congrArg LineSt.unanswered hline).trans hunanswered, (congrArg LineSt.state hline).trans hstate, ?_⟩
  · have hrec : (t.lineAt l.val).recAt b = (({ x with transaction := none } : LineSt).setRec w.addr (r.missed x.missLimit)).recAt b :=
      congrArg (fun recs => tget devRecStart recs b) (hkept.trans hrecs)
    rw [hrec, recAt_setRec, hmissed]
    rfl
  · rw [finish_rest ht, htake, hrest, hchanged.rest, hv]
    rfl

theorem execMiss_again (hstate : x.state = .discovery) (htry : x.discTry = 1) :
    execMiss l s = .next (s.setLine l.val { x with transaction := none }) := by
  rw [execMiss_eq h hx hw hproving]
  have htake : s.takeMiss l.val w.addr = s.setLine l.val { x with transaction := none } := by
    rw [takeMiss_eq hx rfl, stalePoll_false (by omega), if_neg Bool.false_ne_true, if_pos hstate, if_pos (by omega)]
  rw [htake]
  exact finish_eq_self (setLine_restingLaw h.1 _ _)

theorem execMiss_missing (hr : r = x.recAt w.addr) (hstate : x.state = .discovery) (htry : x.discTry = 2) (haddr : w.addr < 24)
    (hdisc : x.discAddr = w.addr) (hlisted : r.listed = true) :
    ∃ t : State, execMiss l s = .next t ∧
      (∀ b, (t.lineAt l.val).recAt b = if b = w.addr then { r with state := .missing, misses := 2 } else x.recAt b) ∧
      (t.lineAt l.val).core = { x.core with transaction := none, discAddr := x.discAddr + 1, discTry := 0 } ∧ t.rest = s.rest := by
  obtain ⟨v, hv⟩ : ∃ v, v = s.setLine l.val { x with transaction := none } := ⟨_, rfl⟩
  have hturned : s.Turns v l.val { x with transaction := none } := by
    rw [hv]
    exact turns_setLine ..
  have hundiscovered : r.undiscovered = { r with state := .missing, misses := 2 } := if_pos hlisted
  have hdiscover : v.discoverRec l.val w.addr r.undiscovered = v.changeRec l.val w.addr { r with state := .missing, misses := 2 } := by
    rw [hundiscovered]
    exact if_neg (by rintro (hbad | hbad) <;> exact nomatch hbad)
  have hchanged := turns_changeRec v l.val w.addr { r with state := .missing, misses := 2 }
  rw [hturned.self] at hchanged
  have hnext : (v.changeRec l.val w.addr { r with state := .missing, misses := 2 }).discoverNext l.val =
      (v.changeRec l.val w.addr { r with state := .missing, misses := 2 }).setLine l.val
        { ({ x with transaction := none } : LineSt).setRec w.addr { r with state := .missing, misses := 2 } with
          discAddr := x.discAddr + 1, discTry := 0 } := by
    unfold State.discoverNext
    dsimp only
    rw [hchanged.self]
    exact if_neg (by show ¬24 ≤ x.discAddr; omega)
  have htake : s.takeMiss l.val w.addr =
      (v.changeRec l.val w.addr { r with state := .missing, misses := 2 }).setLine l.val
        { ({ x with transaction := none } : LineSt).setRec w.addr { r with state := .missing, misses := 2 } with
          discAddr := x.discAddr + 1, discTry := 0 } := by
    rw [takeMiss_eq hx hv, stalePoll_false (by omega), if_neg Bool.false_ne_true, if_pos hstate, if_neg (by omega), ← hr, hdiscover, hnext]
  obtain ⟨t, ht⟩ := finish_next (s.takeMiss l.val w.addr)
  have hall := (hturned.trans hchanged).trans (turns_setLine _ l.val
    { ({ x with transaction := none } : LineSt).setRec w.addr { r with state := .missing, misses := 2 } with
      discAddr := x.discAddr + 1, discTry := 0 })
  rw [← htake] at hall
  obtain ⟨hdone, _, _⟩ := finish_turns hall h.1 ht
  refine ⟨t, (execMiss_eq h hx hw hproving).trans ht, fun b => ?_, ?_, hdone.rest⟩
  · rw [hdone.self]
    exact recAt_setRec ..
  · rw [hdone.self]
    rfl

end

/-- Settles O35: what a missed poll does of the record and of the line's count. -/
theorem missTaken : Obligations.MissTaken := by
  intro s l x w r h hx hw hproving hr
  exact ⟨execMiss_running h hx hw hproving hr, execMiss_again h hx hw hproving, execMiss_missing h hx hw hproving hr⟩

end Sys2Proof.Machine
end

