-- ==== Sys2Proof/Proofs/Replies.lean ====
section
/-! REPLY (O34): what a valid reply makes of a record and of its line, how a line enters RUN, and what a clear station's report does of
a drill. -/

set_option autoImplicit false

namespace Sys2Proof.Machine

open Sys2Proof

/-! ### A line as a reply leaves it -/

/-- A line whose device has answered, with what becomes of the device's record. -/
def LineSt.answered (x : LineSt) (a start : Nat) (g : GoodReply) (r : DevRec) : LineSt := (x.reported a start g).setRec a r

theorem reported_recAt (x : LineSt) (a start : Nat) (g : GoodReply) (b : Nat) :
    (x.reported a start g).recAt b = if b = a then { x.recAt a with misses := 0, report := some g.report } else x.recAt b := by
  exact recAt_setRec ..

theorem answered_recAt (x : LineSt) (a start : Nat) (g : GoodReply) (r : DevRec) (b : Nat) :
    (x.answered a start g r).recAt b = if b = a then r else x.recAt b := by
  unfold LineSt.answered
  rw [recAt_setRec, reported_recAt]
  split <;> rfl

/-- What the state after a reply has of the lines: the record and the rest of the line that answered, and of the others all but their
records and output lists. -/
structure State.Answers (s t : State) (l a : Nat) (r : DevRec) (core : LineSt) : Prop where
  recs : ∀ b, (t.lineAt l).recAt b = if b = a then r else (s.lineAt l).recAt b
  core : (t.lineAt l).core = core
  others : ∀ k, k ≠ l → (t.lineAt k).core = (s.lineAt k).core
  rest : t.rest = s.rest

theorem answers_of_turns {s t : State} {l a : Nat} {r : DevRec} {y core : LineSt} (h : s.Turns t l y)
    (hrecs : ∀ b, y.recAt b = if b = a then r else (s.lineAt l).recAt b) (hcore : y.core = core) : s.Answers t l a r core where
  recs b := by
    rw [h.self]
    exact hrecs b
  core := by
    rw [h.self]
    exact hcore
  others k hk := by rw [h.line, if_neg hk]
  rest := h.rest

theorem turns_aside {s t : State} {l : Nat} {y : LineSt} (h : s.Turns t l y) : ∀ k, k ≠ l → t.lineAt k = s.lineAt k :=
  fun k hk => (h.line k).trans (if_neg hk)

/-! ### The parts of a reply -/

theorem handClear_idle {s : State} (h : s.dsq.session = none) (l a : Nat) (report : Report) : s.handClear l a report = s := by
  unfold State.handClear State.clearReport
  split
  · rw [h]
  · rfl

theorem compareReport_discovery {s : State} {l : Nat} (h : (s.lineAt l).state = .discovery) (a : Nat) (report : Report) :
    s.compareReport l a report = s := by
  have hnot : decide ((s.lineAt l).state = .run) = false := by
    rw [h]
    rfl
  unfold State.compareReport
  dsimp only
  rw [hnot]
  split
  · cases report <;> rfl
  · rfl

/-- A clear station's report is compared with nothing. -/
theorem compareReport_clear (s : State) (l a n : Nat) : s.compareReport l a (.clear n) = s := by
  unfold State.compareReport
  dsimp only
  split <;> rfl

theorem lossHistory_answered {s : State} {l : Nat} {y : LineSt} (hy : s.lineAt l = y) (hrun : y.state = .run) :
    s.lossHistory l true = s.setLine l { y with unanswered := 0 } := by
  unfold State.lossHistory
  dsimp only
  rw [hy, hrun]
  rfl

section
variable {s v : State} {l : Fin 6} {a start : Nat} {bytes : List Byte} {x : LineSt} {w : Transaction} {g : GoodReply}

theorem takeReply_eq (hx : x = s.lineAt l.val) (hv : v = s.setLine l.val (x.reported a start g)) (hfresh : x.stalePoll = false) :
    s.takeReply l.val a start g =
      if x.state = .discovery then
        (((v.judgeReply l.val a g).compareReport l.val a g.report).handClear l.val a g.report).discoverNext l.val
      else (((v.judgeReply l.val a g).compareReport l.val a g.report).handClear l.val a g.report).lossHistory l.val true := by
  have hunfold : s.takeReply l.val a start g =
      if x.stalePoll then v.handClear l.val a g.report
      else
        if x.state = .discovery then
          (((v.judgeReply l.val a g).compareReport l.val a g.report).handClear l.val a g.report).discoverNext l.val
        else (((v.judgeReply l.val a g).compareReport l.val a g.report).handClear l.val a g.report).lossHistory l.val true := by
    subst hx hv
    rfl
  rw [hunfold, hfresh]
  rfl

variable (h : s.ready) (hx : x = s.lineAt l.val) (hw : x.transaction = some w) (hproving : w.proving = false)
include h hx hw hproving

theorem execReply_invalid (hg : replyOf w.addr start bytes = none) : execReply l start bytes s = execMiss l s := by
  rw [execMiss_eq h hx hw hproving]
  unfold execReply
  rw [event_powered _ h.2, ← hx, polled_some hw hproving]
  dsimp only
  rw [hg]

theorem execReply_valid (hg : replyOf w.addr start bytes = some g) :
    execReply l start bytes s = finish (s.takeReply l.val w.addr start g) := by
  unfold execReply
  rw [event_powered _ h.2, ← hx, polled_some hw hproving]
  dsimp only
  rw [hg]

/-- A reply in RUN: when its report has been judged, compared and handed on, the line's count is cleared. -/
theorem execReply_run (hg : replyOf w.addr start bytes = some g) (hrun : x.state = .run)
    (hv : v = s.setLine l.val (x.reported w.addr start g)) {u : State} {y : LineSt}
    (hu : ((v.judgeReply l.val w.addr g).compareReport l.val w.addr g.report).handClear l.val w.addr g.report = u)
    (hturns : s.Turns u l.val y) (hyrun : y.state = .run) :
    ∃ t : State, execReply l start bytes s = .next t ∧ s.Turns t l.val { y with unanswered := 0 } ∧ t.dsq = u.dsq ∧
      ∀ q k, (t.ntu.get q).recAt k = (u.ntu.get q).recAt k := by
  have htake : s.takeReply l.val w.addr start g = u.setLine l.val { y with unanswered := 0 } := by
    rw [takeReply_eq hx hv (stalePoll_false (by rw [hrun]; exact nofun)), if_neg (by rw [hrun]; decide), hu,
      lossHistory_answered hturns.self hyrun]
  obtain ⟨t, ht⟩ := finish_next (s.takeReply l.val w.addr start g)
  have hall := hturns.trans (turns_setLine u l.val { y with unanswered := 0 })
  rw [← htake] at hall
  obtain ⟨hdone, hdsq, hrecs⟩ := finish_turns hall h.1 ht
  rw [htake] at hdsq hrecs
  exact ⟨t, (execReply_valid h hx hw hproving hg).trans ht, hdone, hdsq, hrecs⟩

end

/-- What judging a reply in RUN makes of the record. -/
theorem judgeReply_run {s v : State} {l a start : Nat} {g : GoodReply} {x : LineSt} {r : DevRec}
    (hv : v = s.setLine l (x.reported a start g)) (hstate : x.state ≠ .discovery)
    (hr : ({ x.recAt a with misses := 0, report := some g.report } : DevRec).replied g = r) :
    v.judgeReply l a g = v.changeRec l a r ∧ s.Turns (v.changeRec l a r) l (x.answered a start g r) := by
  have hself : v.lineAt l = x.reported a start g := by
    rw [hv]
    exact (lineAt_setLine ..).trans (if_pos rfl)
  have hrec : (v.lineAt l).recAt a = { x.recAt a with misses := 0, report := some g.report } := by
    rw [hself, reported_recAt, if_pos rfl]
  refine ⟨?_, ?_⟩
  · unfold State.judgeReply
    dsimp only
    rw [hrec, hr, hself]
    exact if_neg hstate
  · have hset : s.Turns v l (x.reported a start g) := by
      rw [hv]
      exact turns_setLine ..
    have hchanged := hset.trans (turns_changeRec v l a r)
    rw [hself] at hchanged
    exact hchanged

/-! ### A line enters RUN (R26, R42) -/

/-- The output list of a line, in the order in which it goes out. -/
def LineSt.outputs (x : LineSt) : List OutEntry := x.outAlarm ++ x.outOrd

theorem queueZone_outputs {x : LineSt} (hstate : x.state ≠ .off) (z : Nat) (alarm : Bool) :
    .zone z ∈ (x.queueZone z alarm).outputs ∧ ∀ y, .zone y ∈ x.outputs → .zone y ∈ (x.queueZone z alarm).outputs := by
  unfold LineSt.queueZone LineSt.outputs
  rw [if_neg hstate]
  split
  next h => exact ⟨List.mem_append_left _ (List.contains_iff_mem.mp h), fun _ hy => hy⟩
  · split
    · refine ⟨List.mem_append_left _ (List.mem_append_right _ List.mem_cons_self), fun y hy => ?_⟩
      by_cases hyz : y = z
      · subst hyz
        exact List.mem_append_left _ (List.mem_append_right _ List.mem_cons_self)
      · obtain hy | hy := List.mem_append.mp hy
        · exact List.mem_append_left _ (List.mem_append_left _ hy)
        · refine List.mem_append_right _ (List.mem_filter.mpr ⟨hy, decide_eq_true fun he => hyz ?_⟩)
          exact OutEntry.zone.inj he
    · split
      next h => exact ⟨List.mem_append_right _ (List.contains_iff_mem.mp h), fun _ hy => hy⟩
      · refine ⟨List.mem_append_right _ (List.mem_append_right _ List.mem_cons_self), fun y hy => ?_⟩
        obtain hy | hy := List.mem_append.mp hy
        · exact List.mem_append_left _ hy
        · exact List.mem_append_right _ (List.mem_append_left _ hy)

theorem queueAtRun_outputs {x : LineSt} (hstate : x.state ≠ .off) (z : Nat) (alarm : Bool) :
    .zone z ∈ (x.queueAtRun z alarm).outputs ∧ ∀ y, .zone y ∈ x.outputs → .zone y ∈ (x.queueAtRun z alarm).outputs := by
  unfold LineSt.queueAtRun
  split
  next h =>
    rw [Bool.or_eq_true] at h
    exact ⟨List.mem_append.mpr (h.imp List.contains_iff_mem.mp List.contains_iff_mem.mp), fun _ hy => hy⟩
  · exact queueZone_outputs hstate z alarm

theorem queueAtRun_lists (x : LineSt) (z : Nat) (alarm : Bool) : ∃ a o, x.queueAtRun z alarm = { x with outAlarm := a, outOrd := o } := by
  unfold LineSt.queueAtRun
  split
  · exact ⟨x.outAlarm, x.outOrd, rfl⟩
  · exact queueZone_lists x z alarm

theorem queueAllAtRun (alarm : Bool) (zs : List Nat) {x : LineSt} (hstate : x.state ≠ .off) :
    (∃ a o, zs.foldl (fun x z => x.queueAtRun z alarm) x = { x with outAlarm := a, outOrd := o }) ∧
      (∀ z, z ∈ zs → .zone z ∈ (zs.foldl (fun x z => x.queueAtRun z alarm) x).outputs) ∧
      ∀ z, .zone z ∈ x.outputs → .zone z ∈ (zs.foldl (fun x z => x.queueAtRun z alarm) x).outputs := by
  induction zs generalizing x with
  | nil => exact ⟨⟨x.outAlarm, x.outOrd, rfl⟩, fun z hz => absurd hz List.not_mem_nil, fun _ hz => hz⟩
  | cons z zs ih =>
    obtain ⟨a, o, hqueued⟩ := queueAtRun_lists x z alarm
    obtain ⟨hin, hkept⟩ := queueAtRun_outputs hstate z alarm
    obtain ⟨⟨a', o', hall⟩, hmem, hstay⟩ := ih (x := x.queueAtRun z alarm) (by rw [hqueued]; exact hstate)
    rw [List.foldl_cons]
    refine ⟨⟨a', o', by rw [hall, hqueued]⟩, fun y hy => ?_, fun y hy => hstay y (hkept y hy)⟩
    obtain rfl | hy := List.mem_cons.mp hy
    · exact hstay y hin
    · exact hmem y hy

/-- A line as it enters RUN, but for its output list. -/
def LineSt.running (x : LineSt) (now : Nat) : LineSt :=
  { x with state := .run, since := now, phasePtr := 0, unanswered := 0, commands := 0 }

/-- The line enters RUN with all its zones on its output list, and only then do they become available. -/
theorem enterRun_eq (s : State) (l : Nat) :
    ∃ a o, s.enterRun l =
        ((s.setLine l { (s.lineAt l).running s.now with outAlarm := a, outOrd := o }).raise .line (.line l .run)).lineUp l ∧
      ∀ z, z ∈ s.zonesOfLine l → .zone z ∈ a ++ o := by
  obtain ⟨held, hheld⟩ : ∃ held : Nat → Bool, held = fun z => decide ((s.zoneAt z).holder = .alarm) := ⟨_, rfl⟩
  obtain ⟨zs, hzs⟩ : ∃ zs, zs = s.zonesOfLine l := ⟨_, rfl⟩
  have hunfold : s.enterRun l =
      ((s.setLine l ((zs.filter fun z => !held z).foldl (fun x z => x.queueAtRun z false)
        ((zs.filter held).foldl (fun x z => x.queueAtRun z true) ((s.lineAt l).running s.now)))).raise .line (.line l .run)).lineUp l := by
    rw [hheld, hzs]
    rfl
  obtain ⟨⟨a, o, hfirst⟩, hmem, _⟩ := queueAllAtRun true (zs.filter held) (x := (s.lineAt l).running s.now) (by exact nofun)
  obtain ⟨⟨a', o', hsecond⟩, hmem', hstay⟩ := queueAllAtRun false (zs.filter fun z => !held z)
    (x := (zs.filter held).foldl (fun x z => x.queueAtRun z true) ((s.lineAt l).running s.now)) (by rw [hfirst]; exact nofun)
  have houtputs : ((zs.filter fun z => !held z).foldl (fun x z => x.queueAtRun z false)
      ((zs.filter held).foldl (fun x z => x.queueAtRun z true) ((s.lineAt l).running s.now))).outputs = a' ++ o' := by
    rw [hsecond]
    rfl
  refine ⟨a', o', ?_, fun z hz => ?_⟩
  · rw [hunfold, hsecond, hfirst]
  · rw [← hzs] at hz
    rw [← houtputs]
    by_cases hh : held z = true
    · exact hstay z (hmem z (List.mem_filter.mpr ⟨hz, hh⟩))
    · exact hmem' z (List.mem_filter.mpr ⟨hz, by simpa using hh⟩)

theorem enterRun_wires (s : State) (l : Nat) :
    (s.enterRun l).wires = fun k => if k = l then { (s.lineAt l).running s.now with outAlarm := [], outOrd := [] } else s.wires k := by
  obtain ⟨a, o, h, _⟩ := enterRun_eq s l
  rw [h, wires_lineUp, wires_raise, wires_setLine]

theorem enterRun_rest (s : State) (l : Nat) : (s.enterRun l).rest = s.rest := by
  obtain ⟨a, o, h, _⟩ := enterRun_eq s l
  rw [h, rest_lineUp, rest_raise]
  rfl

theorem lineAt_raise (s : State) (l : Nat) (k : NoticeKind) (d : Detail) : (s.raise k d).lineAt l = s.lineAt l := rfl

/-! ### Zones that become available where no page waits -/

/-- The offers of zones that a line's zones are gained with. -/
def Work.isOffer : Work → Bool
  | .offer _ => true
  | _ => false

theorem offerZone_pageless {s : State} (h : s.pgc.queue = []) (z : Nat) : s.offerZone z = s := by
  unfold State.offerZone
  rw [h]
  split <;> rfl

theorem offers_pageless {s : State} (h : s.pgc.queue = []) (zs : List Nat) : zs.foldl State.offerZone s = s := by
  induction zs with
  | nil => rfl
  | cons z zs ih =>
    rw [List.foldl_cons, offerZone_pageless h]
    exact ih

theorem settleFor_offers (k : Nat) {s : State} (h : s.pgc.queue = []) (hworks : s.ztc.agenda.all Work.isOffer = true) :
    settleFor k s = s.working [] := by
  have hpages (u : State) (hu : u.pgc.queue = []) : u.finalizePages = u := finalizePages_eq_self (by rw [hu]; rfl)
  induction k generalizing s with
  | zero => exact hpages _ h
  | succ k ih =>
    cases hagenda : s.ztc.agenda with
    | nil =>
      rw [settleFor_idle (k + 1) hagenda, hpages s h]
      unfold State.working
      rw [← hagenda]
    | cons w ws =>
      rw [hagenda, List.all_cons, Bool.and_eq_true] at hworks
      have hdone : (s.working ws).doWork w = s.working ws := by
        cases w with
        | offer zs => exact offers_pageless (s := s.working ws) h zs
        | serve | grants | claimPage | release | pass => exact Bool.noConfusion hworks.1
      rw [settleFor_work hagenda, hdone, ih (s := s.working ws) h hworks.2]
      rfl

theorem later_lines (s : State) (w : Work) : (s.later w).lines = s.lines := by
  obtain ⟨ws, h⟩ := later_shape s w
  rw [h]

/-- Zones that are gained: all of them available, and nothing but offers on the agenda. -/
theorem gains_leave {zs : List Nat} {s : State} (h : s.ztc.agenda.all Work.isOffer = true) :
    (∀ z, ((zs.foldl State.gainZone s).zoneAt z).available = true ∨ z ∉ zs) ∧ (zs.foldl State.gainZone s).lines = s.lines ∧
      (zs.foldl State.gainZone s).ntu = s.ntu ∧ (zs.foldl State.gainZone s).pgc = s.pgc ∧
      (zs.foldl State.gainZone s).ztc.agenda.all Work.isOffer = true ∧
      ∀ z, (s.zoneAt z).available = true → ((zs.foldl State.gainZone s).zoneAt z).available = true := by
  induction zs generalizing s with
  | nil => exact ⟨fun z => .inr List.not_mem_nil, rfl, rfl, rfl, h, fun _ hz => hz⟩
  | cons y ys ih =>
    obtain ⟨hlines, hntu, hpgc, hagenda⟩ : (s.gainZone y).lines = s.lines ∧ (s.gainZone y).ntu = s.ntu ∧ (s.gainZone y).pgc = s.pgc ∧
        (s.gainZone y).ztc.agenda.all Work.isOffer = true := by
      rw [gainZone_eq]
      split
      · refine ⟨later_lines .., later_ntu .., later_pgc .., ?_⟩
        rw [later_withWork]
        unfold withWork
        split
        · exact h
        · rw [List.all_append]
          exact Bool.and_eq_true_iff.mpr ⟨h, rfl⟩
      · exact ⟨rfl, rfl, rfl, h⟩
    obtain ⟨havailable, hlines', hntu', hpgc', hagenda', hkept⟩ := ih hagenda
    rw [List.foldl_cons]
    have hgained (z : Nat) (hz : (s.zoneAt z).available = true ∨ z = y) : ((s.gainZone y).zoneAt z).available = true := by
      rw [gainZone_zoneAt]
      split
      · rfl
      next hzy => exact hz.resolve_right hzy
    refine ⟨fun z => ?_, hlines'.trans hlines, hntu'.trans hntu, hpgc'.trans hpgc, hagenda', fun z hz => hkept z (hgained z (.inl hz))⟩
    by_cases hzy : z = y
    · exact .inl (hkept z (hgained z (.inr hzy)))
    · exact (havailable z).imp id fun hnot => by
        rw [List.mem_cons, not_or]
        exact ⟨hzy, hnot⟩

/-- A line that has entered RUN, with what follows of it. -/
theorem finish_enterRun {s u t : State} {l : Nat} {y : LineSt} (h : s.restingLaw) (hu : s.Turns u l y)
    (ht : finish (u.enterRun l) = .next t) :
    (∀ a r, (∀ b, y.recAt b = if b = a then r else (s.lineAt l).recAt b) → s.Answers t l a r (y.core.running s.now)) ∧
      (s.pgc.queue = [] →
        (∀ z, z < 32 → (s.zoneCfg z).line = some l →
          (t.zoneAt z).available = true ∧ .zone z ∈ (t.lineAt l).outAlarm ++ (t.lineAt l).outOrd) ∧
        ∀ q, (t.ntu.get q).recAt .line = ((u.ntu.get q).take .line (.line l .run)).recAt .line) := by
  have hnow : u.now = s.now := by
    have h' := congrArg State.now hu.rest
    exact h'
  have hwires : t.wires = _ := (finish_wires ht).trans (enterRun_wires u l)
  rw [hu.self, hnow] at hwires
  refine ⟨fun a r hrecs => ⟨fun b => ?_, ?_, fun k hk => ?_, (finish_rest ht).trans ((enterRun_rest u l).trans hu.rest)⟩, fun hpages => ?_⟩
  · have hline := (congrFun hwires l).trans (if_pos rfl)
    have hrec := congrArg (fun x : LineSt => x.recAt b) hline
    exact Eq.trans hrec (hrecs b)
  · have hline := (congrFun hwires l).trans (if_pos rfl)
    have hcore := congrArg (fun x : LineSt => ({ x with recs := [] } : LineSt)) hline
    exact hcore
  · have hline := (congrFun hwires k).trans (if_neg hk)
    have hcore := congrArg (fun x : LineSt => ({ x with recs := [] } : LineSt)) hline
    have haside := congrArg LineSt.core (turns_aside hu k hk)
    exact Eq.trans hcore haside
  · obtain ⟨a, o, hrun, houtputs⟩ := enterRun_eq u l
    obtain ⟨v, hv⟩ : ∃ v, v = (u.setLine l { (u.lineAt l).running u.now with outAlarm := a, outOrd := o }).raise .line (.line l .run) :=
      ⟨_, rfl⟩
    have hvagenda : v.ztc.agenda.all Work.isOffer = true := by
      rw [hv]
      show u.ztc.agenda.all Work.isOffer = true
      rw [hu.agenda, h.1]
      rfl
    have hvpages : v.pgc.queue = [] := by
      rw [hv]
      show u.pgc.queue = []
      rw [hu.pgc]
      exact hpages
    obtain ⟨havailable, hlines, hntu, hpgc, hagenda, _⟩ := gains_leave (zs := v.zonesOfLine l) hvagenda
    have hgained : u.enterRun l = (v.zonesOfLine l).foldl State.gainZone v := by
      rw [hrun, ← hv]
      rfl
    have hsettled : (u.enterRun l).settle = (u.enterRun l).working [] :=
      settleFor_offers 4096 (by rw [hgained, hpgc]; exact hvpages) (by rw [hgained]; exact hagenda)
    have htEq : t = ((u.enterRun l).working []).rejudge := by
      rw [← hsettled]
      exact (Host.Outcome.next.inj ht).symm
    refine ⟨fun z hz hline => ?_, fun q => ?_⟩
    · have hzoneCfg : (u.zoneCfg z).line = some l := by
        have h' := congrArg (fun x : State => x.zoneCfg z) hu.rest
        exact (congrArg ZoneCfg.line h').trans hline
      have hmem : z ∈ u.zonesOfLine l := List.mem_filter.mpr ⟨List.mem_range.mpr hz, decide_eq_true hzoneCfg⟩
      have hmem' : z ∈ v.zonesOfLine l := by
        rw [hv]
        exact hmem
      refine ⟨?_, ?_⟩
      · have hzone : t.zoneAt z = ((v.zonesOfLine l).foldl State.gainZone v).zoneAt z := by
          rw [htEq, hgained]
          rfl
        rw [hzone]
        exact (havailable z).resolve_right fun hnot => hnot hmem'
      · have hline' : t.lineAt l = { (u.lineAt l).running u.now with outAlarm := a, outOrd := o } := by
          have hsame : t.lineAt l = v.lineAt l := by
            unfold State.lineAt
            rw [← hlines, ← hgained, htEq]
            rfl
          rw [hsame, hv, lineAt_raise, lineAt_setLine, if_pos rfl]
        rw [hline']
        exact houtputs z hmem
    · have hrec : (t.ntu.get q).recAt .line = (v.ntu.get q).recAt .line := by
        rw [htEq, rejudge_recAt]
        show ((u.enterRun l).ntu.get q).recAt .line = _
        rw [hgained, hntu]
      rw [hrec, hv, raise_recAt]
      rfl

/-! ### Records of devices that match (R38, R39) -/

theorem fits_kind {r : DevRec} {g : GoodReply} (h : r.fits g = true) : r.kind = some (reportKind g.report) := by
  unfold DevRec.fits at h
  rw [Bool.and_eq_true, decide_eq_true_iff] at h
  exact h.1

/-- A record with the report of its device, before the reply has been judged. -/
def DevRec.heard (r : DevRec) (g : GoodReply) : DevRec := { r with misses := 0, report := some g.report }

theorem heard_fits (r : DevRec) (g : GoodReply) : (r.heard g).fits g = r.fits g := rfl

theorem replied_fits {r : DevRec} {g : GoodReply} (hstate : r.state = .present ∨ r.state = .faulty) (hfits : r.fits g = true) :
    r.replied g = r := by
  unfold DevRec.replied
  obtain h | h := hstate <;> rw [h] <;> exact if_pos hfits

end Sys2Proof.Machine
end

