-- ==== Sys2Proof/Proofs/DeviceReplies.lean ====
section
/-! What a reply of a device makes of its record and of the line (O34): in DISCOVERY, in RUN and in LOST. -/

set_option autoImplicit false

namespace Sys2Proof.Machine

open Sys2Proof

/-- Whether a device has phases in an AUTO table is in its record's state and kind. -/
theorem autoTable_congr {x y : LineSt} (h : ∀ b, (x.recAt b).answering = (y.recAt b).answering ∧ (x.recAt b).extra = (y.recAt b).extra) :
    x.autoTable = y.autoTable := by
  have hanswering : (fun b => (x.recAt b).answering) = fun b => (y.recAt b).answering := funext fun b => (h b).1
  have hextra : (fun b => (x.recAt b).extra) = fun b => (y.recAt b).extra := funext fun b => (h b).2
  unfold LineSt.autoTable
  rw [hanswering, hextra]

/-- The table a line enters RUN with. -/
def LineSt.nextTable (x : LineSt) : List (Option Nat) := if x.auto then x.autoTable else x.pollTable

theorem buildTable_eq (x : LineSt) : x.buildTable = { x with pollTable := x.nextTable } := by
  unfold LineSt.buildTable LineSt.nextTable
  split <;> rfl

/-- What follows for the zones and the ports where a line enters RUN and no page waits. -/
def State.LineRuns (s t : State) (l : Nat) : Prop :=
  (∀ z, z < 32 → (s.zoneCfg z).line = some l →
    (t.zoneAt z).available = true ∧ .zone z ∈ (t.lineAt l).outAlarm ++ (t.lineAt l).outOrd) ∧
  ∀ q, (t.ntu.get q).recAt .line = ((s.ntu.get q).take .line (.line l .run)).recAt .line

section
variable {s : State} {l : Fin 6} {start : Nat} {bytes : List Byte} {x y : LineSt} {w : Transaction} {g : GoodReply} {r r0 : DevRec}
  (h : s.ready) (hx : x = s.lineAt l.val) (hw : x.transaction = some w) (hproving : w.proving = false)
  (hg : replyOf w.addr start bytes = some g) (hr : r = x.recAt w.addr) (hr0 : r0 = r.heard g)
  (hy : y = { x.core with transaction := none, delay := some (moveDelay x.delay start) })
include h hx hw hproving hg hr hr0 hy

omit hr hr0 hy in
/-- A reply that brings its line to RUN. -/
theorem reply_entersRun {v : State} {z core : LineSt} {rec_ : DevRec} (htake : s.takeReply l.val w.addr start g = v.enterRun l.val)
    (hv : s.Turns v l.val z) (hntu : v.ntu = s.ntu)
    (hrecs : ∀ b, z.recAt b = if b = w.addr then rec_ else x.recAt b) (hcore : z.core.running s.now = core) :
    ∃ t : State, execReply l start bytes s = .next t ∧ s.Answers t l.val w.addr rec_ core ∧
      (s.pgc.queue = [] → s.LineRuns t l.val) := by
  obtain ⟨t, ht⟩ := finish_next (s.takeReply l.val w.addr start g)
  obtain ⟨hanswers, hruns⟩ := finish_enterRun h.1 hv (htake ▸ ht)
  refine ⟨t, (execReply_valid h hx hw hproving hg).trans ht, hcore ▸ hanswers w.addr rec_ fun b => ?_, fun hpages => ?_⟩
  · rw [hrecs, hx]
  · obtain ⟨hzones, hline⟩ := hruns hpages
    exact ⟨hzones, fun q => by rw [hline, hntu]⟩

/-! ### DISCOVERY (R25, R26) -/

section
variable (hfits : r.fits g = true) (hsession : s.dsq.session = none) (hstate : x.state = .discovery) (htry : 1 ≤ x.discTry)
  (hlisted : r.listed = true)
include hfits hsession hstate htry hlisted

omit h hw hproving hg hy in
/-- An expected device that answers in DISCOVERY is PRESENT. -/
theorem reply_discovered : ∃ u : State, s.takeReply l.val w.addr start g = u.discoverNext l.val ∧
    s.Turns u l.val (x.answered w.addr start g { r0 with state := .present }) ∧ u.ntu = s.ntu := by
  obtain ⟨v, hv⟩ : ∃ v, v = s.setLine l.val (x.reported w.addr start g) := ⟨_, rfl⟩
  have hset : s.Turns v l.val (x.reported w.addr start g) := by
    rw [hv]
    exact turns_setLine ..
  have hrec : (v.lineAt l.val).recAt w.addr = r0 := by
    rw [hset.self, reported_recAt, if_pos rfl, hr0, hr]
    rfl
  have hdiscovered : r0.discovered g = { r0 with state := .present } := by
    unfold DevRec.discovered
    rw [if_pos (by rw [hr0]; exact hlisted), hr0, heard_fits, hfits]
    rfl
  have hjudge : v.judgeReply l.val w.addr g =
      (v.onLine l.val fun x => x.setRec w.addr { r0 with state := .present }).refreshDegraded l.val := by
    unfold State.judgeReply
    dsimp only
    rw [hrec, if_pos (by rw [hset.self]; exact hstate), hdiscovered]
    exact if_pos (.inl rfl)
  have hturned := hset.trans (turns_setRec v l.val w.addr { r0 with state := .present })
  rw [hset.self] at hturned
  refine ⟨_, ?_, hturned, ?_⟩
  · rw [takeReply_eq hx hv (stalePoll_false fun _ => by omega), if_pos hstate, hjudge,
      compareReport_discovery (by rw [hturned.self]; exact hstate), handClear_idle]
    obtain ⟨table, htable⟩ := refreshDegraded_shape (v.onLine l.val fun x => x.setRec w.addr { r0 with state := .present }) l.val
    rw [htable, hv]
    exact hsession
  · rw [setRec_ntu, hv]
    rfl

theorem reply_nextAddress (hdisc : x.discAddr = w.addr) (haddr : w.addr < 24) :
    ∃ t : State, execReply l start bytes s = .next t ∧
      s.Answers t l.val w.addr { r0 with state := .present } { y with discAddr := x.discAddr + 1, discTry := 0 } ∧
      ∀ k, k ≠ l.val → t.lineAt k = s.lineAt k := by
  obtain ⟨u, htake, hu, _⟩ := reply_discovered (start := start) hx hr hr0 hfits hsession hstate htry hlisted
  have hnext : u.discoverNext l.val =
      u.setLine l.val { x.answered w.addr start g { r0 with state := .present } with discAddr := x.discAddr + 1, discTry := 0 } := by
    unfold State.discoverNext
    dsimp only
    rw [hu.self]
    exact if_neg (by show ¬24 ≤ x.discAddr; omega)
  obtain ⟨t, ht⟩ := finish_next (s.takeReply l.val w.addr start g)
  have hall := hu.trans (turns_setLine u l.val
    { x.answered w.addr start g { r0 with state := .present } with discAddr := x.discAddr + 1, discTry := 0 })
  rw [← hnext, ← htake] at hall
  obtain ⟨hdone, _, _⟩ := finish_turns hall h.1 ht
  refine ⟨t, (execReply_valid h hx hw hproving hg).trans ht, answers_of_turns hdone (fun b => ?_) ?_, turns_aside hdone⟩
  · rw [← hx]
    exact answered_recAt ..
  · rw [hy]
    rfl

theorem reply_lastAddress (hdisc : x.discAddr = w.addr) (haddr : w.addr = 24) :
    ∃ t : State, execReply l start bytes s = .next t ∧
      s.Answers t l.val w.addr { r0 with state := .present }
        { y with state := .run, since := s.now, searchPtr := 24, phasePtr := 0, unanswered := 0, commands := 0
                 pollTable := if x.auto then (x.setRec 24 { r0 with state := .present }).autoTable else x.pollTable } ∧
      (s.pgc.queue = [] → s.LineRuns t l.val) := by
  obtain ⟨u, htake, hu, hntu⟩ := reply_discovered (start := start) hx hr hr0 hfits hsession hstate htry hlisted
  obtain ⟨z, hz⟩ : ∃ z, z = x.answered w.addr start g { r0 with state := .present } := ⟨_, rfl⟩
  rw [← hz] at hu
  obtain ⟨v, hv⟩ : ∃ v, v = u.setLine l.val { z.buildTable with searchPtr := 24 } := ⟨_, rfl⟩
  have hrecs (b : Nat) : ({ z.buildTable with searchPtr := 24 } : LineSt).recAt b =
      if b = w.addr then { r0 with state := .present } else x.recAt b := by
    rw [buildTable_eq, hz]
    exact answered_recAt ..
  have hturns : s.Turns v l.val { z.buildTable with searchPtr := 24 } := by
    rw [hv]
    exact hu.trans (turns_setLine ..)
  have hanswers : (allAddrs.any fun a => ((v.lineAt l.val).recAt a).answering) = true := by
    refine List.any_eq_true.mpr ⟨24, by decide, ?_⟩
    rw [hturns.self, hrecs, if_pos haddr.symm]
    rfl
  have hends : u.discoverNext l.val = v.enterRun l.val := by
    have hunfold : u.discoverNext l.val =
        if 24 ≤ (u.lineAt l.val).discAddr then
          if allAddrs.any fun a => ((v.lineAt l.val).recAt a).answering then v.enterRun l.val else v.enterLost l.val
        else u.setLine l.val { u.lineAt l.val with discAddr := (u.lineAt l.val).discAddr + 1, discTry := 0 } := by
      rw [hv, ← hu.self]
      rfl
    rw [hunfold, hanswers, if_pos rfl, if_pos]
    rw [hu.self, hz]
    show 24 ≤ x.discAddr
    omega
  refine reply_entersRun h hx hw hproving hg (htake.trans hends) hturns ?_ hrecs ?_
  · rw [hv]
    exact hntu
  · have htable : z.nextTable = if x.auto then (x.setRec 24 { r0 with state := .present }).autoTable else x.pollTable := by
      have hauto : z.autoTable = (x.setRec 24 { r0 with state := .present }).autoTable := autoTable_congr fun b => by
        rw [hz, answered_recAt, recAt_setRec, haddr]
        exact ⟨rfl, rfl⟩
      unfold LineSt.nextTable
      rw [hauto, hz]
      rfl
    rw [buildTable_eq, htable, hz, hy]
    rfl

end

/-! ### RUN: devices that agree with what is wanted of them (R39, R45) -/

omit h hx hw hproving hg hy in
/-- The state in which a reply has been judged. -/
theorem reply_judged (hstate : x.state ≠ .discovery) {r' : DevRec} (hreplied : r0.replied g = r') : ∃ v j : State,
    v = s.setLine l.val (x.reported w.addr start g) ∧ v.judgeReply l.val w.addr g = j ∧
      s.Turns j l.val (x.answered w.addr start g r') ∧ j.dsq = s.dsq ∧ (r'.state = r.state → j.ntu = s.ntu) ∧
      (r'.state ≠ .absent → ∀ q, (j.ntu.get q).recAt .device =
        (if r'.state = r.state then s.ntu.get q
         else (s.ntu.get q).take .device (.device l.val w.addr r'.kind r.state r'.state)).recAt .device) := by
  obtain ⟨v, hv⟩ : ∃ v, v = s.setLine l.val (x.reported w.addr start g) := ⟨_, rfl⟩
  have hjudged : ({ x.recAt w.addr with misses := 0, report := some g.report } : DevRec).replied g = r' := by
    rw [← hreplied, hr0, hr]
    rfl
  obtain ⟨hjudge, hturns⟩ := judgeReply_run hv hstate hjudged
  have hrec : ((v.lineAt l.val).recAt w.addr).state = r.state := by
    rw [hv, lineAt_setLine, if_pos rfl, reported_recAt, if_pos rfl, hr]
  have hntu : v.ntu = s.ntu := by
    rw [hv]
    rfl
  refine ⟨v, _, hv, hjudge, hturns, ?_, fun hsame => ?_, fun habsent q => ?_⟩
  · rw [changeRec_dsq, hv]
    rfl
  · rw [changeRec_same (hrec.trans hsame.symm), setRec_ntu, hntu]
  · rw [changeRec_recAt habsent, hrec, hntu]

omit hr hr0 in
/-- A reply in RUN, with what its report has made of the record and the output list. -/
theorem reply_inRun (hrun : x.state = .run) {v u : State} (hv : v = s.setLine l.val (x.reported w.addr start g))
    (hu : ((v.judgeReply l.val w.addr g).compareReport l.val w.addr g.report).handClear l.val w.addr g.report = u) {z : LineSt}
    (hturns : s.Turns u l.val z) {r' : DevRec} (hrecs : ∀ b, z.recAt b = if b = w.addr then r' else x.recAt b) (hcore : z.core = y) :
    ∃ t : State, execReply l start bytes s = .next t ∧ s.Answers t l.val w.addr r' { y with unanswered := 0 } ∧
      (∀ k, k ≠ l.val → t.lineAt k = s.lineAt k) ∧ (t.lineAt l.val).outAlarm = z.outAlarm ∧ (t.lineAt l.val).outOrd = z.outOrd ∧
      t.dsq = u.dsq ∧ ∀ q k, (t.ntu.get q).recAt k = (u.ntu.get q).recAt k := by
  have hzrun : z.state = .run := by
    have hstate := congrArg LineSt.state hcore
    rw [hy] at hstate
    exact hstate.trans hrun
  obtain ⟨t, ht, hdone, hdsq, hrec⟩ := execReply_run h hx hw hproving hg hrun hv hu hturns hzrun
  refine ⟨t, ht, answers_of_turns hdone (fun b => ?_) ?_, turns_aside hdone, ?_, ?_, hdsq, hrec⟩
  · rw [← hx]
    exact hrecs b
  · rw [← hcore]
    rfl
  · rw [hdone.self]
  · rw [hdone.self]

omit h hx hw hproving hg hr hr0 in
theorem answered_core (r' : DevRec) : (x.answered w.addr start g r').core = y := by
  rw [hy]
  rfl

/-- What a report has to agree with (R45): a bell unit's with the zone's bell, a speaker node's with the zone's trunk. -/
def State.agrees (s : State) (r : DevRec) : Report → Prop
  | .clock _ _ _ => False
  | .clear _ => True
  | .bell b => ∃ z, r.zone = some z ∧ b = (s.zoneAt z).bellUntil.isSome
  | .speaker u f => f = false ∧ ∃ z, r.zone = some z ∧ u = (s.zoneAt z).trunk

omit h hx hw hproving hg hr hr0 hy in
/-- A device that agrees with what is wanted of it stays as it is. -/
theorem compareReport_agrees {j : State} {a : Nat} {r' : DevRec} (hrec : (j.lineAt l.val).recAt a = r') (hpresent : r'.state = .present)
    (hzones : ∀ z, ∃ d, j.zoneAt z = { s.zoneAt z with degraded := d }) {report : Report} (hagrees : s.agrees r' report) :
    j.compareReport l.val a report = j := by
  have hreconcile {z : Nat} (hz : r'.zone = some z) (report : Report)
      (hsame : (match report with
        | .bell on => decide (on = (j.zoneAt z).bellUntil.isSome)
        | .speaker t _ => decide (t = (j.zoneAt z).trunk)
        | _ => true) = true) : j.reconcile l.val a report = j := by
    unfold State.reconcile
    rw [hrec, hz]
    exact if_pos hsame
  unfold State.compareReport
  dsimp only
  rw [hrec, if_pos (.inl hpresent)]
  cases report with
  | clock => exact hagrees.elim
  | clear => rfl
  | bell b =>
    obtain ⟨z, hz, hb⟩ := hagrees
    obtain ⟨d, hd⟩ := hzones z
    dsimp only
    rw [hreconcile hz (.bell b) (decide_eq_true (by rw [hb, hd]))]
    exact ite_self _
  | speaker u f =>
    obtain ⟨hf, z, hz, hu⟩ := hagrees
    obtain ⟨d, hd⟩ := hzones z
    dsimp only
    have hflag : j.ampFlag l.val a f = j := by
      unfold State.ampFlag
      dsimp only
      rw [hrec, hpresent, hf]
    rw [hreconcile hz (.speaker u f) (decide_eq_true (by rw [hu, hd])), ite_self, hflag, ite_self]

theorem reply_agrees (hfits : r.fits g = true) (hsession : s.dsq.session = none) (hrun : x.state = .run) (hpresent : r.state = .present)
    (hagrees : s.agrees r g.report) :
    ∃ t : State, execReply l start bytes s = .next t ∧ s.Answers t l.val w.addr r0 { y with unanswered := 0 } ∧
      ∀ k, k ≠ l.val → t.lineAt k = s.lineAt k := by
  have hkept : r0.replied g = r0 := replied_fits (.inl (by rw [hr0]; exact hpresent)) (by rw [hr0]; exact hfits)
  obtain ⟨v, j, hv, hj, hturns, hdsq, _, _⟩ := reply_judged (s := s) (l := l) (start := start) hr hr0 (by rw [hrun]; exact nofun) hkept
  have hrec : (j.lineAt l.val).recAt w.addr = r0 := by
    rw [hturns.self, answered_recAt, if_pos rfl]
  have hu : ((v.judgeReply l.val w.addr g).compareReport l.val w.addr g.report).handClear l.val w.addr g.report = j := by
    rw [hj, compareReport_agrees hrec (by rw [hr0]; exact hpresent) hturns.zone (by rw [hr0]; exact hagrees),
      handClear_idle (by rw [hdsq]; exact hsession)]
  obtain ⟨t, ht, hanswers, haside, _⟩ :=
    reply_inRun h hx hw hproving hg hy hrun hv hu hturns (fun b => answered_recAt ..) (answered_core hy r0)
  exact ⟨t, ht, hanswers, haside⟩

/-! ### RUN: clocks (R47) -/

section
variable {hour m sec : Nat} (hreport : g.report = .clock hour m sec) (hfits : r.fits g = true) (hrun : x.state = .run)
  (hstate : r.state = .present ∨ r.state = .faulty)
include hreport hfits hrun hstate

omit h hx hw hproving hg hy in
/-- A clock's reply, when it is compared with campus time. -/
theorem clock_judged : ∃ v j : State,
    v = s.setLine l.val (x.reported w.addr start g) ∧
      ((v.judgeReply l.val w.addr g).compareReport l.val w.addr g.report).handClear l.val w.addr g.report =
        j.correctClock l.val w.addr hour m sec ∧
      s.Turns j l.val (x.answered w.addr start g r0) ∧ (j.lineAt l.val).recAt w.addr = r0 ∧ j.ntu = s.ntu := by
  have hstate0 : r0.state = .present ∨ r0.state = .faulty := by
    rw [hr0]
    exact hstate
  obtain ⟨v, j, hv, hj, hturns, _, hntu, _⟩ := reply_judged (s := s) (l := l) (w := w) (start := start) hr hr0 (by rw [hrun]; exact nofun)
    (replied_fits hstate0 (by rw [hr0]; exact hfits))
  have hrec : (j.lineAt l.val).recAt w.addr = r0 := by
    rw [hturns.self, answered_recAt, if_pos rfl]
  have hjrun : (j.lineAt l.val).state = .run := by
    rw [hturns.self]
    exact hrun
  refine ⟨v, j, hv, ?_, hturns, hrec, hntu (by rw [hr0]; rfl)⟩
  rw [hj, hreport]
  show j.compareReport l.val w.addr (.clock hour m sec) = _
  unfold State.compareReport
  dsimp only
  rw [hrec, if_pos hstate0, hjrun]
  rfl

/-- A clock that is not compared, or is FAULTY still, keeps its record. -/
theorem clock_kept (hkept : ∀ j : State, s.Turns j l.val (x.answered w.addr start g r0) →
      (j.lineAt l.val).recAt w.addr = r0 → j.correctClock l.val w.addr hour m sec = j) :
    ∃ t : State, execReply l start bytes s = .next t ∧ s.Answers t l.val w.addr r0 { y with unanswered := 0 } ∧
      (∀ k, k ≠ l.val → t.lineAt k = s.lineAt k) ∧ (t.lineAt l.val).outAlarm = x.outAlarm ∧ (t.lineAt l.val).outOrd = x.outOrd := by
  obtain ⟨v, j, hv, hj, hturns, hrec, _⟩ := clock_judged (s := s) (l := l) (w := w) (start := start) hr hr0 hreport hfits hrun hstate
  obtain ⟨t, ht, hanswers, haside, halarm, hord, _⟩ := reply_inRun h hx hw hproving hg hy hrun hv (hj.trans (hkept j hturns hrec)) hturns
    (fun b => answered_recAt ..) (answered_core hy r0)
  exact ⟨t, ht, hanswers, haside, halarm, hord⟩

omit h hx hw hproving hg hr hr0 hy hreport hfits hrun hstate in
theorem answered_setRec_recAt (r' : DevRec) (b : Nat) :
    ((x.answered w.addr start g r0).setRec w.addr r').recAt b = if b = w.addr then r' else x.recAt b := by
  rw [recAt_setRec, answered_recAt]
  split <;> rfl

/-- A clock that shows campus time is PRESENT and has no corrections. -/
theorem clock_right
    (hright : ∀ j : State, s.Turns j l.val (x.answered w.addr start g r0) → (j.lineAt l.val).recAt w.addr = r0 →
      j.correctClock l.val w.addr hour m sec = j.changeRec l.val w.addr { r0 with corrections := 0, state := .present }) :
    ∃ t : State, execReply l start bytes s = .next t ∧
      s.Answers t l.val w.addr { r0 with corrections := 0, state := .present } { y with unanswered := 0 } ∧
      (∀ k, k ≠ l.val → t.lineAt k = s.lineAt k) ∧ (t.lineAt l.val).outAlarm = x.outAlarm ∧ (t.lineAt l.val).outOrd = x.outOrd ∧
      (r.state = .faulty → ∀ q, (t.ntu.get q).recAt .device =
        ((s.ntu.get q).take .device (.device l.val w.addr r.kind .faulty .present)).recAt .device) := by
  obtain ⟨v, j, hv, hj, hturns, hrec, hntu⟩ := clock_judged (s := s) (l := l) (w := w) (start := start) hr hr0 hreport hfits hrun hstate
  have hchanged := hturns.trans (turns_changeRec j l.val w.addr { r0 with corrections := 0, state := .present })
  rw [hturns.self] at hchanged
  obtain ⟨t, ht, hanswers, haside, halarm, hord, _, hrecs⟩ := reply_inRun h hx hw hproving hg hy hrun hv
    (hj.trans (hright j hturns hrec)) hchanged (answered_setRec_recAt _) (answered_core hy r0)
  refine ⟨t, ht, hanswers, haside, halarm, hord, fun hfaulty q => ?_⟩
  have hfaulty0 : r0.state = .faulty := by
    rw [hr0]
    exact hfaulty
  rw [hrecs, changeRec_recAt (by exact nofun), hrec, hfaulty0, hntu, if_neg (by exact nofun), hr0]
  rfl

/-- A clock that shows another time is set. -/
theorem clock_corrected (hmissing : .clock w.addr ∉ x.outOrd)
    (hset : ∀ j : State, s.Turns j l.val (x.answered w.addr start g r0) → (j.lineAt l.val).recAt w.addr = r0 →
      j.correctClock l.val w.addr hour m sec =
        (j.changeRec l.val w.addr { r0 with corrections := r.corrections + 1 }).onLine l.val fun x => x.queueClock w.addr) :
    ∃ t : State, execReply l start bytes s = .next t ∧
      s.Answers t l.val w.addr { r0 with corrections := r.corrections + 1 } { y with unanswered := 0 } ∧
      (∀ k, k ≠ l.val → t.lineAt k = s.lineAt k) ∧ (t.lineAt l.val).outAlarm = x.outAlarm ∧
      (t.lineAt l.val).outOrd = x.outOrd ++ [.clock w.addr] := by
  obtain ⟨v, j, hv, hj, hturns, hrec, _⟩ := clock_judged (s := s) (l := l) (w := w) (start := start) hr hr0 hreport hfits hrun hstate
  have hchanged := hturns.trans (turns_changeRec j l.val w.addr { r0 with corrections := r.corrections + 1 })
  rw [hturns.self] at hchanged
  obtain ⟨z, hz⟩ : ∃ z, z = (x.answered w.addr start g r0).setRec w.addr { r0 with corrections := r.corrections + 1 } := ⟨_, rfl⟩
  rw [← hz] at hchanged
  have hqueued : z.queueClock w.addr = { z with outOrd := x.outOrd ++ [OutEntry.clock w.addr] } := by
    unfold LineSt.queueClock
    rw [if_neg, hz]
    · rfl
    · rw [List.contains_iff_mem, hz]
      exact hmissing
  obtain ⟨z', hz'⟩ : ∃ z', z' = { z with outOrd := x.outOrd ++ [OutEntry.clock w.addr] } := ⟨_, rfl⟩
  have hrecs (b : Nat) : z'.recAt b = if b = w.addr then { r0 with corrections := r.corrections + 1 } else x.recAt b := by
    have hsame : z'.recAt b = z.recAt b := by
      rw [hz']
      rfl
    rw [hsame, hz]
    exact answered_setRec_recAt _ b
  have hcore : z'.core = y := by
    have hsame : z'.core = z.core := by
      rw [hz']
      rfl
    rw [hsame, hz]
    exact answered_core hy r0
  have hall := hchanged.trans (turns_setLine _ l.val z')
  have hu : (j.changeRec l.val w.addr { r0 with corrections := r.corrections + 1 }).onLine l.val (fun x => x.queueClock w.addr) =
      (j.changeRec l.val w.addr { r0 with corrections := r.corrections + 1 }).setLine l.val z' := by
    rw [hz', ← hqueued, ← hchanged.self]
    rfl
  obtain ⟨t, ht, hanswers, haside, halarm, hord, _⟩ := reply_inRun h hx hw hproving hg hy hrun hv
    ((hj.trans (hset j hturns hrec)).trans hu) hall hrecs hcore
  exact ⟨t, ht, hanswers, haside, by rw [halarm, hz', hz]; rfl, by rw [hord, hz']⟩

/-- A clock that has been corrected three times and shows another time is FAULTY. -/
theorem clock_off
    (hoff : ∀ j : State, s.Turns j l.val (x.answered w.addr start g r0) → (j.lineAt l.val).recAt w.addr = r0 →
      j.correctClock l.val w.addr hour m sec =
        ((j.onLine l.val fun x => x.setRec w.addr { r0 with state := .faulty }).refreshDegraded l.val).raise .clockOff
          (.clockOff l.val w.addr hour m sec j.campus)) :
    ∃ t : State, execReply l start bytes s = .next t ∧
      s.Answers t l.val w.addr { r0 with state := .faulty } { y with unanswered := 0 } ∧
      (∀ k, k ≠ l.val → t.lineAt k = s.lineAt k) ∧ (t.lineAt l.val).outAlarm = x.outAlarm ∧ (t.lineAt l.val).outOrd = x.outOrd ∧
      ∀ q, (t.ntu.get q).recAt .clockOff =
        ((s.ntu.get q).take .clockOff (.clockOff l.val w.addr hour m sec s.campus)).recAt .clockOff := by
  obtain ⟨v, j, hv, hj, hturns, hrec, hntu⟩ := clock_judged (s := s) (l := l) (w := w) (start := start) hr hr0 hreport hfits hrun hstate
  have hcampus : j.campus = s.campus := by
    have h' := congrArg State.campus hturns.rest
    exact h'
  have hset := hturns.trans (turns_setRec j l.val w.addr { r0 with state := .faulty })
  rw [hturns.self] at hset
  have hall := hset.trans (turns_raise _ l.val .clockOff (.clockOff l.val w.addr hour m sec j.campus))
  rw [hset.self] at hall
  obtain ⟨t, ht, hanswers, haside, halarm, hord, _, hrecs⟩ := reply_inRun h hx hw hproving hg hy hrun hv
    (hj.trans (hoff j hturns hrec)) hall (answered_setRec_recAt _) (answered_core hy r0)
  exact ⟨t, ht, hanswers, haside, halarm, hord, fun q => by rw [hrecs, raise_recAt, setRec_ntu, hntu, hcampus]⟩

omit h hx hw hproving hg hr hr0 hy hreport hfits hrun hstate in
theorem correctClock_eq {j : State} {a : Nat} {z : LineSt} {r' : DevRec} (hline : j.lineAt l.val = z) (hrec : (j.lineAt l.val).recAt a = r') :
    j.correctClock l.val a hour m sec =
      if z.outOrd.contains (.clock a) || z.stepPending then j
      else if roundDay (hour * 3600 + m * 60 + sec) j.tbu.sec ≤ 1 then
        j.changeRec l.val a { r' with corrections := 0, state := if r'.state = .faulty then .present else r'.state }
      else if r'.state = .present then
        if r'.corrections < 3 then
          (j.changeRec l.val a { r' with corrections := r'.corrections + 1 }).onLine l.val fun x => x.queueClock a
        else ((j.onLine l.val fun x => x.setRec a { r' with state := .faulty }).refreshDegraded l.val).raise .clockOff
          (.clockOff l.val a hour m sec j.campus)
      else j := by
  subst hline hrec
  rfl

omit h hx hw hproving hg hr hr0 hy hreport hfits hrun hstate in
theorem roundDay_near {a b : Nat} : roundDay a b ≤ 1 ↔ (a + 86400 - b) % 86400 ≤ 1 ∨ (b + 86400 - a) % 86400 ≤ 1 := by
  unfold roundDay
  omega

theorem reply_clock {a b : Nat} {same compared : Prop} (ha : a = hour * 3600 + m * 60 + sec) (hb : b = s.tbu.sec)
    (hsame : same ↔ (a + 86400 - b) % 86400 ≤ 1 ∨ (b + 86400 - a) % 86400 ≤ 1)
    (hcompared : compared ↔ .clock w.addr ∉ x.outOrd ∧ x.stepPending = false) :
    ∃ (t : State) (r' : DevRec), execReply l start bytes s = .next t ∧ s.Answers t l.val w.addr r' { y with unanswered := 0 } ∧
      (∀ k, k ≠ l.val → t.lineAt k = s.lineAt k) ∧ (t.lineAt l.val).outAlarm = x.outAlarm ∧
      (¬compared → r' = r0 ∧ (t.lineAt l.val).outOrd = x.outOrd) ∧
      (compared → same → r' = { r0 with corrections := 0, state := .present } ∧ (t.lineAt l.val).outOrd = x.outOrd ∧
        (r.state = .faulty → ∀ q, (t.ntu.get q).recAt .device =
          ((s.ntu.get q).take .device (.device l.val w.addr r.kind .faulty .present)).recAt .device)) ∧
      (compared → ¬same →
        (r.state = .faulty → r' = r0 ∧ (t.lineAt l.val).outOrd = x.outOrd) ∧
        (r.state = .present → r.corrections < 3 →
          r' = { r0 with corrections := r.corrections + 1 } ∧ (t.lineAt l.val).outOrd = x.outOrd ++ [.clock w.addr]) ∧
        (r.state = .present → 3 ≤ r.corrections →
          r' = { r0 with state := .faulty } ∧ (t.lineAt l.val).outOrd = x.outOrd ∧
            ∀ q, (t.ntu.get q).recAt .clockOff =
              ((s.ntu.get q).take .clockOff (.clockOff l.val w.addr hour m sec s.campus)).recAt .clockOff)) := by
  have hr0state : r0.state = r.state := by
    rw [hr0]
    rfl
  have hr0corrections : r0.corrections = r.corrections := by
    rw [hr0]
    rfl
  have hsec {j : State} {z : LineSt} (hj : s.Turns j l.val z) : j.tbu.sec = b := by
    have h' := congrArg (fun x : State => x.tbu.sec) hj.rest
    exact h'.trans hb.symm
  have heq {j : State} (hj : s.Turns j l.val (x.answered w.addr start g r0)) (hrec : (j.lineAt l.val).recAt w.addr = r0) :=
    correctClock_eq (hour := hour) (m := m) (sec := sec) hj.self hrec
  by_cases hc : compared
  · have hskip : ((x.answered w.addr start g r0).outOrd.contains (.clock w.addr) || (x.answered w.addr start g r0).stepPending) ≠ true := by
      obtain ⟨hmissing, hstep⟩ := hcompared.mp hc
      show (x.outOrd.contains (.clock w.addr) || x.stepPending) ≠ true
      rw [hstep, Bool.or_false, Ne, List.contains_iff_mem]
      exact hmissing
    by_cases hs : same
    · obtain ⟨t, ht, hanswers, haside, halarm, hord, htold⟩ := clock_right h hx hw hproving hg hr hr0 hy hreport hfits hrun hstate
        fun j hj hrec => by
          have hpresent : (if r0.state = .faulty then .present else r0.state) = DevState.present := by
            rw [hr0state]
            obtain hp | hf := hstate
            · rw [hp]
              rfl
            · rw [hf]
              rfl
          rw [heq hj hrec, if_neg hskip, ← ha, hsec hj, if_pos (roundDay_near.mpr (hsame.mp hs)), hpresent]
      exact ⟨t, _, ht, hanswers, haside, halarm, absurd hc, fun _ _ => ⟨rfl, hord, htold⟩, fun _ hns => absurd hs hns⟩
    · have hfar {j : State} (hj : s.Turns j l.val (x.answered w.addr start g r0)) :
          ¬roundDay (hour * 3600 + m * 60 + sec) j.tbu.sec ≤ 1 := by
        rw [← ha, hsec hj]
        exact fun hnear => hs (hsame.mpr (roundDay_near.mp hnear))
      obtain hpresent | hfaulty := hstate
      · have hnot : r.state ≠ .faulty := by
          rw [hpresent]
          exact nofun
        by_cases hfew : r.corrections < 3
        · obtain ⟨t, ht, hanswers, haside, halarm, hord⟩ := clock_corrected h hx hw hproving hg hr hr0 hy hreport hfits hrun
            (.inl hpresent) (hcompared.mp hc).1 fun j hj hrec => by
              rw [heq hj hrec, if_neg hskip, if_neg (hfar hj), if_pos (hr0state.trans hpresent), hr0corrections, if_pos hfew]
          exact ⟨t, _, ht, hanswers, haside, halarm, absurd hc, fun _ h => absurd h hs,
            fun _ _ => ⟨fun h => absurd h hnot, fun _ _ => ⟨rfl, hord⟩, fun _ h => absurd hfew (Nat.not_lt.mpr h)⟩⟩
        · obtain ⟨t, ht, hanswers, haside, halarm, hord, htold⟩ := clock_off h hx hw hproving hg hr hr0 hy hreport hfits hrun
            (.inl hpresent) fun j hj hrec => by
              rw [heq hj hrec, if_neg hskip, if_neg (hfar hj), if_pos (hr0state.trans hpresent), hr0corrections, if_neg hfew]
          exact ⟨t, _, ht, hanswers, haside, halarm, absurd hc, fun _ h => absurd h hs,
            fun _ _ => ⟨fun h => absurd h hnot, fun _ h => absurd h hfew, fun _ _ => ⟨rfl, hord, htold⟩⟩⟩
      · have hnot : r.state ≠ .present := by
          rw [hfaulty]
          exact nofun
        obtain ⟨t, ht, hanswers, haside, halarm, hord⟩ := clock_kept h hx hw hproving hg hr hr0 hy hreport hfits hrun (.inr hfaulty)
          fun j hj hrec => by
            rw [heq hj hrec, if_neg hskip, if_neg (hfar hj), if_neg (by rw [hr0state]; exact hnot)]
        exact ⟨t, r0, ht, hanswers, haside, halarm, absurd hc, fun _ h => absurd h hs,
          fun _ _ => ⟨fun _ => ⟨rfl, hord⟩, fun h => absurd h hnot, fun h => absurd h hnot⟩⟩
  · have hskip : ((x.answered w.addr start g r0).outOrd.contains (.clock w.addr) || (x.answered w.addr start g r0).stepPending) = true := by
      show (x.outOrd.contains (.clock w.addr) || x.stepPending) = true
      rw [Bool.or_eq_true, List.contains_iff_mem]
      by_contra hno
      rw [not_or, Bool.not_eq_true] at hno
      exact hc (hcompared.mpr hno)
    obtain ⟨t, ht, hanswers, haside, halarm, hord⟩ := clock_kept h hx hw hproving hg hr hr0 hy hreport hfits hrun hstate
      fun j hj hrec => by rw [heq hj hrec, if_pos hskip]
    exact ⟨t, r0, ht, hanswers, haside, halarm, fun _ => ⟨rfl, hord⟩, fun h => absurd h hc, fun h => absurd h hc⟩

end

/-! ### LOST (R42) -/

omit h hx hw hproving hg hr hr0 hy in
theorem lossHistory_window {u : State} {z : LineSt} {window : List Bool} (hline : u.lineAt l.val = z) (hlost : z.state = .lost)
    (hwindow : window = lastOf 8 (z.window ++ [true])) :
    u.lossHistory l.val true =
      if 4 ≤ (window.filter id).length then (u.setLine l.val { z with window := window }).lineRecovers l.val
      else u.setLine l.val { z with window := window } := by
  unfold State.lossHistory
  dsimp only
  rw [hline, hlost, hwindow]

section
variable {window : List Bool} (hfits : r.fits g = true) (hsession : s.dsq.session = none) (hlost : x.state = .lost)
  (hpresent : r.state = .present) (hamp : ∀ u, g.report ≠ .speaker u true) (hwindow : window = lastOf 8 (x.window ++ [true]))
include hfits hsession hlost hpresent hamp hwindow

omit h hw hproving hg hy in
/-- A reply in LOST changes its record alone, and goes into the window. -/
theorem reply_windowed : ∃ (j : State) (z : LineSt), z = { x.answered w.addr start g r0 with window := window } ∧
    s.Turns (j.setLine l.val z) l.val z ∧ (j.setLine l.val z).ntu = s.ntu ∧
    s.takeReply l.val w.addr start g =
      if 4 ≤ (window.filter id).length then (j.setLine l.val z).lineRecovers l.val else j.setLine l.val z := by
  have hpresent0 : r0.state = .present := by
    rw [hr0]
    exact hpresent
  obtain ⟨v, j, hv, hj, hturns, hdsq, hntu, _⟩ := reply_judged (s := s) (l := l) (w := w) (start := start) hr hr0
    (by rw [hlost]; exact nofun) (replied_fits (.inl hpresent0) (by rw [hr0]; exact hfits))
  have hrec : (j.lineAt l.val).recAt w.addr = r0 := by
    rw [hturns.self, answered_recAt, if_pos rfl]
  have hjlost : (j.lineAt l.val).state = .lost := by
    rw [hturns.self]
    exact hlost
  have hcompare : j.compareReport l.val w.addr g.report = j := by
    unfold State.compareReport
    dsimp only
    rw [hrec, if_pos (.inl hpresent0), hjlost]
    cases hreport : g.report with
    | clock | clear | bell => rfl
    | speaker u fault =>
      cases fault with
      | true => exact absurd hreport (hamp u)
      | false =>
        have hflag : j.ampFlag l.val w.addr false = j := by
          unfold State.ampFlag
          dsimp only
          rw [hrec, hpresent0]
        exact hflag
  refine ⟨j, _, rfl, hturns.trans (turns_setLine ..), hntu (by rw [hpresent0, hpresent]), ?_⟩
  rw [takeReply_eq hx hv (stalePoll_false (by rw [hlost]; exact nofun)), if_neg (by rw [hlost]; decide), hj, hcompare,
    handClear_idle (by rw [hdsq]; exact hsession)]
  exact lossHistory_window hturns.self hlost hwindow

omit h hx hw hproving hg hr hr0 hy hfits hsession hlost hpresent hamp hwindow in
theorem windowed_recAt {z : LineSt} (hz : z = { x.answered w.addr start g r0 with window := window }) (b : Nat) :
    z.recAt b = if b = w.addr then r0 else x.recAt b := by
  rw [hz]
  exact answered_recAt ..

theorem reply_stillLost (hfew : (window.filter id).length < 4) :
    ∃ t : State, execReply l start bytes s = .next t ∧ s.Answers t l.val w.addr r0 { y with window := window } ∧
      ∀ k, k ≠ l.val → t.lineAt k = s.lineAt k := by
  obtain ⟨j, z, hz, hturns, _, htake⟩ := reply_windowed (w := w) (start := start) hx hr hr0 hfits hsession hlost hpresent hamp hwindow
  rw [if_neg (Nat.not_le.mpr hfew)] at htake
  obtain ⟨t, ht⟩ := finish_next (s.takeReply l.val w.addr start g)
  obtain ⟨hdone, _, _⟩ := finish_turns hturns h.1 (htake ▸ ht)
  refine ⟨t, (execReply_valid h hx hw hproving hg).trans ht, answers_of_turns hdone (fun b => ?_) ?_, turns_aside hdone⟩
  · rw [windowed_recAt hz, hx]
  · rw [hz, hy]
    rfl

theorem reply_recovers (hmany : 4 ≤ (window.filter id).length) :
    ∃ t : State, execReply l start bytes s = .next t ∧
      s.Answers t l.val w.addr r0
        { y with window := window, state := .run, since := s.now, phasePtr := 0, unanswered := 0, commands := 0
                 pollTable := if x.auto then x.autoTable else x.pollTable } ∧
      (s.pgc.queue = [] → s.LineRuns t l.val) := by
  obtain ⟨j, z, hz, hturns, hntu, htake⟩ :=
    reply_windowed (w := w) (start := start) hx hr hr0 hfits hsession hlost hpresent hamp hwindow
  rw [if_pos hmany] at htake
  obtain ⟨v, hv⟩ : ∃ v, v = j.setLine l.val z := ⟨_, rfl⟩
  rw [← hv] at hturns hntu htake
  have hrecovers : v.lineRecovers l.val = (v.setLine l.val z.buildTable).enterRun l.val := by
    rw [← hturns.self]
    rfl
  refine reply_entersRun h hx hw hproving hg (htake.trans hrecovers) (hturns.trans (turns_setLine ..)) hntu (fun b => ?_) ?_
  · rw [buildTable_eq]
    exact windowed_recAt hz b
  · have htable : z.nextTable = if x.auto then x.autoTable else x.pollTable := by
      have hauto : z.autoTable = x.autoTable := autoTable_congr fun b => by
        rw [windowed_recAt hz]
        split
        next hb =>
          rw [hr0, hr, hb]
          exact ⟨rfl, rfl⟩
        · exact ⟨rfl, rfl⟩
      unfold LineSt.nextTable
      rw [hauto, hz]
      rfl
    rw [buildTable_eq, htable, hz, hy]
    rfl

end

end

end Sys2Proof.Machine
end

