-- ==== Sys2Proof/Proofs/ClearReports.lean ====
section
/-! What a clear station's reply makes of its record, and of the drill that times its building (R39, R163, R164); REPLY (O34). -/

set_option autoImplicit false

namespace Sys2Proof.Machine

open Sys2Proof

/-! ### What follows a reply leaves of the drill -/

/-- A reply clears the line's count, enters the window, or brings the line to RUN. -/
theorem lossHistory_good (s : State) (l : Nat) :
    s.lossHistory l true = s ∨ ∃ x, s.lossHistory l true = s.setLine l x ∨ s.lossHistory l true = (s.setLine l x).lineRecovers l := by
  unfold State.lossHistory
  dsimp only
  split
  · exact .inr ⟨_, .inl (if_neg (by rw [if_pos rfl]; decide))⟩
  · split
    · exact .inr ⟨_, .inr rfl⟩
    · exact .inr ⟨_, .inl rfl⟩
  · exact .inl rfl

theorem lossHistory_good_rest (s : State) (l : Nat) : (s.lossHistory l true).rest = s.rest := by
  obtain h | ⟨x, h | h⟩ := lossHistory_good s l
  · rw [h]
  · rw [h]
    rfl
  · rw [h]
    exact enterRun_rest ..

theorem enterRun_sess (s : State) (l : Nat) : (s.enterRun l).sess = s.sess := by
  obtain ⟨a, o, h, _⟩ := enterRun_eq s l
  rw [h, sess_lineUp, sess_raise, sess_setLine]

theorem lossHistory_good_sess (s : State) (l : Nat) : (s.lossHistory l true).sess = s.sess := by
  obtain h | ⟨x, h | h⟩ := lossHistory_good s l
  · rw [h]
  · rw [h, sess_setLine]
  · rw [h]
    exact enterRun_sess ..

theorem finish_sess {s t : State} (ht : finish s = .next t) : t.sess = s.sess := by
  rw [← Host.Outcome.next.inj ht]
  unfold State.sess
  rw [rejudge_dsq]
  exact sess_settle s

theorem turns_withSession (s : State) (l : Nat) (d : Option Session) : s.Turns (s.withSession d) l (s.lineAt l) :=
  ⟨(turns_refl s l).line, rfl, rfl, rfl, fun z => ⟨(s.zoneAt z).degraded, rfl⟩⟩

/-! ### A session whose building has cleared -/

/-- Once every line of the building has cleared, no judgement is left to make. -/
theorem timingEnded_allCleared {s : State} {d : Session} (h : d.allCleared = true) :
    (s.timingEnded d).results = d.results ∧ (s.timingEnded d).allResults = d.allResults := by
  have hfold : ∀ ls : List Nat, (∀ l, l ∈ ls → (d.resultOf l).isSome = true) →
      ls.foldl (fun d l => if (d.resultOf l).isSome then d else d.setResult l (s.judgeLine l)) d = d := by
    intro ls
    induction ls with
    | nil => exact fun _ => rfl
    | cons l ls ih =>
      intro hall
      rw [List.foldl_cons, if_pos (hall l List.mem_cons_self)]
      exact ih fun k hk => hall k (List.mem_cons_of_mem _ hk)
  have hjudged (l : Nat) (hl : l ∈ d.building) : (d.resultOf l).isSome = true := by
    have hcleared := List.all_eq_true.mp h l hl
    revert hcleared
    cases d.resultOf l with
    | none => exact fun h => absurd h Bool.false_ne_true
    | some r => exact fun _ => rfl
  unfold State.timingEnded
  split
  · rw [hfold d.building hjudged]
    exact ⟨rfl, rfl⟩
  · exact ⟨rfl, rfl⟩

theorem timingEnded_twice (s t : State) (d : Session) : t.timingEnded (s.timingEnded d) = s.timingEnded d := by
  refine timingEnded_before ?_
  unfold State.timingEnded
  split
  · exact nofun
  next h => exact h

theorem stageBegun_fields (s : State) (d : Session) (k : Nat) (c : StageCopy) :
    (s.stageBegun d k c).stage = k ∧ (s.stageBegun d k c).stageSince = s.now ∧ (s.stageBegun d k c).results = d.results := by
  unfold State.stageBegun
  dsimp only
  split <;> exact ⟨rfl, rfl, rfl⟩

theorem endStage_next {s : State} {d : Session} (hd : s.dsq.session = some d) (hnext : d.stage + 1 < d.stages.length) :
    s.endStage = s.endTiming.beginStage (d.stage + 1) := by
  obtain ⟨_, _, hstage, hstages⟩ := timingEnded_kept s d
  unfold State.endStage
  dsimp only
  rw [endTiming_session hd]
  dsimp only
  rw [hstage, hstages, if_pos hnext]

section
variable {s v t : State} {l : Nat} {d : Session} (hv : v.rest = s.rest) (hd : v.dsq.session = some d) (hcleared : d.allCleared = true)
  (ht : finish (v.endStage.lossHistory l true) = .next t)
include hv hd hcleared ht

/-- The last stage of a drill ends: the session is over, and its record is written (R164, R167). -/
theorem lastClearing (hlast : d.stages.length ≤ d.stage + 1) : t.dsq.session = none ∧
    ∃ x : DrillRecord, t.dsq.records = (x :: s.dsq.records).take 16 ∧ x.reason = .completed ∧ x.results = d.allResults := by
  have hended := endStage_last hd hlast
  have hrest : t.rest = (v.endTiming.endSession .completed).rest := by
    rw [finish_rest ht, lossHistory_good_rest, hended]
  obtain ⟨hpnl, _, hrecords⟩ := records_of_rest hrest
  obtain ⟨_, x, hx, hreason, _, _, _, _, hresults⟩ := endSession_record (endTiming_session hd) hpnl hrecords
  refine ⟨finish_vacant ?_ ht, x, ?_, hreason, ?_⟩
  · rw [hended]
    exact vacant_of_steady (steady_lossHistory _ l true) (endSession_vacant ..)
  · have hkept := (records_of_rest hv).2.2
    have htiming : v.endTiming.dsq.records = v.dsq.records := rfl
    rw [hx, htiming, hkept]
  · rw [hresults, timingEnded_twice]
    exact (timingEnded_allCleared hcleared).2

/-- A stage that is not the last ends: the session goes on to the next (R162, R164). -/
theorem nextClearing (hnext : d.stage + 1 < d.stages.length) :
    ∃ e, t.dsq.session = some e ∧ e.stage = d.stage + 1 ∧ e.stageSince = s.now ∧ e.results = d.results := by
  have hnow : v.now = s.now := by
    have h' := congrArg State.now hv
    exact h'
  obtain ⟨_, _, _, hstages⟩ := timingEnded_kept v d
  have hc : (v.timingEnded d).stages[d.stage + 1]? = some d.stages[d.stage + 1] := by
    rw [hstages]
    exact List.getElem?_eq_getElem hnext
  obtain ⟨e, he, hfixed⟩ := beginStage_session (endTiming_session hd) hc
  have hsess : t.sess = (v.endTiming.beginStage (d.stage + 1)).sess := by
    rw [finish_sess ht, lossHistory_good_sess, endStage_next hd hnext]
  obtain ⟨e', he', hfixed'⟩ := session_of_sess hsess he
  obtain ⟨hstage, hsince, hresults⟩ := stageBegun_fields v.endTiming (v.timingEnded d) (d.stage + 1) d.stages[d.stage + 1]
  have hall := hfixed'.trans hfixed
  have hestage := congrArg Session.stage hall
  have hesince := congrArg Session.stageSince hall
  have heresults := congrArg Session.results hall
  exact ⟨e', he', hestage.trans hstage, hesince.trans (hsince.trans hnow),
    heresults.trans (hresults.trans (timingEnded_allCleared hcleared).1)⟩

end

section
variable {s : State} {l : Fin 6} {start n : Nat} {bytes : List Byte} {x y : LineSt} {w : Transaction} {g : GoodReply} {r r0 : DevRec}
  (h : s.ready) (hx : x = s.lineAt l.val) (hw : x.transaction = some w) (hproving : w.proving = false)
  (hg : replyOf w.addr start bytes = some g) (hr : r = x.recAt w.addr) (hr0 : r0 = r.heard g)
  (hy : y = { x.core with transaction := none, delay := some (moveDelay x.delay start) })
  (hrun : x.state = .run) (hreport : g.report = .clear n)
include h hx hw hproving hg hr hr0 hy hrun hreport

omit h hx hw hproving hg hr hr0 hy hrun in
/-- What a clear station's reply makes of its record (R39). -/
theorem replied_clear {r' : DevRec}
    (hr' : r0.state = .absent ∧ r0.listed = false ∧ r' = { r0 with state := .unlisted, kind := some .clear, serial := some g.serial } ∨
      r0.state = .unlisted ∧ r' = r0 ∨
      (r0.state = .present ∨ r0.state = .missing ∨ r0.state = .foreign ∨ r0.state = .faulty) ∧
        r' = { r0 with state := if r0.fits g then (if r0.state = .faulty then .faulty else .present) else .foreign }) :
    r0.replied g = r' ∧ r'.state ≠ .absent := by
  have hbecomes : becomes g = .present := by
    unfold becomes
    rw [hreport]
  have hkind : reportKind g.report = .clear := by
    rw [hreport]
    rfl
  unfold DevRec.replied
  obtain ⟨hstate, hlisted, hr'⟩ | ⟨hstate, hr'⟩ | ⟨hstate, hr'⟩ := hr'
  · rw [hstate, hlisted, hr', ← hkind]
    exact ⟨rfl, nofun⟩
  · rw [hstate, hr', hstate]
    exact ⟨rfl, nofun⟩
  · rw [hr']
    obtain ⟨listed, kind, zone, serial, state, misses, report, corrections⟩ := r0
    obtain rfl | rfl | rfl | rfl : state = .present ∨ state = .missing ∨ state = .foreign ∨ state = .faulty := hstate
    · dsimp only
      split <;> exact ⟨rfl, nofun⟩
    · dsimp only
      rw [hbecomes]
      split <;> exact ⟨rfl, nofun⟩
    · dsimp only
      rw [hbecomes]
      split <;> exact ⟨rfl, nofun⟩
    · dsimp only
      split <;> exact ⟨rfl, nofun⟩

theorem reply_clear {r' : DevRec} (hsession : s.dsq.session = none)
    (hr' : r.state = .absent ∧ r.listed = false ∧ r' = { r0 with state := .unlisted, kind := some .clear, serial := some g.serial } ∨
      r.state = .unlisted ∧ r' = r0 ∨
      (r.state = .present ∨ r.state = .missing ∨ r.state = .foreign ∨ r.state = .faulty) ∧
        r' = { r0 with state := if r.fits g then (if r.state = .faulty then .faulty else .present) else .foreign }) :
    ∃ t : State, execReply l start bytes s = .next t ∧ s.Answers t l.val w.addr r' { y with unanswered := 0 } ∧
      (∀ k, k ≠ l.val → t.lineAt k = s.lineAt k) ∧
      ∀ q, (t.ntu.get q).recAt .device =
        (if r'.state = r.state then s.ntu.get q
         else (s.ntu.get q).take .device (.device l.val w.addr r'.kind r.state r'.state)).recAt .device := by
  have hheard : r0.state = r.state ∧ r0.listed = r.listed ∧ r0.fits g = r.fits g := by
    rw [hr0]
    exact ⟨rfl, rfl, rfl⟩
  rw [← hheard.1, ← hheard.2.1, ← hheard.2.2] at hr'
  obtain ⟨hreplied, hstate⟩ := replied_clear hreport hr'
  obtain ⟨v, j, hv, hj, hturns, hdsq, _, htold⟩ := reply_judged (s := s) (l := l) (start := start) hr hr0 (by rw [hrun]; exact nofun) hreplied
  have hu : ((v.judgeReply l.val w.addr g).compareReport l.val w.addr g.report).handClear l.val w.addr g.report = j := by
    rw [hj, hreport, compareReport_clear, handClear_idle (by rw [hdsq]; exact hsession)]
  obtain ⟨t, ht, hanswers, haside, _, _, _, hrecs⟩ :=
    reply_inRun h hx hw hproving hg hy hrun hv hu hturns (fun b => answered_recAt ..) (answered_core hy r')
  exact ⟨t, ht, hanswers, haside, fun q => (hrecs q .device).trans (htold hstate q)⟩

/-! ### Clear stations in a drill (R163, R164) -/

/-- What a drill makes of the press count of a clear station it times. -/
def State.pressed (s : State) (d : Session) (l a n : Nat) : State :=
  match d.baselineOf l a with
  | none => s.withSession (some (d.setBaseline l a n))
  | some k => if n = k then s else s.clearLine d l

omit h hx hw hproving hg hr hr0 hy hrun hreport in
theorem pressed_first {j : State} {d : Session} {a : Nat} (hbase : d.baselineOf l.val a = none) :
    j.pressed d l.val a n = j.withSession (some (d.setBaseline l.val a n)) := by
  unfold State.pressed
  rw [hbase]

omit h hx hw hproving hg hr hr0 hy hrun hreport in
theorem pressed_again {j : State} {d : Session} {a k : Nat} (hbase : d.baselineOf l.val a = some k) :
    j.pressed d l.val a n = if n = k then j else j.clearLine d l.val := by
  unfold State.pressed
  rw [hbase]

section
variable {d cleared : Session} (hd : s.dsq.session = some d) (hpresent : r.state = .present) (hfits : r.fits g = true)
  (hlisted : r.listed = true) (hcleared : cleared = d.setResult l.val (.cleared ((s.now - d.stageSince) / 8)))
include hd hpresent hfits hlisted

omit h hx hw hproving hg hy in
/-- A clear station's reply in a drill, when the drill takes it. -/
theorem clear_judged : ∃ v j : State, v = s.setLine l.val (x.reported w.addr start g) ∧ j.dsq = s.dsq ∧
    s.Turns j l.val (x.answered w.addr start g r0) ∧
    ((v.judgeReply l.val w.addr g).compareReport l.val w.addr g.report).handClear l.val w.addr g.report =
      if d.running = true ∧ d.timing = .running ∧ l.val ∈ d.building ∧ d.resultOf l.val = none then
        j.pressed d l.val w.addr n
      else j := by
  have hpresent0 : r0.state = .present := by
    rw [hr0]
    exact hpresent
  obtain ⟨v, j, hv, hj, hturns, hdsq, _, _⟩ := reply_judged (s := s) (l := l) (w := w) (start := start) hr hr0
    (by rw [hrun]; exact nofun) (replied_fits (.inl hpresent0) (by rw [hr0]; exact hfits))
  have hrec : (j.lineAt l.val).recAt w.addr = r0 := by
    rw [hturns.self, answered_recAt, if_pos rfl]
  have hexpected : r0.expectedClear = true := by
    have hkind := fits_kind hfits
    rw [hreport] at hkind
    unfold DevRec.expectedClear
    rw [hr0]
    exact Bool.and_eq_true_iff.mpr ⟨hlisted, decide_eq_true hkind⟩
  have htakes : j.takesReport d l.val w.addr = true ↔
      d.running = true ∧ d.timing = .running ∧ l.val ∈ d.building ∧ d.resultOf l.val = none := by
    unfold State.takesReport
    dsimp only
    rw [hrec, hexpected, hpresent0]
    simp only [Bool.and_true, Bool.and_eq_true, decide_eq_true_eq, List.contains_iff_mem, Option.isNone_iff_eq_none, ne_eq,
      reduceCtorEq, not_false_eq_true, decide_true, and_assoc]
  refine ⟨v, j, hv, hdsq, hturns, ?_⟩
  rw [hj, hreport, compareReport_clear]
  show j.clearReport l.val w.addr n = _
  unfold State.clearReport
  rw [hdsq, hd]
  dsimp only
  by_cases hall : d.running = true ∧ d.timing = .running ∧ l.val ∈ d.building ∧ d.resultOf l.val = none
  · rw [if_pos (htakes.mpr hall), if_pos hall]
    rfl
  · rw [if_neg fun ht => hall (htakes.mp ht), if_neg hall]

/-- A clear station's reply that leaves the drill's course as it is. -/
theorem reply_inDrill {d' : Session}
    (hcourse : ∀ j : State, j.dsq = s.dsq → s.Turns j l.val (x.answered w.addr start g r0) →
      ∃ u : State, (if d.running = true ∧ d.timing = .running ∧ l.val ∈ d.building ∧ d.resultOf l.val = none then
          j.pressed d l.val w.addr n
        else j) = u ∧ j.Turns u l.val (j.lineAt l.val) ∧ u.dsq.session = some d') :
    ∃ t : State, execReply l start bytes s = .next t ∧ s.Answers t l.val w.addr r0 { y with unanswered := 0 } ∧
      (∀ k, k ≠ l.val → t.lineAt k = s.lineAt k) ∧ t.dsq.session = some d' := by
  obtain ⟨v, j, hv, hdsq, hturns, hj⟩ := clear_judged (w := w) (start := start) hr hr0 hrun hreport hd hpresent hfits hlisted
  obtain ⟨u, hu, hkept, hsession⟩ := hcourse j hdsq hturns
  have hall := hturns.trans hkept
  rw [hturns.self] at hall
  obtain ⟨t, ht, hanswers, haside, _, _, hdone, _⟩ :=
    reply_inRun h hx hw hproving hg hy hrun hv (hj.trans hu) hall (fun b => answered_recAt ..) (answered_core hy r0)
  exact ⟨t, ht, hanswers, haside, by rw [hdone]; exact hsession⟩

theorem reply_notTaken (hnot : d.running = false ∨ d.timing ≠ .running ∨ l.val ∉ d.building ∨ d.resultOf l.val ≠ none ∨
      d.baselineOf l.val w.addr = some n) :
    ∃ t : State, execReply l start bytes s = .next t ∧ s.Answers t l.val w.addr r0 { y with unanswered := 0 } ∧
      (∀ k, k ≠ l.val → t.lineAt k = s.lineAt k) ∧ t.dsq.session = some d := by
  refine reply_inDrill h hx hw hproving hg hr hr0 hy hrun hreport hd hpresent hfits hlisted fun j hdsq _ => ?_
  refine ⟨j, ?_, turns_refl .., by rw [hdsq]; exact hd⟩
  split
  next hall =>
    obtain ⟨hrunning, htiming, hbuilding, hresult⟩ := hall
    obtain hno | hno | hno | hno | hsame := hnot
    · exact absurd (hno.symm.trans hrunning) Bool.false_ne_true
    · exact absurd htiming hno
    · exact absurd hbuilding hno
    · exact absurd hresult hno
    · exact (pressed_again hsame).trans (if_pos rfl)
  · rfl

section
variable (hrunning : d.running = true) (htiming : d.timing = .running) (hbuilding : l.val ∈ d.building) (hresult : d.resultOf l.val = none)
include hrunning htiming hbuilding hresult

theorem reply_baseline (hbase : d.baselineOf l.val w.addr = none) :
    ∃ t : State, execReply l start bytes s = .next t ∧ s.Answers t l.val w.addr r0 { y with unanswered := 0 } ∧
      (∀ k, k ≠ l.val → t.lineAt k = s.lineAt k) ∧ t.dsq.session = some (d.setBaseline l.val w.addr n) := by
  refine reply_inDrill h hx hw hproving hg hr hr0 hy hrun hreport hd hpresent hfits hlisted fun j _ _ => ?_
  refine ⟨_, ?_, turns_withSession j l.val _, rfl⟩
  rw [if_pos ⟨hrunning, htiming, hbuilding, hresult⟩, pressed_first hbase]

variable {k : Nat} (hbase : d.baselineOf l.val w.addr = some k) (hpressed : k ≠ n)
include hcleared hbase hpressed

omit h hx hw hproving hg hr hr0 hy hrun hreport hd hpresent hfits hlisted hrunning htiming hbuilding hresult hbase hpressed in
theorem clearLine_eq {j : State} (hnow : j.now = s.now) :
    j.clearLine d l.val =
      if cleared.allCleared && d.current.any fun c => decide (c.stage.advance = .clearAll) then (j.withSession (some cleared)).endStage
      else j.withSession (some cleared) := by
  rw [hcleared, ← hnow]
  rfl

omit h hx hw hproving hg hr hr0 hy hrun hreport hd hpresent hfits hlisted hrunning htiming hbuilding hresult hcleared hbase hpressed in
theorem now_of_turns {j : State} {z : LineSt} (hturns : s.Turns j l.val z) : j.now = s.now := by
  have h' := congrArg State.now hturns.rest
  exact h'

theorem reply_clears (hstays : cleared.allCleared = false ∨ ∀ c, d.current = some c → c.stage.advance ≠ .clearAll) :
    ∃ t : State, execReply l start bytes s = .next t ∧ s.Answers t l.val w.addr r0 { y with unanswered := 0 } ∧
      (∀ k, k ≠ l.val → t.lineAt k = s.lineAt k) ∧ t.dsq.session = some cleared := by
  refine reply_inDrill h hx hw hproving hg hr hr0 hy hrun hreport hd hpresent hfits hlisted fun j _ hturns => ?_
  refine ⟨_, ?_, turns_withSession j l.val (some cleared), rfl⟩
  rw [if_pos ⟨hrunning, htiming, hbuilding, hresult⟩, pressed_again hbase, if_neg hpressed.symm, clearLine_eq hcleared (now_of_turns hturns), if_neg]
  rw [Bool.and_eq_true, Option.any_eq_true]
  rintro ⟨hall, c, hc, hmode⟩
  obtain hno | hno := hstays
  · exact absurd (hno.symm.trans hall) Bool.false_ne_true
  · exact hno c hc (of_decide_eq_true hmode)

omit hy in
/-- The last line of the building clears, in a stage that waits for it. -/
theorem reply_clearsAll {c : StageCopy} (hall : cleared.allCleared = true) (hc : d.current = some c) (hmode : c.stage.advance = .clearAll) :
    ∃ t : State, execReply l start bytes s = .next t ∧
      (d.stages.length ≤ d.stage + 1 → t.dsq.session = none ∧
        ∃ rec_ : DrillRecord, t.dsq.records = (rec_ :: s.dsq.records).take 16 ∧ rec_.reason = .completed ∧
          rec_.results = cleared.allResults) ∧
      (d.stage + 1 < d.stages.length →
        ∃ e, t.dsq.session = some e ∧ e.stage = d.stage + 1 ∧ e.stageSince = s.now ∧ e.results = cleared.results) := by
  obtain ⟨v, j, hv, _, hturns, hj⟩ := clear_judged (w := w) (start := start) hr hr0 hrun hreport hd hpresent hfits hlisted
  have hends : (d.current.any fun c => decide (c.stage.advance = .clearAll)) = true := by
    rw [hc, Option.any_some, decide_eq_true hmode]
  rw [if_pos ⟨hrunning, htiming, hbuilding, hresult⟩, pressed_again hbase, if_neg hpressed.symm, clearLine_eq hcleared (now_of_turns hturns), hall, hends, Bool.and_self, if_pos rfl] at hj
  obtain ⟨t, ht⟩ := finish_next (s.takeReply l.val w.addr start g)
  have hdone := ht
  rw [takeReply_eq hx hv (stalePoll_false (by rw [hrun]; exact nofun)), if_neg (by rw [hrun]; decide), hj] at hdone
  have hstage : cleared.stage = d.stage ∧ cleared.stages = d.stages := by
    rw [hcleared]
    exact ⟨rfl, rfl⟩
  have hrest : (j.withSession (some cleared)).rest = s.rest := hturns.rest
  refine ⟨t, (execReply_valid h hx hw hproving hg).trans ht, fun hlast => ?_, fun hnext => ?_⟩
  · exact lastClearing hrest rfl hall hdone (by rw [hstage.1, hstage.2]; exact hlast)
  · rw [← hstage.1]
    exact nextClearing hrest rfl hall hdone (by rw [hstage.1, hstage.2]; exact hnext)

end

end

end

/-- Settles O34: what is no valid reply by `execReply_invalid`; in DISCOVERY `reply_nextAddress` and `reply_lastAddress`, in RUN
`reply_agrees`, `reply_clock` and `reply_clear`, in LOST `reply_stillLost` and `reply_recovers`, in a drill the clear stations' lemmas. -/
theorem replyTaken : Obligations.ReplyTaken := by
  intro s l start bytes x w h hx hw hproving
  refine ⟨fun hg => execReply_invalid h hx hw hproving hg, fun g r r0 y hg hr hr0 hy => ?_⟩
  intro leaves aside running
  have hleaves {t : State} {rec_ : DevRec} {core : LineSt} (ht : execReply l start bytes s = .next t)
      (ha : s.Answers t l.val w.addr rec_ core) : leaves t rec_ core :=
    ⟨ht, fun b => by rw [ha.recs, hx], ha.core, ha.others, ha.rest⟩
  refine ⟨fun hfits hsession => ⟨fun hstate htry hdisc hlisted => ⟨fun haddr => ?_, fun haddr => ?_⟩, fun hrun hpresent hagrees => ?_,
    fun hour m sec a b same compared hrun hstate hreport ha hb hsame hcompared => ?_,
    fun window hlost hpresent hamp hwindow => ⟨fun hfew => ?_, fun hmany => ?_⟩⟩,
    fun n hrun hreport => ⟨fun r' hsession hr' => ?_, fun d cleared hd hpresent hfits hlisted hcleared =>
      ⟨fun hnot => ?_, fun hrunning htiming hbuilding hresult => ⟨fun hbase => ?_, fun k hbase hpressed =>
        ⟨fun hstays => ?_, fun c hall hc hmode => ?_⟩⟩⟩⟩⟩
  · obtain ⟨t, ht, ha, haside⟩ := reply_nextAddress h hx hw hproving hg hr hr0 hy hfits hsession hstate htry hlisted hdisc haddr
    exact ⟨t, hleaves ht ha, haside⟩
  · obtain ⟨t, ht, ha, hruns⟩ := reply_lastAddress h hx hw hproving hg hr hr0 hy hfits hsession hstate htry hlisted hdisc haddr
    exact ⟨t, hleaves ht ha, hruns⟩
  · have hagrees' : s.agrees r g.report := by
      revert hagrees
      cases g.report <;> exact id
    obtain ⟨t, ht, ha, haside⟩ := reply_agrees h hx hw hproving hg hr hr0 hy hfits hsession hrun hpresent hagrees'
    exact ⟨t, hleaves ht ha, haside⟩
  · obtain ⟨t, r', ht, ha, haside, hall⟩ :=
      reply_clock h hx hw hproving hg hr hr0 hy hreport hfits hrun hstate ha hb hsame hcompared
    exact ⟨t, r', hleaves ht ha, haside, hall⟩
  · obtain ⟨t, ht, ha, haside⟩ := reply_stillLost h hx hw hproving hg hr hr0 hy hfits hsession hlost hpresent hamp hwindow hfew
    exact ⟨t, hleaves ht ha, haside⟩
  · obtain ⟨t, ht, ha, hruns⟩ := reply_recovers h hx hw hproving hg hr hr0 hy hfits hsession hlost hpresent hamp hwindow hmany
    exact ⟨t, hleaves ht ha, hruns⟩
  · obtain ⟨t, ht, ha, haside, htold⟩ := reply_clear h hx hw hproving hg hr hr0 hy hrun hreport hsession hr'
    exact ⟨t, hleaves ht ha, haside, htold⟩
  · obtain ⟨t, ht, ha, haside, hdrill⟩ := reply_notTaken h hx hw hproving hg hr hr0 hy hrun hreport hd hpresent hfits hlisted hnot
    exact ⟨t, hleaves ht ha, haside, hdrill⟩
  · obtain ⟨t, ht, ha, haside, hdrill⟩ := reply_baseline h hx hw hproving hg hr hr0 hy hrun hreport hd hpresent hfits hlisted
      hrunning htiming hbuilding hresult hbase
    exact ⟨t, hleaves ht ha, haside, hdrill⟩
  · obtain ⟨t, ht, ha, haside, hdrill⟩ := reply_clears h hx hw hproving hg hr hr0 hy hrun hreport hd hpresent hfits hlisted hcleared
      hrunning htiming hbuilding hresult hbase hpressed hstays
    exact ⟨t, hleaves ht ha, haside, hdrill⟩
  · exact reply_clearsAll h hx hw hproving hg hr hr0 hrun hreport hd hpresent hfits hlisted hcleared hrunning htiming hbuilding hresult
      hbase hpressed hall hc hmode

end Sys2Proof.Machine
end
